-- ==== Sys2Proof/Word.lean ====
section
/-! DEFINITION. The word types of the part's serial lines: a byte, the two-byte and the three-byte field (10.1). -/

namespace Sys2Proof

/-- One byte on the uplink, a segment line or the sensor line. -/
abbrev Byte := BitVec 8

/-- A two-byte field of a frame, high byte first (10.1). -/
abbrev Half := BitVec 16

/-- A three-byte field of a frame, high byte first (10.1): a load, a ceiling, a margin. -/
abbrev Tri := BitVec 24

end Sys2Proof
end

