-- ==== Sys2Proof/Config.lean ====
section
/-! DEFINITION. The principal numbers of the part (00_scope.md section 5), and the length of the model's clock tick. -/

namespace Sys2Proof.Config

/-- Heliostat indices run from 0 to 4095 (00_scope.md section 5). -/
def heliostats : Nat := 4096
/-- Aim-point indices run from 0 to 255 (R22). -/
def aimPoints : Nat := 256
/-- Standby-point indices run from 0 to 15 (R24). -/
def standbyPoints : Nat := 16
/-- Zones run from 0 to 63 (R26). -/
def zones : Nat := 64
/-- Groups run from 0 to 63 (R4). -/
def groups : Nat := 64
/-- Segment lines run from 0 to 3 (R54). -/
def segments : Nat := 4
/-- Program slots run from 0 to 7 (R106). -/
def slots : Nat := 8
/-- The greatest load, budget and ceiling in load units (R26, R28). -/
def maxLoad : Nat := 8388607
/-- Entries of one Move Queue (R58). -/
def moveQueue : Nat := 64
/-- Entries of the Report Queue (R175). -/
def reportQueue : Nat := 128
/-- Frames of the uplink receive buffer (R170). -/
def rxFrames : Nat := 4
/-- Completed steps after which a run ends STEP LIMIT (R111). -/
def stepLimit : Nat := 1024
/-- Records of one page (R179). -/
def pageSize : Nat := 16

/-- The stale timer of a zone, in ms: 2 s (R88). -/
def staleMs : Nat := 2000
/-- The survey limit, in ms: 90 s (R147). -/
def surveyMs : Nat := 90000
/-- The watch interval, in ms: 10 s (R61). -/
def watchMs : Nat := 10000
/-- The night poll interval, in ms: 120 s (R64). -/
def nightPollMs : Nat := 120000
/-- The spacing of night polls on one segment, in ms (R64). -/
def nightSpacingMs : Nat := 50
/-- The answer window after a segment request, in ms (R56). -/
def answerWindowMs : Nat := 4
/-- One step of the wake settle count, in ms (R157). -/
def wakeStepMs : Nat := 25
/-- The wake settle count at which WAKING ends (R157). -/
def wakeSteps : Nat := 8

/-- The time that passes in one step on an empty queue, in ms.
DESIGN CHOICE (log entry 2): the spec has no row for a clock tick; the model's clock runs while no command waits. -/
def tickMs : Nat := 1

end Sys2Proof.Config
end

