-- ==== Sys2Proof/Syntax.lean ====
section
/-! DEFINITION. The commands of the block: one constructor for each row of spec/opcode_table.json, with its operands. -/

namespace Sys2Proof

/-- The seven tables of the Table Store (R179), in the order of their codes (10.3). -/
inductive TableId where
  | heliostat
  | aim
  | standby
  | zone
  | field
  | critical
  | watch
  deriving DecidableEq, Repr

/-- What a commit copies and what a load fault names (R180, R186): one page of a table, by the table and the page's
first index, or the protection marks. -/
inductive PageRef where
  | page (table : TableId) (first : Nat)
  | marks
  deriving DecidableEq, Repr

/-- The commands, one for each row of spec/opcode_table.json, in the table's order.
An order command (`aim` to `protectionStatus`) is the TAKING of that order from the receive buffer (R171); its
operands are the fields of the order's body as 10.3 lays them out, the tag first.
A segment is named by `Fin 4`, a heliostat by its index, a zone by its number. -/
inductive Instr where
  /-- POWER_ON_RESET (R146). -/
  | powerOnReset
  /-- PIN_RESET (R146). -/
  | pinReset
  /-- RESET_RELEASE (R146). -/
  | resetRelease
  /-- TABLE_LOADING_DONE (R180); `damaged` names the pages (and marks) of the store newly found damaged. -/
  | tableLoadingDone (damaged : List PageRef)
  /-- FSAFE_ASSERT (R158). -/
  | fsafeAssert
  /-- FSAFE_RELEASE (R158). -/
  | fsafeRelease
  /-- UPLINK_FRAME (R168): bytes that arrive on ULP_RXD with no gap above 1 ms between them. -/
  | uplinkFrame (bytes : List Byte)
  /-- TAKE_NON_ORDER_FRAME (R171). -/
  | takeNonOrderFrame
  /-- AIM (R31). -/
  | aim (tag : Byte) (helio : Half) (point : Byte)
  /-- SET CEILING (R49); the value FFFFFFh is the mark clear. -/
  | setCeiling (tag first last : Byte) (value : Tri)
  /-- READ ZONE (R50). -/
  | readZone (tag zone : Byte)
  /-- DEFOCUS (R14). -/
  | defocus (tag scope : Byte) (index : Half)
  /-- STOW (R14). -/
  | stow (tag scope : Byte) (index : Half)
  /-- CLEAR FAULT (R15). -/
  | clearFault (tag scope : Byte) (index : Half)
  /-- FLAGS SET (R9). -/
  | flagsSet (tag group mask : Byte)
  /-- FLAGS CLEAR (R10). -/
  | flagsClear (tag group mask : Byte)
  /-- READ HELIOSTAT (R16). -/
  | readHeliostat (tag : Byte) (helio : Half)
  /-- PASS (R20); the first byte of `body` is the maintenance kind. -/
  | pass (tag : Byte) (helio : Half) (body : List Byte)
  /-- WATCH ON (R96). -/
  | watchOn (tag : Byte)
  /-- WATCH OFF (R95). -/
  | watchOff (tag : Byte)
  /-- CLEAR TRIP (R103). -/
  | clearTrip (tag : Byte)
  /-- LOCK LIMITS (R99). -/
  | lockLimits (tag : Byte)
  /-- LOAD PROGRAM (R109); `records` is every byte after the step count. -/
  | loadProgram (tag slot count : Byte) (records : List Byte)
  /-- START PROGRAM (R132). -/
  | startProgram (tag slot level : Byte)
  /-- HALT PROGRAM (R129). -/
  | haltProgram (tag slot : Byte)
  /-- READ PROGRAM STATUS (R127). -/
  | readProgramStatus (tag slot : Byte)
  /-- SET STATE (R151). -/
  | setState (tag target : Byte)
  /-- FIELD DEFOCUS (R161). -/
  | fieldDefocus (tag : Byte)
  /-- RESET (R162). -/
  | reset (tag : Byte)
  /-- STATUS (R164). -/
  | status (tag : Byte)
  /-- TABLE WRITE (R181); `records` is every byte after the record count. -/
  | tableWrite (tag table : Byte) (first : Half) (count : Byte) (records : List Byte)
  /-- TABLE READ (R188). -/
  | tableRead (tag table : Byte) (first : Half) (count : Byte)
  /-- PROTECT (R189). -/
  | protect (tag block : Byte)
  /-- UNPROTECT ALL (R189). -/
  | unprotectAll (tag : Byte)
  /-- PROTECTION STATUS (R190). -/
  | protectionStatus (tag : Byte)
  /-- COMMIT_DONE (R186). -/
  | commitDone
  /-- SEND_ANSWER_FRAME (R174). -/
  | sendAnswerFrame
  /-- SEND_REPORT_FRAME (R175). -/
  | sendReportFrame
  /-- FRAME_SENT (R174). -/
  | frameSent
  /-- NIGHT_SPACING_EXPIRY (R64). -/
  | nightSpacingExpiry (seg : Fin 4)
  /-- SEGMENT_REQUEST_SENT (R56). -/
  | segmentRequestSent (seg : Fin 4)
  /-- DRIVE_ANSWER (R56): the bytes of one answer, its start byte first. -/
  | driveAnswer (seg : Fin 4) (frame : List Byte)
  /-- DRIVE_RESPONSE_TIMEOUT (R56). -/
  | driveResponseTimeout (seg : Fin 4)
  /-- SLEW_TIMEOUT (R81). -/
  | slewTimeout (helio : Nat)
  /-- SURVEY_LIMIT (R149). -/
  | surveyLimit
  /-- WAKE_SETTLE_TICK (R157). -/
  | wakeSettleTick
  /-- WAKE_DONE (R157). -/
  | wakeDone
  /-- SENSOR_READING (R85): bytes that arrive on SNS_RXD with no gap above 1 ms between them. -/
  | sensorReading (bytes : List Byte)
  /-- STALE_EXPIRY (R90). -/
  | staleExpiry (zone : Nat)
  /-- AIM_GROUP: the active program's AIM GROUP step begins (R114). -/
  | aimGroup
  /-- QUEUE_SPACE_RESUME (R117). -/
  | queueSpaceResume
  /-- SETTLE_WAIT_END (R119). -/
  | settleWaitEnd
  /-- DEFOCUS_GROUP (R121). -/
  | defocusGroup
  /-- STOW_GROUP (R121). -/
  | stowGroup
  /-- GROUP_SETTLE_WAIT_END (R122). -/
  | groupSettleWaitEnd
  /-- CEILING (R123). -/
  | ceiling
  /-- WAIT (R124). -/
  | wait
  /-- WAIT_TIMER_EXPIRY (R124). -/
  | waitTimerExpiry
  /-- TEST (R125). -/
  | test
  /-- JUMP (R126). -/
  | jump
  /-- END (R126). -/
  | endStep
  /-- UPLINK_GAP_LIMIT (R168). -/
  | uplinkGapLimit
  /-- SENSOR_FRAME_GAP (R85). -/
  | sensorFrameGap
  /-- NIGHT_POLL_DUE (R64). -/
  | nightPollDue (seg : Fin 4)
  deriving DecidableEq, Repr

end Sys2Proof
end

