-- ==== Sys2Proof/WellFormed.lean ====
section
/-! DEFINITION. Which command terms are ones the outside can send: indices that exist, frames of the lengths chapter 10 gives. -/

namespace Sys2Proof

/-- How many records a table holds (R179). -/
def TableId.size : TableId → Nat
  | .heliostat => Config.heliostats
  | .aim => Config.aimPoints
  | .standby => Config.standbyPoints
  | .zone => Config.zones
  | .field => 1
  | .critical => Config.zones
  | .watch => 1

/-- A page starts at a multiple of 16 within its table (R179). -/
def PageRef.wellFormed : PageRef → Bool
  | .page t first => decide (first < t.size) && first % Config.pageSize == 0
  | .marks => true

/-- The operands a command of the outside world can carry. A command that is not well formed is given no meaning of its
own: its bytes or indices meet the same tests and come to nothing. -/
def Instr.wellFormed : Instr → Bool
  | .tableLoadingDone damaged => damaged.all PageRef.wellFormed
  | .uplinkFrame bytes => !bytes.isEmpty
  | .pass _ _ body => decide (1 ≤ body.length) && decide (body.length ≤ 200)
  | .loadProgram _ _ _ records => decide (records.length ≤ 224)
  | .tableWrite _ _ _ _ records => decide (records.length ≤ 176)
  | .driveAnswer _ frame => decide (7 ≤ frame.length) && decide (frame.length ≤ 207)
  | .slewTimeout h => decide (h < Config.heliostats)
  | .sensorReading bytes => !bytes.isEmpty
  | .staleExpiry z => decide (z < Config.zones)
  | .powerOnReset | .pinReset | .resetRelease | .fsafeAssert | .fsafeRelease | .takeNonOrderFrame
  | .aim _ _ _ | .setCeiling _ _ _ _ | .readZone _ _ | .defocus _ _ _ | .stow _ _ _ | .clearFault _ _ _
  | .flagsSet _ _ _ | .flagsClear _ _ _ | .readHeliostat _ _ | .watchOn _ | .watchOff _ | .clearTrip _
  | .lockLimits _ | .startProgram _ _ _ | .haltProgram _ _ | .readProgramStatus _ _ | .setState _ _
  | .fieldDefocus _ | .reset _ | .status _ | .tableRead _ _ _ _ | .protect _ _ | .unprotectAll _
  | .protectionStatus _ | .commitDone | .sendAnswerFrame | .sendReportFrame | .frameSent
  | .nightSpacingExpiry _ | .segmentRequestSent _ | .driveResponseTimeout _ | .surveyLimit | .wakeSettleTick
  | .wakeDone | .aimGroup | .queueSpaceResume | .settleWaitEnd | .defocusGroup | .stowGroup
  | .groupSettleWaitEnd | .ceiling | .wait | .waitTimerExpiry | .test | .jump | .endStep
  | .uplinkGapLimit | .sensorFrameGap | .nightPollDue _ => true

end Sys2Proof
end

