-- ==== Sys2Proof/Decode.lean ====
section
/-! DEFINITION. The commands that a word of the table's bits spells: none, for no row of spec/opcode_table.json gives bits. -/

namespace Sys2Proof

/-- The command that a word spells by the bits of spec/opcode_table.json.
Every row of the table has an empty list of fields and no fixed bits, so no word spells a command: the commands are
frames, pin levels and the part's own timed events, not encoded words (98_reader.md: rows with fixed bits 0). -/
def decodeTableWord (_nbits _w : Nat) : Option Instr := none

end Sys2Proof
end

