-- ==== Sys2Proof/Machine/State.lean ====
section
/-! DEFINITION. The state of the part as plain data: the records, lists and registers each block holds, and the state after reset. -/

namespace Sys2Proof.Machine

/-- A sparse table: pairs of an index and a value, the indices strictly rising, no value equal to the table's blank
value (`Table.wf`). What an unlisted index holds is the blank value of the table. -/
abbrev Table (α : Type) := List (Nat × α)

/-! ### Causes, states and codes (10.11) -/

/-- The ten states of a heliostat (R5). -/
inductive HState where
  | absent
  | unsure
  | stowed
  | standby
  | slewing
  | tracking
  | returning
  | lost
  | faulted
  | silent
  deriving DecidableEq, Repr

/-- The causes of HELIO EVENTs, owed motions and motions (R18). -/
inductive Cause where
  | order
  | program
  | shed
  | critical
  | safe
  | slewTimeout
  | driveFault
  | localControl
  | reject
  | busy
  | silence
  | driveLeft
  | survey
  | adopted
  | revoked
  | recovered
  | cleared
  deriving DecidableEq, Repr

/-- The fault cause of a heliostat (R2); DRIVE FAULT carries the drive's fault code where the drive gave one (R74, R76). -/
inductive FaultCause where
  | reject
  | busy
  | driveFault (code : Option Byte)
  | localControl
  | slewTimeout
  deriving DecidableEq, Repr

/-- The two resting states a heliostat returns to (R2). -/
inductive Rest where
  | standby
  | stowed
  deriving DecidableEq, Repr

/-- Where a RETURNING heliostat is going (R2). -/
inductive Dest where
  | standby
  | stow
  deriving DecidableEq, Repr

/-- The protective motions (R11). -/
inductive Motion where
  | defocus
  | stow
  deriving DecidableEq, Repr

/-- An owed motion with its owed cause (R11). -/
structure Owed where
  motion : Motion
  cause : Cause
  deriving DecidableEq, Repr

/-- Who asked for a grant: an order with its tag, or a program with its slot (R34, R58). -/
inductive Origin where
  | order (tag : Byte)
  | program (slot : Nat)
  deriving DecidableEq, Repr

/-- The five operating states (R144). -/
inductive OpState where
  | survey
  | hold
  | operate
  | night
  | waking
  deriving DecidableEq, Repr

/-- The causes of a change of the operating state, requested state or field-safe condition (R144). -/
inductive StateCause where
  | powerOn
  | pinReset
  | softReset
  | surveyDone
  | surveyLimit
  | order
  | safe
  | safeClear
  | wakeDone
  deriving DecidableEq, Repr

/-- The state the part will enter when its wake is done (R144). -/
inductive Requested where
  | hold
  | operate
  deriving DecidableEq, Repr

/-- The trip modes (R98, R101). -/
inductive TripMode where
  | latch
  | follow
  | criticalOnly
  deriving DecidableEq, Repr

/-- The states of a program slot (R108). -/
inductive SlotState where
  | empty
  | loaded
  | pending
  | running
  | waiting
  | suspended
  | ended
  deriving DecidableEq, Repr

/-- Why a run ended (R107, R112). -/
inductive EndCause where
  | complete
  | halted
  | countMismatch
  | grantShort
  | stepLimit
  | hold
  | safe
  deriving DecidableEq, Repr

/-- Why a member stands in the residual (R107). -/
inductive Reason where
  | range
  | inhibited
  | busy
  | faulted
  | critical
  | noBudget
  | rejected
  | revoked
  | unsettled
  deriving DecidableEq, Repr

/-- The last-error causes of the uplink receiver (R169). -/
inductive UplinkError where
  | gap
  | crc
  | length
  | overrun
  deriving DecidableEq, Repr

/-- The eight protection blocks (R179), in the order of their codes (10.3). -/
inductive Block where
  | ht0
  | ht1
  | ht2
  | ht3
  | apt
  | sbt
  | zone
  | limit
  deriving DecidableEq, Repr

/-! ### The live and stored tables (R179) -/

/-- The config part of a heliostat record (R1). Offsets are in 0.1 mrad, two's complement. -/
structure HelioConfig where
  present : Bool
  segment : Nat
  address : Nat
  group : Nat
  weight : Nat
  offsetEl : Half
  offsetAz : Half
  standby : Nat
  deriving DecidableEq, Repr

/-- The blank heliostat record (R191). -/
def HelioConfig.blank : HelioConfig := ⟨false, 0, 0, 0, 0, 0#16, 0#16, 0⟩

/-- An aim-point record: coordinates in centimetres, and the footprint as (zone, share) pairs in written order (R22). -/
structure AimPoint where
  present : Bool
  x : Half
  y : Half
  z : Half
  footprint : List (Nat × Nat)
  deriving DecidableEq, Repr

/-- The blank aim-point record: the footprint is the single pair zone 0, share 4 (R191). -/
def AimPoint.blank : AimPoint := ⟨false, 0#16, 0#16, 0#16, [(0, 4)]⟩

/-- A standby record (R24). -/
structure StandbyPoint where
  present : Bool
  x : Half
  y : Half
  z : Half
  deriving DecidableEq, Repr

/-- The blank standby record (R191). -/
def StandbyPoint.blank : StandbyPoint := ⟨false, 0#16, 0#16, 0#16⟩

/-- A zone record: budgets in load units, derate in percent, warn limit in quarter degrees (R28, R88). -/
structure ZoneConfig where
  base : Nat
  fallback : Nat
  derate : Nat
  warnLimit : Nat
  deriving DecidableEq, Repr

/-- The blank zone record: 0, 0, 100 percent, 1023.75 °C (R191). -/
def ZoneConfig.blank : ZoneConfig := ⟨0, 0, 100, 4095⟩

/-- The blank critical limit, 1023.75 °C in quarter degrees (R191). -/
def criticalBlank : Nat := 4095

/-- The watch settings (R98): hysteresis code, trip mode, polarity (active high or low), enable. -/
structure WatchSettings where
  hysteresis : Nat
  mode : TripMode
  activeHigh : Bool
  enabled : Bool
  deriving DecidableEq, Repr

/-- The blank watch settings: code 0, FOLLOW, active low, enabled (R191). -/
def WatchSettings.blank : WatchSettings := ⟨0, .follow, false, true⟩

/-- The seven tables of R179. The live ones and the stored ones have the same form. -/
structure Tables where
  helio : Table HelioConfig
  aim : Table AimPoint
  standby : Table StandbyPoint
  zone : Table ZoneConfig
  slewLimit : Nat
  critical : Table Nat
  watch : WatchSettings
  deriving DecidableEq, Repr

/-- The tables of the blank store (R191); the slew limit is 180 s. -/
def Tables.blank : Tables := ⟨[], [], [], [], 180, [], WatchSettings.blank⟩

/-- The eight protection marks (R179). -/
structure ProtMarks where
  ht0 : Bool
  ht1 : Bool
  ht2 : Bool
  ht3 : Bool
  apt : Bool
  sbt : Bool
  zone : Bool
  limit : Bool
  deriving DecidableEq, Repr

/-- Every block unprotected (R191). -/
def ProtMarks.none : ProtMarks := ⟨false, false, false, false, false, false, false, false⟩

/-- Every block protected, as marks that fail their check value are loaded (R180). -/
def ProtMarks.all : ProtMarks := ⟨true, true, true, true, true, true, true, true⟩

/-- The nonvolatile store: the tables, the marks, and what of it fails its check value (R180). -/
structure Store where
  tables : Tables
  marks : ProtMarks
  damaged : List PageRef
  deriving DecidableEq, Repr

/-! ### The heliostats' runtime part (R2) -/

/-- The runtime part of a heliostat record (R2), with the heliostat's slew timer (R81), the origin of the grant it carries
out (R58, log entry 16), and whether that grant is a re-aim, which R78 still asks after a CLEAR answer has released the
leaving aim (log entry 15). Times are readings of the part's clock in ms. -/
structure HelioRun where
  state : HState
  granted : Option Nat
  leaving : Option Nat
  rest : Rest
  destination : Option Dest
  released : Bool
  owed : Option Owed
  motionCause : Option Cause
  queued : Bool
  inFlight : Bool
  accepted : Bool
  silentCount : Nat
  busyCount : Nat
  lastExchange : Option Nat
  fault : Option FaultCause
  unaccounted : Bool
  inhibit : Bool
  maint : Bool
  localControl : Bool
  lastCause : Option Cause
  reportOwed : Bool
  slewEnds : Option Nat
  origin : Option Origin
  reAim : Bool
  deriving DecidableEq, Repr

/-- The reset values of the runtime part of an absent record (R3): what an unlisted heliostat index holds. -/
def HelioRun.blank : HelioRun :=
  { state := .absent, granted := none, leaving := none, rest := .standby, destination := none, released := false,
    owed := none, motionCause := none, queued := false, inFlight := false, accepted := false, silentCount := 0,
    busyCount := 0, lastExchange := none, fault := none, unaccounted := false, inhibit := false, maint := false,
    localControl := false, lastCause := none, reportOwed := false, slewEnds := none, origin := none,
    reAim := false }

/-! ### The zones: the FAU's and the RW's values -/

/-- The change marks of a zone (R51, R87), in the order of ZONE EVENT byte 3 (10.5). -/
structure ZoneMarks where
  overBudget : Bool
  unsheddable : Bool
  budget : Bool
  ceiling : Bool
  warn : Bool
  critical : Bool
  stale : Bool
  deriving DecidableEq, Repr

/-- No mark. -/
def ZoneMarks.none : ZoneMarks := ⟨false, false, false, false, false, false, false⟩

/-- What the FAU (R26, R27, R28, R30, R47, R49, R51) and the RW (R87) keep for one zone. The stale timer is the time
it runs out, absent while stopped; readings are quarter degrees. -/
structure ZoneRun where
  committed : Nat
  pending : Nat
  budget : Nat
  ceiling : Option Nat
  overBudget : Bool
  unsheddable : Bool
  marks : ZoneMarks
  lastReading : Option Nat
  staleEnds : Option Nat
  warn : Bool
  critical : Bool
  stale : Bool
  deriving DecidableEq, Repr

/-- The values after a reset of a zone with a blank zone record (R53, R105): STALE is set, the budget is 0. -/
def ZoneRun.blank : ZoneRun :=
  { committed := 0, pending := 0, budget := 0, ceiling := none, overBudget := false, unsheddable := false,
    marks := ZoneMarks.none, lastReading := none, staleEnds := none, warn := false, critical := false, stale := true }

/-! ### The Segment Exchange Engines -/

/-- One entry of a Move Queue (R58). -/
structure Entry where
  helio : Nat
  aim : Nat
  origin : Origin
  deriving DecidableEq, Repr

/-- What an exchange serves: a queued aim or a re-send (MOVE-AIM), an owed motion with the destination and the cause
fixed when its request was built (R66, R72), a poll, or a PASS. -/
inductive ExKind where
  | moveAim (origin : Option Origin)
  | owedMotion (dest : Dest) (cause : Cause)
  | query
  | pass
  deriving DecidableEq, Repr

/-- A request is being sent, or its answer is awaited since the time given (R56). -/
inductive ExPhase where
  | sending
  | awaiting (since : Nat)
  deriving DecidableEq, Repr

/-- The exchange in flight on a segment (R56): the request's bytes are kept, for a repeat sends them unchanged. -/
structure Exchange where
  helio : Nat
  address : Nat
  kind : ExKind
  request : List Byte
  repeated : Bool
  phase : ExPhase
  deriving DecidableEq, Repr

/-- A PASS held in a segment's PASS slot (R20). -/
structure PassReq where
  helio : Nat
  tag : Byte
  body : List Byte
  deriving DecidableEq, Repr

/-- What one SXE holds (R84). `spaceFreed` is the model's: an entry has left this Move Queue since the PE began to
wait for space (R117, log entry 8). -/
structure Sxe where
  queue : List Entry
  scan : Nat
  settle : Nat
  exchange : Option Exchange
  passSlot : Option PassReq
  lastEnd : Option Nat
  spaceFreed : Bool
  deriving DecidableEq, Repr

/-- An SXE after a reset (R84). -/
def Sxe.blank : Sxe :=
  { queue := [], scan := 0, settle := 0, exchange := none, passSlot := none, lastEnd := none, spaceFreed := false }

/-! ### The Program Engine -/

/-- The flags of an AIM GROUP step (R110, R114). -/
structure AimFlags where
  settle : Bool
  tolerateCount : Bool
  stopOnShort : Bool
  hold : Bool
  deriving DecidableEq, Repr

/-- The codes of a TEST step with their parameters (R125). -/
inductive TestCode where
  | overBudget (zone : Nat)
  | notOver (zone : Nat)
  | marginGe (zone : Nat) (value : Int)
  | marginLt (zone : Nat) (value : Int)
  | warn (zone : Nat)
  | notWarn (zone : Nat)
  | settled (group : Nat)
  | unsettled (group : Nat)
  deriving DecidableEq, Repr

/-- The eight step kinds (R106) with their fields (R110). A ceiling value of `none` is the mark clear; a WAIT duration
is in 0.1 s. -/
inductive Step where
  | aimGroup (group firstAim spread : Nat) (expected : Option Nat) (flags : AimFlags)
  | defocusGroup (group : Nat) (settle hold : Bool)
  | stowGroup (group : Nat) (settle hold : Bool)
  | ceiling (first last : Nat) (value : Option Nat)
  | wait (tenths : Nat) (hold : Bool)
  | test (code : TestCode)
  | jump (target : Nat)
  | finish
  deriving DecidableEq, Repr

/-- What a WAITING slot waits for (R107): its WAIT timer, the settle set of its AIM GROUP step (R119), the followed
members of its DEFOCUS GROUP or STOW GROUP step (R122), or queue space for a member (R117). The last carries the rest
of the step's member list, which the awaited member heads, its position j (R115) and whether the step has met a short
grant (R116). -/
inductive WaitOn where
  | timer (ends : Nat)
  | settle
  | offReceiver (followed : List Nat)
  | queueSpace (position : Nat) (members : List Nat) (short : Bool)
  deriving DecidableEq, Repr

/-- The flags of a slot's status record (R107), in the order of PROGRAM END byte 11 (10.5). -/
structure RunFlags where
  driveReject : Bool
  memberBusy : Bool
  grantShort : Bool
  countMismatch : Bool
  preempted : Bool
  deriving DecidableEq, Repr

/-- Every flag clear. -/
def RunFlags.none : RunFlags := ⟨false, false, false, false, false⟩

/-- A program slot: its steps (R106) and its status record (R107). The residual is kept whole in ascending heliostat
index, which is member order (R4); its count and its first 16 entries are read from it (log entry 30). -/
structure Slot where
  steps : List Step
  state : SlotState
  level : Option Nat
  startTag : Option Byte
  current : Nat
  executed : Nat
  endCause : Option EndCause
  flags : RunFlags
  residual : List (Nat × Reason)
  settleSet : List (Nat × Nat)
  waitingOn : Option WaitOn
  deriving DecidableEq, Repr

/-- An EMPTY slot with its status record at its reset values (R130). -/
def Slot.blank : Slot :=
  { steps := [], state := .empty, level := none, startTag := none, current := 0, executed := 0, endCause := none,
    flags := RunFlags.none, residual := [], settleSet := [], waitingOn := none }

/-- The level arbiter (R131): the head of `suspended` is the top of the stack, the head of `waiting` the oldest start. -/
structure Arbiter where
  active : Option Nat
  suspended : List Nat
  waiting : List Nat
  deriving DecidableEq, Repr

/-- No active program, an empty stack and list (R130). -/
def Arbiter.idle : Arbiter := ⟨none, [], []⟩

/-! ### The trip record and the Report Queue -/

/-- The trip record (R100, R101). -/
structure TripRecord where
  critical : Bool
  nonCritical : Bool
  latch : Bool
  asserted : Bool
  deriving DecidableEq, Repr

/-- The released trip record (R105). -/
def TripRecord.released : TripRecord := ⟨false, false, false, false⟩

/-- The sources of reports (R175). -/
inductive Source where
  | helio (index : Nat)
  | zone (index : Nat)
  | slot (index : Nat)
  | opState
  | trip
  deriving DecidableEq, Repr

/-- The Report Queue and the report-owed flags that the ULP holds (R175, R176). -/
structure Reports where
  queue : List Source
  zoneOwed : Table Bool
  slotOwed : Table Bool
  stateOwed : Bool
  tripOwed : Bool
  deriving DecidableEq, Repr

/-- An empty Report Queue, every flag clear (R178). -/
def Reports.empty : Reports := ⟨[], [], [], false, false⟩

/-! ### The field: what one change may run through -/

/-- Everything a change of one heliostat, zone or program may reach (the heliostats' runtime part, the FAU's accounts,
the SXEs, the PE, the trip record and the Report Queue). Operations on it cannot touch the rest of the state. -/
structure Field where
  helio : Table HelioRun
  zone : Table ZoneRun
  refs : Table Nat
  grants : List Nat
  sxe : Table Sxe
  slot : Table Slot
  arbiter : Arbiter
  trip : TripRecord
  reports : Reports
  deriving DecidableEq, Repr

/-- The field with no present heliostat and blank tables after a power-on reset (R3, R53, R84, R105, R130). -/
def Field.blank : Field :=
  { helio := [], zone := [], refs := [], grants := [], sxe := [], slot := [], arbiter := Arbiter.idle,
    trip := TripRecord.released, reports := Reports.empty }

/-! ### The Operating State Controller, the Uplink Port and the rest -/

/-- The wake in progress (R144, R156): the requested state, the wake settle count and the time of the entry to WAKING. -/
structure Wake where
  requested : Requested
  count : Nat
  since : Nat
  deriving DecidableEq, Repr

/-- What the OSC holds (R144). The survey timer is the time it runs out, absent while stopped. `counted` lists the
heliostats the survey has counted (R148). The taken FSAFE_N level is the field-safe condition (R158). -/
structure Osc where
  opState : OpState
  wake : Option Wake
  surveyEnds : Option Nat
  adopted : Nat
  atRest : Nat
  leftLost : Nat
  counted : List Nat
  fieldSafe : Bool
  cause : StateCause
  deriving DecidableEq, Repr

/-- The answer waiting to be sent (R172), and whether it is the DONE of a taken RESET (R174). -/
structure Waiting where
  body : List Byte
  resets : Bool
  deriving DecidableEq, Repr

/-- A deferred PASS answer slot (R173). -/
inductive Deferred where
  | empty
  | held (tag : Byte)
  | ready (body : List Byte)
  deriving DecidableEq, Repr

/-- What the transmitter is sending (R174): an answer, which may be the RESET answer, a deferred PASS answer, or a report. -/
inductive TxKind where
  | answer (resets : Bool)
  | passAnswer
  | report (source : Source)
  deriving DecidableEq, Repr

/-- The frame being sent, as its bytes on ULP_TXD. -/
structure TxFrame where
  kind : TxKind
  bytes : List Byte
  deriving DecidableEq, Repr

/-- What the ULP holds (R178) beside the Report Queue. `rx` is `none` while hunting, else the bytes collected after the
start byte; a buffered frame is its body; `readyOrder` lists the segments of ready deferred answers, first ended first. -/
structure Ulp where
  rx : Option (List Byte)
  rxBuf : List (List Byte)
  lastError : Option UplinkError
  waiting : Option Waiting
  deferred : Table Deferred
  readyOrder : List Nat
  tx : Option TxFrame
  deriving DecidableEq, Repr

/-- The ULP after a power-on or pin reset, its tables loaded (R178). -/
def Ulp.blank : Ulp :=
  { rx := none, rxBuf := [], lastError := none, waiting := none, deferred := [], readyOrder := [], tx := none }

/-- The two kinds of hard reset (R146). -/
inductive ResetKind where
  | powerOn
  | pin
  deriving DecidableEq, Repr

/-- In reset, loading the live tables, or running (R146, R180). -/
inductive Phase where
  | inReset (kind : ResetKind)
  | loading (kind : ResetKind)
  | running
  deriving DecidableEq, Repr

/-- The state of the part. `pending` is the host's queue of commands, `now` the model's clock in ms (log entry 2),
`fsafeAsserted` the level at the FSAFE_N pin. -/
structure State where
  pending : List Instr
  now : Nat
  phase : Phase
  fsafeAsserted : Bool
  osc : Osc
  store : Store
  live : Tables
  marks : ProtMarks
  commit : Option PageRef
  loadFaults : List PageRef
  limitLock : Bool
  watchOn : Bool
  sensorRx : Option (List Byte)
  ulp : Ulp
  field : Field
  deriving DecidableEq, Repr

/-- The reasons the part could stop at: none. The manual answers every order, discards or repeats every bad frame, and
names no event at which the part stops, so no meaning ends in a fault. -/
inductive Fault where
  deriving DecidableEq, Repr

/-- The refusals of the model. -/
inductive Refusal where
  /-- Raised by a dispatch arm whose command has no meaning yet. Safe: nothing can be proved of such a command. -/
  | notModelled (mnemonic : String)
  deriving DecidableEq, Repr

/-- The part right after a power-on reset with the blank store (R191) and FSAFE_N released, its tables loaded: every
block at its state after reset (R3, R53, R84, R105, R130, R166, R178, R192). No record is present, so the survey entered
by R147 has ended at once by R149: the state is HOLD, cause SURVEY DONE, and the STATE EVENT of the entry is queued.
DESIGN CHOICE (log entries 1 and 3): the blank store, FSAFE_N released, the clock at 0. -/
def State.reset : State :=
  { pending := [], now := 0, phase := .running, fsafeAsserted := false,
    osc :=
      { opState := .hold, wake := none, surveyEnds := none, adopted := 0, atRest := 0, leftLost := 0, counted := [],
        fieldSafe := false, cause := .surveyDone },
    store := ⟨Tables.blank, ProtMarks.none, []⟩, live := Tables.blank, marks := ProtMarks.none, commit := none,
    loadFaults := [], limitLock := false, watchOn := true, sensorRx := none, ulp := Ulp.blank,
    field := { Field.blank with reports := { Reports.empty with queue := [.opState] } } }

end Sys2Proof.Machine
end

