-- ==== Sys2Proof/Machine/Tables.lean ====
section
/-! DEFINITION. Reading and writing the sparse tables, and the accessors of the live tables and of the field through them. -/

namespace Sys2Proof.Machine


/-! ### Sparse tables -/

/-- What the table holds at index `i`; `d` is the table's blank value. -/
def Table.get {α : Type} (d : α) : Table α → Nat → α
  | [], _ => d
  | (k, v) :: t, i => if k = i then v else Table.get d t i

/-- The table with `v` listed at `i`, the indices kept rising. -/
def Table.put {α : Type} : Table α → Nat → α → Table α
  | [], i, v => [(i, v)]
  | (k, w) :: t, i, v =>
    if i < k then (i, v) :: (k, w) :: t else if i = k then (i, v) :: t else (k, w) :: Table.put t i v

/-- The table with nothing listed at `i`. -/
def Table.del {α : Type} (t : Table α) (i : Nat) : Table α := t.filter (fun p => p.1 != i)

/-- Writes `v` at index `i` of a table of `n` entries with blank value `d`: the blank value is unlisted, and an index
outside the table is not written. -/
def Table.set {α : Type} [DecidableEq α] (n : Nat) (d : α) (t : Table α) (i : Nat) (v : α) : Table α :=
  if i < n then (if v = d then Table.del t i else Table.put t i v) else t

/-- Applies `g` to every listed value. -/
def Table.map {α : Type} [DecidableEq α] (d : α) (g : α → α) (t : Table α) : Table α :=
  t.filterMap (fun p => if g p.2 = d then none else some (p.1, g p.2))

/-- The canonical form: indices strictly rising and below `n`, no value equal to the blank value `d`. -/
abbrev Table.wf {α : Type} (n : Nat) (d : α) (t : Table α) : Prop :=
  t.Pairwise (fun a b => a.1 < b.1) ∧ ∀ p ∈ t, p.1 < n ∧ p.2 ≠ d

/-! ### The live tables -/

/-- The config part of heliostat `h` (R1). -/
def Tables.helioAt (t : Tables) (h : Nat) : HelioConfig := Table.get HelioConfig.blank t.helio h
/-- The record of aim point `a` (R22). -/
def Tables.aimAt (t : Tables) (a : Nat) : AimPoint := Table.get AimPoint.blank t.aim a
/-- The record of standby point `p` (R24). -/
def Tables.standbyAt (t : Tables) (p : Nat) : StandbyPoint := Table.get StandbyPoint.blank t.standby p
/-- The record of zone `z` (R28). -/
def Tables.zoneAt (t : Tables) (z : Nat) : ZoneConfig := Table.get ZoneConfig.blank t.zone z
/-- The critical limit of zone `z`, in quarter degrees (R98). -/
def Tables.criticalAt (t : Tables) (z : Nat) : Nat := Table.get criticalBlank t.critical z

/-- The present heliostats in ascending index, with their config parts (R4). -/
def Tables.present (t : Tables) : List (Nat × HelioConfig) := t.helio.filter (fun p => p.2.present)

/-- The members of group `g`: the present heliostats whose group is `g`, in ascending index (R4). -/
def Tables.members (t : Tables) (g : Nat) : List Nat :=
  (t.present.filter (fun p => p.2.group == g)).map (·.1)

/-- The present heliostats of a segment, in ascending index. -/
def Tables.onSegment (t : Tables) (seg : Nat) : List Nat :=
  (t.present.filter (fun p => p.2.segment == seg)).map (·.1)

/-! ### The field -/

/-- The runtime part of heliostat `h`. -/
def Field.run (f : Field) (h : Nat) : HelioRun := Table.get HelioRun.blank f.helio h
/-- Writes the runtime part of heliostat `h` and nothing else. -/
def Field.setRun (f : Field) (h : Nat) (r : HelioRun) : Field :=
  { f with helio := Table.set Config.heliostats HelioRun.blank f.helio h r }
/-- The FAU's and the RW's values of zone `z`. -/
def Field.zoneAt (f : Field) (z : Nat) : ZoneRun := Table.get ZoneRun.blank f.zone z
/-- Writes the values of zone `z`. -/
def Field.setZone (f : Field) (z : Nat) (v : ZoneRun) : Field :=
  { f with zone := Table.set Config.zones ZoneRun.blank f.zone z v }
/-- The reference count of aim point `a` (R23). -/
def Field.refAt (f : Field) (a : Nat) : Nat := Table.get 0 f.refs a
/-- Writes the reference count of aim point `a`. -/
def Field.setRef (f : Field) (a n : Nat) : Field := { f with refs := Table.set Config.aimPoints 0 f.refs a n }
/-- The SXE of segment `g`. -/
def Field.sxeAt (f : Field) (g : Nat) : Sxe := Table.get Sxe.blank f.sxe g
/-- Writes the SXE of segment `g`. -/
def Field.setSxe (f : Field) (g : Nat) (v : Sxe) : Field :=
  { f with sxe := Table.set Config.segments Sxe.blank f.sxe g v }
/-- Program slot `k`. -/
def Field.slotAt (f : Field) (k : Nat) : Slot := Table.get Slot.blank f.slot k
/-- Writes program slot `k`. -/
def Field.setSlot (f : Field) (k : Nat) (v : Slot) : Field :=
  { f with slot := Table.set Config.slots Slot.blank f.slot k v }

/-- The deferred PASS answer slot of segment `g` (R173). -/
def Ulp.deferredAt (u : Ulp) (g : Nat) : Deferred := Table.get .empty u.deferred g
/-- Writes the deferred PASS answer slot of segment `g`. -/
def Ulp.setDeferred (u : Ulp) (g : Nat) (v : Deferred) : Ulp :=
  { u with deferred := Table.set Config.segments .empty u.deferred g v }

/-! ### What a change of the field reads from outside it -/

/-- What the rules of one change read beside the field: the live tables, the operating state, the field-safe
condition, the watch and the clock. -/
structure Env where
  live : Tables
  opState : OpState
  fieldSafe : Bool
  watchOn : Bool
  now : Nat
  deriving DecidableEq, Repr

/-- The environment of a change made in state `s`. -/
def State.env (s : State) : Env := ⟨s.live, s.osc.opState, s.osc.fieldSafe, s.watchOn, s.now⟩

/-- The segment of heliostat `h` (R1). -/
def Env.segmentOf (env : Env) (h : Nat) : Nat := (env.live.helioAt h).segment

/-- The present heliostats in ascending index (R4). -/
def Env.all (env : Env) : List Nat := env.live.present.map (·.1)

end Sys2Proof.Machine
end

