-- ==== Sys2Proof/Machine/Operands.lean ====
section
/-! DEFINITION. Bytes in and out: check values, order bodies, table records, step records, segment frames and the shared
codes, all from chapter 10. -/

namespace Sys2Proof.Machine

/-! ### Fields (10.1) -/

/-- The byte of a number below 256. -/
def byte (n : Nat) : Byte := BitVec.ofNat 8 n
/-- A number as two bytes, high byte first. -/
def be16 (n : Nat) : List Byte := [byte (n / 256), byte n]
/-- A number as three bytes, high byte first. -/
def be24 (n : Nat) : List Byte := [byte (n / 65536), byte (n / 256), byte n]
/-- A two-byte field, high byte first. -/
def halfBytes (v : Half) : List Byte := be16 v.toNat
/-- A signed number as three bytes, two's complement. -/
def signed24 (n : Int) : List Byte := be24 (BitVec.ofInt 24 n).toNat
/-- A two-byte field read high byte first. -/
def half (hi lo : Byte) : Half := hi ++ lo
/-- An unsigned two-byte number. -/
def nat16 (hi lo : Byte) : Nat := (half hi lo).toNat
/-- An unsigned three-byte number. -/
def nat24 (a b c : Byte) : Nat := (a ++ b ++ c).toNat
/-- A signed three-byte number. -/
def int24 (a b c : Byte) : Int := (a ++ b ++ c).toInt
/-- A flag as a bit of weight `w`. -/
def bit (w : Nat) (b : Bool) : Nat := if b then w else 0
/-- An optional number, 0 where absent (10.1). -/
def orZero (o : Option Nat) : Nat := o.getD 0

/-! ### Check values (R85, R167) -/

/-- Eight shifts of the CRC-16 register (R167). -/
def crc16Shift : Nat → Half → Half
  | 0, c => c
  | n + 1, c => crc16Shift n (if c.msb then (c <<< 1) ^^^ 0x1021#16 else c <<< 1)

/-- CRC-16: polynomial x^16+x^12+x^5+1, initial value FFFFh, unreflected, no final inversion (R167). -/
def crc16 (bytes : List Byte) : Half :=
  bytes.foldl (fun c b => crc16Shift 8 (c ^^^ (b ++ 0#8))) 0xFFFF#16

/-- Eight shifts of the CRC-8 register (R85), most significant bit first (log entry 46). -/
def crc8Shift : Nat → Byte → Byte
  | 0, c => c
  | n + 1, c => crc8Shift n (if c.msb then (c <<< 1) ^^^ 0x07#8 else c <<< 1)

/-- CRC-8: polynomial x^8+x^2+x+1, initial value 00h (R85). Unreflected, most significant bit first, no final inversion: R85 does not say
so, and the model takes it as R167 has the CRC-16 (log entry 46). -/
def crc8 (bytes : List Byte) : Byte := bytes.foldl (fun c b => crc8Shift 8 (c ^^^ b)) 0#8

/-! ### Shared codes (10.11) -/

/-- Heliostat state codes (10.11). -/
def HState.code : HState → Nat
  | .absent => 0 | .unsure => 1 | .stowed => 2 | .standby => 3 | .slewing => 4
  | .tracking => 5 | .returning => 6 | .lost => 7 | .faulted => 8 | .silent => 9

/-- Cause codes (10.11). -/
def Cause.code : Cause → Nat
  | .order => 0x01 | .program => 0x02 | .shed => 0x03 | .critical => 0x04 | .safe => 0x05 | .slewTimeout => 0x06
  | .driveFault => 0x07 | .localControl => 0x08 | .reject => 0x09 | .busy => 0x0A | .silence => 0x0B
  | .driveLeft => 0x0C | .survey => 0x0D | .adopted => 0x0E | .revoked => 0x0F | .recovered => 0x10 | .cleared => 0x11

/-- The cause a fault cause is coded and carried as (10.11, R80). -/
def FaultCause.cause : FaultCause → Cause
  | .reject => .reject
  | .busy => .busy
  | .driveFault _ => .driveFault
  | .localControl => .localControl
  | .slewTimeout => .slewTimeout

/-- The drive fault code a fault cause carries, if any (R18). -/
def FaultCause.driveCode : FaultCause → Option Byte
  | .driveFault c => c
  | _ => none

/-- Operating state codes (10.11). -/
def OpState.code : OpState → Nat
  | .survey => 0 | .hold => 1 | .operate => 2 | .night => 3 | .waking => 4

/-- The operating state a request names. -/
def Requested.opState : Requested → OpState
  | .hold => .hold
  | .operate => .operate

/-- State cause codes (10.11). -/
def StateCause.code : StateCause → Nat
  | .powerOn => 1 | .pinReset => 2 | .softReset => 3 | .surveyDone => 4 | .surveyLimit => 5 | .order => 6
  | .safe => 7 | .safeClear => 8 | .wakeDone => 9

/-- Slot state codes (10.11). -/
def SlotState.code : SlotState → Nat
  | .empty => 0 | .loaded => 1 | .pending => 2 | .running => 3 | .waiting => 4 | .suspended => 5 | .ended => 6

/-- End cause codes (10.11). -/
def EndCause.code : EndCause → Nat
  | .complete => 1 | .halted => 2 | .countMismatch => 3 | .grantShort => 4 | .stepLimit => 5 | .hold => 6 | .safe => 7

/-- Residual reason codes (10.11). -/
def Reason.code : Reason → Nat
  | .range => 1 | .inhibited => 2 | .busy => 3 | .faulted => 4 | .critical => 5 | .noBudget => 6 | .rejected => 7
  | .revoked => 8 | .unsettled => 9

/-- Last-error codes (10.6, STATUS byte 36). -/
def UplinkError.code : UplinkError → Nat
  | .gap => 1 | .crc => 2 | .length => 3 | .overrun => 4

/-- Trip mode codes (10.7, WATCH record). -/
def TripMode.code : TripMode → Nat
  | .latch => 0 | .follow => 1 | .criticalOnly => 2

/-- Table codes (10.3). -/
def tableCode : TableId → Nat
  | .heliostat => 0 | .aim => 1 | .standby => 2 | .zone => 3 | .field => 4 | .critical => 5 | .watch => 6

/-- The table a code names (10.3); a code outside 00h to 06h names none. -/
def tableOf (code : Byte) : Option TableId :=
  match code.toNat with
  | 0 => some .heliostat | 1 => some .aim | 2 => some .standby | 3 => some .zone | 4 => some .field
  | 5 => some .critical | 6 => some .watch | _ => none

/-- The block a code names (10.3); a code above 07h names none. -/
def blockOf (code : Byte) : Option Block :=
  match code.toNat with
  | 0 => some .ht0 | 1 => some .ht1 | 2 => some .ht2 | 3 => some .ht3 | 4 => some .apt | 5 => some .sbt
  | 6 => some .zone | 7 => some .limit | _ => none

/-- Owed motion codes (10.5). -/
def motionCode (o : Option Owed) : Nat :=
  match o with
  | none => 0
  | some ⟨.defocus, _⟩ => 1
  | some ⟨.stow, _⟩ => 2

/-- A cause code, 0 where absent (10.1). -/
def causeOrZero (c : Option Cause) : Nat := (c.map Cause.code).getD 0

/-- Destination codes (10.5). -/
def destCode (d : Option Dest) : Nat :=
  match d with
  | some .stow => 1
  | _ => 0

/-- Rest codes (10.6). -/
def restCode : Rest → Nat
  | .standby => 0
  | .stowed => 1

/-! ### Results (R172) -/

/-- The result codes of R172. -/
inductive Result where
  | done | busy | notReady | inUse | blockProtected | locked | range | duplicate
  | noBudget | critical | safe | state | format | pendingStatus | queueFull | inhibited
  deriving DecidableEq, Repr

/-- The result codes' bytes (10.4). -/
def Result.code : Result → Nat
  | .done => 0x00 | .busy => 0x01 | .notReady => 0x02 | .inUse => 0x03 | .blockProtected => 0x04 | .locked => 0x05
  | .range => 0x06 | .duplicate => 0x07 | .noBudget => 0x08 | .critical => 0x09 | .safe => 0x0A | .state => 0x0B
  | .format => 0x0C | .pendingStatus => 0x0D | .queueFull => 0x0E | .inhibited => 0x0F

/-- The outcome of an order at its taking: its result code and its result parameters (R172). -/
structure Reply where
  result : Result
  params : List Byte
  deriving DecidableEq, Repr

/-- DONE or a refusal without parameters. -/
def Reply.plain (r : Result) : Reply := ⟨r, []⟩

/-- The body of an answer: kind 80h, the order's tag, its kind, the result and its parameters (10.4). -/
def answerBody (tag kind : Byte) (r : Reply) : List Byte := [0x80#8, tag, kind, byte r.result.code] ++ r.params

/-- The facts of IN_USE (10.4). -/
inductive Fact where
  | load | program | owed | queue | motion | state | queued | inFlight | referenced
  deriving DecidableEq, Repr

/-- The fact codes (10.4). -/
def Fact.code : Fact → Nat
  | .load => 1 | .program => 2 | .owed => 3 | .queue => 4 | .motion => 5 | .state => 6 | .queued => 7 | .inFlight => 8
  | .referenced => 9

/-! ### The uplink frame (10.2) -/

/-- The frame of a body: start C3h, length, body, CRC-16 over length and body (R167). -/
def uplinkFrameBytes (body : List Byte) : List Byte :=
  let lb := byte body.length :: body
  0xC3#8 :: lb ++ halfBytes (crc16 lb)

/-- The body lengths each order kind permits (10.3); `none` for a kind that is not an order kind. -/
def orderLength (kind : Byte) : Option (Nat × Nat) :=
  match kind.toNat with
  | 0x01 => some (5, 5) | 0x02 => some (7, 7) | 0x03 => some (3, 3) | 0x04 => some (5, 5) | 0x05 => some (5, 5)
  | 0x06 => some (5, 5) | 0x07 => some (4, 4) | 0x08 => some (4, 4) | 0x09 => some (4, 4) | 0x0A => some (5, 204)
  | 0x0B => some (2, 2) | 0x0C => some (2, 2) | 0x0D => some (2, 2) | 0x0E => some (2, 2) | 0x0F => some (4, 228)
  | 0x10 => some (4, 4) | 0x11 => some (3, 3) | 0x12 => some (3, 3) | 0x13 => some (3, 3) | 0x14 => some (2, 2)
  | 0x15 => some (2, 2) | 0x16 => some (2, 2) | 0x17 => some (6, 182) | 0x18 => some (6, 6) | 0x19 => some (3, 3)
  | 0x1A => some (2, 2) | 0x1B => some (2, 2) | _ => none

/-- Is a kind byte the kind of an order (10.2, R171)? -/
def isOrderKind (kind : Byte) : Bool := (orderLength kind).isSome

/-- For a known order kind, is the body length one the kind permits (R168)? -/
def lengthPermitted (kind : Byte) (n : Nat) : Bool :=
  match orderLength kind with
  | some (lo, hi) => decide (lo ≤ n) && decide (n ≤ hi)
  | none => true

/-- The body of an order command as 10.3 lays it out; a command that is not an order has none. -/
def orderBody : Instr → Option (List Byte)
  | .aim tag h a => some ([0x01#8, tag] ++ halfBytes h ++ [a])
  | .setCeiling tag z0 z1 v => some ([0x02#8, tag, z0, z1] ++ be24 v.toNat)
  | .readZone tag z => some [0x03#8, tag, z]
  | .defocus tag scope i => some ([0x04#8, tag, scope] ++ halfBytes i)
  | .stow tag scope i => some ([0x05#8, tag, scope] ++ halfBytes i)
  | .clearFault tag scope i => some ([0x06#8, tag, scope] ++ halfBytes i)
  | .flagsSet tag g m => some [0x07#8, tag, g, m]
  | .flagsClear tag g m => some [0x08#8, tag, g, m]
  | .readHeliostat tag h => some ([0x09#8, tag] ++ halfBytes h)
  | .pass tag h body => some ([0x0A#8, tag] ++ halfBytes h ++ body)
  | .watchOn tag => some [0x0B#8, tag]
  | .watchOff tag => some [0x0C#8, tag]
  | .clearTrip tag => some [0x0D#8, tag]
  | .lockLimits tag => some [0x0E#8, tag]
  | .loadProgram tag slot count records => some ([0x0F#8, tag, slot, count] ++ records)
  | .startProgram tag slot level => some [0x10#8, tag, slot, level]
  | .haltProgram tag slot => some [0x11#8, tag, slot]
  | .readProgramStatus tag slot => some [0x12#8, tag, slot]
  | .setState tag target => some [0x13#8, tag, target]
  | .fieldDefocus tag => some [0x14#8, tag]
  | .reset tag => some [0x15#8, tag]
  | .status tag => some [0x16#8, tag]
  | .tableWrite tag table first count records => some ([0x17#8, tag, table] ++ halfBytes first ++ [count] ++ records)
  | .tableRead tag table first count => some ([0x18#8, tag, table] ++ halfBytes first ++ [count])
  | .protect tag block => some [0x19#8, tag, block]
  | .unprotectAll tag => some [0x1A#8, tag]
  | .protectionStatus tag => some [0x1B#8, tag]
  | .powerOnReset | .pinReset | .resetRelease | .tableLoadingDone _ | .fsafeAssert | .fsafeRelease | .uplinkFrame _
  | .takeNonOrderFrame | .commitDone | .sendAnswerFrame | .sendReportFrame | .frameSent | .nightSpacingExpiry _
  | .segmentRequestSent _ | .driveAnswer _ _ | .driveResponseTimeout _ | .slewTimeout _ | .surveyLimit
  | .wakeSettleTick | .wakeDone | .sensorReading _ | .staleExpiry _ | .aimGroup | .queueSpaceResume | .settleWaitEnd
  | .defocusGroup | .stowGroup | .groupSettleWaitEnd | .ceiling | .wait | .waitTimerExpiry | .test | .jump | .endStep
  | .uplinkGapLimit | .sensorFrameGap | .nightPollDue _ => none

/-! ### Table records (10.7) -/

/-- The size of a table's record in bytes (10.7). -/
def recordSize : TableId → Nat
  | .heliostat => 10 | .aim => 11 | .standby => 7 | .zone => 9 | .field => 2 | .critical => 2 | .watch => 1

/-- Cuts bytes into records of `size`; `fuel` bounds the number of records. -/
def cutRecords (size : Nat) : Nat → List Byte → List (List Byte)
  | 0, _ => []
  | n + 1, bs => bs.take size :: cutRecords size n (bs.drop size)

/-- A HELIOSTAT record's fields as written (10.7). -/
def readHelio : List Byte → HelioConfig
  | [b0, a1, a0, g, w, e1, e0, z1, z0, sp] =>
    ⟨b0.getLsbD 7, (b0 &&& 3#8).toNat, nat16 a1 a0, g.toNat, w.toNat, half e1 e0, half z1 z0, sp.toNat⟩
  | _ => HelioConfig.blank

/-- The ranges of a HELIOSTAT record (R182). A record written absent is checked for that field alone. -/
def HelioConfig.inRange (c : HelioConfig) : Bool :=
  !c.present ||
    (decide (c.segment ≤ 3) && decide (c.address ≤ 1023) && decide (c.group ≤ 63) && decide (c.weight ≤ 255)
      && decide (-2000 ≤ c.offsetEl.toInt) && decide (c.offsetEl.toInt ≤ 2000)
      && decide (-2000 ≤ c.offsetAz.toInt) && decide (c.offsetAz.toInt ≤ 2000) && decide (c.standby ≤ 15))

/-- A record written absent takes every other field at its blank value (R182). -/
def HelioConfig.normal (c : HelioConfig) : HelioConfig := if c.present then c else HelioConfig.blank

/-- A HELIOSTAT record's bytes (10.7). -/
def writeHelio (c : HelioConfig) : List Byte :=
  [byte (bit 128 c.present + c.segment)] ++ be16 c.address ++ [byte c.group, byte c.weight] ++ halfBytes c.offsetEl
    ++ halfBytes c.offsetAz ++ [byte c.standby]

/-- A footprint pair's byte (10.7): bits 7 to 2 the zone, bits 1 and 0 the share less 1. -/
def readPair (b : Byte) : Nat × Nat := (b.toNat / 4, b.toNat % 4 + 1)

/-- An AIM record's fields as written (10.7), with the pair count as written. -/
def readAim : List Byte → AimPoint × Nat
  | [b0, x1, x0, y1, y0, z1, z0, p0, p1, p2, p3] =>
    let n := (b0 &&& 7#8).toNat
    (⟨b0.getLsbD 7, half x1 x0, half y1 y0, half z1 z0, ([p0, p1, p2, p3].take n).map readPair⟩, n)
  | _ => (AimPoint.blank, 1)

/-- The footprint rule of R182: 1 to 4 pairs, each zone 0 to 63 and none repeated, each share 1 to 4, shares summing to 4. -/
def footprintOk (fp : List (Nat × Nat)) : Bool :=
  decide (1 ≤ fp.length) && decide (fp.length ≤ 4) && fp.all (fun p => decide (p.1 < 64) && decide (1 ≤ p.2) && decide (p.2 ≤ 4))
    && decide ((fp.map (·.1)).Nodup) && decide ((fp.map (·.2)).sum = 4)

/-- The ranges of an AIM record, given its written pair count (R182). -/
def AimPoint.inRange (a : AimPoint) (pairs : Nat) : Bool :=
  !a.present || (decide (1 ≤ pairs) && decide (pairs ≤ 4) && footprintOk a.footprint)

/-- A record written absent takes every other field at its blank value (R182). -/
def AimPoint.normal (a : AimPoint) : AimPoint := if a.present then a else AimPoint.blank

/-- An AIM record's bytes (10.7): pair bytes beyond the number of pairs are returned as 0. -/
def writeAim (a : AimPoint) : List Byte :=
  [byte (bit 128 a.present + a.footprint.length)] ++ halfBytes a.x ++ halfBytes a.y ++ halfBytes a.z
    ++ ((a.footprint.map (fun p => byte (p.1 * 4 + (p.2 - 1)))) ++ [0#8, 0#8, 0#8, 0#8]).take 4

/-- A STANDBY record's fields as written (10.7). -/
def readStandby : List Byte → StandbyPoint
  | [b0, x1, x0, y1, y0, z1, z0] => ⟨b0.getLsbD 7, half x1 x0, half y1 y0, half z1 z0⟩
  | _ => StandbyPoint.blank

/-- A record written absent takes every other field at its blank value (R182). -/
def StandbyPoint.normal (p : StandbyPoint) : StandbyPoint := if p.present then p else StandbyPoint.blank

/-- A STANDBY record's bytes (10.7). -/
def writeStandby (p : StandbyPoint) : List Byte :=
  [byte (bit 128 p.present)] ++ halfBytes p.x ++ halfBytes p.y ++ halfBytes p.z

/-- A ZONE record's fields as written (10.7). -/
def readZoneRecord : List Byte → ZoneConfig
  | [b2, b1, b0, f2, f1, f0, d, w1, w0] => ⟨nat24 b2 b1 b0, nat24 f2 f1 f0, d.toNat, nat16 w1 w0⟩
  | _ => ZoneConfig.blank

/-- The ranges of a ZONE record (R182). All 16 bits of the warn limit are read, so that one with a bit of 15 to 12 set is out
of range (log entry 42). -/
def ZoneConfig.inRange (c : ZoneConfig) : Bool :=
  decide (c.base ≤ Config.maxLoad) && decide (c.fallback ≤ Config.maxLoad) && decide (c.derate ≤ 100)
    && decide (c.warnLimit ≤ 4095)

/-- A ZONE record's bytes (10.7). -/
def writeZoneRecord (c : ZoneConfig) : List Byte := be24 c.base ++ be24 c.fallback ++ [byte c.derate] ++ be16 c.warnLimit

/-- The number of a two-byte record: FIELD and CRITICAL (10.7). -/
def readNumber : List Byte → Nat
  | [h, l] => nat16 h l
  | _ => 0

/-- A WATCH record's fields as written (10.7); a trip mode of 3 names none. -/
def readWatch : List Byte → Option WatchSettings
  | [b] =>
    let mode := match b.toNat / 4 % 4 with
      | 0 => some TripMode.latch | 1 => some .follow | 2 => some .criticalOnly | _ => none
    mode.map (fun m => ⟨b.toNat % 4, m, b.getLsbD 4, b.getLsbD 5⟩)
  | _ => none

/-- A WATCH record's byte (10.7). -/
def watchByte (w : WatchSettings) : Byte :=
  byte (w.hysteresis + 4 * w.mode.code + bit 16 w.activeHigh + bit 32 w.enabled)

/-- One record of a TABLE WRITE, read: its value, or out of its range (R182). -/
inductive Record where
  | helio (c : HelioConfig)
  | aim (a : AimPoint)
  | standby (p : StandbyPoint)
  | zone (c : ZoneConfig)
  | slewLimit (seconds : Nat)
  | critical (limit : Nat)
  | watch (w : WatchSettings)
  deriving DecidableEq, Repr

/-- Reads one record of a table and checks its ranges (R182). All 16 bits of a limit are read (log entry 42). -/
def readRecord (t : TableId) (bs : List Byte) : Option Record :=
  match t with
  | .heliostat => let c := readHelio bs; if c.inRange then some (.helio c.normal) else none
  | .aim => let a := readAim bs; if a.1.inRange a.2 then some (.aim a.1.normal) else none
  | .standby => some (.standby (readStandby bs).normal)
  | .zone => let c := readZoneRecord bs; if c.inRange then some (.zone c) else none
  | .field => let n := readNumber bs; if 10 ≤ n ∧ n ≤ 600 then some (.slewLimit n) else none
  | .critical => let n := readNumber bs; if n ≤ 4095 then some (.critical n) else none
  | .watch => (readWatch bs).map .watch

/-- The bytes of the live record of index `i` of a table (R188). -/
def liveRecord (t : Tables) (id : TableId) (i : Nat) : List Byte :=
  match id with
  | .heliostat => writeHelio (t.helioAt i)
  | .aim => writeAim (t.aimAt i)
  | .standby => writeStandby (t.standbyAt i)
  | .zone => writeZoneRecord (t.zoneAt i)
  | .field => be16 t.slewLimit
  | .critical => be16 (t.criticalAt i)
  | .watch => [watchByte t.watch]

/-! ### Program step records (10.8) -/

/-- A ceiling value of three bytes: FFFFFFh is the mark clear, a value above 7FFFFFh is outside its range (10.1, R110). -/
def readCeiling (n : Nat) : Option (Option Nat) :=
  if n = 0xFFFFFF then some none else if n ≤ Config.maxLoad then some (some n) else none

/-- What a step record reads as: an unknown kind, a field outside its range (R110), or a step. -/
inductive StepRead where
  | unknown
  | outOfRange
  | ok (s : Step)
  deriving DecidableEq, Repr

/-- A flags byte with no bit outside the bits `allowed` (10.8). -/
def flagsWithin (flags : Byte) (allowed : Byte) : Bool := (flags &&& ~~~allowed) == 0#8

/-- The range check of a step (R110): the step, or out of range. -/
def StepRead.check (inRange : Bool) (s : Step) : StepRead := if inRange then .ok s else .outOfRange

/-- The TEST codes (10.8) with their parameters and ranges (R110). -/
def readTest (code param v2 v1 v0 : Byte) : StepRead :=
  let z := param.toNat
  let v := int24 v2 v1 v0
  let zoneOk := decide (z ≤ 63)
  let valueOk := decide (-(8388607 : Int) ≤ v)
  match code.toNat with
  | 1 => .check zoneOk (.test (.overBudget z))
  | 2 => .check zoneOk (.test (.notOver z))
  | 3 => .check (zoneOk && valueOk) (.test (.marginGe z v))
  | 4 => .check (zoneOk && valueOk) (.test (.marginLt z v))
  | 5 => .check zoneOk (.test (.warn z))
  | 6 => .check zoneOk (.test (.notWarn z))
  | 7 => .check zoneOk (.test (.settled z))
  | 8 => .check zoneOk (.test (.unsettled z))
  | _ => .outOfRange

/-- Reads a 7-byte step record (10.8) of a program of `count` steps and checks its ranges (R110). -/
def readStep (count : Nat) : List Byte → StepRead
  | [kind, b1, b2, b3, b4, b5, b6] =>
    match kind.toNat with
    | 1 =>
      let expected := if nat16 b4 b5 = 0xFFFF then none else some (nat16 b4 b5)
      StepRead.check
        (decide (b1.toNat ≤ 63) && decide (1 ≤ b3.toNat) && decide (b3.toNat ≤ 8)
          && decide (b2.toNat + b3.toNat - 1 ≤ 255) && decide (orZero expected ≤ 4096) && flagsWithin b6 0x0F#8)
        (.aimGroup b1.toNat b2.toNat b3.toNat expected ⟨b6.getLsbD 0, b6.getLsbD 1, b6.getLsbD 2, b6.getLsbD 3⟩)
    | 2 => StepRead.check (decide (b1.toNat ≤ 63) && flagsWithin b2 0x09#8) (.defocusGroup b1.toNat (b2.getLsbD 0) (b2.getLsbD 3))
    | 3 => StepRead.check (decide (b1.toNat ≤ 63) && flagsWithin b2 0x09#8) (.stowGroup b1.toNat (b2.getLsbD 0) (b2.getLsbD 3))
    | 4 =>
      match readCeiling (nat24 b3 b4 b5) with
      | some v => StepRead.check (decide (b1.toNat ≤ b2.toNat) && decide (b2.toNat ≤ 63)) (.ceiling b1.toNat b2.toNat v)
      | none => .outOfRange
    | 5 =>
      StepRead.check (decide (1 ≤ nat16 b1 b2) && decide (nat16 b1 b2 ≤ 36000) && flagsWithin b3 0x08#8)
        (.wait (nat16 b1 b2) (b3.getLsbD 3))
    | 6 => readTest b1 b2 b3 b4 b5
    | 7 => StepRead.check (decide (b1.toNat < count)) (.jump b1.toNat)
    | 8 => .ok .finish
    | _ => .unknown
  | _ => .unknown

/-! ### Segment frames (10.9) -/

/-- A segment frame: start 5Ah, drive address, kind, parameter length, parameters, CRC-16 (10.9), computed in the bit order of the uplink's,
which 10.9 does not repeat (log entry 46). -/
def segmentFrame (address : Nat) (kind : Byte) (params : List Byte) : List Byte :=
  let inner := be16 address ++ [kind, byte params.length] ++ params
  0x5A#8 :: inner ++ halfBytes (crc16 inner)

/-- The parameters of a MOVE request (10.9). -/
def moveParams (x y z offsetEl offsetAz : Half) (onReceiver : Bool) (id : Nat) : List Byte :=
  halfBytes x ++ halfBytes y ++ halfBytes z ++ halfBytes offsetEl ++ halfBytes offsetAz
    ++ [byte (bit 1 onReceiver), byte id]

/-- A complete frame that has arrived on a segment line: its address, kind and parameters, and whether its check value
is right (R56). -/
structure SegFrame where
  address : Nat
  kind : Byte
  params : List Byte
  checkOk : Bool
  deriving DecidableEq, Repr

/-- Reads the bytes of one frame; bytes that are no complete frame read as none (10.9). -/
def readSegFrame : List Byte → Option SegFrame
  | start :: a1 :: a0 :: kind :: len :: rest =>
    if start = 0x5A#8 ∧ len.toNat ≤ 200 ∧ rest.length = len.toNat + 2 then
      let params := rest.take len.toNat
      some ⟨nat16 a1 a0, kind, params, decide (rest.drop len.toNat = halfBytes (crc16 ([a1, a0, kind, len] ++ params)))⟩
    else none
  | _ => none

/-- The position classes of a status (R54). MOVING carries the marks of the move under way and its target. -/
inductive Position where
  | moving (onReceiver toStow : Bool) (id : Nat)
  | onAim (aim : Nat)
  | clear
  | atStandby
  | stowed
  deriving DecidableEq, Repr

/-- A drive's status (R54, 10.9). -/
structure Status where
  position : Position
  localControl : Bool
  fault : Bool
  limit : Bool
  code : Byte
  deriving DecidableEq, Repr

/-- The four status bytes (10.9); a position class of 5 to 7 is none (R193). -/
def readStatus : List Byte → Option Status
  | [b0, id, flags, code] =>
    let position := match b0.toNat % 8 with
      | 0 => some (Position.moving (b0.getLsbD 7) (b0.getLsbD 6) id.toNat)
      | 1 => some (.onAim id.toNat) | 2 => some .clear | 3 => some .atStandby | 4 => some .stowed | _ => none
    position.map (fun p => ⟨p, flags.getLsbD 0, flags.getLsbD 1, flags.getLsbD 2, code⟩)
  | _ => none

/-- The reasons of a REJECT (R54). -/
inductive RejectReason where
  | limit
  | fault
  | localControl
  deriving DecidableEq, Repr

/-- A good answer of a drive (R54). -/
inductive Answer where
  | accept
  | busy (status : Status)
  | reject (reason : RejectReason)
  | status (status : Status)
  deriving DecidableEq, Repr

/-- Reads an answer's kind and parameters (10.9); a wrong length, class or reason reads as none (R193). -/
def readAnswer (kind : Byte) (params : List Byte) : Option Answer :=
  match kind.toNat, params with
  | 0x41, [] => some .accept
  | 0x42, ps => (readStatus ps).map .busy
  | 0x43, [r] =>
    match r.toNat with
    | 1 => some (.reject .limit) | 2 => some (.reject .fault) | 3 => some (.reject .localControl) | _ => none
  | 0x44, ps => (readStatus ps).map .status
  | _, _ => none

/-- Is the answer of a kind permitted for the request (R54)? A QUERY is answered STATUS, a MOVE or STOW by the others. -/
def Answer.permitted (k : ExKind) : Answer → Bool
  | .status _ => k == .query
  | .accept | .busy _ | .reject _ =>
    match k with
    | .moveAim _ | .owedMotion _ _ => true
    | .query | .pass => false

/-- Is a maintenance kind one of the part's own request kinds: MOVE, STOW or QUERY (R20)? -/
def isOwnKind (kind : Byte) : Bool := kind == 0x01#8 || kind == 0x02#8 || kind == 0x03#8

/-! ### The sensor frame (10.10) -/

/-- A reading taken from the five bytes after a sensor frame's start byte: zone, quarter degrees, scanner FAULT; none
where the check byte does not match or the zone is above 63 (R85). Bits 15 to 12 of the temperature, which the scanner
sends as 0 (10.10), are not read (log entry 25). -/
def readSensor : List Byte → Option (Nat × Nat × Bool)
  | [zone, t1, t0, flags, check] =>
    if crc8 [zone, t1, t0, flags] = check ∧ zone.toNat ≤ 63 then some (zone.toNat, nat16 t1 t0 % 4096, flags.getLsbD 0) else none
  | _ => none

end Sys2Proof.Machine
end

