-- ==== Sys2Proof/Machine/Flags.lean ====
section
/-! DEFINITION. The conditions the part computes: loads and contributions, budgets, OVER, WARN and CRITICAL with hysteresis,
the trip record's asserted state, the pins, and the conditions that hold back NIGHT and the soft reset. -/

namespace Sys2Proof.Machine

/-! ### What a heliostat holds (R5, R25, R27) -/

/-- The aim points a heliostat holds: its granted aim, then its leaving aim (R5). -/
def HelioRun.aims (r : HelioRun) : List Nat := r.granted.toList ++ r.leaving.toList

/-- A heliostat holds load when it has a granted aim or a leaving aim (R5). -/
def HelioRun.holdsLoad (r : HelioRun) : Bool := r.granted.isSome || r.leaving.isSome

/-- A heliostat is pending while it holds load and either owes a motion or is RETURNING with released no (R27). -/
def HelioRun.isPending (r : HelioRun) : Bool :=
  r.holdsLoad && (r.owed.isSome || (r.state == .returning && !r.released))

/-- LOST with unaccounted no (R100). -/
def HelioRun.accountedLost (r : HelioRun) : Bool := r.state == .lost && !r.unaccounted

/-- LOST with unaccounted yes (R150). -/
def HelioRun.unaccountedLost (r : HelioRun) : Bool := r.state == .lost && r.unaccounted

/-- The footprint of aim point `a` (R22). -/
def Env.footprint (env : Env) (a : Nat) : List (Nat × Nat) := (env.live.aimAt a).footprint

/-- The share of zone `z` in a footprint, 0 when the zone is not in it (R25). -/
def shareOf (fp : List (Nat × Nat)) (z : Nat) : Nat := ((fp.find? (fun p => p.1 == z)).map (·.2)).getD 0

/-- The contribution of heliostat `h` to zone `z` through aim point `a`: weight times share (R25). -/
def Env.contribution (env : Env) (h a z : Nat) : Nat := (env.live.helioAt h).weight * shareOf (env.footprint a) z

/-- The load heliostat `h` with record `r` holds on zone `z`: its contribution through every aim it holds (R25). -/
def Env.load (env : Env) (h : Nat) (r : HelioRun) (z : Nat) : Nat :=
  (r.aims.map (fun a => env.contribution h a z)).sum

/-- The part of that load that is pending (R27). -/
def Env.pendingLoad (env : Env) (h : Nat) (r : HelioRun) (z : Nat) : Nat := if r.isPending then env.load h r z else 0

/-- Does the footprint of aim point `a` include zone `z`? -/
def Env.aimCovers (env : Env) (a z : Nat) : Bool := (env.footprint a).any (fun p => p.1 == z)

/-- A heliostat covers zone `z` when its granted or leaving aim has a footprint that includes `z` (R25). -/
def Env.covers (env : Env) (r : HelioRun) (z : Nat) : Bool := r.aims.any (fun a => env.aimCovers a z)

/-- The heliostats that hold load, in ascending index. -/
def Field.holders (f : Field) : List Nat := (f.helio.filter (fun p => p.2.holdsLoad)).map (·.1)

/-! ### Budgets (R28) -/

/-- The budget of a zone: 0 while it is CRITICAL, otherwise the least of the base, the ceiling while present, the
fallback while the zone is STALE or the watch is off, and the derated base, rounded down, while it is WARN (R28). -/
def budgetOf (c : ZoneConfig) (watchOn : Bool) (z : ZoneRun) : Nat :=
  if z.critical then 0
  else
    let withCeiling := match z.ceiling with
      | some v => min c.base v
      | none => c.base
    let withFallback := if z.stale || !watchOn then min withCeiling c.fallback else withCeiling
    if z.warn then min withFallback (c.base * c.derate / 100) else withFallback

/-- OVER holds while committed load is greater than budget (R30). -/
def ZoneRun.isOver (z : ZoneRun) : Bool := decide (z.budget < z.committed)

/-- Unsecured load, committed less pending, is greater than budget (R44). -/
def ZoneRun.inExcess (z : ZoneRun) : Bool := decide (z.budget + z.pending < z.committed)

/-- The margin: budget less committed load, signed (R50). -/
def ZoneRun.margin (z : ZoneRun) : Int := (z.budget : Int) - (z.committed : Int)

/-! ### WARN and CRITICAL (R88) -/

/-- The hysteresis of a code in quarter degrees: 0, 4, 8 or 16 °C (R88). -/
def hysteresisOf (code : Nat) : Nat :=
  match code with
  | 0 => 0 | 1 => 16 | 2 => 32 | _ => 64

/-- A condition after a reading of `t` quarter degrees: entered at or above its limit, left below the limit less `h` (R88). -/
def judge (held : Bool) (limit h t : Nat) : Bool := if held then !decide (t + h < limit) else decide (limit ≤ t)

/-! ### The trip record and the pins (R100 to R102) -/

/-- Is any zone CRITICAL? The critical cause of the trip record (R100). -/
def Field.anyCritical (f : Field) : Bool := f.zone.any (fun p => p.2.critical)

/-- Is any zone UNSHEDDABLE, or any heliostat LOST with unaccounted no? The non-critical cause (R100). -/
def Field.anyNonCritical (f : Field) : Bool :=
  f.zone.any (fun p => p.2.unsheddable) || f.helio.any (fun p => p.2.accountedLost)

/-- The asserted state of a trip record under a trip mode (R101). -/
def assertedUnder (mode : TripMode) (critical nonCritical latch : Bool) : Bool :=
  match mode with
  | .latch => latch
  | .follow => critical || nonCritical
  | .criticalOnly => critical

/-- Is the TRIP pin at its active level? Asserted and enabled, once the tables are loaded (R102). -/
def State.tripActive (s : State) : Bool := s.field.trip.asserted && s.live.watch.enabled

/-- The level of the TRIP pin: low until the tables are loaded, then active or inactive by the polarity (R102). -/
def State.tripPinHigh (s : State) : Bool :=
  s.phase == .running && (s.tripActive == s.live.watch.activeHigh)

/-- The level of a segment's transmit enable: high while the part drives the line (R54, 00_scope.md section 6). -/
def State.transmitEnable (s : State) (seg : Nat) : Bool :=
  match (s.field.sxeAt seg).exchange with
  | some x => x.phase == .sending
  | none => false

/-! ### Programs (R108, R119, R122, R125) -/

/-- A slot is non-idle while it is PENDING, RUNNING, WAITING or SUSPENDED (R108). -/
def SlotState.nonIdle : SlotState → Bool
  | .pending | .running | .waiting | .suspended => true
  | .empty | .loaded | .ended => false

/-- Is any slot non-idle? -/
def Field.anyNonIdle (f : Field) : Bool := f.slot.any (fun p => p.2.state.nonIdle)

/-- A settle set member given `aim` is unsettled while it is SLEWING with that granted aim and owes no motion (R119). -/
def HelioRun.unsettledOn (r : HelioRun) (aim : Nat) : Bool :=
  r.state == .slewing && r.granted == some aim && r.owed.isNone

/-- A followed member is moving off while it owes a motion or is RETURNING, and is not LOST (R122). -/
def HelioRun.movingOff (r : HelioRun) : Bool := (r.owed.isSome || r.state == .returning) && r.state != .lost

/-- The SETTLED codes' condition on one member: SLEWING, RETURNING or owing a motion (R125). -/
def HelioRun.restless (r : HelioRun) : Bool := r.state == .slewing || r.state == .returning || r.owed.isSome

/-- The HOLD flag of a step (R110, R134). -/
def Step.holds : Step → Bool
  | .aimGroup _ _ _ _ flags => flags.hold
  | .defocusGroup _ _ hold => hold
  | .stowGroup _ _ hold => hold
  | .wait _ hold => hold
  | .ceiling _ _ _ | .test _ | .jump _ | .finish => false

/-! ### What holds back NIGHT and the soft reset (R153, R162) -/

/-- Is a MOVE exchange, for an aim or for standby, in flight (R153)? -/
def Exchange.isMove (x : Exchange) : Bool :=
  match x.kind with
  | .moveAim _ => true
  | .owedMotion dest _ => dest == .standby
  | .query | .pass => false

/-- The first condition that would refuse SET STATE NIGHT (R153). -/
def Field.nightFact (f : Field) : Option Fact :=
  if f.helio.any (fun p => p.2.holdsLoad) then some .load
  else if f.anyNonIdle then some .program
  else if f.helio.any (fun p => p.2.owed.isSome && !p.2.unaccountedLost) then some .owed
  else if f.sxe.any (fun p => !p.2.queue.isEmpty) then some .queue
  else if f.sxe.any (fun p => (p.2.exchange.map Exchange.isMove).getD false) then some .motion
  else none

/-- The first condition that refuses the RESET order (R162). -/
def State.resetFact (s : State) : Option Fact :=
  if s.osc.opState != .hold && s.osc.opState != .night then some .state
  else if s.field.helio.any (fun p => p.2.holdsLoad) then some .load
  else if s.field.anyNonIdle then some .program
  else none

/-! ### Protection and pages (R179) -/

/-- The block that holds index `i` of a table (R179). -/
def blockOfIndex (t : TableId) (i : Nat) : Block :=
  match t with
  | .heliostat => if i < 1024 then .ht0 else if i < 2048 then .ht1 else if i < 3072 then .ht2 else .ht3
  | .aim => .apt
  | .standby => .sbt
  | .zone | .field => .zone
  | .critical | .watch => .limit

/-- The protection mark of a block. -/
def ProtMarks.has (m : ProtMarks) : Block → Bool
  | .ht0 => m.ht0 | .ht1 => m.ht1 | .ht2 => m.ht2 | .ht3 => m.ht3
  | .apt => m.apt | .sbt => m.sbt | .zone => m.zone | .limit => m.limit

/-- The marks with a block's mark set. -/
def ProtMarks.withBlock (m : ProtMarks) : Block → ProtMarks
  | .ht0 => { m with ht0 := true } | .ht1 => { m with ht1 := true } | .ht2 => { m with ht2 := true }
  | .ht3 => { m with ht3 := true } | .apt => { m with apt := true } | .sbt => { m with sbt := true }
  | .zone => { m with zone := true } | .limit => { m with limit := true }

/-- The first index of the page that holds index `i` (R179). -/
def pageStart (i : Nat) : Nat := i / Config.pageSize * Config.pageSize

/-- The last index of that page: 15 above its first, or the table's last index (R179). -/
def pageLast (t : TableId) (i : Nat) : Nat := min (pageStart i + 15) (t.size - 1)

end Sys2Proof.Machine
end

