-- ==== Sys2Proof/Machine/Ops.lean ====
section
/-! DEFINITION. The operations the blocks share: reports, the accounts that follow a heliostat record, owed motions, grants and
their withdrawal, budgets, shedding, the trip record, critical onset and field-safe onset. -/

namespace Sys2Proof.Machine

/-! ### The Report Queue (R175, R176) -/

/-- Is the report-owed flag of a source set (R176)? A heliostat's is the report owed field of its record (R19). -/
def Field.reportOwed (f : Field) : Source → Bool
  | .helio h => (f.run h).reportOwed
  | .zone z => Table.get false f.reports.zoneOwed z
  | .slot k => Table.get false f.reports.slotOwed k
  | .opState => f.reports.stateOwed
  | .trip => f.reports.tripOwed

/-- Sets or clears the report-owed flag of a source (R176). -/
def Field.setReportOwed (f : Field) (src : Source) (b : Bool) : Field :=
  match src with
  | .helio h => f.setRun h { f.run h with reportOwed := b }
  | .zone z => { f with reports := { f.reports with zoneOwed := Table.set Config.zones false f.reports.zoneOwed z b } }
  | .slot k => { f with reports := { f.reports with slotOwed := Table.set Config.slots false f.reports.slotOwed k b } }
  | .opState => { f with reports := { f.reports with stateOwed := b } }
  | .trip => { f with reports := { f.reports with tripOwed := b } }

/-- Queues a report for a source (R175): an entry already queued keeps its position, a flag already set stays set,
otherwise the source joins the tail, or, with no free entry, its report-owed flag is set. -/
def Field.queueReport (src : Source) (f : Field) : Field :=
  if src ∈ f.reports.queue then f
  else if f.reportOwed src then f
  else if f.reports.queue.length < Config.reportQueue then
    { f with reports := { f.reports with queue := f.reports.queue ++ [src] } }
  else f.setReportOwed src true

/-! ### One change under way -/

/-- One change of the field under way: the field as it stands, the zones whose loads or budget have changed and which
the FAU has still to test (R44), and whether an onset of the trip record has occurred (R100). -/
structure Work where
  fld : Field
  touched : List Nat
  onset : Bool
  deriving DecidableEq, Repr

/-- The start of a change. -/
def Work.of (f : Field) : Work := ⟨f, [], false⟩

/-- Adds a zone to an ascending list without repeats. -/
def insertZone (z : Nat) : List Nat → List Nat
  | [] => [z]
  | y :: t => if z < y then z :: y :: t else if z = y then y :: t else y :: insertZone z t

/-- Marks zones as touched. -/
def Work.touch (zs : List Nat) (w : Work) : Work := { w with touched := zs.foldr insertZone w.touched }

/-- Queues a report (R175). -/
def Work.report (src : Source) (w : Work) : Work := { w with fld := w.fld.queueReport src }

/-! ### Heliostat records -/

/-- The fields that R6 ties to a state take their absent or no values outside it: destination and released outside
RETURNING, accepted, its slew timer, its Move Queue entry (R58) and the grant's origin and kind outside SLEWING, motion
cause outside both, unaccounted outside LOST; a heliostat at rest has its rest field set (R2). -/
def HelioRun.tidy (r : HelioRun) : HelioRun :=
  { r with
    destination := if r.state = .returning then r.destination else none
    released := r.state == .returning && r.released
    accepted := r.state == .slewing && r.accepted
    queued := r.state == .slewing && r.queued
    slewEnds := if r.state = .slewing then r.slewEnds else none
    origin := if r.state = .slewing then r.origin else none
    reAim := r.state == .slewing && r.reAim
    motionCause := if r.state = .slewing ∨ r.state = .returning then r.motionCause else none
    unaccounted := r.state == .lost && r.unaccounted
    rest := if r.state = .standby then .standby else if r.state = .stowed then .stowed else r.rest }

/-- The nothing-remains test (R11): an owed DEFOCUS has nothing left to do when the heliostat is STANDBY, STOWED or
RETURNING, an owed STOW when it is STOWED or RETURNING to STOW. The field is then cleared, and with it the busy count (R69). -/
def HelioRun.nothingRemains (r : HelioRun) : HelioRun :=
  match r.owed with
  | none => r
  | some ⟨.defocus, _⟩ =>
    if r.state = .standby ∨ r.state = .stowed ∨ r.state = .returning then { r with owed := none, busyCount := 0 } else r
  | some ⟨.stow, _⟩ =>
    if r.state = .stowed ∨ (r.state = .returning ∧ r.destination = some .stow) then { r with owed := none, busyCount := 0 }
    else r

/-- Sets a motion on a record (R11): DEFOCUS outranks STOW, and otherwise the first motion and cause stay. A change of
the field zeroes the busy count (R69), a change that a poll's answer brings too (log entry 48). -/
def HelioRun.setOwed (motion : Motion) (cause : Cause) (r : HelioRun) : HelioRun :=
  match r.owed, motion with
  | none, _ => { r with owed := some ⟨motion, cause⟩, busyCount := 0 }
  | some ⟨.stow, _⟩, .defocus => { r with owed := some ⟨.defocus, cause⟩, busyCount := 0 }
  | some _, _ => r

/-- Do two records differ by a reported change (R17)? -/
def HelioRun.differs (old new : HelioRun) : Bool :=
  old.state != new.state || old.granted != new.granted || old.leaving != new.leaving || old.owed != new.owed
    || (new.fault.isSome && old.fault != new.fault) || old.unaccounted != new.unaccounted
    || old.localControl != new.localControl

/-- The new record with the cause of the change as its last cause, if the change is a reported one (R17). -/
def HelioRun.by (cause : Option Cause) (old new : HelioRun) : HelioRun :=
  if old.differs new then { new with lastCause := cause.orElse (fun _ => new.lastCause) } else new

/-- The zones of the footprints of some aims, ascending. -/
def Env.zonesOf (env : Env) (aims : List Nat) : List Nat :=
  (aims.flatMap (fun a => (env.footprint a).map (·.1))).foldr insertZone []

/-- The accounts of one zone follow a record from `old` to `new` (R26, R27). -/
def Field.account (env : Env) (h : Nat) (old new : HelioRun) (f : Field) (z : Nat) : Field :=
  let v := f.zoneAt z
  f.setZone z
    { v with
      committed := v.committed + env.load h new z - env.load h old z
      pending := v.pending + env.pendingLoad h new z - env.pendingLoad h old z }

/-- Raises the reference counts of the aims of `up` and lowers those of `down` (R23). -/
def Field.recount (f : Field) (up down : List Nat) : Field :=
  let f1 := up.foldl (fun g a => g.setRef a (g.refAt a + 1)) f
  down.foldl (fun g a => g.setRef a (g.refAt a - 1)) f1

/-- The Grant List after a record's granted aim becomes `granted` (R36): an entry exactly while it has a granted aim,
a new entry at the newest end, an entry that stays keeping its place. -/
def grantsAfter (grants : List Nat) (h : Nat) (granted : Option Nat) : List Nat :=
  if granted.isNone then grants.filter (· != h) else if h ∈ grants then grants else grants ++ [h]

/-- A heliostat that goes LOST stops being followed by the wait of a DEFOCUS GROUP or STOW GROUP step (R122). -/
def WaitOn.unfollow (h : Nat) : WaitOn → WaitOn
  | .offReceiver followed => .offReceiver (followed.filter (· != h))
  | .timer ends => .timer ends
  | .settle => .settle
  | .queueSpace position members short => .queueSpace position members short

/-- The active slot, the only one that waits, stops following heliostat `h` (R122). -/
def Field.unfollow (h : Nat) (f : Field) : Field :=
  match f.arbiter.active with
  | some k => f.setSlot k { f.slotAt k with waitingOn := (f.slotAt k).waitingOn.map (WaitOn.unfollow h) }
  | none => f

/-- The zones whose committed or pending load a record's change may move: none where the held aims and pending stay (R26, R27). -/
def Env.zonesMoved (env : Env) (old new : HelioRun) : List Nat :=
  if old.aims = new.aims ∧ old.isPending = new.isPending then [] else env.zonesOf (old.aims ++ new.aims)

/-- Writes the runtime record of heliostat `h` and the accounts that follow it: committed and pending load (R26, R27) and
the reference counts (R23). -/
def Field.accountRecord (env : Env) (h : Nat) (r : HelioRun) (f : Field) : Field :=
  let old := f.run h
  ((env.zonesMoved old r).foldl (Field.account env h old r) (f.setRun h r)).recount
    (r.aims.filter (· ∉ old.aims)) (old.aims.filter (· ∉ r.aims))

/-- Writes the runtime record of heliostat `h`, and with it, as one change, everything that follows it: the accounts, the
Grant List (R36), and, for one entering LOST, the wait that follows it (R122). A member that is LOST already and becomes
accounted LOST afresh at a rejected retry (R74) is no such entry: it stays followed (log entry 40). -/
def Field.record (env : Env) (h : Nat) (r : HelioRun) (f : Field) : Field :=
  let f1 := f.accountRecord env h r
  let f2 := { f1 with grants := grantsAfter f1.grants h r.granted }
  if r.state = .lost ∧ (f.run h).state ≠ .lost then f2.unfollow h else f2

/-- Writes the record of heliostat `h` with what follows it, and touches the zones it moves. A heliostat entering accounted
LOST is an onset of the trip record (R100). -/
def Work.write (env : Env) (h : Nat) (r : HelioRun) (w : Work) : Work :=
  if h < Config.heliostats then
    { fld := w.fld.record env h r
      touched := (env.zonesMoved (w.fld.run h) r).foldr insertZone w.touched
      onset := w.onset || (r.accountedLost && !(w.fld.run h).accountedLost) }
  else w

/-- Writes a record and queues its HELIO EVENT if the change is a reported one (R17). -/
def Work.put (env : Env) (h : Nat) (r : HelioRun) (w : Work) : Work :=
  let w1 := w.write env h r
  if (w.fld.run h).differs r then w1.report (.helio h) else w1

/-! ### Revocation and withdrawal (R37 to R39, R59) -/

/-- The record after its grant is revoked (R37, R38): a re-aim returns to TRACKING on its old aim, any other grant to
the rest state; the busy count becomes 0 (R69). -/
def HelioRun.revoked (r : HelioRun) : HelioRun :=
  match r.leaving with
  | some a => { r with granted := some a, leaving := none, state := .tracking, busyCount := 0 }.tidy
  | none =>
    { r with granted := none, state := (match r.rest with | .standby => .standby | .stowed => .stowed), busyCount := 0 }.tidy

/-- Adds a heliostat to a residual, kept in ascending index; the first reason found stays (R107). -/
def addResidual (h : Nat) (reason : Reason) : List (Nat × Reason) → List (Nat × Reason)
  | [] => [(h, reason)]
  | (k, r) :: t => if h < k then (h, reason) :: (k, r) :: t else if h = k then (k, r) :: t else (k, r) :: addResidual h reason t

/-- A revocation of a settle set member's grant for the aim the step gave it reaches the slot's status record (R120):
REJECTED with DRIVE REJECT where the drive `refused` the move by REJECT or BUSY, REVOKED at any withdrawal. A later grant of
that aim, made by an AIM order to a member that has left it, is followed too (log entry 39); so is a withdrawal that the
running step's own owed motion makes (log entry 47). -/
def Slot.follow (h aim : Nat) (refused : Bool) (k : Slot) : Slot :=
  if (h, aim) ∈ k.settleSet then
    if refused then
      { k with residual := addResidual h .rejected k.residual, flags := { k.flags with driveReject := true } }
    else { k with residual := addResidual h .revoked k.residual }
  else k

/-- Lets every slot that keeps its settle set follow a revocation (R120). -/
def Work.follow (h : Nat) (aim : Option Nat) (refused : Bool) (w : Work) : Work :=
  match aim with
  | none => w
  | some a =>
    { w with fld := (List.range Config.slots).foldl (fun f k => f.setSlot k ((f.slotAt k).follow h a refused)) w.fld }

/-- Removes a heliostat's entry from a segment's Move Queue (R58, R59), which frees space in it (R117). -/
def Field.dropEntry (seg h : Nat) (f : Field) : Field :=
  let x := f.sxeAt seg
  if x.queue.any (fun e => e.helio == h) then
    f.setSxe seg { x with queue := x.queue.filter (fun e => e.helio != h), spaceFreed := true }
  else f

/-- Removes a heliostat's entry from its segment's Move Queue. -/
def Work.dropEntry (env : Env) (h : Nat) (w : Work) : Work := { w with fld := w.fld.dropEntry (env.segmentOf h) h }

/-- Withdraws a heliostat's Move Queue entry: the entry is removed, queued becomes no and its grant is revoked with the
cause, as one change (R39, R59). -/
def Work.withdraw (env : Env) (cause : Cause) (h : Nat) (w : Work) : Work :=
  let r := w.fld.run h
  if r.queued then
    let r1 := ({ r with queued := false }.revoked).nothingRemains
    ((w.dropEntry env h).put env h (r.by (some cause) r1)).follow h r.granted false
  else w

/-- Withdraws every Move Queue entry that satisfies `p`, segment 0 first, in queue order (R39). -/
def Work.withdrawAll (env : Env) (cause : Cause) (p : Entry → Bool) (w : Work) : Work :=
  let entries := (List.range Config.segments).flatMap (fun g => (w.fld.sxeAt g).queue.filter p)
  entries.foldl (fun (w : Work) e => w.withdraw env cause e.helio) w

/-! ### Owed motions (R11 to R13) -/

/-- Sets an owed motion on heliostat `h` (R11), with the withdrawal of its Move Queue entry in the same change (R12), the
nothing-remains test applied to the result. `cause` is the owed cause, the revocation's and the HELIO EVENT's. A DEFOCUS set
on a STANDBY heliostat that owes STOW replaces it and then has nothing left to do, which clears the field: R11's steps, where
R14's table says no change (log entry 36). The grant withdrawn here reaches every slot that follows it as REVOKED (R120),
the slot whose own step owes the motion among them, though R121 has that step leave the residual alone (log entry 47). -/
def Work.owe (env : Env) (motion : Motion) (cause : Cause) (h : Nat) (w : Work) : Work :=
  let r := w.fld.run h
  if r.queued then
    let r1 := (({ r with queued := false }.revoked).setOwed motion cause).nothingRemains
    ((w.dropEntry env h).put env h (r.by (some cause) r1)).follow h r.granted false
  else w.put env h (r.by (some cause) (r.setOwed motion cause).nothingRemains)

/-- Would a DEFOCUS or STOW order for this present heliostat be refused, and how (R14)? -/
def HelioRun.motionRefusal (r : HelioRun) (passHeld : Bool) : Option Result :=
  if r.state = .faulted ∨ r.state = .silent then some .state
  else if r.maint && !r.holdsLoad then some .inhibited
  else if passHeld then some .busy
  else none

/-- Is a PASS for heliostat `h` held (R21)? -/
def Field.passHeld (env : Env) (h : Nat) (f : Field) : Bool :=
  ((f.sxeAt (env.segmentOf h)).passSlot.map (fun p => p.helio == h)).getD false

/-- Gives the members that a DEFOCUS or STOW order would not refuse the motion, in member order, and counts those whose
owed motion or owed cause changed or whose entry was withdrawn (R14, R121). -/
def Work.oweMembers (env : Env) (motion : Motion) (cause : Cause) (members : List Nat) (w : Work) : Work × Nat :=
  members.foldl
    (fun (p : Work × Nat) h =>
      let r := p.1.fld.run h
      if (r.motionRefusal (p.1.fld.passHeld env h)).isSome then p
      else
        let w1 := p.1.owe env motion cause h
        (w1, if r.queued || (w1.fld.run h).owed != r.owed then p.2 + 1 else p.2))
    (w, 0)

/-! ### Zones: marks, budgets, OVER (R28 to R30, R51) -/

/-- Writes a zone, adding marks, which queues its ZONE EVENT (R51). -/
def Work.mark (z : Nat) (v : ZoneRun) (w : Work) : Work := ({ w with fld := w.fld.setZone z v }).report (.zone z)

/-- Recomputes the budget of a zone (R28, R29): a change is marked BUDGET and touches the zone. -/
def Work.rebudget (env : Env) (z : Nat) (w : Work) : Work :=
  let v := w.fld.zoneAt z
  let b := budgetOf (env.live.zoneAt z) env.watchOn v
  if b = v.budget then w
  else (w.mark z { v with budget := b, marks := { v.marks with budget := true } }).touch [z]

/-- Re-evaluates OVER for a zone; a change is marked OVER (R30). -/
def Work.evalOver (z : Nat) (w : Work) : Work :=
  let v := w.fld.zoneAt z
  if v.isOver = v.overBudget then w
  else w.mark z { v with overBudget := v.isOver, marks := { v.marks with overBudget := true } }

/-! ### Shedding (R44 to R47) -/

/-- A shedding candidate for zone `z`: it covers `z` and neither owes a motion nor is RETURNING or LOST (R45). -/
def Work.candidate (env : Env) (z h : Nat) (w : Work) : Bool :=
  let r := w.fld.run h
  env.covers r z && r.owed.isNone && r.state != .returning && r.state != .lost

/-- Treats a candidate (R46): a queued one has its entry withdrawn, and, as a re-aim whose old aim also covers an
excessive `z`, is then owed DEFOCUS; any other is owed DEFOCUS, cause SHED. -/
def Work.shed (env : Env) (z h : Nat) (w : Work) : Work :=
  if (w.fld.run h).queued then
    let w1 := w.withdraw env .shed h
    if env.covers (w1.fld.run h) z && (w1.fld.zoneAt z).inExcess then w1.owe env .defocus .shed h else w1
  else w.owe env .defocus .shed h

/-- The shedding walk for zone `z` over the Grant List from its newest entry (R45). -/
def Work.walk (env : Env) (z : Nat) : List Nat → Work → Work
  | [], w => w
  | h :: t, w =>
    if (w.fld.zoneAt z).inExcess then Work.walk env z t (if w.candidate env z h then w.shed env z h else w) else w

/-- Sets or clears UNSHEDDABLE for a zone (R47); a change is marked, and setting it is an onset of the trip record (R100). -/
def Work.setUnsheddable (z : Nat) (b : Bool) (w : Work) : Work :=
  let v := w.fld.zoneAt z
  if v.unsheddable = b then w
  else
    let w1 := w.mark z { v with unsheddable := b, marks := { v.marks with unsheddable := true } }
    { w1 with onset := w1.onset || b }

/-- The shedding test of a zone (R44): a walk while unsecured load exceeds the budget, and UNSHEDDABLE by what is left (R47). -/
def Work.shedTest (env : Env) (z : Nat) (w : Work) : Work :=
  let w1 := if (w.fld.zoneAt z).inExcess then (w.walk env z w.fld.grants.reverse).evalOver z else w
  let w2 := w1.setUnsheddable z (w1.fld.zoneAt z).inExcess
  { w2 with touched := w2.touched.filter (· != z) }

/-- Re-evaluates OVER and applies the shedding test to each touched zone, in ascending order, with the zones that a walk
touches among those still to come (R29, R44). `fuel` bounds the number of tests. -/
def Work.settle (env : Env) : Nat → Work → Work
  | 0, w => w
  | n + 1, w =>
    match w.touched with
    | [] => w
    | z :: t => Work.settle env n ((({ w with touched := t }).evalOver z).shedTest env z)

/-- More tests than a change can call for: each touched zone once, and the zones of every grant that a walk can take. -/
def Work.fuel (w : Work) : Nat := w.touched.length + 16 * (w.fld.grants.length + 1) + 64

/-- The FAU's tests on every zone touched so far (R29, R44). -/
def Work.settleNow (env : Env) (w : Work) : Work := w.settle env w.fuel

/-! ### The trip record (R100, R101, R104) -/

/-- Re-evaluates the trip record at the end of a change; a change of a cause, the latch or the asserted state queues a
TRIP EVENT (R104). In LATCH mode an onset sets the latch, in the other modes it is held clear (R101). -/
def Work.evalTrip (env : Env) (w : Work) : Work :=
  let t := w.fld.trip
  let c := w.fld.anyCritical
  let n := w.fld.anyNonCritical
  let mode := env.live.watch.mode
  let l := mode == .latch && (t.latch || w.onset)
  let t1 : TripRecord := ⟨c, n, l, assertedUnder mode c n l⟩
  let w1 := { w with onset := false }
  if t1 = t then w1 else ({ w1 with fld := { w1.fld with trip := t1 } }).report .trip

/-- The end of a change: the FAU's tests, then the trip record (R56, R91). -/
def Work.finish (env : Env) (w : Work) : Field := ((w.settleNow env).evalTrip env).fld

/-! ### Critical onset (R93) and the field-safe onset (R159) -/

/-- The critical onset actions of zone `z` (R93): the entries whose aim covers it are withdrawn, then every load holder
covering it is owed DEFOCUS, cause CRITICAL. -/
def Work.criticalOnset (env : Env) (z : Nat) (w : Work) : Work :=
  let w1 := ({ w with onset := true }).withdrawAll env .critical (fun e => env.aimCovers e.aim z)
  let hs := w1.fld.holders.filter (fun h => env.covers (w1.fld.run h) z)
  hs.foldl (fun (w : Work) h => w.owe env .defocus .critical h) w1

/-- Recomputes the budgets of some zones, all of them first (R29). -/
def Work.rebudgetAll (env : Env) (zs : List Nat) (w : Work) : Work := zs.foldl (fun (w : Work) z => w.rebudget env z) w

/-- Ends a slot's run (R112): ENDED with its cause, nothing waited on, the settle set emptied, out of the arbiter, a
PROGRAM END queued (R128). The next program is not chosen here. -/
def Work.endSlot (k : Nat) (cause : EndCause) (w : Work) : Work :=
  let f := w.fld
  let s := f.slotAt k
  let f1 := f.setSlot k { s with state := .ended, endCause := some cause, waitingOn := none, settleSet := [] }
  let a := f1.arbiter
  let a1 : Arbiter :=
    ⟨if a.active = some k then none else a.active, a.suspended.filter (· != k), a.waiting.filter (· != k)⟩
  ({ w with fld := { f1 with arbiter := a1 } }).report (.slot k)

/-- Ends every non-idle slot with a cause, reports in ascending slot order, no program chosen (R141, R142), and counts them. -/
def Work.endAll (cause : EndCause) (w : Work) : Work × Nat :=
  (List.range Config.slots).foldl
    (fun (p : Work × Nat) k => if (p.1.fld.slotAt k).state.nonIdle then (p.1.endSlot k cause, p.2 + 1) else p) (w, 0)

/-- The part of the field-safe onset actions made on the field (R159): every non-idle slot ended SAFE, every Move Queue
entry withdrawn, every load holder owed DEFOCUS. -/
def Work.safeActions (env : Env) (w : Work) : Work :=
  let w1 := (w.endAll .safe).1.withdrawAll env .safe (fun _ => true)
  w1.fld.holders.foldl (fun (w : Work) h => w.owe env .defocus .safe h) w1

/-- The counts of R161: slots ended, entries withdrawn, and heliostats whose owed motion or owed cause the actions change. -/
def Work.safeCounts (env : Env) (w : Work) : Nat × Nat × Nat :=
  ((w.endAll .safe).2, ((List.range Config.segments).map (fun g => (w.fld.sxeAt g).queue.length)).sum,
    ((w.safeActions env).fld.helio.filter (fun p => p.2.owed != (w.fld.run p.1).owed)).length)

/-! ### Admission and grant (R31 to R35) -/

/-- What the admission checks answer for one heliostat and one aim point. -/
inductive Admission where
  | refused (r : Result)
  | critical (zone : Nat)
  | noBudget (zone : Nat) (margin : Int)
  | alreadyOn
  | granted
  deriving DecidableEq, Repr

/-- Checks 2 and 3 of R31: the operating state and the field-safe condition. -/
def Env.gate (env : Env) : Option Result :=
  match env.opState with
  | .waking => some .notReady
  | .survey | .hold | .night => some .state
  | .operate => if env.fieldSafe then some .safe else none

/-- Check 5 of R31: STANDBY, STOWED and TRACKING pass, FAULTED is refused STATE, the others BUSY. -/
def HelioRun.aimRefusal (r : HelioRun) : Option Result :=
  match r.state with
  | .standby | .stowed | .tracking => none
  | .faulted => some .state
  | .slewing | .returning | .lost | .unsure | .silent | .absent => some .busy

/-- Checks 4 to 10 of R31, with the same-aim test of R32 between checks 6 and 7. -/
def Field.admitMotion (env : Env) (h a : Nat) (f : Field) : Admission :=
  let r := f.run h
  let fp := env.footprint a
  if r.inhibit || r.maint then .refused .inhibited
  else match r.aimRefusal with
    | some x => .refused x
    | none =>
      if r.queued || r.owed.isSome || r.inFlight then .refused .busy
      else if r.state = .tracking ∧ r.granted = some a then .alreadyOn
      else if !(env.live.aimAt a).present then .refused .range
      else match fp.find? (fun p => (f.zoneAt p.1).critical) with
        | some p => .critical p.1
        | none =>
          match fp.find? (fun p => decide ((f.zoneAt p.1).budget < (f.zoneAt p.1).committed + env.contribution h a p.1)) with
          | some p => .noBudget p.1 (f.zoneAt p.1).margin
          | none =>
            if Config.moveQueue ≤ (f.sxeAt (env.segmentOf h)).queue.length then .refused .queueFull else .granted

/-- The ten checks of R31 for an AIM order. -/
def Field.judgeAim (env : Env) (h a : Nat) (f : Field) : Admission :=
  if !(env.live.helioAt h).present then .refused .range
  else match env.gate with
    | some x => .refused x
    | none => f.admitMotion env h a

/-- Moves a heliostat's entry to the newest end of the Grant List (R36). -/
def Work.toNewest (h : Nat) (w : Work) : Work :=
  if h ∈ w.fld.grants then { w with fld := { w.fld with grants := w.fld.grants.filter (· != h) ++ [h] } } else w

/-- Adds an entry at the tail of the Move Queue of its heliostat's segment, which holds at most 64 entries (R34, R58, R69). -/
def Work.enqueue (env : Env) (e : Entry) (w : Work) : Work :=
  let x := w.fld.sxeAt (env.segmentOf e.helio)
  if x.queue.length < Config.moveQueue then
    { w with fld := w.fld.setSxe (env.segmentOf e.helio) { x with queue := x.queue ++ [e] } }
  else w

/-- Makes a grant (R34, R35): the record, the accounts, the Grant List's newest end, the Move Queue's tail and the HELIO EVENT. -/
def Work.grant (env : Env) (h a : Nat) (origin : Origin) (cause : Cause) (w : Work) : Work :=
  let r := w.fld.run h
  let r1 :=
    { r with
      granted := some a, leaving := if r.state = .tracking then r.granted else none, state := .slewing
      motionCause := some cause, accepted := false, busyCount := 0, queued := true, origin := some origin
      reAim := r.state == .tracking }
  let w1 := (w.write env h (r.by (some cause) r1)).toNewest h
  ((w1.enqueue env ⟨h, a, origin⟩)).report (.helio h)

/-! ### Ceilings (R49, R123) -/

/-- Sets or removes the ceiling of one zone (R49): a change recomputes the budget, is marked CEILING, and queues a ZONE
EVENT. -/
def Work.setCeiling (env : Env) (value : Option Nat) (z : Nat) (w : Work) : Work :=
  let v := w.fld.zoneAt z
  if v.ceiling = value then w
  else (w.mark z { v with ceiling := value, marks := { v.marks with ceiling := true } }).rebudget env z

/-- SET CEILING and the CEILING step on a range of zones, ascending (R49), with the number of zones whose ceiling changed. -/
def Work.setCeilings (env : Env) (first last : Nat) (value : Option Nat) (w : Work) : Work × Nat :=
  let zs := (List.range' first (last + 1 - first))
  (zs.foldl (fun (w : Work) z => w.setCeiling env value z) w,
    (zs.filter (fun z => (w.fld.zoneAt z).ceiling != value)).length)

/-! ### The state around the field -/

/-- Makes one change of the field, ended by the FAU's tests and the trip record. -/
def State.change (s : State) (g : Work → Work) : State := { s with field := (g (Work.of s.field)).finish s.env }

/-- Queues the STATE EVENT (R165). -/
def State.stateEvent (s : State) : State := { s with field := s.field.queueReport .opState }

/-- The state becomes HOLD with a cause: every non-idle slot is ended with cause HOLD (R141) and a STATE EVENT is
queued; the survey timer and the wake end. -/
def State.enterHold (cause : StateCause) (s : State) : State :=
  let w := ((Work.of s.field).endAll .hold).1
  { s with
    field := w.fld
    osc := { s.osc with opState := .hold, wake := none, surveyEnds := none, cause := cause } }.stateEvent

/-- Step 4 of the field-safe onset actions (R159): OPERATE becomes HOLD, and in WAKING a requested OPERATE becomes HOLD. -/
def Osc.safeState (o : Osc) : Osc :=
  match o.opState with
  | .operate => { o with opState := .hold }
  | .waking => { o with wake := o.wake.map (fun k => { k with requested := .hold }) }
  | .survey | .hold | .night => o

/-- The OSC's part of a field-safe onset: the condition, where the onset takes it (R158), and step 4 of R159. What changes
carries the state cause SAFE (R144, R161). -/
def Osc.onset (takes : Bool) (o : Osc) : Osc :=
  let o1 := { o with fieldSafe := o.fieldSafe || takes }.safeState
  if o1 = o then o else { o1 with cause := .safe }

/-- The field-safe onset actions in the order of R159: the slots, the entries and the owed motions; the operating state with
its STATE EVENT, where the OSC's part changes; then the FAU's tests and the trip record. -/
def State.safeOnset (takes : Bool) (s : State) : State :=
  let o := s.osc.onset takes
  { s.change (fun w => if o = s.osc then w.safeActions s.env else (w.safeActions s.env).report .opState) with osc := o }

/-- The part is past its reset and the loading of its tables (R146). -/
def State.isRunning (s : State) : Bool := s.phase == .running

/-- Moves the clock on to a time that an event says has come; the clock never runs back (log entry 4). -/
def State.advanceTo (s : State) (t : Nat) : State := { s with now := max s.now t }

/-! ### Taking an order (R170, R171) -/

/-- The conditions of R170 beside a buffered frame: the tables are loaded, no answer waits, and the transmitter is not
sending the answer of the previously taken order. The frame of a deferred PASS answer holds no taking back, though its PASS may be
the order taken last, a point R170 leaves open (log entry 45). -/
def State.mayTake (s : State) : Bool :=
  s.isRunning && s.ulp.waiting.isNone
    && (match s.ulp.tx with | some ⟨.answer _, _⟩ => false | _ => true)

/-- Takes a frame from the receive buffer (R171). -/
def State.popFrame (s : State) : State := { s with ulp := { s.ulp with rxBuf := s.ulp.rxBuf.tail } }

/-- Forms the waiting answer (R172). -/
def State.answer (tag kind : Byte) (r : Reply) (s : State) : State :=
  { s with ulp := { s.ulp with waiting := some ⟨answerBody tag kind r, false⟩ } }

/-- May the order command `i` be taken now: is its frame the oldest buffered one, and may a frame be taken (R170)? -/
def State.takes (s : State) (i : Instr) : Bool :=
  s.mayTake && decide (s.ulp.rxBuf.head? = orderBody i) && !s.ulp.rxBuf.isEmpty

/-- The taking of order `i` as one change (R171): its frame leaves the buffer, the owner's rule `run` gives the reply and
the new state, and the answer is formed. An order that may not be taken now changes nothing (log entry 5). -/
def State.order (s : State) (i : Instr) (tag kind : Byte) (run : State → Reply × State) : State :=
  if s.takes i then
    let p := run s.popFrame
    p.2.answer tag kind p.1
  else s

end Sys2Proof.Machine
end

