-- ==== Sys2Proof/Machine/Exchange.lean ====
section
/-! DEFINITION. The Segment Exchange Engines: the choice of the next exchange, the requests, the results of every answer and
silence, and the meanings of the segment-line and slew-timer commands (chapter 3). -/

namespace Sys2Proof.Machine

/-! ### Choosing the next exchange (R60 to R64) -/

/-- What an SXE has chosen (R61, R64). -/
inductive Choice where
  | owed (h : Nat)
  | pass (p : PassReq)
  | resend (h : Nat)
  | head (e : Entry)
  | settle (h : Nat)
  | poll (h : Nat)
  deriving DecidableEq, Repr

/-- A segment's heliostats in the order of a search from a pointer, wrapping from 4095 to 0 (R62, R63). -/
def searchFrom (pointer : Nat) (hs : List Nat) : List Nat :=
  hs.filter (fun h => pointer ≤ h) ++ hs.filter (fun h => h < pointer)

/-- The heliostats a choice may concern: the present ones of the segment whose in flight field is no (R60). -/
def Field.choosable (env : Env) (seg : Nat) (f : Field) : List Nat :=
  (env.live.onSegment seg).filter (fun h => !(f.run h).inFlight)

/-- The age order of last exchange times: an absent time is older than every present one (R2). -/
def HelioRun.since (r : HelioRun) : Nat := match r.lastExchange with
  | none => 0
  | some t => t + 1

/-- The heliostat whose last exchange is oldest, the lower index among equals (R61). -/
def Field.oldest (f : Field) : List Nat → Option Nat
  | [] => none
  | h :: t =>
    match Field.oldest f t with
    | none => some h
    | some g => if (f.run g).since < (f.run h).since then some g else some h

/-- Is the last exchange `ms` old or more? An absent time is not. -/
def HelioRun.heardBefore (r : HelioRun) (now ms : Nat) : Bool := match r.lastExchange with
  | none => false
  | some t => decide (t + ms ≤ now)

/-- An owed motion that the owed-motion scan may choose: not of a heliostat LOST with a silent count of 3 (R62). -/
def HelioRun.servable (r : HelioRun) : Bool := r.owed.isSome && !(r.state == .lost && r.silentCount == 3)

/-- A heliostat awaits a re-send while it is SLEWING with accepted no, queued no, in flight no and no owed motion (R71). -/
def HelioRun.awaitsResend (r : HelioRun) : Bool :=
  r.state == .slewing && !r.accepted && !r.queued && !r.inFlight && r.owed.isNone

/-- The heliostats the settle polls reach: accepted SLEWING, RETURNING, LOST or UNSURE (R63). -/
def HelioRun.unsettled (r : HelioRun) : Bool :=
  (r.state == .slewing && r.accepted) || r.state == .returning || r.state == .lost || r.state == .unsure

/-- The owed motion of a load holder, by the owed-motion scan (R62). -/
def Field.owedHolder (f : Field) (scan : Nat) (hs : List Nat) : Option Choice :=
  ((searchFrom scan hs).find? (fun h => (f.run h).holdsLoad && (f.run h).servable)).map .owed

/-- The owed motion of a heliostat that holds no load, by the same scan (R62). -/
def Field.owedOther (f : Field) (scan : Nat) (hs : List Nat) : Option Choice :=
  ((searchFrom scan hs).find? (fun h => !(f.run h).holdsLoad && (f.run h).servable)).map .owed

/-- A settle poll, by the settle pointer (R63). -/
def Field.settlePoll (f : Field) (pointer : Nat) (hs : List Nat) : Option Choice :=
  ((searchFrom pointer hs).find? (fun h => (f.run h).unsettled)).map .settle

/-- A re-send by the owed-motion scan, else the head of the Move Queue (R61 level 5). -/
def Field.aimChoice (f : Field) (x : Sxe) (hs : List Nat) : Option Choice :=
  (((searchFrom x.scan hs).find? (fun h => (f.run h).awaitsResend)).map Choice.resend).orElse
    (fun _ => match x.queue with
      | e :: _ => if (f.run e.helio).inFlight then none else some (.head e)
      | [] => none)

/-- The choice outside NIGHT: the first level of R61 that offers an exchange. -/
def Field.chooseDay (env : Env) (seg : Nat) (f : Field) : Option Choice :=
  let x := f.sxeAt seg
  let hs := f.choosable env seg
  (f.owedHolder x.scan hs).orElse fun _ =>
  ((f.oldest (hs.filter (fun h => (f.run h).heardBefore env.now Config.watchMs))).map Choice.poll).orElse fun _ =>
  (f.owedOther x.scan hs).orElse fun _ =>
  (x.passSlot.map Choice.pass).orElse fun _ =>
  (f.aimChoice x hs).orElse fun _ =>
  (f.settlePoll x.settle hs).orElse fun _ =>
  (f.oldest hs).map Choice.poll

/-- Has the night spacing after the segment's last exchange run out (R64)? -/
def Sxe.spaced (x : Sxe) (now : Nat) : Bool := match x.lastEnd with
  | none => true
  | some t => decide (t + Config.nightSpacingMs ≤ now)

/-- The choice in NIGHT: the first level of R64 that offers an exchange; a night poll (level 5) only where `poll` allows
one, and once the spacing has run out. -/
def Field.chooseNight (env : Env) (seg : Nat) (poll : Bool) (f : Field) : Option Choice :=
  let x := f.sxeAt seg
  let hs := f.choosable env seg
  let due := hs.filter (fun h => (f.run h).lastExchange.isNone || (f.run h).heardBefore env.now Config.nightPollMs)
  (f.owedHolder x.scan hs).orElse fun _ =>
  (f.owedOther x.scan hs).orElse fun _ =>
  (x.passSlot.map Choice.pass).orElse fun _ =>
  (f.settlePoll x.settle hs).orElse fun _ =>
  if poll && x.spaced env.now then (f.oldest due).map Choice.poll else none

/-! ### Requests (R65 to R67, R83) -/

/-- The MOVE request of a granted aim (R65). -/
def Env.moveAimRequest (env : Env) (h a : Nat) : List Byte :=
  let c := env.live.helioAt h
  let p := env.live.aimAt a
  segmentFrame c.address 0x01#8 (moveParams p.x p.y p.z c.offsetEl c.offsetAz true a)

/-- The destination an owed motion's request gives (R66): STANDBY for a DEFOCUS whose standby record is present. -/
def Env.owedDest (env : Env) (h : Nat) (m : Motion) : Dest :=
  if m = .defocus ∧ (env.live.standbyAt (env.live.helioAt h).standby).present then .standby else .stow

/-- The request of an owed motion (R66): MOVE-STANDBY for destination STANDBY, STOW for destination STOW. -/
def Env.owedRequest (env : Env) (h : Nat) (dest : Dest) : List Byte :=
  let c := env.live.helioAt h
  let p := env.live.standbyAt c.standby
  match dest with
  | .standby => segmentFrame c.address 0x01#8 (moveParams p.x p.y p.z c.offsetEl c.offsetAz false c.standby)
  | .stow => segmentFrame c.address 0x02#8 []

/-- The QUERY request (R67). -/
def Env.queryRequest (env : Env) (h : Nat) : List Byte := segmentFrame (env.live.helioAt h).address 0x03#8 []

/-- The request of a PASS: the maintenance kind as the kind, the rest of the body as the parameters (R83). -/
def Env.passRequest (env : Env) (p : PassReq) : List Byte :=
  segmentFrame (env.live.helioAt p.helio).address (p.body.headD 0#8) p.body.tail

/-- The pointer value after heliostat `h` (R62, R63). -/
def nextPointer (h : Nat) : Nat := (h + 1) % Config.heliostats

/-- Puts heliostat `h` in flight on a segment with an exchange; the SXE is `x` otherwise. -/
def Field.launch (env : Env) (seg h : Nat) (kind : ExKind) (request : List Byte) (x : Sxe) (f : Field) : Field :=
  let r := f.run h
  (f.setRun h { r with inFlight := true, queued := r.queued && !(match kind with | .moveAim _ => true | _ => false) }).setSxe seg
    { x with exchange := some ⟨h, (env.live.helioAt h).address, kind, request, false, .sending⟩ }

/-- Begins the chosen exchange (R56, R60): the request is built and its sending starts. A queue head leaves the Move
Queue, which frees space in it (R58, R117). -/
def Field.begin (env : Env) (seg : Nat) (c : Choice) (f : Field) : Field :=
  let x := f.sxeAt seg
  match c with
  | .owed h =>
    match (f.run h).owed with
    | some o =>
      let dest := env.owedDest h o.motion
      f.launch env seg h (.owedMotion dest o.cause) (env.owedRequest h dest) { x with scan := nextPointer h }
    | none => f
  | .pass p => f.launch env seg p.helio .pass (env.passRequest p) x
  | .resend h =>
    let r := f.run h
    f.launch env seg h (.moveAim r.origin) (env.moveAimRequest h (orZero r.granted)) { x with scan := nextPointer h }
  | .head e =>
    f.launch env seg e.helio (.moveAim (some e.origin)) (env.moveAimRequest e.helio (orZero (f.run e.helio).granted))
      { x with queue := x.queue.tail, spaceFreed := true }
  | .settle h => f.launch env seg h .query (env.queryRequest h) { x with settle := nextPointer h }
  | .poll h => f.launch env seg h .query (env.queryRequest h) x

/-- An SXE with no exchange in flight makes its choice (R60); `poll` allows a night poll. -/
def Field.choose (env : Env) (poll : Bool) (f : Field) (seg : Nat) : Field :=
  if (f.sxeAt seg).exchange.isSome then f
  else
    match (if env.opState = .night then f.chooseNight env seg poll else f.chooseDay env seg) with
    | some c => f.begin env seg c
    | none => f

/-- The SXEs with no exchange in flight take the work that has arrived (R60). A night poll is not work that a change
brings: NIGHT_SPACING_EXPIRY and NIGHT_POLL_DUE begin those (log entry 29). -/
def State.kick (s : State) : State :=
  { s with field := (List.range Config.segments).foldl (Field.choose s.env false) s.field }

/-! ### The result of an exchange on a record -/

/-- The outcome of an exchange as it is worked out: the record, whether its Move Queue entry leaves the queue, whether an
entry goes back at the tail (R69), the aim of a revocation and whether the drive refused the move by REJECT or BUSY (R120),
whether a rejected retry has entered accounted LOST afresh, which is an onset though the state is LOST before and after
(R100, log entry 32), and whether an adoption places the heliostat at the newest end of the Grant List (R43). -/
structure Edit where
  r : HelioRun
  drop : Bool
  requeue : Bool
  revoked : Option (Nat × Bool)
  onset : Bool
  newest : Bool
  deriving DecidableEq, Repr

/-- An outcome that has changed nothing yet. -/
def Edit.of (r : HelioRun) : Edit := ⟨r, false, false, none, false, false⟩

/-- Changes the record for a cause, with the fields of R6 tidied and the nothing-remains test of R11 applied. -/
def Edit.set (cause : Option Cause) (new : HelioRun) (e : Edit) : Edit := { e with r := e.r.by cause new.tidy.nothingRemains }

/-- Revokes the record's grant with a cause (R37, R38): REJECT and BUSY are the drive's refusals of the move, any other a
withdrawal (R120). The busy count becomes 0, where a poll's answer brings the revocation too (R69, log entry 48). -/
def Edit.revoke (cause : Cause) (e : Edit) : Edit :=
  let new := ({ e.r with queued := false }).revoked.nothingRemains
  { e with
    r := e.r.by (some cause) new, drop := e.drop || e.r.queued
    revoked := e.r.granted.map (fun a => (a, cause == .reject || cause == .busy)) }

/-- Owes the record a motion (R11); `report` is the cause its HELIO EVENT carries. A Move Queue entry is withdrawn in the
same change, its grant revoked with the owed cause, a withdrawal whatever that cause (R120), and the nothing-remains test
applied to the result (R12). -/
def Edit.owe (motion : Motion) (cause report : Cause) (e : Edit) : Edit :=
  if e.r.queued then
    let new := (({ e.r with queued := false }.revoked).setOwed motion cause).nothingRemains
    { e with r := e.r.by (some report) new, drop := true, revoked := e.r.granted.map (fun a => (a, false)) }
  else e.set (some report) (e.r.setOwed motion cause)

/-- The record at rest with every held aim released (R40, R41, R77, R79). -/
def HelioRun.atRest (place : Rest) (r : HelioRun) : HelioRun :=
  { r with granted := none, leaving := none, state := (match place with | .standby => .standby | .stowed => .stowed) }

/-- The owed motion is cleared; a change of the field zeroes the busy count (R69), a change that a poll brings too (log entry 48). -/
def HelioRun.clearOwed (r : HelioRun) : HelioRun :=
  { r with owed := none, busyCount := if r.owed.isSome then 0 else r.busyCount }

/-- The record of a heliostat that goes accounted LOST (R57, R74): the granted aim is kept, the leaving aim released, the
owed motion cleared. -/
def HelioRun.goLost (r : HelioRun) : HelioRun := { r.clearOwed with state := .lost, leaving := none, unaccounted := false }

/-- The owed cause of the DEFOCUS that follows an adoption in the same change: the first of field-safe, a CRITICAL zone
covered, the fault cause, NIGHT (R155). -/
def Env.adoptionCause (env : Env) (f : Field) (a : Nat) (r : HelioRun) : Option Cause :=
  if env.fieldSafe then some .safe
  else if (env.footprint a).any (fun p => (f.zoneAt p.1).critical) then some .critical
  else match r.fault with
    | some c => some c.cause
    | none => if env.opState = .night then some .adopted else none

/-- Adoption onto aim point `a` (R43), newest on the Grant List, with the owed DEFOCUS of R155, one change with cause ADOPTED. -/
def Edit.adopt (env : Env) (f : Field) (a : Nat) (e : Edit) : Edit :=
  let new := { e.r with granted := some a, leaving := none, state := .tracking, unaccounted := false }
  let owed := match env.adoptionCause f a e.r with
    | some c => new.setOwed .defocus c
    | none => new
  { e.set (some .adopted) owed with newest := true }

/-- The owed cause taken from the fault cause when one is present, and `other` when not (R79, R80). -/
def HelioRun.faultOr (other : Cause) (r : HelioRun) : Cause := (r.fault.map FaultCause.cause).getD other

/-- ON_AIM found on a heliostat that the part did not expect on an aim (R80): adopted, or LOST unaccounted owed DEFOCUS
where the aim point is absent. -/
def Edit.foundOnAim (env : Env) (f : Field) (a : Nat) (e : Edit) : Edit :=
  if (env.live.aimAt a).present then e.adopt env f a
  else
    e.set (some .survey)
      ({ e.r with state := .lost, unaccounted := true, granted := none, leaving := none }.setOwed .defocus (e.r.faultOr .survey))

/-- The position class for UNSURE, STANDBY, STOWED, SILENT and FAULTED (R80). -/
def Edit.positionAtRest (env : Env) (f : Field) (p : Position) (e : Edit) : Edit :=
  match e.r.state with
  | .silent => e.set (some .recovered) { e.r with state := .unsure }
  | .faulted =>
    match p with
    | .onAim a => if (env.live.aimAt a).present then e.adopt env f a else e
    | .moving _ _ _ | .clear | .atStandby | .stowed => e
  | .unsure =>
    match p with
    | .onAim a => e.foundOnAim env f a
    | .moving _ _ _ | .clear => e
    | .atStandby => e.set (some .survey) (e.r.atRest .standby)
    | .stowed => e.set (some .survey) (e.r.atRest .stowed)
  | .standby | .stowed =>
    match p with
    | .onAim a => e.foundOnAim env f a
    | .moving _ _ _ | .clear => e.set (some .survey) { e.r with state := .unsure }
    | .atStandby => e.set (some .survey) (e.r.atRest .standby)
    | .stowed => e.set (some .survey) (e.r.atRest .stowed)
  | .absent | .slewing | .tracking | .returning | .lost => e

/-- Is the move under way the one to aim point `a`, on-receiver (R77, R78)? -/
def Position.movingTo (p : Position) (a : Option Nat) : Bool := match p with
  | .moving onReceiver toStow id => onReceiver && !toStow && a == some id
  | .onAim _ | .clear | .atStandby | .stowed => false

/-- The arrival of a SLEWING heliostat on its granted aim: TRACKING, the leaving aim released, the timer stopped, cause
the motion cause (R41, R77). -/
def Edit.arriveOnAim (e : Edit) : Edit := e.set e.r.motionCause { e.r with state := .tracking, leaving := none }

/-- The position class for SLEWING with accepted yes (R77). -/
def Edit.positionSlewing (p : Position) (e : Edit) : Edit :=
  match p with
  | .onAim a =>
    if e.r.granted = some a then e.arriveOnAim
    else if e.r.leaving = some a then e
    else e.owe .defocus .driveLeft .driveLeft
  | .moving _ _ _ => if p.movingTo e.r.granted then e else e.owe .defocus .driveLeft .driveLeft
  | .clear => e.set e.r.motionCause { e.r with leaving := none }
  | .atStandby => e.set (some .driveLeft) (e.r.atRest .standby)
  | .stowed => e.set (some .driveLeft) (e.r.atRest .stowed)

/-- The position class for TRACKING (R77). -/
def Edit.positionTracking (p : Position) (e : Edit) : Edit :=
  match p with
  | .onAim a => if e.r.granted = some a then e else e.owe .defocus .driveLeft .driveLeft
  | .moving _ _ _ => if p.movingTo e.r.granted then e else e.owe .defocus .driveLeft .driveLeft
  | .clear | .atStandby => e.set (some .driveLeft) (e.r.atRest .standby)
  | .stowed => e.set (some .driveLeft) (e.r.atRest .stowed)

/-- The slew timer's end for a timer started now (R81). -/
def Env.slewEnd (env : Env) : Nat := env.now + 1000 * env.live.slewLimit

/-- The move of the current grant is under way: accepted becomes yes, a queued entry leaves the queue without
revocation, and the slew timer starts (R68, R78). The busy count becomes 0 as at each acceptance, where a poll shows it too: R69 also
has answers to polls leave the count (log entry 48). -/
def Edit.takeUp (env : Env) (e : Edit) : Edit :=
  { e with
    r := { e.r with accepted := true, queued := false, busyCount := 0, slewEnds := some env.slewEnd }
    drop := e.drop || e.r.queued }

/-- The drive stands where an unaccepted grant did not expect (R78): a queued entry is withdrawn, cause DRIVE LEFT, and
the position applied to the resulting record under R77 or R80; otherwise the heliostat is owed DEFOCUS. -/
def Edit.unexpected (env : Env) (f : Field) (p : Position) (e : Edit) : Edit :=
  if e.r.queued then
    let e1 := e.revoke .driveLeft
    if e1.r.state = .tracking then e1.positionTracking p else e1.positionAtRest env f p
  else e.owe .defocus .driveLeft .driveLeft

/-- The position class for SLEWING with accepted no (R78). A grant made from rest is one that is no re-aim, whether or not a
re-aim's leaving aim has been released by a CLEAR answer (log entry 15). -/
def Edit.positionUnaccepted (env : Env) (f : Field) (p : Position) (e : Edit) : Edit :=
  match p with
  | .moving _ _ _ => if p.movingTo e.r.granted then e.takeUp env else e.unexpected env f p
  | .onAim a =>
    if e.r.granted = some a then (e.takeUp env).arriveOnAim
    else if e.r.leaving = some a then e
    else e.unexpected env f p
  | .clear => e.set e.r.motionCause { e.r with leaving := none }
  | .atStandby => if e.r.reAim = false ∧ e.r.rest = .standby then e else e.unexpected env f p
  | .stowed => if e.r.reAim = false ∧ e.r.rest = .stowed then e else e.unexpected env f p

/-- The position class for RETURNING (R79). -/
def Edit.positionReturning (env : Env) (f : Field) (p : Position) (e : Edit) : Edit :=
  match p with
  | .onAim a => if e.r.released then e.foundOnAim env f a else e
  | .moving _ _ _ => e
  | .clear => if e.r.released then e else e.set e.r.motionCause { e.r with granted := none, leaving := none, released := true }
  | .atStandby => e.set e.r.motionCause (e.r.atRest .standby)
  | .stowed => e.set e.r.motionCause (e.r.atRest .stowed)

/-- The position class for LOST (R79). -/
def Edit.positionLost (env : Env) (f : Field) (p : Position) (e : Edit) : Edit :=
  match p with
  | .onAim a =>
    if e.r.unaccounted ∧ (env.live.aimAt a).present then e.adopt env f a
    else e.owe .defocus (e.r.faultOr .silence) (e.r.faultOr .silence)
  | .moving _ _ _ => e
  | .clear => e.set (some .recovered) { e.r with granted := none, leaving := none, state := .unsure }
  | .atStandby => e.set (some .recovered) (e.r.atRest .standby)
  | .stowed => e.set (some .recovered) (e.r.atRest .stowed)

/-- The position class by the heliostat's state (R77 to R80). -/
def Edit.positionByState (env : Env) (f : Field) (p : Position) (e : Edit) : Edit :=
  match e.r.state with
  | .slewing => if e.r.accepted then e.positionSlewing p else e.positionUnaccepted env f p
  | .tracking => e.positionTracking p
  | .returning => e.positionReturning env f p
  | .lost => e.positionLost env f p
  | .unsure | .standby | .stowed | .silent | .faulted => e.positionAtRest env f p
  | .absent => e

/-- A heliostat that has come to rest from the record `before` with a fault cause present becomes FAULTED instead (R76). -/
def Edit.faultAtRest (before : HelioRun) (e : Edit) : Edit :=
  if (e.r.state = .standby ∨ e.r.state = .stowed) ∧ e.r.state ≠ before.state ∧ e.r.fault.isSome then
    { e with r := { e.r.clearOwed with state := .faulted, rest := before.rest } }
  else e

/-- The second step of R76. -/
def Edit.position (env : Env) (f : Field) (p : Position) (e : Edit) : Edit := (e.positionByState env f p).faultAtRest e.r

/-- LOCAL follows the status (R8): set with cause LOCAL, cleared with cause RECOVERED. -/
def Edit.noteLocal (b : Bool) (e : Edit) : Edit :=
  if e.r.localControl = b then e else e.set (some (if b then .localControl else .recovered)) { e.r with localControl := b }

/-- A reported failure becomes the fault cause where none is present (R2). -/
def Edit.noteFault (reported : Bool) (fault : FaultCause) (e : Edit) : Edit :=
  if reported && e.r.fault.isNone then e.set (some fault.cause) { e.r with fault := some fault } else e

/-- The first step of R76: the LOCAL flag (R8) and the fault cause, FAULT before LOCAL. -/
def Edit.statusFlags (st : Status) (e : Edit) : Edit :=
  ((e.noteLocal st.localControl).noteFault st.fault (.driveFault (some st.code))).noteFault st.localControl .localControl

/-- A fault reported now (R70, R76): a load holder is owed DEFOCUS with the cause, any other heliostat that is not FAULTED
becomes FAULTED with its owed motion cleared and its destination removed. A queued grant made from rest that the owed motion
withdraws (R12) holds no load afterwards and becomes FAULTED too, for a heliostat whose LOCAL stays set is FAULTED or on its
way there (R8, log entry 34). -/
def Edit.failNow (cause report : Cause) (e : Edit) : Edit :=
  let e1 := if e.r.holdsLoad then e.owe .defocus cause report else e
  if e1.r.holdsLoad ∨ e1.r.state = .faulted then e1
  else e1.set (some report) { e1.r.clearOwed with state := .faulted }

/-- The third step of R76: FAULT, and otherwise LOCAL, fails the heliostat. -/
def Edit.failBy (st : Status) (e : Edit) : Edit :=
  if st.fault then e.failNow .driveFault .driveFault
  else if st.localControl then e.failNow .localControl .localControl
  else e

/-- The third step of R76, with the effect of LIMIT on a heliostat SLEWING or TRACKING, which the third step can only leave
so or make FAULTED. -/
def Edit.statusConsequences (st : Status) (e : Edit) : Edit :=
  let e1 := e.failBy st
  if st.limit && (e1.r.state == .slewing || e1.r.state == .tracking) then e1.owe .defocus .reject .reject else e1

/-- Applies a status (R76): flags, position, consequences. -/
def Edit.status (env : Env) (f : Field) (st : Status) (e : Edit) : Edit :=
  ((e.statusFlags st).position env f st.position).statusConsequences st

/-! ### Results of a MOVE-AIM (R68 to R70) -/

/-- BUSY to a MOVE-AIM (R69): the status first, then the BUSY tolerance. -/
def Edit.busyMoveAim (env : Env) (f : Field) (seg : Nat) (st : Status) (e : Edit) : Edit :=
  let e1 := e.status env f st
  if e1.r.state = .slewing ∧ e1.r.accepted = false ∧ e1.r.owed = none then
    if e1.r.busyCount = 0 ∧ (f.sxeAt seg).queue.length < Config.moveQueue then
      { e1 with r := { e1.r with busyCount := 1, queued := true }, requeue := true }
    else e1.revoke .busy
  else e1

/-- A REJECT with a reason that is a failure (R70): the fault cause where none is present, and LOCAL where that is it. -/
def Edit.rejectFault (fault : FaultCause) (local_ : Bool) (e : Edit) : Edit :=
  e.set (some .reject)
    { e.r with localControl := e.r.localControl || local_, fault := e.r.fault.orElse (fun _ => some fault) }

/-- REJECT to a MOVE-AIM (R70): the grant is revoked with cause REJECT, then the reason is applied. -/
def Edit.rejectMoveAim (reason : RejectReason) (e : Edit) : Edit :=
  let e1 := if e.r.state = .slewing then e.revoke .reject else e
  match reason with
  | .limit => e1
  | .fault => (e1.rejectFault (.driveFault none) false).failNow .driveFault .reject
  | .localControl => (e1.rejectFault .localControl true).failNow .localControl .reject

/-! ### Results of an owed-motion exchange (R72 to R74) -/

/-- ACCEPT to an owed motion (R72): RETURNING to the fixed destination, the leaving aim released (R41). The HELIO EVENT
carries the motion cause held before where a motion was under way (R18, R41), and else the new one (R72, log entry 11). -/
def Edit.acceptOwed (dest : Dest) (cause : Cause) (e : Edit) : Edit :=
  e.set (some (e.r.motionCause.getD cause))
    { e.r with
      state := .returning, destination := some dest, motionCause := some cause, busyCount := 0
      released := !e.r.holdsLoad, leaving := none, unaccounted := false }

/-- The record with the failure of a refused owed motion noted (R74). -/
def HelioRun.refused (fault : FaultCause) (local_ : Bool) (r : HelioRun) : HelioRun :=
  { r with fault := r.fault.orElse (fun _ => some fault), busyCount := 0, localControl := r.localControl || local_ }

/-- REJECT to an owed motion, or the third BUSY (R74): a load holder becomes accounted LOST, any other heliostat FAULTED. -/
def Edit.refuseOwed (fault : FaultCause) (local_ : Bool) (report : Cause) (e : Edit) : Edit :=
  if e.r.holdsLoad then { e.set (some report) (e.r.refused fault local_).goLost with onset := true }
  else e.set (some report) { (e.r.refused fault local_).clearOwed with state := .faulted }

/-- BUSY to an owed motion (R73): the status first, then, if a motion is still owed, one more BUSY counted. -/
def Edit.busyOwed (env : Env) (f : Field) (st : Status) (e : Edit) : Edit :=
  let e1 := e.status env f st
  if e1.r.owed.isSome then
    if e1.r.busyCount + 1 < 3 then { e1 with r := { e1.r with busyCount := e1.r.busyCount + 1 } }
    else e1.refuseOwed .busy false .busy
  else e1

/-- REJECT to an owed motion (R74). -/
def Edit.rejectOwed (reason : RejectReason) (e : Edit) : Edit :=
  match reason with
  | .limit => e.refuseOwed .reject false .reject
  | .fault => e.refuseOwed (.driveFault none) false .reject
  | .localControl => e.refuseOwed .localControl true .reject

/-- The result of a good answer (R56, R57): the silent count becomes 0 and the answer is applied. -/
def Edit.answer (env : Env) (f : Field) (seg : Nat) (kind : ExKind) (a : Answer) (e : Edit) : Edit :=
  let e0 := { e with r := { e.r with silentCount := 0 } }
  match kind, a with
  | .moveAim _, .accept => if e0.r.state = .slewing then e0.takeUp env else e0
  | .moveAim _, .busy st => e0.busyMoveAim env f seg st
  | .moveAim _, .reject reason => e0.rejectMoveAim reason
  | .owedMotion dest cause, .accept => e0.acceptOwed dest cause
  | .owedMotion _ _, .busy st => e0.busyOwed env f st
  | .owedMotion _ _, .reject reason => e0.rejectOwed reason
  | .query, .status st => e0.status env f st
  | .query, .accept | .query, .busy _ | .query, .reject _ => e0
  | .moveAim _, .status _ | .owedMotion _ _, .status _ => e0
  | .pass, _ => e0

/-! ### Silence (R57, R71, R75) -/

/-- The silence consequence on a record with no Move Queue entry (R57). -/
def Edit.silenceUnqueued (env : Env) (e : Edit) : Edit :=
  match e.r.state with
  | .unsure =>
    if env.opState = .survey then e.set (some .silence) { e.r.clearOwed with state := .lost, unaccounted := true }
    else e.set (some .silence) { e.r.clearOwed with state := .silent }
  | .standby | .stowed => e.set (some .silence) { e.r.clearOwed with state := .silent }
  | .returning =>
    if e.r.released then e.set (some .silence) { e.r.clearOwed with state := .silent }
    else e.set (some .silence) e.r.goLost
  | .slewing | .tracking => e.set (some .silence) e.r.goLost
  | .lost | .silent | .faulted | .absent => e

/-- The silence consequence (R57): a queued entry is withdrawn first, and the resulting record treated. -/
def Edit.silence (env : Env) (e : Edit) : Edit :=
  (if e.r.state = .slewing ∧ e.r.queued = true then e.revoke .silence else e).silenceUnqueued env

/-- The result of a silent exchange (R57): the silent count rises to at most 3, and at the third the consequence applies. -/
def Edit.silent (env : Env) (e : Edit) : Edit :=
  let e1 := { e with r := { e.r with silentCount := min 3 (e.r.silentCount + 1) } }
  if e.r.silentCount = 2 then e1.silence env else e1

/-! ### The survey (R148, R149) -/

/-- Is any present heliostat UNSURE? -/
def State.anyUnsure (s : State) : Bool := s.live.present.any (fun p => (s.field.run p.1).state == .unsure)

/-- The survey ends with no UNSURE heliostat left: HOLD, cause SURVEY DONE, the timer stopped (R149). -/
def State.surveyDone (s : State) : State := s.enterHold .surveyDone

/-- What the survey takes an exchange to have found (R148). -/
inductive Finding where
  | adopted
  | atRest
  | leftLost
  deriving DecidableEq, Repr

/-- The finding of a good answer, by its line of R148's table; CLEAR, MOVING and an answer without a status find nothing. -/
def Answer.finding (env : Env) : Answer → Option Finding
  | .status st | .busy st =>
    match st.position with
    | .onAim a => some (if (env.live.aimAt a).present then .adopted else .leftLost)
    | .atStandby | .stowed => some .atRest
    | .moving _ _ _ | .clear => none
  | .accept | .reject _ => none

/-- Counts heliostat `h` for the survey, once, under what its exchange found (R148). -/
def Osc.countSurvey (h : Nat) (found : Option Finding) (o : Osc) : Osc :=
  if h ∈ o.counted then o
  else match found with
    | some .adopted => { o with adopted := o.adopted + 1, counted := h :: o.counted }
    | some .atRest => { o with atRest := o.atRest + 1, counted := h :: o.counted }
    | some .leftLost => { o with leftLost := o.leftLost + 1, counted := h :: o.counted }
    | none => o

/-- What an exchange that takes heliostat `h` out of UNSURE means to a survey under way (R148, R149): it is counted by the
line of R148's table that the answer meets, whatever else the same answer makes of the record (log entry 17). -/
def State.surveyStep (h : Nat) (before : HelioRun) (found : Option Finding) (s : State) : State :=
  let after := (s.field.run h).state
  if s.osc.opState = .survey ∧ before.state = .unsure ∧ after ≠ .unsure then
    let s1 := { s with osc := s.osc.countSurvey h found }
    if s1.anyUnsure then s1 else s1.surveyDone
  else s

/-! ### The end of an exchange (R56) -/

/-- The settle sets follow a revocation that an exchange made (R120). -/
def Work.followRevoked (h : Nat) (revoked : Option (Nat × Bool)) (w : Work) : Work :=
  match revoked with
  | some (a, refused) => w.follow h (some a) refused
  | none => w

/-- Applies the outcome of heliostat `h`'s exchange (R56): the Move Queue, the record with its accounts, the Grant List's
newest end at an adoption, the settle sets that follow a revocation. -/
def Work.applyEdit (env : Env) (h : Nat) (e : Edit) (origin : Origin) (w : Work) : Work :=
  let w0 := (if e.drop then w.dropEntry env h else w).write env h e.r
  let w1 := if e.newest then w0.toNewest h else w0
  let w2 := if e.requeue then w1.enqueue env ⟨h, orZero e.r.granted, origin⟩ else w1
  let w3 := w2.followRevoked h e.revoked
  { w3 with onset := w3.onset || e.onset }

/-- Writes the outcome of heliostat `h`'s exchange as one change (R56): the outcome; then the FAU's tests; then the HELIO
EVENT; then the trip record. -/
def Work.conclude (env : Env) (h : Nat) (e : Edit) (origin : Origin) (w : Work) : Work :=
  let w1 := (w.applyEdit env h e origin).settleNow env
  (if (w.fld.run h).differs e.r then w1.report (.helio h) else w1).evalTrip env

/-- The SXE of a segment with its exchange ended now (R56, R64). -/
def Sxe.ended (now : Nat) (x : Sxe) : Sxe := { x with exchange := none, lastEnd := some now }

/-- The origin an exchange's grant goes back to the queue with (R69). Every grant records its origin (log entry 16). -/
def ExKind.origin : ExKind → Origin
  | .moveAim (some o) => o
  | .moveAim none | .owedMotion _ _ | .query | .pass => .order 0#8

/-- Ends exchange `x` of a segment with the outcome `edit` (R56): in flight becomes no, the last exchange time is now, the
outcome is written, the survey takes note, and the SXE makes its next choice. -/
def State.endExchange (seg : Nat) (x : Exchange) (found : Option Finding) (edit : Env → Field → Edit → Edit) (s : State) : State :=
  let f0 := s.field.setSxe seg ((s.field.sxeAt seg).ended s.now)
  let r0 := f0.run x.helio
  let e := edit s.env f0 (Edit.of { r0 with inFlight := false, lastExchange := some s.now })
  let s1 := { s with field := ((Work.of f0).conclude s.env x.helio e x.kind.origin).fld }
  let s2 := s1.surveyStep x.helio r0 found
  { s2 with field := s2.field.choose s2.env true seg }.kick

/-- The body of a PASS answer (10.4): the heliostat, and the reply's kind and parameters where there is one. -/
def passAnswer (p : PassReq) (reply : Option SegFrame) : List Byte :=
  answerBody p.tag 0x0A#8
    ⟨.done, be16 p.helio ++ (match reply with
      | some fr => 1#8 :: fr.kind :: fr.params
      | none => [0#8])⟩

/-- Ends the relay of a PASS (R21, R83, R173): the PASS slot is emptied, in flight becomes no, the record is otherwise
unchanged, and the deferred answer slot holds the ready answer. -/
def State.endPass (seg : Nat) (x : Exchange) (reply : Option SegFrame) (s : State) : State :=
  let y := s.field.sxeAt seg
  let f1 := s.field.setSxe seg { y.ended s.now with passSlot := none }
  let f2 := f1.setRun x.helio { f1.run x.helio with inFlight := false }
  let u := match y.passSlot with
    | some p => { s.ulp.setDeferred seg (.ready (passAnswer p reply)) with readyOrder := s.ulp.readyOrder ++ [seg] }
    | none => s.ulp
  { s with field := f2.choose s.env true seg, ulp := u }.kick

/-- A missing or corrupt answer (R56): one repeat of the same request, then the exchange is silent. -/
def State.noGoodAnswer (seg : Nat) (x : Exchange) (s : State) : State :=
  if x.repeated then s.endExchange seg x (some .leftLost) (fun env _ e => e.silent env)
  else
    let y := s.field.sxeAt seg
    { s with field := s.field.setSxe seg { y with exchange := some { x with repeated := true, phase := .sending } } }

/-- Is the exchange awaiting its answer, and since when? -/
def Exchange.awaiting (x : Exchange) : Option Nat := match x.phase with
  | .awaiting t => some t
  | .sending => none

/-- A frame that has arrived complete is judged against the exchange (R56, R193): good, with its answer, or corrupt. -/
def Exchange.judge (x : Exchange) (fr : SegFrame) : Option Answer :=
  if fr.checkOk && fr.address == x.address then
    (readAnswer fr.kind fr.params).filter (fun a => a.permitted x.kind)
  else none

/-- What a complete frame does to the exchange awaiting an answer (R56, R83). -/
def State.takeAnswer (seg : Nat) (x : Exchange) (fr : SegFrame) (s : State) : State :=
  if x.kind = .pass then
    (if fr.checkOk && fr.address == x.address then s.endPass seg x (some fr) else s)
  else
    match x.judge fr with
    | some a => s.endExchange seg x (a.finding s.env) (fun env f e => e.answer env f seg x.kind a)
    | none => s.noGoodAnswer seg x

/-! ### The meanings -/

/-- SEGMENT_REQUEST_SENT (R54, R56): the transmit enable is released and the answer window starts. -/
def execSegmentRequestSent (seg : Fin 4) (s : State) : Host.Outcome State Fault Refusal :=
  .next <|
    if s.isRunning then
      match (s.field.sxeAt seg).exchange with
      | some x =>
        if x.phase = .sending then
          { s with
            field := s.field.setSxe seg { s.field.sxeAt seg with exchange := some { x with phase := .awaiting s.now } } }
        else s
      | none => s
    else s

/-- DRIVE_ANSWER (R56): a complete frame that arrives in the answer window is judged; any other bytes are ignored. -/
def execDriveAnswer (seg : Fin 4) (frame : List Byte) (s : State) : Host.Outcome State Fault Refusal :=
  .next <|
    if s.isRunning then
      match (s.field.sxeAt seg).exchange, readSegFrame frame with
      | some x, some fr => if x.awaiting.isSome then s.takeAnswer seg x fr else s
      | some _, none => s
      | none, _ => s
    else s

/-- DRIVE_RESPONSE_TIMEOUT (R56, R83): the window of 4 ms has passed with nothing complete. -/
def execDriveResponseTimeout (seg : Fin 4) (s : State) : Host.Outcome State Fault Refusal :=
  .next <|
    if s.isRunning then
      match (s.field.sxeAt seg).exchange with
      | some x =>
        match x.awaiting with
        | some t =>
          let s1 := s.advanceTo (t + Config.answerWindowMs)
          if x.kind = .pass then s1.endPass seg x none else s1.noGoodAnswer seg x
        | none => s
      | none => s
    else s

/-- NIGHT_SPACING_EXPIRY (R64): the spacing after the segment's last exchange has run out, and the idle SXE makes its choice. -/
def execNightSpacingExpiry (seg : Fin 4) (s : State) : Host.Outcome State Fault Refusal :=
  .next <|
    let x := s.field.sxeAt seg
    if s.isRunning && s.osc.opState == .night && x.exchange.isNone then
      match x.lastEnd with
      | some t =>
        let s1 := s.advanceTo (t + Config.nightSpacingMs)
        { s1 with field := s1.field.choose s1.env true seg }
      | none => s
    else s

/-- The time from which a night poll of a heliostat is due (R64): at once with an absent last exchange time. -/
def HelioRun.nightDue (r : HelioRun) : Nat := match r.lastExchange with
  | none => 0
  | some t => t + Config.nightPollMs

/-- NIGHT_POLL_DUE (R64): with the SXE idle and its spacing run out, the oldest last exchange of the segment has come to
be 120 s old, and the SXE makes its choice. -/
def execNightPollDue (seg : Fin 4) (s : State) : Host.Outcome State Fault Refusal :=
  .next <|
    let x := s.field.sxeAt seg
    if s.isRunning && s.osc.opState == .night && x.exchange.isNone then
      match s.field.oldest (s.field.choosable s.env seg) with
      | some h =>
        let s1 := s.advanceTo (max (s.field.run h).nightDue ((x.lastEnd.map (· + Config.nightSpacingMs)).getD 0))
        { s1 with field := s1.field.choose s1.env true seg }
      | none => s
    else s

/-- SLEW_TIMEOUT (R81): the fault cause becomes SLEW TIMEOUT, if none is present, and the heliostat is owed DEFOCUS. The
timer has run out and is stopped. -/
def execSlewTimeout (helio : Nat) (s : State) : Host.Outcome State Fault Refusal :=
  .next <|
    let r := s.field.run helio
    match r.slewEnds with
    | some t =>
      if s.isRunning && r.state == .slewing && r.accepted then
        let s1 := s.advanceTo t
        let r1 :=
          ({ r with slewEnds := none, fault := r.fault.orElse (fun _ => some .slewTimeout) }.setOwed .defocus .slewTimeout).nothingRemains
        (s1.change (fun w => w.put s1.env helio (r.by (some .slewTimeout) r1))).kick
      else s
    | none => s

end Sys2Proof.Machine
end

