-- ==== Sys2Proof/Machine/Heliostats.lean ====
section
/-! DEFINITION. The orders that name heliostats and groups: AIM (chapter 2), DEFOCUS, STOW, CLEAR FAULT, FLAGS SET, FLAGS CLEAR,
READ HELIOSTAT and the intake of PASS (chapter 1). -/

namespace Sys2Proof.Machine

/-! ### AIM (R31 to R34) -/

/-- The reply to an AIM that the checks have judged (R31, R32). -/
def Admission.reply : Admission → Reply
  | .refused r => .plain r
  | .critical z => ⟨.critical, [byte z]⟩
  | .noBudget z margin => ⟨.noBudget, byte z :: signed24 margin⟩
  | .alreadyOn => ⟨.done, [1#8]⟩
  | .granted => ⟨.done, [0#8]⟩

/-- AIM at its taking (R31): the ten checks, and the grant where all pass. -/
def State.aimOrder (tag : Byte) (helio : Half) (point : Byte) (s : State) : Reply × State :=
  let h := helio.toNat
  let a := point.toNat
  let r := s.field.judgeAim s.env h a
  (r.reply, if r = .granted then (s.change (fun w => w.grant s.env h a (.order tag) .order)).kick else s)

/-! ### Scopes (R4, 10.3) -/

/-- What a scope code and an index name: one heliostat, the members of a group, or every present heliostat. A code or a
group number outside its range names nothing. -/
inductive Scope where
  | one (h : Nat)
  | members (hs : List Nat)
  deriving DecidableEq, Repr

/-- Reads a scope (R4, 10.3); `all` says whether the order takes the scope "all". -/
def Env.scope (env : Env) (all : Bool) (scope : Byte) (index : Half) : Option Scope :=
  match scope.toNat with
  | 0 => some (.one index.toNat)
  | 1 => if index.toNat < Config.groups then some (.members (env.live.members index.toNat)) else none
  | 2 => if all then some (.members env.all) else none
  | _ => none

/-! ### DEFOCUS, STOW and CLEAR FAULT (R14, R15) -/

/-- The refusal of a DEFOCUS or STOW order for one heliostat, by the checks of R14 in their order. -/
def Field.motionRefusal (env : Env) (h : Nat) (f : Field) : Option Result :=
  if !(env.live.helioAt h).present then some .range else (f.run h).motionRefusal (f.passHeld env h)

/-- A DEFOCUS or STOW order at its taking (R14). -/
def State.motionOrder (motion : Motion) (scope : Byte) (index : Half) (s : State) : Reply × State :=
  let owe (hs : List Nat) : Reply × State :=
    let n := ((Work.of s.field).oweMembers s.env motion .order hs).2
    (⟨.done, be16 n⟩, (s.change (fun w => (w.oweMembers s.env motion .order hs).1)).kick)
  match s.env.scope true scope index with
  | none => (.plain .range, s)
  | some (.one h) =>
    match s.field.motionRefusal s.env h with
    | some r => (.plain r, s)
    | none => owe [h]
  | some (.members hs) => owe hs

/-- A FAULTED heliostat becomes UNSURE without a fault cause (R15). -/
def Work.clearFault (env : Env) (h : Nat) (w : Work) : Work :=
  let r := w.fld.run h
  if r.state = .faulted then
    w.put env h (r.by (some .cleared) { r with state := .unsure, fault := none, silentCount := 0, busyCount := 0 })
  else w

/-- CLEAR FAULT at its taking (R15). -/
def State.clearFaultOrder (scope : Byte) (index : Half) (s : State) : Reply × State :=
  let clear (hs : List Nat) : Reply × State :=
    let n := (hs.filter (fun h => (s.field.run h).state == .faulted)).length
    (⟨.done, be16 n⟩, (s.change (fun w => hs.foldl (fun (w : Work) h => w.clearFault s.env h) w)).kick)
  match s.env.scope false scope index with
  | none => (.plain .range, s)
  | some (.one h) => if (s.live.helioAt h).present then clear [h] else (.plain .range, s)
  | some (.members hs) => clear hs

/-! ### Flags (R7, R9, R10) -/

/-- Is a FLAGS order refused RANGE (R9)? A group above 63, an empty mask, or a mask with a bit other than 0 and 1. -/
def flagsRefused (group mask : Byte) : Bool :=
  decide (63 < group.toNat) || mask == 0#8 || !flagsWithin mask 0x03#8

/-- Is MAINT not given to a heliostat (R9)? -/
def HelioRun.keepsMaintOff (r : HelioRun) : Bool :=
  r.state == .slewing || (r.state == .returning && r.released) || (!r.holdsLoad && r.owed.isSome)

/-- A member's record after FLAGS SET (R9). -/
def HelioRun.giveFlags (mask : Byte) (r : HelioRun) : HelioRun :=
  { r with
    inhibit := r.inhibit || mask.getLsbD 0
    maint := r.maint || (mask.getLsbD 1 && !r.keepsMaintOff) }

/-- A member's record after FLAGS CLEAR (R10). -/
def HelioRun.takeFlags (mask : Byte) (r : HelioRun) : HelioRun :=
  { r with inhibit := r.inhibit && !mask.getLsbD 0, maint := r.maint && !mask.getLsbD 1 }

/-- Does a record carry every flag of a mask (R9)? -/
def HelioRun.carries (mask : Byte) (r : HelioRun) : Bool :=
  (!mask.getLsbD 0 || r.inhibit) && (!mask.getLsbD 1 || r.maint)

/-- A FLAGS order at its taking, with the effect on one record given (R9, R10): the changed count and the all-carry result. -/
def State.flagsOrder (group mask : Byte) (effect : HelioRun → HelioRun) (s : State) : Reply × State :=
  if flagsRefused group mask then (.plain .range, s)
  else
    let hs := s.live.members group.toNat
    let changed := (hs.filter (fun h => effect (s.field.run h) != s.field.run h)).length
    let f := hs.foldl (fun (f : Field) h => f.setRun h (effect (f.run h))) s.field
    (⟨.done, be16 changed ++ [byte (bit 1 (hs.all (fun h => (f.run h).carries mask)))]⟩, { s with field := f })

/-! ### READ HELIOSTAT (R16, 10.6) -/

/-- The age of the last exchange in 0.1 s, saturating at 65,535 (R16); 0 where absent. -/
def HelioRun.age (now : Nat) (r : HelioRun) : Nat := match r.lastExchange with
  | none => 0
  | some t => min 65535 ((now - t) / 100)

/-- The owed cause, 0 where no motion is owed. -/
def HelioRun.owedCause (r : HelioRun) : Nat := causeOrZero (r.owed.map Owed.cause)

/-- The fault cause's code and the drive fault code, 0 where absent. -/
def HelioRun.faultBytes (r : HelioRun) : List Byte :=
  [byte (causeOrZero (r.fault.map FaultCause.cause)), (r.fault.bind FaultCause.driveCode).getD 0#8]

/-- The parameters of a READ HELIOSTAT answer from body byte 4 (10.6). -/
def heliostatReading (now h : Nat) (c : HelioConfig) (r : HelioRun) : List Byte :=
  be16 h ++ writeHelio c
    ++ [byte (bit 1 r.granted.isSome + bit 2 r.leaving.isSome + bit 4 r.destination.isSome + bit 8 r.motionCause.isSome
        + bit 16 r.fault.isSome + bit 32 (r.fault.bind FaultCause.driveCode).isSome + bit 64 r.lastExchange.isSome
        + bit 128 r.lastCause.isSome),
      byte r.state.code, byte (orZero r.granted), byte (orZero r.leaving), byte (restCode r.rest),
      byte (destCode r.destination), byte (motionCode r.owed), byte r.owedCause, byte (causeOrZero r.motionCause),
      byte (bit 1 r.released + bit 2 r.queued + bit 4 r.inFlight + bit 8 r.accepted + bit 16 r.unaccounted),
      byte r.silentCount, byte r.busyCount]
    ++ r.faultBytes
    ++ [byte (bit 1 r.inhibit + bit 2 r.maint + bit 4 r.localControl), byte (causeOrZero r.lastCause)]
    ++ be16 (r.age now)

/-- The runtime part that READ HELIOSTAT answers with (R16): the record's, or the reset values where it is absent. -/
def State.readRun (s : State) (h : Nat) : HelioRun :=
  if (s.live.helioAt h).present then s.field.run h else HelioRun.blank

/-- READ HELIOSTAT at its taking (R16). -/
def State.readHeliostatOrder (helio : Half) (s : State) : Reply × State :=
  let h := helio.toNat
  if h < Config.heliostats then (⟨.done, heliostatReading s.now h (s.live.helioAt h) (s.readRun h)⟩, s)
  else (.plain .range, s)

/-! ### PASS (R20, R21, R173) -/

/-- The refusal of a PASS by the checks of R20 in their order. -/
def State.passRefusal (h : Nat) (kind : Byte) (s : State) : Option Reply :=
  let r := s.field.run h
  let g := s.env.segmentOf h
  if !(s.live.helioAt h).present then some (.plain .range)
  else if isOwnKind kind then some (.plain .format)
  else if r.holdsLoad then some ⟨.inUse, [byte Fact.load.code]⟩
  else if r.state = .slewing ∨ r.state = .returning ∨ r.state = .lost then some (.plain .busy)
  else if r.queued || r.owed.isSome || r.inFlight then some (.plain .busy)
  else if (s.field.sxeAt g).passSlot.isSome ∨ s.ulp.deferredAt g ≠ .empty then some (.plain .busy)
  else none

/-- Accepts a PASS (R20, R21, R173): it is held in the PASS slot of its segment, the heliostat is in flight, and its
answer is deferred. -/
def State.holdPass (tag : Byte) (h : Nat) (body : List Byte) (s : State) : State :=
  let g := s.env.segmentOf h
  let f := s.field.setSxe g { s.field.sxeAt g with passSlot := some ⟨h, tag, body⟩ }
  { s with
    field := f.setRun h { f.run h with inFlight := true }
    ulp := s.ulp.setDeferred g (.held tag) }

/-! ### The meanings -/

/-- AIM (R31). -/
def execAim (tag : Byte) (helio : Half) (point : Byte) (s : State) : Host.Outcome State Fault Refusal :=
  .next (s.order (.aim tag helio point) tag 0x01#8 (State.aimOrder tag helio point))

/-- DEFOCUS (R14). -/
def execDefocus (tag scope : Byte) (index : Half) (s : State) : Host.Outcome State Fault Refusal :=
  .next (s.order (.defocus tag scope index) tag 0x04#8 (State.motionOrder .defocus scope index))

/-- STOW (R14). -/
def execStow (tag scope : Byte) (index : Half) (s : State) : Host.Outcome State Fault Refusal :=
  .next (s.order (.stow tag scope index) tag 0x05#8 (State.motionOrder .stow scope index))

/-- CLEAR FAULT (R15). -/
def execClearFault (tag scope : Byte) (index : Half) (s : State) : Host.Outcome State Fault Refusal :=
  .next (s.order (.clearFault tag scope index) tag 0x06#8 (State.clearFaultOrder scope index))

/-- FLAGS SET (R9). -/
def execFlagsSet (tag group mask : Byte) (s : State) : Host.Outcome State Fault Refusal :=
  .next (s.order (.flagsSet tag group mask) tag 0x07#8 (State.flagsOrder group mask (HelioRun.giveFlags mask)))

/-- FLAGS CLEAR (R10). -/
def execFlagsClear (tag group mask : Byte) (s : State) : Host.Outcome State Fault Refusal :=
  .next (s.order (.flagsClear tag group mask) tag 0x08#8 (State.flagsOrder group mask (HelioRun.takeFlags mask)))

/-- READ HELIOSTAT (R16). -/
def execReadHeliostat (tag : Byte) (helio : Half) (s : State) : Host.Outcome State Fault Refusal :=
  .next (s.order (.readHeliostat tag helio) tag 0x09#8 (State.readHeliostatOrder helio))

/-- PASS (R20): refused and answered at once, or accepted and held, its answer deferred (R173). -/
def execPass (tag : Byte) (helio : Half) (body : List Byte) (s : State) : Host.Outcome State Fault Refusal :=
  .next <|
    if s.takes (.pass tag helio body) then
      let s1 := s.popFrame
      match s1.passRefusal helio.toNat (body.headD 0#8) with
      | some r => s1.answer tag 0x0A#8 r
      | none => (s1.holdPass tag helio.toNat body).kick
    else s

end Sys2Proof.Machine
end

