-- ==== Sys2Proof/Machine/Programs.lean ====
section
/-! DEFINITION. The Program Engine (chapters 5 and 6): the level arbiter, the completion of steps, every step kind, and the
orders that load, start, halt and read programs. -/

namespace Sys2Proof.Machine

/-! ### The arbiter (chapter 6) -/

/-- The level of a started slot (R132). -/
def Field.levelOf (f : Field) (k : Nat) : Nat := orZero (f.slotAt k).level

/-- The slot of numerically lowest level in a list, the earliest among equals (R136, R138). -/
def Field.lowest (f : Field) : List Nat → Option Nat
  | [] => none
  | k :: t =>
    match f.lowest t with
    | none => some k
    | some j => if f.levelOf j < f.levelOf k then some j else some k

/-- Makes slot `k` the active program, RUNNING, taken from the stack or the list (R138, R139). -/
def Field.activate (k : Nat) (f : Field) : Field :=
  let f1 := f.setSlot k { f.slotAt k with state := .running }
  { f1 with
    arbiter := ⟨some k, f1.arbiter.suspended.filter (· != k), f1.arbiter.waiting.filter (· != k)⟩ }

/-- The choice of the next active program (R138): the top of the stack unless a pending slot has a lower level. -/
def Field.chooseProgram (f : Field) : Field :=
  match f.arbiter.suspended.head?, f.lowest f.arbiter.waiting with
  | some t, some p => if f.levelOf p < f.levelOf t then f.activate p else f.activate t
  | some t, none => f.activate t
  | none, some p => f.activate p
  | none, none => f

/-- Ends a run (R112), with the choice of the next program where the slot was the active one (R138). -/
def Work.endRun (k : Nat) (cause : EndCause) (w : Work) : Work :=
  let w1 := w.endSlot k cause
  if w.fld.arbiter.active = some k then { w1 with fld := w1.fld.chooseProgram } else w1

/-- A preemption (R135): the active slot `a` is suspended, its wait abandoned, and slot `k` becomes the active program. -/
def Field.preempt (a k : Nat) (f : Field) : Field :=
  let s := f.slotAt a
  let f1 := f.setSlot a { s with state := .suspended, waitingOn := none, flags := { s.flags with preempted := true } }
  { f1 with arbiter := { f1.arbiter with suspended := a :: f1.arbiter.suspended } }.activate k

/-- A held preemption takes effect at the completion of a holding step of slot `a` (R136). -/
def Field.heldPreemption (a : Nat) (f : Field) : Field :=
  match f.lowest (f.arbiter.waiting.filter (fun k => f.levelOf k < f.levelOf a)) with
  | some k => f.preempt a k
  | none => f

/-- Is the active slot inside a holding step (R134)? Between events a begun step is one that waits. -/
def Slot.insideHolding (s : Slot) : Bool := s.state == .waiting && ((s.steps[s.current]?).map Step.holds).getD false

/-! ### Completion of steps (R111) -/

/-- What follows a completed step: the step of a number, or the end of the run by the step's own rule. -/
inductive After where
  | goOn (next : Nat)
  | finish (cause : EndCause)
  deriving DecidableEq, Repr

/-- The completion of slot `k`'s current step (R111), with the held preemption of a holding step (R136). -/
def Work.completeStep (k : Nat) (after : After) (w : Work) : Work :=
  let s := w.fld.slotAt k
  let holding := ((s.steps[s.current]?).map Step.holds).getD false
  let s1 := { s with executed := s.executed + 1, state := .running, waitingOn := none }
  let w1 := { w with fld := w.fld.setSlot k s1 }
  match after with
  | .finish cause => w1.endRun k cause
  | .goOn next =>
    if Config.stepLimit ≤ s1.executed then w1.endRun k .stepLimit
    else if s.steps.length ≤ next then w1.endRun k .complete
    else
      let f2 := w1.fld.setSlot k { s1 with current := next }
      { w1 with fld := if holding then f2.heldPreemption k else f2 }

/-- Slot `k` becomes WAITING (R107). -/
def Work.waitFor (k : Nat) (on : WaitOn) (w : Work) : Work :=
  { w with fld := w.fld.setSlot k { w.fld.slotAt k with state := .waiting, waitingOn := some on } }

/-- The active slot's current step, which has not begun: the slot is RUNNING (R111). -/
def State.stepDue (s : State) : Option (Nat × Step) :=
  if s.isRunning then
    match s.field.arbiter.active with
    | some k =>
      let v := s.field.slotAt k
      if v.state = .running then (v.steps[v.current]?).map (fun st => (k, st)) else none
    | none => none
  else none

/-- The active slot's wait and the step that waits (R107). -/
def State.waitUnderWay (s : State) : Option (Nat × Step × WaitOn) :=
  if s.isRunning then
    match s.field.arbiter.active with
    | some k =>
      let v := s.field.slotAt k
      if v.state = .waiting then
        match v.steps[v.current]?, v.waitingOn with
        | some st, some on => some (k, st, on)
        | some _, none => none
        | none, _ => none
      else none
    | none => none
  else none

/-! ### The AIM GROUP step (R114 to R120) -/

/-- What taking one member comes to (R115 to R117). -/
inductive Taking where
  | full
  | taken (w : Work) (short : Bool)
  deriving DecidableEq, Repr

/-- Places a member in the settle set of slot `k` with the aim the step gives it (R118). -/
def Work.settleWith (k h a : Nat) (w : Work) : Work :=
  { w with fld := w.fld.setSlot k { w.fld.slotAt k with settleSet := (w.fld.slotAt k).settleSet ++ [(h, a)] } }

/-- Places a refused member in the residual of slot `k` (R116). -/
def Work.refuseMember (k h : Nat) (reason : Reason) (busy short : Bool) (w : Work) : Work :=
  let s := w.fld.slotAt k
  { w with
    fld := w.fld.setSlot k
      { s with
        residual := addResidual h reason s.residual
        flags :=
          { s.flags with memberBusy := s.flags.memberBusy || busy, grantShort := s.flags.grantShort || short } } }

/-- A member's refusal at a check other than CRITICAL, NO_BUDGET and QUEUE_FULL (R116). -/
def memberReason : Result → Reason × Bool
  | .inhibited => (.inhibited, false)
  | .busy => (.busy, true)
  | .state => (.faulted, false)
  | .range | .done | .notReady | .inUse | .blockProtected | .locked | .duplicate | .noBudget | .critical | .safe
  | .format | .pendingStatus | .queueFull => (.range, false)

/-- The checks of R31 for a member of a running program: the state and field-safe checks do not refuse one (R116). -/
def Field.admitMember (env : Env) (h a : Nat) (f : Field) : Admission :=
  if (env.live.helioAt h).present then f.admitMotion env h a else .refused .range

/-- Takes one member (R115): already granted by the step's aim, or admitted with origin PROGRAM. -/
def Work.takeMember (env : Env) (k h a : Nat) (w : Work) : Taking :=
  if (w.fld.run h).unsettledOn a then .taken (w.settleWith k h a) false
  else
    match w.fld.admitMember env h a with
    | .alreadyOn => .taken (w.settleWith k h a) false
    | .granted => .taken ((w.grant env h a (.program k) .program).settleWith k h a) false
    | .critical _ => .taken (w.refuseMember k h .critical false true) true
    | .noBudget _ _ => .taken (w.refuseMember k h .noBudget false true) true
    | .refused .queueFull => .full
    | .refused r => .taken (w.refuseMember k h (memberReason r).1 (memberReason r).2 false) false

/-- Takes members in member order from position `j` until one meets a full queue (R115, R117); answers the members left,
the position, and whether a short grant was met. -/
def Work.takeMembers (env : Env) (k first spread : Nat) : Nat → List Nat → Bool → Work → Work × Option (Nat × List Nat) × Bool
  | _, [], short, w => (w, none, short)
  | j, h :: t, short, w =>
    match w.takeMember env k h (first + j % spread) with
    | .full => (w, some (j, h :: t), short)
    | .taken w1 sh => Work.takeMembers env k first spread (j + 1) t (short || sh) w1

/-- A wait for queue space begins: entries that leave from now on are what may end it (R117, log entry 8). -/
def Field.clearFreed (f : Field) : Field :=
  (List.range Config.segments).foldl (fun f g => f.setSxe g { f.sxeAt g with spaceFreed := false }) f

/-- Is a member of slot `k`'s settle set still unsettled (R119)? -/
def Field.anyUnsettled (f : Field) (k : Nat) : Bool :=
  (f.slotAt k).settleSet.any (fun p => (f.run p.1).unsettledOn p.2)

/-- Goes on with an AIM GROUP step of slot `k` (R115, R117, R118): takes what members it can, then waits for space, ends
the run on a short grant, waits to settle, or completes. -/
def Work.aimGroupFrom (env : Env) (k first spread : Nat) (flags : AimFlags) (j : Nat) (members : List Nat) (short : Bool)
    (w : Work) : Work :=
  match w.takeMembers env k first spread j members short with
  | (w1, some (j1, rest), short1) =>
    ({ w1 with fld := w1.fld.clearFreed }).waitFor k (.queueSpace j1 rest short1)
  | (w1, none, short1) =>
    if flags.stopOnShort && short1 then w1.completeStep k (.finish .grantShort)
    else if flags.settle && w1.fld.anyUnsettled k then w1.waitFor k .settle
    else w1.completeStep k (.goOn ((w1.fld.slotAt k).current + 1))

/-- Does the member count differ from an expected count (R114)? -/
def countMismatch (expected : Option Nat) (n : Nat) : Bool :=
  match expected with
  | some m => n != m
  | none => false

/-- Slot `k` at the beginning of an AIM GROUP step (R114): residual and settle set emptied, COUNT MISMATCH set on a mismatch. -/
def Work.freshStep (k : Nat) (mismatch : Bool) (w : Work) : Work :=
  let s := w.fld.slotAt k
  { w with
    fld := w.fld.setSlot k
      { s with
        residual := [], settleSet := [], flags := { s.flags with countMismatch := s.flags.countMismatch || mismatch } } }

/-- The beginning of an AIM GROUP step of slot `k` (R114). -/
def Work.beginAimGroup (env : Env) (k group first spread : Nat) (expected : Option Nat) (flags : AimFlags) (w : Work) : Work :=
  let members := env.live.members group
  let mismatch := countMismatch expected members.length
  if mismatch && !flags.tolerateCount then (w.freshStep k mismatch).completeStep k (.finish .countMismatch)
  else (w.freshStep k mismatch).aimGroupFrom env k first spread flags 0 members false

/-- Every settle set member that is not TRACKING its aim is placed in the residual UNSETTLED at the end of the wait (R119). -/
def Field.placeUnsettled (k : Nat) (f : Field) : Field :=
  let s := f.slotAt k
  let missed := s.settleSet.filter (fun p => !((f.run p.1).state == .tracking && (f.run p.1).granted == some p.2))
  f.setSlot k { s with residual := missed.foldl (fun l p => addResidual p.1 .unsettled l) s.residual }

/-! ### The DEFOCUS GROUP and STOW GROUP steps (R121, R122) -/

/-- Owes a motion to the members of a group, and completes or waits on those that owe or are RETURNING (R121, R122). The step
itself leaves the slot's residual alone; a withdrawal it makes of a settle set member's grant reaches the residual by R120
(`Work.owe`, log entry 47). -/
def Work.moveGroup (env : Env) (k group : Nat) (settle : Bool) (motion : Motion) (w : Work) : Work :=
  let members := env.live.members group
  let w1 := (w.oweMembers env motion .program members).1.settleNow env
  let followed := members.filter (fun h => (w1.fld.run h).owed.isSome || (w1.fld.run h).state == .returning)
  if settle && followed.any (fun h => (w1.fld.run h).movingOff) then w1.waitFor k (.offReceiver followed)
  else w1.completeStep k (.goOn ((w1.fld.slotAt k).current + 1))

/-! ### The TEST step (R125) -/

/-- The condition of a TEST step (R125). -/
def TestCode.holds (env : Env) (f : Field) : TestCode → Bool
  | .overBudget z => (f.zoneAt z).overBudget
  | .notOver z => !(f.zoneAt z).overBudget
  | .marginGe z v => decide (v ≤ (f.zoneAt z).margin)
  | .marginLt z v => decide ((f.zoneAt z).margin < v)
  | .warn z => (f.zoneAt z).warn
  | .notWarn z => !(f.zoneAt z).warn
  | .settled g => !(env.live.members g).any (fun h => (f.run h).restless)
  | .unsettled g => (env.live.members g).any (fun h => (f.run h).restless)

/-! ### The meanings of the steps -/

/-- AIM_GROUP (R114): the active slot's AIM GROUP step begins. -/
def execAimGroup (s : State) : Host.Outcome State Fault Refusal :=
  .next <|
    match s.stepDue with
    | some (k, .aimGroup group first spread expected flags) =>
      (s.change (fun w => w.beginAimGroup s.env k group first spread expected flags)).kick
    | _ => s

/-- QUEUE_SPACE_RESUME (R117): an entry has left the Move Queue of the awaited member's segment, and the step goes on. The
segment is the one the member's live record names at this moment (log entry 38). -/
def execQueueSpaceResume (s : State) : Host.Outcome State Fault Refusal :=
  .next <|
    match s.waitUnderWay with
    | some (k, .aimGroup _ first spread _ flags, .queueSpace j (h :: t) short) =>
      if (s.field.sxeAt (s.env.segmentOf h)).spaceFreed then
        (s.change (fun w =>
          ({ w with fld := w.fld.setSlot k { w.fld.slotAt k with state := .running, waitingOn := none } }).aimGroupFrom
            s.env k first spread flags j (h :: t) short)).kick
      else s
    | _ => s

/-- SETTLE_WAIT_END (R119): the last unsettled member has stopped being unsettled, and the step completes. -/
def execSettleWaitEnd (s : State) : Host.Outcome State Fault Refusal :=
  .next <|
    match s.waitUnderWay with
    | some (k, .aimGroup _ _ _ _ _, .settle) =>
      if s.field.anyUnsettled k then s
      else
        s.change (fun w =>
          ({ w with fld := w.fld.placeUnsettled k }).completeStep k (.goOn ((w.fld.slotAt k).current + 1)))
    | _ => s

/-- DEFOCUS_GROUP (R121). -/
def execDefocusGroup (s : State) : Host.Outcome State Fault Refusal :=
  .next <|
    match s.stepDue with
    | some (k, .defocusGroup group settle _) => (s.change (fun w => w.moveGroup s.env k group settle .defocus)).kick
    | _ => s

/-- STOW_GROUP (R121). -/
def execStowGroup (s : State) : Host.Outcome State Fault Refusal :=
  .next <|
    match s.stepDue with
    | some (k, .stowGroup group settle _) => (s.change (fun w => w.moveGroup s.env k group settle .stow)).kick
    | _ => s

/-- GROUP_SETTLE_WAIT_END (R122): the last followed member has stopped moving off, and the step completes. -/
def execGroupSettleWaitEnd (s : State) : Host.Outcome State Fault Refusal :=
  .next <|
    match s.waitUnderWay with
    | some (k, _, .offReceiver followed) =>
      if followed.any (fun h => (s.field.run h).movingOff) then s
      else s.change (fun w => w.completeStep k (.goOn ((w.fld.slotAt k).current + 1)))
    | _ => s

/-- CEILING (R123): as a SET CEILING order with the step's parameters. -/
def execCeiling (s : State) : Host.Outcome State Fault Refusal :=
  .next <|
    match s.stepDue with
    | some (k, .ceiling first last value) =>
      (s.change (fun w =>
        ((w.setCeilings s.env first last value).1.settleNow s.env).completeStep k
          (.goOn ((w.fld.slotAt k).current + 1)))).kick
    | _ => s

/-- WAIT (R124): the WAIT timer starts. -/
def execWait (s : State) : Host.Outcome State Fault Refusal :=
  .next <|
    match s.stepDue with
    | some (k, .wait tenths _) => s.change (fun w => w.waitFor k (.timer (s.now + 100 * tenths)))
    | _ => s

/-- WAIT_TIMER_EXPIRY (R124): the WAIT timer runs out and the step completes. -/
def execWaitTimerExpiry (s : State) : Host.Outcome State Fault Refusal :=
  .next <|
    match s.waitUnderWay with
    | some (k, _, .timer ends) =>
      (s.advanceTo ends).change (fun w => w.completeStep k (.goOn ((w.fld.slotAt k).current + 1)))
    | _ => s

/-- TEST (R125): the step after next where the condition holds, the next step where it does not. -/
def execTest (s : State) : Host.Outcome State Fault Refusal :=
  .next <|
    match s.stepDue with
    | some (k, .test code) =>
      let n := (s.field.slotAt k).current
      s.change (fun w => w.completeStep k (.goOn (if code.holds s.env s.field then n + 2 else n + 1)))
    | _ => s

/-- JUMP (R126). -/
def execJump (s : State) : Host.Outcome State Fault Refusal :=
  .next <|
    match s.stepDue with
    | some (k, .jump target) => s.change (fun w => w.completeStep k (.goOn target))
    | _ => s

/-- END (R126). -/
def execEndStep (s : State) : Host.Outcome State Fault Refusal :=
  .next <|
    match s.stepDue with
    | some (k, .finish) => s.change (fun w => w.completeStep k (.finish .complete))
    | _ => s

/-! ### The orders of the Program Engine -/

/-- The first step record, counting from 0, that reads as `bad`. -/
def firstStep (bad : StepRead → Bool) (reads : List StepRead) : Option Nat :=
  if reads.any bad then some (reads.findIdx bad) else none

/-- The steps of records that all read well. -/
def goodSteps (reads : List StepRead) : List Step :=
  reads.filterMap (fun r => match r with
    | .ok s => some s
    | .unknown | .outOfRange => none)

/-- LOAD PROGRAM at its taking (R109). A refusal names the first step that fails, where there is one (log entry 19). -/
def State.loadProgramOrder (slot count : Byte) (records : List Byte) (s : State) : Reply × State :=
  let n := count.toNat
  let k := slot.toNat
  if 7 < k ∨ 32 < n then (⟨.range, [0#8, 0#8]⟩, s)
  else
    match (s.field.slotAt k).state with
    | .pending | .running | .waiting | .suspended | .ended => (.plain .busy, s)
    | .empty | .loaded =>
      if records.length ≠ 7 * n then (⟨.format, [0#8, 0#8]⟩, s)
      else
        let reads := (cutRecords 7 n records).map (readStep n)
        match firstStep (· == .unknown) reads with
        | some i => (⟨.format, [1#8, byte i]⟩, s)
        | none =>
          match firstStep (· == .outOfRange) reads with
          | some i => (⟨.range, [1#8, byte i]⟩, s)
          | none =>
            let v := if n = 0 then Slot.blank else { Slot.blank with steps := goodSteps reads, state := .loaded }
            (⟨.done, [count]⟩, { s with field := s.field.setSlot k v })

/-- Slot `k` at the start of a run (R111). -/
def Slot.started (level : Nat) (tag : Byte) (state : SlotState) (v : Slot) : Slot :=
  { v with
    state := state, level := some level, startTag := some tag, current := 0, executed := 0, endCause := none
    flags := RunFlags.none, residual := [], settleSet := [], waitingOn := none }

/-- The placing of a started slot by the arbiter (R133), with the outcome's code (10.4). -/
def Field.start (k level : Nat) (tag : Byte) (f : Field) : Field × Nat :=
  let pend : Field :=
    let f1 := f.setSlot k ((f.slotAt k).started level tag .pending)
    { f1 with arbiter := { f1.arbiter with waiting := f1.arbiter.waiting ++ [k] } }
  match f.arbiter.active with
  | none => ((f.setSlot k ((f.slotAt k).started level tag .running)).activate k, 0)
  | some a =>
    if level < f.levelOf a then
      if (f.slotAt a).insideHolding then (pend, 2)
      else ((f.setSlot k ((f.slotAt k).started level tag .running)).preempt a k, 1)
    else (pend, 3)

/-- What a slot waits on, as its code and its value (10.6): a remaining time in 0.1 s rounded up, or a member's index. -/
def WaitOn.fields (now : Nat) : WaitOn → Nat × Nat
  | .timer ends => (1, (ends - now + 99) / 100)
  | .settle | .offReceiver _ => (2, 0)
  | .queueSpace _ members _ => (3, members.headD 0)

/-- The flags byte of PROGRAM END and READ PROGRAM STATUS (10.5). -/
def RunFlags.code (g : RunFlags) : Nat :=
  bit 1 g.driveReject + bit 2 g.memberBusy + bit 4 g.grantShort + bit 8 g.countMismatch + bit 16 g.preempted

/-- One residual entry (10.5, 10.6). -/
def residualBytes (p : Nat × Reason) : List Byte := be16 p.1 ++ [byte p.2.code]

/-- The end cause's code, 0 where absent. -/
def endCode (c : Option EndCause) : Nat := (c.map EndCause.code).getD 0

/-- The slot status fields of READ PROGRAM STATUS from body byte 4 (10.6). -/
def slotStatus (now k : Nat) (v : Slot) : List Byte :=
  let on := match v.state, v.waitingOn with
    | .waiting, some w => w.fields now
    | _, _ => (0, 0)
  let carried := v.residual.take 16
  [byte k, byte v.state.code,
    byte (bit 1 v.level.isSome + bit 2 v.startTag.isSome + bit 4 v.endCause.isSome + bit 8 (on.1 != 0)),
    byte (orZero v.level), v.startTag.getD 0#8, byte v.current] ++ be16 v.executed
    ++ [byte (endCode v.endCause), byte v.flags.code] ++ be16 v.residual.length ++ be16 v.settleSet.length
    ++ [byte on.1] ++ be16 on.2 ++ [byte carried.length] ++ carried.flatMap residualBytes

/-- START PROGRAM at its taking (R132, R133). A STATE at check 2 carries no slot state: R132 tells it by that from one at check 4,
though 10.4 lists the byte for STATE without restriction (log entry 44). -/
def State.startProgramOrder (tag slot level : Byte) (s : State) : Reply × State :=
  let k := slot.toNat
  if 7 < k ∨ 3 < level.toNat then (.plain .range, s)
  else
    match s.env.gate with
    | some r => (.plain r, s)
    | none =>
      let v := s.field.slotAt k
      match v.state with
      | .empty => (⟨.state, [byte v.state.code]⟩, s)
      | .ended => (⟨.pendingStatus, slotStatus s.now k v⟩, s)
      | .pending | .running | .waiting | .suspended => (.plain .busy, s)
      | .loaded =>
        let p := s.field.start k level.toNat tag
        (⟨.done, [byte p.2, byte (orZero p.1.arbiter.active)]⟩, { s with field := p.1 })

/-- HALT PROGRAM at its taking (R129): the entries of the slot's origin are withdrawn, the accounts follow, and a
non-idle slot's run ends. -/
def State.haltProgramOrder (slot : Byte) (s : State) : Reply × State :=
  let k := slot.toNat
  if 7 < k then (.plain .range, s)
  else
    (.plain .done,
      (s.change (fun w =>
        let w1 := (w.withdrawAll s.env .revoked (fun e => e.origin == .program k)).settleNow s.env
        if (s.field.slotAt k).state.nonIdle then w1.endRun k .halted else w1)).kick)

/-- READ PROGRAM STATUS at its taking (R127): an ENDED slot becomes LOADED. -/
def State.readProgramStatusOrder (slot : Byte) (s : State) : Reply × State :=
  let k := slot.toNat
  if 7 < k then (.plain .range, s)
  else
    let v := s.field.slotAt k
    (⟨.done, slotStatus s.now k v⟩,
      if v.state = .ended then { s with field := s.field.setSlot k { v with state := .loaded } } else s)

/-- LOAD PROGRAM (R109). -/
def execLoadProgram (tag slot count : Byte) (records : List Byte) (s : State) : Host.Outcome State Fault Refusal :=
  .next (s.order (.loadProgram tag slot count records) tag 0x0F#8 (State.loadProgramOrder slot count records))

/-- START PROGRAM (R132). -/
def execStartProgram (tag slot level : Byte) (s : State) : Host.Outcome State Fault Refusal :=
  .next (s.order (.startProgram tag slot level) tag 0x10#8 (State.startProgramOrder tag slot level))

/-- HALT PROGRAM (R129). -/
def execHaltProgram (tag slot : Byte) (s : State) : Host.Outcome State Fault Refusal :=
  .next (s.order (.haltProgram tag slot) tag 0x11#8 (State.haltProgramOrder slot))

/-- READ PROGRAM STATUS (R127). -/
def execReadProgramStatus (tag slot : Byte) (s : State) : Host.Outcome State Fault Refusal :=
  .next (s.order (.readProgramStatus tag slot) tag 0x12#8 (State.readProgramStatusOrder slot))

end Sys2Proof.Machine
end

