-- ==== Sys2Proof/Machine/Watch.lean ====
section
/-! DEFINITION. The Receiver Watch (chapter 4): the sensor line, readings, stale timers, the watch, the limit lock and CLEAR
TRIP. -/

namespace Sys2Proof.Machine

/-! ### Zone conditions (R87, R91) -/

/-- New conditions for a zone, each change of one adding its mark; the stale timer is stopped while STALE is set (R87). -/
def ZoneRun.conditions (warn critical stale : Bool) (v : ZoneRun) : ZoneRun :=
  { v with
    warn := warn, critical := critical, stale := stale, staleEnds := if stale then none else v.staleEnds
    marks :=
      { v.marks with
        warn := v.marks.warn || (v.warn != warn), critical := v.marks.critical || (v.critical != critical)
        stale := v.marks.stale || (v.stale != stale) } }

/-- Do two values of a zone differ in WARN, CRITICAL or STALE? -/
def ZoneRun.conditionsDiffer (v v1 : ZoneRun) : Bool :=
  v.warn != v1.warn || v.critical != v1.critical || v.stale != v1.stale

/-- A zone takes new conditions (R91 step 1): its ZONE EVENT is queued if one of them changed. -/
def Work.setConditions (z : Nat) (v : ZoneRun) (w : Work) : Work :=
  if (w.fld.zoneAt z).conditionsDiffer v then w.mark z v else { w with fld := w.fld.setZone z v }

/-- A change of one zone's conditions with what it hands on (R91): the conditions, the critical onset actions where
CRITICAL has just become set, the budget; the end of the change does the rest. -/
def Work.rejudge (env : Env) (z : Nat) (v : ZoneRun) (w : Work) : Work :=
  let w1 := w.setConditions z v
  let w2 := if v.critical && !(w.fld.zoneAt z).critical then w1.criticalOnset env z else w1
  w2.rebudget env z

/-- Every zone becomes STALE with WARN and CRITICAL clear and its timer stopped (R95, R97), and every budget is recomputed. -/
def Work.staleAll (env : Env) (w : Work) : Work :=
  let zs := List.range Config.zones
  (zs.foldl (fun (w : Work) z => w.setConditions z ((w.fld.zoneAt z).conditions false false true)) w).rebudgetAll env zs

/-! ### Readings (R85 to R90) -/

/-- A zone after a good reading of `t` quarter degrees taken now (R88). -/
def ZoneRun.goodReading (env : Env) (z t : Nat) (v : ZoneRun) : ZoneRun :=
  let h := hysteresisOf env.live.watch.hysteresis
  { v with lastReading := some t, staleEnds := some (env.now + Config.staleMs) }.conditions
    (judge v.warn (env.live.zoneAt z).warnLimit h t) (judge v.critical (env.live.criticalAt z) h t) false

/-- A zone after a fault reading or the end of its stale timer (R89, R90): STALE, the rest kept. -/
def ZoneRun.goStale (v : ZoneRun) : ZoneRun := v.conditions v.warn v.critical true

/-- Are readings taken (R86)? -/
def State.takesReadings (s : State) : Bool := s.isRunning && s.watchOn && s.osc.opState != .night

/-- A reading for zone `z` (R86 to R89). -/
def State.takeReading (z t : Nat) (fault : Bool) (s : State) : State :=
  if s.takesReadings then
    if fault then
      if (s.field.zoneAt z).stale then s
      else (s.change (fun w => w.rejudge s.env z (s.field.zoneAt z).goStale)).kick
    else (s.change (fun w => w.rejudge s.env z ((s.field.zoneAt z).goodReading s.env z t))).kick
  else s

/-- One byte on the sensor line (R85): hunting for A5h, then the five bytes that follow it, judged at the last. -/
def State.sensorByte (s : State) (b : Byte) : State :=
  match s.sensorRx with
  | none => if b = 0xA5#8 then { s with sensorRx := some [] } else s
  | some bs =>
    if bs.length < 4 then { s with sensorRx := some (bs ++ [b]) }
    else
      let s1 := { s with sensorRx := none }
      match readSensor (bs ++ [b]) with
      | some (z, t, fault) => s1.takeReading z t fault
      | none => s1

/-! ### The meanings -/

/-- SENSOR_READING (R85 to R89): the bytes arrive one after another. Before the tables are loaded they are ignored. -/
def execSensorReading (bytes : List Byte) (s : State) : Host.Outcome State Fault Refusal :=
  .next <| if s.isRunning then bytes.foldl State.sensorByte s else s

/-- SENSOR_FRAME_GAP (R85): more than 1 ms has passed inside a frame, which is discarded. -/
def execSensorFrameGap (s : State) : Host.Outcome State Fault Refusal :=
  .next <| if s.isRunning then { s with sensorRx := none } else s

/-- STALE_EXPIRY (R90): a running stale timer runs out and its zone becomes STALE. -/
def execStaleExpiry (zone : Nat) (s : State) : Host.Outcome State Fault Refusal :=
  .next <|
    match (s.field.zoneAt zone).staleEnds with
    | some t =>
      if s.isRunning then
        let s1 := s.advanceTo t
        (s1.change (fun w => w.rejudge s1.env zone (s1.field.zoneAt zone).goStale)).kick
      else s
    | none => s

/-- WATCH ON at its taking (R96). -/
def State.turnWatchOn (s : State) : Reply × State :=
  if s.watchOn then (.plain .done, s)
  else
    let s1 := { s with watchOn := true }
    (.plain .done, s1.change (fun w => w.rebudgetAll s1.env (List.range Config.zones)))

/-- WATCH OFF at its taking (R95). -/
def State.turnWatchOff (s : State) : Reply × State :=
  if s.limitLock then (.plain .locked, s)
  else if !s.watchOn then (.plain .done, s)
  else
    let s1 := { s with watchOn := false }
    (.plain .done, (s1.change (fun w => w.staleAll s1.env)).kick)

/-- The trip record with the latch and the asserted state cleared, its TRIP EVENT queued on a change (R103). -/
def Field.clearTrip (f : Field) : Field :=
  let t1 : TripRecord := { f.trip with latch := false, asserted := false }
  if t1 = f.trip then f else { f with trip := t1 }.queueReport .trip

/-- CLEAR TRIP at its taking (R103): only LATCH mode has something to clear. -/
def State.clearTripOrder (s : State) : Reply × State :=
  (.plain .done, if s.live.watch.mode = .latch then { s with field := s.field.clearTrip } else s)

/-- LOCK LIMITS at its taking (R99). -/
def State.lockLimitsOrder (s : State) : Reply × State := (.plain .done, { s with limitLock := true })

/-- WATCH ON (R96). -/
def execWatchOn (tag : Byte) (s : State) : Host.Outcome State Fault Refusal :=
  .next (s.order (.watchOn tag) tag 0x0B#8 State.turnWatchOn)

/-- WATCH OFF (R95). -/
def execWatchOff (tag : Byte) (s : State) : Host.Outcome State Fault Refusal :=
  .next (s.order (.watchOff tag) tag 0x0C#8 State.turnWatchOff)

/-- CLEAR TRIP (R103). -/
def execClearTrip (tag : Byte) (s : State) : Host.Outcome State Fault Refusal :=
  .next (s.order (.clearTrip tag) tag 0x0D#8 State.clearTripOrder)

/-- LOCK LIMITS (R99). -/
def execLockLimits (tag : Byte) (s : State) : Host.Outcome State Fault Refusal :=
  .next (s.order (.lockLimits tag) tag 0x0E#8 State.lockLimitsOrder)

end Sys2Proof.Machine
end

