-- ==== Sys2Proof/Machine/Operating.lean ====
section
/-! DEFINITION. The Operating State Controller (chapter 7): SET STATE, the field-safe pin and order, RESET, STATUS, the survey
limit and the wake. -/

namespace Sys2Proof.Machine

/-! ### SET STATE (R151 to R157) -/

/-- The target of SET STATE (10.3). -/
def targetOf (target : Byte) : Option OpState :=
  match target.toNat with
  | 1 => some .hold | 2 => some .operate | 3 => some .night | _ => none

/-- The DONE answer of SET STATE (10.4): the operating state once the order has been taken, and in WAKING the requested one. -/
def State.setStateDone (noChange : Bool) (s : State) : Reply :=
  let r := s.osc.wake.map (fun k => k.requested.opState.code)
  ⟨.done, [byte (bit 1 r.isSome + bit 2 noChange), byte s.osc.opState.code, byte (orZero r)]⟩

/-- The entry to OPERATE from HOLD (R152). -/
def State.enterOperate (s : State) : State := { s with osc := { s.osc with opState := .operate, cause := .order } }.stateEvent

/-- The entry to NIGHT (R153, R97). -/
def State.enterNight (s : State) : State :=
  let s1 := { s with osc := { s.osc with opState := .night, cause := .order } }
  (s1.change (fun w => w.staleAll s1.env)).stateEvent

/-- The entry to WAKING (R156). -/
def State.enterWaking (r : Requested) (s : State) : State :=
  { s with osc := { s.osc with opState := .waking, wake := some ⟨r, 0, s.now⟩, cause := .order } }.stateEvent

/-- Carries out a SET STATE that has passed its checks (R152, R153, R156). -/
def State.enterState (target : OpState) (s : State) : State :=
  match target with
  | .hold => if s.osc.opState = .night then s.enterWaking .hold else s.enterHold .order
  | .operate => if s.osc.opState = .night then s.enterWaking .operate else s.enterOperate
  | .night => s.enterNight
  | .survey | .waking => s

/-- SET STATE at its taking (R151). -/
def State.setStateOrder (target : Byte) (s : State) : Reply × State :=
  match targetOf target with
  | none => (.plain .range, s)
  | some t =>
    if s.osc.opState = .waking then (.plain .notReady, s)
    else if s.osc.opState = .survey then (.plain .state, s)
    else if s.osc.opState = t then (s.setStateDone true, s)
    else if t = .operate ∧ s.osc.fieldSafe = true then (.plain .safe, s)
    else
      match (if t = .night then s.field.nightFact else none) with
      | some fact => (⟨.inUse, [byte fact.code]⟩, s)
      | none =>
        let s1 := (s.enterState t).kick
        (s1.setStateDone false, s1)

/-! ### Field-safe (R158 to R161) -/

/-- The onset at an assertion taken at FSAFE_N (R158, R159). -/
def State.takeAssert (s : State) : State := (s.safeOnset true).kick

/-- FSAFE_ASSERT (R158): the asserted level is taken once the tables are loaded; until then only the pin stands low. -/
def execFsafeAssert (s : State) : Host.Outcome State Fault Refusal :=
  .next <|
    let s1 := { s with fsafeAsserted := true }
    if s.isRunning && !s.osc.fieldSafe then s1.takeAssert else s1

/-- FSAFE_RELEASE (R158): the released level is taken, and the operating state is kept. -/
def execFsafeRelease (s : State) : Host.Outcome State Fault Refusal :=
  .next <|
    let s1 := { s with fsafeAsserted := false }
    if s.isRunning && s.osc.fieldSafe then
      { s1 with osc := { s.osc with fieldSafe := false, cause := .safeClear } }.stateEvent
    else s1

/-- FIELD DEFOCUS at its taking (R161): the onset actions without the condition; a change of the operating or the
requested state carries cause SAFE and queues a STATE EVENT. -/
def State.fieldDefocusOrder (s : State) : Reply × State :=
  let n := (Work.of s.field).safeCounts s.env
  (⟨.done, byte n.1 :: be16 n.2.1 ++ be16 n.2.2⟩, (s.safeOnset false).kick)

/-! ### RESET (R162, R174) -/

/-- RESET (R162): refused IN_USE, or answered DONE with an answer whose sending makes the soft reset (R174). -/
def execReset (tag : Byte) (s : State) : Host.Outcome State Fault Refusal :=
  .next <|
    if s.takes (.reset tag) then
      let s1 := s.popFrame
      match s.resetFact with
      | some fact => s1.answer tag 0x15#8 ⟨.inUse, [byte fact.code]⟩
      | none => { s1 with ulp := { s1.ulp with waiting := some ⟨answerBody tag 0x15#8 (.plain .done), true⟩ } }
    else s

/-! ### STATUS (R164, 10.6) -/

/-- How many heliostats satisfy a condition that no absent record satisfies. -/
def Field.countHelio (p : HelioRun → Bool) (f : Field) : Nat := (f.helio.filter (fun e => p e.2)).length

/-- A remaining time in 0.1 s, rounded up (log entry 20). -/
def tenthsLeft (now ends : Nat) : Nat := (ends - now + 99) / 100

/-- The parameters of a STATUS answer from body byte 4 (10.6). -/
def State.statusBytes (s : State) : List Byte :=
  let o := s.osc
  let f := s.field
  [byte o.opState.code,
    byte (bit 1 o.wake.isSome + bit 2 o.wake.isSome + bit 4 o.surveyEnds.isSome + bit 8 o.fieldSafe + bit 16 o.fieldSafe
      + bit 32 s.limitLock + bit 64 s.watchOn + bit 128 f.trip.asserted),
    byte (bit 1 s.tripActive + bit 2 f.arbiter.active.isSome + bit 4 s.ulp.lastError.isSome),
    byte (orZero (o.wake.map (fun k => k.requested.opState.code))), byte (orZero (o.wake.map Wake.count))]
    ++ be16 (orZero (o.surveyEnds.map (tenthsLeft s.now)))
    ++ [byte o.cause.code] ++ be16 o.adopted ++ be16 o.atRest ++ be16 o.leftLost
    ++ be16 (f.countHelio HelioRun.holdsLoad) ++ be16 (f.countHelio HelioRun.accountedLost)
    ++ be16 (f.countHelio HelioRun.unaccountedLost) ++ be16 (f.countHelio (fun r => r.state == .faulted))
    ++ be16 (f.countHelio (fun r => r.state == .silent))
    ++ [byte (orZero f.arbiter.active), byte ((f.slot.filter (fun p => p.2.state.nonIdle)).length)]
    ++ (List.range Config.segments).map (fun g => byte (f.sxeAt g).queue.length)
    ++ [byte f.reports.queue.length, byte (orZero (f.nightFact.map Fact.code)),
      byte (orZero (s.ulp.lastError.map UplinkError.code))]

/-- STATUS at its taking (R164, R169): the last-error cause is removed once returned. -/
def State.statusOrder (s : State) : Reply × State :=
  (⟨.done, s.statusBytes⟩, { s with ulp := { s.ulp with lastError := none } })

/-! ### The survey limit (R149) -/

/-- The present heliostats still UNSURE, in ascending index. -/
def State.unsureList (s : State) : List Nat := s.env.all.filter (fun h => (s.field.run h).state == .unsure)

/-- A heliostat still UNSURE at the survey limit becomes LOST unaccounted (R149). -/
def Work.giveUp (env : Env) (h : Nat) (w : Work) : Work :=
  let r := w.fld.run h
  if r.state = .unsure then w.put env h (r.by (some .survey) { r.clearOwed with state := .lost, unaccounted := true }) else w

/-- SURVEY_LIMIT (R149): the survey timer runs out. -/
def execSurveyLimit (s : State) : Host.Outcome State Fault Refusal :=
  .next <|
    match s.osc.surveyEnds with
    | some t =>
      if s.isRunning then
        let s1 := s.advanceTo t
        let hs := s1.unsureList
        let s2 := s1.change (fun w => hs.foldl (fun (w : Work) h => w.giveUp s1.env h) w)
        let n := (hs.filter (fun h => h ∉ s1.osc.counted)).length
        (({ s2 with osc := { s2.osc with leftLost := s2.osc.leftLost + n } }).enterHold .surveyLimit).kick
      else s
    | none => s

/-! ### The wake (R157) -/

/-- WAKE_SETTLE_TICK (R157): the wake settle count rises by 1. -/
def execWakeSettleTick (s : State) : Host.Outcome State Fault Refusal :=
  .next <|
    match s.osc.wake with
    | some k =>
      if s.isRunning && decide (k.count < Config.wakeSteps) then
        { s.advanceTo (k.since + Config.wakeStepMs * (k.count + 1)) with
          osc := { s.osc with wake := some { k with count := k.count + 1 } } }
      else s
    | none => s

/-- The state becomes the requested state, cause WAKE DONE (R157). -/
def State.completeWake (k : Wake) (s : State) : State :=
  match k.requested with
  | .hold => s.enterHold .wakeDone
  | .operate => { s with osc := { s.osc with opState := .operate, wake := none, cause := .wakeDone } }.stateEvent

/-- WAKE_DONE (R157): the wake settle count reaches 8 (or has reached it at the last WAKE_SETTLE_TICK, log entry 8). -/
def execWakeDone (s : State) : Host.Outcome State Fault Refusal :=
  .next <|
    match s.osc.wake with
    | some k =>
      if s.isRunning && decide (Config.wakeSteps ≤ k.count + 1) then
        (s.advanceTo (k.since + Config.wakeStepMs * Config.wakeSteps)).completeWake k
      else s
    | none => s

/-! ### The orders' meanings -/

/-- SET STATE (R151). -/
def execSetState (tag target : Byte) (s : State) : Host.Outcome State Fault Refusal :=
  .next (s.order (.setState tag target) tag 0x13#8 (State.setStateOrder target))

/-- FIELD DEFOCUS (R161). -/
def execFieldDefocus (tag : Byte) (s : State) : Host.Outcome State Fault Refusal :=
  .next (s.order (.fieldDefocus tag) tag 0x14#8 State.fieldDefocusOrder)

/-- STATUS (R164). -/
def execStatus (tag : Byte) (s : State) : Host.Outcome State Fault Refusal :=
  .next (s.order (.status tag) tag 0x16#8 State.statusOrder)

end Sys2Proof.Machine
end

