-- ==== Sys2Proof/Machine/TableStore.lean ====
section
/-! DEFINITION. The Table Store (chapter 9): TABLE WRITE and its checks, the commit, TABLE READ, and protection. -/

namespace Sys2Proof.Machine

/-! ### Records into the tables (R185, R187) -/

/-- The tables with one record written at its index (R185). -/
def Tables.withRecord (t : Tables) (i : Nat) : Record → Tables
  | .helio c => { t with helio := Table.set Config.heliostats HelioConfig.blank t.helio i c }
  | .aim a => { t with aim := Table.set Config.aimPoints AimPoint.blank t.aim i a }
  | .standby p => { t with standby := Table.set Config.standbyPoints StandbyPoint.blank t.standby i p }
  | .zone c => { t with zone := Table.set Config.zones ZoneConfig.blank t.zone i c }
  | .slewLimit n => { t with slewLimit := n }
  | .critical n => { t with critical := Table.set Config.zones criticalBlank t.critical i n }
  | .watch w => { t with watch := w }

/-- The record of index `i` of a table. -/
def Tables.recordAt (t : Tables) (id : TableId) (i : Nat) : Record :=
  match id with
  | .heliostat => .helio (t.helioAt i)
  | .aim => .aim (t.aimAt i)
  | .standby => .standby (t.standbyAt i)
  | .zone => .zone (t.zoneAt i)
  | .field => .slewLimit t.slewLimit
  | .critical => .critical (t.criticalAt i)
  | .watch => .watch t.watch

/-- The tables `t` with the page that starts at `first` taken whole from `src` (R187). -/
def Tables.copyPage (id : TableId) (first : Nat) (t src : Tables) : Tables :=
  (List.range' first (pageLast id first + 1 - first)).foldl (fun (t : Tables) i => t.withRecord i (src.recordAt id i)) t

/-! ### The checks of TABLE WRITE (R181 to R184) -/

/-- Does a range of records lie outside its table, or leave the page of its first index (R181 check 2, R188)? -/
def rangeRefused (t : TableId) (first n : Nat) : Bool :=
  decide (t.size ≤ first) || n == 0 || decide (16 < n) || decide (pageLast t first < first + n - 1)

/-- Do two heliostat records clash: present, of one segment, with one drive address (R183)? -/
def HelioConfig.clashes (c d : HelioConfig) : Bool :=
  c.present && d.present && c.segment == d.segment && c.address == d.address

/-- Does record `i` of a write clash with another record, as the tables would be once the write was taken (R183)? -/
def Tables.duplicate (t : Tables) (written : List (Nat × List Byte)) (i : Nat) : Record → Bool
  | .helio c =>
    written.any (fun p => p.1 != i && c.clashes (readHelio p.2))
      || t.helio.any (fun p => !(written.any (fun q => q.1 == p.1)) && c.clashes p.2)
  | .aim _ | .standby _ | .zone _ | .slewLimit _ | .critical _ | .watch _ => false

/-- The first fact by which a heliostat's present, segment, drive address, weight and standby point are in use (R184). -/
def HelioRun.useFact (r : HelioRun) : Option Fact :=
  if r.holdsLoad then some .load
  else if r.queued then some .queued
  else if r.owed.isSome then some .owed
  else if r.inFlight then some .inFlight
  else none

/-- Would a write change a heliostat's present, segment, drive address, weight or standby point (R184)? -/
def HelioConfig.coreDiffers (c d : HelioConfig) : Bool :=
  c.present != d.present || c.segment != d.segment || c.address != d.address || c.weight != d.weight
    || c.standby != d.standby

/-- The fact by which writing a record at index `i` would change a field in use (R184). -/
def State.writeFact (s : State) (i : Nat) : Record → Option Fact
  | .helio c =>
    let old := s.live.helioAt i
    match (if old.coreDiffers c then (s.field.run i).useFact else none) with
    | some fact => some fact
    | none => if old.group != c.group && s.field.anyNonIdle then some .program else none
  | .aim _ => if 0 < s.field.refAt i then some .referenced else none
  | .standby _ | .zone _ | .slewLimit _ | .critical _ | .watch _ => none

/-- The refusal of one record of a write (R181 check 7): its ranges, then duplicates, then use. -/
def State.recordRefusal (s : State) (t : TableId) (written : List (Nat × List Byte)) (p : Nat × List Byte) : Option Reply :=
  match readRecord t p.2 with
  | none => some ⟨.range, 1#8 :: be16 p.1⟩
  | some rec =>
    if s.live.duplicate written p.1 rec then some ⟨.duplicate, 1#8 :: be16 p.1⟩
    else (s.writeFact p.1 rec).map (fun fact => ⟨.inUse, byte fact.code :: be16 p.1⟩)

/-- The refusal of a write of a known table with as many records as its count (R181 checks 2 to 7), the per-record
checks record by record in ascending index (log entry 24). -/
def State.writeRefusal (s : State) (t : TableId) (first : Nat) (written : List (Nat × List Byte)) : Option Reply :=
  if rangeRefused t first written.length then some ⟨.range, [0#8, 0#8, 0#8]⟩
  else if s.commit.isSome then some (.plain .notReady)
  else if t = .heliostat ∧ (s.osc.opState = .survey ∨ s.osc.opState = .waking) then some (.plain .state)
  else if s.marks.has (blockOfIndex t first) then some (.plain .blockProtected)
  else if blockOfIndex t first = .limit ∧ s.limitLock = true then some (.plain .locked)
  else written.findSome? (s.recordRefusal t written)

/-! ### The effects of an accepted write (R185) -/

/-- A heliostat record made present or absent by a write takes its reset values (R1, R3), a change with cause ORDER. -/
def Work.presence (env : Env) (h : Nat) (before now_ : Bool) (w : Work) : Work :=
  if before = now_ then w
  else
    let r := w.fld.run h
    w.put env h (r.by (some .order) { HelioRun.blank with state := if now_ then .unsure else .absent })

/-- The latch and the TRIP EVENT at a write of the watch settings (R98, R101). -/
def Work.rewatch (old new : WatchSettings) (w : Work) : Work :=
  let t := w.fld.trip
  let w1 :=
    if new.mode = .latch ∧ old.mode ≠ .latch then
      { w with fld := { w.fld with trip := { t with latch := t.critical || t.nonCritical } } }
    else w
  if old.mode = new.mode ∧ old.activeHigh = new.activeHigh ∧ old.enabled = new.enabled then w1 else w1.report .trip

/-- What one written record changes at once in the field (R185), where `old` is the live tables before the write. -/
def Work.afterRecord (env : Env) (old : Tables) (w : Work) (p : Nat × Record) : Work :=
  match p.2 with
  | .helio c => w.presence env p.1 (old.helioAt p.1).present c.present
  | .zone _ => w.rebudget env p.1
  | .watch s => w.rewatch old.watch s
  | .aim _ | .standby _ | .slewLimit _ | .critical _ => w

/-- The records of a write that has passed its checks. -/
def goodRecords (t : TableId) (written : List (Nat × List Byte)) : List (Nat × Record) :=
  written.filterMap (fun p => (readRecord t p.2).map (fun r => (p.1, r)))

/-- Accepts a write (R185, R186): the live records are replaced, what they change at once is made as one change, and the
commit of the page begins. -/
def State.acceptWrite (t : TableId) (first : Nat) (written : List (Nat × List Byte)) (s : State) : State :=
  let records := goodRecords t written
  let old := s.live
  let s1 :=
    { s with
      live := records.foldl (fun (l : Tables) (p : Nat × Record) => l.withRecord p.1 p.2) s.live
      commit := some (.page t (pageStart first)) }
  (s1.change (fun w => records.foldl (Work.afterRecord s1.env old) w)).kick

/-- TABLE WRITE at its taking (R181). -/
def State.tableWriteOrder (table : Byte) (first : Half) (count : Byte) (records : List Byte) (s : State) : Reply × State :=
  match tableOf table with
  | none => (.plain .format, s)
  | some t =>
    let n := count.toNat
    if records.length ≠ recordSize t * n then (.plain .format, s)
    else
      let written := (List.range' first.toNat n).zip (cutRecords (recordSize t) n records)
      match s.writeRefusal t first.toNat written with
      | some r => (r, s)
      | none => (⟨.done, [count]⟩, s.acceptWrite t first.toNat written)

/-- TABLE READ at its taking (R188). -/
def State.tableReadOrder (table : Byte) (first : Half) (count : Byte) (s : State) : Reply × State :=
  match tableOf table with
  | none => (.plain .format, s)
  | some t =>
    if rangeRefused t first.toNat count.toNat then (.plain .range, s)
    else
      (⟨.done, [table] ++ halfBytes first ++ [count]
          ++ (List.range' first.toNat count.toNat).flatMap (liveRecord s.live t)⟩, s)

/-! ### The commit (R186, R187) -/

/-- The store with a page, or the marks, replaced whole by the live copy; what is replaced is no longer damaged. -/
def Store.commit (p : PageRef) (live : Tables) (marks : ProtMarks) (st : Store) : Store :=
  match p with
  | .page t first => { st with tables := st.tables.copyPage t first live, damaged := st.damaged.filter (· != p) }
  | .marks => { st with marks := marks, damaged := st.damaged.filter (· != p) }

/-- COMMIT_DONE (R186): the store holds the new page, and the page leaves the load-fault list. -/
def execCommitDone (s : State) : Host.Outcome State Fault Refusal :=
  .next <|
    match s.commit with
    | some p =>
      if s.isRunning then
        { s with store := s.store.commit p s.live s.marks, commit := none, loadFaults := s.loadFaults.filter (· != p) }
      else s
    | none => s

/-! ### Protection (R189, R190) -/

/-- PROTECT at its taking (R189). -/
def State.protectOrder (block : Byte) (s : State) : Reply × State :=
  match blockOf block with
  | none => (.plain .range, s)
  | some b =>
    if s.commit.isSome then (.plain .notReady, s)
    else if s.marks.has b then (⟨.done, [1#8]⟩, s)
    else (⟨.done, [0#8]⟩, { s with marks := s.marks.withBlock b, commit := some .marks })

/-- UNPROTECT ALL at its taking (R189). -/
def State.unprotectAllOrder (s : State) : Reply × State :=
  if s.commit.isSome then (.plain .notReady, s)
  else if s.marks = ProtMarks.none then (⟨.done, [1#8]⟩, s)
  else (⟨.done, [0#8]⟩, { s with marks := ProtMarks.none, commit := some .marks })

/-- The marks as a byte, bit n for block code n (10.6). -/
def ProtMarks.code (m : ProtMarks) : Nat :=
  bit 1 m.ht0 + bit 2 m.ht1 + bit 4 m.ht2 + bit 8 m.ht3 + bit 16 m.apt + bit 32 m.sbt + bit 64 m.zone + bit 128 m.limit

/-- A page as a table code and a first index; the marks as table FFh, index 0 (10.6). -/
def PageRef.entry : PageRef → List Byte
  | .page t first => byte (tableCode t) :: be16 first
  | .marks => [0xFF#8, 0#8, 0#8]

/-- The commit in progress as PROTECTION STATUS bytes 5 to 8 (10.6). -/
def commitBytes : Option PageRef → List Byte
  | none => [0#8, 0#8, 0#8, 0#8]
  | some (.page t first) => 1#8 :: byte (tableCode t) :: be16 first
  | some .marks => [2#8, 0#8, 0#8, 0#8]

/-- PROTECTION STATUS at its taking (R190). -/
def State.protectionStatusOrder (s : State) : Reply × State :=
  let carried := s.loadFaults.take 32
  (⟨.done, [byte s.marks.code] ++ commitBytes s.commit ++ be16 s.loadFaults.length ++ [byte carried.length]
      ++ carried.flatMap PageRef.entry⟩, s)

/-! ### The meanings -/

/-- TABLE WRITE (R181). -/
def execTableWrite (tag table : Byte) (first : Half) (count : Byte) (records : List Byte) (s : State) :
    Host.Outcome State Fault Refusal :=
  .next (s.order (.tableWrite tag table first count records) tag 0x17#8 (State.tableWriteOrder table first count records))

/-- TABLE READ (R188). -/
def execTableRead (tag table : Byte) (first : Half) (count : Byte) (s : State) : Host.Outcome State Fault Refusal :=
  .next (s.order (.tableRead tag table first count) tag 0x18#8 (State.tableReadOrder table first count))

/-- PROTECT (R189). -/
def execProtect (tag block : Byte) (s : State) : Host.Outcome State Fault Refusal :=
  .next (s.order (.protect tag block) tag 0x19#8 (State.protectOrder block))

/-- UNPROTECT ALL (R189). -/
def execUnprotectAll (tag : Byte) (s : State) : Host.Outcome State Fault Refusal :=
  .next (s.order (.unprotectAll tag) tag 0x1A#8 State.unprotectAllOrder)

/-- PROTECTION STATUS (R190). -/
def execProtectionStatus (tag : Byte) (s : State) : Host.Outcome State Fault Refusal :=
  .next (s.order (.protectionStatus tag) tag 0x1B#8 State.protectionStatusOrder)

end Sys2Proof.Machine
end

