-- ==== Sys2Proof/Machine/Resets.lean ====
section
/-! DEFINITION. Resets (R146), the loading of the live tables (R180), the entry to SURVEY (R147) and the soft reset (R163). -/

namespace Sys2Proof.Machine

/-! ### In reset (R146) -/

/-- A slot with its WAIT timer stopped. -/
def Slot.stopTimer (v : Slot) : Slot :=
  match v.waitingOn with
  | some (.timer _) => { v with waitingOn := none }
  | some .settle | some (.offReceiver _) | some (.queueSpace _ _ _) | none => v

/-- Every exchange is abandoned and every timer of the field stopped (R146, R84). -/
def Field.halt (f : Field) : Field :=
  { f with
    helio := Table.map HelioRun.blank (fun r => { r with slewEnds := none }) f.helio
    zone := Table.map ZoneRun.blank (fun v => { v with staleEnds := none }) f.zone
    sxe := Table.map Sxe.blank (fun x => { x with exchange := none }) f.sxe
    slot := Table.map Slot.blank Slot.stopTimer f.slot }

/-- The part enters reset (R146): every block stops where it stands, a frame being sent is cut off (R178), and a commit in
progress is abandoned (R187). -/
def State.enterReset (kind : ResetKind) (s : State) : State :=
  { s with
    phase := .inReset kind, commit := none, ulp := { s.ulp with tx := none }
    osc := { s.osc with surveyEnds := none }, field := s.field.halt }

/-- POWER_ON_RESET (R146, R99): also clears the limit lock. -/
def execPowerOnReset (s : State) : Host.Outcome State Fault Refusal :=
  .next { s.enterReset .powerOn with limitLock := false }

/-- PIN_RESET (R146). A power-on reset that has not ended stays one (log entry 22). -/
def execPinReset (s : State) : Host.Outcome State Fault Refusal :=
  .next (s.enterReset (if s.phase = .inReset .powerOn then .powerOn else .pin))

/-- RESET_RELEASE (R146, R180): the reset ends and the loading begins, with the load-fault list emptied. -/
def execResetRelease (s : State) : Host.Outcome State Fault Refusal :=
  .next <|
    match s.phase with
    | .inReset kind => { s with phase := .loading kind, loadFaults := [] }
    | .loading _ | .running => s

/-! ### The loading (R180) -/

/-- The pages of a table in ascending order. -/
def pagesOf (t : TableId) : List PageRef :=
  (List.range ((t.size + Config.pageSize - 1) / Config.pageSize)).map (fun k => .page t (Config.pageSize * k))

/-- Everything that is loaded, in the order of loading: the tables in the order of their codes, then the marks (log entry 18). -/
def allPages : List PageRef :=
  [TableId.heliostat, .aim, .standby, .zone, .field, .critical, .watch].flatMap pagesOf ++ [.marks]

/-- A page that fails its check is loaded at its blank values (R180). -/
def Tables.blankPage (t : Tables) : PageRef → Tables
  | .page id first => t.copyPage id first Tables.blank
  | .marks => t

/-- The store after damage is found: a page stays damaged until it is committed. -/
def Store.damage (pages : List PageRef) (st : Store) : Store :=
  { st with damaged := allPages.filter (fun p => p ∈ st.damaged ∨ p ∈ pages) }

/-- The live tables and marks loaded from the store, and the load-fault list (R180, R192). -/
def State.loadTables (s : State) : State :=
  { s with
    live := s.store.damaged.foldl Tables.blankPage s.store.tables
    marks := if .marks ∈ s.store.damaged then ProtMarks.all else s.store.marks
    loadFaults := s.store.damaged, commit := none }

/-! ### The state after a reset -/

/-- A present heliostat after a reset (R3); `r` gives the flags that are kept. -/
def HelioRun.afterReset (r : HelioRun) : HelioRun :=
  { HelioRun.blank with state := .unsure, inhibit := r.inhibit, maint := r.maint, localControl := r.localControl }

/-- A zone after a reset (R53, R105): STALE, its ceiling kept, its budget recomputed. -/
def ZoneRun.afterReset (c : ZoneConfig) (watchOn : Bool) (v : ZoneRun) : ZoneRun :=
  let v1 := { ZoneRun.blank with ceiling := v.ceiling }
  { v1 with budget := budgetOf c watchOn v1 }

/-- A slot after a reset (R130): its program kept, LOADED or EMPTY. -/
def Slot.afterReset (v : Slot) : Slot :=
  { v with state := if v.steps.isEmpty then .empty else .loaded, settleSet := [], waitingOn := none }

/-- The field after a reset (R3, R53, R84, R105, R130, R178). `kept` is the field whose flags, ceilings and programs are
kept: the field as it stands at a soft reset, the blank field at a power-on or pin reset. -/
def Field.afterReset (live : Tables) (watchOn : Bool) (kept : Field) : Field :=
  { Field.blank with
    helio := live.present.map (fun p => (p.1, (kept.run p.1).afterReset))
    zone := (List.range Config.zones).foldl
      (fun t z => Table.set Config.zones ZoneRun.blank t z ((kept.zoneAt z).afterReset (live.zoneAt z) watchOn)) []
    slot := Table.map Slot.blank Slot.afterReset kept.slot }

/-- The entry to SURVEY (R147): FSAFE_N is sampled, its onset actions finding nothing to change, and the STATE EVENT is
queued first (R177); a survey with no UNSURE heliostat ends at once (R149); then each SXE makes its first choice (R84). The level sampled is that of the last
FSAFE command (log entry 3), and the state cause is the reset's whatever it shows (log entry 33). -/
def State.enterSurvey (cause : StateCause) (s : State) : State :=
  let s1 :=
    { s with
      osc :=
        { opState := .survey, wake := none, surveyEnds := some (s.now + Config.surveyMs), adopted := 0, atRest := 0,
          leftLost := 0, counted := [], fieldSafe := s.fsafeAsserted, cause := cause } }.stateEvent
  (if s1.anyUnsure then s1 else s1.surveyDone).kick

/-- The state cause of a hard reset (R146). -/
def ResetKind.cause : ResetKind → StateCause
  | .powerOn => .powerOn
  | .pin => .pinReset

/-- Every block takes its state after a power-on or pin reset (R146), and the OSC enters SURVEY. The hunt on the sensor line begins
here, so a sensor frame that began to arrive during the loading is lost, a point R86 and R146 leave open (log entry 43). -/
def State.comeUp (kind : ResetKind) (s : State) : State :=
  { s with
    phase := .running, watchOn := true, sensorRx := none, ulp := Ulp.blank
    field := Field.blank.afterReset s.live true }.enterSurvey kind.cause

/-- TABLE_LOADING_DONE (R180): the loading that is under way completes. -/
def execTableLoadingDone (damaged : List PageRef) (s : State) : Host.Outcome State Fault Refusal :=
  .next <|
    match s.phase with
    | .loading kind => ({ s with store := s.store.damage damaged }.loadTables).comeUp kind
    | .inReset _ | .running => s

/-- The soft reset (R163): every block takes its state after a soft reset; the receive buffer, the tables, the watch, the
limit lock and a commit under way are kept. A sensor frame being collected goes on being collected, a point R105 and R163
leave open (log entry 37). -/
def State.softReset (s : State) : State :=
  { s with
    field := s.field.afterReset s.live s.watchOn
    ulp := { s.ulp with waiting := none, deferred := [], readyOrder := [], tx := none } }.enterSurvey .softReset

end Sys2Proof.Machine
end

