-- ==== Sys2Proof/Machine/Zones.lean ====
section
/-! DEFINITION. The orders that name zones: SET CEILING (R49) and READ ZONE (R50). -/

namespace Sys2Proof.Machine

/-- SET CEILING at its taking (R49). -/
def State.setCeilingOrder (first last : Byte) (value : Tri) (s : State) : Reply × State :=
  match readCeiling value.toNat with
  | none => (.plain .range, s)
  | some v =>
    if last.toNat < Config.zones ∧ first.toNat ≤ last.toNat then
      (⟨.done, [byte ((Work.of s.field).setCeilings s.env first.toNat last.toNat v).2]⟩,
        (s.change (fun w => (w.setCeilings s.env first.toNat last.toNat v).1)).kick)
    else (.plain .range, s)

/-- The conditions byte of ZONE EVENT, also of READ ZONE without its bit 7 (10.5, 10.6). -/
def ZoneRun.conditionsCode (v : ZoneRun) : Nat :=
  bit 1 v.overBudget + bit 2 v.unsheddable + bit 4 v.warn + bit 8 v.critical + bit 16 v.stale + bit 32 v.ceiling.isSome
    + bit 64 v.lastReading.isSome

/-- The parameters of a READ ZONE answer from body byte 4 (10.6). -/
def zoneReading (watchOn : Bool) (z : Nat) (c : ZoneConfig) (limit : Nat) (v : ZoneRun) : List Byte :=
  [byte z, byte (v.conditionsCode + bit 128 watchOn)] ++ be24 v.committed ++ be24 v.pending ++ be24 v.budget
    ++ be24 (orZero v.ceiling) ++ signed24 v.margin ++ be24 c.base ++ be24 c.fallback ++ [byte c.derate]
    ++ be16 c.warnLimit ++ be16 limit ++ be16 (orZero v.lastReading)

/-- READ ZONE at its taking (R50). -/
def State.readZoneOrder (zone : Byte) (s : State) : Reply × State :=
  let z := zone.toNat
  if z < Config.zones then
    (⟨.done, zoneReading s.watchOn z (s.live.zoneAt z) (s.live.criticalAt z) (s.field.zoneAt z)⟩, s)
  else (.plain .range, s)

/-- SET CEILING (R49). -/
def execSetCeiling (tag first last : Byte) (value : Tri) (s : State) : Host.Outcome State Fault Refusal :=
  .next (s.order (.setCeiling tag first last value) tag 0x02#8 (State.setCeilingOrder first last value))

/-- READ ZONE (R50). -/
def execReadZone (tag zone : Byte) (s : State) : Host.Outcome State Fault Refusal :=
  .next (s.order (.readZone tag zone) tag 0x03#8 (State.readZoneOrder zone))

end Sys2Proof.Machine
end

