-- ==== Sys2Proof/Machine/Uplink.lean ====
section
/-! DEFINITION. The Uplink Port (chapter 8): the receiver, the taking of a frame that is no order, the transmitter, and the
report bodies (10.5). -/

namespace Sys2Proof.Machine

/-! ### The receiver (R168, R169) -/

/-- A discard (R169): hunting resumes and the last-error cause is set. -/
def Ulp.discard (cause : UplinkError) (u : Ulp) : Ulp := { u with rx := none, lastError := some cause }

/-- Judges a frame at its last byte, `bytes` being its length byte, its body and its check (R168). -/
def Ulp.judgeFrame (bytes : List Byte) (u : Ulp) : Ulp :=
  let n := (bytes.headD 0#8).toNat
  let body := (bytes.drop 1).take n
  if bytes.drop (n + 1) ≠ halfBytes (crc16 (bytes.take (n + 1))) then u.discard .crc
  else if !lengthPermitted (body.headD 0#8) n then u.discard .length
  else if Config.rxFrames ≤ u.rxBuf.length then u.discard .overrun
  else { u with rx := none, rxBuf := u.rxBuf ++ [body] }

/-- One byte on ULP_RXD (R168): hunting for C3h, the length byte, then the body and the check. -/
def Ulp.receive (u : Ulp) (b : Byte) : Ulp :=
  match u.rx with
  | none => if b = 0xC3#8 then { u with rx := some [] } else u
  | some [] => if 2 ≤ b.toNat ∧ b.toNat ≤ 240 then { u with rx := some [b] } else u.discard .length
  | some (len :: rest) =>
    let bytes := len :: rest ++ [b]
    if bytes.length < len.toNat + 3 then { u with rx := some bytes } else u.judgeFrame bytes

/-- UPLINK_FRAME (R168): the bytes arrive one after another. Before the tables are loaded they are ignored. -/
def execUplinkFrame (bytes : List Byte) (s : State) : Host.Outcome State Fault Refusal :=
  .next (if s.isRunning then { s with ulp := bytes.foldl Ulp.receive s.ulp } else s)

/-- UPLINK_GAP_LIMIT (R168): more than 1 ms has passed inside a frame being collected. -/
def execUplinkGapLimit (s : State) : Host.Outcome State Fault Refusal :=
  .next (if s.isRunning && s.ulp.rx.isSome then { s with ulp := s.ulp.discard .gap } else s)

/-- TAKE_NON_ORDER_FRAME (R171): the oldest buffered frame, of a kind that is no order kind, is taken and answered FORMAT. -/
def execTakeNonOrderFrame (s : State) : Host.Outcome State Fault Refusal :=
  .next <|
    match s.ulp.rxBuf with
    | (kind :: tag :: _) :: _ =>
      if s.mayTake && !isOrderKind kind then s.popFrame.answer tag kind (.plain .format) else s
    | _ => s

/-! ### Report bodies (10.5) -/

/-- HELIO EVENT (R18). -/
def helioEvent (h : Nat) (r : HelioRun) : List Byte :=
  [0x81#8, 0#8] ++ be16 h
    ++ [byte (bit 1 r.granted.isSome + bit 2 r.leaving.isSome + bit 4 r.destination.isSome + bit 8 r.fault.isSome
        + bit 16 (r.fault.bind FaultCause.driveCode).isSome),
      byte r.state.code, byte (orZero r.granted), byte (orZero r.leaving), byte (destCode r.destination),
      byte (motionCode r.owed), byte r.owedCause]
    ++ r.faultBytes
    ++ [byte (bit 1 r.inhibit + bit 2 r.maint + bit 4 r.localControl + bit 8 r.unaccounted),
      byte (causeOrZero r.lastCause)]

/-- The change marks byte of a ZONE EVENT (10.5). -/
def ZoneMarks.code (m : ZoneMarks) : Nat :=
  bit 1 m.overBudget + bit 2 m.unsheddable + bit 4 m.budget + bit 8 m.ceiling + bit 16 m.warn + bit 32 m.critical
    + bit 64 m.stale

/-- ZONE EVENT (R52). -/
def zoneEvent (z : Nat) (v : ZoneRun) : List Byte :=
  [0x82#8, 0#8, byte z, byte v.marks.code, byte v.conditionsCode] ++ be24 v.committed ++ be24 v.pending
    ++ be24 v.budget ++ be24 (orZero v.ceiling) ++ be16 (orZero v.lastReading)

/-- PROGRAM END (R128): the first 4 residual entries, those beyond the count sent as 0. -/
def programEnd (k : Nat) (v : Slot) : List Byte :=
  [0x83#8, 0#8, byte k, byte v.state.code,
    byte (bit 1 v.level.isSome + bit 2 v.startTag.isSome + bit 4 v.endCause.isSome), byte (orZero v.level),
    v.startTag.getD 0#8, byte v.current] ++ be16 v.executed
    ++ [byte (endCode v.endCause), byte v.flags.code]
    ++ be16 v.residual.length ++ ((v.residual.take 4).flatMap residualBytes ++ List.replicate 12 0#8).take 12

/-- STATE EVENT (R165). -/
def State.stateEventBody (s : State) : List Byte :=
  let o := s.osc
  [0x84#8, 0#8, byte o.opState.code, byte (bit 1 o.wake.isSome + bit 2 o.fieldSafe),
    byte (orZero (o.wake.map (fun k => k.requested.opState.code))), byte o.cause.code]
    ++ be16 o.adopted ++ be16 o.atRest ++ be16 o.leftLost ++ be16 (s.field.countHelio HelioRun.holdsLoad)
    ++ be16 (s.field.countHelio HelioRun.unaccountedLost)

/-- TRIP EVENT (R104). -/
def State.tripEventBody (s : State) : List Byte :=
  let w := s.live.watch
  let t := s.field.trip
  [0x85#8, 0#8, byte (4 * w.mode.code + bit 16 w.activeHigh + bit 32 w.enabled),
    byte (bit 1 t.critical + bit 2 t.nonCritical + bit 4 t.latch + bit 8 t.asserted + bit 16 s.tripActive),
    byte ((s.field.zone.filter (fun p => p.2.critical)).length),
    byte ((s.field.zone.filter (fun p => p.2.unsheddable)).length)]
    ++ be16 (s.field.countHelio HelioRun.accountedLost)

/-- The body of a source's report as the source stands (R175, R177). -/
def State.reportBody (s : State) : Source → List Byte
  | .helio h => helioEvent h (s.field.run h)
  | .zone z => zoneEvent z (s.field.zoneAt z)
  | .slot k => programEnd k (s.field.slotAt k)
  | .opState => s.stateEventBody
  | .trip => s.tripEventBody

/-! ### The transmitter (R174 to R177) -/

/-- Is the taking of a frame due, which comes before a deferred answer or a report (R170, R174, log entry 9)? -/
def State.takingDue (s : State) : Bool := s.mayTake && !s.ulp.rxBuf.isEmpty

/-- Begins sending a body's frame. -/
def Ulp.send (kind : TxKind) (body : List Byte) (u : Ulp) : Ulp := { u with tx := some ⟨kind, uplinkFrameBytes body⟩ }

/-- The ready deferred PASS answer whose relay ended first begins to be sent, and its slot is emptied (R173, R174): at the
beginning of its frame, not at its end (log entry 41). -/
def Ulp.sendDeferred (u : Ulp) : Ulp :=
  match u.readyOrder with
  | [] => u
  | g :: rest =>
    match u.deferredAt g with
    | .ready body => { u.setDeferred g .empty with readyOrder := rest }.send .passAnswer body
    | .empty | .held _ => u

/-- SEND_ANSWER_FRAME (R174): the free transmitter begins the waiting answer, else a ready deferred PASS answer. -/
def execSendAnswerFrame (s : State) : Host.Outcome State Fault Refusal :=
  .next <|
    if s.isRunning && s.ulp.tx.isNone then
      match s.ulp.waiting with
      | some w => { s with ulp := { s.ulp with waiting := none }.send (.answer w.resets) w.body }
      | none => if s.takingDue then s else { s with ulp := s.ulp.sendDeferred }
    else s

/-- The first owed source in the order of R176. -/
def Field.firstOwed (f : Field) : Option Source :=
  ((f.helio.find? (fun p => p.2.reportOwed)).map (fun p => Source.helio p.1)).orElse fun _ =>
  ((f.reports.zoneOwed.find? (·.2)).map (fun p => Source.zone p.1)).orElse fun _ =>
  ((f.reports.slotOwed.find? (·.2)).map (fun p => Source.slot p.1)).orElse fun _ =>
  if f.reports.stateOwed then some .opState else if f.reports.tripOwed then some .trip else none

/-- The first owed source joins the tail of the Report Queue and its flag is cleared (R176). -/
def Field.fillOwed (f : Field) : Field :=
  match f.firstOwed with
  | some src => (f.setReportOwed src false).queueReport src
  | none => f

/-- The head entry leaves the Report Queue, a zone's change marks are cleared, and an owed source fills the entry freed
(R51, R175, R176). -/
def Field.takeReport (src : Source) (rest : List Source) (f : Field) : Field :=
  let f1 := { f with reports := { f.reports with queue := rest } }
  let f2 := match src with
    | .zone z => f1.setZone z { f1.zoneAt z with marks := ZoneMarks.none }
    | .helio _ | .slot _ | .opState | .trip => f1
  f2.fillOwed

/-- SEND_REPORT_FRAME (R175): with no answer to send and no frame to take, the free transmitter begins the head report. -/
def execSendReportFrame (s : State) : Host.Outcome State Fault Refusal :=
  .next <|
    if s.isRunning && s.ulp.tx.isNone && s.ulp.waiting.isNone && s.ulp.readyOrder.isEmpty && !s.takingDue then
      match s.field.reports.queue with
      | src :: rest =>
        { s with ulp := s.ulp.send (.report src) (s.reportBody src), field := s.field.takeReport src rest }
      | [] => s
    else s

/-- FRAME_SENT (R174): the frame being sent ends; at the end of the RESET answer the soft reset is made. -/
def execFrameSent (s : State) : Host.Outcome State Fault Refusal :=
  .next <|
    match s.ulp.tx with
    | some t =>
      if s.isRunning then
        let s1 := { s with ulp := { s.ulp with tx := none } }
        if t.kind = .answer true then s1.softReset else s1
      else s
    | none => s

end Sys2Proof.Machine
end

