-- ==== Sys2Proof/Machine/Dispatch.lean ====
section
/-! DEFINITION. One arm per command: each is one direct call of its meaning. -/

namespace Sys2Proof.Machine

/-- The effect of a command on everything but the queue. -/
def exec (i : Instr) (s : State) : Host.Outcome State Fault Refusal :=
  match i with
  | .powerOnReset => Sys2Proof.Machine.execPowerOnReset s
  | .pinReset => Sys2Proof.Machine.execPinReset s
  | .resetRelease => Sys2Proof.Machine.execResetRelease s
  | .tableLoadingDone damaged => Sys2Proof.Machine.execTableLoadingDone damaged s
  | .fsafeAssert => Sys2Proof.Machine.execFsafeAssert s
  | .fsafeRelease => Sys2Proof.Machine.execFsafeRelease s
  | .uplinkFrame bytes => Sys2Proof.Machine.execUplinkFrame bytes s
  | .takeNonOrderFrame => Sys2Proof.Machine.execTakeNonOrderFrame s
  | .aim tag helio point => Sys2Proof.Machine.execAim tag helio point s
  | .setCeiling tag first last value => Sys2Proof.Machine.execSetCeiling tag first last value s
  | .readZone tag zone => Sys2Proof.Machine.execReadZone tag zone s
  | .defocus tag scope index => Sys2Proof.Machine.execDefocus tag scope index s
  | .stow tag scope index => Sys2Proof.Machine.execStow tag scope index s
  | .clearFault tag scope index => Sys2Proof.Machine.execClearFault tag scope index s
  | .flagsSet tag group mask => Sys2Proof.Machine.execFlagsSet tag group mask s
  | .flagsClear tag group mask => Sys2Proof.Machine.execFlagsClear tag group mask s
  | .readHeliostat tag helio => Sys2Proof.Machine.execReadHeliostat tag helio s
  | .pass tag helio body => Sys2Proof.Machine.execPass tag helio body s
  | .watchOn tag => Sys2Proof.Machine.execWatchOn tag s
  | .watchOff tag => Sys2Proof.Machine.execWatchOff tag s
  | .clearTrip tag => Sys2Proof.Machine.execClearTrip tag s
  | .lockLimits tag => Sys2Proof.Machine.execLockLimits tag s
  | .loadProgram tag slot count records => Sys2Proof.Machine.execLoadProgram tag slot count records s
  | .startProgram tag slot level => Sys2Proof.Machine.execStartProgram tag slot level s
  | .haltProgram tag slot => Sys2Proof.Machine.execHaltProgram tag slot s
  | .readProgramStatus tag slot => Sys2Proof.Machine.execReadProgramStatus tag slot s
  | .setState tag target => Sys2Proof.Machine.execSetState tag target s
  | .fieldDefocus tag => Sys2Proof.Machine.execFieldDefocus tag s
  | .reset tag => Sys2Proof.Machine.execReset tag s
  | .status tag => Sys2Proof.Machine.execStatus tag s
  | .tableWrite tag table first count records => Sys2Proof.Machine.execTableWrite tag table first count records s
  | .tableRead tag table first count => Sys2Proof.Machine.execTableRead tag table first count s
  | .protect tag block => Sys2Proof.Machine.execProtect tag block s
  | .unprotectAll tag => Sys2Proof.Machine.execUnprotectAll tag s
  | .protectionStatus tag => Sys2Proof.Machine.execProtectionStatus tag s
  | .commitDone => Sys2Proof.Machine.execCommitDone s
  | .sendAnswerFrame => Sys2Proof.Machine.execSendAnswerFrame s
  | .sendReportFrame => Sys2Proof.Machine.execSendReportFrame s
  | .frameSent => Sys2Proof.Machine.execFrameSent s
  | .nightSpacingExpiry seg => Sys2Proof.Machine.execNightSpacingExpiry seg s
  | .segmentRequestSent seg => Sys2Proof.Machine.execSegmentRequestSent seg s
  | .driveAnswer seg frame => Sys2Proof.Machine.execDriveAnswer seg frame s
  | .driveResponseTimeout seg => Sys2Proof.Machine.execDriveResponseTimeout seg s
  | .slewTimeout helio => Sys2Proof.Machine.execSlewTimeout helio s
  | .surveyLimit => Sys2Proof.Machine.execSurveyLimit s
  | .wakeSettleTick => Sys2Proof.Machine.execWakeSettleTick s
  | .wakeDone => Sys2Proof.Machine.execWakeDone s
  | .sensorReading bytes => Sys2Proof.Machine.execSensorReading bytes s
  | .staleExpiry zone => Sys2Proof.Machine.execStaleExpiry zone s
  | .aimGroup => Sys2Proof.Machine.execAimGroup s
  | .queueSpaceResume => Sys2Proof.Machine.execQueueSpaceResume s
  | .settleWaitEnd => Sys2Proof.Machine.execSettleWaitEnd s
  | .defocusGroup => Sys2Proof.Machine.execDefocusGroup s
  | .stowGroup => Sys2Proof.Machine.execStowGroup s
  | .groupSettleWaitEnd => Sys2Proof.Machine.execGroupSettleWaitEnd s
  | .ceiling => Sys2Proof.Machine.execCeiling s
  | .wait => Sys2Proof.Machine.execWait s
  | .waitTimerExpiry => Sys2Proof.Machine.execWaitTimerExpiry s
  | .test => Sys2Proof.Machine.execTest s
  | .jump => Sys2Proof.Machine.execJump s
  | .endStep => Sys2Proof.Machine.execEndStep s
  | .uplinkGapLimit => Sys2Proof.Machine.execUplinkGapLimit s
  | .sensorFrameGap => Sys2Proof.Machine.execSensorFrameGap s
  | .nightPollDue seg => Sys2Proof.Machine.execNightPollDue seg s

end Sys2Proof.Machine
end

