-- ==== Sys2Proof/Machine/Step.lean ====
section
/-! DEFINITION. One step: the command at the front of the queue, or a tick of the clock on an empty queue. -/

namespace Sys2Proof.Machine

/-- The clock's tick on an empty queue (log entry 2): time passes and nothing else changes. -/
def State.tick (s : State) : State := { s with now := s.now + Config.tickMs }

/-- One step: the command at the front of the queue takes its effect on the rest; on an empty queue the clock ticks. -/
def step (s : State) : Host.Outcome State Fault Refusal :=
  match s.pending with
  | [] => .next s.tick
  | c :: rest => exec c { s with pending := rest }

/-- `s` with the command that a word spells at the front of its queue; no row of the table gives a word, so `s` itself
(log entry 27). -/
def State.withFetchWord (s : State) (nbits w : Nat) : State :=
  match decodeTableWord nbits w with
  | some c => { s with pending := c :: s.pending }
  | none => s

end Sys2Proof.Machine
end

