-- ==== Sys2Proof/Safety.lean ====
section
/-! DEFINITION. The predicates the statements speak of: when an order is due, what R6 says of a record, what the Report Queue,
the Grant List, the tables and the FAU's accounts keep to in every state. -/

namespace Sys2Proof.Machine

/-! ### Records (R6, R12, R58) -/

/-- Is the heliostat in one of the states that hold a granted aim (R6)? -/
def HelioRun.grantState (r : HelioRun) : Bool :=
  r.state == .slewing || r.state == .tracking || (r.state == .returning && !r.released) || (r.state == .lost && !r.unaccounted)

/-- What R6 says of the runtime fields and the state, and, of a Move Queue entry, R58 and R12: its heliostat is SLEWING, not yet
accepted, and owes no motion. -/
def HelioRun.Sound (r : HelioRun) : Prop :=
  r.granted.isSome = r.grantState ∧ (r.leaving.isSome → r.state = .slewing ∧ r.granted ≠ r.leaving)
    ∧ (r.destination.isSome ↔ r.state = .returning) ∧ (r.motionCause.isSome ↔ r.state = .slewing ∨ r.state = .returning)
    ∧ (r.released → r.state = .returning) ∧ (r.accepted → r.state = .slewing) ∧ (r.unaccounted → r.state = .lost)
    ∧ (r.queued → r.state = .slewing ∧ r.accepted = false ∧ r.owed = none)

/-- What the rules say of a record beside R6: the slew timer, the grant's origin and its kind are kept in SLEWING only (R81, log
entries 15 and 16), and a leaving aim is a re-aim's; a heliostat at rest has its rest field set (R2); no owed motion has nothing left
to do (R11), and a FAULTED or SILENT heliostat owes none (R57, R74, R76), after a REJECT of an aim and at rest with a fault cause the
model's reading (log entry 31); the counts are within their ranges (R2). -/
structure HelioRun.Tidy (r : HelioRun) : Prop where
  slewing : r.state ≠ .slewing → r.slewEnds = none ∧ r.origin = none ∧ r.reAim = false
  reAim : r.leaving.isSome → r.reAim = true
  standby : r.state = .standby → r.rest = .standby
  stowed : r.state = .stowed → r.rest = .stowed
  defocus : ∀ c, r.owed = some ⟨.defocus, c⟩ → r.state ≠ .standby ∧ r.state ≠ .stowed ∧ r.state ≠ .returning
  stow : ∀ c, r.owed = some ⟨.stow, c⟩ → r.state ≠ .stowed ∧ (r.state = .returning → r.destination = some .standby)
  idle : r.state = .faulted ∨ r.state = .silent → r.owed = none
  counts : r.silentCount ≤ 3 ∧ r.busyCount ≤ 3

/-- Every heliostat record is as R6 says. -/
def Field.RecordsSound (f : Field) : Prop := ∀ h, (f.run h).Sound

/-! ### Lists (R36, R58, R170, R175, R176) -/

/-- The Grant List holds every heliostat that has a granted aim, and no other, once (R36). -/
def Field.GrantsExact (f : Field) : Prop := f.grants.Nodup ∧ ∀ h, h ∈ f.grants ↔ (f.run h).granted.isSome

/-- The Report Queue holds at most 128 entries, at most one of a source (R175), and none of a source that is owed (R19, R176). -/
def Field.ReportsSound (f : Field) : Prop :=
  f.reports.queue.length ≤ Config.reportQueue ∧ f.reports.queue.Nodup ∧ ∀ src ∈ f.reports.queue, f.reportOwed src = false

/-- No Move Queue holds more than 64 entries (R58). -/
def Field.QueuesBounded (f : Field) : Prop := ∀ g, (f.sxeAt g).queue.length ≤ Config.moveQueue

/-! ### The canonical form of the tables (log entry 1 and INVENTORY.md, Memory) -/

/-- Every sparse table of the field is in canonical form. -/
def Field.Canonical (f : Field) : Prop :=
  Table.wf Config.heliostats HelioRun.blank f.helio ∧ Table.wf Config.zones ZoneRun.blank f.zone
    ∧ Table.wf Config.aimPoints 0 f.refs ∧ Table.wf Config.segments Sxe.blank f.sxe ∧ Table.wf Config.slots Slot.blank f.slot
    ∧ Table.wf Config.zones false f.reports.zoneOwed ∧ Table.wf Config.slots false f.reports.slotOwed

/-- Every sparse table of a copy of the Table Store is in canonical form. -/
def Tables.Canonical (t : Tables) : Prop :=
  Table.wf Config.heliostats HelioConfig.blank t.helio ∧ Table.wf Config.aimPoints AimPoint.blank t.aim
    ∧ Table.wf Config.standbyPoints StandbyPoint.blank t.standby ∧ Table.wf Config.zones ZoneConfig.blank t.zone
    ∧ Table.wf Config.zones criticalBlank t.critical

/-- Every sparse table of the state is in canonical form. -/
def State.Canonical (s : State) : Prop :=
  s.field.Canonical ∧ s.live.Canonical ∧ s.store.tables.Canonical ∧ Table.wf Config.segments Deferred.empty s.ulp.deferred

/-! ### The accounts (R23, R26, R27) -/

/-- The total of a quantity over the listed entries of a table. -/
def Table.total {α : Type} (g : Nat → α → Nat) (t : Table α) : Nat :=
  (List.map (fun p : Nat × α => g p.1 p.2) t).sum

/-- The FAU's accounts are exact: committed load of a zone is what the heliostats hold on it (R26), pending load the part of it
that is pending (R27), and an aim point's reference count the number of heliostats that hold it (R23). -/
def Field.AccountsExact (env : Env) (f : Field) : Prop :=
  (∀ z, z < Config.zones → (f.zoneAt z).committed = Table.total (fun h r => env.load h r z) f.helio)
    ∧ (∀ z, z < Config.zones → (f.zoneAt z).pending = Table.total (fun h r => env.pendingLoad h r z) f.helio)
    ∧ ∀ a, a < Config.aimPoints → f.refAt a = Table.total (fun _ r => if a ∈ r.aims then 1 else 0) f.helio

/-! ### Facts that every step keeps -/

/-- The facts that every step keeps together. -/
structure State.Sound (s : State) : Prop where
  /-- The tables are in canonical form. -/
  canonical : s.Canonical
  /-- The records are as R6 says. -/
  records : s.field.RecordsSound
  /-- The Grant List is as R36 says. -/
  grants : s.field.GrantsExact
  /-- The Report Queue is as R175 and R176 say. -/
  reports : s.field.ReportsSound
  /-- The Move Queues are within their bound (R58). -/
  queues : s.field.QueuesBounded
  /-- The accounts are exact (R23, R26, R27). -/
  accounts : s.field.AccountsExact s.env
  /-- The receive buffer is within its bound (R170). -/
  buffer : s.ulp.rxBuf.length ≤ Config.rxFrames

/-! ### What the statements compare -/

/-- The order command `i` may be taken (R170): its frame's body is the oldest buffered one, the tables are loaded, no answer
waits, and the transmitter is not sending the answer of the previously taken order; the frame of a deferred PASS answer is not one, the
model's reading (log entry 45). -/
def State.OrderDue (s : State) (i : Instr) : Prop :=
  s.phase = .running ∧ s.ulp.waiting = none ∧ (∀ b bytes, s.ulp.tx ≠ some ⟨.answer b, bytes⟩)
    ∧ ∃ body rest, orderBody i = some body ∧ s.ulp.rxBuf = body :: rest

/-- An order has been taken and answered (R171, R172): its frame has left the buffer, its answer waits, and nothing but the
field has otherwise changed. -/
def State.AnsweredWith (s t : State) (tag kind : Byte) (r : Reply) : Prop :=
  t = { s.popFrame.answer tag kind r with field := t.field }

/-- What the SXEs' choices may change (R56, R58, R60): a heliostat may have come in flight and lost its queued mark, an SXE without
an exchange may have begun one, the head of its queue leaving where that is what it chose; nothing else. -/
structure Field.ChoiceOnly (f g : Field) : Prop where
  /-- The heliostats. -/
  runs : ∀ h, g.run h = f.run h
    ∨ (g.run h = { f.run h with inFlight := true, queued := (g.run h).queued } ∧ ((g.run h).queued → (f.run h).queued))
  /-- The SXEs. -/
  sxes : ∀ k, g.sxeAt k = f.sxeAt k
    ∨ ((f.sxeAt k).exchange = none ∧ (g.sxeAt k).exchange.isSome
      ∧ ((g.sxeAt k).queue = (f.sxeAt k).queue ∨ (g.sxeAt k).queue = (f.sxeAt k).queue.tail)
      ∧ (g.sxeAt k).passSlot = (f.sxeAt k).passSlot ∧ (g.sxeAt k).lastEnd = (f.sxeAt k).lastEnd)
  /-- Everything else. -/
  others : g = { f with helio := g.helio, sxe := g.sxe }

/-! ### Owed motions given by order or step (R11, R12, R14, R121) -/

/-- A heliostat that a DEFOCUS or STOW is not refused for has been given the motion: its record was `r` and is `r'`. A record without a
Move Queue entry takes the motion by R11; a queued one has its entry withdrawn in the same change, a re-aim then TRACKING its old aim
and owing the motion, any other grant at rest, where only a STOW at STANDBY has something left to do (R12). Two of its cases are the
model's readings: a DEFOCUS clears the STOW of a STANDBY heliostat (log entry 36), and a queued re-aim whose leaving aim was released goes
to rest (log entry 15). -/
structure HelioRun.GivenMotion (m : Motion) (c : Cause) (r r' : HelioRun) : Prop where
  set : r.queued = false → r' = { r.by (some c) (r.setOwed m c).nothingRemains with
    reportOwed := r'.reportOwed, inFlight := r'.inFlight, queued := false }
  reAim : r.queued = true → r.leaving.isSome → r'.state = .tracking ∧ r'.granted = r.leaving ∧ r'.leaving = none
    ∧ r'.owed = some ⟨m, c⟩ ∧ r'.queued = false ∧ r'.lastCause = some c
  fromRest : r.queued = true → r.leaving = none →
    r'.state = (match r.rest with | .standby => .standby | .stowed => .stowed) ∧ r'.granted = none ∧ r'.leaving = none
      ∧ r'.owed = (if m = .stow ∧ r.rest = .standby then some ⟨.stow, c⟩ else none) ∧ r'.queued = false ∧ r'.lastCause = some c

/-! ### Resets -/

/-- A hard reset has stopped the part where it stood (R146): every exchange is abandoned and every timer stopped (R84), the frame
being sent is cut off (R178), a commit is abandoned (R187), TRIP is low (R102) and no transmit enable is driven; nothing else is
changed but the limit lock, which R99 gives. -/
structure State.HaltedBy (kind : ResetKind) (s t : State) : Prop where
  /-- What is changed outside the field. -/
  frame : t = { s with
    phase := .inReset kind, limitLock := t.limitLock, commit := none, ulp := { s.ulp with tx := none }
    osc := { s.osc with surveyEnds := none }, field := t.field }
  /-- What is kept of the field. -/
  kept : t.field = { s.field with helio := t.field.helio, zone := t.field.zone, sxe := t.field.sxe, slot := t.field.slot }
  /-- The slew timers are stopped. -/
  runs : ∀ h, t.field.run h = { s.field.run h with slewEnds := none }
  /-- The stale timers are stopped. -/
  zones : ∀ z, t.field.zoneAt z = { s.field.zoneAt z with staleEnds := none }
  /-- The exchanges are abandoned. -/
  sxes : ∀ g, t.field.sxeAt g = { s.field.sxeAt g with exchange := none }
  /-- The WAIT timers are stopped. -/
  slots : ∀ k, (t.field.slotAt k = s.field.slotAt k ∨ t.field.slotAt k = { s.field.slotAt k with waitingOn := none })
    ∧ ∀ ends, (t.field.slotAt k).waitingOn ≠ some (.timer ends)
  /-- The pins. -/
  pins : t.tripPinHigh = false ∧ ∀ g, t.transmitEnable g = false

/-- Every block has taken its state after a reset (R3, R53, R84, R105, R130, R178) and the part has entered SURVEY (R147), or,
with no record present, the survey has ended at once (R149). `kept` is the field whose flags, ceilings and programs the reset keeps:
the blank field at a power-on or pin reset. An SXE may have made its first choice, which puts a heliostat in flight. That the FSAFE_N
sampled is the last FSAFE command's, and that the state cause is the reset's, are the model's choices (log entries 3 and 33). -/
structure State.SurveyBegun (cause : StateCause) (kept : Field) (t : State) : Prop where
  /-- The records (R3). -/
  runs : ∀ h, t.field.run h =
    if (t.live.helioAt h).present then
      { HelioRun.blank with
        state := .unsure, inhibit := (kept.run h).inhibit, maint := (kept.run h).maint
        localControl := (kept.run h).localControl, inFlight := (t.field.run h).inFlight }
    else HelioRun.blank
  /-- The zones (R53, R105): STALE, their budgets recomputed. -/
  zones : ∀ z, z < Config.zones → t.field.zoneAt z =
    { ZoneRun.blank with
      ceiling := (kept.zoneAt z).ceiling, budget := budgetOf (t.live.zoneAt z) t.watchOn (t.field.zoneAt z) }
  /-- The accounts (R53). -/
  accounts : t.field.refs = [] ∧ t.field.grants = []
  /-- The SXEs (R84). -/
  sxes : ∀ g, (t.field.sxeAt g).queue = [] ∧ (t.field.sxeAt g).passSlot = none ∧ (t.field.sxeAt g).lastEnd = none
  /-- The slots (R130). -/
  slots : ∀ k, t.field.slotAt k =
    { kept.slotAt k with
      state := if (kept.slotAt k).steps = [] then .empty else .loaded, settleSet := [], waitingOn := none }
  /-- The arbiter (R130), the trip record (R105) and the Report Queue (R178), whose first report is the STATE EVENT (R177). -/
  rest : t.field.arbiter = Arbiter.idle ∧ t.field.trip = TripRecord.released
    ∧ t.field.reports = { Reports.empty with queue := [.opState] }
  /-- The OSC (R147, R149, R166). -/
  osc : t.osc =
    if t.live.present = [] then
      { opState := .hold, wake := none, surveyEnds := none, adopted := 0, atRest := 0, leftLost := 0, counted := []
        fieldSafe := t.fsafeAsserted, cause := .surveyDone }
    else
      { opState := .survey, wake := none, surveyEnds := some (t.now + 90000), adopted := 0, atRest := 0, leftLost := 0
        counted := [], fieldSafe := t.fsafeAsserted, cause := cause }

/-! ### Reports -/

/-- The place of a source in the order in which owed sources are queued (R176): heliostats, zones and slots, each in ascending
index, then the operating state, then the trip state. -/
def Source.rank : Source → Nat
  | .helio h => h
  | .zone z => Config.heliostats + z
  | .slot k => Config.heliostats + Config.zones + k
  | .opState => Config.heliostats + Config.zones + Config.slots
  | .trip => Config.heliostats + Config.zones + Config.slots + 1

/-! ### The zones: budgets, OVER, UNSHEDDABLE (R28 to R30, R44 to R47) -/

/-- Every budget is what R28 gives for the zone's record, its ceiling and its conditions, and for the watch. -/
def State.BudgetsExact (s : State) : Prop :=
  ∀ z, z < Config.zones → (s.field.zoneAt z).budget = budgetOf (s.live.zoneAt z) s.watchOn (s.field.zoneAt z)

/-- OVER and UNSHEDDABLE say of every zone what they mean, and a zone with unsecured load above its budget has no shedding
candidate left (R30, R45, R47). -/
structure State.ZonesSettled (s : State) : Prop where
  /-- OVER holds while committed load is greater than the budget (R30). -/
  isOver : ∀ z, (s.field.zoneAt z).overBudget = (s.field.zoneAt z).isOver
  /-- UNSHEDDABLE holds while unsecured load is greater than the budget (R47). -/
  unsheddable : ∀ z, (s.field.zoneAt z).unsheddable = (s.field.zoneAt z).inExcess
  /-- Such a zone has no candidate left on the Grant List (R45, R47). -/
  spent : ∀ z h, (s.field.zoneAt z).inExcess → h ∈ s.field.grants → (Work.of s.field).candidate s.env z h = false

/-- While a zone is CRITICAL, every heliostat that covers it is pending or accounted LOST (R93, R94). -/
def State.CriticalCleared (s : State) : Prop :=
  ∀ z h, (s.field.zoneAt z).critical → s.env.covers (s.field.run h) z →
    (s.field.run h).isPending ∨ (s.field.run h).state = .lost

/-- A heliostat that no shedding walk may take: it owes a motion, is RETURNING or LOST, or holds no load (R45). -/
def HelioRun.secured (r : HelioRun) : Bool := r.owed.isSome || r.state == .returning || r.state == .lost || !r.holdsLoad

/-- Two values of a zone that differ in nothing but loads, OVER, UNSHEDDABLE and marks. -/
structure ZoneRun.SameInputs (v v' : ZoneRun) : Prop where
  budget : v'.budget = v.budget
  ceiling : v'.ceiling = v.ceiling
  lastReading : v'.lastReading = v.lastReading
  staleEnds : v'.staleEnds = v.staleEnds
  warn : v'.warn = v.warn
  critical : v'.critical = v.critical
  stale : v'.stale = v.stale

/-! ### The trip record (R100, R101) -/

/-- The trip record holds the causes that stand, and its asserted state is what its mode gives; the latch is clear outside LATCH
mode (R100, R101). -/
def State.TripExact (s : State) : Prop :=
  s.field.trip = ⟨s.field.anyCritical, s.field.anyNonCritical, s.field.trip.latch,
      assertedUnder s.live.watch.mode s.field.anyCritical s.field.anyNonCritical s.field.trip.latch⟩
    ∧ (s.live.watch.mode ≠ .latch → s.field.trip.latch = false)

/-! ### The level arbiter (R108, R131, R136) -/

/-- The arbiter's active slot, stack and list hold the non-idle slots, each in its place and once; the levels fall strictly from the
bottom of the stack to the active program; while the stack or the list holds a slot, a program is active; and a slot of lower level
than the active program's is pending only while a preemption is held. -/
structure Field.ArbiterExact (f : Field) : Prop where
  once : (f.arbiter.active.toList ++ f.arbiter.suspended ++ f.arbiter.waiting).Nodup
  active : ∀ k, f.arbiter.active = some k ↔ (f.slotAt k).state = .running ∨ (f.slotAt k).state = .waiting
  suspended : ∀ k, k ∈ f.arbiter.suspended ↔ (f.slotAt k).state = .suspended
  waiting : ∀ k, k ∈ f.arbiter.waiting ↔ (f.slotAt k).state = .pending
  levels : (f.arbiter.active.toList ++ f.arbiter.suspended).Pairwise (fun j k => f.levelOf j < f.levelOf k)
  someActive : f.arbiter.active = none → f.arbiter.suspended = [] ∧ f.arbiter.waiting = []
  held : ∀ a k, f.arbiter.active = some a → k ∈ f.arbiter.waiting → f.levelOf k < f.levelOf a → (f.slotAt a).insideHolding
  waits : ∀ k, (f.slotAt k).waitingOn.isSome ↔ (f.slotAt k).state = .waiting

/-! ### The segment lines (R20, R21, R56, R58) -/

/-- Each exchange and each held PASS is of a heliostat of its segment; a heliostat is in flight exactly while one of the two is its
own, and an exchange relays a PASS exactly where the PASS held on its segment is of its own heliostat (R21, R83); the entries of the Move Queues are those of the queued heliostats, one each, for the granted aim; and a queued heliostat has
nothing but a poll in flight. -/
structure Field.LinesExact (env : Env) (f : Field) : Prop where
  exchange : ∀ g x, (f.sxeAt g).exchange = some x → env.segmentOf x.helio = g ∧ (f.run x.helio).inFlight
  pass : ∀ g p, (f.sxeAt g).passSlot = some p → env.segmentOf p.helio = g ∧ (f.run p.helio).inFlight
  relayed : ∀ g x, (f.sxeAt g).exchange = some x → (x.kind = .pass ↔ ∃ p, (f.sxeAt g).passSlot = some p ∧ p.helio = x.helio)
  inFlight : ∀ h, (f.run h).inFlight → (∃ x, (f.sxeAt (env.segmentOf h)).exchange = some x ∧ x.helio = h)
    ∨ ∃ p, (f.sxeAt (env.segmentOf h)).passSlot = some p ∧ p.helio = h
  entry : ∀ g e, e ∈ (f.sxeAt g).queue →
    env.segmentOf e.helio = g ∧ (f.run e.helio).queued ∧ (f.run e.helio).granted = some e.aim
  once : ∀ g, ((f.sxeAt g).queue.map Entry.helio).Nodup
  queued : ∀ h, (f.run h).queued → ∃ e ∈ (f.sxeAt (env.segmentOf h)).queue, e.helio = h
  polled : ∀ g x, (f.sxeAt g).exchange = some x → (f.run x.helio).queued → x.kind = .query
  unqueued : ∀ g p, (f.sxeAt g).passSlot = some p → (f.run p.helio).queued = false

/-- Every record is tidy, the pointers are heliostat indices (R62, R63), and an owed-motion exchange is of a heliostat that its request
can still move: none that is ABSENT, STOWED, FAULTED or SILENT, and, where the request goes to standby, none that is RETURNING (R11,
R56, R66). -/
structure Field.Tidy (f : Field) : Prop where
  records : ∀ h, (f.run h).Tidy
  pointers : ∀ g, (f.sxeAt g).scan < 4096 ∧ (f.sxeAt g).settle < 4096
  served : ∀ g x dest cause, (f.sxeAt g).exchange = some x → x.kind = .owedMotion dest cause →
    (f.run x.helio).state ≠ .absent ∧ (f.run x.helio).state ≠ .stowed ∧ (f.run x.helio).state ≠ .faulted
      ∧ (f.run x.helio).state ≠ .silent ∧ (dest = .standby → (f.run x.helio).state ≠ .returning)

/-- A record is present exactly where its runtime state is not ABSENT, and an ABSENT heliostat is not in flight and owes no motion, its
runtime part being at its reset values (R1, R3, R5, R16). -/
structure State.PresenceExact (s : State) : Prop where
  present : ∀ h, (s.live.helioAt h).present = true ↔ (s.field.run h).state ≠ .absent
  idle : ∀ h, (s.field.run h).state = .absent → (s.field.run h).inFlight = false ∧ (s.field.run h).owed = none

/-! ### The wait for queue space (R117) -/

/-- The members that an AIM GROUP step has still to take while it waits for queue space: at least the one it waits on, in ascending
index, and each after every member that the step has placed in the settle set (R4, R114, R117, R118). -/
def Field.AwaitedExact (f : Field) : Prop :=
  ∀ k j members short, (f.slotAt k).waitingOn = some (.queueSpace j members short) →
    members ≠ [] ∧ members.Pairwise (· < ·) ∧ ∀ h ∈ members, ∀ p ∈ (f.slotAt k).settleSet, p.1 < h

/-! ### The operating state (R144) -/

/-- When the optional items of the OSC are present (R144): the requested state and the wake settle count, 0 to 8, in WAKING and only
there; the survey timer in SURVEY only, and throughout it while the part runs. -/
structure State.OscExact (s : State) : Prop where
  wake : s.osc.wake.isSome ↔ s.osc.opState = .waking
  count : ∀ w, s.osc.wake = some w → w.count ≤ 8
  surveyOnly : s.osc.surveyEnds.isSome → s.osc.opState = .survey
  surveyRuns : s.phase = .running → s.osc.opState = .survey → s.osc.surveyEnds.isSome

/-! ### Field-safe (R158 to R160) -/

/-- While the field-safe condition holds: the state is not OPERATE and no wake leads to it, no program is non-idle, no Move Queue
holds an entry, and every load holder is pending or accounted LOST (R159, R160). -/
def State.FieldSafeHeld (s : State) : Prop :=
  s.osc.fieldSafe = true → s.osc.opState ≠ .operate ∧ (∀ w, s.osc.wake = some w → w.requested = .hold)
    ∧ s.field.anyNonIdle = false ∧ (∀ g, (s.field.sxeAt g).queue = [])
    ∧ ∀ h, (s.field.run h).holdsLoad → (s.field.run h).isPending ∨ (s.field.run h).state = .lost

/-! ### The tables' ranges (R182) -/

/-- Every record of a copy of the Table Store lies within its ranges (R182). -/
structure Tables.InRange (t : Tables) : Prop where
  helio : ∀ h, (t.helioAt h).inRange
  aim : ∀ a, footprintOk (t.aimAt a).footprint
  zone : ∀ z, (t.zoneAt z).inRange
  slewLimit : 10 ≤ t.slewLimit ∧ t.slewLimit ≤ 600
  critical : ∀ z, t.criticalAt z ≤ 4095

/-! ### The end of a change -/

/-- What a change that ends in the FAU's tests and the SXEs' choices keeps of the heliostats of `who` (R44 to R47, R60): one that no
walk may take keeps its record, but that it may come in flight, its entry then leaving the queue, and that a report may come to be
owed. -/
def Field.RunsKept (who : Nat → Prop) (f g : Field) : Prop :=
  ∀ h, who h → (f.run h).secured →
    g.run h =
      { f.run h with reportOwed := (g.run h).reportOwed, inFlight := (g.run h).inFlight, queued := (g.run h).queued }
    ∧ ((f.run h).inFlight → (g.run h).inFlight)

/-- What every such change keeps of the zones: budgets, ceilings, readings and conditions. -/
def Field.ZonesKept (f g : Field) : Prop := ∀ z, (f.zoneAt z).SameInputs (g.zoneAt z)

/-- What a change keeps of the programs, but that a revocation may reach a residual and the flags (R120). -/
def Field.ProgramsKept (f g : Field) : Prop :=
  g.arbiter = f.arbiter
    ∧ ∀ k, g.slotAt k = { f.slotAt k with residual := (g.slotAt k).residual, flags := (g.slotAt k).flags }

/-! ### Records put back (R11, R37, R38) -/

/-- A record whose heliostat has left every motion, with the fields that R6 ties to SLEWING, RETURNING and LOST at their absent or no
values. -/
def HelioRun.stopped (r : HelioRun) : HelioRun :=
  { r with
    destination := none, released := false, motionCause := none, accepted := false, queued := false, slewEnds := none, origin := none
    reAim := false, unaccounted := false }

/-- The state of a heliostat at rest. -/
def Rest.state : Rest → HState
  | .standby => .standby
  | .stowed => .stowed

/-- A heliostat found or put back at rest: no aim held, and an owed motion left only where it is a STOW at STANDBY (R11). -/
def HelioRun.restedAt (place : Rest) (r : HelioRun) : HelioRun :=
  let left := r.owed.map Owed.motion = some .stow ∧ place = .standby
  { r.stopped with
    state := place.state, rest := place, granted := none, leaving := none, owed := if left then r.owed else none
    busyCount := if left then r.busyCount else if r.owed.isSome then 0 else r.busyCount }

/-- A heliostat whose grant is revoked: a re-aim TRACKING its old aim, any other at rest as before (R37, R38), a re-aim whose leaving
aim was released before among them, the model's reading (log entry 15). -/
def HelioRun.grantUndone (r : HelioRun) : HelioRun :=
  match r.leaving with
  | some b => { r.stopped with state := .tracking, granted := some b, leaving := none, busyCount := 0 }
  | none => { r.restedAt r.rest with busyCount := 0 }

/-! ### Field-safe onset (R159) -/

/-- The field-safe onset actions have been made (R159): from the field `f`, the field `g`. That a queued re-aim whose leaving aim was
released goes to rest is the model's reading (log entry 15). -/
structure Field.MadeSafe (f g : Field) : Prop where
  /-- The non-idle slots are ended SAFE (R142). -/
  ended : ∀ k, (f.slotAt k).state.nonIdle →
    g.slotAt k = { f.slotAt k with state := .ended, endCause := some .safe, waitingOn := none, settleSet := [] }
  /-- The other slots stand as they stood. -/
  idle : ∀ k, (f.slotAt k).state.nonIdle = false →
    g.slotAt k = { f.slotAt k with residual := (g.slotAt k).residual, flags := (g.slotAt k).flags }
  /-- The Move Queues are empty (R39). -/
  queues : ∀ k, (g.sxeAt k).queue = []
  /-- Every load holder is pending. -/
  pending : ∀ h, (g.run h).holdsLoad → (g.run h).isPending
  /-- A Move Queue entry is withdrawn, cause SAFE: a re-aim is TRACKING its old aim again and owes DEFOCUS, any other is at rest and owes
  nothing (R37 to R39). -/
  withdrawn : ∀ h, (f.run h).queued = true → g.run h = { (f.run h).grantUndone with
    owed := if (f.run h).leaving.isSome then some ⟨.defocus, .safe⟩ else none, lastCause := some .safe
    inFlight := (g.run h).inFlight, reportOwed := (g.run h).reportOwed }
  /-- Every other load holder is given DEFOCUS, cause SAFE, by R11. -/
  given : ∀ h, (f.run h).holdsLoad → (f.run h).queued = false →
    g.run h = { (f.run h).by (some .safe) ((f.run h).setOwed .defocus .safe).nothingRemains with
      inFlight := (g.run h).inFlight, reportOwed := (g.run h).reportOwed }
  /-- A load holder that was not queued and not RETURNING owes DEFOCUS: with its first cause where it owed one, else SAFE (R11). -/
  owed : ∀ h, (f.run h).holdsLoad → (f.run h).queued = false → (f.run h).state ≠ .returning →
    (g.run h).owed = match (f.run h).owed with
      | some ⟨.defocus, c⟩ => some ⟨.defocus, c⟩
      | some ⟨.stow, _⟩ | none => some ⟨.defocus, .safe⟩
  /-- The other heliostats keep their records; one may come in flight. -/
  others : ∀ h, (f.run h).holdsLoad = false →
    g.run h = { f.run h with reportOwed := (g.run h).reportOwed, inFlight := (g.run h).inFlight }
  /-- Unsecured load is 0 on every zone, so UNSHEDDABLE is clear. -/
  zones : ∀ z, z < Config.zones → (g.zoneAt z).committed = (g.zoneAt z).pending ∧ (g.zoneAt z).unsheddable = false
  /-- Budgets, ceilings, readings and conditions are kept. -/
  inputs : f.ZonesKept g

/-! ### The checks of AIM and PASS (R20, R31) -/

/-- The first check of R31 that fails, or the same-aim test of R32, as the answer it gives; none where the aim is granted. -/
def State.aimJudgement (s : State) (h a : Nat) : Option Reply :=
  let r := s.field.run h
  let fp := (s.live.aimAt a).footprint
  if (s.live.helioAt h).present = false then some (.plain .range)
  else if s.osc.opState = .waking then some (.plain .notReady)
  else if s.osc.opState ≠ .operate then some (.plain .state)
  else if s.osc.fieldSafe then some (.plain .safe)
  else if r.inhibit ∨ r.maint then some (.plain .inhibited)
  else if r.state = .faulted then some (.plain .state)
  else if r.state ≠ .standby ∧ r.state ≠ .stowed ∧ r.state ≠ .tracking then some (.plain .busy)
  else if r.queued ∨ r.owed.isSome ∨ r.inFlight then some (.plain .busy)
  else if r.state = .tracking ∧ r.granted = some a then some ⟨.done, [1#8]⟩
  else if (s.live.aimAt a).present = false then some (.plain .range)
  else match fp.find? (fun p => (s.field.zoneAt p.1).critical) with
    | some p => some ⟨.critical, [byte p.1]⟩
    | none =>
      match fp.find? (fun p =>
          decide ((s.field.zoneAt p.1).budget < (s.field.zoneAt p.1).committed + s.env.contribution h a p.1)) with
      | some p =>
        some ⟨.noBudget, byte p.1 :: signed24 ((s.field.zoneAt p.1).budget - (s.field.zoneAt p.1).committed)⟩
      | none => if 64 ≤ (s.field.sxeAt (s.live.helioAt h).segment).queue.length then some (.plain .queueFull) else none

/-- The first check of R20 that fails, as the answer it gives; none where the PASS is accepted. -/
def State.passJudgement (s : State) (h : Nat) (kind : Byte) : Option Reply :=
  let r := s.field.run h
  let g := (s.live.helioAt h).segment
  if (s.live.helioAt h).present = false then some (.plain .range)
  else if kind = 0x01#8 ∨ kind = 0x02#8 ∨ kind = 0x03#8 then some (.plain .format)
  else if r.granted.isSome ∨ r.leaving.isSome then some ⟨.inUse, [byte 1]⟩
  else if r.state = .slewing ∨ r.state = .returning ∨ r.state = .lost then some (.plain .busy)
  else if r.queued ∨ r.owed.isSome ∨ r.inFlight then some (.plain .busy)
  else if (s.field.sxeAt g).passSlot.isSome ∨ s.ulp.deferredAt g ≠ .empty then some (.plain .busy)
  else none

/-- The first check of R132 that fails, as the answer it gives; none where the start is accepted. Only check 4's STATE carries the slot
state (log entry 44). -/
def State.startJudgement (s : State) (k level : Nat) : Option Reply :=
  let v := s.field.slotAt k
  if 7 < k ∨ 3 < level then some (.plain .range)
  else if s.osc.opState = .waking then some (.plain .notReady)
  else if s.osc.opState ≠ .operate then some (.plain .state)
  else if s.osc.fieldSafe then some (.plain .safe)
  else if v.state = .empty then some ⟨.state, [0#8]⟩
  else if v.state = .ended then some ⟨.pendingStatus, slotStatus s.now k v⟩
  else if v.state ≠ .loaded then some (.plain .busy)
  else none

/-- The first check of R151 that fails, or the answer no change, as the answer it gives; none where the order is carried out. -/
def State.setStateJudgement (s : State) (target : Byte) : Option Reply :=
  if target ≠ 1#8 ∧ target ≠ 2#8 ∧ target ≠ 3#8 then some (.plain .range)
  else if s.osc.opState = .waking then some (.plain .notReady)
  else if s.osc.opState = .survey then some (.plain .state)
  else if s.osc.opState.code = target.toNat then some (s.setStateDone true)
  else if target = 2#8 ∧ s.osc.fieldSafe then some (.plain .safe)
  else if target = 3#8 then s.field.nightFact.map (fun fact => ⟨.inUse, [byte fact.code]⟩)
  else none

/-! ### Program steps (R111, R112, R115) -/

/-- Step `st` of the active slot `k` is due: the slot is RUNNING (R111). -/
def State.StepDue (s : State) (k : Nat) (st : Step) : Prop :=
  s.phase = .running ∧ s.field.arbiter.active = some k ∧ (s.field.slotAt k).state = .running
    ∧ (s.field.slotAt k).steps[(s.field.slotAt k).current]? = some st

/-- Step `st` of the active slot `k` waits on `on` (R107). -/
def State.WaitDue (s : State) (k : Nat) (st : Step) (on : WaitOn) : Prop :=
  s.phase = .running ∧ s.field.arbiter.active = some k ∧ (s.field.slotAt k).state = .waiting
    ∧ (s.field.slotAt k).steps[(s.field.slotAt k).current]? = some st ∧ (s.field.slotAt k).waitingOn = some on

/-- The condition of a TEST code holds (R125). -/
def TestCode.Met (s : State) : TestCode → Prop
  | .overBudget z => (s.field.zoneAt z).overBudget = true
  | .notOver z => (s.field.zoneAt z).overBudget = false
  | .marginGe z x => x ≤ ((s.field.zoneAt z).budget : Int) - (s.field.zoneAt z).committed
  | .marginLt z x => ((s.field.zoneAt z).budget : Int) - (s.field.zoneAt z).committed < x
  | .warn z => (s.field.zoneAt z).warn = true
  | .notWarn z => (s.field.zoneAt z).warn = false
  | .settled g => ∀ h ∈ s.live.members g, (s.field.run h).restless = false
  | .unsettled g => ∃ h ∈ s.live.members g, (s.field.run h).restless = true

/-- A slot whose run has ended (R112). -/
def Slot.endedBy (cause : EndCause) (v : Slot) : Slot :=
  { v with state := .ended, endCause := some cause, waitingOn := none, settleSet := [] }

/-- A slot with its current step counted (R111 step 1). -/
def Slot.counted (v : Slot) : Slot := { v with executed := v.executed + 1, state := .running, waitingOn := none }

/-- A slot after the completion of a step that `next` follows (R111 steps 3 to 5). -/
def Slot.wentOn (next : Nat) (v : Slot) : Slot :=
  if 1024 ≤ v.executed + 1 then v.counted.endedBy .stepLimit
  else if v.steps.length ≤ next then v.counted.endedBy .complete
  else { v.counted with current := next }

/-- What an AIM GROUP step has made of the members from position `j` on (R115 to R117): placed in the settle set with the aim the step
gives them, placed in the residual, or still to be taken. -/
def Slot.Placed (first spread j : Nat) (members : List Nat) (v : Slot) : Prop :=
  ∀ i h, members[i]? = some h → (h, first + (j + i) % spread) ∈ v.settleSet ∨ (∃ reason, (h, reason) ∈ v.residual)
    ∨ ∃ p rest short, v.waitingOn = some (.queueSpace p rest short) ∧ p ≤ j + i

/-- The grants a step has made to members from position `j` on: no other heliostat's granted aim has changed, each new one is the
step's for that member, and no zone's committed load has been raised above its budget (R30, R34, R115). -/
def State.GrantsMembers (first spread j : Nat) (members : List Nat) (s t : State) : Prop :=
  (∀ h, (t.field.run h).granted ≠ (s.field.run h).granted →
      ∃ i, members[i]? = some h ∧ (t.field.run h).granted = some (first + (j + i) % spread) ∧ (t.field.run h).state = .slewing
        ∧ (t.field.run h).motionCause = some .program ∧ h ∈ t.field.grants)
    ∧ ∀ z, z < Config.zones → (s.field.zoneAt z).committed < (t.field.zoneAt z).committed →
      (t.field.zoneAt z).committed ≤ (t.field.zoneAt z).budget

/-- Each member from position `j` on that the step has placed in the settle set holds the aim the step gives it; and each that passes
the checks of R31, its aim fitting within the budgets even beside all the loads the step has committed, is granted that aim, unless it
still waits for queue space (R115 to R118). -/
def State.PassersGranted (k first spread j : Nat) (members : List Nat) (s t : State) : Prop :=
  ∀ i h, members[i]? = some h →
    let a := first + (j + i) % spread
    let r := s.field.run h
    ((h, a) ∈ (t.field.slotAt k).settleSet → (t.field.run h).granted = some a)
      ∧ (r.inhibit = false → r.maint = false → r.state = .standby ∨ r.state = .stowed ∨ r.state = .tracking → r.owed = none →
        r.inFlight = false → (s.live.aimAt a).present = true →
        (∀ q ∈ (s.live.aimAt a).footprint, (s.field.zoneAt q.1).critical = false
          ∧ (t.field.zoneAt q.1).committed + s.env.contribution h a q.1 ≤ (t.field.zoneAt q.1).budget) →
        (t.field.run h).granted = some a
          ∨ ∃ p rest short, (t.field.slotAt k).waitingOn = some (.queueSpace p rest short) ∧ p ≤ j + i)

/-- Everything of a zone but its loads, its budget, OVER, UNSHEDDABLE and its marks is kept. -/
structure ZoneRun.SameConditions (v v' : ZoneRun) : Prop where
  ceiling : v'.ceiling = v.ceiling
  lastReading : v'.lastReading = v.lastReading
  staleEnds : v'.staleEnds = v.staleEnds
  warn : v'.warn = v.warn
  critical : v'.critical = v.critical
  stale : v'.stale = v.stale

/-- Every non-idle slot has been ended with a cause, the arbiter left without a program (R141, R142). -/
def Field.SlotsEnded (cause : EndCause) (f g : Field) : Prop :=
  ∀ k, g.slotAt k = if (f.slotAt k).state.nonIdle then (f.slotAt k).endedBy cause else f.slotAt k

/-- The choice of the next program has been made (R138): the top of the stack, or the oldest pending slot of the lowest level, where
that level is lower than the top's. -/
def Field.NextChosen (a b : Arbiter) (f g : Field) : Prop :=
  (a.suspended = [] → a.waiting = [] → b = Arbiter.idle)
    ∧ (∀ k, b.active = some k → g.slotAt k = { f.slotAt k with state := .running }
      ∧ ((a.suspended.head? = some k ∧ b.suspended = a.suspended.tail ∧ b.waiting = a.waiting)
        ∨ ∃ l1 l2, a.waiting = l1 ++ k :: l2 ∧ b.waiting = l1 ++ l2 ∧ b.suspended = a.suspended
          ∧ ∀ j ∈ l1, f.levelOf k < f.levelOf j))
    ∧ (∀ k j, b.active = some k → j ∈ a.waiting ∨ a.suspended.head? = some j → f.levelOf k ≤ f.levelOf j)
    ∧ (∀ j, a.suspended.head? = some j → (∀ i ∈ a.waiting, f.levelOf j ≤ f.levelOf i) → b.active = some j)
    ∧ (a.suspended ≠ [] ∨ a.waiting ≠ [] → b.active.isSome)

/-- A frame that arrives complete in the answer window of the exchange in flight, with its check right, in the bit order the model takes
(log entry 46), and from the drive addressed (R56). -/
def State.AnswerDue (s : State) (g : Nat) (x : Exchange) (frame : List Byte) (fr : SegFrame) : Prop :=
  s.phase = .running ∧ (s.field.sxeAt g).exchange = some x ∧ (∃ t, x.phase = .awaiting t) ∧ readSegFrame frame = some fr
    ∧ fr.checkOk = true ∧ fr.address = x.address

/-! ### What an answer makes of a record (R56, R70, R74, R76 to R80) -/

/-- The position classes that say of a heliostat what its record says, so that the tables of R77 to R80 change nothing; MOVING with both
marks is no move to the granted aim, the model's reading (log entry 23). -/
def Position.Agrees (live : Tables) (r : HelioRun) (p : Position) : Prop :=
  match r.state with
  | .slewing =>
    (∃ b, p = .onAim b ∧ r.leaving = some b ∧ r.granted ≠ some b) ∨ (p = .clear ∧ r.leaving = none)
      ∨ (r.accepted = true ∧ ∃ b, p = .moving true false b ∧ r.granted = some b)
      ∨ (r.accepted = false ∧ r.reAim = false ∧ (p = .atStandby ∧ r.rest = .standby ∨ p = .stowed ∧ r.rest = .stowed))
  | .tracking => ∃ b, (p = .onAim b ∨ p = .moving true false b) ∧ r.granted = some b
  | .returning =>
    (∃ u v b, p = .moving u v b) ∨ (r.released = false ∧ ∃ b, p = .onAim b) ∨ (r.released = true ∧ p = .clear)
  | .lost => ∃ u v b, p = .moving u v b
  | .unsure => p = .clear ∨ ∃ u v b, p = .moving u v b
  | .standby => p = .atStandby
  | .stowed => p = .stowed
  | .faulted => ∀ b, p = .onAim b → (live.aimAt b).present = false
  | .silent | .absent => False

/-- A heliostat that becomes accounted LOST, keeping its granted aim (R57, R74). -/
def HelioRun.lostOnAim (r : HelioRun) : HelioRun :=
  { r.stopped with state := .lost, leaving := none, owed := none, busyCount := 0 }

/-- A heliostat that becomes FAULTED, holding no load (R70, R74, R76), and, the model's reading, owing no motion (log entry 31). -/
def HelioRun.faultedOff (r : HelioRun) : HelioRun :=
  { r.stopped with
    state := .faulted, granted := none, leaving := none, owed := none, busyCount := if r.owed.isSome then 0 else r.busyCount }

/-- A heliostat owed DEFOCUS for a cause: a DEFOCUS it owes keeps its first cause, a STOW gives way (R11). The busy count of a changed owed
motion is 0 (R69), where a poll's answer brings it the model's reading (log entry 48). -/
def HelioRun.owing (c : Cause) (r : HelioRun) : HelioRun :=
  match r.owed with
  | some ⟨.defocus, _⟩ => r
  | some ⟨.stow, _⟩ | none => { r with owed := some ⟨.defocus, c⟩, busyCount := 0 }

/-- A heliostat adopted onto an aim point, before R155 is applied (R43). -/
def HelioRun.adoptedOn (a : Nat) (r : HelioRun) : HelioRun :=
  { r.stopped with state := .tracking, granted := some a, leaving := none }

/-- A heliostat found on an aim point that is absent: LOST unaccounted (R79, R80). -/
def HelioRun.lostOff (r : HelioRun) : HelioRun :=
  { r.stopped with state := .lost, granted := none, leaving := none, unaccounted := true }

/-- A move to the granted aim that is under way from the time `now` on (R68, R78); that its busy count is 0 where a poll shows it is the
model's reading (log entry 48). -/
def HelioRun.underWay (now slewLimit : Nat) (r : HelioRun) : HelioRun :=
  { r with accepted := true, queued := false, busyCount := 0, slewEnds := some (now + 1000 * slewLimit) }

/-- A heliostat that has arrived on its granted aim (R41, R77). -/
def HelioRun.arrived (r : HelioRun) : HelioRun := { r.stopped with state := .tracking, leaving := none }

/-- The cause for which a heliostat adopted onto aim point `a` is owed DEFOCUS in the same change: the first of field-safe, a CRITICAL
zone covered, its fault cause, NIGHT; none where nothing of the kind holds (R155). -/
def State.adoptionOwes (s : State) (a : Nat) (r : HelioRun) : Option Cause :=
  if s.osc.fieldSafe = true then some .safe
  else if ∃ q ∈ (s.live.aimAt a).footprint, (s.field.zoneAt q.1).critical = true then some .critical
  else match r.fault with
    | some fault => some fault.cause
    | none => if s.osc.opState = .night then some .adopted else none

/-- A heliostat that holds load is owed DEFOCUS for a cause (R11, R76), which one that is RETURNING has no use for; a Move Queue entry is
withdrawn in the same change (R12), and a grant made from rest then leaves nothing to defocus, nor, the model's reading, does that of a
re-aim whose leaving aim was released (log entry 15). -/
def HelioRun.sentOff (c : Cause) (r : HelioRun) : HelioRun :=
  r.by (some c)
    (if r.queued then (if r.leaving.isSome then r.grantUndone.owing c else r.grantUndone)
    else if r.state = .returning then { r with owed := none, busyCount := 0 }
    else r.owing c)

/-! ### What a status makes of a record: the three steps of R76

Each function gives the record with the last cause of its reported changes (R17); of several causes the last stays, the model's reading
(log entry 12), as it is that a busy count becomes 0 where a poll's answer brings an acceptance, a revocation or a change of the owed motion
(log entry 48). -/

/-- The first step of R76: LOCAL follows the status (R8), and the fault cause is set where there is none, FAULT before LOCAL. -/
def HelioRun.flagged (st : Status) (r : HelioRun) : HelioRun :=
  let r1 := r.by (some (if st.localControl then .localControl else .recovered)) { r with localControl := st.localControl }
  if r1.fault.isSome then r1
  else if st.fault then r1.by (some .driveFault) { r1 with fault := some (.driveFault (some st.code)) }
  else if st.localControl then r1.by (some .localControl) { r1 with fault := some .localControl }
  else r1

/-- The column of R77 for TRACKING. MOVING with both marks is no move to the granted aim, the model's reading (log entry 23). -/
def HelioRun.placedTracking (p : Position) (r : HelioRun) : HelioRun :=
  match p with
  | .onAim a => if r.granted = some a then r else r.by (some .driveLeft) (r.owing .driveLeft)
  | .moving onReceiver toStow b =>
    if onReceiver = true ∧ toStow = false ∧ r.granted = some b then r else r.by (some .driveLeft) (r.owing .driveLeft)
  | .clear | .atStandby => r.by (some .driveLeft) (r.restedAt .standby)
  | .stowed => r.by (some .driveLeft) (r.restedAt .stowed)

/-- The column of R77 for SLEWING with accepted yes; of MOVING as before (log entry 23). -/
def HelioRun.placedSlewing (p : Position) (r : HelioRun) : HelioRun :=
  match p with
  | .onAim a =>
    if r.granted = some a then r.by r.motionCause r.arrived
    else if r.leaving = some a then r
    else r.by (some .driveLeft) (r.owing .driveLeft)
  | .moving onReceiver toStow b =>
    if onReceiver = true ∧ toStow = false ∧ r.granted = some b then r else r.by (some .driveLeft) (r.owing .driveLeft)
  | .clear => r.by r.motionCause { r with leaving := none }
  | .atStandby => r.by (some .driveLeft) (r.restedAt .standby)
  | .stowed => r.by (some .driveLeft) (r.restedAt .stowed)

/-- An adoption onto aim point `a`, with the owed DEFOCUS of R155 in the same change (R43). -/
def State.adoptedBy (s : State) (a : Nat) (r : HelioRun) : HelioRun :=
  r.by (some .adopted)
    (match s.adoptionOwes a r with
    | some c => (r.adoptedOn a).owing c
    | none => r.adoptedOn a)

/-- A heliostat found on aim point `a` that was not expected on the receiver (R80). -/
def State.foundOn (s : State) (a : Nat) (r : HelioRun) : HelioRun :=
  if (s.live.aimAt a).present then s.adoptedBy a r else r.by (some .survey) (r.lostOff.owing (r.faultOr .survey))

/-- The table of R80. -/
def State.placedAtRest (s : State) (p : Position) (r : HelioRun) : HelioRun :=
  match r.state with
  | .silent => r.by (some .recovered) { r with state := .unsure }
  | .faulted =>
    match p with
    | .onAim a => if (s.live.aimAt a).present then s.adoptedBy a r else r
    | .moving _ _ _ | .clear | .atStandby | .stowed => r
  | .unsure | .standby | .stowed =>
    match p with
    | .onAim a => s.foundOn a r
    | .moving _ _ _ | .clear => r.by (some .survey) { r with state := .unsure }
    | .atStandby => r.by (some .survey) (r.restedAt .standby)
    | .stowed => r.by (some .survey) (r.restedAt .stowed)
  | .absent | .slewing | .tracking | .returning | .lost => r

/-- The drive stands where a grant not yet accepted did not expect (R78): the entry is withdrawn and the position judged again under R77
or R80, or, with no entry, DEFOCUS is owed. -/
def State.placedOff (s : State) (p : Position) (r : HelioRun) : HelioRun :=
  if r.queued then
    let undone := r.by (some .driveLeft) r.grantUndone
    if undone.state = .tracking then undone.placedTracking p else s.placedAtRest p undone
  else r.by (some .driveLeft) (r.owing .driveLeft)

/-- The table of R78, for SLEWING with accepted no; of MOVING as before (log entry 23). A grant is from rest that is no re-aim, the model's reading where a re-aim's leaving
aim was released before (log entry 15). -/
def State.placedUnaccepted (s : State) (p : Position) (r : HelioRun) : HelioRun :=
  let underWay := r.underWay s.now s.live.slewLimit
  match p with
  | .onAim a =>
    if r.granted = some a then underWay.by r.motionCause underWay.arrived
    else if r.leaving = some a then r
    else s.placedOff p r
  | .moving onReceiver toStow b =>
    if onReceiver = true ∧ toStow = false ∧ r.granted = some b then underWay else s.placedOff p r
  | .clear => r.by r.motionCause { r with leaving := none }
  | .atStandby => if r.reAim = false ∧ r.rest = .standby then r else s.placedOff p r
  | .stowed => if r.reAim = false ∧ r.rest = .stowed then r else s.placedOff p r

/-- The column of R79 for RETURNING. -/
def State.placedReturning (s : State) (p : Position) (r : HelioRun) : HelioRun :=
  match p with
  | .onAim a => if r.released then s.foundOn a r else r
  | .moving _ _ _ => r
  | .clear => if r.released then r else r.by r.motionCause { r with granted := none, leaving := none, released := true }
  | .atStandby => r.by r.motionCause (r.restedAt .standby)
  | .stowed => r.by r.motionCause (r.restedAt .stowed)

/-- The columns of R79 for LOST. -/
def State.placedLost (s : State) (p : Position) (r : HelioRun) : HelioRun :=
  match p with
  | .onAim a =>
    if r.unaccounted = true ∧ (s.live.aimAt a).present = true then s.adoptedBy a r
    else r.by (some (r.faultOr .silence)) (r.owing (r.faultOr .silence))
  | .moving _ _ _ => r
  | .clear => r.by (some .recovered) { r.stopped with state := .unsure, granted := none, leaving := none }
  | .atStandby => r.by (some .recovered) (r.restedAt .standby)
  | .stowed => r.by (some .recovered) (r.restedAt .stowed)

/-- The second step of R76: the position class by the heliostat's state (R77 to R80). -/
def State.placed (s : State) (p : Position) (r : HelioRun) : HelioRun :=
  match r.state with
  | .slewing => if r.accepted then r.placedSlewing p else s.placedUnaccepted p r
  | .tracking => r.placedTracking p
  | .returning => s.placedReturning p r
  | .lost => s.placedLost p r
  | .unsure | .standby | .stowed | .silent | .faulted | .absent => s.placedAtRest p r

/-- A heliostat that came to rest with a fault cause, its record `before`, is FAULTED instead, its rest field as before (R76); that it owes
no motion is the model's reading (log entry 31). -/
def HelioRun.faultedAtRest (r before : HelioRun) : HelioRun :=
  if (r.state = .standby ∨ r.state = .stowed) ∧ r.state ≠ before.state ∧ r.fault.isSome then { r.faultedOff with rest := before.rest }
  else r

/-- A failure that the status carries (R76): a load holder is owed DEFOCUS, any other heliostat FAULTED, and so, the model's reading, is
one whose grant from rest the owed DEFOCUS has withdrawn (log entry 34). -/
def HelioRun.failedBy (c : Cause) (r : HelioRun) : HelioRun :=
  let r1 := if r.holdsLoad then r.sentOff c else r
  if r1.holdsLoad = true ∨ r1.state = .faulted then r1 else r1.by (some c) r1.faultedOff

/-- The third step of R76: FAULT, and otherwise LOCAL, fails the heliostat; LIMIT owes a SLEWING or TRACKING one DEFOCUS, cause REJECT. -/
def HelioRun.failedAsSaid (st : Status) (r : HelioRun) : HelioRun :=
  let r1 := if st.fault then r.failedBy .driveFault else if st.localControl then r.failedBy .localControl else r
  if st.limit = true ∧ (r1.state = .slewing ∨ r1.state = .tracking) then r1.sentOff .reject else r1

/-- The record `r` after a status has been applied to it (R76): the flags, the position, the consequences. -/
def State.statused (s : State) (st : Status) (r : HelioRun) : HelioRun :=
  let seen := r.flagged st
  ((s.placed st.position seen).faultedAtRest seen).failedAsSaid st

/-- A good answer has ended the exchange that segment `g` had in flight with heliostat `h`, and has made that heliostat's record `new`,
with cause `cause` where the change is a reported one (R17): the counts and the time are kept as R56 and R57 say, the heliostat may have
come in flight again, the exchange has ended now, secured heliostats and the zones' inputs are kept, the OSC changes only where a survey
places an UNSURE heliostat, and the programs keep all but what a revocation may reach (R120), unless that survey ends or the heliostat
becomes LOST, which a followed member stops being followed for (R122). -/
structure State.AnswerMade (s t : State) (g h : Nat) (cause : Option Cause) (new : HelioRun) : Prop where
  frame : t = { s with osc := t.osc, field := t.field }
  record : t.field.run h = { (s.field.run h).by cause { new with silentCount := 0, lastExchange := some s.now } with
    inFlight := (t.field.run h).inFlight, queued := (t.field.run h).queued, reportOwed := (t.field.run h).reportOwed }
  queued : (t.field.run h).queued = true → new.queued = true
  ended : (t.field.sxeAt g).lastEnd = some s.now
  others : s.field.RunsKept (fun j => j ≠ h) t.field
  zones : s.field.ZonesKept t.field
  osc : s.osc.opState ≠ .survey ∨ (s.field.run h).state ≠ .unsure → t.osc = s.osc
  programs : s.osc.opState ≠ .survey ∨ (s.field.run h).state ≠ .unsure → new.state ≠ .lost → s.field.ProgramsKept t.field

/-- The answer has had heliostat `h`, whose record was `r`, adopted onto aim point `a` (R43, R155): at the newest end of the Grant List,
owed DEFOCUS where R155 names a cause, and otherwise owing what it owed, unless the shedding walk then takes it (R45). -/
def State.Adopted (s t : State) (g h a : Nat) (r : HelioRun) : Prop :=
  t.field.grants.getLast? = some h
    ∧ match s.adoptionOwes a r with
      | some why => s.AnswerMade t g h (some .adopted) ((r.adoptedOn a).owing why)
      | none => s.AnswerMade t g h (some .adopted) (r.adoptedOn a)
        ∨ (r.owed = none ∧ s.AnswerMade t g h (some .shed) ((r.adoptedOn a).owing .shed))

/-- A slot that keeps a heliostat and an aim in its settle set has heard of the revocation of that grant: REJECTED with DRIVE REJECT set
where the drive refused the move, REVOKED where it was withdrawn, the first reason staying (R120). It hears of it whoever made the grant,
the model's choice (log entry 39). -/
def State.SettleSetsHear (s t : State) (h a : Nat) (refused : Bool) : Prop :=
  ∀ k, k < 8 → (h, a) ∈ (s.field.slotAt k).settleSet →
    (t.field.slotAt k).flags.driveReject = ((s.field.slotAt k).flags.driveReject || refused)
      ∧ ∃ reason, (h, reason) ∈ (t.field.slotAt k).residual
        ∧ ((∀ p ∈ (s.field.slotAt k).residual, p.1 ≠ h) → reason = if refused then .rejected else .revoked)

/-- The answer has made of heliostat `h` the record `new`, which holds the last cause of its changes (R56, R76); where that record is a
new adoption that owes nothing, the shedding walk may have taken it in the same change (R43, R45). -/
def State.AnswerMadeOrShed (s t : State) (g h : Nat) (new : HelioRun) : Prop :=
  let r := s.field.run h
  s.AnswerMade t g h none new
    ∨ (new.state = .tracking ∧ new.owed = none ∧ new.granted ≠ r.granted ∧ new.granted ≠ r.leaving
      ∧ s.AnswerMade t g h (some .shed) (new.owing .shed))

/-! ### The records of a TABLE WRITE (R182 to R184, 10.7) -/

/-- The number in byte `i` of a record, and the numbers in the two and the three bytes from `i` on, the most significant first (10.1). -/
def recordByte (bytes : List Byte) (i : Nat) : Nat := (bytes.getD i 0#8).toNat

/-- The number in the two bytes from `i` on. -/
def recordWord (bytes : List Byte) (i : Nat) : Nat := 256 * recordByte bytes i + recordByte bytes (i + 1)

/-- The number in the three bytes from `i` on. -/
def recordTriple (bytes : List Byte) (i : Nat) : Nat := 65536 * recordByte bytes i + recordWord bytes (i + 1)

/-- The footprint pairs of an AIM record: zone and share (10.7). -/
def recordPairs (bytes : List Byte) : List (Nat × Nat) :=
  (List.range (recordByte bytes 0 % 8)).map (fun i => (recordByte bytes (7 + i) / 4, recordByte bytes (7 + i) % 4 + 1))

/-- An offset of two bytes, signed, is within -2000 to 2000 (R182). -/
def offsetInRange (n : Nat) : Prop := n ≤ 2000 ∨ 65536 - 2000 ≤ n

/-- Every field of a record's bytes lies within its range (R182), a record written absent being checked for that alone. The model reads
all 16 bits of a limit, where chapter 10 shows bits 15 to 12 as 0 (log entry 42). -/
def RecordInRange (id : TableId) (bytes : List Byte) : Prop :=
  match id with
  | .heliostat => 128 ≤ recordByte bytes 0 →
    recordWord bytes 1 ≤ 1023 ∧ recordByte bytes 3 ≤ 63 ∧ offsetInRange (recordWord bytes 5) ∧ offsetInRange (recordWord bytes 7)
      ∧ recordByte bytes 9 ≤ 15
  | .aim => 128 ≤ recordByte bytes 0 →
    1 ≤ recordByte bytes 0 % 8 ∧ recordByte bytes 0 % 8 ≤ 4 ∧ ((recordPairs bytes).map Prod.fst).Nodup
      ∧ ((recordPairs bytes).map Prod.snd).sum = 4
  | .standby => True
  | .zone => recordTriple bytes 0 ≤ 8388607 ∧ recordTriple bytes 3 ≤ 8388607 ∧ recordByte bytes 6 ≤ 100 ∧ recordWord bytes 7 ≤ 4095
  | .field => 10 ≤ recordWord bytes 0 ∧ recordWord bytes 0 ≤ 600
  | .critical => recordWord bytes 0 ≤ 4095
  | .watch => recordByte bytes 0 / 4 % 4 ≠ 3

/-- The value a record's bytes give (10.7), one written absent at its blank values (R182). -/
def recordValue (id : TableId) (bytes : List Byte) : Record :=
  let present := decide (128 ≤ recordByte bytes 0)
  let signed (i : Nat) : Half := BitVec.ofNat 16 (recordWord bytes i)
  match id with
  | .heliostat => .helio (if present then
      ⟨true, recordByte bytes 0 % 4, recordWord bytes 1, recordByte bytes 3, recordByte bytes 4, signed 5, signed 7, recordByte bytes 9⟩
    else ⟨false, 0, 0, 0, 0, 0#16, 0#16, 0⟩)
  | .aim => .aim (if present then ⟨true, signed 1, signed 3, signed 5, recordPairs bytes⟩ else ⟨false, 0#16, 0#16, 0#16, [(0, 4)]⟩)
  | .standby => .standby (if present then ⟨true, signed 1, signed 3, signed 5⟩ else ⟨false, 0#16, 0#16, 0#16⟩)
  | .zone => .zone ⟨recordTriple bytes 0, recordTriple bytes 3, recordByte bytes 6, recordWord bytes 7⟩
  | .field => .slewLimit (recordWord bytes 0)
  | .critical => .critical (recordWord bytes 0)
  | .watch =>
    let b := recordByte bytes 0
    .watch ⟨b % 4, if b / 4 % 4 = 0 then .latch else if b / 4 % 4 = 1 then .follow else .criticalOnly, b / 16 % 2 == 1, b / 32 % 2 == 1⟩

/-- Two present heliostat records of one segment share a drive address (R183). -/
def HelioConfig.SharesAddress (c d : HelioConfig) : Prop :=
  c.present = true ∧ d.present = true ∧ c.segment = d.segment ∧ c.address = d.address

/-- Once the write was taken, its heliostat record `p` would share its drive address with another record of the write, or with the live
record of an index the write does not name (R183). -/
def State.RecordClashes (s : State) (id : TableId) (written : List (Nat × List Byte)) (p : Nat × List Byte) : Prop :=
  match recordValue id p.2 with
  | .helio c =>
    (∃ q ∈ written, q.1 ≠ p.1 ∧ ∃ d, recordValue id q.2 = .helio d ∧ c.SharesAddress d)
      ∨ ∃ j, (∀ q ∈ written, q.1 ≠ j) ∧ c.SharesAddress (s.live.helioAt j)
  | .aim _ | .standby _ | .zone _ | .slewLimit _ | .critical _ | .watch _ => False

/-- Record `p` of a write would change a field in use by the fact of code `fact`, the first of those that hold (R184; the codes of 10.4):
LOAD, QUEUED, OWED or IN FLIGHT for the fields that tie a heliostat to its drive and its load, PROGRAM for its group, REFERENCED for
an aim point. A queued heliostat holds load in every state that is `Sound`, so LOAD is named before QUEUED there. -/
def State.RecordInUse (s : State) (id : TableId) (p : Nat × List Byte) (fact : Byte) : Prop :=
  let r := s.field.run p.1
  let old := s.live.helioAt p.1
  match recordValue id p.2 with
  | .helio c =>
    let tied : Prop := (c.present, c.segment, c.address, c.weight, c.standby)
      ≠ (old.present, old.segment, old.address, old.weight, old.standby)
    let loaded : Prop := r.granted.isSome ∨ r.leaving.isSome
    (tied ∧ loaded ∧ fact = 0x01#8)
      ∨ (tied ∧ ¬ loaded ∧ r.queued = true ∧ fact = 0x07#8)
      ∨ (tied ∧ ¬ loaded ∧ r.queued = false ∧ r.owed.isSome ∧ fact = 0x03#8)
      ∨ (tied ∧ ¬ loaded ∧ r.queued = false ∧ r.owed = none ∧ r.inFlight = true ∧ fact = 0x08#8)
      ∨ ((tied → ¬ loaded ∧ r.queued = false ∧ r.owed = none ∧ r.inFlight = false) ∧ c.group ≠ old.group
        ∧ (∃ k, k < 8 ∧ (s.field.slotAt k).state.nonIdle = true) ∧ fact = 0x02#8)
  | .aim _ => s.field.refAt p.1 ≠ 0 ∧ fact = 0x09#8
  | .standby _ | .zone _ | .slewLimit _ | .critical _ | .watch _ => False

/-- Record `p` of a write passes its checks (R181 check 7). -/
def State.RecordPasses (s : State) (id : TableId) (written : List (Nat × List Byte)) (p : Nat × List Byte) : Prop :=
  RecordInRange id p.2 ∧ ¬ s.RecordClashes id written p ∧ ∀ fact, ¬ s.RecordInUse id p fact

/-! ### The choice of an exchange (R60 to R67, R71, R83) -/

/-- How far a search that starts at `pointer` and wraps from 4095 to 0 goes to reach an index (R62, R63). -/
def searchDistance (pointer h : Nat) : Nat := (h + 4096 - pointer) % 4096

/-- The exchange that an SXE begins: heliostat `h` of segment `g` in flight, `kind`, with the bytes of the request, and the rest of the
SXE as `x` gives. -/
def Field.Begun (live : Tables) (g h : Nat) (kind : ExKind) (request : List Byte) (x : Sxe) (f f' : Field) : Prop :=
  (∀ j, f'.run j = if j = h then
      { f.run h with inFlight := true, queued := (match kind with | .moveAim _ => false | _ => (f.run h).queued) }
    else f.run j)
    ∧ (∀ k, f'.sxeAt k =
      if k = g then { x with exchange := some ⟨h, (live.helioAt h).address, kind, request, false, .sending⟩ } else f.sxeAt k)
    ∧ f' = { f with helio := f'.helio, sxe := f'.sxe }

end Sys2Proof.Machine
end

