-- ==== Sys2Proof/Certificates/Slice0/Obligations.lean ====
section
/-! DEFINITION. The statements about the model that are left to the provers, each a proposition. -/

open Sys2Proof Sys2Proof.Machine

/-! ### The machine -/

/-- A step takes the command at the front of the queue and runs it with the queue's rest. -/
def Obligations.StepTakesFrontCommand : Prop :=
  ∀ (s : State) (c : Instr) (rest : List Instr), s.pending = c :: rest → step s = exec c { s with pending := rest }

/-- Every command answers a next state, in every state, and leaves the commands behind it waiting; and on an empty queue a step is
a tick of 1 ms of the part's clock, the model's choice (log entry 2). -/
def Obligations.EveryStepAnswersNext : Prop :=
  (∀ (c : Instr) (s : State), ∃ t, exec c s = .next t ∧ t.pending = s.pending)
    ∧ ∀ s : State, s.pending = [] → step s = .next { s with now := s.now + 1 }

/-! ### Facts that every step keeps -/

/-- Every step keeps the facts of `State.Sound` together. -/
def Obligations.SoundKeptByEveryStep : Prop :=
  ∀ s t : State, s.Sound → step s = .next t → t.Sound

/-- The state after reset, the one the model names from the blank store (log entry 1) with FSAFE_N released (log entry 3), has every
fact that the steps keep. -/
def Obligations.ResetStateHasEveryFact : Prop :=
  let s := State.reset
  s.Sound ∧ s.BudgetsExact ∧ s.ZonesSettled ∧ s.CriticalCleared ∧ s.TripExact ∧ s.field.ArbiterExact ∧ s.field.LinesExact s.env
    ∧ s.FieldSafeHeld ∧ s.live.InRange ∧ s.store.tables.InRange ∧ s.field.Tidy ∧ s.OscExact

/-- Every step keeps the accounts exact: committed load, pending load and reference counts (R23, R26, R27). -/
def Obligations.AccountsKeptByEveryStep : Prop :=
  ∀ s t : State, s.Canonical → s.field.RecordsSound → s.field.AccountsExact s.env → step s = .next t →
    t.field.AccountsExact t.env

/-- Every command but POWER_ON_RESET keeps a set limit lock set; POWER_ON_RESET clears it; LOCK LIMITS, whenever it is taken, sets
it and is answered DONE, and changes nothing else (R99). -/
def Obligations.LimitLockHeldUntilPowerOnReset : Prop :=
  (∀ (s t : State) (c : Instr), exec c s = .next t →
    (c = .powerOnReset → t.limitLock = false) ∧ (c ≠ .powerOnReset → s.limitLock = true → t.limitLock = true))
  ∧ ∀ (s : State) (tag : Byte), s.OrderDue (.lockLimits tag) →
    exec (.lockLimits tag) s = .next { s.popFrame.answer tag 0x0E#8 ⟨.done, []⟩ with limitLock := true }

/-! ### Resets -/

/-- POWER_ON_RESET and PIN_RESET stop the part where it stands (R146); only the first clears the limit lock (R99). A pin reset
within a power-on reset leaves it one (log entry 22). RESET_RELEASE ends the reset and begins the loading, with the load-fault
list emptied (R146, R180). -/
def Obligations.HardResetsHaltThePart : Prop :=
  ∀ s : State,
    (∀ kind, s.phase = .inReset kind →
        exec .resetRelease s = .next { s with phase := .loading kind, loadFaults := [] })
      ∧ (s.Canonical → (∃ t, exec .powerOnReset s = .next t ∧ s.HaltedBy .powerOn t ∧ t.limitLock = false)
        ∧ ∃ t, exec .pinReset s = .next t ∧ s.HaltedBy (if s.phase = .inReset .powerOn then .powerOn else .pin) t
          ∧ t.limitLock = s.limitLock)

/-- While the part is in reset or loading its tables, no command but the resets' own has an effect, and FSAFE_N is not acted on:
only the level at the pin is followed (R146). The pin that is followed is the model's choice (log entry 3). -/
def Obligations.NothingActsUntilTablesLoaded : Prop :=
  ∀ (s : State) (c : Instr), s.phase ≠ .running →
    (c ≠ .powerOnReset → c ≠ .pinReset → c ≠ .resetRelease → (∀ d, c ≠ .tableLoadingDone d) → c ≠ .fsafeAssert →
        c ≠ .fsafeRelease → exec c s = .next s)
      ∧ exec .fsafeAssert s = .next { s with fsafeAsserted := true }
      ∧ exec .fsafeRelease s = .next { s with fsafeAsserted := false }

/-- TABLE_LOADING_DONE loads every record from the store, the pages that fail their check at blank values and the marks at all
protected, names them on the load-fault list (R180), and brings every block up (R146): SURVEY begins. The model's choices: the order and the damage
of the pages (log entry 18); the FSAFE_N that the entry to SURVEY samples is the last FSAFE command's (log entry 3), and the state cause is
the reset's whatever it shows (log entry 33); and a sensor frame that began to arrive during the loading is lost (log entry 43). -/
def Obligations.TableLoadingBringsThePartUp : Prop :=
  ∀ (s : State) (kind : ResetKind) (damaged : List PageRef), s.phase = .loading kind → s.store.tables.Canonical →
    ∃ t, exec (.tableLoadingDone damaged) s = .next t ∧ t.SurveyBegun kind.cause Field.blank
      ∧ t = { s with
        phase := .running, store := { s.store with damaged := t.loadFaults }, live := t.live, marks := t.marks, commit := none
        loadFaults := t.loadFaults, watchOn := true, sensorRx := none, ulp := Ulp.blank, osc := t.osc, field := t.field }
      ∧ (∀ p, p ∈ t.loadFaults ↔ p ∈ allPages ∧ (p ∈ s.store.damaged ∨ p ∈ damaged))
      ∧ (∀ id i, i < id.size → t.live.recordAt id i =
        if PageRef.page id (16 * (i / 16)) ∈ t.loadFaults then Tables.blank.recordAt id i else s.store.tables.recordAt id i)
      ∧ t.marks = (if PageRef.marks ∈ t.loadFaults then ProtMarks.all else s.store.marks)
      ∧ t.tripPinHigh = !t.live.watch.activeHigh

/-- RESET (R162) is refused IN_USE outside HOLD and NIGHT, with a load holder, or with a non-idle slot, the first of these named,
and otherwise answered DONE. FRAME_SENT ends the frame being sent (R174); at the end of a RESET answer the soft reset is made:
every block takes its state after a soft reset (R147, R163, R166), the receive buffer, the tables, the watch, the limit lock, the flags,
ceilings and programs kept. The level of FSAFE_N that the entry to SURVEY samples is the pin's (log entry 3), the state cause is the
reset's whatever it shows (log entry 33), and a sensor frame being collected goes on being collected (log entry 37): these three are the
model's choices. -/
def Obligations.ResetOrderAndFrameSent : Prop :=
  (∀ (s : State) (tag : Byte), s.OrderDue (.reset tag) → s.Canonical →
    let refused (code : Byte) : Prop := exec (.reset tag) s = .next (s.popFrame.answer tag 0x15#8 ⟨.inUse, [code]⟩)
    let inState := s.osc.opState = .hold ∨ s.osc.opState = .night
    let idle := ∀ k, (s.field.slotAt k).state.nonIdle = false
    (¬ inState → refused 6#8)
      ∧ (inState → (∃ h, (s.field.run h).holdsLoad) → refused 1#8)
      ∧ (inState → (∀ h, (s.field.run h).holdsLoad = false) → ¬ idle → refused 2#8)
      ∧ (inState → (∀ h, (s.field.run h).holdsLoad = false) → idle →
        exec (.reset tag) s = .next { s.popFrame with
          ulp := { s.popFrame.ulp with waiting := some ⟨[0x80#8, tag, 0x15#8, 0#8], true⟩ } }))
  ∧ ∀ (s : State) (f : TxFrame), s.phase = .running → s.ulp.tx = some f →
    (f.kind ≠ .answer true → exec .frameSent s = .next { s with ulp := { s.ulp with tx := none } })
      ∧ (f.kind = .answer true → s.live.Canonical → s.field.Canonical →
        ∃ t, exec .frameSent s = .next t ∧ t.SurveyBegun .softReset s.field
          ∧ t = { s with
            ulp := { s.ulp with waiting := none, deferred := [], readyOrder := [], tx := none }, osc := t.osc, field := t.field })

/-! ### The uplink -/

/-- The receiver (R168): while hunting, bytes other than C3h are passed over; a length byte outside 2 to 240 is discarded LENGTH;
a frame is judged at its last byte, CRC, then LENGTH, then OVERRUN, and otherwise joins the tail of the receive buffer; more than
1 ms inside a frame is a GAP; bytes that arrive in two parts are received as if in one, the model's choice (log entry 7); and before
the tables are loaded every byte is ignored. -/
def Obligations.ReceiverJudgesEveryFrame : Prop :=
  ∀ s : State,
    (s.phase = .running → s.ulp.rx = none →
      (∀ bytes, (∀ b ∈ bytes, b ≠ 0xC3#8) → exec (.uplinkFrame bytes) s = .next s)
        ∧ (∀ n : Byte, n.toNat < 2 ∨ 240 < n.toNat →
          exec (.uplinkFrame [0xC3#8, n]) s = .next { s with ulp := { s.ulp with lastError := some .length } })
        ∧ ∀ (body : List Byte) (c1 c0 : Byte), 2 ≤ body.length → body.length ≤ 240 →
          exec (.uplinkFrame (0xC3#8 :: byte body.length :: body ++ [c1, c0])) s = .next { s with
            ulp :=
              if c1 ++ c0 ≠ crc16 (byte body.length :: body) then { s.ulp with lastError := some .crc }
              else if lengthPermitted (body.headD 0#8) body.length = false then
                { s.ulp with lastError := some .length }
              else if 4 ≤ s.ulp.rxBuf.length then { s.ulp with lastError := some .overrun }
              else { s.ulp with rxBuf := s.ulp.rxBuf ++ [body] } })
      ∧ (s.phase = .running → s.ulp.rx ≠ none →
        exec .uplinkGapLimit s = .next { s with ulp := { s.ulp with rx := none, lastError := some .gap } })
      ∧ (∀ a b : List Byte, ∃ t, exec (.uplinkFrame a) s = .next t ∧ exec (.uplinkFrame (a ++ b)) s = exec (.uplinkFrame b) t)
      ∧ (s.phase ≠ .running → ∀ bytes, exec (.uplinkFrame bytes) s = .next s)

/-- An order is taken at no other moment than when R170 lets it be, and then every order earns one answer, with its tag and its
kind, waiting at once, but for an accepted PASS, whose answer is deferred (R170 to R173); its frame leaves the buffer. That an
order command out of its time changes nothing, and that the frame of a deferred PASS answer holds no taking back, are the model's choices
(log entries 5 and 45). TAKE_NON_ORDER_FRAME: the oldest buffered
frame, of a kind that is no order's, is taken and answered FORMAT with its own kind and tag (R171). -/
def Obligations.EveryTakenOrderEarnsOneAnswer : Prop :=
  (∀ (s : State) (kind tag : Byte) (more : List Byte) (rest : List (List Byte)), s.phase = .running → s.ulp.waiting = none →
    (∀ b bytes, s.ulp.tx ≠ some ⟨.answer b, bytes⟩) → s.ulp.rxBuf = (kind :: tag :: more) :: rest →
    orderLength kind = none →
    exec .takeNonOrderFrame s = .next { s with
      ulp := { s.ulp with rxBuf := rest, waiting := some ⟨[0x80#8, tag, kind, 0x0C#8], false⟩ } })
  ∧ ∀ (s : State) (c : Instr) (kind tag : Byte) (more : List Byte), orderBody c = some (kind :: tag :: more) →
    (¬ s.OrderDue c → exec c s = .next s)
      ∧ (s.OrderDue c → s.Canonical → s.live.InRange → ∃ t, exec c s = .next t ∧ t.ulp.rxBuf = s.ulp.rxBuf.tail
        ∧ ((∃ r resets, t.ulp.waiting = some ⟨0x80#8 :: tag :: kind :: r, resets⟩ ∧ (resets → ∃ tag, c = .reset tag))
          ∨ (t.ulp.waiting = none ∧ ∃ h b, c = .pass tag h b ∧ t.ulp.deferredAt (s.live.helioAt h.toNat).segment = .held tag)))

/-- SEND_ANSWER_FRAME: the free transmitter begins the waiting answer; with none, and no frame to take first, the ready deferred
PASS answer whose relay ended first (R173, R174); that its slot is emptied as the frame begins, and that a frame to take comes before
it, are the model's choices (log entries 41 and 9). -/
def Obligations.AnswersSentBeforeDeferredOnes : Prop :=
  ∀ s : State, s.phase = .running → s.ulp.tx = none →
    (∀ w, s.ulp.waiting = some w →
      exec .sendAnswerFrame s = .next { s with
        ulp := { s.ulp with waiting := none, tx := some ⟨.answer w.resets, uplinkFrameBytes w.body⟩ } })
      ∧ (∀ g rest body, s.ulp.waiting = none → s.ulp.rxBuf = [] → s.ulp.readyOrder = g :: rest →
        s.ulp.deferredAt g = .ready body → g < 4 → Table.wf Config.segments Deferred.empty s.ulp.deferred →
        ∃ t, exec .sendAnswerFrame s = .next t
          ∧ t = { s with
            ulp := { s.ulp with deferred := t.ulp.deferred, readyOrder := rest, tx := some ⟨.passAnswer, uplinkFrameBytes body⟩ } }
          ∧ ∀ k, t.ulp.deferredAt k = if k = g then .empty else s.ulp.deferredAt k)
      ∧ (s.ulp.waiting = none → s.ulp.rxBuf ≠ [] → exec .sendAnswerFrame s = .next s)

/-- SEND_REPORT_FRAME: with no answer, no deferred answer and no frame to take, the free transmitter begins the report at the head
of the Report Queue, as its source stands; a zone's change marks are cleared (R51); and the first owed source, in the order of
R176, takes the entry freed (R175, R176). -/
def Obligations.ReportsSentFromTheHead : Prop :=
  ∀ (s : State) (src : Source) (rest : List Source), s.phase = .running → s.ulp.tx = none → s.ulp.waiting = none →
    s.ulp.readyOrder = [] → s.ulp.rxBuf = [] → s.field.reports.queue = src :: rest → s.field.Canonical →
    s.field.ReportsSound →
    ∃ t, exec .sendReportFrame s = .next t
      ∧ t = { s with ulp := { s.ulp with tx := some ⟨.report src, uplinkFrameBytes (s.reportBody src)⟩ }, field := t.field }
      ∧ t.field = { s.field with helio := t.field.helio, zone := t.field.zone, reports := t.field.reports }
      ∧ (∀ h, t.field.run h = { s.field.run h with reportOwed := (t.field.run h).reportOwed })
      ∧ (∀ z, t.field.zoneAt z =
        if src = .zone z then { s.field.zoneAt z with marks := ZoneMarks.none } else s.field.zoneAt z)
      ∧ ((∀ o, s.field.reportOwed o = false) → t.field.reports.queue = rest ∧ ∀ o, t.field.reportOwed o = false)
      ∧ ((∃ o, s.field.reportOwed o = true) → ∃ o, s.field.reportOwed o = true ∧ t.field.reports.queue = rest ++ [o]
        ∧ (∀ p, s.field.reportOwed p = true → o.rank ≤ p.rank)
        ∧ ∀ p, t.field.reportOwed p = if p = o then false else s.field.reportOwed p)


/-! ### More facts that every step keeps -/

/-- Every step leaves every live and stored record within its ranges (R182), and every zone's budget at what R28 gives for what
then stands (R28, R29). -/
def Obligations.RangesAndBudgetsKeptByEveryStep : Prop :=
  (∀ s t : State, s.Canonical → s.live.InRange → s.store.tables.InRange → step s = .next t →
    t.live.InRange ∧ t.store.tables.InRange)
  ∧ ∀ s t : State, s.Canonical → s.BudgetsExact → step s = .next t → t.BudgetsExact

/-- After every step OVER and UNSHEDDABLE say what they mean, and unsecured load above a budget belongs to no heliostat that a
walk may take (R30, R44, R45, R47). -/
def Obligations.ZonesSettledAtEveryStep : Prop :=
  ∀ s t : State, s.Sound → s.live.InRange → s.ZonesSettled → step s = .next t → t.ZonesSettled

/-- After every step a CRITICAL zone's load is on its way off or LOST (R93, R94). -/
def Obligations.CriticalZonesClearedAtEveryStep : Prop :=
  ∀ s t : State, s.Sound → s.CriticalCleared → step s = .next t → t.CriticalCleared

/-- After every step the trip record holds the causes that stand and the asserted state its mode gives (R100, R101). In LATCH mode a step
with an onset, a zone becoming CRITICAL or UNSHEDDABLE or a heliostat entering accounted LOST, leaves the latch set and the record asserted;
a step that brings LATCH mode leaves the latch set exactly where a cause is present. -/
def Obligations.TripRecordExactAtEveryStep : Prop :=
  ∀ s t : State, s.Canonical → s.TripExact → step s = .next t → t.TripExact
    ∧ (s.live.watch.mode = .latch → t.live.watch.mode = .latch →
      (∃ z, ((s.field.zoneAt z).critical = false ∧ (t.field.zoneAt z).critical = true)
          ∨ ((s.field.zoneAt z).unsheddable = false ∧ (t.field.zoneAt z).unsheddable = true))
        ∨ (∃ h, ¬ ((s.field.run h).state = .lost ∧ (s.field.run h).unaccounted = false)
          ∧ (t.field.run h).state = .lost ∧ (t.field.run h).unaccounted = false) →
      t.field.trip.latch = true ∧ t.field.trip.asserted = true)
    ∧ (s.live.watch.mode ≠ .latch → t.live.watch.mode = .latch →
      (t.field.trip.latch = true ↔ (∃ z, (t.field.zoneAt z).critical = true ∨ (t.field.zoneAt z).unsheddable = true)
        ∨ ∃ h, (t.field.run h).state = .lost ∧ (t.field.run h).unaccounted = false))

/-- While the part runs, the arbiter keeps the order of R131 and R136, and the slots' states agree with it (R108). -/
def Obligations.ArbiterKeptByEveryStep : Prop :=
  ∀ s t : State, s.Canonical → (s.phase = .running → s.field.ArbiterExact) → step s = .next t → t.phase = .running →
    t.field.ArbiterExact

/-- While the part runs, the exchanges, the held PASSes and the Move Queues agree with the heliostats' records (R21, R56, R58, R83), a
record being present exactly where its runtime state is not ABSENT (R1, R3, R5); and every step keeps the records tidy: nothing held
outside the state it belongs to, no owed motion with nothing left to do (R11), the counts and pointers within their ranges (R2, R62,
R63), and no owed-motion exchange of a heliostat that its request cannot move. That a FAULTED heliostat owes no motion, whatever made it
so, is the model's reading (log entry 31), and a grant's origin and kind are the model's marks in the record (log entries 15 and 16). -/
def Obligations.SegmentLinesKeptByEveryStep : Prop :=
  ∀ s t : State, s.Sound → s.live.InRange → (s.phase = .running → s.field.LinesExact s.env ∧ s.PresenceExact) → step s = .next t →
    (t.phase = .running → t.field.LinesExact t.env ∧ t.PresenceExact) ∧ (s.field.Tidy → t.field.Tidy)

/-- While the field-safe condition holds, nothing is left in force that would put a beam on the receiver (R159, R160). The requested
state and the wake settle count are present in WAKING only, and the survey timer runs in SURVEY only, after every step (R144). -/
def Obligations.FieldSafeHeldByEveryStep : Prop :=
  (∀ s t : State, s.Sound → (s.phase = .running → s.field.LinesExact s.env) → s.OscExact → s.FieldSafeHeld → step s = .next t →
    t.FieldSafeHeld)
  ∧ ∀ s t : State, s.OscExact → step s = .next t → t.OscExact

/-! ### Field-safe -/

/-- FSAFE_ASSERT takes the condition, with the onset actions of R159 and state cause SAFE, its STATE EVENT queued or owed (R158, R176);
what a queued re-aim becomes whose leaving aim was released is the model's reading (log entry 15). FSAFE_RELEASE lets the condition go and
keeps the operating state; a level already taken changes the pin alone (R158). -/
def Obligations.FieldSafeOnsetAndRelease : Prop :=
  ∀ s : State, s.phase = .running →
    (s.osc.fieldSafe = false → s.Sound → s.ZonesSettled → s.field.LinesExact s.env →
        ∃ t, exec .fsafeAssert s = .next t ∧ s.field.MadeSafe t.field
          ∧ (.opState ∈ t.field.reports.queue ∨ t.field.reportOwed .opState = true)
          ∧ t = { s with
            fsafeAsserted := true, osc := { s.osc.safeState with fieldSafe := true, cause := .safe }, field := t.field })
      ∧ (s.osc.fieldSafe = true → exec .fsafeAssert s = .next { s with fsafeAsserted := true })
      ∧ (s.osc.fieldSafe = true → exec .fsafeRelease s = .next { s with
        fsafeAsserted := false, osc := { s.osc with fieldSafe := false, cause := .safeClear }
        field := s.field.queueReport .opState })
      ∧ (s.osc.fieldSafe = false → exec .fsafeRelease s = .next { s with fsafeAsserted := false })

/-- FIELD DEFOCUS makes the onset actions of R159 and leaves the condition as it is; OPERATE becomes HOLD, and a requested OPERATE
HOLD, with cause SAFE; the answer counts the slots ended, the entries withdrawn and the heliostats whose owed motion changed;
the STATE EVENT of a change is queued or owed (R161, R176). What a queued re-aim becomes whose leaving aim was released is the model's
reading (log entry 15). -/
def Obligations.FieldDefocusMakesTheFieldSafe : Prop :=
  ∀ (s : State) (tag : Byte), s.OrderDue (.fieldDefocus tag) → s.Sound → s.ZonesSettled → s.field.LinesExact s.env →
    ∃ t, exec (.fieldDefocus tag) s = .next t ∧ s.field.MadeSafe t.field
      ∧ (s.osc.safeState ≠ s.osc → .opState ∈ t.field.reports.queue ∨ t.field.reportOwed .opState = true)
      ∧ t = { s.popFrame.answer tag 0x14#8 ⟨.done,
          byte ((List.range 8).filter (fun k => (s.field.slotAt k).state.nonIdle)).length
            :: be16 ((List.range 4).map (fun g => (s.field.sxeAt g).queue.length)).sum
            ++ be16 ((List.range 4096).filter (fun h => (t.field.run h).owed != (s.field.run h).owed)).length⟩ with
        osc := if s.osc.safeState = s.osc then s.osc else { s.osc.safeState with cause := .safe }
        field := t.field }

/-! ### Reading -/

/-- READ ZONE (R50), READ HELIOSTAT (R16), TABLE READ (R188) and PROTECTION STATUS (R190): each answers what stands at its taking,
laid out as chapter 10 gives, or its refusal, and changes nothing else, an absent heliostat's runtime fields being answered at their
reset values; STATUS (R164, R169) does so and removes the last-error cause. Times are rounded as the model chose (log entry 20). -/
def Obligations.ReadOrdersAnswerWhatStands : Prop :=
  ∀ (s : State) (tag : Byte),
    (s.OrderDue (.status tag) →
        exec (.status tag) s = .next ({ s.popFrame with
          ulp := { s.popFrame.ulp with lastError := none } }.answer tag 0x16#8 ⟨.done, s.statusBytes⟩))
      ∧ (∀ z : Byte, s.OrderDue (.readZone tag z) → exec (.readZone tag z) s = .next (s.popFrame.answer tag 0x03#8
        (if z.toNat < 64 then
          ⟨.done, zoneReading s.watchOn z.toNat (s.live.zoneAt z.toNat) (s.live.criticalAt z.toNat) (s.field.zoneAt z.toNat)⟩
        else .plain .range)))
      ∧ (∀ h : Half, s.OrderDue (.readHeliostat tag h) → exec (.readHeliostat tag h) s = .next (s.popFrame.answer tag 0x09#8
        (if h.toNat < 4096 then
          ⟨.done, heliostatReading s.now h.toNat (s.live.helioAt h.toNat)
            (if (s.live.helioAt h.toNat).present then s.field.run h.toNat else HelioRun.blank)⟩
        else .plain .range)))
      ∧ (∀ (table : Byte) (first : Half) (count : Byte), s.OrderDue (.tableRead tag table first count) →
        exec (.tableRead tag table first count) s = .next (s.popFrame.answer tag 0x18#8 (match tableOf table with
          | none => .plain .format
          | some id =>
            if id.size ≤ first.toNat ∨ count.toNat = 0 ∨ 16 < count.toNat
                ∨ pageLast id first.toNat < first.toNat + count.toNat - 1 then .plain .range
            else ⟨.done, [table] ++ halfBytes first ++ [count]
              ++ (List.range' first.toNat count.toNat).flatMap (fun i => liveRecord s.live id i)⟩)))
      ∧ (s.OrderDue (.protectionStatus tag) → exec (.protectionStatus tag) s = .next (s.popFrame.answer tag 0x1B#8
        ⟨.done, [byte s.marks.code] ++ commitBytes s.commit ++ be16 s.loadFaults.length
          ++ [byte (min 32 s.loadFaults.length)] ++ (s.loadFaults.take 32).flatMap PageRef.entry⟩))

/-- READ PROGRAM STATUS answers the slot's status record as it stands, refused RANGE above slot 7, and makes an ENDED slot LOADED
with the rest of its record kept (R127). A remaining time is rounded as the model chose (log entry 20). -/
def Obligations.ReadProgramStatusFreesTheEndedSlot : Prop :=
  ∀ (s : State) (tag slot : Byte), s.OrderDue (.readProgramStatus tag slot) →
    (7 < slot.toNat → exec (.readProgramStatus tag slot) s = .next (s.popFrame.answer tag 0x12#8 (.plain .range)))
      ∧ (slot.toNat ≤ 7 → exec (.readProgramStatus tag slot) s = .next ({ s.popFrame with
        field :=
          if (s.field.slotAt slot.toNat).state = SlotState.ended then
            s.field.setSlot slot.toNat { s.field.slotAt slot.toNat with state := .loaded }
          else s.field }.answer tag 0x12#8 ⟨.done, slotStatus s.now slot.toNat (s.field.slotAt slot.toNat)⟩))

/-! ### Zones -/

/-- SET CEILING (R49): refused RANGE for a zone above 63, a first zone above the last, or a value above 8,388,607; otherwise the
ceilings of the range take the value, or are removed for FFFFFFh, the budgets of those that changed are recomputed and their
changes counted in the answer; the zones' readings and conditions, the programs and the secured heliostats are kept. -/
def Obligations.SetCeilingSetsTheRange : Prop :=
  ∀ (s : State) (tag first last : Byte) (value : Tri), s.OrderDue (.setCeiling tag first last value) → s.Sound →
    (63 < last.toNat ∨ last.toNat < first.toNat ∨ (8388607 < value.toNat ∧ value ≠ 0xFFFFFF#24) →
        exec (.setCeiling tag first last value) s = .next (s.popFrame.answer tag 0x02#8 (.plain .range)))
      ∧ (first.toNat ≤ last.toNat → last.toNat ≤ 63 → ∀ v, (value = 0xFFFFFF#24 ∧ v = none)
          ∨ (value.toNat ≤ 8388607 ∧ v = some value.toNat) →
        ∃ t, exec (.setCeiling tag first last value) s = .next t
          ∧ s.AnsweredWith t tag 0x02#8 ⟨.done, [byte ((List.range 64).filter (fun z =>
            first.toNat ≤ z ∧ z ≤ last.toNat ∧ (s.field.zoneAt z).ceiling ≠ v)).length]⟩
          ∧ (∀ z, z < 64 →
            let old := s.field.zoneAt z
            let new := t.field.zoneAt z
            let changed := first.toNat ≤ z ∧ z ≤ last.toNat ∧ old.ceiling ≠ v
            new.ceiling = (if changed then v else old.ceiling)
              ∧ new.budget = (if changed then budgetOf (s.live.zoneAt z) s.watchOn { old with ceiling := v } else old.budget)
              ∧ (changed → new.marks.ceiling)
              ∧ new.lastReading = old.lastReading ∧ new.staleEnds = old.staleEnds ∧ new.warn = old.warn
              ∧ new.critical = old.critical ∧ new.stale = old.stale)
          ∧ s.field.RunsKept (fun _ => True) t.field ∧ s.field.ProgramsKept t.field)

/-! ### AIM -/

/-- An AIM that a check of R31 fails is answered with that check's refusal, the first in the order of R31, and changes no state;
the same-aim test of R32 answers DONE, already on aim, and changes nothing either. -/
def Obligations.AimRefusedChangesNothing : Prop :=
  ∀ (s : State) (tag : Byte) (helio : Half) (point : Byte) (r : Reply), s.OrderDue (.aim tag helio point) →
    s.aimJudgement helio.toNat point.toNat = some r →
    exec (.aim tag helio point) s = .next (s.popFrame.answer tag 0x01#8 r)

/-- An AIM that passes every check is granted as R34 and R35 give: the record, the Move Queue's entry, the Grant List's newest
end, the reference count and the committed loads, within every budget (R33), the HELIO EVENT queued, and nothing else, but that SXEs
may then begin exchanges (R60). The record's own mark of the grant's origin and kind is the model's (log entries 15 and 16). -/
def Obligations.AimGrantCommitsTheLoad : Prop :=
  ∀ (s : State) (tag : Byte) (helio : Half) (point : Byte), s.OrderDue (.aim tag helio point) → s.Sound → s.ZonesSettled →
    s.TripExact → s.live.InRange → s.aimJudgement helio.toNat point.toNat = none →
    let h := helio.toNat
    let a := point.toNat
    let r := s.field.run h
    ∃ t, exec (.aim tag helio point) s = .next t ∧ s.AnsweredWith t tag 0x01#8 ⟨.done, [0#8]⟩
      ∧ t.field.run h = { r with
        granted := some a, leaving := if r.state = .tracking then r.granted else none, state := .slewing
        motionCause := some .order, accepted := false, busyCount := 0, origin := some (.order tag), reAim := r.state == .tracking
        lastCause := some .order, queued := (t.field.run h).queued, inFlight := (t.field.run h).inFlight, reportOwed := (t.field.run h).reportOwed }
      ∧ ((t.field.run h).queued ∨ (t.field.run h).inFlight)
      ∧ (∀ j, j ≠ h → t.field.run j = { s.field.run j with
        inFlight := (t.field.run j).inFlight, queued := (t.field.run j).queued })
      ∧ (∀ g, let q := (s.field.sxeAt g).queue
          ++ (if g = (s.live.helioAt h).segment then [⟨h, a, .order tag⟩] else [])
        (t.field.sxeAt g).queue = q ∨ (t.field.sxeAt g).queue = q.tail)
      ∧ t.field.grants = s.field.grants.filter (· != h) ++ [h]
      ∧ (∀ b, t.field.refAt b = s.field.refAt b + if b = a then 1 else 0)
      ∧ (∀ z, t.field.zoneAt z = { s.field.zoneAt z with
        committed := (s.field.zoneAt z).committed + s.env.contribution h a z })
      ∧ (∀ p ∈ (s.live.aimAt a).footprint, (t.field.zoneAt p.1).committed ≤ (t.field.zoneAt p.1).budget)
      ∧ t.field.slot = s.field.slot ∧ t.field.arbiter = s.field.arbiter ∧ t.field.trip = s.field.trip
      ∧ (t.field.run h).reportOwed = ((s.field.queueReport (.helio h)).run h).reportOwed
      ∧ ∃ f : Field, f.ChoiceOnly t.field ∧ f.reports = (s.field.queueReport (.helio h)).reports ∧ (f.run h).queued = true
        ∧ (∀ j, j ≠ h → f.run j = s.field.run j)
        ∧ ∀ g, f.sxeAt g = { s.field.sxeAt g with
          queue := (s.field.sxeAt g).queue ++ (if g = (s.live.helioAt h).segment then [⟨h, a, .order tag⟩] else []) }

/-! ### Protective motions, CLEAR FAULT and flags -/

/-- A DEFOCUS or STOW order for one heliostat (R14) is refused by the first check that fails and then changes nothing; otherwise
the motion is set as R11 gives, or, for a queued heliostat, its entry withdrawn in the same change (R12); the nothing-remains test
is applied; the answer counts the heliostat if its owed motion changed or its entry was withdrawn. Heliostats that no walk may
take, the zones' inputs and the programs are kept. That a DEFOCUS clears and counts the STOW of a STANDBY heliostat, where R14's table says
no change, and that a queued re-aim whose leaving aim was released goes to rest, are the model's readings (log entries 36 and 15). -/
def Obligations.MotionOrderOwesOneHeliostat : Prop :=
  ∀ (s : State) (tag : Byte) (index : Half) (m : Motion) (c : Instr) (kind : Byte),
    (m = .defocus ∧ c = .defocus tag 0#8 index ∧ kind = 0x04#8) ∨ (m = .stow ∧ c = .stow tag 0#8 index ∧ kind = 0x05#8) →
    s.OrderDue c → s.Sound → s.live.InRange →
    let h := index.toNat
    let r := s.field.run h
    let held := (∃ p, (s.field.sxeAt (s.live.helioAt h).segment).passSlot = some p ∧ p.helio = h)
    ((s.live.helioAt h).present = false → exec c s = .next (s.popFrame.answer tag kind (.plain .range)))
      ∧ ((s.live.helioAt h).present → r.state = .faulted ∨ r.state = .silent →
        exec c s = .next (s.popFrame.answer tag kind (.plain .state)))
      ∧ ((s.live.helioAt h).present → r.state ≠ .faulted → r.state ≠ .silent → r.maint → r.holdsLoad = false →
        exec c s = .next (s.popFrame.answer tag kind (.plain .inhibited)))
      ∧ ((s.live.helioAt h).present → r.state ≠ .faulted → r.state ≠ .silent → (r.maint → r.holdsLoad) → held →
        exec c s = .next (s.popFrame.answer tag kind (.plain .busy)))
      ∧ ((s.live.helioAt h).present → r.state ≠ .faulted → r.state ≠ .silent → (r.maint → r.holdsLoad) → ¬ held →
        ∃ t, exec c s = .next t
          ∧ s.AnsweredWith t tag kind
            ⟨.done, be16 (if r.queued ∨ (t.field.run h).owed ≠ r.owed then 1 else 0)⟩
          ∧ (r.queued = false → t.field.run h =
            { r.by (some .order) (r.setOwed m .order).nothingRemains with
              reportOwed := (t.field.run h).reportOwed, inFlight := (t.field.run h).inFlight, queued := false })
          ∧ (r.queued = true → r.leaving.isSome → (t.field.run h).state = .tracking
            ∧ (t.field.run h).granted = r.leaving ∧ (t.field.run h).leaving = none
            ∧ (t.field.run h).owed = some ⟨m, .order⟩ ∧ (t.field.run h).queued = false
            ∧ (t.field.run h).lastCause = some .order)
          ∧ (r.queued = true → r.leaving = none →
            (t.field.run h).state = (match r.rest with | .standby => .standby | .stowed => .stowed)
            ∧ (t.field.run h).granted = none
            ∧ (t.field.run h).owed = (if m = .stow ∧ r.rest = .standby then some ⟨.stow, .order⟩ else none)
            ∧ (t.field.run h).queued = false ∧ (t.field.run h).lastCause = some .order)
          ∧ s.field.RunsKept (fun j => j ≠ h) t.field ∧ s.field.ZonesKept t.field ∧ s.field.ProgramsKept t.field)

/-- A DEFOCUS or STOW order for a group or for all (R4, R14): refused RANGE for another scope code or a group above 63; otherwise
every member that the order alone would not be refused is given the motion, cause ORDER, as the order for it alone gives it (R11, R12),
the answer counts those whose owed motion changed or whose entry was withdrawn, and every other heliostat is kept. What DEFOCUS makes of a
STANDBY heliostat that owes STOW, and of a queued re-aim whose leaving aim was released, is the model's reading (log entries 36 and 15). -/
def Obligations.MotionOrderOwesTheScope : Prop :=
  ∀ (s : State) (tag scope : Byte) (index : Half) (m : Motion) (c : Instr) (kind : Byte),
    (m = .defocus ∧ c = .defocus tag scope index ∧ kind = 0x04#8) ∨ (m = .stow ∧ c = .stow tag scope index ∧ kind = 0x05#8) →
    s.OrderDue c → s.Sound →
    (2 < scope.toNat ∨ (scope = 1#8 ∧ 63 < index.toNat) → exec c s = .next (s.popFrame.answer tag kind (.plain .range)))
      ∧ ∀ hs, (scope = 1#8 ∧ index.toNat ≤ 63 ∧ hs = s.live.members index.toNat) ∨ (scope = 2#8 ∧ hs = s.live.present.map (·.1)) →
        let given (h : Nat) : Prop := (s.field.run h).motionRefusal (s.field.passHeld s.env h) = none
        ∃ t, exec c s = .next t
          ∧ s.AnsweredWith t tag kind ⟨.done, be16 (hs.filter (fun h =>
            (s.field.run h).motionRefusal (s.field.passHeld s.env h) = none
              ∧ ((s.field.run h).queued = true ∨ (t.field.run h).owed ≠ (s.field.run h).owed))).length⟩
          ∧ (∀ h ∈ hs, given h → (s.field.run h).GivenMotion m .order (t.field.run h))
          ∧ s.field.RunsKept (fun h => h ∉ hs ∨ ¬ given h) t.field ∧ s.field.ZonesKept t.field ∧ s.field.ProgramsKept t.field

/-- CLEAR FAULT (R15): refused RANGE for a scope code above 1, a group above 63, or one heliostat whose record is absent;
otherwise each FAULTED heliostat named becomes UNSURE without a fault cause, its counts 0, cause CLEARED, counted in the answer, its
HELIO EVENT queued, and nothing else changes, but that SXEs may then begin exchanges (R60). -/
def Obligations.ClearFaultMakesUnsure : Prop :=
  ∀ (s : State) (tag scope : Byte) (index : Half), s.OrderDue (.clearFault tag scope index) → s.Sound → s.TripExact →
    (1 < scope.toNat ∨ (scope = 1#8 ∧ 63 < index.toNat) ∨ (scope = 0#8 ∧ (s.live.helioAt index.toNat).present = false) →
        exec (.clearFault tag scope index) s = .next (s.popFrame.answer tag 0x06#8 (.plain .range)))
      ∧ ∀ hs, (scope = 0#8 ∧ (s.live.helioAt index.toNat).present ∧ hs = [index.toNat])
          ∨ (scope = 1#8 ∧ index.toNat ≤ 63 ∧ hs = s.live.members index.toNat) →
        ∃ t, exec (.clearFault tag scope index) s = .next t
          ∧ s.AnsweredWith t tag 0x06#8 ⟨.done, be16 (hs.filter (fun h => (s.field.run h).state = .faulted)).length⟩
          ∧ (∀ h, h ∈ hs → (s.field.run h).state = .faulted → t.field.run h = { s.field.run h with
            state := .unsure, fault := none, silentCount := 0, busyCount := 0, lastCause := some .cleared
            reportOwed := (t.field.run h).reportOwed, inFlight := (t.field.run h).inFlight })
          ∧ (∀ h, h ∉ hs ∨ (s.field.run h).state ≠ .faulted → t.field.run h = { s.field.run h with
            inFlight := (t.field.run h).inFlight, queued := (t.field.run h).queued })
          ∧ t.field = { s.field with helio := t.field.helio, sxe := t.field.sxe, reports := t.field.reports }
          ∧ (let reported := (hs.filter (fun h => (s.field.run h).state = .faulted)).foldl
              (fun (f : Field) h => f.queueReport (.helio h)) s.field
            t.field.reports = reported.reports ∧ (∀ h, (t.field.run h).reportOwed = (reported.run h).reportOwed)
              ∧ ∃ f : Field, f.ChoiceOnly t.field ∧ ∀ g, f.sxeAt g = s.field.sxeAt g)

/-- FLAGS SET (R9): refused RANGE for a group above 63, an empty mask, or a mask with a bit other than 0 and 1; otherwise each
member takes INHIBIT where named, and MAINT where named unless it is SLEWING, RETURNING released, or without load and owed a
motion; the answer carries the number changed and whether all now carry the mask; no record's other field, and nothing else,
changes (R7). FLAGS CLEAR (R10): checked so too; each member loses every flag of the mask that it carries; the answer carries the
number that lost a flag, and all-carry yes only for an empty group. -/
def Obligations.FlagsSetAndClear : Prop :=
  (∀ (s : State) (tag group mask : Byte), s.OrderDue (.flagsSet tag group mask) → s.Sound →
    (63 < group.toNat ∨ mask = 0#8 ∨ 3 < mask.toNat →
        exec (.flagsSet tag group mask) s = .next (s.popFrame.answer tag 0x07#8 (.plain .range)))
      ∧ (group.toNat ≤ 63 → mask ≠ 0#8 → mask.toNat ≤ 3 →
        let hs := s.live.members group.toNat
        ∃ t, exec (.flagsSet tag group mask) s = .next t
          ∧ s.AnsweredWith t tag 0x07#8 ⟨.done,
            be16 (hs.filter (fun h => t.field.run h ≠ s.field.run h)).length
              ++ [if ∀ h ∈ hs, (mask.getLsbD 0 → (t.field.run h).inhibit) ∧ (mask.getLsbD 1 → (t.field.run h).maint) then 1#8
                else 0#8]⟩
          ∧ (∀ h, h ∈ hs → t.field.run h = { s.field.run h with
            inhibit := (s.field.run h).inhibit || mask.getLsbD 0
            maint := (s.field.run h).maint || (mask.getLsbD 1 && !((s.field.run h).state == .slewing
              || ((s.field.run h).state == .returning && (s.field.run h).released)
              || (!(s.field.run h).holdsLoad && (s.field.run h).owed.isSome))) })
          ∧ (∀ h, h ∉ hs → t.field.run h = s.field.run h) ∧ t.field = { s.field with helio := t.field.helio }))
  ∧ ∀ (s : State) (tag group mask : Byte), s.OrderDue (.flagsClear tag group mask) → s.Sound →
    (63 < group.toNat ∨ mask = 0#8 ∨ 3 < mask.toNat →
        exec (.flagsClear tag group mask) s = .next (s.popFrame.answer tag 0x08#8 (.plain .range)))
      ∧ (group.toNat ≤ 63 → mask ≠ 0#8 → mask.toNat ≤ 3 →
        let hs := s.live.members group.toNat
        ∃ t, exec (.flagsClear tag group mask) s = .next t
          ∧ s.AnsweredWith t tag 0x08#8 ⟨.done,
            be16 (hs.filter (fun h => t.field.run h ≠ s.field.run h)).length ++ [if hs = [] then 1#8 else 0#8]⟩
          ∧ (∀ h, h ∈ hs → t.field.run h = { s.field.run h with
            inhibit := (s.field.run h).inhibit && !mask.getLsbD 0, maint := (s.field.run h).maint && !mask.getLsbD 1 })
          ∧ (∀ h, h ∉ hs → t.field.run h = s.field.run h) ∧ t.field = { s.field with helio := t.field.helio })

/-- PASS (R20, R21, R173): refused by the first check of R20 that fails, changing nothing else; otherwise held in the PASS slot of
its segment with its answer deferred under its tag, the heliostat in flight, no answer waiting, and nothing else changed, but that
SXEs may then begin exchanges. The drive's frame, or 4 ms without one, ends the relay: the slot is emptied, the heliostat's record
is otherwise unchanged, the deferred answer, with the reply where there was one, is ready (R21, R83, R173), and the SXE makes its next
choice over what then stands (R60). The clock's place and the bit order of a frame's check are the model's choices (log entries 2, 4 and
46). -/
def Obligations.PassHeldThenRelayed : Prop :=
  (∀ (s : State) (tag : Byte) (helio : Half) (body : List Byte), s.OrderDue (.pass tag helio body) → s.Sound → s.live.InRange →
    let h := helio.toNat
    let g := (s.live.helioAt h).segment
    (∀ r, s.passJudgement h (body.headD 0#8) = some r →
        exec (.pass tag helio body) s = .next (s.popFrame.answer tag 0x0A#8 r))
      ∧ (s.passJudgement h (body.headD 0#8) = none →
        ∃ t, exec (.pass tag helio body) s = .next t
          ∧ t = { s.popFrame with ulp := { s.popFrame.ulp with deferred := t.ulp.deferred }, field := t.field }
          ∧ (∀ k, t.ulp.deferredAt k = if k = g then .held tag else s.ulp.deferredAt k)
          ∧ (∀ k, (t.field.sxeAt k).passSlot = if k = g then some ⟨h, tag, body⟩ else (s.field.sxeAt k).passSlot)
          ∧ t.field.run h = { s.field.run h with inFlight := true }
          ∧ (∀ j, j ≠ h → t.field.run j = { s.field.run j with
            inFlight := (t.field.run j).inFlight, queued := (t.field.run j).queued })
          ∧ t.field = { s.field with helio := t.field.helio, sxe := t.field.sxe }
          ∧ ∃ f : Field, f.ChoiceOnly t.field ∧ f.run h = { s.field.run h with inFlight := true }
            ∧ (∀ j, j ≠ h → f.run j = s.field.run j)
            ∧ ∀ k, f.sxeAt k = { s.field.sxeAt k with
              passSlot := if k = g then some ⟨h, tag, body⟩ else (s.field.sxeAt k).passSlot }))
  ∧ ∀ (s : State) (g : Fin 4) (x : Exchange) (p : PassReq) (since : Nat), s.phase = .running →
    (s.field.sxeAt g).exchange = some x → x.phase = .awaiting since → x.kind = .pass → (s.field.sxeAt g).passSlot = some p →
    s.Sound → s.field.LinesExact s.env →
    let relayed (c : Instr) (now : Nat) (reply : List Byte) : Prop :=
      ∃ t, exec c s = .next t
        ∧ t = { s with
          now := now, ulp := { s.ulp with deferred := t.ulp.deferred, readyOrder := s.ulp.readyOrder ++ [g.val] }
          field := { s.field with helio := t.field.helio, sxe := t.field.sxe } }
        ∧ (∀ k, t.ulp.deferredAt k =
          if k = g then .ready ([0x80#8, p.tag, 0x0A#8, 0#8] ++ be16 p.helio ++ reply) else s.ulp.deferredAt k)
        ∧ (t.field.sxeAt g).passSlot = none ∧ (t.field.sxeAt g).lastEnd = some now
        ∧ (∀ j, t.field.run j = { s.field.run j with inFlight := (t.field.run j).inFlight, queued := (t.field.run j).queued })
        ∧ (t.field.run x.helio).queued = (s.field.run x.helio).queued
        ∧ ∃ f : Field, (∀ j, f.run j = { s.field.run j with inFlight := (s.field.run j).inFlight && j != x.helio })
          ∧ (∀ k, f.sxeAt k =
            if k = g then { s.field.sxeAt k with exchange := none, passSlot := none, lastEnd := some now } else s.field.sxeAt k)
          ∧ f = { s.field with helio := f.helio, sxe := f.sxe }
          ∧ t.field = (State.kick { s with now := now, field := f.choose { s with now := now }.env true g }).field
    (∀ frame fr, readSegFrame frame = some fr → fr.checkOk = true → fr.address = x.address →
        relayed (.driveAnswer g frame) s.now (1#8 :: fr.kind :: fr.params))
      ∧ relayed (.driveResponseTimeout g) (max s.now (since + 4)) [0#8]

/-! ### The Receiver Watch -/

/-- SENSOR_READING (R85, R86, R88): a whole good frame that is taken gives its zone the reading, a fresh stale timer, STALE clear,
WARN and CRITICAL by their limits and the hysteresis, and the budget of what then holds; at a critical onset every heliostat that
still covers the zone is pending (R93). The other zones' inputs, the programs, and secured heliostats off the zone are kept. The bit order of
the check byte is the model's (log entry 46). -/
def Obligations.GoodReadingJudgesTheZone : Prop :=
  ∀ (s : State) (zb t1 t0 flags check : Byte), s.Sound → s.takesReadings → s.sensorRx = none →
    crc8 [zb, t1, t0, flags] = check → zb.toNat ≤ 63 → nat16 t1 t0 ≤ 4095 → flags.getLsbD 0 = false →
    let z := zb.toNat
    let reading := nat16 t1 t0
    let hyst := hysteresisOf s.live.watch.hysteresis
    let old := s.field.zoneAt z
    ∃ t, exec (.sensorReading [0xA5#8, zb, t1, t0, flags, check]) s = .next t ∧ t = { s with field := t.field }
      ∧ (t.field.zoneAt z).lastReading = some reading ∧ (t.field.zoneAt z).staleEnds = some (s.now + 2000)
      ∧ (t.field.zoneAt z).stale = false ∧ (t.field.zoneAt z).ceiling = old.ceiling
      ∧ ((t.field.zoneAt z).warn ↔ if old.warn then ¬ reading + hyst < (s.live.zoneAt z).warnLimit
        else (s.live.zoneAt z).warnLimit ≤ reading)
      ∧ ((t.field.zoneAt z).critical ↔ if old.critical then ¬ reading + hyst < s.live.criticalAt z
        else s.live.criticalAt z ≤ reading)
      ∧ (t.field.zoneAt z).budget = budgetOf (s.live.zoneAt z) s.watchOn (t.field.zoneAt z)
      ∧ (old.critical = false → (t.field.zoneAt z).critical →
        ∀ h, s.env.covers (t.field.run h) z → (t.field.run h).isPending)
      ∧ (∀ y, y ≠ z → (s.field.zoneAt y).SameInputs (t.field.zoneAt y))
      ∧ s.field.RunsKept (fun h => s.env.covers (s.field.run h) z = false) t.field ∧ s.field.ProgramsKept t.field

/-- A fault reading makes its zone STALE and stops its timer, the rest of its conditions kept (R89); of a zone already STALE it
changes nothing; nor does any reading while the watch is off or in NIGHT (R86), a frame whose check fails or that names a zone
above 63 (R85); a gap within a frame discards it (R85). STALE_EXPIRY (R90): a running stale timer runs out, the clock standing at
its end or later, and the zone is made STALE in the same way. The clock's place is the model's choice (log entries 2 and 4), and so is the bit order of the
check byte (log entry 46). -/
def Obligations.OtherReadingsAndDiscards : Prop :=
  ∀ (s : State) (zb t1 t0 flags check : Byte), s.Sound → s.phase = .running →
    let madeStale (y : Nat) (t : State) : Prop :=
      (t.field.zoneAt y).stale = true ∧ (t.field.zoneAt y).staleEnds = none
        ∧ (t.field.zoneAt y).lastReading = (s.field.zoneAt y).lastReading
        ∧ (t.field.zoneAt y).ceiling = (s.field.zoneAt y).ceiling
        ∧ (t.field.zoneAt y).warn = (s.field.zoneAt y).warn ∧ (t.field.zoneAt y).critical = (s.field.zoneAt y).critical
        ∧ (t.field.zoneAt y).budget = budgetOf (s.live.zoneAt y) s.watchOn (t.field.zoneAt y)
        ∧ (∀ j, j ≠ y → (s.field.zoneAt j).SameInputs (t.field.zoneAt j))
        ∧ s.field.RunsKept (fun _ => True) t.field ∧ s.field.ProgramsKept t.field
    let z := zb.toNat
    let c := Instr.sensorReading [0xA5#8, zb, t1, t0, flags, check]
    (s.sensorRx = none → s.takesReadings = false ∨ crc8 [zb, t1, t0, flags] ≠ check ∨ 63 < z → exec c s = .next s)
      ∧ (s.sensorRx = none → s.takesReadings → crc8 [zb, t1, t0, flags] = check → z ≤ 63 → flags.getLsbD 0 = true →
        ((s.field.zoneAt z).stale → exec c s = .next s)
          ∧ ((s.field.zoneAt z).stale = false → ∃ t, exec c s = .next t ∧ t = { s with field := t.field } ∧ madeStale z t))
      ∧ (∀ y ends, (s.field.zoneAt y).staleEnds = some ends →
        ∃ t, exec (.staleExpiry y) s = .next t ∧ t = { s with now := max s.now ends, field := t.field } ∧ madeStale y t)
      ∧ exec .sensorFrameGap s = .next { s with sensorRx := none }

/-- WATCH OFF (R95): refused LOCKED under the limit lock; with the watch off already, DONE with no change; otherwise the watch is
off and every zone STALE with WARN and CRITICAL clear, its timer stopped, its last reading kept and its budget what then holds.
WATCH ON (R96) answers DONE, with no change where the watch is on, and otherwise turns it on and recomputes the budgets. -/
def Obligations.WatchOffAndOn : Prop :=
  ∀ (s : State) (tag : Byte), s.Sound →
    (s.OrderDue (.watchOff tag) →
        (s.limitLock = true → exec (.watchOff tag) s = .next (s.popFrame.answer tag 0x0C#8 (.plain .locked)))
          ∧ (s.limitLock = false → s.watchOn = false →
            exec (.watchOff tag) s = .next (s.popFrame.answer tag 0x0C#8 (.plain .done)))
          ∧ (s.limitLock = false → s.watchOn = true → ∃ t, exec (.watchOff tag) s = .next t
            ∧ t = { s.popFrame.answer tag 0x0C#8 (.plain .done) with watchOn := false, field := t.field }
            ∧ (∀ z, z < 64 → (t.field.zoneAt z).warn = false ∧ (t.field.zoneAt z).critical = false
              ∧ (t.field.zoneAt z).stale = true ∧ (t.field.zoneAt z).staleEnds = none
              ∧ (t.field.zoneAt z).lastReading = (s.field.zoneAt z).lastReading
              ∧ (t.field.zoneAt z).ceiling = (s.field.zoneAt z).ceiling
              ∧ (t.field.zoneAt z).budget = budgetOf (s.live.zoneAt z) false (t.field.zoneAt z))
            ∧ s.field.RunsKept (fun _ => True) t.field ∧ s.field.ProgramsKept t.field))
      ∧ (s.OrderDue (.watchOn tag) →
        (s.watchOn = true → exec (.watchOn tag) s = .next (s.popFrame.answer tag 0x0B#8 (.plain .done)))
          ∧ (s.watchOn = false → ∃ t, exec (.watchOn tag) s = .next t
            ∧ t = { s.popFrame.answer tag 0x0B#8 (.plain .done) with watchOn := true, field := t.field }
            ∧ (∀ z, z < 64 → (s.field.zoneAt z).SameConditions (t.field.zoneAt z)
              ∧ (t.field.zoneAt z).budget = budgetOf (s.live.zoneAt z) true (t.field.zoneAt z))
            ∧ s.field.RunsKept (fun _ => True) t.field ∧ s.field.ProgramsKept t.field))

/-- CLEAR TRIP (R103): in LATCH mode the latch and the asserted state become clear, a TRIP EVENT queued where one of them changed,
the causes kept; in the other modes nothing changes; the answer is DONE. -/
def Obligations.ClearTripClearsTheLatch : Prop :=
  ∀ (s : State) (tag : Byte), s.OrderDue (.clearTrip tag) →
    (s.live.watch.mode ≠ .latch → exec (.clearTrip tag) s = .next (s.popFrame.answer tag 0x0D#8 (.plain .done)))
      ∧ (s.live.watch.mode = .latch → s.field.trip.latch = false → s.field.trip.asserted = false →
        exec (.clearTrip tag) s = .next (s.popFrame.answer tag 0x0D#8 (.plain .done)))
      ∧ (s.live.watch.mode = .latch → s.field.trip.latch = true ∨ s.field.trip.asserted = true →
        exec (.clearTrip tag) s = .next { s.popFrame.answer tag 0x0D#8 (.plain .done) with
          field := { s.field with trip := { s.field.trip with latch := false, asserted := false } }.queueReport .trip })

/-! ### Programs -/

/-- LOAD PROGRAM (R109): refused RANGE for a slot above 7 or a count above 32; BUSY for a slot that is started or ENDED; FORMAT
for other records than the count gives, or at the first record of an unknown kind; RANGE at the first step outside R110's ranges;
and otherwise the slot holds the steps, its status record at its reset values, LOADED, or EMPTY for a count of 0. What a refusal
carries where no step fails is the model's choice (log entry 19). -/
def Obligations.LoadProgramReplacesTheSlot : Prop :=
  ∀ (s : State) (tag slot count : Byte) (records : List Byte), s.OrderDue (.loadProgram tag slot count records) →
    let c := Instr.loadProgram tag slot count records
    let k := slot.toNat
    let n := count.toNat
    let reads := (cutRecords 7 n records).map (readStep n)
    (7 < k ∨ 32 < n → exec c s = .next (s.popFrame.answer tag 0x0F#8 ⟨.range, [0#8, 0#8]⟩))
      ∧ (k ≤ 7 → n ≤ 32 → (s.field.slotAt k).state ≠ .empty → (s.field.slotAt k).state ≠ .loaded →
        exec c s = .next (s.popFrame.answer tag 0x0F#8 (.plain .busy)))
      ∧ (k ≤ 7 → n ≤ 32 → (s.field.slotAt k).state = .empty ∨ (s.field.slotAt k).state = .loaded →
        (records.length ≠ 7 * n → exec c s = .next (s.popFrame.answer tag 0x0F#8 ⟨.format, [0#8, 0#8]⟩))
          ∧ (records.length = 7 * n → ∀ i : Nat, reads[i]? = some StepRead.unknown → (∀ j : Nat, j < i → reads[j]? ≠ some StepRead.unknown) →
            exec c s = .next (s.popFrame.answer tag 0x0F#8 ⟨.format, [1#8, byte i]⟩))
          ∧ (records.length = 7 * n → (∀ j : Nat, reads[j]? ≠ some StepRead.unknown) →
            ∀ i : Nat, reads[i]? = some StepRead.outOfRange → (∀ j : Nat, j < i → reads[j]? ≠ some StepRead.outOfRange) →
            exec c s = .next (s.popFrame.answer tag 0x0F#8 ⟨.range, [1#8, byte i]⟩))
          ∧ (records.length = 7 * n → ∀ steps, reads = steps.map StepRead.ok →
            exec c s = .next ({ s.popFrame with
              field := s.field.setSlot k
                (if n = 0 then Slot.blank else { Slot.blank with steps := steps, state := .loaded }) }.answer tag 0x0F#8
              ⟨.done, [count]⟩)))

/-- START PROGRAM (R132, R133): refused by the first check that fails, changing nothing; otherwise the run begins, its status
record as R111 gives, placed by the first case of R133: RUN, PREEMPT, HELD or PENDING, which the answer carries with the active
slot. No other slot changes but the one preempted (R135). That a STATE at check 2 carries no slot state is the model's reading (log
entry 44). -/
def Obligations.StartProgramPlacesTheSlot : Prop :=
  ∀ (s : State) (tag slot level : Byte), s.OrderDue (.startProgram tag slot level) →
    let c := Instr.startProgram tag slot level
    let k := slot.toNat
    let v := s.field.slotAt k
    let arb := s.field.arbiter
    let started : Slot := { v with
      level := some level.toNat, startTag := some tag, current := 0, executed := 0, endCause := none, flags := RunFlags.none
      residual := [], settleSet := [], waitingOn := none }
    let placed (t : State) (code : Byte) : Prop :=
      exec c s = .next t ∧ t = { s.popFrame.answer tag 0x10#8 ⟨.done, [code, byte (orZero t.field.arbiter.active)]⟩ with
        field := { s.field with slot := t.field.slot, arbiter := t.field.arbiter } }
    (∀ r, s.startJudgement k level.toNat = some r → exec c s = .next (s.popFrame.answer tag 0x10#8 r))
      ∧ (s.startJudgement k level.toNat = none → s.Sound → s.field.ArbiterExact →
        (arb.active = none → ∃ t, placed t 0#8 ∧ t.field.arbiter = { arb with active := some k }
            ∧ ∀ j, t.field.slotAt j = if j = k then { started with state := .running } else s.field.slotAt j)
          ∧ (∀ a, arb.active = some a → level.toNat < s.field.levelOf a → (s.field.slotAt a).insideHolding = false →
            ∃ t, placed t 1#8 ∧ t.field.arbiter = { arb with active := some k, suspended := a :: arb.suspended }
              ∧ ∀ j, t.field.slotAt j =
                if j = k then { started with state := .running }
                else if j = a then
                  { s.field.slotAt a with
                    state := .suspended, waitingOn := none, flags := { (s.field.slotAt a).flags with preempted := true } }
                else s.field.slotAt j)
          ∧ (∀ a, arb.active = some a → level.toNat < s.field.levelOf a → (s.field.slotAt a).insideHolding = true →
            ∃ t, placed t 2#8 ∧ t.field.arbiter = { arb with waiting := arb.waiting ++ [k] }
              ∧ ∀ j, t.field.slotAt j = if j = k then { started with state := .pending } else s.field.slotAt j)
          ∧ (∀ a, arb.active = some a → s.field.levelOf a ≤ level.toNat →
            ∃ t, placed t 3#8 ∧ t.field.arbiter = { arb with waiting := arb.waiting ++ [k] }
              ∧ ∀ j, t.field.slotAt j = if j = k then { started with state := .pending } else s.field.slotAt j))

/-- HALT PROGRAM (R129, R140): refused RANGE above slot 7; otherwise every Move Queue entry of the slot's origin is withdrawn, a
non-idle slot's run ends HALTED and leaves the arbiter, an idle slot stays as it is, and the answer is DONE. The entries of other
origins keep their places, but that an SXE may then begin the exchange of the first; a heliostat whose entry is withdrawn is TRACKING its
old aim, or else at rest, with cause REVOKED (R37, R38), a re-aim whose leaving aim was released before being at rest, the model's reading
(log entry 15). Heliostats that no walk may take and the zones' inputs are kept, and so are the other slots where the slot was not the
active program. -/
def Obligations.HaltProgramEndsTheRun : Prop :=
  ∀ (s : State) (tag slot : Byte), s.OrderDue (.haltProgram tag slot) → s.Sound → s.field.LinesExact s.env →
    let k := slot.toNat
    (7 < k → exec (.haltProgram tag slot) s = .next (s.popFrame.answer tag 0x11#8 (.plain .range)))
      ∧ (k ≤ 7 → ∃ t, exec (.haltProgram tag slot) s = .next t ∧ s.AnsweredWith t tag 0x11#8 (.plain .done)
        ∧ (∀ g e, e ∈ (t.field.sxeAt g).queue → e.origin ≠ .program k)
        ∧ (s.ZonesSettled →
          (∀ g, let q := (s.field.sxeAt g).queue.filter (fun e => e.origin != .program k)
            (t.field.sxeAt g).queue = q ∨ (t.field.sxeAt g).queue = q.tail)
            ∧ ∀ g e, e ∈ (s.field.sxeAt g).queue → e.origin = .program k →
              t.field.run e.helio = { (s.field.run e.helio).grantUndone with
                lastCause := some .revoked, inFlight := (t.field.run e.helio).inFlight
                reportOwed := (t.field.run e.helio).reportOwed })
        ∧ ((s.field.slotAt k).state.nonIdle → t.field.slotAt k = { (s.field.slotAt k).endedBy .halted with
            residual := (t.field.slotAt k).residual, flags := (t.field.slotAt k).flags }
          ∧ t.field.arbiter.active ≠ some k ∧ k ∉ t.field.arbiter.suspended ∧ k ∉ t.field.arbiter.waiting)
        ∧ ((s.field.slotAt k).state.nonIdle = false → s.field.ProgramsKept t.field)
        ∧ (s.field.arbiter.active ≠ some k → t.field.arbiter.active = s.field.arbiter.active
          ∧ ∀ j, j ≠ k → t.field.slotAt j = { s.field.slotAt j with
            residual := (t.field.slotAt j).residual, flags := (t.field.slotAt j).flags })
        ∧ s.field.RunsKept (fun _ => True) t.field ∧ s.field.ZonesKept t.field)

/-- JUMP (R126) goes on at its target and TEST (R125) at the step after next where its condition holds and at the next where it
does not, each counted by R111, with nothing else changed while the run goes on. -/
def Obligations.JumpAndTestGoOn : Prop :=
  ∀ (s : State) (k : Nat), s.Sound → s.TripExact →
    let v := s.field.slotAt k
    let goesOn (c : Instr) (next : Nat) : Prop :=
      ∃ t, exec c s = .next t
        ∧ t = { s with field := { s.field with slot := t.field.slot, arbiter := t.field.arbiter, reports := t.field.reports } }
        ∧ t.field.slotAt k = v.wentOn next
        ∧ ((v.wentOn next).state = .running → t.field.arbiter = s.field.arbiter ∧ t.field.reports = s.field.reports
          ∧ ∀ j, j ≠ k → t.field.slotAt j = s.field.slotAt j)
    (∀ target, s.StepDue k (.jump target) → goesOn .jump target)
      ∧ (∀ code, s.StepDue k (.test code) →
        (code.Met s → goesOn .test (v.current + 2)) ∧ (¬ code.Met s → goesOn .test (v.current + 1)))

/-- END (R126) ends the run COMPLETE, and the next program is chosen by R138 in the same change: the candidate of lowest level,
the suspended one before a pending one of its level, the oldest among pending ones. -/
def Obligations.EndCompletesAndTheNextIsChosen : Prop :=
  ∀ (s : State) (k : Nat), s.Sound → s.TripExact → s.field.ArbiterExact → s.StepDue k .finish →
    ∃ t, exec .endStep s = .next t
      ∧ t = { s with field := { s.field with slot := t.field.slot, arbiter := t.field.arbiter, reports := t.field.reports } }
      ∧ t.field.slotAt k = (s.field.slotAt k).counted.endedBy .complete
      ∧ Field.NextChosen s.field.arbiter t.field.arbiter s.field t.field
      ∧ (∀ j, j ≠ k → t.field.arbiter.active ≠ some j → t.field.slotAt j = s.field.slotAt j)

/-- WAIT (R124) makes the slot WAITING on its timer for the duration; WAIT_TIMER_EXPIRY completes the step, the clock standing at
the timer's end or later, and GROUP_SETTLE_WAIT_END completes a group step whose followed members have all stopped moving off
(R122); the run goes on as R111 gives, but where a held preemption takes effect (R136): the pending slot of lowest level, the
oldest among equals, becomes the active program, and the program it preempts is suspended on top of the stack at the step that
follows (R135). The clock's place is the model's choice (log entries 2 and 4), and so is that of GROUP_SETTLE_WAIT_END as a step of its
own, judged when it comes (log entry 8). -/
def Obligations.WaitsBeginAndEnd : Prop :=
  (∀ (s : State) (k : Nat), s.Sound → s.TripExact →
    let v := s.field.slotAt k
    (∀ tenths hold, s.StepDue k (.wait tenths hold) → ∃ t, exec .wait s = .next t
        ∧ t = { s with field := { s.field with slot := t.field.slot } }
        ∧ ∀ j, t.field.slotAt j =
          if j = k then { v with state := .waiting, waitingOn := some (.timer (s.now + 100 * tenths)) } else s.field.slotAt j)
      ∧ ∀ st, (st.holds → ∀ j ∈ s.field.arbiter.waiting, s.field.levelOf k ≤ s.field.levelOf j) →
        (∀ ends, s.WaitDue k st (.timer ends) → ∃ t, exec .waitTimerExpiry s = .next t
            ∧ t = { s with
              now := max s.now ends
              field := { s.field with slot := t.field.slot, arbiter := t.field.arbiter, reports := t.field.reports } }
            ∧ t.field.slotAt k = v.wentOn (v.current + 1))
          ∧ (∀ followed, s.WaitDue k st (.offReceiver followed) → (∀ h ∈ followed, (s.field.run h).movingOff = false) →
            ∃ t, exec .groupSettleWaitEnd s = .next t
              ∧ t = { s with
                field := { s.field with slot := t.field.slot, arbiter := t.field.arbiter, reports := t.field.reports } }
              ∧ t.field.slotAt k = v.wentOn (v.current + 1)))
  ∧ ∀ (s : State) (k m ends : Nat) (l1 l2 : List Nat), s.Sound → s.TripExact → s.field.ArbiterExact →
    (∃ tenths, s.WaitDue k (.wait tenths true) (.timer ends)) →
    let v := s.field.slotAt k
    v.executed + 1 < 1024 → v.current + 1 < v.steps.length → s.field.arbiter.waiting = l1 ++ m :: l2 →
    s.field.levelOf m < s.field.levelOf k → (∀ j ∈ l1, s.field.levelOf m < s.field.levelOf j) →
    (∀ j ∈ l2, s.field.levelOf m ≤ s.field.levelOf j) →
    ∃ t, exec .waitTimerExpiry s = .next t
      ∧ t = { s with
        now := max s.now ends, field := { s.field with slot := t.field.slot, arbiter := t.field.arbiter } }
      ∧ t.field.arbiter = ⟨some m, k :: s.field.arbiter.suspended, l1 ++ l2⟩
      ∧ ∀ j, t.field.slotAt j =
        if j = m then { s.field.slotAt m with state := .running }
        else if j = k then
          { v.counted with current := v.current + 1, state := .suspended, flags := { v.flags with preempted := true } }
        else s.field.slotAt j

/-- CEILING (R123) acts as SET CEILING with the step's range and value, and completes at once. -/
def Obligations.CeilingStepSetsTheRange : Prop :=
  ∀ (s : State) (k first last : Nat) (v : Option Nat), s.Sound → s.StepDue k (.ceiling first last v) → last < 64 →
    ∃ t, exec .ceiling s = .next t ∧ t = { s with field := t.field }
      ∧ (∀ z, z < 64 →
        let old := s.field.zoneAt z
        let new := t.field.zoneAt z
        let changed := first ≤ z ∧ z ≤ last ∧ old.ceiling ≠ v
        new.ceiling = (if changed then v else old.ceiling)
          ∧ new.budget = (if changed then budgetOf (s.live.zoneAt z) s.watchOn { old with ceiling := v } else old.budget)
          ∧ new.lastReading = old.lastReading ∧ new.staleEnds = old.staleEnds ∧ new.warn = old.warn
          ∧ new.critical = old.critical ∧ new.stale = old.stale)
      ∧ t.field.slotAt k = { (s.field.slotAt k).wentOn ((s.field.slotAt k).current + 1) with
        residual := (t.field.slotAt k).residual, flags := (t.field.slotAt k).flags }
      ∧ s.field.RunsKept (fun _ => True) t.field

/-- DEFOCUS_GROUP and STOW_GROUP (R121, R122): each member that the order would not refuse is given the motion, cause PROGRAM, as a
DEFOCUS or STOW order would give it (R11, R12, R14); with SETTLE, while a member is moving off, the slot waits on those that owe or are
RETURNING, and otherwise the step completes. Heliostats outside the group that no walk may take, and the zones' inputs, are kept. What
DEFOCUS makes of a STANDBY heliostat that owes STOW, and of a queued re-aim whose leaving aim was released, is the model's reading (log
entries 36 and 15). The residual is not stated: what the step's own withdrawals put in it is the model's reading too (log entry 47). -/
def Obligations.GroupMotionStepsOweMembers : Prop :=
  ∀ (s : State) (k group : Nat) (settle hold : Bool) (m : Motion) (c : Instr) (st : Step),
    (m = .defocus ∧ c = .defocusGroup ∧ st = .defocusGroup group settle hold)
      ∨ (m = .stow ∧ c = .stowGroup ∧ st = .stowGroup group settle hold) →
    s.StepDue k st → s.Sound → s.field.ArbiterExact →
    let hs := s.live.members group
    let v := s.field.slotAt k
    ∃ t, exec c s = .next t ∧ t = { s with field := t.field }
      ∧ (∀ h ∈ hs, (s.field.run h).motionRefusal (s.field.passHeld s.env h) = none →
        (s.field.run h).GivenMotion m .program (t.field.run h))
      ∧ (let followed := hs.filter (fun h => (t.field.run h).owed.isSome || (t.field.run h).state == .returning)
        t.field.slotAt k =
          if settle = true ∧ ∃ h ∈ followed, (t.field.run h).movingOff = true then
            { v with
              state := .waiting, waitingOn := some (.offReceiver followed), residual := (t.field.slotAt k).residual
              flags := (t.field.slotAt k).flags }
          else
            { v.wentOn (v.current + 1) with
              residual := (t.field.slotAt k).residual, flags := (t.field.slotAt k).flags })
      ∧ s.field.RunsKept
        (fun h => h ∉ hs ∨ (s.field.run h).motionRefusal (s.field.passHeld s.env h) ≠ none) t.field
      ∧ s.field.ZonesKept t.field

/-- AIM_GROUP (R114 to R118): on a member count other than expected, without TOLERATE COUNT, the run ends COUNT MISMATCH and no
member is taken; otherwise the members are taken in member order, the j-th for first aim + (j mod spread), each placed in the
settle set, in the residual, or, from the first that meets a full queue on, still to be taken; a member that passes the checks is
granted that aim, one in the settle set holds it, and only members are granted, within the budgets. QUEUE_SPACE_RESUME (R117) goes on
so with the awaited member and those after it, once an entry has left the Move Queue of its segment, and is nothing before: its place
as a step of its own, the bit that remembers the entry, and the reading of the segment from the member's live record when it comes, are
the model's choices (log entries 5, 8 and 38). The members that such a wait has still to take are in ascending index, each after those
already in the settle set: so no wait stands at reset, and every step keeps it so (R4, R114, R117). -/
def Obligations.AimGroupTakesItsMembers : Prop :=
  (∀ (s : State) (k group first spread : Nat) (expected : Option Nat) (flags : AimFlags),
    s.StepDue k (.aimGroup group first spread expected flags) → s.Sound → s.ZonesSettled → s.field.ArbiterExact →
    s.live.InRange → 0 < spread →
    let hs := s.live.members group
    let v := s.field.slotAt k
    ∃ t, exec .aimGroup s = .next t ∧ t = { s with field := t.field }
      ∧ ((∃ n, expected = some n ∧ n ≠ hs.length) → flags.tolerateCount = false →
        t.field.slotAt k = { v.counted.endedBy .countMismatch with
            residual := [], flags := { v.flags with countMismatch := true } }
          ∧ ∀ h, t.field.run h = { s.field.run h with inFlight := (t.field.run h).inFlight, queued := (t.field.run h).queued })
      ∧ ((∀ n, expected = some n → n = hs.length) ∨ flags.tolerateCount = true →
        ((t.field.slotAt k).state = .ended ∨ (t.field.slotAt k).Placed first spread 0 hs)
          ∧ State.GrantsMembers first spread 0 hs s t ∧ State.PassersGranted k first spread 0 hs s t)
      ∧ (∀ h, h ∉ hs → t.field.run h = { s.field.run h with
        inFlight := (t.field.run h).inFlight, queued := (t.field.run h).queued }))
  ∧ (∀ (s : State) (k group first spread j h : Nat) (expected : Option Nat) (flags : AimFlags) (rest : List Nat) (short : Bool),
    s.WaitDue k (.aimGroup group first spread expected flags) (.queueSpace j (h :: rest) short) → s.Sound → s.ZonesSettled →
    s.field.ArbiterExact → s.field.AwaitedExact → s.PresenceExact → s.live.InRange → 0 < spread →
    ((s.field.sxeAt (s.live.helioAt h).segment).spaceFreed = false → exec .queueSpaceResume s = .next s)
      ∧ ((s.field.sxeAt (s.live.helioAt h).segment).spaceFreed = true →
        ∃ t, exec .queueSpaceResume s = .next t ∧ t = { s with field := t.field }
          ∧ ((t.field.slotAt k).state = .ended ∨ (t.field.slotAt k).Placed first spread j (h :: rest))
          ∧ State.GrantsMembers first spread j (h :: rest) s t ∧ State.PassersGranted k first spread j (h :: rest) s t
          ∧ ∀ i, i ∉ h :: rest → t.field.run i = { s.field.run i with
            inFlight := (t.field.run i).inFlight, queued := (t.field.run i).queued }))
  ∧ State.reset.field.AwaitedExact
  ∧ ∀ s t : State, s.Canonical → s.field.AwaitedExact → step s = .next t → t.field.AwaitedExact

/-- SETTLE_WAIT_END (R119): once no member of the settle set is unsettled, every one not TRACKING the aim the step gave it and not
yet in the residual is placed there UNSETTLED, and the step completes; before, it is nothing. Its place as a step of its own, judged
when it comes, is the model's choice (log entries 5 and 8). -/
def Obligations.SettleWaitEndsWhenSettled : Prop :=
  ∀ (s : State) (k group first spread : Nat) (expected : Option Nat) (flags : AimFlags),
    s.WaitDue k (.aimGroup group first spread expected flags) .settle → s.Sound → s.TripExact →
    let v := s.field.slotAt k
    ((∃ p ∈ v.settleSet, (s.field.run p.1).unsettledOn p.2 = true) → exec .settleWaitEnd s = .next s)
      ∧ ((∀ p ∈ v.settleSet, (s.field.run p.1).unsettledOn p.2 = false) →
        (flags.hold → ∀ j ∈ s.field.arbiter.waiting, s.field.levelOf k ≤ s.field.levelOf j) →
        ∃ t, exec .settleWaitEnd s = .next t
          ∧ t = { s with
            field := { s.field with slot := t.field.slot, arbiter := t.field.arbiter, reports := t.field.reports } }
          ∧ t.field.slotAt k = { v.wentOn (v.current + 1) with residual := (t.field.slotAt k).residual }
          ∧ (∀ p ∈ v.settleSet, ¬((s.field.run p.1).state = .tracking ∧ (s.field.run p.1).granted = some p.2) →
            ∃ reason, (p.1, reason) ∈ (t.field.slotAt k).residual)
          ∧ (∀ p ∈ v.residual, p ∈ (t.field.slotAt k).residual)
          ∧ (∀ p ∈ (t.field.slotAt k).residual, p ∈ v.residual ∨ p.2 = .unsettled))

/-! ### The operating state -/

/-- SET STATE (R151, R152, R156): refused by the first check that fails, or answered no change, changing nothing; otherwise HOLD
to OPERATE and NIGHT to WAKING change the state, the cause and the wake, queue the STATE EVENT and let the SXEs choose, no more.
-/
def Obligations.SetStateEntersOperateAndWaking : Prop :=
  ∀ (s : State) (tag target : Byte), s.OrderDue (.setState tag target) →
    let c := Instr.setState tag target
    let entered (t : State) (o : Osc) : Prop :=
      exec c s = .next t ∧ t = { s.popFrame.answer tag 0x13#8 (t.setStateDone false) with osc := o, field := t.field }
        ∧ (s.field.queueReport .opState).ChoiceOnly t.field
    (∀ r, s.setStateJudgement target = some r → exec c s = .next (s.popFrame.answer tag 0x13#8 r))
      ∧ (s.setStateJudgement target = none → s.Sound →
        (s.osc.opState = .hold → target = 2#8 → ∃ t, entered t { s.osc with opState := .operate, cause := .order })
          ∧ ∀ r : Requested, s.osc.opState = .night → r.opState.code = target.toNat →
            ∃ t, entered t { s.osc with opState := .waking, wake := some ⟨r, 0, s.now⟩, cause := .order })

/-- SET STATE from OPERATE to HOLD (R152) ends every non-idle slot HOLD (R141), the arbiter left empty, and keeps the heliostats,
the zones and the trip record. SET STATE to NIGHT (R153, R97), where none of R153's facts stands, makes every zone STALE with WARN
and CRITICAL clear and its timer stopped, and keeps the last readings, the ceilings, the programs and the secured heliostats. -/
def Obligations.SetStateEntersHoldAndNight : Prop :=
  ∀ (s : State) (tag target : Byte), s.OrderDue (.setState tag target) → s.setStateJudgement target = none → s.Sound →
    (s.osc.opState = .operate → target = 1#8 → s.field.ArbiterExact →
        ∃ t, exec (.setState tag target) s = .next t
          ∧ t = { s.popFrame.answer tag 0x13#8 ⟨.done, [0#8, 1#8, 0#8]⟩ with
            osc := { s.osc with opState := .hold, wake := none, surveyEnds := none, cause := .order }, field := t.field }
          ∧ s.field.SlotsEnded .hold t.field ∧ t.field.arbiter = Arbiter.idle
          ∧ (∀ h, t.field.run h = { s.field.run h with
            inFlight := (t.field.run h).inFlight, queued := (t.field.run h).queued })
          ∧ t.field = { s.field with
            helio := t.field.helio, sxe := t.field.sxe, slot := t.field.slot, arbiter := t.field.arbiter
            reports := t.field.reports })
      ∧ (s.osc.opState = .hold ∨ s.osc.opState = .operate → target = 3#8 →
        ∃ t, exec (.setState tag target) s = .next t
          ∧ t = { s.popFrame.answer tag 0x13#8 (t.setStateDone false) with
            osc := { s.osc with opState := .night, cause := .order }, field := t.field }
          ∧ (∀ z, z < 64 → (t.field.zoneAt z).warn = false ∧ (t.field.zoneAt z).critical = false
            ∧ (t.field.zoneAt z).stale = true ∧ (t.field.zoneAt z).staleEnds = none
            ∧ (t.field.zoneAt z).lastReading = (s.field.zoneAt z).lastReading
            ∧ (t.field.zoneAt z).ceiling = (s.field.zoneAt z).ceiling
            ∧ (t.field.zoneAt z).budget = budgetOf (s.live.zoneAt z) s.watchOn (t.field.zoneAt z))
          ∧ s.field.RunsKept (fun _ => True) t.field ∧ s.field.ProgramsKept t.field)

/-- SURVEY_LIMIT (R149): every present UNSURE heliostat becomes LOST unaccounted, cause SURVEY, its owed motion cleared, and is
counted as left LOST where the survey had not counted it; the state is HOLD with the survey timer stopped. WAKE_SETTLE_TICK raises
the wake count by 1; WAKE_DONE, once the count stands at 7 or 8 (log entry 8) and not before, ends the wake in the requested state
(R157). The clock's place is the model's choice (log entries 2 and 4). -/
def Obligations.SurveyAndWakeEnd : Prop :=
  ∀ s : State, s.phase = .running →
    (∀ ends, s.osc.surveyEnds = some ends → s.Sound → s.TripExact → s.field.ArbiterExact →
        let unsure (h : Nat) : Prop := (s.live.helioAt h).present ∧ (s.field.run h).state = .unsure
        ∃ t n, exec .surveyLimit s = .next t
          ∧ (∃ hs : List Nat, hs.Nodup ∧ (∀ h, h ∈ hs ↔ unsure h ∧ h ∉ s.osc.counted) ∧ n = hs.length)
          ∧ t = { s with
            now := max s.now ends
            osc := { s.osc with
              opState := .hold, wake := none, surveyEnds := none, leftLost := s.osc.leftLost + n, cause := .surveyLimit }
            field := t.field }
          ∧ (∀ h, unsure h → t.field.run h = { s.field.run h with
            state := .lost, unaccounted := true, owed := none
            busyCount := if (s.field.run h).owed.isSome then 0 else (s.field.run h).busyCount, lastCause := some .survey
            inFlight := (t.field.run h).inFlight, reportOwed := (t.field.run h).reportOwed })
          ∧ (∀ h, ¬ unsure h → t.field.run h = { s.field.run h with
            inFlight := (t.field.run h).inFlight, queued := (t.field.run h).queued })
          ∧ s.field.SlotsEnded .hold t.field
          ∧ t.field = { s.field with
            helio := t.field.helio, sxe := t.field.sxe, slot := t.field.slot, arbiter := t.field.arbiter
            reports := t.field.reports })
      ∧ ∀ k, s.osc.wake = some k →
        (k.count < 8 → exec .wakeSettleTick s = .next { s with
            now := max s.now (k.since + 25 * (k.count + 1)), osc := { s.osc with wake := some { k with count := k.count + 1 } } })
          ∧ (k.count < 7 → exec .wakeDone s = .next s)
          ∧ (7 ≤ k.count → k.requested = .operate → exec .wakeDone s = .next { s with
            now := max s.now (k.since + 200), osc := { s.osc with opState := .operate, wake := none, cause := .wakeDone }
            field := s.field.queueReport .opState })
          ∧ (7 ≤ k.count → k.requested = .hold → s.Canonical → ∃ t, exec .wakeDone s = .next t
            ∧ t = { s with
              now := max s.now (k.since + 200)
              osc := { s.osc with opState := .hold, wake := none, surveyEnds := none, cause := .wakeDone }
              field := { s.field with slot := t.field.slot, arbiter := t.field.arbiter, reports := t.field.reports } }
            ∧ s.field.SlotsEnded .hold t.field)

/-! ### The segment lines -/

/-- Night polls (R64): on an idle segment in NIGHT without work of levels 1 to 4, the heliostat whose last exchange is oldest, the
lower index among equals, is polled once that exchange is absent or 120 s old and 50 ms have passed since the segment's last one:
at NIGHT_SPACING_EXPIRY, where it is due by then, and at NIGHT_POLL_DUE, the clock standing at that time or later. The clock's
place and the bit order of the request's check are the model's choices (log entries 2, 4 and 46). -/
def Obligations.NightPollsTheOldestDue : Prop :=
  ∀ (s : State) (g : Fin 4), s.phase = .running → s.osc.opState = .night → s.Sound →
    let x := s.field.sxeAt g
    let free (h : Nat) : Prop :=
      (s.live.helioAt h).present ∧ (s.live.helioAt h).segment = g ∧ (s.field.run h).inFlight = false
    let oldest (h : Nat) : Prop := free h ∧ ∀ j, free j → (s.field.run h).since < (s.field.run j).since
      ∨ ((s.field.run h).since = (s.field.run j).since ∧ h ≤ j)
    let polled (t : State) (h now : Nat) : Prop :=
      t = { s with now := now, field := { s.field with helio := t.field.helio, sxe := t.field.sxe } }
        ∧ (∀ j, t.field.run j = { s.field.run j with inFlight := (s.field.run j).inFlight || j == h })
        ∧ ∀ k, t.field.sxeAt k =
          if k = g then
            { x with exchange := some ⟨h, (s.live.helioAt h).address, .query,
                segmentFrame (s.live.helioAt h).address 0x03#8 [], false, .sending⟩ }
          else s.field.sxeAt k
    x.exchange = none → x.passSlot = none →
    (∀ h, free h → (s.field.run h).servable = false ∧ (s.field.run h).unsettled = false) →
    (∀ e, x.lastEnd = some e →
        let now := max s.now (e + 50)
        (∀ h, oldest h → (∀ l, (s.field.run h).lastExchange = some l → l + 120000 ≤ now) →
            ∃ t, exec (.nightSpacingExpiry g) s = .next t ∧ polled t h now)
          ∧ ((∀ h, free h → ∃ l, (s.field.run h).lastExchange = some l ∧ now < l + 120000) →
            exec (.nightSpacingExpiry g) s = .next { s with now := now }))
      ∧ ∀ h, oldest h →
        ∃ t now, exec (.nightPollDue g) s = .next t ∧ polled t h now ∧ s.now ≤ now
          ∧ (∀ l, (s.field.run h).lastExchange = some l → l + 120000 ≤ now) ∧ (∀ e, x.lastEnd = some e → e + 50 ≤ now)
          ∧ (now = s.now ∨ (∃ l, (s.field.run h).lastExchange = some l ∧ now = l + 120000)
            ∨ ∃ e, x.lastEnd = some e ∧ now = e + 50)

/-- SEGMENT_REQUEST_SENT starts the answer window (R54, R56). A window of 4 ms that passes without an answer
(DRIVE_RESPONSE_TIMEOUT), or a complete frame with a wrong check value, a wrong address or a kind that R54 does not permit for the
request, ends a request not yet repeated in one repeat of the same bytes, but for a PASS; frames outside the window are ignored (R56,
R83), and so are bytes that are no complete frame, the model's reading (log entry 21). The clock's place and the bit order of a
frame's check are the model's choices (log entries 2, 4 and 46). Outside NIGHT an SXE without an exchange makes its choice by the levels of R61, with the pointers of R62 and R63 and
the re-sends of R71, and begins it with the request of R65, R66, R67 or R83. -/
def Obligations.RequestSentThenRepeatedOnce : Prop :=
  (∀ (s : State) (g : Fin 4) (x : Exchange), s.phase = .running → (s.field.sxeAt g).exchange = some x →
    let withExchange (y : Exchange) : Field := s.field.setSxe g { s.field.sxeAt g with exchange := some y }
    let permitted (fr : SegFrame) : Prop := match x.kind with
      | .query => ∃ st, readAnswer fr.kind fr.params = some (.status st)
      | .moveAim _ | .owedMotion _ _ => ∃ a, readAnswer fr.kind fr.params = some a ∧ ∀ st, a ≠ .status st
      | .pass => True
    (x.phase = .sending → exec (.segmentRequestSent g) s = .next { s with field := withExchange { x with phase := .awaiting s.now } }
        ∧ ∀ frame, exec (.driveAnswer g frame) s = .next s)
      ∧ (∀ since, x.phase = .awaiting since → x.kind ≠ .pass → x.repeated = false →
        exec (.driveResponseTimeout g) s = .next { s with
          now := max s.now (since + 4), field := withExchange { x with repeated := true, phase := .sending } })
      ∧ (∀ since frame, x.phase = .awaiting since →
        (readSegFrame frame = none → exec (.driveAnswer g frame) s = .next s)
          ∧ ∀ fr, readSegFrame frame = some fr → fr.checkOk = false ∨ fr.address ≠ x.address ∨ ¬ permitted fr →
            (x.kind ≠ .pass → x.repeated = false → exec (.driveAnswer g frame) s = .next { s with
                field := withExchange { x with repeated := true, phase := .sending } })
              ∧ (x.kind = .pass → exec (.driveAnswer g frame) s = .next s)))
  ∧ ∀ (s : State) (g : Fin 4) (poll : Bool), s.osc.opState ≠ .night → s.Canonical → s.field.LinesExact s.env → s.field.Tidy →
    (s.field.sxeAt g).exchange = none →
    let f := s.field
    let t := f.choose s.env poll g
    let x := f.sxeAt g
    let address (h : Nat) := (s.live.helioAt h).address
    let free (h : Nat) : Prop := (s.live.helioAt h).present ∧ (s.live.helioAt h).segment = g ∧ (f.run h).inFlight = false
    let served (h : Nat) : Prop := free h ∧ (f.run h).owed.isSome ∧ ¬ ((f.run h).state = .lost ∧ (f.run h).silentCount = 3)
    let ofHolder (h : Nat) : Prop := served h ∧ (f.run h).holdsLoad = true
    let watch (h : Nat) : Prop := free h ∧ ∃ l, (f.run h).lastExchange = some l ∧ l + 10000 ≤ s.now
    let resend (h : Nat) : Prop :=
      free h ∧ (f.run h).state = .slewing ∧ (f.run h).accepted = false ∧ (f.run h).queued = false ∧ (f.run h).owed = none
    let unsettled (h : Nat) : Prop := free h ∧ ((f.run h).state = .slewing ∧ (f.run h).accepted = true
      ∨ (f.run h).state = .returning ∨ (f.run h).state = .lost ∨ (f.run h).state = .unsure)
    let first (pointer : Nat) (offers : Nat → Prop) (h : Nat) : Prop :=
      offers h ∧ ∀ j, offers j → searchDistance pointer h ≤ searchDistance pointer j
    let oldest (offers : Nat → Prop) (h : Nat) : Prop := offers h ∧ ∀ j, offers j → (f.run h).since < (f.run j).since
      ∨ ((f.run h).since = (f.run j).since ∧ h ≤ j)
    let noneOf (offers : Nat → Prop) : Prop := ∀ h, ¬ offers h
    let moved (h : Nat) : Prop := ∀ m c, (f.run h).owed = some ⟨m, c⟩ →
      let k := s.live.helioAt h
      let p := s.live.standbyAt k.standby
      let toStandby := m = .defocus ∧ p.present = true
      Field.Begun s.live g h (.owedMotion (if toStandby then .standby else .stow) c)
        (if toStandby then segmentFrame k.address 0x01#8 (halfBytes p.x ++ halfBytes p.y ++ halfBytes p.z
          ++ halfBytes k.offsetEl ++ halfBytes k.offsetAz ++ [0#8, byte k.standby])
        else segmentFrame k.address 0x02#8 []) { x with scan := (h + 1) % 4096 } f t
    let aimed (h : Nat) (origin : Option Origin) (y : Sxe) : Prop := ∀ a, (f.run h).granted = some a →
      let k := s.live.helioAt h
      let p := s.live.aimAt a
      Field.Begun s.live g h (.moveAim origin) (segmentFrame k.address 0x01#8 (halfBytes p.x ++ halfBytes p.y ++ halfBytes p.z
        ++ halfBytes k.offsetEl ++ halfBytes k.offsetAz ++ [1#8, byte a])) y f t
    let polled (h : Nat) (y : Sxe) : Prop := Field.Begun s.live g h .query (segmentFrame (address h) 0x03#8 []) y f t
    (∀ h, first x.scan ofHolder h → moved h)
      ∧ (noneOf ofHolder → (∀ h, oldest watch h → polled h x)
        ∧ (noneOf watch → (∀ h, first x.scan served h → moved h)
          ∧ (noneOf served →
            (∀ p, x.passSlot = some p →
                Field.Begun s.live g p.helio .pass (segmentFrame (address p.helio) (p.body.headD 0#8) p.body.tail) x f t)
              ∧ (x.passSlot = none → (∀ h, first x.scan resend h → aimed h (f.run h).origin { x with scan := (h + 1) % 4096 })
                ∧ (noneOf resend →
                  (∀ e rest, x.queue = e :: rest → (f.run e.helio).inFlight = false →
                      aimed e.helio (some e.origin) { x with queue := rest, spaceFreed := true })
                    ∧ ((∀ e rest, x.queue = e :: rest → (f.run e.helio).inFlight = true) →
                      (∀ h, first x.settle unsettled h → polled h { x with settle := (h + 1) % 4096 })
                        ∧ (noneOf unsettled → (∀ h, oldest free h → polled h x) ∧ (noneOf free → t = f))))))))

/-- A repeated request that meets no answer is a silent exchange (R57): the silent count rises, at most to 3, and at the third the
record goes SILENT or LOST by the table of R57, cause SILENCE, a queued heliostat's grant revoked first; a survey counts an UNSURE
heliostat left LOST (R148). The clock's place is the model's choice (log entries 2 and 4), and so is it that a queued re-aim whose leaving
aim was released is revoked to rest, and so goes SILENT (log entry 15). -/
def Obligations.SilentExchangeCountsThenActs : Prop :=
  ∀ (s : State) (g : Fin 4) (x : Exchange) (since : Nat), s.phase = .running → (s.field.sxeAt g).exchange = some x →
    x.phase = .awaiting since → x.kind ≠ .pass → x.repeated = true → s.Sound → s.ZonesSettled → s.TripExact →
    s.field.LinesExact s.env →
    let h := x.helio
    let r := s.field.run h
    let now := max s.now (since + 4)
    ∃ t, exec (.driveResponseTimeout g) s = .next t ∧ t = { s with now := now, osc := t.osc, field := t.field }
      ∧ (s.osc.opState ≠ .survey → t.osc = s.osc)
      ∧ (t.field.sxeAt g).lastEnd = some now
      ∧ (t.field.run h).lastExchange = some now ∧ (t.field.run h).silentCount = min 3 (r.silentCount + 1)
      ∧ (r.silentCount ≠ 2 → t.field.run h = { r with
        lastExchange := some now, silentCount := min 3 (r.silentCount + 1), inFlight := (t.field.run h).inFlight
        queued := (t.field.run h).queued })
      ∧ (r.silentCount = 2 →
        (r.state = .unsure → (t.field.run h).state = (if s.osc.opState = .survey then .lost else .silent)
            ∧ ((t.field.run h).unaccounted ↔ s.osc.opState = .survey))
          ∧ (r.state = .standby ∨ r.state = .stowed ∨ (r.state = .returning ∧ r.released = true) →
            (t.field.run h).state = .silent)
          ∧ (r.state = .tracking ∨ (r.state = .slewing ∧ r.queued = false) ∨ (r.state = .returning ∧ r.released = false) →
            (t.field.run h).state = .lost ∧ (t.field.run h).unaccounted = false ∧ (t.field.run h).granted = r.granted
              ∧ (t.field.run h).leaving = none)
          ∧ (r.state = .slewing → r.queued = true → (t.field.run h).queued = false
            ∧ (t.field.run h).granted = r.leaving ∧ (t.field.run h).leaving = none
            ∧ (t.field.run h).state = if r.leaving.isSome then .lost else .silent)
          ∧ (r.state = .lost ∨ r.state = .silent ∨ r.state = .faulted → t.field.run h = { r with
            lastExchange := some now, silentCount := 3, inFlight := (t.field.run h).inFlight })
          ∧ (r.state ≠ .lost → r.state ≠ .silent → r.state ≠ .faulted → r.state ≠ .absent →
            (t.field.run h).owed = none ∧ (t.field.run h).lastCause = some .silence)
          ∧ (s.osc.opState = .survey → r.state = .unsure → h ∉ s.osc.counted → t.osc.leftLost = s.osc.leftLost + 1))
      ∧ s.field.RunsKept (fun j => j ≠ h) t.field ∧ s.field.ZonesKept t.field

/-- ACCEPT to a MOVE-AIM (R68): accepted, the slew timer started, nothing reported, no load moved. SLEW_TIMEOUT (R81): the slew
timer runs out, the fault cause is SLEW TIMEOUT where none is present, and the heliostat is owed DEFOCUS (R11). The clock's place
is the model's choice (log entries 2 and 4). -/
def Obligations.AimAcceptedThenTimed : Prop :=
  (∀ (s : State) (g : Fin 4) (x : Exchange) (frame : List Byte) (fr : SegFrame) (origin : Option Origin),
    s.AnswerDue g x frame fr → x.kind = .moveAim origin → fr.kind = 0x41#8 → fr.params = [] →
    (s.field.run x.helio).state = .slewing → s.Sound → s.TripExact →
    let h := x.helio
    ∃ t, exec (.driveAnswer g frame) s = .next t
      ∧ t = { s with field := { s.field with helio := t.field.helio, sxe := t.field.sxe } }
      ∧ t.field.run h = { s.field.run h with
        accepted := true, queued := false, busyCount := 0, silentCount := 0, lastExchange := some s.now
        slewEnds := some (s.now + 1000 * s.live.slewLimit), inFlight := (t.field.run h).inFlight }
      ∧ (t.field.sxeAt g).lastEnd = some s.now
      ∧ ∀ j, j ≠ h → t.field.run j = { s.field.run j with
        inFlight := (t.field.run j).inFlight, queued := (t.field.run j).queued })
  ∧ ∀ (s : State) (h ends : Nat), s.phase = .running → (s.field.run h).slewEnds = some ends → (s.field.run h).state = .slewing →
    (s.field.run h).accepted = true → s.Sound →
    let r := s.field.run h
    ∃ t, exec (.slewTimeout h) s = .next t ∧ t = { s with now := max s.now ends, field := t.field }
      ∧ t.field.run h = { r.by (some .slewTimeout)
          ({ r with slewEnds := none, fault := some (r.fault.getD .slewTimeout) }.setOwed .defocus .slewTimeout) with
        inFlight := (t.field.run h).inFlight, reportOwed := (t.field.run h).reportOwed }
      ∧ s.field.RunsKept (fun j => j ≠ h) t.field ∧ s.field.ZonesKept t.field ∧ s.field.ProgramsKept t.field

/-- The answers to an owed motion. ACCEPT (R72): the heliostat is RETURNING to the destination of the request, its leaving aim released
and its granted aim kept, its motion cause the owed cause fixed with the request; its owed motion is met, but for a STOW that only
reaches standby; the reported cause is the motion cause held before, where there was one (log entry 11). REJECT, and the third BUSY
(R73, R74): the fault cause is set where there is none, LOCAL with reason LOCAL, and a load holder becomes accounted LOST, any other
FAULTED; the entry to accounted LOST, of one that is LOST already too (log entry 32), sets the latch of LATCH mode (R100, R101). A BUSY
below the third, from a heliostat that stands as its record says, is counted. Whatever a BUSY's status says, it is applied first, by the
three steps of R76, and the BUSY counts for what is then still owed (R73); `State.statused` holds the model's readings of those steps (log
entries 12, 15, 23, 31, 34 and 48). -/
def Obligations.OwedMotionAcceptedReturns : Prop :=
  ∀ (s : State) (g : Fin 4) (x : Exchange) (frame : List Byte) (fr : SegFrame) (dest : Dest) (cause : Cause) (answer : Answer),
    s.AnswerDue g x frame fr → x.kind = .owedMotion dest cause → readAnswer fr.kind fr.params = some answer →
    s.Sound → s.ZonesSettled → s.TripExact → s.field.LinesExact s.env → s.field.Tidy →
    (∀ st, answer ≠ .status st) →
    let h := x.helio
    let r := s.field.run h
    ∃ t, exec (.driveAnswer g frame) s = .next t ∧
      let refused (fault : FaultCause) (isLocal : Bool) (report : Cause) : Prop :=
        let failed : HelioRun := { r with
          fault := some (r.fault.getD fault), busyCount := 0, localControl := r.localControl || isLocal }
        s.AnswerMade t g h (some report) (if r.holdsLoad then failed.lostOnAim else failed.faultedOff)
          ∧ (r.holdsLoad = true → s.live.watch.mode = .latch → t.field.trip.latch = true)
      (answer = .accept → s.AnswerMade t g h (some (r.motionCause.getD cause)) { r.stopped with
          state := .returning, destination := some dest, motionCause := some cause, busyCount := 0, released := !r.holdsLoad
          leaving := none, owed := if r.owed.map Owed.motion = some .stow ∧ dest = .standby then r.owed else none })
        ∧ (answer = .reject .limit → refused .reject false .reject)
        ∧ (answer = .reject .fault → refused (.driveFault none) false .reject)
        ∧ (answer = .reject .localControl → refused .localControl true .reject)
        ∧ (∀ p code, answer = .busy ⟨p, false, false, false, code⟩ → r.localControl = false → p.Agrees s.live r → r.owed.isSome →
          (r.busyCount < 2 → s.AnswerMade t g h none { r with busyCount := r.busyCount + 1 })
            ∧ (2 ≤ r.busyCount → refused .busy false .busy))
        ∧ ∀ st, answer = .busy st →
          let seen := s.statused st r
          (seen.owed = none → s.AnswerMadeOrShed t g h seen)
            ∧ (seen.owed.isSome → seen.busyCount < 2 → s.AnswerMade t g h none { seen with busyCount := seen.busyCount + 1 })
            ∧ (seen.owed.isSome → 2 ≤ seen.busyCount →
              let failed : HelioRun := { seen with fault := some (seen.fault.getD .busy), busyCount := 0 }
              s.AnswerMade t g h none (seen.by (some .busy) (if seen.holdsLoad then failed.lostOnAim else failed.faultedOff))
                ∧ (seen.holdsLoad = true → s.live.watch.mode = .latch → t.field.trip.latch = true))

/-- A QUERY answered without flags by a heliostat without a fault cause: ON_AIM on the granted aim makes an accepted SLEWING
heliostat TRACKING, its leaving aim released (R77); AT_STANDBY or STOWED places a TRACKING, accepted SLEWING, RETURNING, LOST,
UNSURE, STANDBY or STOWED one at rest there with no aim held (R77, R79, R80), and a survey counts an UNSURE one, ending with the
last (R148, R149). -/
def Obligations.StatusAnswersMoveTheRecord : Prop :=
  ∀ (s : State) (g : Fin 4) (x : Exchange) (frame : List Byte) (fr : SegFrame) (p : Position) (code : Byte),
    s.AnswerDue g x frame fr → x.kind = .query → readAnswer fr.kind fr.params = some (.status ⟨p, false, false, false, code⟩) →
    s.Sound → s.ZonesSettled → s.TripExact → s.field.LinesExact s.env →
    (s.field.run x.helio).localControl = false → (s.field.run x.helio).fault = none →
    let h := x.helio
    let r := s.field.run h
    (∀ a, p = .onAim a → r.state = .slewing → r.accepted = true → r.granted = some a →
        ∃ t, exec (.driveAnswer g frame) s = .next t ∧ t = { s with field := t.field }
          ∧ t.field.run h = { r with
            state := .tracking, leaving := none, motionCause := none, accepted := false, slewEnds := none, origin := none
            reAim := false, silentCount := 0, lastExchange := some s.now, lastCause := r.motionCause, inFlight := (t.field.run h).inFlight
            reportOwed := (t.field.run h).reportOwed }
          ∧ s.field.RunsKept (fun j => j ≠ h) t.field ∧ s.field.ZonesKept t.field ∧ s.field.ProgramsKept t.field)
      ∧ ∀ rest : Rest, p = (match rest with | .standby => .atStandby | .stowed => .stowed) →
        r.state = .tracking ∨ (r.state = .slewing ∧ r.accepted = true) ∨ r.state = .returning ∨ r.state = .lost
          ∨ r.state = .unsure ∨ r.state = .standby ∨ r.state = .stowed →
        let atRest : HState := match rest with | .standby => .standby | .stowed => .stowed
        ∃ t, exec (.driveAnswer g frame) s = .next t ∧ t = { s with osc := t.osc, field := t.field }
          ∧ (t.field.run h).state = atRest ∧ (t.field.run h).rest = rest ∧ (t.field.run h).granted = none
          ∧ (t.field.run h).leaving = none ∧ (t.field.run h).lastExchange = some s.now
          ∧ (t.field.run h).owed = (if r.owed.map Owed.motion = some .stow ∧ rest = .standby then r.owed else none)
          ∧ (t.field.run h).lastCause =
            (if r.state = .returning then r.motionCause
            else if r.state = .lost then some .recovered
            else if r.state = .tracking ∨ r.state = .slewing then some .driveLeft
            else if r.state = atRest ∧ (t.field.run h).owed = r.owed then r.lastCause
            else some .survey)
          ∧ (s.osc.opState ≠ .survey ∨ r.state ≠ .unsure → t.osc = s.osc ∧ s.field.ProgramsKept t.field)
          ∧ (s.osc.opState = .survey → r.state = .unsure → h ∉ s.osc.counted → t.osc =
            let o : Osc := { s.osc with atRest := s.osc.atRest + 1, counted := h :: s.osc.counted }
            if ∃ q ∈ s.live.present, (t.field.run q.1).state = .unsure then o
            else { o with opState := .hold, wake := none, surveyEnds := none, cause := .surveyDone })
          ∧ s.field.RunsKept (fun j => j ≠ h) t.field ∧ s.field.ZonesKept t.field

/-- The answer to a QUERY, by the heliostat's state (R76, R77, R79, R80). A status without flags, of a heliostat without LOCAL: one found
on a present aim that it was not expected on, being UNSURE, STANDBY, STOWED, FAULTED, RETURNING released or LOST unaccounted, is adopted
(R43), at the newest end of the Grant List, owed DEFOCUS with R155's cause where there is one, and counted by a survey (R148); on an
absent one it is LOST unaccounted; one that is elsewhere than its record says is owed DEFOCUS, released, UNSURE or at rest as the tables
give, FAULTED where it comes to rest with a fault cause; one that is where its record says is kept. LOCAL is set and cleared, and FAULT,
LOCAL and LIMIT act on a heliostat that is where its record says, a Move Queue entry being withdrawn first (R8, R12, R76, R120). Whatever
flags and position come together, the record is what the three steps of R76 make of it one after the other (`State.statused`). The
model's readings: one granted from rest is then FAULTED, or for LIMIT at rest (log entry 34), so is a re-aim whose leaving aim was released
(15); the last of several causes is reported (12); MOVING with both marks is no move to the granted aim (23); FAULTED owes no motion (31);
a revocation reaches every slot that keeps the heliostat and the aim, whoever made the grant (39); the busy count is zeroed with an
acceptance, a revocation or an owed motion that a poll brings (48). -/
def Obligations.HeliostatFoundOnAimIsAdopted : Prop :=
  ∀ (s : State) (g : Fin 4) (x : Exchange) (frame : List Byte) (fr : SegFrame) (st : Status),
    s.AnswerDue g x frame fr → x.kind = .query → readAnswer fr.kind fr.params = some (.status st) →
    s.Sound → s.ZonesSettled → s.TripExact → s.field.LinesExact s.env → s.field.Tidy →
    let h := x.helio
    let r := s.field.run h
    let p := st.position
    ∃ t, exec (.driveAnswer g frame) s = .next t ∧
      let made (cause : Cause) (new : HelioRun) : Prop := s.AnswerMade t g h (some cause) new
      let moving : Prop := ∃ u v b, p = .moving u v b
      let counted : Prop := s.osc.opState = .survey ∧ r.state = .unsure ∧ h ∉ s.osc.counted
      let plain : Prop := st.localControl = false ∧ st.fault = false ∧ st.limit = false ∧ r.localControl = false
      (plain →
        (∀ a, p = .onAim a →
          let present : Prop := (s.live.aimAt a).present = true
          let unexpected : Prop :=
            r.state = .unsure ∨ r.state = .standby ∨ r.state = .stowed ∨ (r.state = .returning ∧ r.released = true)
          (present → unexpected ∨ r.state = .faulted ∨ (r.state = .lost ∧ r.unaccounted = true) → s.Adopted t g h a r)
            ∧ (present → counted → t.osc.adopted = s.osc.adopted + 1)
            ∧ (¬ present → unexpected → made .survey (r.lostOff.owing (r.faultOr .survey)))
            ∧ (¬ present → counted → t.osc.leftLost = s.osc.leftLost + 1)
            ∧ (r.state = .lost → r.unaccounted = false ∨ ¬ present → made (r.faultOr .silence) (r.owing (r.faultOr .silence)))
            ∧ (r.state = .tracking ∨ (r.state = .slewing ∧ r.accepted = true ∧ r.leaving ≠ some a) → r.granted ≠ some a →
              made .driveLeft (r.owing .driveLeft)))
          ∧ (moving → r.state = .tracking ∨ (r.state = .slewing ∧ r.accepted = true) →
            (∀ b, p = .moving true false b → r.granted ≠ some b) → made .driveLeft (r.owing .driveLeft))
          ∧ (p = .clear →
            (r.state = .lost → made .recovered { r.stopped with state := .unsure, granted := none, leaving := none })
              ∧ (r.state = .slewing → r.accepted = true → s.AnswerMade t g h r.motionCause { r with leaving := none })
              ∧ (r.state = .tracking → r.fault = none → made .driveLeft (r.restedAt .standby))
              ∧ (r.state = .tracking → r.fault.isSome → made .driveLeft r.faultedOff)
              ∧ (r.state = .returning → r.released = false →
                s.AnswerMade t g h r.motionCause { r with granted := none, leaving := none, released := true }))
          ∧ (p = .clear ∨ moving → r.state = .standby ∨ r.state = .stowed → made .survey { r with state := .unsure })
          ∧ (r.state = .silent → made .recovered { r with state := .unsure })
          ∧ (∀ place : Rest, p = (match place with | .standby => .atStandby | .stowed => .stowed) → r.fault.isSome →
            r.state ≠ place.state →
            (r.state = .tracking ∨ (r.state = .slewing ∧ r.accepted = true) → made .driveLeft r.faultedOff)
              ∧ (r.state = .returning → s.AnswerMade t g h r.motionCause r.faultedOff)
              ∧ (r.state = .lost → made .recovered r.faultedOff)
              ∧ (r.state = .unsure ∨ r.state = .standby ∨ r.state = .stowed → made .survey r.faultedOff))
          ∧ (p.Agrees s.live r → s.AnswerMade t g h none r))
        ∧ (p.Agrees s.live r →
          (st.localControl = false → st.fault = false → st.limit = false → r.localControl = true →
              made .recovered { r with localControl := false })
            ∧ (st.fault = true ∨ st.localControl = true → st.limit = false → r.fault = none →
              let fault : FaultCause := if st.fault then .driveFault (some st.code) else .localControl
              let failed : HelioRun := { r with fault := some fault, localControl := st.localControl }
              (r.holdsLoad = true → r.queued = false → made fault.cause
                  (if r.state = .returning then { failed with owed := none, busyCount := 0 } else failed.owing fault.cause))
                ∧ (r.holdsLoad = false → r.state ≠ .faulted → made fault.cause failed.faultedOff)
                ∧ (r.queued = true → r.leaving.isSome → made fault.cause (failed.grantUndone.owing fault.cause))
                ∧ (r.queued = true → r.leaving = none → made fault.cause failed.grantUndone.faultedOff))
            ∧ (st.localControl = false → st.fault = false → st.limit = true → r.localControl = false →
              (r.state = .slewing ∨ r.state = .tracking → r.queued = false → made .reject (r.owing .reject))
                ∧ (r.queued = true → r.leaving.isSome → made .reject (r.grantUndone.owing .reject))
                ∧ (r.queued = true → r.leaving = none → made .reject r.grantUndone)
                ∧ (r.state ≠ .slewing → r.state ≠ .tracking → s.AnswerMade t g h none r))
            ∧ (st.fault = true ∨ st.localControl = true ∨ st.limit = true → r.queued = true → ∀ a, r.granted = some a →
              s.SettleSetsHear t h a false))
        ∧ let new := s.statused st r
          s.AnswerMadeOrShed t g h new
            ∧ (∀ a, new.granted = some a → r.granted ≠ some a → r.leaving ≠ some a → t.field.grants.getLast? = some h)
            ∧ (r.queued = true → ∀ a, r.granted = some a → new.granted ≠ some a → s.SettleSetsHear t h a false)

/-- The answers that concern a grant not yet accepted. REJECT to a MOVE-AIM (R70): the grant is revoked, cause REJECT: a re-aim is
TRACKING on its old aim again, any other at rest as before (R37, R38), a re-aim whose leaving aim was released before among them (log
entry 15); reasons FAULT and LOCAL set the fault cause, and the heliostat is owed DEFOCUS or, holding no load, FAULTED; a slot that
keeps the heliostat and the aim in its settle set marks it so (R120). BUSY to a MOVE-AIM (R69), without flags: the first puts the entry
back at the tail, where there is room and no motion is owed; the second, or a full queue, revokes the grant; CLEAR releases the leaving aim
first, and a position that the grant did not expect owes DEFOCUS instead; with flags and any position, the status is applied first, by
the three steps of R76, and the tolerance then to a grant that is still waiting and owes nothing. A status that shows the move
under way, or done, takes it up (R69, R78). A QUERY of such a heliostat whose drive stands elsewhere (R78) owes DEFOCUS, or, for a queued
one, withdraws the entry, cause DRIVE LEFT, and then applies R77 or R80. The model's readings beside entry 15: a slot marks it whoever made
the grant (log entry 39), MOVING with both marks is no move to either aim (23), FAULTED owes no motion (31), the last of several causes is reported
(12), a failure of a grant from rest leaves it FAULTED (34), and a poll that brings an acceptance, a revocation or an owed motion zeroes the
busy count (48). -/
def Obligations.RejectedAimIsRevoked : Prop :=
  ∀ (s : State) (g : Fin 4) (x : Exchange) (frame : List Byte) (fr : SegFrame) (answer : Answer) (a : Nat),
    s.AnswerDue g x frame fr → readAnswer fr.kind fr.params = some answer →
    (s.field.run x.helio).state = .slewing → (s.field.run x.helio).granted = some a → s.Sound → s.ZonesSettled → s.TripExact →
    let h := x.helio
    let r := s.field.run h
    let undone := r.grantUndone
    let underWay := r.underWay s.now s.live.slewLimit
    ∀ origin, x.kind = .moveAim origin ∨ x.kind = .query →
    answer.permitted x.kind = true →
    ∃ t, exec (.driveAnswer g frame) s = .next t ∧
      let made (cause : Cause) (new : HelioRun) : Prop := s.AnswerMade t g h (some cause) new
      (x.kind = .moveAim origin →
        (∀ reason, answer = .reject reason → s.SettleSetsHear t h a true
            ∧ (reason = .limit → made .reject undone)
            ∧ ∀ fault : FaultCause, (reason = .fault ∧ fault = .driveFault none) ∨ (reason = .localControl ∧ fault = .localControl) →
              let failed : HelioRun := { undone with
                fault := some (r.fault.getD fault), localControl := r.localControl || (fault == .localControl) }
              made .reject (if r.leaving.isSome then failed.owing fault.cause else failed.faultedOff))
          ∧ (∀ p code, answer = .busy ⟨p, false, false, false, code⟩ → r.localControl = false → r.accepted = false →
            s.field.LinesExact s.env → s.field.Tidy → p.Agrees s.live r →
            (r.owed = none → r.busyCount = 0 → (s.field.sxeAt g).queue.length < 64 →
                s.AnswerMade t g h none { r with busyCount := 1, queued := true }
                  ∧ ((t.field.run h).queued = true ∨ (t.field.run h).inFlight = true)
                  ∧ ∀ o, origin = some o → let q := (s.field.sxeAt g).queue ++ [⟨h, a, o⟩]
                    (t.field.sxeAt g).queue = q ∨ (t.field.sxeAt g).queue = q.tail)
              ∧ (r.owed = none → r.busyCount ≠ 0 ∨ 64 ≤ (s.field.sxeAt g).queue.length →
                made .busy undone ∧ s.SettleSetsHear t h a true)
              ∧ (r.owed.isSome → s.AnswerMade t g h none r))
          ∧ (∀ p code, answer = .busy ⟨p, false, false, false, code⟩ → r.localControl = false → r.accepted = false →
            s.field.LinesExact s.env → s.field.Tidy → p ≠ .moving true false a → p ≠ .onAim a →
            (p ≠ .clear → ¬ p.Agrees s.live r → made .driveLeft (r.owing .driveLeft))
              ∧ (p = .clear → r.leaving.isSome →
                let off : HelioRun := { r with leaving := none }
                (r.owed = none → r.busyCount = 0 → (s.field.sxeAt g).queue.length < 64 →
                    s.AnswerMade t g h r.motionCause { off with busyCount := 1, queued := true }
                      ∧ ((t.field.run h).queued = true ∨ (t.field.run h).inFlight = true)
                      ∧ ∀ o, origin = some o → let q := (s.field.sxeAt g).queue ++ [⟨h, a, o⟩]
                        (t.field.sxeAt g).queue = q ∨ (t.field.sxeAt g).queue = q.tail)
                  ∧ (r.owed = none → r.busyCount ≠ 0 ∨ 64 ≤ (s.field.sxeAt g).queue.length →
                    made .busy off.grantUndone ∧ s.SettleSetsHear t h a true)
                  ∧ (r.owed.isSome → s.AnswerMade t g h r.motionCause off)))
          ∧ ∀ st, answer = .busy st → s.field.LinesExact s.env → s.field.Tidy →
            let seen := s.statused st r
            let waits : Prop := seen.state = .slewing ∧ seen.accepted = false ∧ seen.owed = none
            (waits → seen.busyCount = 0 → (s.field.sxeAt g).queue.length < 64 →
                s.AnswerMade t g h none { seen with busyCount := 1, queued := true }
                  ∧ ((t.field.run h).queued = true ∨ (t.field.run h).inFlight = true)
                  ∧ ∀ o, origin = some o → let q := (s.field.sxeAt g).queue ++ [⟨h, a, o⟩]
                    (t.field.sxeAt g).queue = q ∨ (t.field.sxeAt g).queue = q.tail)
              ∧ (waits → seen.busyCount ≠ 0 ∨ 64 ≤ (s.field.sxeAt g).queue.length →
                s.AnswerMade t g h none (seen.by (some .busy) seen.grantUndone) ∧ s.SettleSetsHear t h a true)
              ∧ (¬ waits → s.AnswerMade t g h none seen))
        ∧ ∀ p code, (answer = .busy ⟨p, false, false, false, code⟩ ∧ x.kind = .moveAim origin)
            ∨ (answer = .status ⟨p, false, false, false, code⟩ ∧ x.kind = .query) →
          r.localControl = false → r.accepted = false → r.fault = none → s.field.LinesExact s.env → s.field.Tidy →
          (p = .moving true false a → s.AnswerMade t g h none underWay)
            ∧ (p = .onAim a → s.AnswerMade t g h r.motionCause underWay.arrived)
            ∧ (p = .moving true false a ∨ p = .onAim a → ∀ e ∈ (t.field.sxeAt g).queue, e.helio ≠ h)
            ∧ (x.kind = .query → p = .clear → s.AnswerMade t g h r.motionCause { r with leaving := none })
            ∧ (x.kind = .query → p ≠ .moving true false a → p ≠ .onAim a → p ≠ .clear → ¬ p.Agrees s.live r →
              (r.queued = false → made .driveLeft (r.owing .driveLeft))
                ∧ (r.queued = true → s.SettleSetsHear t h a false ∧ (∀ e ∈ (t.field.sxeAt g).queue, e.helio ≠ h)
                  ∧ (∀ b, r.leaving = some b →
                    (p = .atStandby → made .driveLeft (undone.restedAt .standby))
                      ∧ (p = .stowed → made .driveLeft (undone.restedAt .stowed))
                      ∧ (p = .moving true false b → made .driveLeft undone)
                      ∧ (p ≠ .atStandby → p ≠ .stowed → p ≠ .moving true false b → made .driveLeft (undone.owing .driveLeft)))
                  ∧ (r.leaving = none →
                    ((∃ u v b, p = .moving u v b) → made .survey { undone with state := .unsure })
                      ∧ (∀ b, p = .onAim b → (s.live.aimAt b).present = true → s.Adopted t g h b undone)
                      ∧ (∀ b, p = .onAim b → (s.live.aimAt b).present = false → made .survey (undone.lostOff.owing .survey))
                      ∧ ∀ place : Rest, p = (match place with | .standby => .atStandby | .stowed => .stowed) →
                        made (if place = r.rest then .driveLeft else .survey) (undone.restedAt place))))

/-! ### The Table Store -/

/-- TABLE WRITE (R181): refused by the first check that fails, changing nothing: of each record its ranges (R182), then duplicates (R183),
then use, with the fact in use (R184), the answer naming the record's index; that the records' checks are made record by record, and that
all 16 bits of a limit are read, are the model's choices (log entries 24 and 42). Otherwise the live records written are those read
(10.7), the other records are kept, the page's commit begins (R185, R186), a heliostat made present or absent takes its reset values, and every other secured heliostat, the zones' conditions and the programs
are kept. -/
def Obligations.TableWriteReplacesLiveRecords : Prop :=
  ∀ (s : State) (tag table : Byte) (first : Half) (count : Byte) (records : List Byte),
    s.OrderDue (.tableWrite tag table first count records) →
    let c := Instr.tableWrite tag table first count records
    let n := count.toNat
    let i0 := first.toNat
    let refused (r : Reply) : Prop := exec c s = .next (s.popFrame.answer tag 0x17#8 r)
    (tableOf table = none → refused (.plain .format))
      ∧ ∀ id, tableOf table = some id →
        (records.length ≠ recordSize id * n → refused (.plain .format))
          ∧ (records.length = recordSize id * n →
            let cut := cutRecords (recordSize id) n records
            let written := (List.range' i0 n).zip cut
            let noRange := i0 < id.size ∧ 1 ≤ n ∧ n ≤ 16 ∧ i0 + n - 1 ≤ pageLast id i0
            let noState := ¬ (id = .heliostat ∧ (s.osc.opState = .survey ∨ s.osc.opState = .waking))
            let noLock := ¬ (blockOfIndex id i0 = .limit ∧ s.limitLock = true)
            let noMark := s.marks.has (blockOfIndex id i0) = false
            (¬ noRange → refused ⟨.range, [0#8, 0#8, 0#8]⟩)
              ∧ (noRange → s.commit.isSome → refused (.plain .notReady))
              ∧ (noRange → s.commit = none → ¬ noState → refused (.plain .state))
              ∧ (noRange → s.commit = none → noState → ¬ noMark → refused (.plain .blockProtected))
              ∧ (noRange → s.commit = none → noState → noMark → ¬ noLock → refused (.plain .locked))
              ∧ (noRange → s.commit = none → noState → noMark → noLock →
                s.Sound →
                (∀ (w1 w2 : List (Nat × List Byte)) p, written = w1 ++ p :: w2 → (∀ q ∈ w1, s.RecordPasses id written q) →
                    (¬ RecordInRange id p.2 → refused ⟨.range, 1#8 :: be16 p.1⟩)
                      ∧ (RecordInRange id p.2 → s.RecordClashes id written p → refused ⟨.duplicate, 1#8 :: be16 p.1⟩)
                      ∧ (RecordInRange id p.2 → ¬ s.RecordClashes id written p →
                        ∀ fact, s.RecordInUse id p fact → refused ⟨.inUse, fact :: be16 p.1⟩))
                  ∧ ((∀ q ∈ written, s.RecordPasses id written q) →
                    ∃ t, exec c s = .next t
                      ∧ t = { s.popFrame.answer tag 0x17#8 ⟨.done, [count]⟩ with
                        live := t.live, commit := some (.page id (16 * (i0 / 16))), field := t.field }
                      ∧ (∀ i bytes, cut[i]? = some bytes → t.live.recordAt id (i0 + i) = recordValue id bytes)
                      ∧ (∀ id' i, i < id'.size → id' ≠ id ∨ i < i0 ∨ i0 + n ≤ i →
                        t.live.recordAt id' i = s.live.recordAt id' i)
                      ∧ (∀ h, (t.live.helioAt h).present ≠ (s.live.helioAt h).present → t.field.run h =
                        { HelioRun.blank with
                          state := if (t.live.helioAt h).present then .unsure else .absent
                          lastCause := (t.field.run h).lastCause, inFlight := (t.field.run h).inFlight
                          reportOwed := (t.field.run h).reportOwed })
                      ∧ s.field.RunsKept (fun h => (t.live.helioAt h).present = (s.live.helioAt h).present) t.field
                      ∧ (∀ z, (s.field.zoneAt z).SameConditions (t.field.zoneAt z)) ∧ s.field.ProgramsKept t.field)))

/-- PROTECT and UNPROTECT ALL (R189): RANGE for a block code above 7, NOT_READY during a commit, DONE no change, or the marks
changed and their commit begun. COMMIT_DONE (R186): the store takes the page, or the marks, as they stand live; the rest of it is
kept; the page is damaged no more and leaves the load-fault list. -/
def Obligations.ProtectionAndCommit : Prop :=
  ∀ s : State,
    (∀ tag block, s.OrderDue (.protect tag block) →
        let c := Instr.protect tag block
        (blockOf block = none ↔ 7 < block.toNat)
          ∧ (blockOf block = none → exec c s = .next (s.popFrame.answer tag 0x19#8 (.plain .range)))
          ∧ ∀ b, blockOf block = some b →
            (s.commit.isSome → exec c s = .next (s.popFrame.answer tag 0x19#8 (.plain .notReady)))
              ∧ (s.commit = none → s.marks.has b = true →
                exec c s = .next (s.popFrame.answer tag 0x19#8 ⟨.done, [1#8]⟩))
              ∧ (s.commit = none → s.marks.has b = false →
                ∃ m, exec c s = .next { s.popFrame.answer tag 0x19#8 ⟨.done, [0#8]⟩ with marks := m, commit := some .marks }
                  ∧ ∀ b', m.has b' = (s.marks.has b' || b' == b)))
      ∧ (∀ tag, s.OrderDue (.unprotectAll tag) →
        let c := Instr.unprotectAll tag
        (s.commit.isSome → exec c s = .next (s.popFrame.answer tag 0x1A#8 (.plain .notReady)))
          ∧ (s.commit = none → (∀ b, s.marks.has b = false) → exec c s = .next (s.popFrame.answer tag 0x1A#8 ⟨.done, [1#8]⟩))
          ∧ (s.commit = none → (∃ b, s.marks.has b = true) → exec c s = .next
            { s.popFrame.answer tag 0x1A#8 ⟨.done, [0#8]⟩ with marks := ProtMarks.none, commit := some .marks }))
      ∧ ∀ p, s.phase = .running → s.commit = some p → s.Canonical →
        ∃ t, exec .commitDone s = .next t
          ∧ t = { s with store := t.store, commit := none, loadFaults := s.loadFaults.filter (· != p) }
          ∧ t.store.damaged = s.store.damaged.filter (· != p)
          ∧ t.store.marks = (if p = .marks then s.marks else s.store.marks)
          ∧ ∀ id i, i < id.size →
            let inPage := ∃ first, p = .page id first ∧ first ≤ i ∧ i ≤ pageLast id first
            (inPage → t.store.tables.recordAt id i = s.live.recordAt id i)
              ∧ (¬ inPage → t.store.tables.recordAt id i = s.store.tables.recordAt id i)
end

