-- ==== Sys2Proof/Laws/Records.lean ====
section
/-! SUPPORT. The record facts of R6, R12 and R58 (`HelioRun.Sound`) through every change of a heliostat record: the shared ones
and every result of an exchange. -/

namespace Sys2Proof.Machine

/-! ### The shared changes -/

/-- A record that is as R6 says and tidy is left alone by the tidying of a change (R6). -/
theorem HelioRun.tidy_eq {r : HelioRun} (hs : r.Sound) (ht : r.Tidy) : r.tidy = r := by
  obtain ⟨_, _, hd, hm, hrel, hacc, hun, hq⟩ := hs
  obtain ⟨hsl, _, hst, hsw, _, _, _, _⟩ := ht
  unfold HelioRun.tidy
  cases r with
  | mk state granted leaving rest destination released owed motionCause queued inFlight accepted silentCount busyCount lastExchange fault unaccounted inhibit maint localControl lastCause reportOwed slewEnds origin reAim =>
    cases state <;> simp_all

/-- A tidy record owes no motion that has nothing left to do (R11). -/
theorem HelioRun.nothingRemains_eq {r : HelioRun} (ht : r.Tidy) : r.nothingRemains = r := by
  unfold HelioRun.nothingRemains
  cases ho : r.owed with
  | none => rfl
  | some o =>
    obtain ⟨m, c⟩ := o
    cases m with
    | defocus =>
      obtain ⟨h1, h2, h3⟩ := ht.defocus c ho
      simp [h1, h2, h3]
    | stow =>
      obtain ⟨h1, h2⟩ := ht.stow c ho
      simp only
      rw [if_neg]
      rintro (e | ⟨e, e2⟩)
      · exact h1 e
      · rw [h2 e] at e2; simp at e2

theorem HelioRun.sound_blank : HelioRun.blank.Sound := by
  simp [HelioRun.Sound, HelioRun.blank, HelioRun.grantState]

theorem HelioRun.Sound.nothingRemains {r : HelioRun} (h : r.Sound) : r.nothingRemains.Sound := by
  unfold HelioRun.nothingRemains
  split
  · exact h
  · split
    · simp_all [HelioRun.Sound, HelioRun.grantState]
    · exact h
  · split
    · simp_all [HelioRun.Sound, HelioRun.grantState]
    · exact h

theorem HelioRun.Sound.by {old new : HelioRun} (c : Option Cause) (h : new.Sound) : (old.by c new).Sound := by
  unfold HelioRun.by
  split
  · exact h
  · exact h

theorem HelioRun.Sound.setOwed {r : HelioRun} (m : Motion) (c : Cause) (h : r.Sound) (hq : r.queued = false) :
    (r.setOwed m c).Sound := by
  unfold HelioRun.setOwed
  split <;> first | exact h | (simp_all [HelioRun.Sound, HelioRun.grantState])

theorem HelioRun.Sound.clearOwed {r : HelioRun} (h : r.Sound) : r.clearOwed.Sound := by
  simp_all [HelioRun.Sound, HelioRun.grantState, HelioRun.clearOwed]

/-- A revocation (R37, R38) leaves a record as R6 says. -/
theorem HelioRun.Sound.revoked {r : HelioRun} (h : r.Sound) : ({ r with queued := false } : HelioRun).revoked.Sound := by
  obtain ⟨h1, h2, h3, h4, h5, h6, h7, h8⟩ := h
  unfold HelioRun.revoked
  split
  · next a hl => simp_all [HelioRun.Sound, HelioRun.grantState, HelioRun.tidy]
  · cases hr : r.rest <;> simp_all [HelioRun.Sound, HelioRun.grantState, HelioRun.tidy]

theorem HelioRun.revoked_queued (r : HelioRun) (h : r.queued = false) : r.revoked.queued = false := by
  unfold HelioRun.revoked
  split
  · simp [HelioRun.tidy, h]
  · cases r.rest <;> simp [HelioRun.tidy, h]

/-- What is to be said of a new record so that tidying it leaves it as R6 says. -/
structure HelioRun.Fit (r : HelioRun) : Prop where
  granted : r.granted.isSome = r.grantState
  leaving : r.leaving.isSome → r.state = .slewing ∧ r.granted ≠ r.leaving
  destination : r.state = .returning → r.destination.isSome
  motionCause : r.state = .slewing ∨ r.state = .returning → r.motionCause.isSome
  queued : r.state = .slewing → r.queued → r.accepted = false ∧ r.owed = none

theorem HelioRun.Fit.tidy {r : HelioRun} (h : r.Fit) : r.tidy.Sound := by
  obtain ⟨h1, h2, h3, h4, h5⟩ := h
  refine ⟨?_, h2, ?_, ?_, ?_, ?_, ?_, ?_⟩
  · rw [show r.tidy.granted = r.granted from rfl, h1]
    unfold HelioRun.grantState HelioRun.tidy
    cases r.state <;> rfl
  all_goals simp only [HelioRun.tidy]
  · by_cases hs : r.state = .returning <;> simp [hs, h3]
  · by_cases hs : r.state = .slewing ∨ r.state = .returning <;> simp [hs, h4]
  · simp +contextual
  · simp +contextual
  · simp +contextual
  · intro hq
    simp only [Bool.and_eq_true, beq_iff_eq] at hq
    exact ⟨hq.1, by simp [h5 hq.1 hq.2], (h5 hq.1 hq.2).2⟩

theorem HelioRun.Sound.fit {r : HelioRun} (h : r.Sound) : r.Fit := by
  obtain ⟨h1, h2, h3, h4, h5, h6, h7, h8⟩ := h
  exact ⟨h1, h2, h3.2, h4.2, fun _ hq => (h8 hq).2⟩

/-- Entering a state that holds no aim, and needs no destination or motion cause, leaves a record fit. -/
theorem HelioRun.fit_atRest (r : HelioRun) (p : Rest) : (r.atRest p).Fit := by
  cases p <;> constructor <;> simp [HelioRun.atRest, HelioRun.grantState]

/-! ### The results of an exchange -/

theorem Edit.sound_set {e : Edit} (c : Option Cause) {new : HelioRun} (h : new.Fit) : (e.set c new).r.Sound :=
  HelioRun.Sound.by c h.tidy.nothingRemains

theorem Edit.sound_owe {e : Edit} (m : Motion) (c c' : Cause) (h : e.r.Sound) : (e.owe m c c').r.Sound := by
  unfold Edit.owe
  split
  · exact HelioRun.Sound.by _ ((h.revoked.setOwed m c (HelioRun.revoked_queued _ rfl)).nothingRemains)
  · next hq => exact Edit.sound_set _ ((h.setOwed m c (by simpa using hq)).fit)

theorem Edit.sound_revoke {e : Edit} (c : Cause) (h : e.r.Sound) : (e.revoke c).r.Sound :=
  HelioRun.Sound.by _ h.revoked.nothingRemains

theorem HelioRun.Sound.goLost_fit {r : HelioRun} (h : r.Sound) (hl : r.holdsLoad) : r.goLost.Fit := by
  obtain ⟨h1, h2, h3, h4, h5, h6, h7, h8⟩ := h
  have hg : r.granted.isSome = true := by
    unfold HelioRun.holdsLoad at hl
    rcases Bool.or_eq_true _ _ ▸ hl with hl | hl
    · exact hl
    · have := h2 hl
      rw [h1]; simp [HelioRun.grantState, this.1]
  constructor <;> simp_all [HelioRun.goLost, HelioRun.clearOwed, HelioRun.grantState]

theorem HelioRun.Sound.holdsLoad_eq {r : HelioRun} (h : r.Sound) : r.holdsLoad = r.granted.isSome := by
  obtain ⟨h1, h2, -⟩ := h
  unfold HelioRun.holdsLoad
  cases hl : r.leaving.isSome
  · simp
  · have := h2 hl
    rw [h1]; simp [HelioRun.grantState, this.1]

theorem Edit.sound_adopt {env : Env} {f : Field} {a : Nat} {e : Edit} : (e.adopt env f a).r.Sound := by
  have hs : ({ e.r with granted := some a, leaving := none, state := .tracking, unaccounted := false } : HelioRun).Fit := by
    constructor <;> simp [HelioRun.grantState]
  unfold Edit.adopt
  apply Edit.sound_set
  split
  · next c _ =>
    simp only [HelioRun.setOwed]
    split <;> (constructor <;> simp [HelioRun.grantState])
  · exact hs

theorem Edit.sound_foundOnAim {env : Env} {f : Field} {a : Nat} {e : Edit} : (e.foundOnAim env f a).r.Sound := by
  unfold Edit.foundOnAim
  split
  · exact Edit.sound_adopt
  · apply Edit.sound_set
    simp only [HelioRun.setOwed]
    split <;> (constructor <;> simp [HelioRun.grantState])

/-- A queued heliostat is SLEWING. -/
theorem HelioRun.Sound.not_queued {r : HelioRun} (h : r.Sound) (hs : r.state ≠ .slewing) : r.queued = false := by
  by_contra hc
  exact hs (h.2.2.2.2.2.2.2 (by simpa using hc)).1

/-- A heliostat outside the states that hold an aim has none. -/
theorem HelioRun.Sound.no_aims {r : HelioRun} (h : r.Sound) (hs : r.grantState = false) : r.granted = none ∧ r.leaving = none := by
  obtain ⟨h1, h2, -⟩ := h
  refine ⟨by simpa [hs] using h1, ?_⟩
  cases hl : r.leaving with
  | none => rfl
  | some a =>
    have := (h2 (by simp [hl])).1
    simp [HelioRun.grantState, this] at hs

/-- Entering UNSURE, SILENT, FAULTED or unaccounted LOST from a state that holds no aim. -/
theorem HelioRun.Sound.fit_off {r : HelioRun} (h : r.Sound) (hs : r.grantState = false) (st : HState) (c : Bool)
    (hst : st = .unsure ∨ st = .silent ∨ st = .faulted ∨ (st = .lost ∧ c = true)) :
    ({ r with state := st, unaccounted := c } : HelioRun).Fit := by
  obtain ⟨hg, hl⟩ := h.no_aims hs
  rcases hst with rfl | rfl | rfl | ⟨rfl, rfl⟩ <;> constructor <;> simp [HelioRun.grantState, hg, hl]

theorem Edit.sound_positionAtRest {env : Env} {f : Field} {p : Position} {e : Edit} (h : e.r.Sound) :
    (e.positionAtRest env f p).r.Sound := by
  unfold Edit.positionAtRest
  have off : ∀ st, e.r.state = st → st ≠ .slewing → st ≠ .tracking → st ≠ .returning → st ≠ .lost → e.r.grantState = false := by
    intro st hst h1 h2 h3 h4
    subst hst
    simp [HelioRun.grantState, h1, h2, h3, h4]
  split
  · next hs =>
    have := h.fit_off (off _ hs (by decide) (by decide) (by decide) (by decide)) .unsure e.r.unaccounted (by simp)
    exact Edit.sound_set _ this
  · next hs =>
    split
    · split
      · exact Edit.sound_adopt
      · exact h
    all_goals exact h
  · next hs =>
    split
    · exact Edit.sound_foundOnAim
    · exact h
    · exact h
    · exact Edit.sound_set _ (HelioRun.fit_atRest _ _)
    · exact Edit.sound_set _ (HelioRun.fit_atRest _ _)
  · next hs =>
    have := h.fit_off (off _ hs (by decide) (by decide) (by decide) (by decide)) .unsure e.r.unaccounted (by simp)
    split
    · exact Edit.sound_foundOnAim
    · exact Edit.sound_set _ this
    · exact Edit.sound_set _ this
    · exact Edit.sound_set _ (HelioRun.fit_atRest _ _)
    · exact Edit.sound_set _ (HelioRun.fit_atRest _ _)
  · next hs =>
    have := h.fit_off (off _ hs (by decide) (by decide) (by decide) (by decide)) .unsure e.r.unaccounted (by simp)
    split
    · exact Edit.sound_foundOnAim
    · exact Edit.sound_set _ this
    · exact Edit.sound_set _ this
    · exact Edit.sound_set _ (HelioRun.fit_atRest _ _)
    · exact Edit.sound_set _ (HelioRun.fit_atRest _ _)
  all_goals exact h

/-- The release of a leaving aim keeps R6. -/
theorem HelioRun.Sound.dropLeaving {r : HelioRun} (h : r.Sound) : ({ r with leaving := none } : HelioRun).Sound := by
  obtain ⟨h1, h2, h3, h4, h5, h6, h7, h8⟩ := h
  exact ⟨h1, by simp, h3, h4, h5, h6, h7, h8⟩

theorem Edit.sound_arriveOnAim {e : Edit} (h : e.r.granted.isSome) : e.arriveOnAim.r.Sound := by
  apply Edit.sound_set
  constructor <;> simp [HelioRun.grantState, h]

theorem Edit.sound_positionSlewing {p : Position} {e : Edit} (h : e.r.Sound) : (e.positionSlewing p).r.Sound := by
  unfold Edit.positionSlewing
  split
  · split
    · next hg => exact Edit.sound_arriveOnAim (by simp [hg])
    · split
      · exact h
      · exact Edit.sound_owe _ _ _ h
  · split
    · exact h
    · exact Edit.sound_owe _ _ _ h
  · exact Edit.sound_set _ h.dropLeaving.fit
  · exact Edit.sound_set _ (HelioRun.fit_atRest _ _)
  · exact Edit.sound_set _ (HelioRun.fit_atRest _ _)

theorem Edit.sound_positionTracking {p : Position} {e : Edit} (h : e.r.Sound) : (e.positionTracking p).r.Sound := by
  unfold Edit.positionTracking
  split
  · split
    · exact h
    · exact Edit.sound_owe _ _ _ h
  · split
    · exact h
    · exact Edit.sound_owe _ _ _ h
  · exact Edit.sound_set _ (HelioRun.fit_atRest _ _)
  · exact Edit.sound_set _ (HelioRun.fit_atRest _ _)
  · exact Edit.sound_set _ (HelioRun.fit_atRest _ _)

theorem Edit.sound_takeUp {env : Env} {e : Edit} (h : e.r.Sound) (hs : e.r.state = .slewing) : (e.takeUp env).r.Sound := by
  obtain ⟨h1, h2, h3, h4, h5, h6, h7, h8⟩ := h
  unfold Edit.takeUp
  exact ⟨h1, h2, h3, h4, h5, by simp [hs], h7, by simp⟩

theorem Edit.sound_unexpected {env : Env} {f : Field} {p : Position} {e : Edit} (h : e.r.Sound) :
    (e.unexpected env f p).r.Sound := by
  unfold Edit.unexpected
  split
  · simp only
    split
    · exact Edit.sound_positionTracking (Edit.sound_revoke _ h)
    · exact Edit.sound_positionAtRest (Edit.sound_revoke _ h)
  · exact Edit.sound_owe _ _ _ h

theorem Edit.sound_positionUnaccepted {env : Env} {f : Field} {p : Position} {e : Edit} (h : e.r.Sound)
    (hs : e.r.state = .slewing) : (e.positionUnaccepted env f p).r.Sound := by
  unfold Edit.positionUnaccepted
  split
  · split
    · exact Edit.sound_takeUp h hs
    · exact Edit.sound_unexpected h
  · split
    · next hg => exact Edit.sound_arriveOnAim (by simp [Edit.takeUp, hg])
    · split
      · exact h
      · exact Edit.sound_unexpected h
  · exact Edit.sound_set _ h.dropLeaving.fit
  · split
    · exact h
    · exact Edit.sound_unexpected h
  · split
    · exact h
    · exact Edit.sound_unexpected h

theorem Edit.sound_positionReturning {env : Env} {f : Field} {p : Position} {e : Edit} (h : e.r.Sound)
    (hs : e.r.state = .returning) : (e.positionReturning env f p).r.Sound := by
  unfold Edit.positionReturning
  split
  · split
    · exact Edit.sound_foundOnAim
    · exact h
  · exact h
  · split
    · exact h
    · obtain ⟨h1, h2, h3, h4, h5, h6, h7, h8⟩ := h
      apply Edit.sound_set
      constructor <;> simp_all [HelioRun.grantState]
  · exact Edit.sound_set _ (HelioRun.fit_atRest _ _)
  · exact Edit.sound_set _ (HelioRun.fit_atRest _ _)

theorem Edit.sound_positionLost {env : Env} {f : Field} {p : Position} {e : Edit} (h : e.r.Sound) :
    (e.positionLost env f p).r.Sound := by
  unfold Edit.positionLost
  split
  · split
    · exact Edit.sound_adopt
    · exact Edit.sound_owe _ _ _ h
  · exact h
  · apply Edit.sound_set
    constructor <;> simp [HelioRun.grantState]
  · exact Edit.sound_set _ (HelioRun.fit_atRest _ _)
  · exact Edit.sound_set _ (HelioRun.fit_atRest _ _)

/-- Entering FAULTED in place of a rest state. -/
theorem Edit.sound_faultAtRest {before : HelioRun} {e : Edit} (h : e.r.Sound) : (e.faultAtRest before).r.Sound := by
  unfold Edit.faultAtRest
  split
  · next hc =>
    have hs : e.r.grantState = false := by
      rcases hc.1 with hs | hs <;> (simp only [HelioRun.grantState, hs]; rfl)
    obtain ⟨hg, hl⟩ := h.no_aims hs
    obtain ⟨h1, h2, h3, h4, h5, h6, h7, h8⟩ := h
    rcases hc.1 with hs | hs <;> simp_all [HelioRun.Sound, HelioRun.grantState, HelioRun.clearOwed]
  · exact h

theorem Edit.sound_positionByState {env : Env} {f : Field} {p : Position} {e : Edit} (h : e.r.Sound) :
    (e.positionByState env f p).r.Sound := by
  unfold Edit.positionByState
  split
  · next hs =>
    split
    · exact Edit.sound_positionSlewing h
    · exact Edit.sound_positionUnaccepted h hs
  · exact Edit.sound_positionTracking h
  · next hs => exact Edit.sound_positionReturning h hs
  · exact Edit.sound_positionLost h
  · exact Edit.sound_positionAtRest h
  · exact Edit.sound_positionAtRest h
  · exact Edit.sound_positionAtRest h
  · exact Edit.sound_positionAtRest h
  · exact Edit.sound_positionAtRest h
  · exact h

/-- The position class of a status keeps R6 (R77 to R80). -/
theorem Edit.sound_position {env : Env} {f : Field} {p : Position} {e : Edit} (h : e.r.Sound) :
    (e.position env f p).r.Sound := Edit.sound_faultAtRest (Edit.sound_positionByState h)

/-- Fields that R6 does not speak of may change. -/
theorem HelioRun.Sound.other {r r' : HelioRun} (h : r.Sound) (hs : r'.state = r.state) (hg : r'.granted = r.granted)
    (hl : r'.leaving = r.leaving) (hd : r'.destination = r.destination) (hm : r'.motionCause = r.motionCause)
    (hr : r'.released = r.released) (ha : r'.accepted = r.accepted) (hu : r'.unaccounted = r.unaccounted)
    (hq : r'.queued = r.queued) (ho : r'.owed = r.owed) : r'.Sound := by
  obtain ⟨h1, h2, h3, h4, h5, h6, h7, h8⟩ := h
  unfold HelioRun.Sound HelioRun.grantState at *
  rw [hs, hg, hl, hd, hm, hr, ha, hu, hq, ho]
  exact ⟨h1, h2, h3, h4, h5, h6, h7, h8⟩

theorem Edit.sound_noteLocal {b : Bool} {e : Edit} (h : e.r.Sound) : (e.noteLocal b).r.Sound := by
  unfold Edit.noteLocal
  split
  · exact h
  · exact Edit.sound_set _ (HelioRun.Sound.fit (h.other rfl rfl rfl rfl rfl rfl rfl rfl rfl rfl))

theorem Edit.sound_noteFault {b : Bool} {c : FaultCause} {e : Edit} (h : e.r.Sound) : (e.noteFault b c).r.Sound := by
  unfold Edit.noteFault
  split
  · exact Edit.sound_set _ (HelioRun.Sound.fit (h.other rfl rfl rfl rfl rfl rfl rfl rfl rfl rfl))
  · exact h

theorem Edit.sound_statusFlags {st : Status} {e : Edit} (h : e.r.Sound) : (e.statusFlags st).r.Sound :=
  Edit.sound_noteFault (Edit.sound_noteFault (Edit.sound_noteLocal h))

/-- Entering FAULTED from a state that holds no load, as R70, R74 and R76 do. -/
theorem HelioRun.Sound.fit_faulted {r : HelioRun} (h : r.Sound) (hn : r.holdsLoad = false) :
    ({ r.clearOwed with state := .faulted } : HelioRun).Fit := by
  have hg : r.granted = none := by simpa [h.holdsLoad_eq] using hn
  have hl : r.leaving = none := by
    unfold HelioRun.holdsLoad at hn
    simp only [Bool.or_eq_false_iff] at hn
    simpa using hn.2
  constructor <;> simp [HelioRun.grantState, HelioRun.clearOwed, hg, hl]

theorem Edit.sound_failNow {c c' : Cause} {e : Edit} (h : e.r.Sound) : (e.failNow c c').r.Sound := by
  have h1 : (if e.r.holdsLoad then e.owe .defocus c c' else e).r.Sound := by
    split
    · exact Edit.sound_owe _ _ _ h
    · exact h
  unfold Edit.failNow
  generalize (if e.r.holdsLoad then e.owe .defocus c c' else e) = e1 at h1 ⊢
  dsimp only
  split
  · exact h1
  · next hn => exact Edit.sound_set _ (h1.fit_faulted (by simpa using fun hl => hn (Or.inl hl)))

theorem Edit.sound_failBy {st : Status} {e : Edit} (h : e.r.Sound) : (e.failBy st).r.Sound := by
  unfold Edit.failBy
  split
  · exact Edit.sound_failNow h
  · split
    · exact Edit.sound_failNow h
    · exact h

theorem Edit.sound_statusConsequences {st : Status} {e : Edit} (h : e.r.Sound) : (e.statusConsequences st).r.Sound := by
  unfold Edit.statusConsequences
  simp only
  split
  · exact Edit.sound_owe _ _ _ (Edit.sound_failBy h)
  · exact Edit.sound_failBy h

/-- A status keeps R6 (R76). -/
theorem Edit.sound_status {env : Env} {f : Field} {st : Status} {e : Edit} (h : e.r.Sound) : (e.status env f st).r.Sound :=
  Edit.sound_statusConsequences (Edit.sound_position (Edit.sound_statusFlags h))

theorem Edit.sound_busyMoveAim {env : Env} {f : Field} {g : Nat} {st : Status} {e : Edit} (h : e.r.Sound) :
    (e.busyMoveAim env f g st).r.Sound := by
  have h1 := Edit.sound_status (env := env) (f := f) (st := st) h
  unfold Edit.busyMoveAim
  simp only
  split
  · next hc =>
    split
    · obtain ⟨q1, q2, q3, q4, q5, q6, q7, q8⟩ := h1
      exact ⟨q1, q2, q3, q4, q5, q6, q7, fun _ => hc⟩
    · exact Edit.sound_revoke _ h1
  · exact h1

theorem Edit.sound_rejectFault {c : FaultCause} {b : Bool} {e : Edit} (h : e.r.Sound) : (e.rejectFault c b).r.Sound :=
  Edit.sound_set _ (HelioRun.Sound.fit (h.other rfl rfl rfl rfl rfl rfl rfl rfl rfl rfl))

theorem Edit.sound_rejectMoveAim {reason : RejectReason} {e : Edit} (h : e.r.Sound) : (e.rejectMoveAim reason).r.Sound := by
  have h1 : (if e.r.state = .slewing then e.revoke .reject else e).r.Sound := by
    split
    · exact Edit.sound_revoke _ h
    · exact h
  cases reason
  · exact h1
  · exact Edit.sound_failNow (Edit.sound_rejectFault h1)
  · exact Edit.sound_failNow (Edit.sound_rejectFault h1)

theorem Edit.sound_acceptOwed {dest : Dest} {c : Cause} {e : Edit} (h : e.r.Sound) : (e.acceptOwed dest c).r.Sound := by
  have hh := h.holdsLoad_eq
  apply Edit.sound_set
  constructor
  · simp only [HelioRun.grantState, hh]
    cases e.r.granted <;> rfl
  all_goals simp

theorem HelioRun.Sound.refused {r : HelioRun} (c : FaultCause) (b : Bool) (h : r.Sound) : (r.refused c b).Sound :=
  h.other rfl rfl rfl rfl rfl rfl rfl rfl rfl rfl

theorem Edit.sound_refuseOwed {fault : FaultCause} {b : Bool} {c : Cause} {e : Edit} (h : e.r.Sound) :
    (e.refuseOwed fault b c).r.Sound := by
  unfold Edit.refuseOwed
  split
  · next hl => exact Edit.sound_set _ ((h.refused fault b).goLost_fit hl)
  · next hl => exact Edit.sound_set _ ((h.refused fault b).fit_faulted (by simpa [HelioRun.holdsLoad, HelioRun.refused] using hl))

theorem Edit.sound_busyOwed {env : Env} {f : Field} {st : Status} {e : Edit} (h : e.r.Sound) :
    (e.busyOwed env f st).r.Sound := by
  have h1 := Edit.sound_status (env := env) (f := f) (st := st) h
  unfold Edit.busyOwed
  simp only
  split
  · split
    · exact HelioRun.Sound.other h1 rfl rfl rfl rfl rfl rfl rfl rfl rfl rfl
    · exact Edit.sound_refuseOwed h1
  · exact h1

/-- The result of every good answer keeps R6. -/
theorem Edit.sound_answer {env : Env} {f : Field} {g : Nat} {kind : ExKind} {a : Answer} {e : Edit} (h : e.r.Sound) :
    (e.answer env f g kind a).r.Sound := by
  have h0 : ({ e with r := { e.r with silentCount := 0 } } : Edit).r.Sound :=
    h.other rfl rfl rfl rfl rfl rfl rfl rfl rfl rfl
  unfold Edit.answer
  simp only
  split
  · split
    · next hs => exact Edit.sound_takeUp h0 hs
    · exact h0
  · exact Edit.sound_busyMoveAim h0
  · exact Edit.sound_rejectMoveAim h0
  · exact Edit.sound_acceptOwed h0
  · exact Edit.sound_busyOwed h0
  · unfold Edit.rejectOwed
    split <;> exact Edit.sound_refuseOwed h0
  · exact Edit.sound_status h0
  all_goals exact h0

theorem Edit.sound_silenceUnqueued {env : Env} {e : Edit} (h : e.r.Sound) : (e.silenceUnqueued env).r.Sound := by
  have off : ∀ st c, e.r.grantState = false → (st = .silent ∨ (st = .lost ∧ c = true)) →
      ({ e.r.clearOwed with state := st, unaccounted := c } : HelioRun).Fit := fun st c hs hst =>
    HelioRun.Sound.fit_off h.clearOwed hs st c (by rcases hst with h | h <;> simp [h])
  unfold Edit.silenceUnqueued
  split
  · next hs =>
    have hg : e.r.grantState = false := by simp [HelioRun.grantState, hs]
    split
    · exact Edit.sound_set _ (off .lost true hg (by simp))
    · exact Edit.sound_set _ (off .silent e.r.clearOwed.unaccounted hg (by simp))
  · next hs =>
    have hg : e.r.grantState = false := by simp [HelioRun.grantState, hs]
    exact Edit.sound_set _ (off .silent e.r.clearOwed.unaccounted hg (by simp))
  · next hs =>
    have hg : e.r.grantState = false := by simp [HelioRun.grantState, hs]
    exact Edit.sound_set _ (off .silent e.r.clearOwed.unaccounted hg (by simp))
  · next hs =>
    split
    · next hr =>
      have hg : e.r.grantState = false := by simp [HelioRun.grantState, hs, hr]
      exact Edit.sound_set _ (off .silent e.r.clearOwed.unaccounted hg (by simp))
    · next hr =>
      refine Edit.sound_set _ (h.goLost_fit ?_)
      rw [h.holdsLoad_eq, h.1]
      simp [HelioRun.grantState, hs, hr]
  · next hs =>
    refine Edit.sound_set _ (h.goLost_fit ?_)
    rw [h.holdsLoad_eq, h.1]
    simp [HelioRun.grantState, hs]
  · next hs =>
    refine Edit.sound_set _ (h.goLost_fit ?_)
    rw [h.holdsLoad_eq, h.1]
    simp [HelioRun.grantState, hs]
  all_goals exact h

/-- A silent exchange keeps R6 (R57). -/
theorem Edit.sound_silent {env : Env} {e : Edit} (h : e.r.Sound) : (e.silent env).r.Sound := by
  have h0 : ({ e with r := { e.r with silentCount := min 3 (e.r.silentCount + 1) } } : Edit).r.Sound :=
    h.other rfl rfl rfl rfl rfl rfl rfl rfl rfl rfl
  unfold Edit.silent
  simp only
  split
  · unfold Edit.silence
    apply Edit.sound_silenceUnqueued
    split
    · exact Edit.sound_revoke _ h0
    · exact h0
  · exact h0

/-! ### What no result of an exchange touches: the report-owed flag, INHIBIT and MAINT -/

/-- The fields that no exchange changes. -/
def HelioRun.kept (r : HelioRun) : Bool × Bool × Bool := (r.reportOwed, r.inhibit, r.maint)

@[simp] theorem HelioRun.kept_by (c : Option Cause) (old new : HelioRun) : (old.by c new).kept = new.kept := by
  unfold HelioRun.by
  split <;> rfl

@[simp] theorem HelioRun.kept_nothingRemains (r : HelioRun) : r.nothingRemains.kept = r.kept := by
  unfold HelioRun.nothingRemains
  split
  · rfl
  · split <;> rfl
  · split <;> rfl

@[simp] theorem HelioRun.kept_setOwed (m : Motion) (c : Cause) (r : HelioRun) : (r.setOwed m c).kept = r.kept := by
  unfold HelioRun.setOwed
  split <;> rfl

@[simp] theorem HelioRun.kept_revoked (r : HelioRun) : r.revoked.kept = r.kept := by
  unfold HelioRun.revoked
  split
  · rfl
  · cases r.rest <;> rfl

@[simp] theorem Edit.kept_set (c : Option Cause) (new : HelioRun) (e : Edit) : (e.set c new).r.kept = new.kept := by
  rw [Edit.set, HelioRun.kept_by, HelioRun.kept_nothingRemains]
  rfl

@[simp] theorem Edit.kept_owe (m : Motion) (c c' : Cause) (e : Edit) : (e.owe m c c').r.kept = e.r.kept := by
  unfold Edit.owe
  split
  · simp only [HelioRun.kept_by, HelioRun.kept_nothingRemains, HelioRun.kept_setOwed, HelioRun.kept_revoked]
    rfl
  · simp

@[simp] theorem Edit.kept_revoke (c : Cause) (e : Edit) : (e.revoke c).r.kept = e.r.kept := by
  simp only [Edit.revoke, HelioRun.kept_by, HelioRun.kept_nothingRemains, HelioRun.kept_revoked]
  rfl

@[simp] theorem Edit.kept_adopt (env : Env) (f : Field) (a : Nat) (e : Edit) : (e.adopt env f a).r.kept = e.r.kept := by
  unfold Edit.adopt
  simp only [Edit.kept_set]
  split
  · rw [HelioRun.kept_setOwed]; rfl
  · rfl

@[simp] theorem Edit.kept_foundOnAim (env : Env) (f : Field) (a : Nat) (e : Edit) : (e.foundOnAim env f a).r.kept = e.r.kept := by
  unfold Edit.foundOnAim
  split
  · exact Edit.kept_adopt env f a e
  · rw [Edit.kept_set, HelioRun.kept_setOwed]; rfl

@[simp] theorem Edit.kept_positionAtRest (env : Env) (f : Field) (p : Position) (e : Edit) :
    (e.positionAtRest env f p).r.kept = e.r.kept := by
  unfold Edit.positionAtRest
  split
  · rw [Edit.kept_set]; rfl
  · split
    · split
      · exact Edit.kept_adopt _ _ _ _
      · rfl
    all_goals rfl
  · split
    · exact Edit.kept_foundOnAim _ _ _ _
    · rfl
    · rfl
    · rw [Edit.kept_set]; rfl
    · rw [Edit.kept_set]; rfl
  · split
    · exact Edit.kept_foundOnAim _ _ _ _
    all_goals rw [Edit.kept_set]; rfl
  · split
    · exact Edit.kept_foundOnAim _ _ _ _
    all_goals rw [Edit.kept_set]; rfl
  all_goals rfl

@[simp] theorem Edit.kept_positionSlewing (p : Position) (e : Edit) : (e.positionSlewing p).r.kept = e.r.kept := by
  unfold Edit.positionSlewing Edit.arriveOnAim
  split
  · split
    · rw [Edit.kept_set]; rfl
    · split
      · rfl
      · exact Edit.kept_owe _ _ _ _
  · split
    · rfl
    · exact Edit.kept_owe _ _ _ _
  all_goals rw [Edit.kept_set]; rfl

@[simp] theorem Edit.kept_positionTracking (p : Position) (e : Edit) : (e.positionTracking p).r.kept = e.r.kept := by
  unfold Edit.positionTracking
  split
  · split
    · rfl
    · exact Edit.kept_owe _ _ _ _
  · split
    · rfl
    · exact Edit.kept_owe _ _ _ _
  all_goals rw [Edit.kept_set]; rfl

@[simp] theorem Edit.kept_takeUp (env : Env) (e : Edit) : (e.takeUp env).r.kept = e.r.kept := rfl

@[simp] theorem Edit.kept_unexpected (env : Env) (f : Field) (p : Position) (e : Edit) :
    (e.unexpected env f p).r.kept = e.r.kept := by
  unfold Edit.unexpected
  split
  · simp only
    split <;> simp
  · simp

@[simp] theorem Edit.kept_positionUnaccepted (env : Env) (f : Field) (p : Position) (e : Edit) :
    (e.positionUnaccepted env f p).r.kept = e.r.kept := by
  unfold Edit.positionUnaccepted Edit.arriveOnAim
  split
  · split
    · rfl
    · exact Edit.kept_unexpected _ _ _ _
  · split
    · rw [Edit.kept_set]; rfl
    · split
      · rfl
      · exact Edit.kept_unexpected _ _ _ _
  · rw [Edit.kept_set]; rfl
  · split
    · rfl
    · exact Edit.kept_unexpected _ _ _ _
  · split
    · rfl
    · exact Edit.kept_unexpected _ _ _ _

@[simp] theorem Edit.kept_positionReturning (env : Env) (f : Field) (p : Position) (e : Edit) :
    (e.positionReturning env f p).r.kept = e.r.kept := by
  unfold Edit.positionReturning
  split
  · split
    · exact Edit.kept_foundOnAim _ _ _ _
    · rfl
  · rfl
  · split
    · rfl
    · rw [Edit.kept_set]; rfl
  all_goals rw [Edit.kept_set]; rfl

@[simp] theorem Edit.kept_positionLost (env : Env) (f : Field) (p : Position) (e : Edit) :
    (e.positionLost env f p).r.kept = e.r.kept := by
  unfold Edit.positionLost
  split
  · split
    · exact Edit.kept_adopt _ _ _ _
    · exact Edit.kept_owe _ _ _ _
  · rfl
  all_goals rw [Edit.kept_set]; rfl

@[simp] theorem Edit.kept_position (env : Env) (f : Field) (p : Position) (e : Edit) : (e.position env f p).r.kept = e.r.kept := by
  have h : (e.positionByState env f p).r.kept = e.r.kept := by
    unfold Edit.positionByState
    repeat' split
    all_goals simp
  unfold Edit.position Edit.faultAtRest
  split
  · exact h
  · exact h

@[simp] theorem Edit.kept_statusFlags (st : Status) (e : Edit) : (e.statusFlags st).r.kept = e.r.kept := by
  have hf : ∀ b c (e : Edit), (e.noteFault b c).r.kept = e.r.kept := by
    intro b c e
    unfold Edit.noteFault
    split
    · rw [Edit.kept_set]; rfl
    · rfl
  unfold Edit.statusFlags
  rw [hf, hf]
  unfold Edit.noteLocal
  split
  · rfl
  · rw [Edit.kept_set]; rfl

@[simp] theorem Edit.kept_failNow (c c' : Cause) (e : Edit) : (e.failNow c c').r.kept = e.r.kept := by
  have h1 : (if e.r.holdsLoad then e.owe .defocus c c' else e).r.kept = e.r.kept := by
    split
    · exact Edit.kept_owe _ _ _ _
    · rfl
  unfold Edit.failNow
  generalize (if e.r.holdsLoad then e.owe .defocus c c' else e) = e1 at h1 ⊢
  dsimp only
  split
  · exact h1
  · rw [Edit.kept_set]
    exact h1

@[simp] theorem Edit.kept_status (env : Env) (f : Field) (st : Status) (e : Edit) : (e.status env f st).r.kept = e.r.kept := by
  have hf : ∀ e : Edit, (e.failBy st).r.kept = e.r.kept := by
    intro e
    unfold Edit.failBy
    repeat' split
    all_goals simp
  unfold Edit.status Edit.statusConsequences
  simp only
  split <;> simp [hf]

@[simp] theorem Edit.kept_refuseOwed (fault : FaultCause) (b : Bool) (c : Cause) (e : Edit) :
    (e.refuseOwed fault b c).r.kept = e.r.kept := by
  unfold Edit.refuseOwed
  split
  · simp only [Edit.kept_set]; rfl
  · rw [Edit.kept_set]; rfl

theorem Edit.kept_busyMoveAim (env : Env) (f : Field) (g : Nat) (st : Status) (e : Edit) :
    (e.busyMoveAim env f g st).r.kept = e.r.kept := by
  rw [← Edit.kept_status env f st e]
  unfold Edit.busyMoveAim
  simp only
  split
  · split
    · rfl
    · exact Edit.kept_revoke _ _
  · rfl

theorem Edit.kept_rejectFault (c : FaultCause) (b : Bool) (e : Edit) : (e.rejectFault c b).r.kept = e.r.kept := by
  unfold Edit.rejectFault
  rw [Edit.kept_set]; rfl

theorem Edit.kept_rejectMoveAim (reason : RejectReason) (e : Edit) : (e.rejectMoveAim reason).r.kept = e.r.kept := by
  have h1 : (if e.r.state = .slewing then e.revoke .reject else e).r.kept = e.r.kept := by
    split
    · exact Edit.kept_revoke _ _
    · rfl
  rw [← h1]
  cases reason
  · rfl
  · exact (Edit.kept_failNow _ _ _).trans (Edit.kept_rejectFault _ _ _)
  · exact (Edit.kept_failNow _ _ _).trans (Edit.kept_rejectFault _ _ _)

theorem Edit.kept_busyOwed (env : Env) (f : Field) (st : Status) (e : Edit) : (e.busyOwed env f st).r.kept = e.r.kept := by
  rw [← Edit.kept_status env f st e]
  unfold Edit.busyOwed
  simp only
  split
  · split
    · rfl
    · exact Edit.kept_refuseOwed _ _ _ _
  · rfl

/-- No good answer changes the report-owed flag, INHIBIT or MAINT. -/
theorem Edit.kept_answer (env : Env) (f : Field) (g : Nat) (kind : ExKind) (a : Answer) (e : Edit) :
    (e.answer env f g kind a).r.kept = e.r.kept := by
  rw [show e.r.kept = ({ e with r := { e.r with silentCount := 0 } } : Edit).r.kept from rfl]
  unfold Edit.answer
  generalize ({ e with r := { e.r with silentCount := 0 } } : Edit) = e0
  simp only
  split
  · split
    · exact Edit.kept_takeUp _ _
    · rfl
  · exact Edit.kept_busyMoveAim _ _ _ _ _
  · exact Edit.kept_rejectMoveAim _ _
  · unfold Edit.acceptOwed
    rw [Edit.kept_set]; rfl
  · exact Edit.kept_busyOwed _ _ _ _
  · unfold Edit.rejectOwed
    split <;> exact Edit.kept_refuseOwed _ _ _ _
  · exact Edit.kept_status _ _ _ _
  all_goals rfl

/-- No silence changes the report-owed flag, INHIBIT or MAINT. -/
theorem Edit.kept_silent (env : Env) (e : Edit) : (e.silent env).r.kept = e.r.kept := by
  have hu : ∀ e : Edit, (e.silenceUnqueued env).r.kept = e.r.kept := by
    intro e
    unfold Edit.silenceUnqueued
    repeat' split
    all_goals first | rfl | (rw [Edit.kept_set]; rfl)
  unfold Edit.silent
  simp only
  split
  · unfold Edit.silence
    rw [hu]
    split
    · rw [Edit.kept_revoke]; rfl
    · rfl
  · rfl

end Sys2Proof.Machine
end

