-- ==== Sys2Proof/Laws/Tables.lean ====
section
/-! SUPPORT. What a sparse table reads after a write, and that every table operation keeps the canonical form. -/

namespace Sys2Proof.Machine

variable {α : Type}

/-! ### Reading -/

@[simp] theorem Table.get_nil (d : α) (i : Nat) : Table.get d [] i = d := rfl

theorem Table.get_cons (d : α) (k : Nat) (v : α) (t : Table α) (i : Nat) :
    Table.get d ((k, v) :: t) i = if k = i then v else Table.get d t i := rfl

/-- An index that is not listed reads as the blank value. -/
theorem Table.get_of_unlisted (d : α) (t : Table α) (i : Nat) (h : ∀ p ∈ t, p.1 ≠ i) : Table.get d t i = d := by
  induction t with
  | nil => rfl
  | cons p t ih =>
    rw [Table.get_cons, if_neg (h p (by simp)), ih (fun q hq => h q (by simp [hq]))]

theorem Table.get_put_same (d : α) (t : Table α) (i : Nat) (v : α) : Table.get d (Table.put t i v) i = v := by
  induction t with
  | nil => simp [Table.put, Table.get_cons]
  | cons p t ih =>
    obtain ⟨k, w⟩ := p
    unfold Table.put
    split
    · simp [Table.get_cons]
    · split
      · simp [Table.get_cons]
      · next h1 h2 => rw [Table.get_cons, if_neg (by omega), ih]

theorem Table.get_put_other (d : α) (t : Table α) (i j : Nat) (v : α) (h : i ≠ j) :
    Table.get d (Table.put t i v) j = Table.get d t j := by
  induction t with
  | nil => simp [Table.put, Table.get_cons, h]
  | cons p t ih =>
    obtain ⟨k, w⟩ := p
    unfold Table.put
    split
    · rw [Table.get_cons, if_neg h]
    · split
      · next h1 h2 => subst h2; simp [Table.get_cons, h]
      · simp [Table.get_cons, ih]

theorem Table.get_del_same (d : α) (t : Table α) (i : Nat) : Table.get d (Table.del t i) i = d := by
  apply Table.get_of_unlisted
  intro p hp
  simpa using (List.mem_filter.1 hp).2

theorem Table.get_del_other (d : α) (t : Table α) (i j : Nat) (h : i ≠ j) :
    Table.get d (Table.del t i) j = Table.get d t j := by
  induction t with
  | nil => rfl
  | cons p t ih =>
    obtain ⟨k, w⟩ := p
    unfold Table.del at ih ⊢
    by_cases hk : k = i
    · subst hk
      simp only [List.filter_cons, bne_self_eq_false, Bool.false_eq_true, if_false, ih, Table.get_cons, if_neg h]
    · have : (k != i) = true := by simpa using hk
      simp only [List.filter_cons, this, if_true, Table.get_cons, ih]

variable [DecidableEq α]

/-- A write inside the table is read back. -/
theorem Table.get_set_same (n : Nat) (d : α) (t : Table α) (i : Nat) (v : α) (hi : i < n) :
    Table.get d (Table.set n d t i v) i = v := by
  unfold Table.set
  rw [if_pos hi]
  split
  · next h => rw [h, Table.get_del_same]
  · exact Table.get_put_same d t i v

/-- A write leaves every other index as it was. -/
theorem Table.get_set_other (n : Nat) (d : α) (t : Table α) (i j : Nat) (v : α) (h : i ≠ j) :
    Table.get d (Table.set n d t i v) j = Table.get d t j := by
  unfold Table.set
  split
  · split
    · exact Table.get_del_other d t i j h
    · exact Table.get_put_other d t i j v h
  · rfl

/-- A write outside the table changes nothing. -/
theorem Table.set_of_outside (n : Nat) (d : α) (t : Table α) (i : Nat) (v : α) (hi : ¬ i < n) :
    Table.set n d t i v = t := by unfold Table.set; rw [if_neg hi]

/-- What a table reads at `j` after a write at `i`. -/
theorem Table.get_set (n : Nat) (d : α) (t : Table α) (i j : Nat) (v : α) :
    Table.get d (Table.set n d t i v) j = if i = j ∧ i < n then v else Table.get d t j := by
  by_cases h : i = j
  · subst h
    by_cases hi : i < n
    · rw [if_pos ⟨rfl, hi⟩, Table.get_set_same n d t i v hi]
    · rw [if_neg (fun c => hi c.2), Table.set_of_outside n d t i v hi]
  · rw [if_neg (fun c => h c.1), Table.get_set_other n d t i j v h]

/-! ### The canonical form -/

omit [DecidableEq α] in
theorem Table.wf_nil (n : Nat) (d : α) : Table.wf n d [] := by
  exact ⟨List.Pairwise.nil, by simp⟩

omit [DecidableEq α] in
theorem Table.wf_cons (n : Nat) (d : α) (p : Nat × α) (t : Table α) :
    Table.wf n d (p :: t) ↔ (∀ q ∈ t, p.1 < q.1) ∧ p.1 < n ∧ p.2 ≠ d ∧ Table.wf n d t := by
  unfold Table.wf
  simp only [List.pairwise_cons, List.mem_cons, forall_eq_or_imp]
  tauto

omit [DecidableEq α] in
theorem Table.wf_filter {n : Nat} {d : α} {t : Table α} (q : Nat × α → Bool) (h : Table.wf n d t) : Table.wf n d (t.filter q) :=
  ⟨h.1.filter _, fun p hp => h.2 p (List.mem_filter.1 hp).1⟩

omit [DecidableEq α] in
theorem Table.mem_put {t : Table α} {i : Nat} {v : α} {p : Nat × α} (h : p ∈ Table.put t i v) : p = (i, v) ∨ p ∈ t := by
  induction t with
  | nil => simpa [Table.put] using h
  | cons q t ih =>
    obtain ⟨k, w⟩ := q
    unfold Table.put at h
    split at h
    · simpa using h
    · split at h
      · rcases List.mem_cons.1 h with h | h
        · exact Or.inl h
        · exact Or.inr (by simp [h])
      · rcases List.mem_cons.1 h with h | h
        · exact Or.inr (by simp [h])
        · rcases ih h with h | h
          · exact Or.inl h
          · exact Or.inr (by simp [h])

omit [DecidableEq α] in
theorem Table.wf_put {n : Nat} {d : α} {t : Table α} {i : Nat} {v : α} (h : Table.wf n d t) (hi : i < n) (hv : v ≠ d) :
    Table.wf n d (Table.put t i v) := by
  induction t with
  | nil => exact (Table.wf_cons n d (i, v) []).2 ⟨by simp, hi, hv, Table.wf_nil n d⟩
  | cons q t ih =>
    obtain ⟨k, w⟩ := q
    obtain ⟨h1, h2, h3, h4⟩ := (Table.wf_cons n d (k, w) t).1 h
    unfold Table.put
    split
    · next hlt =>
      refine (Table.wf_cons n d _ _).2 ⟨?_, hi, hv, h⟩
      intro q hq
      rcases List.mem_cons.1 hq with hq | hq
      · subst hq; exact hlt
      · exact lt_trans hlt (h1 q hq)
    · split
      · next heq =>
        subst heq
        exact (Table.wf_cons n d _ _).2 ⟨h1, hi, hv, h4⟩
      · next hn1 hn2 =>
        refine (Table.wf_cons n d _ _).2 ⟨?_, h2, h3, ih h4⟩
        intro q hq
        rcases Table.mem_put hq with hq | hq
        · subst hq; simp only; omega
        · exact h1 q hq

/-- A write keeps the canonical form. -/
theorem Table.wf_set {n : Nat} {d : α} {t : Table α} (i : Nat) (v : α) (h : Table.wf n d t) :
    Table.wf n d (Table.set n d t i v) := by
  unfold Table.set
  split
  · split
    · exact Table.wf_filter _ h
    · next hi hv => exact Table.wf_put h hi hv
  · exact h

/-- Applying a function to every value keeps the canonical form. -/
theorem Table.wf_map {n : Nat} {d : α} {t : Table α} (g : α → α) (h : Table.wf n d t) : Table.wf n d (Table.map d g t) := by
  induction t with
  | nil => exact Table.wf_nil n d
  | cons p t ih =>
    obtain ⟨h1, h2, h3, h4⟩ := (Table.wf_cons n d p t).1 h
    have hm : ∀ q ∈ Table.map d g t, p.1 < q.1 := by
      intro q hq
      obtain ⟨x, hx, hxq⟩ := List.mem_filterMap.1 hq
      split at hxq
      · exact absurd hxq (by simp)
      · cases hxq; exact h1 x hx
    have hcons : Table.map d g (p :: t) = (if g p.2 = d then [] else [(p.1, g p.2)]) ++ Table.map d g t := by
      simp only [Table.map, List.filterMap_cons]
      by_cases hg : g p.2 = d <;> simp [hg]
    rw [hcons]
    split
    · exact ih h4
    · next hg => exact (Table.wf_cons n d _ _).2 ⟨hm, h2, hg, ih h4⟩

omit [DecidableEq α] in
/-- A table in canonical form reads at a listed index what is listed. -/
theorem Table.get_of_mem {n : Nat} {d : α} {t : Table α} (h : Table.wf n d t) {p : Nat × α} (hp : p ∈ t) :
    Table.get d t p.1 = p.2 := by
  induction t with
  | nil => exact absurd hp (by simp)
  | cons q t ih =>
    obtain ⟨h1, _, _, h4⟩ := (Table.wf_cons n d q t).1 h
    rw [show q :: t = (q.1, q.2) :: t from rfl, Table.get_cons]
    rcases List.mem_cons.1 hp with hp | hp
    · subst hp; simp
    · rw [if_neg (by have := h1 p hp; omega), ih h4 hp]

omit [DecidableEq α] in
/-- An index that reads other than the blank value is listed with what it reads. -/
theorem Table.mem_of_get {d : α} {t : Table α} {i : Nat} (h : Table.get d t i ≠ d) : (i, Table.get d t i) ∈ t := by
  induction t with
  | nil => exact absurd rfl h
  | cons q t ih =>
    obtain ⟨k, w⟩ := q
    rw [Table.get_cons] at h ⊢
    split
    · next hk => subst hk; simp
    · next hk => rw [if_neg hk] at h; exact List.mem_cons_of_mem _ (ih h)

omit [DecidableEq α] in
/-- A canonical table reads the blank value outside its range. -/
theorem Table.get_outside {n : Nat} {d : α} {t : Table α} (h : Table.wf n d t) {i : Nat} (hi : ¬ i < n) :
    Table.get d t i = d := by
  by_contra hc
  exact hi (h.2 _ (Table.mem_of_get hc)).1

/-- What a mapped table reads, for a function that keeps the blank value. -/
theorem Table.get_map {n : Nat} {d : α} {t : Table α} (g : α → α) (hg : g d = d) (h : Table.wf n d t) (i : Nat) :
    Table.get d (Table.map d g t) i = g (Table.get d t i) := by
  induction t with
  | nil => simpa [Table.map] using hg.symm
  | cons p t ih =>
    obtain ⟨k, w⟩ := p
    obtain ⟨h1, _, _, h4⟩ := (Table.wf_cons n d (k, w) t).1 h
    have hcons : Table.map d g ((k, w) :: t) = (if g w = d then [] else [(k, g w)]) ++ Table.map d g t := by
      simp only [Table.map, List.filterMap_cons]
      by_cases hg : g w = d <;> simp [hg]
    rw [hcons, Table.get_cons]
    by_cases hk : k = i
    · subst hk
      rw [if_pos rfl]
      split
      · next hgw =>
        rw [List.nil_append, ih h4, hgw]
        have : Table.get d t k = d := Table.get_of_unlisted d t k (fun p hp => by have := h1 p hp; omega)
        rw [this, hg]
      · simp [Table.get_cons]
    · rw [if_neg hk, ← ih h4]
      split
      · rfl
      · simp [Table.get_cons, hk]

/-! ### Sums over a table -/

omit [DecidableEq α] in
/-- The sum of a quantity over a table's listed entries. -/
theorem Table.total_cons (g : Nat → α → Nat) (k : Nat) (v : α) (t : Table α) :
    Table.total g ((k, v) :: t) = g k v + Table.total g t := by simp [Table.total]

omit [DecidableEq α] in
theorem Table.total_put {n : Nat} {d : α} {t : Table α} (g : Nat → α → Nat) (hg : ∀ i, g i d = 0) (h : Table.wf n d t)
    (i : Nat) (v : α) :
    Table.total g (Table.put t i v) + g i (Table.get d t i) = Table.total g t + g i v := by
  induction t with
  | nil => simp [Table.put, Table.total, hg]
  | cons q t ih =>
    obtain ⟨k, w⟩ := q
    obtain ⟨h1, _, _, h4⟩ := (Table.wf_cons n d (k, w) t).1 h
    unfold Table.put
    split
    · next hlt =>
      have hu : Table.get d ((k, w) :: t) i = d := by
        apply Table.get_of_unlisted
        intro p hp
        rcases List.mem_cons.1 hp with hp | hp
        · subst hp; simp only; omega
        · have := h1 p hp; simp only at this; omega
      rw [hu, hg, Table.total_cons g i v]; omega
    · split
      · next hk => subst hk; rw [Table.get_cons, if_pos rfl, Table.total_cons, Table.total_cons]; omega
      · next hn1 hn2 =>
        have := ih h4
        rw [Table.get_cons, if_neg (by omega), Table.total_cons, Table.total_cons]; omega

omit [DecidableEq α] in
theorem Table.total_del {n : Nat} {d : α} {t : Table α} (g : Nat → α → Nat) (hg : ∀ i, g i d = 0) (h : Table.wf n d t) (i : Nat) :
    Table.total g (Table.del t i) + g i (Table.get d t i) = Table.total g t := by
  induction t with
  | nil => simp [Table.del, Table.total, hg]
  | cons q t ih =>
    obtain ⟨k, w⟩ := q
    obtain ⟨h1, _, _, h4⟩ := (Table.wf_cons n d (k, w) t).1 h
    have ih' := ih h4
    unfold Table.del at ih' ⊢
    by_cases hk : k = i
    · subst hk
      have hu : Table.get d t k = d := Table.get_of_unlisted d t k (fun p hp => by have := h1 p hp; simp only at this; omega)
      rw [hu, hg] at ih'
      simp only [List.filter_cons, bne_self_eq_false, Bool.false_eq_true, if_false, Table.get_cons, if_true]
      rw [Table.total_cons]; omega
    · have : (k != i) = true := by simpa using hk
      simp only [List.filter_cons, this, if_true, Table.get_cons, if_neg hk]
      rw [Table.total_cons, Table.total_cons]; omega

/-- The sum of a quantity over a canonical table follows a write: what index `i` gave goes, what it gives comes. -/
theorem Table.total_set {n : Nat} {d : α} {t : Table α} (g : Nat → α → Nat) (hg : ∀ i, g i d = 0) (h : Table.wf n d t)
    {i : Nat} (hi : i < n) (v : α) :
    Table.total g (Table.set n d t i v) + g i (Table.get d t i) = Table.total g t + g i v := by
  unfold Table.set
  rw [if_pos hi]
  split
  · next hv => rw [hv, hg]; exact Table.total_del g hg h i
  · exact Table.total_put g hg h i v

end Sys2Proof.Machine
end

