-- ==== Sys2Proof/Laws/State.lean ====
section
/-! SUPPORT. One lemma for each field and each update: what an update leaves alone, and what a read gives after a write. -/

namespace Sys2Proof.Machine

/-! ### The field's writers leave every other field alone -/

@[simp] theorem Field.setRun_zone (f : Field) (h : Nat) (r : HelioRun) : (f.setRun h r).zone = f.zone := rfl
@[simp] theorem Field.setRun_refs (f : Field) (h : Nat) (r : HelioRun) : (f.setRun h r).refs = f.refs := rfl
@[simp] theorem Field.setRun_grants (f : Field) (h : Nat) (r : HelioRun) : (f.setRun h r).grants = f.grants := rfl
@[simp] theorem Field.setRun_sxe (f : Field) (h : Nat) (r : HelioRun) : (f.setRun h r).sxe = f.sxe := rfl
@[simp] theorem Field.setRun_slot (f : Field) (h : Nat) (r : HelioRun) : (f.setRun h r).slot = f.slot := rfl
@[simp] theorem Field.setRun_arbiter (f : Field) (h : Nat) (r : HelioRun) : (f.setRun h r).arbiter = f.arbiter := rfl
@[simp] theorem Field.setRun_trip (f : Field) (h : Nat) (r : HelioRun) : (f.setRun h r).trip = f.trip := rfl
@[simp] theorem Field.setRun_reports (f : Field) (h : Nat) (r : HelioRun) : (f.setRun h r).reports = f.reports := rfl

@[simp] theorem Field.setZone_helio (f : Field) (z : Nat) (v : ZoneRun) : (f.setZone z v).helio = f.helio := rfl
@[simp] theorem Field.setZone_refs (f : Field) (z : Nat) (v : ZoneRun) : (f.setZone z v).refs = f.refs := rfl
@[simp] theorem Field.setZone_grants (f : Field) (z : Nat) (v : ZoneRun) : (f.setZone z v).grants = f.grants := rfl
@[simp] theorem Field.setZone_sxe (f : Field) (z : Nat) (v : ZoneRun) : (f.setZone z v).sxe = f.sxe := rfl
@[simp] theorem Field.setZone_slot (f : Field) (z : Nat) (v : ZoneRun) : (f.setZone z v).slot = f.slot := rfl
@[simp] theorem Field.setZone_arbiter (f : Field) (z : Nat) (v : ZoneRun) : (f.setZone z v).arbiter = f.arbiter := rfl
@[simp] theorem Field.setZone_trip (f : Field) (z : Nat) (v : ZoneRun) : (f.setZone z v).trip = f.trip := rfl
@[simp] theorem Field.setZone_reports (f : Field) (z : Nat) (v : ZoneRun) : (f.setZone z v).reports = f.reports := rfl

@[simp] theorem Field.setRef_helio (f : Field) (a n : Nat) : (f.setRef a n).helio = f.helio := rfl
@[simp] theorem Field.setRef_zone (f : Field) (a n : Nat) : (f.setRef a n).zone = f.zone := rfl
@[simp] theorem Field.setRef_grants (f : Field) (a n : Nat) : (f.setRef a n).grants = f.grants := rfl
@[simp] theorem Field.setRef_sxe (f : Field) (a n : Nat) : (f.setRef a n).sxe = f.sxe := rfl
@[simp] theorem Field.setRef_slot (f : Field) (a n : Nat) : (f.setRef a n).slot = f.slot := rfl
@[simp] theorem Field.setRef_arbiter (f : Field) (a n : Nat) : (f.setRef a n).arbiter = f.arbiter := rfl
@[simp] theorem Field.setRef_trip (f : Field) (a n : Nat) : (f.setRef a n).trip = f.trip := rfl
@[simp] theorem Field.setRef_reports (f : Field) (a n : Nat) : (f.setRef a n).reports = f.reports := rfl

@[simp] theorem Field.setSxe_helio (f : Field) (g : Nat) (x : Sxe) : (f.setSxe g x).helio = f.helio := rfl
@[simp] theorem Field.setSxe_zone (f : Field) (g : Nat) (x : Sxe) : (f.setSxe g x).zone = f.zone := rfl
@[simp] theorem Field.setSxe_refs (f : Field) (g : Nat) (x : Sxe) : (f.setSxe g x).refs = f.refs := rfl
@[simp] theorem Field.setSxe_grants (f : Field) (g : Nat) (x : Sxe) : (f.setSxe g x).grants = f.grants := rfl
@[simp] theorem Field.setSxe_slot (f : Field) (g : Nat) (x : Sxe) : (f.setSxe g x).slot = f.slot := rfl
@[simp] theorem Field.setSxe_arbiter (f : Field) (g : Nat) (x : Sxe) : (f.setSxe g x).arbiter = f.arbiter := rfl
@[simp] theorem Field.setSxe_trip (f : Field) (g : Nat) (x : Sxe) : (f.setSxe g x).trip = f.trip := rfl
@[simp] theorem Field.setSxe_reports (f : Field) (g : Nat) (x : Sxe) : (f.setSxe g x).reports = f.reports := rfl

@[simp] theorem Field.setSlot_helio (f : Field) (k : Nat) (v : Slot) : (f.setSlot k v).helio = f.helio := rfl
@[simp] theorem Field.setSlot_zone (f : Field) (k : Nat) (v : Slot) : (f.setSlot k v).zone = f.zone := rfl
@[simp] theorem Field.setSlot_refs (f : Field) (k : Nat) (v : Slot) : (f.setSlot k v).refs = f.refs := rfl
@[simp] theorem Field.setSlot_grants (f : Field) (k : Nat) (v : Slot) : (f.setSlot k v).grants = f.grants := rfl
@[simp] theorem Field.setSlot_sxe (f : Field) (k : Nat) (v : Slot) : (f.setSlot k v).sxe = f.sxe := rfl
@[simp] theorem Field.setSlot_arbiter (f : Field) (k : Nat) (v : Slot) : (f.setSlot k v).arbiter = f.arbiter := rfl
@[simp] theorem Field.setSlot_trip (f : Field) (k : Nat) (v : Slot) : (f.setSlot k v).trip = f.trip := rfl
@[simp] theorem Field.setSlot_reports (f : Field) (k : Nat) (v : Slot) : (f.setSlot k v).reports = f.reports := rfl

/-! ### Reading after a write -/

/-- What index `j` reads after a write at `h`. -/
theorem Field.run_setRun (f : Field) (h j : Nat) (r : HelioRun) :
    (f.setRun h r).run j = if h = j ∧ h < Config.heliostats then r else f.run j := Table.get_set _ _ _ _ _ _

@[simp] theorem Field.zoneAt_setRun (f : Field) (h : Nat) (r : HelioRun) (j : Nat) : (f.setRun h r).zoneAt j = f.zoneAt j := rfl
@[simp] theorem Field.refAt_setRun (f : Field) (h : Nat) (r : HelioRun) (j : Nat) : (f.setRun h r).refAt j = f.refAt j := rfl
@[simp] theorem Field.sxeAt_setRun (f : Field) (h : Nat) (r : HelioRun) (j : Nat) : (f.setRun h r).sxeAt j = f.sxeAt j := rfl
@[simp] theorem Field.slotAt_setRun (f : Field) (h : Nat) (r : HelioRun) (j : Nat) : (f.setRun h r).slotAt j = f.slotAt j := rfl

/-- What index `j` reads after a write at `z`. -/
theorem Field.zoneAt_setZone (f : Field) (z j : Nat) (v : ZoneRun) :
    (f.setZone z v).zoneAt j = if z = j ∧ z < Config.zones then v else f.zoneAt j := Table.get_set _ _ _ _ _ _

@[simp] theorem Field.run_setZone (f : Field) (z : Nat) (v : ZoneRun) (j : Nat) : (f.setZone z v).run j = f.run j := rfl
@[simp] theorem Field.refAt_setZone (f : Field) (z : Nat) (v : ZoneRun) (j : Nat) : (f.setZone z v).refAt j = f.refAt j := rfl
@[simp] theorem Field.sxeAt_setZone (f : Field) (z : Nat) (v : ZoneRun) (j : Nat) : (f.setZone z v).sxeAt j = f.sxeAt j := rfl
@[simp] theorem Field.slotAt_setZone (f : Field) (z : Nat) (v : ZoneRun) (j : Nat) : (f.setZone z v).slotAt j = f.slotAt j := rfl

/-- What index `j` reads after a write at `a`. -/
theorem Field.refAt_setRef (f : Field) (a j : Nat) (n : Nat) :
    (f.setRef a n).refAt j = if a = j ∧ a < Config.aimPoints then n else f.refAt j := Table.get_set _ _ _ _ _ _

@[simp] theorem Field.run_setRef (f : Field) (a : Nat) (n : Nat) (j : Nat) : (f.setRef a n).run j = f.run j := rfl
@[simp] theorem Field.zoneAt_setRef (f : Field) (a : Nat) (n : Nat) (j : Nat) : (f.setRef a n).zoneAt j = f.zoneAt j := rfl
@[simp] theorem Field.sxeAt_setRef (f : Field) (a : Nat) (n : Nat) (j : Nat) : (f.setRef a n).sxeAt j = f.sxeAt j := rfl
@[simp] theorem Field.slotAt_setRef (f : Field) (a : Nat) (n : Nat) (j : Nat) : (f.setRef a n).slotAt j = f.slotAt j := rfl

/-- What index `j` reads after a write at `g`. -/
theorem Field.sxeAt_setSxe (f : Field) (g j : Nat) (x : Sxe) :
    (f.setSxe g x).sxeAt j = if g = j ∧ g < Config.segments then x else f.sxeAt j := Table.get_set _ _ _ _ _ _

@[simp] theorem Field.run_setSxe (f : Field) (g : Nat) (x : Sxe) (j : Nat) : (f.setSxe g x).run j = f.run j := rfl
@[simp] theorem Field.zoneAt_setSxe (f : Field) (g : Nat) (x : Sxe) (j : Nat) : (f.setSxe g x).zoneAt j = f.zoneAt j := rfl
@[simp] theorem Field.refAt_setSxe (f : Field) (g : Nat) (x : Sxe) (j : Nat) : (f.setSxe g x).refAt j = f.refAt j := rfl
@[simp] theorem Field.slotAt_setSxe (f : Field) (g : Nat) (x : Sxe) (j : Nat) : (f.setSxe g x).slotAt j = f.slotAt j := rfl

/-- What index `j` reads after a write at `k`. -/
theorem Field.slotAt_setSlot (f : Field) (k j : Nat) (v : Slot) :
    (f.setSlot k v).slotAt j = if k = j ∧ k < Config.slots then v else f.slotAt j := Table.get_set _ _ _ _ _ _

@[simp] theorem Field.run_setSlot (f : Field) (k : Nat) (v : Slot) (j : Nat) : (f.setSlot k v).run j = f.run j := rfl
@[simp] theorem Field.zoneAt_setSlot (f : Field) (k : Nat) (v : Slot) (j : Nat) : (f.setSlot k v).zoneAt j = f.zoneAt j := rfl
@[simp] theorem Field.refAt_setSlot (f : Field) (k : Nat) (v : Slot) (j : Nat) : (f.setSlot k v).refAt j = f.refAt j := rfl
@[simp] theorem Field.sxeAt_setSlot (f : Field) (k : Nat) (v : Slot) (j : Nat) : (f.setSlot k v).sxeAt j = f.sxeAt j := rfl

/-! ### The reports -/

@[simp] theorem Field.setReportOwed_zone (f : Field) (src : Source) (b : Bool) : (f.setReportOwed src b).zone = f.zone := by
  cases src <;> rfl
@[simp] theorem Field.setReportOwed_refs (f : Field) (src : Source) (b : Bool) : (f.setReportOwed src b).refs = f.refs := by
  cases src <;> rfl
@[simp] theorem Field.setReportOwed_grants (f : Field) (src : Source) (b : Bool) : (f.setReportOwed src b).grants = f.grants := by
  cases src <;> rfl
@[simp] theorem Field.setReportOwed_sxe (f : Field) (src : Source) (b : Bool) : (f.setReportOwed src b).sxe = f.sxe := by
  cases src <;> rfl
@[simp] theorem Field.setReportOwed_slot (f : Field) (src : Source) (b : Bool) : (f.setReportOwed src b).slot = f.slot := by
  cases src <;> rfl
@[simp] theorem Field.setReportOwed_arbiter (f : Field) (src : Source) (b : Bool) : (f.setReportOwed src b).arbiter = f.arbiter := by
  cases src <;> rfl
@[simp] theorem Field.setReportOwed_trip (f : Field) (src : Source) (b : Bool) : (f.setReportOwed src b).trip = f.trip := by
  cases src <;> rfl
@[simp] theorem Field.setReportOwed_queue (f : Field) (src : Source) (b : Bool) :
    (f.setReportOwed src b).reports.queue = f.reports.queue := by
  cases src <;> rfl

@[simp] theorem Field.queueReport_zone (f : Field) (src : Source) : (f.queueReport src).zone = f.zone := by
  unfold Field.queueReport
  split
  · rfl
  · split
    · rfl
    · split
      · rfl
      · exact Field.setReportOwed_zone f src true
@[simp] theorem Field.queueReport_refs (f : Field) (src : Source) : (f.queueReport src).refs = f.refs := by
  unfold Field.queueReport
  split
  · rfl
  · split
    · rfl
    · split
      · rfl
      · exact Field.setReportOwed_refs f src true
@[simp] theorem Field.queueReport_grants (f : Field) (src : Source) : (f.queueReport src).grants = f.grants := by
  unfold Field.queueReport
  split
  · rfl
  · split
    · rfl
    · split
      · rfl
      · exact Field.setReportOwed_grants f src true
@[simp] theorem Field.queueReport_sxe (f : Field) (src : Source) : (f.queueReport src).sxe = f.sxe := by
  unfold Field.queueReport
  split
  · rfl
  · split
    · rfl
    · split
      · rfl
      · exact Field.setReportOwed_sxe f src true
@[simp] theorem Field.queueReport_slot (f : Field) (src : Source) : (f.queueReport src).slot = f.slot := by
  unfold Field.queueReport
  split
  · rfl
  · split
    · rfl
    · split
      · rfl
      · exact Field.setReportOwed_slot f src true
@[simp] theorem Field.queueReport_arbiter (f : Field) (src : Source) : (f.queueReport src).arbiter = f.arbiter := by
  unfold Field.queueReport
  split
  · rfl
  · split
    · rfl
    · split
      · rfl
      · exact Field.setReportOwed_arbiter f src true
@[simp] theorem Field.queueReport_trip (f : Field) (src : Source) : (f.queueReport src).trip = f.trip := by
  unfold Field.queueReport
  split
  · rfl
  · split
    · rfl
    · split
      · rfl
      · exact Field.setReportOwed_trip f src true
@[simp] theorem Work.report_zone (w : Work) (src : Source) : (w.report src).fld.zone = w.fld.zone := Field.queueReport_zone w.fld src
@[simp] theorem Work.report_refs (w : Work) (src : Source) : (w.report src).fld.refs = w.fld.refs := Field.queueReport_refs w.fld src
@[simp] theorem Work.report_grants (w : Work) (src : Source) : (w.report src).fld.grants = w.fld.grants := Field.queueReport_grants w.fld src
@[simp] theorem Work.report_sxe (w : Work) (src : Source) : (w.report src).fld.sxe = w.fld.sxe := Field.queueReport_sxe w.fld src
@[simp] theorem Work.report_slot (w : Work) (src : Source) : (w.report src).fld.slot = w.fld.slot := Field.queueReport_slot w.fld src
@[simp] theorem Work.report_arbiter (w : Work) (src : Source) : (w.report src).fld.arbiter = w.fld.arbiter := Field.queueReport_arbiter w.fld src
@[simp] theorem Work.report_trip (w : Work) (src : Source) : (w.report src).fld.trip = w.fld.trip := Field.queueReport_trip w.fld src

@[simp] theorem Work.report_touched (w : Work) (src : Source) : (w.report src).touched = w.touched := rfl
@[simp] theorem Work.report_onset (w : Work) (src : Source) : (w.report src).onset = w.onset := rfl
@[simp] theorem Work.touch_fld (w : Work) (zs : List Nat) : (w.touch zs).fld = w.fld := rfl
@[simp] theorem Work.touch_onset (w : Work) (zs : List Nat) : (w.touch zs).onset = w.onset := rfl
@[simp] theorem Work.of_fld (f : Field) : (Work.of f).fld = f := rfl
@[simp] theorem Work.of_touched (f : Field) : (Work.of f).touched = [] := rfl
@[simp] theorem Work.of_onset (f : Field) : (Work.of f).onset = false := rfl

/-! ### The state's updates -/

@[simp] theorem State.popFrame_pending (s : State) : (s.popFrame).pending = s.pending := rfl
@[simp] theorem State.popFrame_now (s : State) : (s.popFrame).now = s.now := rfl
@[simp] theorem State.popFrame_phase (s : State) : (s.popFrame).phase = s.phase := rfl
@[simp] theorem State.popFrame_fsafeAsserted (s : State) : (s.popFrame).fsafeAsserted = s.fsafeAsserted := rfl
@[simp] theorem State.popFrame_osc (s : State) : (s.popFrame).osc = s.osc := rfl
@[simp] theorem State.popFrame_store (s : State) : (s.popFrame).store = s.store := rfl
@[simp] theorem State.popFrame_live (s : State) : (s.popFrame).live = s.live := rfl
@[simp] theorem State.popFrame_marks (s : State) : (s.popFrame).marks = s.marks := rfl
@[simp] theorem State.popFrame_commit (s : State) : (s.popFrame).commit = s.commit := rfl
@[simp] theorem State.popFrame_loadFaults (s : State) : (s.popFrame).loadFaults = s.loadFaults := rfl
@[simp] theorem State.popFrame_limitLock (s : State) : (s.popFrame).limitLock = s.limitLock := rfl
@[simp] theorem State.popFrame_watchOn (s : State) : (s.popFrame).watchOn = s.watchOn := rfl
@[simp] theorem State.popFrame_sensorRx (s : State) : (s.popFrame).sensorRx = s.sensorRx := rfl
@[simp] theorem State.popFrame_field (s : State) : (s.popFrame).field = s.field := rfl

@[simp] theorem State.answer_pending (tag kind : Byte) (r : Reply) (s : State) : (State.answer tag kind r s).pending = s.pending := rfl
@[simp] theorem State.answer_now (tag kind : Byte) (r : Reply) (s : State) : (State.answer tag kind r s).now = s.now := rfl
@[simp] theorem State.answer_phase (tag kind : Byte) (r : Reply) (s : State) : (State.answer tag kind r s).phase = s.phase := rfl
@[simp] theorem State.answer_fsafeAsserted (tag kind : Byte) (r : Reply) (s : State) : (State.answer tag kind r s).fsafeAsserted = s.fsafeAsserted := rfl
@[simp] theorem State.answer_osc (tag kind : Byte) (r : Reply) (s : State) : (State.answer tag kind r s).osc = s.osc := rfl
@[simp] theorem State.answer_store (tag kind : Byte) (r : Reply) (s : State) : (State.answer tag kind r s).store = s.store := rfl
@[simp] theorem State.answer_live (tag kind : Byte) (r : Reply) (s : State) : (State.answer tag kind r s).live = s.live := rfl
@[simp] theorem State.answer_marks (tag kind : Byte) (r : Reply) (s : State) : (State.answer tag kind r s).marks = s.marks := rfl
@[simp] theorem State.answer_commit (tag kind : Byte) (r : Reply) (s : State) : (State.answer tag kind r s).commit = s.commit := rfl
@[simp] theorem State.answer_loadFaults (tag kind : Byte) (r : Reply) (s : State) : (State.answer tag kind r s).loadFaults = s.loadFaults := rfl
@[simp] theorem State.answer_limitLock (tag kind : Byte) (r : Reply) (s : State) : (State.answer tag kind r s).limitLock = s.limitLock := rfl
@[simp] theorem State.answer_watchOn (tag kind : Byte) (r : Reply) (s : State) : (State.answer tag kind r s).watchOn = s.watchOn := rfl
@[simp] theorem State.answer_sensorRx (tag kind : Byte) (r : Reply) (s : State) : (State.answer tag kind r s).sensorRx = s.sensorRx := rfl
@[simp] theorem State.answer_field (tag kind : Byte) (r : Reply) (s : State) : (State.answer tag kind r s).field = s.field := rfl

@[simp] theorem State.advanceTo_pending (t : Nat) (s : State) : (s.advanceTo t).pending = s.pending := rfl
@[simp] theorem State.advanceTo_phase (t : Nat) (s : State) : (s.advanceTo t).phase = s.phase := rfl
@[simp] theorem State.advanceTo_fsafeAsserted (t : Nat) (s : State) : (s.advanceTo t).fsafeAsserted = s.fsafeAsserted := rfl
@[simp] theorem State.advanceTo_osc (t : Nat) (s : State) : (s.advanceTo t).osc = s.osc := rfl
@[simp] theorem State.advanceTo_store (t : Nat) (s : State) : (s.advanceTo t).store = s.store := rfl
@[simp] theorem State.advanceTo_live (t : Nat) (s : State) : (s.advanceTo t).live = s.live := rfl
@[simp] theorem State.advanceTo_marks (t : Nat) (s : State) : (s.advanceTo t).marks = s.marks := rfl
@[simp] theorem State.advanceTo_commit (t : Nat) (s : State) : (s.advanceTo t).commit = s.commit := rfl
@[simp] theorem State.advanceTo_loadFaults (t : Nat) (s : State) : (s.advanceTo t).loadFaults = s.loadFaults := rfl
@[simp] theorem State.advanceTo_limitLock (t : Nat) (s : State) : (s.advanceTo t).limitLock = s.limitLock := rfl
@[simp] theorem State.advanceTo_watchOn (t : Nat) (s : State) : (s.advanceTo t).watchOn = s.watchOn := rfl
@[simp] theorem State.advanceTo_sensorRx (t : Nat) (s : State) : (s.advanceTo t).sensorRx = s.sensorRx := rfl
@[simp] theorem State.advanceTo_ulp (t : Nat) (s : State) : (s.advanceTo t).ulp = s.ulp := rfl
@[simp] theorem State.advanceTo_field (t : Nat) (s : State) : (s.advanceTo t).field = s.field := rfl

@[simp] theorem State.tick_pending (s : State) : (s.tick).pending = s.pending := rfl
@[simp] theorem State.tick_phase (s : State) : (s.tick).phase = s.phase := rfl
@[simp] theorem State.tick_fsafeAsserted (s : State) : (s.tick).fsafeAsserted = s.fsafeAsserted := rfl
@[simp] theorem State.tick_osc (s : State) : (s.tick).osc = s.osc := rfl
@[simp] theorem State.tick_store (s : State) : (s.tick).store = s.store := rfl
@[simp] theorem State.tick_live (s : State) : (s.tick).live = s.live := rfl
@[simp] theorem State.tick_marks (s : State) : (s.tick).marks = s.marks := rfl
@[simp] theorem State.tick_commit (s : State) : (s.tick).commit = s.commit := rfl
@[simp] theorem State.tick_loadFaults (s : State) : (s.tick).loadFaults = s.loadFaults := rfl
@[simp] theorem State.tick_limitLock (s : State) : (s.tick).limitLock = s.limitLock := rfl
@[simp] theorem State.tick_watchOn (s : State) : (s.tick).watchOn = s.watchOn := rfl
@[simp] theorem State.tick_sensorRx (s : State) : (s.tick).sensorRx = s.sensorRx := rfl
@[simp] theorem State.tick_ulp (s : State) : (s.tick).ulp = s.ulp := rfl
@[simp] theorem State.tick_field (s : State) : (s.tick).field = s.field := rfl

@[simp] theorem State.kick_pending (s : State) : (s.kick).pending = s.pending := rfl
@[simp] theorem State.kick_now (s : State) : (s.kick).now = s.now := rfl
@[simp] theorem State.kick_phase (s : State) : (s.kick).phase = s.phase := rfl
@[simp] theorem State.kick_fsafeAsserted (s : State) : (s.kick).fsafeAsserted = s.fsafeAsserted := rfl
@[simp] theorem State.kick_osc (s : State) : (s.kick).osc = s.osc := rfl
@[simp] theorem State.kick_store (s : State) : (s.kick).store = s.store := rfl
@[simp] theorem State.kick_live (s : State) : (s.kick).live = s.live := rfl
@[simp] theorem State.kick_marks (s : State) : (s.kick).marks = s.marks := rfl
@[simp] theorem State.kick_commit (s : State) : (s.kick).commit = s.commit := rfl
@[simp] theorem State.kick_loadFaults (s : State) : (s.kick).loadFaults = s.loadFaults := rfl
@[simp] theorem State.kick_limitLock (s : State) : (s.kick).limitLock = s.limitLock := rfl
@[simp] theorem State.kick_watchOn (s : State) : (s.kick).watchOn = s.watchOn := rfl
@[simp] theorem State.kick_sensorRx (s : State) : (s.kick).sensorRx = s.sensorRx := rfl
@[simp] theorem State.kick_ulp (s : State) : (s.kick).ulp = s.ulp := rfl

@[simp] theorem State.change_pending (g : Work → Work) (s : State) : (s.change g).pending = s.pending := rfl
@[simp] theorem State.change_now (g : Work → Work) (s : State) : (s.change g).now = s.now := rfl
@[simp] theorem State.change_phase (g : Work → Work) (s : State) : (s.change g).phase = s.phase := rfl
@[simp] theorem State.change_fsafeAsserted (g : Work → Work) (s : State) : (s.change g).fsafeAsserted = s.fsafeAsserted := rfl
@[simp] theorem State.change_osc (g : Work → Work) (s : State) : (s.change g).osc = s.osc := rfl
@[simp] theorem State.change_store (g : Work → Work) (s : State) : (s.change g).store = s.store := rfl
@[simp] theorem State.change_live (g : Work → Work) (s : State) : (s.change g).live = s.live := rfl
@[simp] theorem State.change_marks (g : Work → Work) (s : State) : (s.change g).marks = s.marks := rfl
@[simp] theorem State.change_commit (g : Work → Work) (s : State) : (s.change g).commit = s.commit := rfl
@[simp] theorem State.change_loadFaults (g : Work → Work) (s : State) : (s.change g).loadFaults = s.loadFaults := rfl
@[simp] theorem State.change_limitLock (g : Work → Work) (s : State) : (s.change g).limitLock = s.limitLock := rfl
@[simp] theorem State.change_watchOn (g : Work → Work) (s : State) : (s.change g).watchOn = s.watchOn := rfl
@[simp] theorem State.change_sensorRx (g : Work → Work) (s : State) : (s.change g).sensorRx = s.sensorRx := rfl
@[simp] theorem State.change_ulp (g : Work → Work) (s : State) : (s.change g).ulp = s.ulp := rfl

@[simp] theorem State.stateEvent_pending (s : State) : (s.stateEvent).pending = s.pending := rfl
@[simp] theorem State.stateEvent_now (s : State) : (s.stateEvent).now = s.now := rfl
@[simp] theorem State.stateEvent_phase (s : State) : (s.stateEvent).phase = s.phase := rfl
@[simp] theorem State.stateEvent_fsafeAsserted (s : State) : (s.stateEvent).fsafeAsserted = s.fsafeAsserted := rfl
@[simp] theorem State.stateEvent_osc (s : State) : (s.stateEvent).osc = s.osc := rfl
@[simp] theorem State.stateEvent_store (s : State) : (s.stateEvent).store = s.store := rfl
@[simp] theorem State.stateEvent_live (s : State) : (s.stateEvent).live = s.live := rfl
@[simp] theorem State.stateEvent_marks (s : State) : (s.stateEvent).marks = s.marks := rfl
@[simp] theorem State.stateEvent_commit (s : State) : (s.stateEvent).commit = s.commit := rfl
@[simp] theorem State.stateEvent_loadFaults (s : State) : (s.stateEvent).loadFaults = s.loadFaults := rfl
@[simp] theorem State.stateEvent_limitLock (s : State) : (s.stateEvent).limitLock = s.limitLock := rfl
@[simp] theorem State.stateEvent_watchOn (s : State) : (s.stateEvent).watchOn = s.watchOn := rfl
@[simp] theorem State.stateEvent_sensorRx (s : State) : (s.stateEvent).sensorRx = s.sensorRx := rfl
@[simp] theorem State.stateEvent_ulp (s : State) : (s.stateEvent).ulp = s.ulp := rfl

@[simp] theorem State.enterHold_pending (c : StateCause) (s : State) : (State.enterHold c s).pending = s.pending := rfl
@[simp] theorem State.enterHold_now (c : StateCause) (s : State) : (State.enterHold c s).now = s.now := rfl
@[simp] theorem State.enterHold_phase (c : StateCause) (s : State) : (State.enterHold c s).phase = s.phase := rfl
@[simp] theorem State.enterHold_fsafeAsserted (c : StateCause) (s : State) : (State.enterHold c s).fsafeAsserted = s.fsafeAsserted := rfl
@[simp] theorem State.enterHold_store (c : StateCause) (s : State) : (State.enterHold c s).store = s.store := rfl
@[simp] theorem State.enterHold_live (c : StateCause) (s : State) : (State.enterHold c s).live = s.live := rfl
@[simp] theorem State.enterHold_marks (c : StateCause) (s : State) : (State.enterHold c s).marks = s.marks := rfl
@[simp] theorem State.enterHold_commit (c : StateCause) (s : State) : (State.enterHold c s).commit = s.commit := rfl
@[simp] theorem State.enterHold_loadFaults (c : StateCause) (s : State) : (State.enterHold c s).loadFaults = s.loadFaults := rfl
@[simp] theorem State.enterHold_limitLock (c : StateCause) (s : State) : (State.enterHold c s).limitLock = s.limitLock := rfl
@[simp] theorem State.enterHold_watchOn (c : StateCause) (s : State) : (State.enterHold c s).watchOn = s.watchOn := rfl
@[simp] theorem State.enterHold_sensorRx (c : StateCause) (s : State) : (State.enterHold c s).sensorRx = s.sensorRx := rfl
@[simp] theorem State.enterHold_ulp (c : StateCause) (s : State) : (State.enterHold c s).ulp = s.ulp := rfl

end Sys2Proof.Machine
end

