-- ==== Sys2Proof/Laws/Reach.lean ====
section
/-! SUPPORT. What a change of the field can do, said once: every operation over the field is a chain of primitive changes
(`Field.Prim`). A fact that every primitive change keeps is kept by every operation. -/

namespace Sys2Proof.Machine

/-! ### The primitive changes -/

/-- Two records that differ in nothing the accounts, the lists and R6 follow. -/
structure HelioRun.Like (r r' : HelioRun) : Prop where
  state : r'.state = r.state
  granted : r'.granted = r.granted
  leaving : r'.leaving = r.leaving
  destination : r'.destination = r.destination
  released : r'.released = r.released
  owed : r'.owed = r.owed
  motionCause : r'.motionCause = r.motionCause
  accepted : r'.accepted = r.accepted
  unaccounted : r'.unaccounted = r.unaccounted
  queued : r'.queued → r.queued
  reportOwed : r'.reportOwed = r.reportOwed

/-- One primitive change of the field under the live tables `live`. -/
inductive Field.Prim (live : Tables) (f : Field) : Field → Prop where
  | record (env : Env) (he : env.live = live) (h : Nat) (r : HelioRun) (hh : h < Config.heliostats)
      (hs : (f.run h).Sound → r.Sound) (ho : r.reportOwed → (f.run h).reportOwed) : Prim live f (f.record env h r)
  | minor (h : Nat) (r : HelioRun) (hl : (f.run h).Like r) : Prim live f (f.setRun h r)
  | zone (z : Nat) (v : ZoneRun) (hc : v.committed = (f.zoneAt z).committed) (hp : v.pending = (f.zoneAt z).pending) :
      Prim live f (f.setZone z v)
  | sxe (g : Nat) (x : Sxe) (hq : x.queue.length ≤ (f.sxeAt g).queue.length ∨ x.queue.length ≤ Config.moveQueue) :
      Prim live f (f.setSxe g x)
  | slots (t : Table Slot) (a : Arbiter)
      (hw : Table.wf Config.slots Slot.blank f.slot → Table.wf Config.slots Slot.blank t) :
      Prim live f { f with slot := t, arbiter := a }
  | trip (t : TripRecord) : Prim live f { f with trip := t }
  | report (src : Source) : Prim live f (f.queueReport src)
  | unowe (src : Source) : Prim live f (f.setReportOwed src false)
  | sent (src : Source) (rest : List Source) (hq : f.reports.queue = src :: rest) :
      Prim live f { f with reports := { f.reports with queue := rest } }
  | newest (h : Nat) (hm : h ∈ f.grants) : Prim live f { f with grants := f.grants.filter (· != h) ++ [h] }

/-- A chain of primitive changes. -/
abbrev Field.Reach (live : Tables) : Field → Field → Prop := Relation.ReflTransGen (Field.Prim live)

variable {live : Tables}

theorem Field.Reach.refl (f : Field) : Field.Reach live f f := Relation.ReflTransGen.refl

theorem Field.Prim.reach {f g : Field} (h : Field.Prim live f g) : Field.Reach live f g := Relation.ReflTransGen.single h

/-- A fact that every primitive change keeps holds after a chain of them. -/
theorem Field.Reach.keeps {P : Field → Prop} (hP : ∀ f g, Field.Prim live f g → P f → P g) {f g : Field}
    (h : Field.Reach live f g) (hf : P f) : P g := by
  induction h with
  | refl => exact hf
  | tail _ hp ih => exact hP _ _ hp ih

/-- A fold of operations that are chains is a chain. -/
theorem Field.Reach.foldl {β : Type} (op : Field → β → Field) (hop : ∀ f b, Field.Reach live f (op f b)) (l : List β) (f : Field) :
    Field.Reach live f (l.foldl op f) := by
  induction l generalizing f with
  | nil => exact .refl f
  | cons b l ih => exact (hop f b).trans (ih (op f b))

/-- The same of a fold over works. -/
theorem Work.reach_foldl {β : Type} (op : Work → β → Work) (hop : ∀ w b, Field.Reach live w.fld (op w b).fld) (l : List β)
    (w : Work) : Field.Reach live w.fld (l.foldl op w).fld := by
  induction l generalizing w with
  | nil => exact Relation.ReflTransGen.refl
  | cons b l ih => exact (hop w b).trans (ih (op w b))

/-! ### The operations of Ops.lean -/

theorem Field.reach_setSlot (f : Field) (k : Nat) (v : Slot) : Field.Reach live f (f.setSlot k v) :=
  (Field.Prim.slots (Table.set Config.slots Slot.blank f.slot k v) f.arbiter (fun h => Table.wf_set k v h)).reach

theorem Field.reach_arbiter (f : Field) (a : Arbiter) : Field.Reach live f { f with arbiter := a } :=
  (Field.Prim.slots f.slot a id).reach

theorem Work.reach_report (src : Source) (w : Work) : Field.Reach live w.fld (w.report src).fld := (Field.Prim.report src).reach

variable {env : Env}

theorem Work.reach_write (h : Nat) (r : HelioRun) (w : Work) (hs : (w.fld.run h).Sound → r.Sound)
    (ho : r.reportOwed → (w.fld.run h).reportOwed) : Field.Reach env.live w.fld (w.write env h r).fld := by
  unfold Work.write
  split
  · next hh => exact (Field.Prim.record env rfl h r hh hs ho).reach
  · exact Relation.ReflTransGen.refl

theorem Work.reach_put (h : Nat) (r : HelioRun) (w : Work) (hs : (w.fld.run h).Sound → r.Sound)
    (ho : r.reportOwed → (w.fld.run h).reportOwed) : Field.Reach env.live w.fld (w.put env h r).fld := by
  unfold Work.put
  simp only
  split
  · exact (Work.reach_write h r w hs ho).trans (Work.reach_report _ _)
  · exact Work.reach_write h r w hs ho

theorem HelioRun.by_reportOwed (c : Option Cause) (old new : HelioRun) : (old.by c new).reportOwed = new.reportOwed := by
  unfold HelioRun.by
  split <;> rfl

theorem HelioRun.nothingRemains_reportOwed (r : HelioRun) : r.nothingRemains.reportOwed = r.reportOwed := by
  unfold HelioRun.nothingRemains
  split
  · rfl
  · split <;> rfl
  · split <;> rfl

theorem HelioRun.setOwed_reportOwed (m : Motion) (c : Cause) (r : HelioRun) : (r.setOwed m c).reportOwed = r.reportOwed := by
  unfold HelioRun.setOwed
  split <;> rfl

theorem HelioRun.revoked_reportOwed (r : HelioRun) : r.revoked.reportOwed = r.reportOwed := by
  unfold HelioRun.revoked
  split
  · rfl
  · cases r.rest <;> rfl

theorem Work.reach_follow (h : Nat) (a : Option Nat) (c : Bool) (w : Work) : Field.Reach live w.fld (w.follow h a c).fld := by
  unfold Work.follow
  split
  · exact Relation.ReflTransGen.refl
  · exact Field.Reach.foldl _ (fun f k => Field.reach_setSlot f k _) _ _

theorem Field.reach_dropEntry (g h : Nat) (f : Field) : Field.Reach live f (f.dropEntry g h) := by
  unfold Field.dropEntry
  simp only
  split
  · exact (Field.Prim.sxe g _ (Or.inl (List.length_filter_le _ _))).reach
  · exact Relation.ReflTransGen.refl

theorem Field.run_dropEntry (g h : Nat) (f : Field) (j : Nat) : (f.dropEntry g h).run j = f.run j := by
  unfold Field.dropEntry
  simp only
  split <;> rfl

theorem Work.reach_dropEntry (h : Nat) (w : Work) : Field.Reach live w.fld (w.dropEntry env h).fld := Field.reach_dropEntry _ h _

theorem Work.run_dropEntry (h : Nat) (w : Work) (j : Nat) : (w.dropEntry env h).fld.run j = w.fld.run j :=
  Field.run_dropEntry _ h _ j

theorem Work.reach_withdraw (c : Cause) (h : Nat) (w : Work) : Field.Reach env.live w.fld (w.withdraw env c h).fld := by
  unfold Work.withdraw
  simp only
  split
  · refine ((Work.reach_dropEntry h w).trans (Work.reach_put h _ _ ?_ ?_)).trans (Work.reach_follow _ _ _ _)
    · rw [Work.run_dropEntry]
      exact fun hs => HelioRun.Sound.by _ hs.revoked.nothingRemains
    · rw [Work.run_dropEntry, HelioRun.by_reportOwed, HelioRun.nothingRemains_reportOwed, HelioRun.revoked_reportOwed]
      exact id
  · exact Relation.ReflTransGen.refl

theorem Work.reach_withdrawAll (c : Cause) (p : Entry → Bool) (w : Work) :
    Field.Reach env.live w.fld (w.withdrawAll env c p).fld :=
  Work.reach_foldl _ (fun w (e : Entry) => Work.reach_withdraw c e.helio w) _ _

theorem Work.reach_owe (m : Motion) (c : Cause) (h : Nat) (w : Work) : Field.Reach env.live w.fld (w.owe env m c h).fld := by
  unfold Work.owe
  simp only
  split
  · refine ((Work.reach_dropEntry h w).trans (Work.reach_put h _ _ ?_ ?_)).trans (Work.reach_follow _ _ _ _)
    · rw [Work.run_dropEntry]
      exact fun hs => HelioRun.Sound.by _ ((hs.revoked.setOwed m c (HelioRun.revoked_queued _ rfl)).nothingRemains)
    · rw [Work.run_dropEntry, HelioRun.by_reportOwed, HelioRun.nothingRemains_reportOwed, HelioRun.setOwed_reportOwed,
        HelioRun.revoked_reportOwed]
      exact id
  · next hq =>
    refine Work.reach_put h _ _ ?_ ?_
    · exact fun hs => HelioRun.Sound.by _ ((hs.setOwed m c (by simpa using hq)).nothingRemains)
    · rw [HelioRun.by_reportOwed, HelioRun.nothingRemains_reportOwed, HelioRun.setOwed_reportOwed]
      exact id

theorem Work.reach_oweMembers (m : Motion) (c : Cause) (hs : List Nat) (w : Work) :
    Field.Reach env.live w.fld (w.oweMembers env m c hs).1.fld := by
  unfold Work.oweMembers
  suffices h : ∀ (l : List Nat) (p : Work × Nat), Field.Reach env.live p.1.fld
      (l.foldl (fun (p : Work × Nat) h =>
        let r := p.1.fld.run h
        if (r.motionRefusal (p.1.fld.passHeld env h)).isSome then p
        else
          let w1 := p.1.owe env m c h
          (w1, if r.queued || (w1.fld.run h).owed != r.owed then p.2 + 1 else p.2)) p).1.fld from h hs (w, 0)
  intro l
  induction l with
  | nil => intro p; exact Relation.ReflTransGen.refl
  | cons h l ih =>
    intro p
    refine Relation.ReflTransGen.trans ?_ (ih _)
    simp only
    split
    · exact Relation.ReflTransGen.refl
    · exact Work.reach_owe m c h p.1

theorem Work.reach_mark (z : Nat) (v : ZoneRun) (w : Work) (hc : v.committed = (w.fld.zoneAt z).committed)
    (hp : v.pending = (w.fld.zoneAt z).pending) : Field.Reach live w.fld (w.mark z v).fld :=
  (Field.Prim.zone z v hc hp).reach.trans (Field.Prim.report _).reach

theorem Work.reach_rebudget (z : Nat) (w : Work) : Field.Reach live w.fld (w.rebudget env z).fld := by
  unfold Work.rebudget
  simp only
  split
  · exact Relation.ReflTransGen.refl
  · exact Work.reach_mark z _ w rfl rfl

theorem Work.reach_rebudgetAll (zs : List Nat) (w : Work) : Field.Reach live w.fld (w.rebudgetAll env zs).fld :=
  Work.reach_foldl _ (fun w z => Work.reach_rebudget z w) _ _

theorem Work.reach_evalOver (z : Nat) (w : Work) : Field.Reach live w.fld (w.evalOver z).fld := by
  unfold Work.evalOver
  simp only
  split
  · exact Relation.ReflTransGen.refl
  · exact Work.reach_mark z _ w rfl rfl

theorem Work.reach_shed (z h : Nat) (w : Work) : Field.Reach env.live w.fld (w.shed env z h).fld := by
  unfold Work.shed
  split
  · simp only
    split
    · exact (Work.reach_withdraw _ h w).trans (Work.reach_owe _ _ h _)
    · exact Work.reach_withdraw _ h w
  · exact Work.reach_owe _ _ h w

theorem Work.reach_walk (z : Nat) (l : List Nat) (w : Work) : Field.Reach env.live w.fld (w.walk env z l).fld := by
  induction l generalizing w with
  | nil => exact Relation.ReflTransGen.refl
  | cons h l ih =>
    unfold Work.walk
    split
    · refine Relation.ReflTransGen.trans ?_ (ih _)
      split
      · exact Work.reach_shed z h w
      · exact Relation.ReflTransGen.refl
    · exact Relation.ReflTransGen.refl

theorem Work.reach_setUnsheddable (z : Nat) (b : Bool) (w : Work) : Field.Reach live w.fld (w.setUnsheddable z b).fld := by
  unfold Work.setUnsheddable
  simp only
  split
  · exact Relation.ReflTransGen.refl
  · exact Work.reach_mark z _ w rfl rfl

theorem Work.reach_shedTest (z : Nat) (w : Work) : Field.Reach env.live w.fld (w.shedTest env z).fld := by
  unfold Work.shedTest
  simp only
  refine Relation.ReflTransGen.trans ?_ (Work.reach_setUnsheddable z _ _)
  split
  · exact (Work.reach_walk z _ w).trans (Work.reach_evalOver z _)
  · exact Relation.ReflTransGen.refl

theorem Work.reach_settle (n : Nat) (w : Work) : Field.Reach env.live w.fld (w.settle env n).fld := by
  induction n generalizing w with
  | zero => exact Relation.ReflTransGen.refl
  | succ n ih =>
    unfold Work.settle
    split
    · exact Relation.ReflTransGen.refl
    · next z t _ =>
      exact Relation.ReflTransGen.trans
        (Relation.ReflTransGen.trans (Work.reach_evalOver z { w with touched := t }) (Work.reach_shedTest z _)) (ih _)

theorem Work.reach_settleNow (w : Work) : Field.Reach env.live w.fld (w.settleNow env).fld := Work.reach_settle _ w

theorem Work.reach_evalTrip (w : Work) : Field.Reach live w.fld (w.evalTrip env).fld := by
  unfold Work.evalTrip
  simp only
  split
  · exact Relation.ReflTransGen.refl
  · exact (Field.Prim.trip _).reach.trans (Field.Prim.report _).reach

theorem Work.reach_finish (w : Work) : Field.Reach env.live w.fld (w.finish env) :=
  (Work.reach_settleNow w).trans (Work.reach_evalTrip _)

theorem Work.reach_criticalOnset (z : Nat) (w : Work) : Field.Reach env.live w.fld (w.criticalOnset env z).fld := by
  unfold Work.criticalOnset
  exact (Work.reach_withdrawAll _ _ { w with onset := true }).trans
    (Work.reach_foldl _ (fun w h => Work.reach_owe _ _ h w) _ _)

theorem Work.reach_endSlot (k : Nat) (c : EndCause) (w : Work) : Field.Reach live w.fld (w.endSlot k c).fld := by
  unfold Work.endSlot
  exact ((Field.reach_setSlot w.fld k _).trans (Field.reach_arbiter _ _)).trans (Field.Prim.report _).reach

theorem Work.reach_endAll (c : EndCause) (w : Work) : Field.Reach live w.fld (w.endAll c).1.fld := by
  unfold Work.endAll
  suffices h : ∀ (l : List Nat) (p : Work × Nat), Field.Reach live p.1.fld
      (l.foldl (fun (p : Work × Nat) k =>
        if (p.1.fld.slotAt k).state.nonIdle then (p.1.endSlot k c, p.2 + 1) else p) p).1.fld from h _ (w, 0)
  intro l
  induction l with
  | nil => intro p; exact Relation.ReflTransGen.refl
  | cons k l ih =>
    intro p
    refine Relation.ReflTransGen.trans ?_ (ih _)
    dsimp only
    split
    · exact Work.reach_endSlot k c p.1
    · exact Relation.ReflTransGen.refl

theorem Work.reach_safeActions (w : Work) : Field.Reach env.live w.fld (w.safeActions env).fld := by
  unfold Work.safeActions
  exact ((Work.reach_endAll _ w).trans (Work.reach_withdrawAll _ _ _)).trans
    (Work.reach_foldl _ (fun w h => Work.reach_owe _ _ h w) _ _)

theorem Work.reach_toNewest (h : Nat) (w : Work) : Field.Reach live w.fld (w.toNewest h).fld := by
  unfold Work.toNewest
  split
  · next hm => exact (Field.Prim.newest h hm).reach
  · exact Relation.ReflTransGen.refl

theorem Work.reach_enqueue (e : Entry) (w : Work) : Field.Reach live w.fld (w.enqueue env e).fld := by
  unfold Work.enqueue
  simp only
  split
  · next hl =>
    refine (Field.Prim.sxe _ _ (Or.inr ?_)).reach
    simp only [List.length_append, List.length_cons, List.length_nil]
    omega
  · exact Relation.ReflTransGen.refl

/-- What the checks of R31 have found of the record when they grant. -/
theorem Field.admitMotion_granted {h a : Nat} {f : Field} (hg : f.admitMotion env h a = .granted) :
    ((f.run h).state = .standby ∨ (f.run h).state = .stowed ∨ (f.run h).state = .tracking)
      ∧ (f.run h).queued = false ∧ (f.run h).owed = none ∧ (f.run h).inFlight = false
      ∧ ¬ ((f.run h).state = .tracking ∧ (f.run h).granted = some a) := by
  unfold Field.admitMotion at hg
  simp only at hg
  split at hg
  · cases hg
  · split at hg
    · cases hg
    · next hr =>
      split at hg
      · cases hg
      · next hq =>
        split at hg
        · cases hg
        · next hn =>
          simp only [Bool.or_eq_true, not_or, Bool.not_eq_true, Option.isSome_eq_false_iff, Option.isNone_iff_eq_none] at hq
          refine ⟨?_, hq.1.1, hq.1.2, hq.2, hn⟩
          unfold HelioRun.aimRefusal at hr
          split at hr <;> simp_all

theorem Work.reach_grant (h a : Nat) (o : Origin) (c : Cause) (w : Work)
    (hst : (w.fld.run h).state = .standby ∨ (w.fld.run h).state = .stowed ∨ (w.fld.run h).state = .tracking)
    (hq : (w.fld.run h).owed = none) (hn : ¬ ((w.fld.run h).state = .tracking ∧ (w.fld.run h).granted = some a)) :
    Field.Reach env.live w.fld (w.grant env h a o c).fld := by
  unfold Work.grant
  simp only
  refine (((Work.reach_write h _ w ?_ ?_).trans (Work.reach_toNewest _ _)).trans (Work.reach_enqueue _ _)).trans
    (Work.reach_report _ _)
  · intro hs
    refine HelioRun.Sound.by _ ?_
    obtain ⟨h1, h2, h3, h4, h5, h6, h7, h8⟩ := hs
    rcases hst with hs | hs | hs
    · simp_all [HelioRun.Sound, HelioRun.grantState]
    · simp_all [HelioRun.Sound, HelioRun.grantState]
    · simp_all [HelioRun.Sound, HelioRun.grantState]
      intro hc
      exact hn hc.symm
  · rw [HelioRun.by_reportOwed]; exact id

theorem Work.reach_setCeiling (v : Option Nat) (z : Nat) (w : Work) :
    Field.Reach live w.fld (w.setCeiling env v z).fld := by
  unfold Work.setCeiling
  simp only
  split
  · exact Relation.ReflTransGen.refl
  · refine Relation.ReflTransGen.trans (Work.reach_mark z _ w ?_ ?_) (Work.reach_rebudget z _) <;> rfl

theorem Work.reach_setCeilings (first last : Nat) (v : Option Nat) (w : Work) :
    Field.Reach live w.fld (w.setCeilings env first last v).1.fld :=
  Work.reach_foldl _ (fun w z => Work.reach_setCeiling v z w) _ _

/-! ### The operations of Exchange.lean -/

theorem Field.reach_launch (g h : Nat) (k : ExKind) (req : List Byte) (x : Sxe) (f : Field)
    (hx : x.queue.length ≤ (f.sxeAt g).queue.length) : Field.Reach live f (f.launch env g h k req x) := by
  unfold Field.launch
  refine Relation.ReflTransGen.trans (b := f.setRun h _) (Field.Prim.minor h _ ?_).reach (Field.Prim.sxe g _ (Or.inl ?_)).reach
  · constructor <;> simp +contextual
  · simpa using hx

theorem Field.reach_begin (g : Nat) (c : Choice) (f : Field) : Field.Reach live f (f.begin env g c) := by
  unfold Field.begin
  simp only
  split
  · split
    · exact Field.reach_launch _ _ _ _ _ _ (le_refl _)
    · exact Relation.ReflTransGen.refl
  all_goals first
    | exact Field.reach_launch _ _ _ _ _ _ (le_refl _)
    | exact Field.reach_launch _ _ _ _ _ _ (by simp)

theorem Field.reach_choose (b : Bool) (f : Field) (g : Nat) : Field.Reach live f (f.choose env b g) := by
  unfold Field.choose
  split
  · exact Relation.ReflTransGen.refl
  · split
    · exact Field.reach_begin g _ f
    · exact Relation.ReflTransGen.refl

/-- The choice of every idle SXE is a chain of primitive changes (R60). -/
theorem State.reach_kick (s : State) : Field.Reach live s.field s.kick.field :=
  Field.Reach.foldl _ (fun f g => Field.reach_choose false f g) _ _

/-- One change of the field is a chain of primitive changes. -/
theorem State.reach_change (s : State) (g : Work → Work) (hg : ∀ w, Field.Reach s.live w.fld (g w).fld) :
    Field.Reach s.live s.field (s.change g).field :=
  (hg (Work.of s.field)).trans (Work.reach_finish (env := s.env) _)

theorem Work.reach_followRevoked (h : Nat) (v : Option (Nat × Bool)) (w : Work) :
    Field.Reach live w.fld (w.followRevoked h v).fld := by
  unfold Work.followRevoked
  split
  · exact Work.reach_follow _ _ _ _
  · exact Relation.ReflTransGen.refl

theorem Work.reach_ite (b : Bool) (w w1 : Work) (h : Field.Reach live w.fld w1.fld) :
    Field.Reach live w.fld (if b then w1 else w).fld := by
  cases b
  · exact Relation.ReflTransGen.refl
  · exact h

theorem Work.reach_applyEdit (h : Nat) (e : Edit) (o : Origin) (w : Work) (hs : (w.fld.run h).Sound → e.r.Sound)
    (ho : e.r.reportOwed → (w.fld.run h).reportOwed) : Field.Reach env.live w.fld (w.applyEdit env h e o).fld := by
  have h1 : Field.Reach env.live w.fld (if e.drop then w.dropEntry env h else w).fld :=
    Work.reach_ite _ _ _ (Work.reach_dropEntry h w)
  have hr : (if e.drop then w.dropEntry env h else w).fld.run h = w.fld.run h := by
    split
    · exact Work.run_dropEntry h w h
    · rfl
  unfold Work.applyEdit
  simp only
  exact (((h1.trans (Work.reach_write (env := env) h e.r _ (by rw [hr]; exact hs) (by rw [hr]; exact ho))).trans
    (Work.reach_ite e.newest _ _ (Work.reach_toNewest _ _))).trans
    (Work.reach_ite e.requeue _ _ (Work.reach_enqueue _ _))).trans (Work.reach_followRevoked _ _ _)

theorem Work.reach_conclude (h : Nat) (e : Edit) (o : Origin) (w : Work) (hs : (w.fld.run h).Sound → e.r.Sound)
    (ho : e.r.reportOwed → (w.fld.run h).reportOwed) : Field.Reach env.live w.fld (w.conclude env h e o).fld := by
  have h1 := (Work.reach_applyEdit (env := env) h e o w hs ho).trans (Work.reach_settleNow (env := env) _)
  unfold Work.conclude
  simp only
  refine Relation.ReflTransGen.trans ?_ (Work.reach_evalTrip _)
  split
  · exact h1.trans (Work.reach_report _ _)
  · exact h1

end Sys2Proof.Machine
end

