-- ==== Sys2Proof/Laws/Steps.lean ====
section
/-! SUPPORT. What one command can do to the state, said once for each command: the queue stands, the limit lock and the bounds of
the uplink hold, and the field follows by a chain of primitive changes under unchanged live tables. -/

namespace Sys2Proof.Machine

/-- What every command but POWER_ON_RESET keeps outside the field. -/
structure State.SameFrame (s t : State) : Prop where
  pending : t.pending = s.pending
  lock : s.limitLock = true → t.limitLock = true
  buffer : s.ulp.rxBuf.length ≤ Config.rxFrames → t.ulp.rxBuf.length ≤ Config.rxFrames
  deferred : Table.wf Config.segments Deferred.empty s.ulp.deferred → Table.wf Config.segments Deferred.empty t.ulp.deferred
  store : s.live.Canonical → s.store.tables.Canonical → t.store.tables.Canonical

/-- The live tables stand and the field follows by a chain of primitive changes. -/
structure State.Steps (s t : State) : Prop where
  frame : s.SameFrame t
  live : t.live = s.live
  field : Field.Reach s.live s.field t.field

theorem State.SameFrame.refl (s : State) : s.SameFrame s := ⟨rfl, id, id, id, fun _ h => h⟩

theorem State.SameFrame.trans {s t u : State} (h1 : s.SameFrame t) (h2 : t.SameFrame u) (hl : t.live = s.live) :
    s.SameFrame u :=
  ⟨h2.pending.trans h1.pending, fun h => h2.lock (h1.lock h), fun h => h2.buffer (h1.buffer h),
    fun h => h2.deferred (h1.deferred h), fun hc h => h2.store (hl ▸ hc) (h1.store hc h)⟩

theorem State.Steps.refl (s : State) : s.Steps s := ⟨.refl s, rfl, Relation.ReflTransGen.refl⟩

theorem State.Steps.trans {s t u : State} (h1 : s.Steps t) (h2 : t.Steps u) : s.Steps u :=
  ⟨h1.frame.trans h2.frame h1.live, h2.live.trans h1.live, h1.field.trans (h1.live ▸ h2.field)⟩

/-- A change of the field alone. -/
theorem State.steps_field (s : State) (f : Field) (h : Field.Reach s.live s.field f) : s.Steps { s with field := f } :=
  ⟨⟨rfl, id, id, id, fun _ h => h⟩, rfl, h⟩

theorem State.steps_kick (s : State) : s.Steps s.kick := State.steps_field s _ (State.reach_kick s)

theorem State.steps_change (s : State) (g : Work → Work) (hg : ∀ w, Field.Reach s.live w.fld (g w).fld) : s.Steps (s.change g) :=
  State.steps_field s _ (State.reach_change s g hg)

theorem State.steps_stateEvent (s : State) : s.Steps s.stateEvent := State.steps_field s _ (Field.Prim.report _).reach

theorem State.steps_advanceTo (s : State) (n : Nat) : s.Steps (s.advanceTo n) :=
  ⟨⟨rfl, id, id, id, fun _ h => h⟩, rfl, Relation.ReflTransGen.refl⟩

theorem State.steps_osc (s : State) (o : Osc) : s.Steps { s with osc := o } :=
  ⟨⟨rfl, id, id, id, fun _ h => h⟩, rfl, Relation.ReflTransGen.refl⟩

/-- A change of the field and the OSC. -/
theorem State.steps_fieldOsc (s : State) (f : Field) (o : Osc) (h : Field.Reach s.live s.field f) :
    s.Steps { s with field := f, osc := o } := ⟨⟨rfl, id, id, id, fun _ h => h⟩, rfl, h⟩

theorem State.steps_enterHold (c : StateCause) (s : State) : s.Steps (State.enterHold c s) :=
  State.Steps.trans (State.steps_fieldOsc s _ _ (Work.reach_endAll .hold (Work.of s.field))) (State.steps_stateEvent _)

theorem State.steps_safeOnset (takes : Bool) (s : State) : s.Steps (s.safeOnset takes) :=
  (State.steps_change s _ (fun w => by
    split
    · exact Work.reach_safeActions (env := s.env) w
    · exact (Work.reach_safeActions (env := s.env) w).trans (Work.reach_report _ _))).trans (State.steps_osc _ _)

theorem State.steps_answer (tag kind : Byte) (r : Reply) (s : State) : s.Steps (State.answer tag kind r s) :=
  ⟨⟨rfl, id, id, id, fun _ h => h⟩, rfl, Relation.ReflTransGen.refl⟩

theorem State.steps_popFrame (s : State) : s.Steps s.popFrame :=
  ⟨⟨rfl, id, fun h => le_trans (by simp [State.popFrame]) h, id, fun _ h => h⟩, rfl, Relation.ReflTransGen.refl⟩

/-- What an order does is what its owner's rule does. -/
theorem State.steps_order (s : State) (i : Instr) (tag kind : Byte) (run : State → Reply × State)
    (h : ∀ s : State, s.Steps (run s).2) : s.Steps (s.order i tag kind run) := by
  unfold State.order
  split
  · exact ((State.steps_popFrame s).trans (h _)).trans (State.steps_answer _ _ _ _)
  · exact .refl s

/-! ### Heliostats and zones -/

theorem State.steps_aimOrder (tag : Byte) (helio : Half) (point : Byte) (s : State) : s.Steps (s.aimOrder tag helio point).2 := by
  unfold State.aimOrder
  simp only
  split
  · next h =>
    refine (State.steps_field s _ ?_).trans (State.steps_kick _)
    unfold Field.judgeAim at h
    split at h
    · cases h
    · split at h
      · cases h
      · obtain ⟨h1, -, h2, -, h3⟩ := Field.admitMotion_granted h
        exact (Work.reach_grant (env := s.env) _ _ _ _ (Work.of s.field) h1 h2 h3).trans (Work.reach_finish (env := s.env) _)
  · exact .refl s

theorem State.steps_motionOrder (m : Motion) (scope : Byte) (index : Half) (s : State) :
    s.Steps (s.motionOrder m scope index).2 := by
  have h : ∀ hs, s.Steps (s.change (fun w => (w.oweMembers s.env m .order hs).1)).kick := fun hs =>
    (State.steps_change s _ (fun w => Work.reach_oweMembers (env := s.env) m .order hs w)).trans (State.steps_kick _)
  unfold State.motionOrder
  simp only
  split
  · exact .refl s
  · split
    · exact .refl s
    · exact h _
  · exact h _

theorem Work.reach_clearFault {env : Env} (h : Nat) (w : Work) : Field.Reach env.live w.fld (w.clearFault env h).fld := by
  unfold Work.clearFault
  simp only
  split
  · next hs =>
    refine Work.reach_put h _ w ?_ ?_
    · intro hq
      refine HelioRun.Sound.by _ ?_
      have hg : (w.fld.run h).grantState = false := by simp only [HelioRun.grantState, hs]; rfl
      obtain ⟨hg1, hg2⟩ := hq.no_aims hg
      obtain ⟨h1, h2, h3, h4, h5, h6, h7, h8⟩ := hq
      simp_all [HelioRun.Sound, HelioRun.grantState]
    · rw [HelioRun.by_reportOwed]; exact id
  · exact Relation.ReflTransGen.refl

theorem State.steps_clearFaultOrder (scope : Byte) (index : Half) (s : State) : s.Steps (s.clearFaultOrder scope index).2 := by
  have h : ∀ hs : List Nat, s.Steps (s.change (fun w => hs.foldl (fun (w : Work) h => w.clearFault s.env h) w)).kick := fun hs =>
    (State.steps_change s _ (fun w => Work.reach_foldl _ (fun w h => Work.reach_clearFault (env := s.env) h w) _ _)).trans
      (State.steps_kick _)
  unfold State.clearFaultOrder
  simp only
  split
  · exact .refl s
  · split
    · exact h _
    · exact .refl s
  · exact h _

theorem State.steps_flagsOrder (group mask : Byte) (effect : HelioRun → HelioRun) (he : ∀ r : HelioRun, r.Like (effect r))
    (s : State) : s.Steps (s.flagsOrder group mask effect).2 := by
  unfold State.flagsOrder
  split
  · exact .refl s
  · exact State.steps_field s _ (Field.Reach.foldl _ (fun f h => (Field.Prim.minor h _ (he _)).reach) _ _)

theorem HelioRun.like_giveFlags (mask : Byte) (r : HelioRun) : r.Like (r.giveFlags mask) := by
  constructor <;> first | rfl | exact id

theorem HelioRun.like_takeFlags (mask : Byte) (r : HelioRun) : r.Like (r.takeFlags mask) := by
  constructor <;> first | rfl | exact id

theorem State.steps_readHeliostatOrder (helio : Half) (s : State) : s.Steps (s.readHeliostatOrder helio).2 := by
  unfold State.readHeliostatOrder
  simp only
  split <;> exact .refl s

theorem State.steps_holdPass (tag : Byte) (h : Nat) (body : List Byte) (s : State) : s.Steps (s.holdPass tag h body) := by
  refine ⟨⟨rfl, id, id, fun hw => Table.wf_set _ _ hw, fun _ h => h⟩, rfl, ?_⟩
  refine Relation.ReflTransGen.trans (b := s.field.setSxe (s.env.segmentOf h)
    { s.field.sxeAt (s.env.segmentOf h) with passSlot := some ⟨h, tag, body⟩ })
    (Field.Prim.sxe (s.env.segmentOf h) { s.field.sxeAt (s.env.segmentOf h) with passSlot := some ⟨h, tag, body⟩ }
      (Or.inl (le_refl _))).reach (Field.Prim.minor h _ ?_).reach
  constructor <;> first | rfl | exact id

theorem State.steps_setCeilingOrder (first last : Byte) (value : Tri) (s : State) : s.Steps (s.setCeilingOrder first last value).2 := by
  unfold State.setCeilingOrder
  split
  · exact .refl s
  · split
    · exact (State.steps_change s _ (fun w => Work.reach_setCeilings _ _ _ w)).trans (State.steps_kick _)
    · exact .refl s

theorem State.steps_readZoneOrder (zone : Byte) (s : State) : s.Steps (s.readZoneOrder zone).2 := by
  unfold State.readZoneOrder
  simp only
  split <;> exact .refl s

/-! ### The Receiver Watch -/

theorem Work.reach_setConditions {live : Tables} (z : Nat) (v : ZoneRun) (w : Work) (hc : v.committed = (w.fld.zoneAt z).committed)
    (hp : v.pending = (w.fld.zoneAt z).pending) : Field.Reach live w.fld (w.setConditions z v).fld := by
  unfold Work.setConditions
  split
  · exact Work.reach_mark z v w hc hp
  · exact (Field.Prim.zone z v hc hp).reach

theorem Work.reach_rejudge {env : Env} (z : Nat) (v : ZoneRun) (w : Work) (hc : v.committed = (w.fld.zoneAt z).committed)
    (hp : v.pending = (w.fld.zoneAt z).pending) : Field.Reach env.live w.fld (w.rejudge env z v).fld := by
  unfold Work.rejudge
  simp only
  exact ((Work.reach_setConditions z v w hc hp).trans
    (Work.reach_ite _ _ _ (Work.reach_criticalOnset (env := env) z _))).trans (Work.reach_rebudget z _)

theorem Work.reach_staleAll {env : Env} (w : Work) : Field.Reach env.live w.fld (w.staleAll env).fld := by
  unfold Work.staleAll
  generalize List.range Config.zones = zs
  exact Relation.ReflTransGen.trans
    (Work.reach_foldl (fun (w : Work) z => w.setConditions z ((w.fld.zoneAt z).conditions false false true))
      (fun w z => Work.reach_setConditions z _ w rfl rfl) zs w) (Work.reach_rebudgetAll _ _)

theorem State.steps_staleAll (s : State) : s.Steps (s.change (fun w => w.staleAll s.env)) :=
  State.steps_change s _ (fun w => Work.reach_staleAll (env := s.env) w)

theorem State.steps_rejudge (z : Nat) (v : ZoneRun) (s : State) (hc : v.committed = (s.field.zoneAt z).committed)
    (hp : v.pending = (s.field.zoneAt z).pending) : s.Steps (s.change (fun w => w.rejudge s.env z v)).kick := by
  refine State.Steps.trans (State.steps_field s _ ?_) (State.steps_kick _)
  exact (Work.reach_rejudge (env := s.env) z v (Work.of s.field) hc hp).trans (Work.reach_finish (env := s.env) _)

theorem State.steps_takeReading (z t : Nat) (fault : Bool) (s : State) : s.Steps (s.takeReading z t fault) := by
  unfold State.takeReading
  split
  · split
    · split
      · exact .refl s
      · exact State.steps_rejudge z _ s rfl rfl
    · exact State.steps_rejudge z _ s rfl rfl
  · exact .refl s

theorem State.steps_sensorRx (s : State) (x : Option (List Byte)) : s.Steps { s with sensorRx := x } :=
  ⟨⟨rfl, id, id, id, fun _ h => h⟩, rfl, Relation.ReflTransGen.refl⟩

theorem State.steps_sensorByte (s : State) (b : Byte) : s.Steps (s.sensorByte b) := by
  unfold State.sensorByte
  split
  · split
    · exact State.steps_sensorRx _ _
    · exact .refl s
  · split
    · exact State.steps_sensorRx _ _
    · simp only
      split
      · exact (State.steps_sensorRx _ _).trans (State.steps_takeReading _ _ _ _)
      · exact State.steps_sensorRx _ _

theorem State.steps_foldl {β : Type} (op : State → β → State) (h : ∀ s b, State.Steps s (op s b)) (l : List β) (s : State) :
    s.Steps (l.foldl op s) := by
  induction l generalizing s with
  | nil => exact .refl s
  | cons b l ih => exact (h s b).trans (ih _)

theorem State.steps_watchOn (s : State) (b : Bool) : s.Steps { s with watchOn := b } :=
  ⟨⟨rfl, id, id, id, fun _ h => h⟩, rfl, Relation.ReflTransGen.refl⟩

theorem State.steps_turnWatchOn (s : State) : s.Steps s.turnWatchOn.2 := by
  unfold State.turnWatchOn
  split
  · exact .refl s
  · exact (State.steps_watchOn s true).trans (State.steps_change _ _ (fun w => Work.reach_rebudgetAll _ w))

theorem State.steps_turnWatchOff (s : State) : s.Steps s.turnWatchOff.2 := by
  unfold State.turnWatchOff
  split
  · exact .refl s
  · split
    · exact .refl s
    · exact ((State.steps_watchOn s false).trans (State.steps_staleAll _)).trans (State.steps_kick _)

theorem State.steps_clearTripOrder (s : State) : s.Steps s.clearTripOrder.2 := by
  unfold State.clearTripOrder
  simp only
  split
  · refine State.steps_field s _ ?_
    unfold Field.clearTrip
    simp only
    split
    · exact Relation.ReflTransGen.refl
    · exact Relation.ReflTransGen.trans (Field.Prim.trip _).reach (Field.Prim.report _).reach
  · exact .refl s

theorem State.steps_lockLimitsOrder (s : State) : s.Steps s.lockLimitsOrder.2 :=
  ⟨⟨rfl, fun _ => rfl, id, id, fun _ h => h⟩, rfl, Relation.ReflTransGen.refl⟩

/-! ### The Program Engine -/

section
variable {live : Tables} {env : Env}

/-- A field that differs in its slots and its arbiter alone. -/
theorem Field.reach_program {f g : Field} (hg : g = { f with slot := g.slot, arbiter := g.arbiter })
    (hw : Table.wf Config.slots Slot.blank f.slot → Table.wf Config.slots Slot.blank g.slot) : Field.Reach live f g := by
  rw [hg]
  exact (Field.Prim.slots g.slot g.arbiter hw).reach

theorem Field.reach_activate (k : Nat) (f : Field) : Field.Reach live f (f.activate k) :=
  (Field.reach_setSlot f k _).trans (Field.reach_arbiter _ _)

theorem Field.reach_chooseProgram (f : Field) : Field.Reach live f f.chooseProgram := by
  unfold Field.chooseProgram
  split
  · split <;> exact Field.reach_activate _ f
  · exact Field.reach_activate _ f
  · exact Field.reach_activate _ f
  · exact Relation.ReflTransGen.refl

theorem Work.reach_endRun (k : Nat) (c : EndCause) (w : Work) : Field.Reach live w.fld (w.endRun k c).fld := by
  unfold Work.endRun
  simp only
  split
  · exact (Work.reach_endSlot k c w).trans (Field.reach_chooseProgram _)
  · exact Work.reach_endSlot k c w

theorem Field.reach_preempt (a k : Nat) (f : Field) : Field.Reach live f (f.preempt a k) :=
  ((Field.reach_setSlot f a _).trans (Field.reach_arbiter _ _)).trans (Field.reach_activate k _)

theorem Field.reach_heldPreemption (a : Nat) (f : Field) : Field.Reach live f (f.heldPreemption a) := by
  unfold Field.heldPreemption
  split
  · exact Field.reach_preempt _ _ f
  · exact Relation.ReflTransGen.refl

theorem Work.reach_completeStep (k : Nat) (a : After) (w : Work) : Field.Reach live w.fld (w.completeStep k a).fld := by
  unfold Work.completeStep
  simp only
  split
  · refine Relation.ReflTransGen.trans ?_ (Work.reach_endRun k _ _)
    exact Field.reach_setSlot w.fld k _
  · split
    · refine Relation.ReflTransGen.trans ?_ (Work.reach_endRun k _ _)
      exact Field.reach_setSlot w.fld k _
    · split
      · refine Relation.ReflTransGen.trans ?_ (Work.reach_endRun k _ _)
        exact Field.reach_setSlot w.fld k _
      · simp only
        split
        · exact ((Field.reach_setSlot w.fld k _).trans (Field.reach_setSlot _ k _)).trans (Field.reach_heldPreemption k _)
        · exact (Field.reach_setSlot w.fld k _).trans (Field.reach_setSlot _ k _)

theorem Work.reach_waitFor (k : Nat) (on : WaitOn) (w : Work) : Field.Reach live w.fld (w.waitFor k on).fld :=
  Field.reach_setSlot w.fld k _

theorem Work.reach_settleWith (k h a : Nat) (w : Work) : Field.Reach live w.fld (w.settleWith k h a).fld :=
  Field.reach_setSlot w.fld k _

theorem Work.reach_refuseMember (k h : Nat) (reason : Reason) (busy short : Bool) (w : Work) :
    Field.Reach live w.fld (w.refuseMember k h reason busy short).fld := Field.reach_setSlot w.fld k _

theorem Work.reach_takeMember (k h a : Nat) (w w1 : Work) (b : Bool) (ht : w.takeMember env k h a = .taken w1 b) :
    Field.Reach env.live w.fld w1.fld := by
  unfold Work.takeMember at ht
  split at ht
  · cases ht; exact Work.reach_settleWith k h a w
  · split at ht
    · cases ht; exact Work.reach_settleWith k h a w
    · next hg =>
      cases ht
      unfold Field.admitMember at hg
      split at hg
      · obtain ⟨h1, -, h2, -, h3⟩ := Field.admitMotion_granted hg
        exact (Work.reach_grant (env := env) _ _ _ _ w h1 h2 h3).trans (Work.reach_settleWith k h a _)
      · cases hg
    · cases ht; exact Work.reach_refuseMember k h _ _ _ w
    · cases ht; exact Work.reach_refuseMember k h _ _ _ w
    · cases ht
    · cases ht; exact Work.reach_refuseMember k h _ _ _ w

theorem Work.reach_takeMembers (k first spread : Nat) (l : List Nat) (j : Nat) (short : Bool) (w : Work) :
    Field.Reach env.live w.fld (w.takeMembers env k first spread j l short).1.fld := by
  induction l generalizing j short w with
  | nil => exact Relation.ReflTransGen.refl
  | cons h l ih =>
    unfold Work.takeMembers
    split
    · exact Relation.ReflTransGen.refl
    · next w1 b ht => exact (Work.reach_takeMember k h _ w w1 b ht).trans (ih _ _ w1)

theorem Field.reach_clearFreed (f : Field) : Field.Reach live f f.clearFreed :=
  Field.Reach.foldl _ (fun f g => (Field.Prim.sxe g { f.sxeAt g with spaceFreed := false } (Or.inl (le_refl _))).reach) _ _

theorem Work.reach_aimGroupFrom (k first spread : Nat) (flags : AimFlags) (j : Nat) (members : List Nat) (short : Bool) (w : Work) :
    Field.Reach env.live w.fld (w.aimGroupFrom env k first spread flags j members short).fld := by
  have h := Work.reach_takeMembers (env := env) k first spread members j short w
  unfold Work.aimGroupFrom
  split
  · next w1 j1 rest short1 he =>
    rw [he] at h
    refine Relation.ReflTransGen.trans ?_ (Work.reach_waitFor k _ _)
    exact h.trans (Field.reach_clearFreed w1.fld)
  · next w1 short1 he =>
    rw [he] at h
    split
    · exact h.trans (Work.reach_completeStep k _ w1)
    · split
      · exact h.trans (Work.reach_waitFor k _ w1)
      · exact h.trans (Work.reach_completeStep k _ w1)

theorem Work.reach_freshStep (k : Nat) (b : Bool) (w : Work) : Field.Reach live w.fld (w.freshStep k b).fld :=
  Field.reach_setSlot w.fld k _

theorem Work.reach_beginAimGroup (k group first spread : Nat) (expected : Option Nat) (flags : AimFlags) (w : Work) :
    Field.Reach env.live w.fld (w.beginAimGroup env k group first spread expected flags).fld := by
  unfold Work.beginAimGroup
  simp only
  split
  · exact (Work.reach_freshStep k _ w).trans (Work.reach_completeStep k _ _)
  · exact (Work.reach_freshStep k _ w).trans (Work.reach_aimGroupFrom (env := env) k first spread flags 0 _ false _)

theorem Work.reach_moveGroup (k group : Nat) (settle : Bool) (m : Motion) (w : Work) :
    Field.Reach env.live w.fld (w.moveGroup env k group settle m).fld := by
  have h := (Work.reach_oweMembers (env := env) m .program (env.live.members group) w).trans
    (Work.reach_settleNow (env := env) _)
  unfold Work.moveGroup
  simp only
  split
  · exact h.trans (Work.reach_waitFor k _ _)
  · exact h.trans (Work.reach_completeStep k _ _)

end

theorem State.steps_haltProgramOrder (slot : Byte) (s : State) : s.Steps (s.haltProgramOrder slot).2 := by
  unfold State.haltProgramOrder
  simp only
  split
  · exact .refl s
  · refine (State.steps_change s _ (fun w => ?_)).trans (State.steps_kick _)
    have h := (Work.reach_withdrawAll (env := s.env) .revoked (fun e => e.origin == .program slot.toNat) w).trans
      (Work.reach_settleNow (env := s.env) _)
    split
    · exact h.trans (Work.reach_endRun _ _ _)
    · exact h

theorem State.steps_loadProgramOrder (slot count : Byte) (records : List Byte) (s : State) :
    s.Steps (s.loadProgramOrder slot count records).2 := by
  unfold State.loadProgramOrder
  simp only
  split
  · exact .refl s
  · split
    · exact .refl s
    · exact .refl s
    · exact .refl s
    · exact .refl s
    · exact .refl s
    all_goals
      split
      · exact .refl s
      · split
        · exact .refl s
        · split
          · exact .refl s
          · exact State.steps_field s _ (Field.reach_setSlot _ _ _)

theorem Field.reach_start {live : Tables} (k level : Nat) (tag : Byte) (f : Field) : Field.Reach live f (f.start k level tag).1 := by
  unfold Field.start
  simp only
  split
  · exact (Field.reach_setSlot f k _).trans (Field.reach_activate k _)
  · split
    · split
      · exact (Field.reach_setSlot f k _).trans (Field.reach_arbiter _ _)
      · exact (Field.reach_setSlot f k _).trans (Field.reach_preempt _ k _)
    · exact (Field.reach_setSlot f k _).trans (Field.reach_arbiter _ _)

theorem State.steps_startProgramOrder (tag slot level : Byte) (s : State) : s.Steps (s.startProgramOrder tag slot level).2 := by
  unfold State.startProgramOrder
  simp only
  split
  · exact .refl s
  · split
    · exact .refl s
    · split
      all_goals first
        | exact .refl s
        | exact State.steps_field s _ (Field.reach_start _ _ _ _)

theorem State.steps_readProgramStatusOrder (slot : Byte) (s : State) : s.Steps (s.readProgramStatusOrder slot).2 := by
  unfold State.readProgramStatusOrder
  simp only
  split
  · exact .refl s
  · simp only
    split
    · exact State.steps_field s _ (Field.reach_setSlot _ _ _)
    · exact .refl s

/-! ### The Operating State Controller -/

theorem State.steps_enterState (t : OpState) (s : State) : s.Steps (s.enterState t) := by
  unfold State.enterState
  split
  · split
    · exact (State.steps_osc s _).trans (State.steps_stateEvent _)
    · exact State.steps_enterHold _ s
  · split
    · exact (State.steps_osc s _).trans (State.steps_stateEvent _)
    · exact (State.steps_osc s _).trans (State.steps_stateEvent _)
  · exact ((State.steps_osc s _).trans (State.steps_staleAll _)).trans (State.steps_stateEvent _)
  · exact .refl s
  · exact .refl s

theorem State.steps_setStateOrder (target : Byte) (s : State) : s.Steps (s.setStateOrder target).2 := by
  unfold State.setStateOrder
  split
  · exact .refl s
  · split
    · exact .refl s
    · split
      · exact .refl s
      · split
        · exact .refl s
        · split
          · exact .refl s
          · split
            · exact .refl s
            · exact (State.steps_enterState _ s).trans (State.steps_kick _)

theorem State.steps_takeAssert (s : State) : s.Steps s.takeAssert := (State.steps_safeOnset true s).trans (State.steps_kick _)

theorem State.steps_fieldDefocusOrder (s : State) : s.Steps s.fieldDefocusOrder.2 := by
  unfold State.fieldDefocusOrder
  exact (State.steps_safeOnset false s).trans (State.steps_kick _)

theorem State.steps_completeWake (k : Wake) (s : State) : s.Steps (s.completeWake k) := by
  unfold State.completeWake
  split
  · exact State.steps_enterHold _ _
  · exact (State.steps_osc _ _).trans (State.steps_stateEvent _)

theorem State.steps_fsafe (s : State) (b : Bool) : s.Steps { s with fsafeAsserted := b } :=
  ⟨⟨rfl, id, id, id, fun _ h => h⟩, rfl, Relation.ReflTransGen.refl⟩

/-- A change of the uplink that keeps the deferred slots canonical and the receive buffer within its bound. -/
theorem State.steps_ulp (s : State) (u : Ulp) (hb : s.ulp.rxBuf.length ≤ Config.rxFrames → u.rxBuf.length ≤ Config.rxFrames)
    (hd : Table.wf Config.segments Deferred.empty s.ulp.deferred → Table.wf Config.segments Deferred.empty u.deferred) :
    s.Steps { s with ulp := u } := ⟨⟨rfl, id, hb, hd, fun _ h => h⟩, rfl, Relation.ReflTransGen.refl⟩

theorem Work.reach_giveUp {env : Env} (h : Nat) (w : Work) : Field.Reach env.live w.fld (w.giveUp env h).fld := by
  unfold Work.giveUp
  simp only
  split
  · next hs =>
    refine Work.reach_put h _ w ?_ ?_
    · intro hq
      refine HelioRun.Sound.by _ ?_
      have hg : (w.fld.run h).grantState = false := by simp only [HelioRun.grantState, hs]; rfl
      obtain ⟨hg1, hg2⟩ := hq.no_aims hg
      obtain ⟨h1, h2, h3, h4, h5, h6, h7, h8⟩ := hq
      simp_all [HelioRun.Sound, HelioRun.grantState, HelioRun.clearOwed]
    · rw [HelioRun.by_reportOwed]; exact id
  · exact Relation.ReflTransGen.refl

/-! ### The Table Store -/

theorem State.steps_tableReadOrder (table : Byte) (first : Half) (count : Byte) (s : State) :
    s.Steps (s.tableReadOrder table first count).2 := by
  unfold State.tableReadOrder
  split
  · exact .refl s
  · split <;> exact .refl s

theorem State.steps_marks (s : State) (m : ProtMarks) (c : Option PageRef) : s.Steps { s with marks := m, commit := c } :=
  ⟨⟨rfl, id, id, id, fun _ h => h⟩, rfl, Relation.ReflTransGen.refl⟩

theorem State.steps_protectOrder (block : Byte) (s : State) : s.Steps (s.protectOrder block).2 := by
  unfold State.protectOrder
  split
  · exact .refl s
  · split
    · exact .refl s
    · split
      · exact .refl s
      · exact State.steps_marks s _ _

theorem State.steps_unprotectAllOrder (s : State) : s.Steps s.unprotectAllOrder.2 := by
  unfold State.unprotectAllOrder
  split
  · exact .refl s
  · split
    · exact .refl s
    · exact State.steps_marks s _ _

/-! ### The ends of exchanges -/

theorem State.steps_surveyStep (h : Nat) (before : HelioRun) (found : Option Finding) (s : State) :
    s.Steps (s.surveyStep h before found) := by
  unfold State.surveyStep
  simp only
  split
  · split
    · exact State.steps_osc s _
    · exact (State.steps_osc s _).trans (State.steps_enterHold _ _)
  · exact .refl s

theorem Field.reach_ended {live : Tables} (g now : Nat) (f : Field) : Field.Reach live f (f.setSxe g ((f.sxeAt g).ended now)) :=
  (Field.Prim.sxe g ((f.sxeAt g).ended now) (Or.inl (le_refl _))).reach

theorem State.steps_endExchange (g : Nat) (x : Exchange) (found : Option Finding) (edit : Env → Field → Edit → Edit) (s : State)
    (hs : ∀ env f e, e.r.Sound → (edit env f e).r.Sound) (hk : ∀ env f e, (edit env f e).r.kept = e.r.kept) :
    s.Steps (s.endExchange g x found edit) := by
  unfold State.endExchange
  simp only
  refine State.Steps.trans (State.Steps.trans (State.Steps.trans (State.steps_field s _ ?_) (State.steps_surveyStep _ _ _ _))
    (State.steps_field _ _ (Field.reach_choose true _ g))) (State.steps_kick _)
  refine Relation.ReflTransGen.trans (Field.reach_ended g s.now s.field) ?_
  generalize s.field.setSxe g ((s.field.sxeAt g).ended s.now) = f0
  refine Work.reach_conclude (env := s.env) x.helio _ _ (Work.of f0) ?_ ?_
  · exact fun hr => hs _ _ _ (hr.other rfl rfl rfl rfl rfl rfl rfl rfl rfl rfl)
  · rw [show ∀ r : HelioRun, r.reportOwed = r.kept.1 from fun _ => rfl, hk]
    exact id

theorem State.steps_endPass (g : Nat) (x : Exchange) (reply : Option SegFrame) (s : State) : s.Steps (s.endPass g x reply) := by
  unfold State.endPass
  simp only
  refine State.Steps.trans (t := { s with
      field := ((s.field.setSxe g { (s.field.sxeAt g).ended s.now with passSlot := none }).setRun x.helio
        { (s.field.setSxe g { (s.field.sxeAt g).ended s.now with passSlot := none }).run x.helio with inFlight := false }).choose
          s.env true g
      ulp := match (s.field.sxeAt g).passSlot with
        | some p => { s.ulp.setDeferred g (.ready (passAnswer p reply)) with readyOrder := s.ulp.readyOrder ++ [g] }
        | none => s.ulp }) ⟨⟨rfl, id, ?_, ?_, fun _ h => h⟩, rfl, ?_⟩ (State.steps_kick _)
  · cases (s.field.sxeAt g).passSlot <;> exact id
  · cases (s.field.sxeAt g).passSlot
    · exact id
    · exact fun hw => Table.wf_set _ _ hw
  · refine Relation.ReflTransGen.trans (Relation.ReflTransGen.trans
      (Field.Prim.sxe g { (s.field.sxeAt g).ended s.now with passSlot := none } (Or.inl (le_refl _))).reach
      (Field.Prim.minor x.helio { (s.field.setSxe g { (s.field.sxeAt g).ended s.now with passSlot := none }).run x.helio with
        inFlight := false } ?_).reach) (Field.reach_choose true _ g)
    constructor <;> first | rfl | exact id

theorem State.steps_noGoodAnswer (g : Nat) (x : Exchange) (s : State) : s.Steps (s.noGoodAnswer g x) := by
  unfold State.noGoodAnswer
  split
  · exact State.steps_endExchange g x _ _ s (fun _ _ _ h => Edit.sound_silent h) (fun _ _ _ => Edit.kept_silent _ _)
  · exact State.steps_field s _ (Field.Prim.sxe g
      { s.field.sxeAt g with exchange := some { x with repeated := true, phase := .sending } } (Or.inl (le_refl _))).reach

theorem State.steps_takeAnswer (g : Nat) (x : Exchange) (fr : SegFrame) (s : State) : s.Steps (s.takeAnswer g x fr) := by
  unfold State.takeAnswer
  split
  · split
    · exact State.steps_endPass g x _ s
    · exact .refl s
  · split
    · exact State.steps_endExchange g x _ _ s (fun _ _ _ h => Edit.sound_answer h) (fun _ _ _ => Edit.kept_answer _ _ _ _ _ _)
    · exact State.steps_noGoodAnswer g x s

/-! ### The uplink -/

/-- The receiver keeps the receive buffer within its four frames (R170) and touches no deferred slot. -/
theorem Ulp.receive_keeps (u : Ulp) (b : Byte) :
    (u.rxBuf.length ≤ Config.rxFrames → (u.receive b).rxBuf.length ≤ Config.rxFrames) ∧ (u.receive b).deferred = u.deferred := by
  unfold Ulp.receive
  split
  · split <;> exact ⟨id, rfl⟩
  · split <;> exact ⟨id, rfl⟩
  · simp only
    split
    · exact ⟨id, rfl⟩
    · unfold Ulp.judgeFrame
      simp only
      split
      · exact ⟨id, rfl⟩
      · split
        · exact ⟨id, rfl⟩
        · split
          · exact ⟨id, rfl⟩
          · next hl =>
            refine ⟨fun _ => ?_, rfl⟩
            simp only [List.length_append, List.length_cons, List.length_nil]
            omega

theorem State.steps_receive (bytes : List Byte) (s : State) : s.Steps { s with ulp := bytes.foldl Ulp.receive s.ulp } := by
  have h : ∀ (l : List Byte) (u : Ulp),
      (u.rxBuf.length ≤ Config.rxFrames → (l.foldl Ulp.receive u).rxBuf.length ≤ Config.rxFrames)
        ∧ (l.foldl Ulp.receive u).deferred = u.deferred := by
    intro l
    induction l with
    | nil => exact fun u => ⟨id, rfl⟩
    | cons b l ih =>
      intro u
      have h1 := Ulp.receive_keeps u b
      have h2 := ih (u.receive b)
      exact ⟨fun h => h2.1 (h1.1 h), h2.2.trans h1.2⟩
  exact State.steps_ulp s _ (h bytes s.ulp).1 (by rw [(h bytes s.ulp).2]; exact id)

theorem State.steps_sendDeferred (s : State) : s.Steps { s with ulp := s.ulp.sendDeferred } := by
  refine State.steps_ulp s _ ?_ ?_
  · unfold Ulp.sendDeferred
    split
    · exact id
    · split <;> exact id
  · unfold Ulp.sendDeferred
    split
    · exact id
    · split
      · exact fun hw => Table.wf_set _ _ hw
      · exact id
      · exact id

theorem Field.reach_takeReport {live : Tables} (src : Source) (rest : List Source) (f : Field) (h : f.reports.queue = src :: rest) :
    Field.Reach live f (f.takeReport src rest) := by
  have hf : ∀ f : Field, Field.Reach live f f.fillOwed := by
    intro f
    unfold Field.fillOwed
    split
    · exact Relation.ReflTransGen.trans (Field.Prim.unowe _).reach (Field.Prim.report _).reach
    · exact Relation.ReflTransGen.refl
  unfold Field.takeReport
  simp only
  refine Relation.ReflTransGen.trans ?_ (hf _)
  cases src with
  | zone z =>
    exact Relation.ReflTransGen.trans (Field.Prim.sent _ rest h).reach
      (Field.Prim.zone z { ({ f with reports := { f.reports with queue := rest } } : Field).zoneAt z with marks := ZoneMarks.none }
        rfl rfl).reach
  | _ => exact (Field.Prim.sent _ rest h).reach

end Sys2Proof.Machine
end

