-- ==== Sys2Proof/Laws/Commands.lean ====
section
/-! SUPPORT. Every command answers a next state, and what that state keeps: `exec_steps` for every command that makes no reset
and writes no table, and the same facts outside the field for the others. -/

namespace Sys2Proof.Machine

/-! ### Tables -/

theorem Tables.canonical_withRecord {t : Tables} (h : t.Canonical) (i : Nat) (r : Record) : (t.withRecord i r).Canonical := by
  obtain ⟨h1, h2, h3, h4, h5⟩ := h
  cases r
  · exact ⟨Table.wf_set _ _ h1, h2, h3, h4, h5⟩
  · exact ⟨h1, Table.wf_set _ _ h2, h3, h4, h5⟩
  · exact ⟨h1, h2, Table.wf_set _ _ h3, h4, h5⟩
  · exact ⟨h1, h2, h3, Table.wf_set _ _ h4, h5⟩
  · exact ⟨h1, h2, h3, h4, h5⟩
  · exact ⟨h1, h2, h3, h4, Table.wf_set _ _ h5⟩
  · exact ⟨h1, h2, h3, h4, h5⟩

theorem Tables.canonical_foldl {β : Type} (op : Tables → β → Tables) (h : ∀ t b, Tables.Canonical t → (op t b).Canonical)
    (l : List β) {t : Tables} (ht : t.Canonical) : (l.foldl op t).Canonical := by
  induction l generalizing t with
  | nil => exact ht
  | cons b l ih => exact ih (h t b ht)

theorem Tables.canonical_copyPage (id : TableId) (first : Nat) (src : Tables) {t : Tables} (h : t.Canonical) :
    (t.copyPage id first src).Canonical :=
  Tables.canonical_foldl _ (fun _ _ h => Tables.canonical_withRecord h _ _) _ h

theorem Tables.canonical_blank : Tables.blank.Canonical :=
  ⟨Table.wf_nil _ _, Table.wf_nil _ _, Table.wf_nil _ _, Table.wf_nil _ _, Table.wf_nil _ _⟩

/-! ### The commands that make no reset and write no table -/

/-- The commands that make or may make a reset, or replace live tables. -/
def Instr.resetsOrWrites : Instr → Bool
  | .powerOnReset | .pinReset | .tableLoadingDone _ | .tableWrite _ _ _ _ _ | .frameSent => true
  | _ => false

theorem execPass_steps (tag : Byte) (helio : Half) (body : List Byte) (s : State) :
    ∃ t, execPass tag helio body s = .next t ∧ s.Steps t := by
  refine ⟨_, rfl, ?_⟩
  split
  · simp only
    split
    · exact (State.steps_popFrame s).trans (State.steps_answer _ _ _ _)
    · exact ((State.steps_popFrame s).trans (State.steps_holdPass _ _ _ _)).trans (State.steps_kick _)
  · exact .refl s

theorem execReset_steps (tag : Byte) (s : State) : ∃ t, execReset tag s = .next t ∧ s.Steps t := by
  refine ⟨_, rfl, ?_⟩
  split
  · simp only
    split
    · exact (State.steps_popFrame s).trans (State.steps_answer _ _ _ _)
    · exact (State.steps_popFrame s).trans (State.steps_ulp _ _ id id)
  · exact .refl s

theorem execCommitDone_steps (s : State) : ∃ t, execCommitDone s = .next t ∧ s.Steps t := by
  refine ⟨_, rfl, ?_⟩
  split
  · next p _ =>
    split
    · refine ⟨⟨rfl, id, id, id, fun hl hs => ?_⟩, rfl, Relation.ReflTransGen.refl⟩
      cases p
      · exact Tables.canonical_copyPage _ _ _ hs
      · exact hs
    · exact .refl s
  · exact .refl s

theorem execDriveAnswer_steps (g : Fin 4) (frame : List Byte) (s : State) :
    ∃ t, execDriveAnswer g frame s = .next t ∧ s.Steps t := by
  refine ⟨_, rfl, ?_⟩
  split
  · split
    · split
      · exact State.steps_takeAnswer _ _ _ _
      · exact .refl s
    · exact .refl s
    · exact .refl s
  · exact .refl s

theorem execDriveResponseTimeout_steps (g : Fin 4) (s : State) : ∃ t, execDriveResponseTimeout g s = .next t ∧ s.Steps t := by
  refine ⟨_, rfl, ?_⟩
  split
  · split
    · split
      · simp only
        split
        · exact (State.steps_advanceTo s _).trans (State.steps_endPass _ _ _ _)
        · exact (State.steps_advanceTo s _).trans (State.steps_noGoodAnswer _ _ _)
      · exact .refl s
    · exact .refl s
  · exact .refl s

theorem execSlewTimeout_steps (h : Nat) (s : State) : ∃ t, execSlewTimeout h s = .next t ∧ s.Steps t := by
  refine ⟨_, rfl, ?_⟩
  simp only
  split
  · split
    · next hc =>
      refine State.Steps.trans (State.steps_advanceTo s _) (State.Steps.trans (State.steps_field _ _ ?_) (State.steps_kick _))
      refine Relation.ReflTransGen.trans (Work.reach_put (env := (s.advanceTo _).env) h _ (Work.of s.field) ?_ ?_)
        (Work.reach_finish (env := (s.advanceTo _).env) _)
      · intro hs
        simp only [Bool.and_eq_true, beq_iff_eq] at hc
        have hq : (s.field.run h).queued = false := by
          by_contra hq
          have := (hs.2.2.2.2.2.2.2 (by simpa using hq)).2.1
          rw [show (Work.of s.field).fld.run h = s.field.run h from rfl, hc.2] at this
          exact absurd this (by decide)
        refine HelioRun.Sound.by _ (HelioRun.Sound.nothingRemains (HelioRun.Sound.setOwed _ _ ?_ hq))
        exact HelioRun.Sound.other hs rfl rfl rfl rfl rfl rfl rfl rfl rfl rfl
      · rw [HelioRun.by_reportOwed, HelioRun.nothingRemains_reportOwed, HelioRun.setOwed_reportOwed]
        exact id
    · exact .refl s
  · exact .refl s

theorem execSurveyLimit_steps (s : State) : ∃ t, execSurveyLimit s = .next t ∧ s.Steps t := by
  refine ⟨_, rfl, ?_⟩
  split
  · split
    · simp only
      refine State.Steps.trans ?_ (State.Steps.trans (State.steps_enterHold _ _) (State.steps_kick _))
      refine State.Steps.trans ?_ (State.steps_osc _ _)
      refine State.Steps.trans (State.steps_advanceTo s _) (State.steps_change _ _ (fun w => ?_))
      exact Work.reach_foldl (fun (w : Work) h => w.giveUp (s.advanceTo _).env h)
        (fun w h => Work.reach_giveUp (env := (s.advanceTo _).env) h w) _ _
    · exact .refl s
  · exact .refl s

theorem execStaleExpiry_steps (z : Nat) (s : State) : ∃ t, execStaleExpiry z s = .next t ∧ s.Steps t := by
  refine ⟨_, rfl, ?_⟩
  split
  · next n _ =>
    split
    · exact State.Steps.trans (State.steps_advanceTo s n) (State.steps_rejudge z _ (s.advanceTo n) rfl rfl)
    · exact .refl s
  · exact .refl s

theorem execWakeDone_steps (s : State) : ∃ t, execWakeDone s = .next t ∧ s.Steps t := by
  refine ⟨_, rfl, ?_⟩
  split
  · split
    · exact State.Steps.trans (State.steps_advanceTo s _) (State.steps_completeWake _ _)
    · exact .refl s
  · exact .refl s

theorem execWakeSettleTick_steps (s : State) : ∃ t, execWakeSettleTick s = .next t ∧ s.Steps t := by
  refine ⟨_, rfl, ?_⟩
  split
  · split
    · exact (State.steps_advanceTo s _).trans (State.steps_osc _ _)
    · exact .refl s
  · exact .refl s

/-- A program step that is one change of the field, followed by the SXEs' choices. -/
theorem State.steps_changeKick (s : State) (g : Work → Work) (hg : ∀ w, Field.Reach s.live w.fld (g w).fld) :
    s.Steps (s.change g).kick := (State.steps_change s g hg).trans (State.steps_kick _)

theorem execAimGroup_steps (s : State) : ∃ t, execAimGroup s = .next t ∧ s.Steps t := by
  refine ⟨_, rfl, ?_⟩
  split
  · exact State.steps_changeKick s _ (fun w => Work.reach_beginAimGroup (env := s.env) _ _ _ _ _ _ w)
  · exact .refl s

theorem execQueueSpaceResume_steps (s : State) : ∃ t, execQueueSpaceResume s = .next t ∧ s.Steps t := by
  refine ⟨_, rfl, ?_⟩
  split
  · split
    · refine State.steps_changeKick s _ (fun w => ?_)
      refine Relation.ReflTransGen.trans ?_ (Work.reach_aimGroupFrom (env := s.env) _ _ _ _ _ _ _ _)
      exact Field.reach_setSlot w.fld _ _
    · exact .refl s
  · exact .refl s

theorem execSettleWaitEnd_steps (s : State) : ∃ t, execSettleWaitEnd s = .next t ∧ s.Steps t := by
  refine ⟨_, rfl, ?_⟩
  split
  · split
    · exact .refl s
    · refine State.steps_change s _ (fun w => ?_)
      refine Relation.ReflTransGen.trans ?_ (Work.reach_completeStep _ _ _)
      exact Field.reach_setSlot w.fld _ _
  · exact .refl s

theorem execDefocusGroup_steps (s : State) : ∃ t, execDefocusGroup s = .next t ∧ s.Steps t := by
  refine ⟨_, rfl, ?_⟩
  split
  · exact State.steps_changeKick s _ (fun w => Work.reach_moveGroup (env := s.env) _ _ _ _ w)
  · exact .refl s

theorem execStowGroup_steps (s : State) : ∃ t, execStowGroup s = .next t ∧ s.Steps t := by
  refine ⟨_, rfl, ?_⟩
  split
  · exact State.steps_changeKick s _ (fun w => Work.reach_moveGroup (env := s.env) _ _ _ _ w)
  · exact .refl s

theorem execGroupSettleWaitEnd_steps (s : State) : ∃ t, execGroupSettleWaitEnd s = .next t ∧ s.Steps t := by
  refine ⟨_, rfl, ?_⟩
  split
  · split
    · exact .refl s
    · exact State.steps_change s _ (fun w => Work.reach_completeStep _ _ w)
  · exact .refl s

theorem execCeiling_steps (s : State) : ∃ t, execCeiling s = .next t ∧ s.Steps t := by
  refine ⟨_, rfl, ?_⟩
  split
  · refine State.steps_changeKick s _ (fun w => ?_)
    exact Relation.ReflTransGen.trans (Relation.ReflTransGen.trans (Work.reach_setCeilings _ _ _ w)
      (Work.reach_settleNow (env := s.env) _)) (Work.reach_completeStep _ _ _)
  · exact .refl s

theorem execWait_steps (s : State) : ∃ t, execWait s = .next t ∧ s.Steps t := by
  refine ⟨_, rfl, ?_⟩
  split
  · exact State.steps_change s _ (fun w => Work.reach_waitFor _ _ w)
  · exact .refl s

theorem execWaitTimerExpiry_steps (s : State) : ∃ t, execWaitTimerExpiry s = .next t ∧ s.Steps t := by
  refine ⟨_, rfl, ?_⟩
  split
  · exact (State.steps_advanceTo s _).trans (State.steps_change _ _ (fun w => Work.reach_completeStep _ _ w))
  · exact .refl s

theorem execTest_steps (s : State) : ∃ t, execTest s = .next t ∧ s.Steps t := by
  refine ⟨_, rfl, ?_⟩
  split
  · exact State.steps_change s _ (fun w => Work.reach_completeStep _ _ w)
  · exact .refl s

theorem execJump_steps (s : State) : ∃ t, execJump s = .next t ∧ s.Steps t := by
  refine ⟨_, rfl, ?_⟩
  split
  · exact State.steps_change s _ (fun w => Work.reach_completeStep _ _ w)
  · exact .refl s

theorem execEndStep_steps (s : State) : ∃ t, execEndStep s = .next t ∧ s.Steps t := by
  refine ⟨_, rfl, ?_⟩
  split
  · exact State.steps_change s _ (fun w => Work.reach_completeStep _ _ w)
  · exact .refl s

theorem execNightSpacingExpiry_steps (g : Fin 4) (s : State) : ∃ t, execNightSpacingExpiry g s = .next t ∧ s.Steps t := by
  refine ⟨_, rfl, ?_⟩
  simp only
  split
  · split
    · exact (State.steps_advanceTo s _).trans (State.steps_field _ _ (Field.reach_choose true _ _))
    · exact .refl s
  · exact .refl s

theorem execNightPollDue_steps (g : Fin 4) (s : State) : ∃ t, execNightPollDue g s = .next t ∧ s.Steps t := by
  refine ⟨_, rfl, ?_⟩
  simp only
  split
  · split
    · exact (State.steps_advanceTo s _).trans (State.steps_field _ _ (Field.reach_choose true _ _))
    · exact .refl s
  · exact .refl s

theorem execSegmentRequestSent_steps (g : Fin 4) (s : State) : ∃ t, execSegmentRequestSent g s = .next t ∧ s.Steps t := by
  refine ⟨_, rfl, ?_⟩
  split
  · split
    · split
      · next x _ _ =>
        exact State.steps_field s _ (Field.Prim.sxe g
          { s.field.sxeAt g with exchange := some { x with phase := .awaiting s.now } } (Or.inl (le_refl _))).reach
      · exact .refl s
    · exact .refl s
  · exact .refl s

theorem execSendAnswerFrame_steps (s : State) : ∃ t, execSendAnswerFrame s = .next t ∧ s.Steps t := by
  refine ⟨_, rfl, ?_⟩
  split
  · split
    · exact State.steps_ulp s _ id id
    · split
      · exact .refl s
      · exact State.steps_sendDeferred s
  · exact .refl s

theorem execSendReportFrame_steps (s : State) : ∃ t, execSendReportFrame s = .next t ∧ s.Steps t := by
  refine ⟨_, rfl, ?_⟩
  split
  · split
    · next hq => exact ⟨⟨rfl, id, id, id, fun _ h => h⟩, rfl, Field.reach_takeReport _ _ _ hq⟩
    · exact .refl s
  · exact .refl s

theorem execTakeNonOrderFrame_steps (s : State) : ∃ t, execTakeNonOrderFrame s = .next t ∧ s.Steps t := by
  refine ⟨_, rfl, ?_⟩
  split
  · split
    · exact (State.steps_popFrame s).trans (State.steps_answer _ _ _ _)
    · exact .refl s
  · exact .refl s

theorem execFsafeAssert_steps (s : State) : ∃ t, execFsafeAssert s = .next t ∧ s.Steps t := by
  refine ⟨_, rfl, ?_⟩
  simp only
  split
  · exact (State.steps_fsafe s true).trans (State.steps_takeAssert _)
  · exact State.steps_fsafe s true

theorem execFsafeRelease_steps (s : State) : ∃ t, execFsafeRelease s = .next t ∧ s.Steps t := by
  refine ⟨_, rfl, ?_⟩
  simp only
  split
  · exact ((State.steps_fsafe s false).trans (State.steps_osc _ _)).trans (State.steps_stateEvent _)
  · exact State.steps_fsafe s false

theorem execResetRelease_steps (s : State) : ∃ t, execResetRelease s = .next t ∧ s.Steps t := by
  refine ⟨_, rfl, ?_⟩
  split
  · exact ⟨⟨rfl, id, id, id, fun _ h => h⟩, rfl, Relation.ReflTransGen.refl⟩
  · exact .refl s
  · exact .refl s

/-- Every command that makes no reset and writes no table answers a next state that follows from the state by a chain of
primitive changes of the field, the live tables standing. -/
theorem exec_steps (c : Instr) (hc : Instr.resetsOrWrites c = false) (s : State) : ∃ t, exec c s = .next t ∧ s.Steps t := by
  cases c with
  | powerOnReset => exact absurd hc (by decide)
  | pinReset => exact absurd hc (by decide)
  | tableLoadingDone d => exact absurd hc (by simp [Instr.resetsOrWrites])
  | tableWrite a b c d e => exact absurd hc (by simp [Instr.resetsOrWrites])
  | frameSent => exact absurd hc (by decide)
  | resetRelease => exact execResetRelease_steps s
  | fsafeAssert => exact execFsafeAssert_steps s
  | fsafeRelease => exact execFsafeRelease_steps s
  | uplinkFrame bytes =>
    refine ⟨_, rfl, ?_⟩
    split
    · exact State.steps_receive bytes s
    · exact .refl s
  | takeNonOrderFrame => exact execTakeNonOrderFrame_steps s
  | aim tag h p => exact ⟨_, rfl, State.steps_order s _ _ _ _ (State.steps_aimOrder tag h p)⟩
  | setCeiling tag a b v => exact ⟨_, rfl, State.steps_order s _ _ _ _ (State.steps_setCeilingOrder a b v)⟩
  | readZone tag z => exact ⟨_, rfl, State.steps_order s _ _ _ _ (State.steps_readZoneOrder z)⟩
  | defocus tag sc i => exact ⟨_, rfl, State.steps_order s _ _ _ _ (State.steps_motionOrder _ sc i)⟩
  | stow tag sc i => exact ⟨_, rfl, State.steps_order s _ _ _ _ (State.steps_motionOrder _ sc i)⟩
  | clearFault tag sc i => exact ⟨_, rfl, State.steps_order s _ _ _ _ (State.steps_clearFaultOrder sc i)⟩
  | flagsSet tag g m =>
    exact ⟨_, rfl, State.steps_order s _ _ _ _ (State.steps_flagsOrder g m _ (HelioRun.like_giveFlags m))⟩
  | flagsClear tag g m =>
    exact ⟨_, rfl, State.steps_order s _ _ _ _ (State.steps_flagsOrder g m _ (HelioRun.like_takeFlags m))⟩
  | readHeliostat tag h => exact ⟨_, rfl, State.steps_order s _ _ _ _ (State.steps_readHeliostatOrder h)⟩
  | pass tag h b => exact execPass_steps tag h b s
  | watchOn tag => exact ⟨_, rfl, State.steps_order s _ _ _ _ State.steps_turnWatchOn⟩
  | watchOff tag => exact ⟨_, rfl, State.steps_order s _ _ _ _ State.steps_turnWatchOff⟩
  | clearTrip tag => exact ⟨_, rfl, State.steps_order s _ _ _ _ State.steps_clearTripOrder⟩
  | lockLimits tag => exact ⟨_, rfl, State.steps_order s _ _ _ _ State.steps_lockLimitsOrder⟩
  | loadProgram tag k n r => exact ⟨_, rfl, State.steps_order s _ _ _ _ (State.steps_loadProgramOrder k n r)⟩
  | startProgram tag k l => exact ⟨_, rfl, State.steps_order s _ _ _ _ (State.steps_startProgramOrder tag k l)⟩
  | haltProgram tag k => exact ⟨_, rfl, State.steps_order s _ _ _ _ (State.steps_haltProgramOrder k)⟩
  | readProgramStatus tag k => exact ⟨_, rfl, State.steps_order s _ _ _ _ (State.steps_readProgramStatusOrder k)⟩
  | setState tag t => exact ⟨_, rfl, State.steps_order s _ _ _ _ (State.steps_setStateOrder t)⟩
  | fieldDefocus tag => exact ⟨_, rfl, State.steps_order s _ _ _ _ State.steps_fieldDefocusOrder⟩
  | reset tag => exact execReset_steps tag s
  | status tag => exact ⟨_, rfl, State.steps_order s _ _ _ _ (fun s => State.steps_ulp s _ id id)⟩
  | tableRead tag a b n => exact ⟨_, rfl, State.steps_order s _ _ _ _ (State.steps_tableReadOrder a b n)⟩
  | protect tag b => exact ⟨_, rfl, State.steps_order s _ _ _ _ (State.steps_protectOrder b)⟩
  | unprotectAll tag => exact ⟨_, rfl, State.steps_order s _ _ _ _ State.steps_unprotectAllOrder⟩
  | protectionStatus tag => exact ⟨_, rfl, State.steps_order s _ _ _ _ (fun s => .refl s)⟩
  | commitDone => exact execCommitDone_steps s
  | sendAnswerFrame => exact execSendAnswerFrame_steps s
  | sendReportFrame => exact execSendReportFrame_steps s
  | nightSpacingExpiry g => exact execNightSpacingExpiry_steps g s
  | segmentRequestSent g => exact execSegmentRequestSent_steps g s
  | driveAnswer g f => exact execDriveAnswer_steps g f s
  | driveResponseTimeout g => exact execDriveResponseTimeout_steps g s
  | slewTimeout h => exact execSlewTimeout_steps h s
  | surveyLimit => exact execSurveyLimit_steps s
  | wakeSettleTick => exact execWakeSettleTick_steps s
  | wakeDone => exact execWakeDone_steps s
  | sensorReading bytes =>
    refine ⟨_, rfl, ?_⟩
    split
    · exact State.steps_foldl _ State.steps_sensorByte bytes s
    · exact .refl s
  | staleExpiry z => exact execStaleExpiry_steps z s
  | aimGroup => exact execAimGroup_steps s
  | queueSpaceResume => exact execQueueSpaceResume_steps s
  | settleWaitEnd => exact execSettleWaitEnd_steps s
  | defocusGroup => exact execDefocusGroup_steps s
  | stowGroup => exact execStowGroup_steps s
  | groupSettleWaitEnd => exact execGroupSettleWaitEnd_steps s
  | ceiling => exact execCeiling_steps s
  | wait => exact execWait_steps s
  | waitTimerExpiry => exact execWaitTimerExpiry_steps s
  | test => exact execTest_steps s
  | jump => exact execJump_steps s
  | endStep => exact execEndStep_steps s
  | uplinkGapLimit =>
    refine ⟨_, rfl, ?_⟩
    split
    · exact State.steps_ulp s _ id id
    · exact .refl s
  | sensorFrameGap =>
    refine ⟨_, rfl, ?_⟩
    split
    · exact State.steps_sensorRx s _
    · exact .refl s
  | nightPollDue g => exact execNightPollDue_steps g s

end Sys2Proof.Machine
end

