-- ==== Sys2Proof/Laws/Invariants.lean ====
section
/-! SUPPORT. What every primitive change of the field keeps: the record facts, the Grant List, the Report Queue, the Move Queues'
bound and the canonical form. -/

namespace Sys2Proof.Machine

variable {live : Tables} {f g : Field}

/-! ### What writing a record does to each part of the field -/

theorem Field.foldl_account (env : Env) (h : Nat) (old new : HelioRun) (zs : List Nat) (f : Field) :
    ∃ t, zs.foldl (Field.account env h old new) f = { f with zone := t }
      ∧ (Table.wf Config.zones ZoneRun.blank f.zone → Table.wf Config.zones ZoneRun.blank t) := by
  induction zs generalizing f with
  | nil => exact ⟨f.zone, rfl, id⟩
  | cons z zs ih =>
    obtain ⟨t, ht, hw⟩ := ih (f.account env h old new z)
    exact ⟨t, by rw [List.foldl_cons, ht]; rfl, fun hf => hw (Table.wf_set _ _ hf)⟩

theorem Field.recount_eq (up down : List Nat) (f : Field) :
    ∃ t, f.recount up down = { f with refs := t } ∧ (Table.wf Config.aimPoints 0 f.refs → Table.wf Config.aimPoints 0 t) := by
  have key : ∀ (n : Field → Nat → Nat) (l : List Nat) (f : Field), ∃ t,
      l.foldl (fun g a => g.setRef a (n g a)) f = { f with refs := t }
        ∧ (Table.wf Config.aimPoints 0 f.refs → Table.wf Config.aimPoints 0 t) := by
    intro n l
    induction l with
    | nil => exact fun f => ⟨f.refs, rfl, id⟩
    | cons a l ih =>
      intro f
      obtain ⟨t, ht, hw⟩ := ih (f.setRef a (n f a))
      exact ⟨t, by rw [List.foldl_cons, ht]; rfl, fun hf => hw (Table.wf_set _ _ hf)⟩
  obtain ⟨t1, h1, w1⟩ := key (fun g a => g.refAt a + 1) up f
  obtain ⟨t2, h2, w2⟩ := key (fun g a => g.refAt a - 1) down { f with refs := t1 }
  refine ⟨t2, ?_, fun hf => w2 (w1 hf)⟩
  unfold Field.recount
  simp only [h1, h2]

theorem Field.unfollow_eq (h : Nat) (f : Field) :
    ∃ t, f.unfollow h = { f with slot := t } ∧ (Table.wf Config.slots Slot.blank f.slot → Table.wf Config.slots Slot.blank t) := by
  unfold Field.unfollow
  split
  · exact ⟨_, rfl, fun hf => Table.wf_set _ _ hf⟩
  · exact ⟨f.slot, rfl, id⟩

theorem Field.accountRecord_eq (env : Env) (h : Nat) (r : HelioRun) (f : Field) : ∃ tz tr,
    f.accountRecord env h r =
      { f with helio := Table.set Config.heliostats HelioRun.blank f.helio h r, zone := tz, refs := tr }
      ∧ (Table.wf Config.zones ZoneRun.blank f.zone → Table.wf Config.zones ZoneRun.blank tz)
      ∧ (Table.wf Config.aimPoints 0 f.refs → Table.wf Config.aimPoints 0 tr) := by
  obtain ⟨tz, hz, wz⟩ := Field.foldl_account env h (f.run h) r (env.zonesMoved (f.run h) r) (f.setRun h r)
  obtain ⟨tr, hr, wr⟩ := Field.recount_eq (r.aims.filter (· ∉ (f.run h).aims)) ((f.run h).aims.filter (· ∉ r.aims))
    { f.setRun h r with zone := tz }
  refine ⟨tz, tr, ?_, wz, wr⟩
  unfold Field.accountRecord
  simp only [hz, hr]
  rfl

/-- Writing a record changes that record, the zones' accounts, the reference counts, the Grant List and the slots' waits, and
nothing else. -/
theorem Field.record_eq (env : Env) (h : Nat) (r : HelioRun) (f : Field) : ∃ tz tr ts,
    f.record env h r =
      { f with
        helio := Table.set Config.heliostats HelioRun.blank f.helio h r, zone := tz, refs := tr
        grants := grantsAfter f.grants h r.granted, slot := ts }
      ∧ tz = (f.accountRecord env h r).zone ∧ tr = (f.accountRecord env h r).refs
      ∧ (Table.wf Config.zones ZoneRun.blank f.zone → Table.wf Config.zones ZoneRun.blank tz)
      ∧ (Table.wf Config.aimPoints 0 f.refs → Table.wf Config.aimPoints 0 tr)
      ∧ (Table.wf Config.slots Slot.blank f.slot → Table.wf Config.slots Slot.blank ts) := by
  obtain ⟨tz, tr, he, wz, wr⟩ := Field.accountRecord_eq env h r f
  unfold Field.record
  simp only [he]
  split
  · obtain ⟨ts, hs, ws⟩ := Field.unfollow_eq h
      { f with
        helio := Table.set Config.heliostats HelioRun.blank f.helio h r, zone := tz, refs := tr
        grants := grantsAfter f.grants h r.granted }
    exact ⟨tz, tr, ts, hs, rfl, rfl, wz, wr, ws⟩
  · exact ⟨tz, tr, f.slot, rfl, rfl, rfl, wz, wr, id⟩

theorem Field.run_record (env : Env) (h : Nat) (r : HelioRun) (f : Field) (j : Nat) :
    (f.record env h r).run j = if h = j ∧ h < Config.heliostats then r else f.run j := by
  obtain ⟨tz, tr, ts, he, -⟩ := Field.record_eq env h r f
  rw [he]
  exact Table.get_set _ _ _ _ _ _

theorem Field.grants_record (env : Env) (h : Nat) (r : HelioRun) (f : Field) :
    (f.record env h r).grants = grantsAfter f.grants h r.granted := by
  obtain ⟨tz, tr, ts, he, -⟩ := Field.record_eq env h r f
  rw [he]

theorem Field.reports_record (env : Env) (h : Nat) (r : HelioRun) (f : Field) : (f.record env h r).reports = f.reports := by
  obtain ⟨tz, tr, ts, he, -⟩ := Field.record_eq env h r f
  rw [he]

theorem Field.sxe_record (env : Env) (h : Nat) (r : HelioRun) (f : Field) : (f.record env h r).sxe = f.sxe := by
  obtain ⟨tz, tr, ts, he, -⟩ := Field.record_eq env h r f
  rw [he]

theorem Field.trip_record (env : Env) (h : Nat) (r : HelioRun) (f : Field) : (f.record env h r).trip = f.trip := by
  obtain ⟨tz, tr, ts, he, -⟩ := Field.record_eq env h r f
  rw [he]

theorem Field.arbiter_record (env : Env) (h : Nat) (r : HelioRun) (f : Field) : (f.record env h r).arbiter = f.arbiter := by
  obtain ⟨tz, tr, ts, he, -⟩ := Field.record_eq env h r f
  rw [he]

/-! ### Reports and records -/

/-- What a heliostat's record reads after a report-owed flag is written. -/
theorem Field.run_setReportOwed (f : Field) (src : Source) (b : Bool) (j : Nat) :
    (f.setReportOwed src b).run j = f.run j ∨ (f.setReportOwed src b).run j = { f.run j with reportOwed := b } := by
  cases src with
  | helio h =>
    simp only [Field.setReportOwed, Field.run_setRun]
    split
    · next hc => obtain ⟨rfl, -⟩ := hc; exact Or.inr rfl
    · exact Or.inl rfl
  | _ => exact Or.inl rfl

/-- A queued report changes no record but for a report-owed flag. -/
theorem Field.run_queueReport (f : Field) (src : Source) (j : Nat) :
    (f.queueReport src).run j = f.run j ∨ (f.queueReport src).run j = { f.run j with reportOwed := true } := by
  unfold Field.queueReport
  split
  · exact Or.inl rfl
  · split
    · exact Or.inl rfl
    · split
      · exact Or.inl rfl
      · exact Field.run_setReportOwed f src true j

/-! ### The record facts (R6) -/

theorem HelioRun.Sound.owedFlag {r : HelioRun} (b : Bool) (h : r.Sound) : ({ r with reportOwed := b } : HelioRun).Sound :=
  h.other rfl rfl rfl rfl rfl rfl rfl rfl rfl rfl

theorem HelioRun.Sound.like {r r' : HelioRun} (h : r.Sound) (hl : r.Like r') : r'.Sound := by
  obtain ⟨h1, h2, h3, h4, h5, h6, h7, h8⟩ := h
  obtain ⟨e1, e2, e3, e4, e5, e6, e7, e8, e9, e10, -⟩ := hl
  unfold HelioRun.Sound HelioRun.grantState at *
  rw [e1, e2, e3, e4, e5, e6, e7, e8, e9]
  exact ⟨h1, h2, h3, h4, h5, h6, h7, fun hq => h8 (e10 hq)⟩

theorem Field.Prim.records (hp : Field.Prim live f g) (hf : f.RecordsSound) : g.RecordsSound := by
  intro j
  cases hp with
  | record env he h r hh hs ho =>
    rw [Field.run_record]
    split
    · next hc => exact hs (hf h)
    · exact hf j
  | minor h r hl =>
    rw [Field.run_setRun]
    split
    · next hc => exact (hf h).like hl
    · exact hf j
  | report src =>
    rcases Field.run_queueReport f src j with h | h <;> rw [h]
    · exact hf j
    · exact (hf j).owedFlag true
  | unowe src =>
    rcases Field.run_setReportOwed f src false j with h | h <;> rw [h]
    · exact hf j
    · exact (hf j).owedFlag false
  | _ => exact hf j

/-! ### The Grant List (R36) -/

theorem mem_grantsAfter (l : List Nat) (h : Nat) (a : Option Nat) (j : Nat) :
    j ∈ grantsAfter l h a ↔ if j = h then a.isSome = true else j ∈ l := by
  unfold grantsAfter
  cases a with
  | none =>
    simp only [Option.isNone_none, if_true, List.mem_filter, bne_iff_ne, ne_eq, Option.isSome_none]
    by_cases hj : j = h <;> simp [hj]
  | some a =>
    simp only [Option.isNone_some, Bool.false_eq_true, if_false, Option.isSome_some]
    split
    · next hm => by_cases hj : j = h <;> simp [hj, hm]
    · next hm => by_cases hj : j = h <;> simp [hj]

theorem nodup_grantsAfter {l : List Nat} (hl : l.Nodup) (h : Nat) (a : Option Nat) : (grantsAfter l h a).Nodup := by
  unfold grantsAfter
  split
  · exact hl.filter _
  · split
    · exact hl
    · next hm => exact List.Nodup.append hl (List.nodup_singleton h) (by simpa using hm)

theorem Field.Prim.grantsExact (hp : Field.Prim live f g) (hf : f.GrantsExact) : g.GrantsExact := by
  obtain ⟨hn, hm⟩ := hf
  cases hp with
  | record env he h r hh hs ho =>
    refine ⟨by rw [Field.grants_record]; exact nodup_grantsAfter hn _ _, fun j => ?_⟩
    rw [Field.grants_record, Field.run_record, mem_grantsAfter]
    by_cases hj : j = h
    · rw [if_pos hj, if_pos ⟨hj.symm, hh⟩]
    · rw [if_neg hj, if_neg (fun c => hj c.1.symm)]
      exact hm j
  | minor h r hl =>
    refine ⟨hn, fun j => ?_⟩
    rw [Field.run_setRun]
    split
    · next hc =>
      obtain ⟨rfl, -⟩ := hc
      rw [hl.granted]
      exact hm _
    · exact hm j
  | report src =>
    refine ⟨by simpa using hn, fun j => ?_⟩
    rw [Field.queueReport_grants]
    rcases Field.run_queueReport f src j with h | h <;> rw [h] <;> exact hm j
  | unowe src =>
    refine ⟨by simpa using hn, fun j => ?_⟩
    rw [Field.setReportOwed_grants]
    rcases Field.run_setReportOwed f src false j with h | h <;> rw [h] <;> exact hm j
  | newest h hmem =>
    refine ⟨List.Nodup.append (hn.filter _) (List.nodup_singleton h) (by simp), fun j => ?_⟩
    rw [← show f.run j = ({ f with grants := f.grants.filter (· != h) ++ [h] } : Field).run j from rfl, ← hm j]
    simp only [List.mem_append, List.mem_filter, bne_iff_ne, ne_eq, List.mem_cons, List.not_mem_nil, or_false]
    by_cases hj : j = h
    · subst hj; simp [hmem]
    · simp [hj]
  | _ => exact ⟨hn, hm⟩

/-! ### The Move Queues (R58) -/

theorem Field.Prim.queuesBounded (hp : Field.Prim live f g) (hf : f.QueuesBounded) : g.QueuesBounded := by
  intro j
  cases hp with
  | record env he h r hh hs ho =>
    have : (f.record env h r).sxeAt j = f.sxeAt j := by unfold Field.sxeAt; rw [Field.sxe_record]
    rw [this]
    exact hf j
  | sxe g x hq =>
    rw [Field.sxeAt_setSxe]
    split
    · next hc =>
      obtain ⟨rfl, -⟩ := hc
      rcases hq with hq | hq
      · exact le_trans hq (hf _)
      · exact hq
    · exact hf j
  | report src =>
    have : (f.queueReport src).sxeAt j = f.sxeAt j := by unfold Field.sxeAt; rw [Field.queueReport_sxe]
    rw [this]
    exact hf j
  | unowe src =>
    have : (f.setReportOwed src false).sxeAt j = f.sxeAt j := by unfold Field.sxeAt; rw [Field.setReportOwed_sxe]
    rw [this]
    exact hf j
  | _ => exact hf j

/-! ### The Report Queue (R175, R176, R19) -/

theorem Field.reportOwed_congr {f g : Field} (src : Source) (hz : g.reports.zoneOwed = f.reports.zoneOwed)
    (hs : g.reports.slotOwed = f.reports.slotOwed) (ho : g.reports.stateOwed = f.reports.stateOwed)
    (ht : g.reports.tripOwed = f.reports.tripOwed) (hr : ∀ h, src = .helio h → (g.run h).reportOwed = (f.run h).reportOwed) :
    g.reportOwed src = f.reportOwed src := by
  cases src with
  | helio h => exact hr h rfl
  | zone z => simp only [Field.reportOwed, hz]
  | slot k => simp only [Field.reportOwed, hs]
  | opState => exact ho
  | trip => exact ht

/-- Writing one source's flag leaves every other source's flag. -/
theorem Field.reportOwed_setReportOwed (f : Field) (src src' : Source) (b : Bool) (hne : src' ≠ src) :
    (f.setReportOwed src b).reportOwed src' = f.reportOwed src' := by
  cases src <;> cases src' <;> simp only [Field.setReportOwed, Field.reportOwed, ne_eq, Source.helio.injEq, Source.zone.injEq,
    Source.slot.injEq, reduceCtorEq, not_true_eq_false] at hne ⊢ <;> first
    | exact absurd rfl hne
    | (rw [Field.run_setRun, if_neg (fun c => hne c.1.symm)])
    | (rw [Table.get_set_other _ _ _ _ _ _ (fun c => hne c.symm)])
    | rfl

theorem Field.Prim.reportsSound (hp : Field.Prim live f g) (hf : f.ReportsSound) : g.ReportsSound := by
  obtain ⟨hl, hn, ho⟩ := hf
  cases hp with
  | record env he h r hh hs hr =>
    refine ⟨by rw [Field.reports_record]; exact hl, by rw [Field.reports_record]; exact hn, fun src hsrc => ?_⟩
    rw [Field.reports_record] at hsrc
    have hsame := ho src hsrc
    have hrep := Field.reports_record env h r f
    cases src with
    | helio j =>
      simp only [Field.reportOwed] at hsame ⊢
      rw [Field.run_record]
      split
      · next hc =>
        obtain ⟨rfl, -⟩ := hc
        by_contra hb
        rw [hr (by simpa using hb)] at hsame
        exact absurd hsame (by decide)
      · exact hsame
    | zone z => simpa only [Field.reportOwed, hrep] using hsame
    | slot k => simpa only [Field.reportOwed, hrep] using hsame
    | opState => simpa only [Field.reportOwed, hrep] using hsame
    | trip => simpa only [Field.reportOwed, hrep] using hsame
  | minor h r hlike =>
    refine ⟨hl, hn, fun src hsrc => ?_⟩
    rw [← ho src hsrc]
    refine Field.reportOwed_congr src rfl rfl rfl rfl (fun j _ => ?_)
    rw [Field.run_setRun]
    split
    · next hc => obtain ⟨rfl, -⟩ := hc; exact hlike.reportOwed
    · rfl
  | zone z v hc hpd =>
    refine ⟨hl, hn, fun src hsrc => ?_⟩
    rw [← ho src hsrc]
    exact Field.reportOwed_congr src rfl rfl rfl rfl (fun j _ => rfl)
  | sxe g x hq =>
    refine ⟨hl, hn, fun src hsrc => ?_⟩
    rw [← ho src hsrc]
    exact Field.reportOwed_congr src rfl rfl rfl rfl (fun j _ => rfl)
  | slots t a hw =>
    refine ⟨hl, hn, fun src hsrc => ?_⟩
    rw [← ho src hsrc]
    exact Field.reportOwed_congr src rfl rfl rfl rfl (fun j _ => rfl)
  | trip t =>
    refine ⟨hl, hn, fun src hsrc => ?_⟩
    rw [← ho src hsrc]
    exact Field.reportOwed_congr src rfl rfl rfl rfl (fun j _ => rfl)
  | newest h hm =>
    refine ⟨hl, hn, fun src hsrc => ?_⟩
    rw [← ho src hsrc]
    exact Field.reportOwed_congr src rfl rfl rfl rfl (fun j _ => rfl)
  | unowe src =>
    refine ⟨by simpa using hl, by simpa using hn, fun src' hsrc => ?_⟩
    rw [Field.setReportOwed_queue] at hsrc
    by_cases he : src' = src
    · subst he
      have h1 := ho src' hsrc
      cases src' <;> simp only [Field.setReportOwed, Field.reportOwed, Field.run_setRun, Table.get_set] at h1 ⊢
      all_goals split <;> first | rfl | exact h1
    · rw [Field.reportOwed_setReportOwed f src src' false he]
      exact ho src' hsrc
  | sent src rest hq =>
    rw [hq] at hl hn ho
    refine ⟨?_, ?_, fun src' hsrc => ?_⟩
    · simp only [List.length_cons] at hl ⊢
      omega
    · exact (List.nodup_cons.1 hn).2
    · rw [← ho src' (List.mem_cons_of_mem _ hsrc)]
      exact Field.reportOwed_congr src' rfl rfl rfl rfl (fun j _ => rfl)
  | report src =>
    unfold Field.queueReport
    split
    · exact ⟨hl, hn, ho⟩
    · next hnot =>
      split
      · exact ⟨hl, hn, ho⟩
      · next howed =>
        split
        · next hlt =>
          refine ⟨?_, ?_, fun src' hsrc => ?_⟩
          · simp only [List.length_append, List.length_cons, List.length_nil]
            omega
          · exact List.Nodup.append hn (List.nodup_singleton src) (by simpa using hnot)
          · rw [show ({ f with reports := { f.reports with queue := f.reports.queue ++ [src] } } : Field).reportOwed src'
                = f.reportOwed src' from Field.reportOwed_congr src' rfl rfl rfl rfl (fun j _ => rfl)]
            rcases List.mem_append.1 hsrc with hsrc | hsrc
            · exact ho src' hsrc
            · simp only [List.mem_cons, List.not_mem_nil, or_false] at hsrc
              subst hsrc
              simpa using howed
        · refine ⟨by simpa using hl, by simpa using hn, fun src' hsrc => ?_⟩
          rw [Field.setReportOwed_queue] at hsrc
          rw [Field.reportOwed_setReportOwed f src src' true (fun c => hnot (c ▸ hsrc))]
          exact ho src' hsrc

/-! ### The canonical form -/

theorem Field.canonical_setReportOwed (f : Field) (src : Source) (b : Bool) (hf : f.Canonical) : (f.setReportOwed src b).Canonical := by
  obtain ⟨h1, h2, h3, h4, h5, h6, h7⟩ := hf
  cases src with
  | helio h => exact ⟨Table.wf_set _ _ h1, h2, h3, h4, h5, h6, h7⟩
  | zone z => exact ⟨h1, h2, h3, h4, h5, Table.wf_set _ _ h6, h7⟩
  | slot k => exact ⟨h1, h2, h3, h4, h5, h6, Table.wf_set _ _ h7⟩
  | opState => exact ⟨h1, h2, h3, h4, h5, h6, h7⟩
  | trip => exact ⟨h1, h2, h3, h4, h5, h6, h7⟩

theorem Field.Prim.canonical (hp : Field.Prim live f g) (hf : f.Canonical) : g.Canonical := by
  have hf' := hf
  obtain ⟨h1, h2, h3, h4, h5, h6, h7⟩ := hf
  cases hp with
  | record env he h r hh hs ho =>
    obtain ⟨tz, tr, ts, heq, -, -, wz, wr, ws⟩ := Field.record_eq env h r f
    rw [heq]
    exact ⟨Table.wf_set _ _ h1, wz h2, wr h3, h4, ws h5, h6, h7⟩
  | minor h r hl => exact ⟨Table.wf_set _ _ h1, h2, h3, h4, h5, h6, h7⟩
  | zone z v hc hpd => exact ⟨h1, Table.wf_set _ _ h2, h3, h4, h5, h6, h7⟩
  | sxe g x hq => exact ⟨h1, h2, h3, Table.wf_set _ _ h4, h5, h6, h7⟩
  | slots t a hw => exact ⟨h1, h2, h3, h4, hw h5, h6, h7⟩
  | trip t => exact ⟨h1, h2, h3, h4, h5, h6, h7⟩
  | report src =>
    unfold Field.queueReport
    split
    · exact hf'
    · split
      · exact hf'
      · split
        · exact hf'
        · exact Field.canonical_setReportOwed f src true hf'
  | unowe src => exact Field.canonical_setReportOwed f src false hf'
  | sent src rest hq => exact hf'
  | newest h hm => exact hf'

end Sys2Proof.Machine
end

