-- ==== Sys2Proof/Laws/Accounts.lean ====
section
/-! SUPPORT. The FAU's accounts (R23, R26, R27) through every primitive change of the field. -/

namespace Sys2Proof.Machine

/-! ### Lists of zones -/

theorem mem_insertZone (z y : Nat) (l : List Nat) : y ∈ insertZone z l ↔ y = z ∨ y ∈ l := by
  induction l with
  | nil => simp [insertZone]
  | cons x l ih =>
    unfold insertZone
    split
    · simp
    · split
      · next h => subst h; simp
      · simp only [List.mem_cons, ih]; tauto

theorem sorted_insertZone (z : Nat) {l : List Nat} (h : l.Pairwise (· < ·)) : (insertZone z l).Pairwise (· < ·) := by
  induction l with
  | nil => simp [insertZone]
  | cons x l ih =>
    obtain ⟨hx, hl⟩ := List.pairwise_cons.1 h
    unfold insertZone
    split
    · next hlt =>
      refine List.pairwise_cons.2 ⟨fun y hy => ?_, h⟩
      rcases List.mem_cons.1 hy with rfl | hy
      · exact hlt
      · exact lt_trans hlt (hx y hy)
    · split
      · exact h
      · next h1 h2 =>
        refine List.pairwise_cons.2 ⟨fun y hy => ?_, ih hl⟩
        rcases (mem_insertZone z y l).1 hy with rfl | hy
        · omega
        · exact hx y hy

theorem mem_foldr_insertZone (y : Nat) (zs l : List Nat) : y ∈ zs.foldr insertZone l ↔ y ∈ zs ∨ y ∈ l := by
  induction zs with
  | nil => simp
  | cons z zs ih => simp only [List.foldr_cons, mem_insertZone, ih, List.mem_cons]; tauto

theorem sorted_foldr_insertZone (zs : List Nat) {l : List Nat} (h : l.Pairwise (· < ·)) :
    (zs.foldr insertZone l).Pairwise (· < ·) := by
  induction zs with
  | nil => exact h
  | cons z zs ih => exact sorted_insertZone z ih

theorem Env.sorted_zonesOf (env : Env) (aims : List Nat) : (env.zonesOf aims).Pairwise (· < ·) :=
  sorted_foldr_insertZone _ List.Pairwise.nil

theorem Env.mem_zonesOf (env : Env) (aims : List Nat) (z : Nat) : z ∈ env.zonesOf aims ↔ ∃ a ∈ aims, env.aimCovers a z := by
  unfold Env.zonesOf Env.aimCovers
  rw [mem_foldr_insertZone]
  simp only [List.mem_flatMap, List.mem_map, List.not_mem_nil, or_false, List.any_eq_true, beq_iff_eq]

theorem Env.sorted_zonesMoved (env : Env) (old new : HelioRun) : (env.zonesMoved old new).Pairwise (· < ·) := by
  unfold Env.zonesMoved
  split
  · exact List.Pairwise.nil
  · exact Env.sorted_zonesOf _ _

/-! ### Loads -/

/-- An aim that does not cover a zone brings no load on it. -/
theorem Env.contribution_of_not_covers {env : Env} {h a z : Nat} (hc : env.aimCovers a z = false) : env.contribution h a z = 0 := by
  unfold Env.contribution shareOf
  unfold Env.aimCovers at hc
  rw [List.find?_eq_none.2 (by simpa using hc)]
  rfl

theorem Env.load_of_not_covers {env : Env} {h z : Nat} {r : HelioRun} (hc : ∀ a ∈ r.aims, env.aimCovers a z = false) :
    env.load h r z = 0 := by
  unfold Env.load
  rw [List.map_congr_left (g := fun _ => 0) (fun a ha => Env.contribution_of_not_covers (hc a ha))]
  simp

/-- A zone that a change of a record does not move carries the same load and the same pending load of it. -/
theorem Env.load_of_not_moved {env : Env} {h z : Nat} {old new : HelioRun} (hz : z ∉ env.zonesMoved old new) :
    env.load h new z = env.load h old z ∧ env.pendingLoad h new z = env.pendingLoad h old z := by
  unfold Env.zonesMoved at hz
  split at hz
  · next hs =>
    have hl : env.load h new z = env.load h old z := by unfold Env.load; rw [hs.1]
    exact ⟨hl, by unfold Env.pendingLoad; rw [hl, hs.2]⟩
  · rw [Env.mem_zonesOf] at hz
    have h0 : ∀ r : HelioRun, (∀ a ∈ r.aims, a ∈ old.aims ++ new.aims) → env.load h r z = 0 := fun r hr =>
      Env.load_of_not_covers (fun a ha => by
        by_contra hc
        exact hz ⟨a, hr a ha, by simpa using hc⟩)
    have h1 := h0 old (fun a ha => List.mem_append_left _ ha)
    have h2 := h0 new (fun a ha => List.mem_append_right _ ha)
    exact ⟨by rw [h1, h2], by unfold Env.pendingLoad; simp [h1, h2]⟩

theorem Env.load_congr {env env' : Env} (he : env'.live = env.live) (h : Nat) (r : HelioRun) (z : Nat) :
    env'.load h r z = env.load h r z := by
  simp only [Env.load, Env.contribution, Env.footprint, he]

theorem Env.pendingLoad_congr {env env' : Env} (he : env'.live = env.live) (h : Nat) (r : HelioRun) (z : Nat) :
    env'.pendingLoad h r z = env.pendingLoad h r z := by
  simp only [Env.pendingLoad, Env.load_congr he]

/-- The accounts read only the live tables of the environment. -/
theorem Field.AccountsExact.congr {env env' : Env} {f : Field} (he : env'.live = env.live) (hf : f.AccountsExact env) :
    f.AccountsExact env' := by
  obtain ⟨h1, h2, h3⟩ := hf
  refine ⟨fun z hz => ?_, fun z hz => ?_, h3⟩
  · rw [h1 z hz]
    simp only [Env.load_congr he]
  · rw [h2 z hz]
    simp only [Env.pendingLoad_congr he]

/-! ### The accounts of a written record -/

theorem Field.zoneAt_foldl_account (env : Env) (h : Nat) (old new : HelioRun) (zs : List Nat) (hs : zs.Pairwise (· < ·)) (f : Field)
    (z : Nat) : (zs.foldl (Field.account env h old new) f).zoneAt z =
      if z ∈ zs ∧ z < Config.zones then
        { f.zoneAt z with
          committed := (f.zoneAt z).committed + env.load h new z - env.load h old z
          pending := (f.zoneAt z).pending + env.pendingLoad h new z - env.pendingLoad h old z }
      else f.zoneAt z := by
  induction zs generalizing f with
  | nil => simp
  | cons y zs ih =>
    obtain ⟨hy, hs'⟩ := List.pairwise_cons.1 hs
    have hny : y ∉ zs := fun hm => by have := hy y hm; omega
    rw [List.foldl_cons, ih hs']
    have hacc : (f.account env h old new y).zoneAt z = if y = z ∧ y < Config.zones then
        { f.zoneAt y with
          committed := (f.zoneAt y).committed + env.load h new y - env.load h old y
          pending := (f.zoneAt y).pending + env.pendingLoad h new y - env.pendingLoad h old y }
        else f.zoneAt z := Field.zoneAt_setZone _ _ _ _
    by_cases hyz : y = z
    · subst hyz
      rw [if_neg (fun c => hny c.1), hacc]
      by_cases hlt : y < Config.zones
      · rw [if_pos ⟨rfl, hlt⟩, if_pos ⟨by simp, hlt⟩]
      · rw [if_neg (fun c => hlt c.2), if_neg (fun c => hlt c.2)]
    · have hz : (f.account env h old new y).zoneAt z = f.zoneAt z := by rw [hacc, if_neg (fun c => hyz c.1)]
      have : z ∈ y :: zs ↔ z ∈ zs := by simp [Ne.symm hyz]
      simp only [this, hz]

theorem Field.zoneAt_recount (f : Field) (up down : List Nat) (z : Nat) : (f.recount up down).zoneAt z = f.zoneAt z := by
  obtain ⟨t, ht, -⟩ := Field.recount_eq up down f
  rw [ht]
  rfl

/-- What a zone holds after a record is written. -/
theorem Field.zoneAt_record (env : Env) (h : Nat) (r : HelioRun) (f : Field) (z : Nat) : (f.record env h r).zoneAt z =
      if z ∈ env.zonesMoved (f.run h) r ∧ z < Config.zones then
        { f.zoneAt z with
          committed := (f.zoneAt z).committed + env.load h r z - env.load h (f.run h) z
          pending := (f.zoneAt z).pending + env.pendingLoad h r z - env.pendingLoad h (f.run h) z }
      else f.zoneAt z := by
  obtain ⟨tz, tr, ts, he, hz, -⟩ := Field.record_eq env h r f
  have h1 : (f.record env h r).zoneAt z = (f.accountRecord env h r).zoneAt z := by
    rw [he, hz]
    rfl
  rw [h1]
  unfold Field.accountRecord
  rw [Field.zoneAt_recount, Field.zoneAt_foldl_account env h (f.run h) r _ (Env.sorted_zonesMoved env (f.run h) r)]
  rfl

theorem Field.refAt_foldl (n : Nat → Nat) (l : List Nat) (hl : l.Nodup) (f : Field) (a : Nat) :
    (l.foldl (fun g a => g.setRef a (n (g.refAt a))) f).refAt a = if a ∈ l ∧ a < Config.aimPoints then n (f.refAt a) else f.refAt a := by
  induction l generalizing f with
  | nil => simp
  | cons b l ih =>
    obtain ⟨hb, hl'⟩ := List.nodup_cons.1 hl
    rw [List.foldl_cons, ih hl']
    by_cases hab : b = a
    · subst hab
      rw [if_neg (fun c => hb c.1), Field.refAt_setRef]
      by_cases hlt : b < Config.aimPoints
      · rw [if_pos ⟨rfl, hlt⟩, if_pos ⟨by simp, hlt⟩]
      · rw [if_neg (fun c => hlt c.2), if_neg (fun c => hlt c.2)]
    · have hset : (f.setRef b (n (f.refAt b))).refAt a = f.refAt a := by
        rw [Field.refAt_setRef, if_neg (fun c => hab c.1)]
      have : a ∈ b :: l ↔ a ∈ l := by simp [Ne.symm hab]
      simp only [this, hset]

theorem Field.refAt_recount (up down : List Nat) (hu : up.Nodup) (hd : down.Nodup) (f : Field) (a : Nat)
    (hdis : a ∈ up → a ∉ down) (ha : a < Config.aimPoints) :
    (f.recount up down).refAt a = f.refAt a + (if a ∈ up then 1 else 0) - (if a ∈ down then 1 else 0) := by
  unfold Field.recount
  rw [Field.refAt_foldl (fun n => n - 1) down hd, Field.refAt_foldl (fun n => n + 1) up hu]
  by_cases h1 : a ∈ up
  · simp [h1, hdis h1, ha]
  · by_cases h2 : a ∈ down <;> simp [h1, h2, ha]

theorem HelioRun.Sound.nodup_aims {r : HelioRun} (h : r.Sound) : r.aims.Nodup := by
  obtain ⟨-, h2, -⟩ := h
  unfold HelioRun.aims
  cases hl : r.leaving with
  | none => cases r.granted <;> simp
  | some b =>
    have h3 := (h2 (by simp [hl])).2
    rw [hl] at h3
    cases hg : r.granted with
    | none => simp
    | some a =>
      rw [hg] at h3
      simp only [ne_eq, Option.some.injEq] at h3
      simpa using h3

/-- What a reference count is after a record is written. -/
theorem Field.refAt_record (env : Env) (h : Nat) (r : HelioRun) (f : Field) (ho : (f.run h).Sound) (hr : r.Sound) (a : Nat)
    (ha : a < Config.aimPoints) :
    (f.record env h r).refAt a = f.refAt a + (if a ∈ r.aims then 1 else 0) - (if a ∈ (f.run h).aims then 1 else 0)
      ∨ (a ∈ r.aims ∧ a ∈ (f.run h).aims ∧ (f.record env h r).refAt a = f.refAt a) := by
  obtain ⟨tz, tr, ts, he, -, hr', -⟩ := Field.record_eq env h r f
  have hrec : (f.record env h r).refAt a = (f.accountRecord env h r).refAt a := by
    rw [he, hr']
    rfl
  have hacc : (((env.zonesMoved (f.run h) r).foldl (Field.account env h (f.run h) r) (f.setRun h r))).refAt a = f.refAt a := by
    obtain ⟨t, ht, -⟩ := Field.foldl_account env h (f.run h) r (env.zonesMoved (f.run h) r) (f.setRun h r)
    rw [ht]
    rfl
  rw [hrec]
  unfold Field.accountRecord
  rw [Field.refAt_recount _ _ (hr.nodup_aims.filter _) (ho.nodup_aims.filter _) _ a ?_ ha, hacc]
  · by_cases h1 : a ∈ r.aims <;> by_cases h2 : a ∈ (f.run h).aims <;> simp [h1, h2]
  · simp only [List.mem_filter, decide_not, Bool.not_eq_eq_eq_not, Bool.not_true, decide_eq_false_iff_not, not_and, not_not,
      and_imp]
    exact fun _ h2 h3 => absurd h3 h2

theorem HelioRun.Like.aims {r r' : HelioRun} (h : r.Like r') : r'.aims = r.aims := by
  unfold HelioRun.aims
  rw [h.granted, h.leaving]

theorem HelioRun.Like.isPending {r r' : HelioRun} (h : r.Like r') : r'.isPending = r.isPending := by
  unfold HelioRun.isPending HelioRun.holdsLoad
  rw [h.granted, h.leaving, h.owed, h.state, h.released]

/-- A write of a record that leaves a quantity as it was leaves its total. -/
theorem Table.total_setRun_same (q : Nat → HelioRun → Nat) (hq : ∀ i, q i HelioRun.blank = 0) {t : Table HelioRun}
    (ht : Table.wf Config.heliostats HelioRun.blank t) (h : Nat) (r : HelioRun) (hs : q h r = q h (Table.get HelioRun.blank t h)) :
    Table.total q (Table.set Config.heliostats HelioRun.blank t h r) = Table.total q t := by
  by_cases hh : h < Config.heliostats
  · have := Table.total_set q hq ht hh r
    omega
  · rw [Table.set_of_outside _ _ _ _ _ hh]

theorem Env.load_blank (env : Env) (h z : Nat) : env.load h HelioRun.blank z = 0 := rfl

theorem Env.pendingLoad_blank (env : Env) (h z : Nat) : env.pendingLoad h HelioRun.blank z = 0 := rfl

theorem Field.AccountsExact.sameRun {env : Env} {f : Field} (hf : f.AccountsExact env) (hc : f.Canonical) (h : Nat) (r : HelioRun)
    (ha : r.aims = (f.run h).aims) (hp : r.isPending = (f.run h).isPending) : (f.setRun h r).AccountsExact env := by
  obtain ⟨h1, h2, h3⟩ := hf
  have hl : ∀ z, env.load h r z = env.load h (f.run h) z := fun z => by unfold Env.load; rw [ha]
  refine ⟨fun z hz => ?_, fun z hz => ?_, fun a hlt => ?_⟩
  · rw [show (f.setRun h r).helio = Table.set Config.heliostats HelioRun.blank f.helio h r from rfl,
      Table.total_setRun_same _ (fun i => Env.load_blank env i z) hc.1 h r (hl z)]
    exact h1 z hz
  · rw [show (f.setRun h r).helio = Table.set Config.heliostats HelioRun.blank f.helio h r from rfl,
      Table.total_setRun_same _ (fun i => Env.pendingLoad_blank env i z) hc.1 h r]
    · exact h2 z hz
    · unfold Env.pendingLoad
      rw [hp, hl z]
      rfl
  · rw [show (f.setRun h r).helio = Table.set Config.heliostats HelioRun.blank f.helio h r from rfl,
      Table.total_setRun_same (fun _ r => if a ∈ r.aims then 1 else 0) (fun i => rfl) hc.1 h r]
    · exact h3 a hlt
    · simp only [ha]
      rfl

/-- The accounts do not read what a change of anything but records, zones and reference counts changes. -/
theorem Field.AccountsExact.sameTables {env : Env} {f g : Field} (hf : f.AccountsExact env) (h1 : g.helio = f.helio)
    (h2 : g.zone = f.zone) (h3 : g.refs = f.refs) : g.AccountsExact env := by
  unfold Field.AccountsExact Field.zoneAt Field.refAt at *
  rw [h1, h2, h3]
  exact hf

theorem Field.AccountsExact.setReportOwed {env : Env} {f : Field} (hf : f.AccountsExact env) (hc : f.Canonical) (src : Source)
    (b : Bool) : (f.setReportOwed src b).AccountsExact env := by
  cases src with
  | helio h => exact hf.sameRun hc h _ rfl rfl
  | _ => exact hf.sameTables rfl rfl rfl

/-- A record written with what follows it keeps the accounts exact (R23, R26, R27). -/
theorem Field.AccountsExact.record {env : Env} {f : Field} (hf : f.AccountsExact env) (hc : f.Canonical) {h : Nat}
    (hh : h < Config.heliostats) {r : HelioRun} (ho : (f.run h).Sound) (hr : r.Sound) : (f.record env h r).AccountsExact env := by
  obtain ⟨h1, h2, h3⟩ := hf
  obtain ⟨tz, tr, ts, he, -⟩ := Field.record_eq env h r f
  have hhel : (f.record env h r).helio = Table.set Config.heliostats HelioRun.blank f.helio h r := by rw [he]
  refine ⟨fun z hz => ?_, fun z hz => ?_, fun a hlt => ?_⟩
  · have ht := Table.total_set (fun h r => env.load h r z) (fun i => Env.load_blank env i z) hc.1 hh r
    rw [hhel, Field.zoneAt_record]
    rw [show Table.get HelioRun.blank f.helio h = f.run h from rfl, ← h1 z hz] at ht
    split
    · simp only
      omega
    · next hm =>
      have := (Env.load_of_not_moved (h := h) (fun hc => hm ⟨hc, hz⟩)).1
      omega
  · have ht := Table.total_set (fun h r => env.pendingLoad h r z) (fun i => Env.pendingLoad_blank env i z) hc.1 hh r
    rw [hhel, Field.zoneAt_record]
    rw [show Table.get HelioRun.blank f.helio h = f.run h from rfl, ← h2 z hz] at ht
    split
    · simp only
      omega
    · next hm =>
      have := (Env.load_of_not_moved (h := h) (fun hc => hm ⟨hc, hz⟩)).2
      omega
  · have ht := Table.total_set (fun _ r => if a ∈ r.aims then 1 else 0) (fun i => rfl) hc.1 hh r
    rw [show Table.get HelioRun.blank f.helio h = f.run h from rfl, ← h3 a hlt] at ht
    rw [hhel]
    rcases Field.refAt_record env h r f ho hr a hlt with hx | ⟨ha1, ha2, hx⟩
    · rw [hx]; omega
    · rw [hx]; simp only [ha1, ha2, if_true] at ht; omega

/-- Every primitive change keeps the accounts exact. -/
theorem Field.Prim.accounts {env : Env} {f g : Field} (hp : Field.Prim env.live f g) (hc : f.Canonical) (hs : f.RecordsSound)
    (hf : f.AccountsExact env) : g.AccountsExact env := by
  cases hp with
  | record env' he h r hh hsr ho =>
    exact ((hf.congr he).record hc hh (hs h) (hsr (hs h))).congr he.symm
  | minor h r hl => exact hf.sameRun hc h r hl.aims hl.isPending
  | zone z v hc1 hp1 =>
    obtain ⟨h1, h2, h3⟩ := hf
    refine ⟨fun y hy => ?_, fun y hy => ?_, h3⟩
    · rw [Field.zoneAt_setZone, show (f.setZone z v).helio = f.helio from rfl, ← h1 y hy]
      split
      · next hyz => obtain ⟨rfl, -⟩ := hyz; exact hc1
      · rfl
    · rw [Field.zoneAt_setZone, show (f.setZone z v).helio = f.helio from rfl, ← h2 y hy]
      split
      · next hyz => obtain ⟨rfl, -⟩ := hyz; exact hp1
      · rfl
  | report src =>
    unfold Field.queueReport
    split
    · exact hf
    · split
      · exact hf
      · split
        · exact hf.sameTables rfl rfl rfl
        · exact hf.setReportOwed hc src true
  | unowe src => exact hf.setReportOwed hc src false
  | sxe g x hq => exact hf.sameTables rfl rfl rfl
  | slots t a hw => exact hf.sameTables rfl rfl rfl
  | trip t => exact hf.sameTables rfl rfl rfl
  | sent src rest hq => exact hf.sameTables rfl rfl rfl
  | newest h hm => exact hf.sameTables rfl rfl rfl

end Sys2Proof.Machine
end

