-- ==== Sys2Proof/Laws/Answers.lean ====
section
/-! SUPPORT. What a status makes of a record: the model's application of R76 gives the record of `State.statused`, and keeps a record as R6
says and tidy. -/

namespace Sys2Proof.Machine

/-! ### Good records, and what a change needs to leave one -/

/-- A record that is as R6 says and tidy. -/
structure HelioRun.Good (r : HelioRun) : Prop where
  sound : r.Sound
  tidy : r.Tidy

/-- What a changed record needs, beside `Fit`, so that its tidied form is tidy. -/
structure HelioRun.Trim (r : HelioRun) : Prop where
  leaving : r.leaving.isSome → r.state = .slewing ∧ r.reAim = true
  idle : r.state = .faulted ∨ r.state = .silent → r.owed = none
  counts : r.silentCount ≤ 3 ∧ r.busyCount ≤ 3
  returning : r.state = .returning → r.destination.isSome

theorem HelioRun.Trim.tidied {r : HelioRun} (h : r.Trim) : r.tidy.nothingRemains.Tidy := by
  obtain ⟨h1, h2, h3, h4⟩ := h
  have hd : r.destination.isSome → r.destination ≠ some .stow → r.destination = some .standby := by
    cases hd : r.destination with
    | none => simp
    | some d => cases d <;> simp
  constructor
  all_goals
    cases ho : r.owed with
    | none => rcases hs : r.state <;> simp_all [HelioRun.tidy, HelioRun.nothingRemains]
    | some o =>
      obtain ⟨m, c⟩ := o
      cases m <;> rcases hs : r.state <;> simp_all [HelioRun.tidy, HelioRun.nothingRemains]
      all_goals by_cases hx : r.destination = some .stow <;> simp_all

theorem HelioRun.Good.tidied {r r' : HelioRun} (h : r.tidy.nothingRemains = r') (hf : r.Fit) (ht : r.Trim) : r'.Good :=
  h ▸ ⟨hf.tidy.nothingRemains, ht.tidied⟩

theorem HelioRun.Good.by {old new : HelioRun} (h : new.Good) (c : Option Cause) : (old.by c new).Good := by
  refine ⟨h.sound.by c, ?_⟩
  obtain ⟨h1, h2, h3, h4, h5, h6, h7, h8⟩ := h.tidy
  unfold HelioRun.by
  split
  · exact ⟨h1, h2, h3, h4, h5, h6, h7, h8⟩
  · exact h.tidy

/-- What changes nothing has no cause. -/
theorem HelioRun.by_self (r : HelioRun) (c : Option Cause) : r.by c r = r := by
  simp [HelioRun.by, HelioRun.differs]

/-- The tidying of a change leaves a good record alone. -/
theorem HelioRun.Good.tidy_eq {r : HelioRun} (h : r.Good) : r.tidy.nothingRemains = r := by
  rw [HelioRun.tidy_eq h.sound h.tidy, HelioRun.nothingRemains_eq h.tidy]

theorem Edit.set_r (c : Option Cause) (new : HelioRun) (e : Edit) : (e.set c new).r = e.r.by c new.tidy.nothingRemains := rfl

/-! ### The changed records in closed form -/

section Forms
variable {r : HelioRun}

/-- Coming to rest (R77, R79, R80). -/
theorem HelioRun.Good.atRest (h : r.Good) (p : Rest) :
    (r.atRest p).tidy.nothingRemains = r.restedAt p ∧ (r.restedAt p).Good := by
  have he : (r.atRest p).tidy.nothingRemains = r.restedAt p := by
    cases p <;> cases ho : r.owed with
    | none => simp [HelioRun.atRest, HelioRun.tidy, HelioRun.nothingRemains, HelioRun.restedAt, HelioRun.stopped, Rest.state, ho]
    | some o =>
      obtain ⟨m, c⟩ := o
      cases m <;>
        simp [HelioRun.atRest, HelioRun.tidy, HelioRun.nothingRemains, HelioRun.restedAt, HelioRun.stopped, Rest.state, ho]
  exact ⟨he, .tidied he (HelioRun.fit_atRest r p) (by cases p <;> constructor <;> simp [HelioRun.atRest, h.tidy.counts])⟩

/-- Owing DEFOCUS, of a record that still has something to defocus and no Move Queue entry (R11). -/
theorem HelioRun.Good.owing (h : r.Good) (hq : r.queued = false) (hs : r.state = .slewing ∨ r.state = .tracking ∨ r.state = .lost)
    (c : Cause) : (r.setOwed .defocus c).tidy.nothingRemains = r.owing c ∧ (r.owing c).Good := by
  have hset : r.setOwed .defocus c = r.owing c := by
    unfold HelioRun.setOwed HelioRun.owing
    cases ho : r.owed with
    | none => rfl
    | some o => obtain ⟨m, c'⟩ := o; cases m <;> rfl
  have hsound : (r.owing c).Sound := hset ▸ h.sound.setOwed .defocus c hq
  have htidy : (r.owing c).Tidy := by
    obtain ⟨h1, h2, h3, h4, h5, h6, h7, h8⟩ := h.tidy
    unfold HelioRun.owing
    cases ho : r.owed with
    | none => rcases hs with hs | hs | hs <;> constructor <;> simp_all
    | some o => obtain ⟨m, c'⟩ := o; cases m <;> rcases hs with hs | hs | hs <;> constructor <;> simp_all
  have hg : (r.owing c).Good := ⟨hsound, htidy⟩
  exact ⟨by rw [hset, hg.tidy_eq], hg⟩

/-- A RETURNING heliostat has no use for a DEFOCUS (R11). -/
theorem HelioRun.Good.owingReturning (h : r.Good) (hs : r.state = .returning) (c : Cause) :
    (r.setOwed .defocus c).tidy.nothingRemains = { r with owed := none, busyCount := 0 }
      ∧ ({ r with owed := none, busyCount := 0 } : HelioRun).Good := by
  have hq := h.sound.not_queued (by simp [hs])
  have hg : ({ r with owed := none, busyCount := 0 } : HelioRun).Good := by
    refine ⟨?_, ?_⟩
    · have := h.sound
      simp_all [HelioRun.Sound, HelioRun.grantState]
    · obtain ⟨h1, h2, h3, h4, h5, h6, h7, h8⟩ := h.tidy
      constructor <;> simp_all
  refine ⟨?_, hg⟩
  have ht : (r.setOwed .defocus c).tidy = r.setOwed .defocus c := by
    have hs' := h.sound.setOwed .defocus c hq
    have e := HelioRun.tidy_eq h.sound h.tidy
    unfold HelioRun.setOwed
    cases ho : r.owed with
    | none =>
      simp only
      rw [show ({ r with owed := some ⟨.defocus, c⟩, busyCount := 0 } : HelioRun).tidy
        = { r.tidy with owed := some ⟨.defocus, c⟩, busyCount := 0 } from rfl, e]
    | some o =>
      obtain ⟨m, c'⟩ := o
      cases m
      · exact e
      · simp only
        rw [show ({ r with owed := some ⟨.defocus, c⟩, busyCount := 0 } : HelioRun).tidy
          = { r.tidy with owed := some ⟨.defocus, c⟩, busyCount := 0 } from rfl, e]
  rw [ht]
  unfold HelioRun.setOwed
  cases ho : r.owed with
  | none => simp [HelioRun.nothingRemains, hs]
  | some o =>
    obtain ⟨m, c'⟩ := o
    cases m with
    | defocus => exact absurd hs (h.tidy.defocus c' ho).2.2
    | stow => simp [HelioRun.nothingRemains, hs]

/-- An adoption, with a DEFOCUS owed in the same change or without (R43, R155). -/
theorem HelioRun.Good.adoptedOn (h : r.Good) (a : Nat) : (r.adoptedOn a).Good := by
  refine ⟨?_, ?_⟩
  · simp [HelioRun.Sound, HelioRun.adoptedOn, HelioRun.stopped, HelioRun.grantState]
  · constructor <;> simp [HelioRun.adoptedOn, HelioRun.stopped, h.tidy.counts]

/-- A heliostat found on an absent aim point (R79, R80). -/
theorem HelioRun.Good.lostOff (h : r.Good) : r.lostOff.Good := by
  refine ⟨?_, ?_⟩
  · simp [HelioRun.Sound, HelioRun.lostOff, HelioRun.stopped, HelioRun.grantState]
  · constructor <;> simp [HelioRun.lostOff, HelioRun.stopped, h.tidy.counts]

/-- A record whose aims are none and whose state is UNSURE (R79, R80). -/
theorem HelioRun.Good.unsure (h : r.Good) : ({ r.stopped with state := .unsure, granted := none, leaving := none } : HelioRun).Good := by
  refine ⟨?_, ?_⟩
  · simp [HelioRun.Sound, HelioRun.stopped, HelioRun.grantState]
  · constructor <;> simp [HelioRun.stopped, h.tidy.counts]

/-- An arrival on the granted aim (R41, R77). -/
theorem HelioRun.Good.arrived (h : r.Good) (hg : r.granted.isSome) : r.arrived.Good := by
  refine ⟨?_, ?_⟩
  · simp [HelioRun.Sound, HelioRun.arrived, HelioRun.stopped, HelioRun.grantState, hg]
  · constructor <;> simp [HelioRun.arrived, HelioRun.stopped, h.tidy.counts]

/-- The leaving aim released (R41, R77, R78). -/
theorem HelioRun.Good.dropLeaving (h : r.Good) : ({ r with leaving := none } : HelioRun).Good := by
  refine ⟨h.sound.dropLeaving, ?_⟩
  obtain ⟨h1, h2, h3, h4, h5, h6, h7, h8⟩ := h.tidy
  constructor <;> simp_all

/-- The granted aim of a RETURNING heliostat released (R79). -/
theorem HelioRun.Good.released (h : r.Good) (hs : r.state = .returning) :
    ({ r with granted := none, leaving := none, released := true } : HelioRun).Good := by
  refine ⟨?_, ?_⟩
  · have := h.sound
    simp_all [HelioRun.Sound, HelioRun.grantState]
  · obtain ⟨h1, h2, h3, h4, h5, h6, h7, h8⟩ := h.tidy
    constructor <;> simp_all

/-- A move under way (R68, R78). -/
theorem HelioRun.Good.underWay (h : r.Good) (hs : r.state = .slewing) (now limit : Nat) : (r.underWay now limit).Good := by
  refine ⟨?_, ?_⟩
  · have := h.sound
    simp_all [HelioRun.Sound, HelioRun.grantState, HelioRun.underWay]
  · obtain ⟨h1, h2, h3, h4, h5, h6, h7, h8⟩ := h.tidy
    constructor <;> simp_all [HelioRun.underWay]

/-- A failure of a heliostat that holds no load (R74, R76). -/
theorem HelioRun.Good.faultedOff (h : r.Good) (place : Rest) : ({ r.faultedOff with rest := place } : HelioRun).Good := by
  refine ⟨?_, ?_⟩
  · simp [HelioRun.Sound, HelioRun.faultedOff, HelioRun.stopped, HelioRun.grantState]
  · constructor <;> simp [HelioRun.faultedOff, HelioRun.stopped, h.tidy.counts]
    split <;> simp [h.tidy.counts]

/-- The revocation of a grant (R37, R38). -/
theorem HelioRun.Good.grantUndone (h : r.Good) :
    ({ r with queued := false } : HelioRun).revoked.nothingRemains = r.grantUndone ∧ r.grantUndone.Good := by
  have hn : ({ r with queued := false } : HelioRun).revoked.nothingRemains = r.grantUndone := by
    cases hl : r.leaving with
    | some b =>
      cases ho : r.owed with
      | none => simp [HelioRun.revoked, HelioRun.grantUndone, HelioRun.stopped, HelioRun.tidy, HelioRun.nothingRemains, hl, ho]
      | some o =>
        obtain ⟨m, c⟩ := o
        cases m <;>
          simp [HelioRun.revoked, HelioRun.grantUndone, HelioRun.stopped, HelioRun.tidy, HelioRun.nothingRemains, hl, ho]
    | none =>
      cases hr : r.rest <;> cases ho : r.owed with
      | none =>
        simp [HelioRun.revoked, HelioRun.grantUndone, HelioRun.restedAt, HelioRun.stopped, HelioRun.tidy, HelioRun.nothingRemains,
          Rest.state, hl, ho, hr]
      | some o =>
        obtain ⟨m, c⟩ := o
        cases m <;>
          simp [HelioRun.revoked, HelioRun.grantUndone, HelioRun.restedAt, HelioRun.stopped, HelioRun.tidy, HelioRun.nothingRemains,
            Rest.state, hl, ho, hr]
  have hs : r.grantUndone.Sound := by
    rw [← hn]
    exact h.sound.revoked.nothingRemains
  refine ⟨hn, hs, ?_⟩
  cases hl : r.leaving with
  | some b => constructor <;> simp [HelioRun.grantUndone, HelioRun.stopped, hl, h.tidy.counts]
  | none =>
    obtain ⟨h1, h2, h3, h4, h5, h6, h7, h8⟩ := (h.atRest r.rest).2.tidy
    rw [show r.grantUndone = { r.restedAt r.rest with busyCount := 0 } by simp [HelioRun.grantUndone, hl]]
    exact ⟨h1, h2, h3, h4, h5, h6, h7, ⟨h8.1, Nat.zero_le _⟩⟩

/-- DEFOCUS owed to a heliostat that has a Move Queue entry (R12). -/
theorem HelioRun.Good.withdrawn (h : r.Good) (hq : r.queued = true) (c : Cause) :
    (({ r with queued := false } : HelioRun).revoked.setOwed .defocus c).nothingRemains
        = (if r.leaving.isSome then r.grantUndone.owing c else r.grantUndone)
      ∧ (if r.leaving.isSome then r.grantUndone.owing c else r.grantUndone).Good := by
  obtain ⟨hs, _, ho⟩ := h.sound.2.2.2.2.2.2.2 hq
  have hg := h.grantUndone.2
  cases hl : r.leaving with
  | some b =>
    have h2 := (hg.owing (by simp [HelioRun.grantUndone, HelioRun.stopped, hl]) (by simp [HelioRun.grantUndone, hl]) c)
    refine ⟨?_, by simpa using h2.2⟩
    simp [HelioRun.revoked, HelioRun.grantUndone, HelioRun.stopped, HelioRun.tidy, HelioRun.nothingRemains, HelioRun.setOwed,
      HelioRun.owing, hl, ho]
  | none =>
    refine ⟨?_, by simpa using hg⟩
    cases hr : r.rest <;>
      simp [HelioRun.revoked, HelioRun.grantUndone, HelioRun.restedAt, HelioRun.stopped, HelioRun.tidy, HelioRun.nothingRemains,
        HelioRun.setOwed, Rest.state, hl, ho, hr]

end Forms

/-! ### The operations on an exchange's outcome -/

/-- A DEFOCUS owed by an answer (R11, R12). -/
theorem Edit.owe_eq {e : Edit} (h : e.r.Good)
    (hs : e.r.state = .slewing ∨ e.r.state = .tracking ∨ e.r.state = .lost ∨ e.r.state = .returning) (c : Cause) :
    (e.owe .defocus c c).r = e.r.sentOff c ∧ (e.r.sentOff c).Good := by
  unfold Edit.owe HelioRun.sentOff
  by_cases hq : e.r.queued = true
  · obtain ⟨h1, h2⟩ := h.withdrawn hq c
    rw [if_pos hq, if_pos hq]
    exact ⟨by rw [← h1], h2.by _⟩
  · rw [if_neg hq, if_neg hq, Edit.set_r]
    by_cases hr : e.r.state = .returning
    · obtain ⟨h1, h2⟩ := h.owingReturning hr c
      rw [h1, if_pos hr]
      exact ⟨rfl, h2.by _⟩
    · obtain ⟨h1, h2⟩ := h.owing (by simpa using hq) (by tauto) c
      rw [h1, if_neg hr]
      exact ⟨rfl, h2.by _⟩

/-- Where there is neither a Move Queue entry nor a return, the DEFOCUS is simply owed. -/
theorem HelioRun.sentOff_owing {r : HelioRun} (hq : r.queued = false) (hr : r.state ≠ .returning) (c : Cause) :
    r.sentOff c = r.by (some c) (r.owing c) := by
  simp [HelioRun.sentOff, hq, hr]

/-- A change whose record is good already. -/
theorem Edit.set_good {e : Edit} {new : HelioRun} (c : Option Cause) (h : new.Good) :
    (e.set c new).r = e.r.by c new ∧ (e.r.by c new).Good := by
  rw [Edit.set_r, h.tidy_eq]
  exact ⟨rfl, h.by c⟩

/-- A change whose tidied record is `new`. -/
theorem Edit.set_form {e : Edit} {x new : HelioRun} (c : Option Cause) (h : x.tidy.nothingRemains = new ∧ new.Good) :
    (e.set c x).r = e.r.by c new ∧ (e.r.by c new).Good := by
  rw [Edit.set_r, h.1]
  exact ⟨rfl, h.2.by c⟩

/-! ### The first step of R76 -/

/-- LOCAL and the fault cause are no part of what R6 and R11 say. -/
theorem HelioRun.Good.marked {r : HelioRun} (h : r.Good) (b : Bool) (f : Option FaultCause) :
    ({ r with localControl := b, fault := f } : HelioRun).Good := by
  obtain ⟨h1, h2, h3, h4, h5, h6, h7, h8⟩ := h.tidy
  exact ⟨h.sound.other rfl rfl rfl rfl rfl rfl rfl rfl rfl rfl, ⟨h1, h2, h3, h4, h5, h6, h7, h8⟩⟩

theorem Edit.noteLocal_eq {e : Edit} (h : e.r.Good) (b : Bool) :
    (e.noteLocal b).r = e.r.by (some (if b then .localControl else .recovered)) { e.r with localControl := b }
      ∧ (e.noteLocal b).r.Good := by
  unfold Edit.noteLocal
  split
  · next heq =>
    subst heq
    exact ⟨(HelioRun.by_self e.r _).symm, h⟩
  · have := Edit.set_good (e := e) (some (if b then Cause.localControl else .recovered)) (h.marked b e.r.fault)
    exact ⟨this.1, this.1 ▸ this.2⟩

theorem Edit.noteFault_eq {e : Edit} (h : e.r.Good) (b : Bool) (c : FaultCause) :
    (e.noteFault b c).r = (if b && e.r.fault.isNone then e.r.by (some c.cause) { e.r with fault := some c } else e.r)
      ∧ (e.noteFault b c).r.Good := by
  unfold Edit.noteFault
  split
  · have := Edit.set_good (e := e) (some c.cause) (h.marked e.r.localControl (some c))
    exact ⟨this.1, this.1 ▸ this.2⟩
  · exact ⟨rfl, h⟩

/-- The first step of R76. -/
theorem Edit.statusFlags_eq {e : Edit} (h : e.r.Good) (st : Status) :
    (e.statusFlags st).r = e.r.flagged st ∧ (e.r.flagged st).Good := by
  obtain ⟨h1, g1⟩ := Edit.noteLocal_eq h st.localControl
  obtain ⟨h2, g2⟩ := Edit.noteFault_eq g1 st.fault (.driveFault (some st.code))
  obtain ⟨h3, g3⟩ := Edit.noteFault_eq g2 st.localControl .localControl
  have he : (e.statusFlags st).r = e.r.flagged st := by
    unfold Edit.statusFlags HelioRun.flagged
    rw [h3, h2, ← h1]
    generalize (e.noteLocal st.localControl).r = r1
    have hf : ∀ (r : HelioRun) (c : Option Cause) (f : FaultCause), (r.by c { r with fault := some f }).fault = some f := by
      intro r c f
      unfold HelioRun.by
      split <;> rfl
    cases hr : r1.fault <;> cases st.fault <;> cases st.localControl <;> simp [hr, hf, FaultCause.cause]
  exact ⟨he, he ▸ g3⟩

/-! ### The second step of R76 -/

section Placed
variable {s : State} {f : Field} {e : Edit}

/-- R155's cause, read in a field with the zones of the state. -/
theorem State.adoptionOwes_eq (hf : ∀ z, (f.zoneAt z).critical = (s.field.zoneAt z).critical) (a : Nat) (r : HelioRun) :
    s.env.adoptionCause f a r = s.adoptionOwes a r := by
  unfold Env.adoptionCause State.adoptionOwes
  have hx : ((s.env.footprint a).any (fun p => (f.zoneAt p.1).critical)) = true
      ↔ ∃ q ∈ (s.live.aimAt a).footprint, (s.field.zoneAt q.1).critical = true := by
    simp only [List.any_eq_true, hf]
    exact Iff.rfl
  by_cases h1 : s.osc.fieldSafe = true
  · rw [if_pos h1, if_pos (show s.env.fieldSafe = true from h1)]
  · rw [if_neg h1, if_neg (show ¬ s.env.fieldSafe = true from h1)]
    by_cases h2 : ∃ q ∈ (s.live.aimAt a).footprint, (s.field.zoneAt q.1).critical = true
    · rw [if_pos h2, if_pos (hx.2 h2)]
    · rw [if_neg h2, if_neg (fun h => h2 (hx.1 h))]
      rfl

/-- An adoption by an answer (R43). -/
theorem Edit.adopt_eq (hf : ∀ z, (f.zoneAt z).critical = (s.field.zoneAt z).critical) (h : e.r.Good) (a : Nat) :
    (e.adopt s.env f a).r = s.adoptedBy a e.r ∧ (s.adoptedBy a e.r).Good := by
  have hn : ({ e.r with granted := some a, leaving := none, state := .tracking, unaccounted := false } : HelioRun).tidy.nothingRemains
      = e.r.adoptedOn a := by
    cases ho : e.r.owed with
    | none => simp [HelioRun.tidy, HelioRun.nothingRemains, HelioRun.adoptedOn, HelioRun.stopped, ho]
    | some o =>
      obtain ⟨m, c⟩ := o
      cases m <;> simp [HelioRun.tidy, HelioRun.nothingRemains, HelioRun.adoptedOn, HelioRun.stopped, ho]
  have hg := h.adoptedOn a
  unfold Edit.adopt State.adoptedBy
  rw [State.adoptionOwes_eq hf]
  cases s.adoptionOwes a e.r with
  | none => exact Edit.set_form _ ⟨hn, hg⟩
  | some c =>
    obtain ⟨h1, h2⟩ := hg.owing rfl (Or.inr (Or.inl rfl)) c
    refine Edit.set_form _ ⟨?_, h2⟩
    dsimp only
    rw [← h1, ← hn]
    unfold HelioRun.setOwed
    cases ho : e.r.owed with
    | none => simp [HelioRun.tidy, HelioRun.nothingRemains, ho]
    | some o =>
      obtain ⟨m, c⟩ := o
      cases m <;> simp [HelioRun.tidy, HelioRun.nothingRemains, ho]

/-- A heliostat found on an aim point (R80). -/
theorem Edit.foundOnAim_eq (hf : ∀ z, (f.zoneAt z).critical = (s.field.zoneAt z).critical) (h : e.r.Good) (a : Nat) :
    (e.foundOnAim s.env f a).r = s.foundOn a e.r ∧ (s.foundOn a e.r).Good := by
  unfold Edit.foundOnAim State.foundOn
  by_cases hp : (s.live.aimAt a).present = true
  · rw [if_pos hp, if_pos (show (s.env.live.aimAt a).present = true from hp)]
    exact Edit.adopt_eq hf h a
  · rw [if_neg hp, if_neg (show ¬ (s.env.live.aimAt a).present = true from hp)]
    obtain ⟨h1, h2⟩ := h.lostOff.owing rfl (Or.inr (Or.inr rfl)) (e.r.faultOr .survey)
    refine Edit.set_form _ ⟨?_, h2⟩
    rw [← h1]
    unfold HelioRun.setOwed
    cases ho : e.r.owed with
    | none => simp [HelioRun.tidy, HelioRun.nothingRemains, HelioRun.lostOff, HelioRun.stopped, ho]
    | some o =>
      obtain ⟨m, c⟩ := o
      cases m <;> simp [HelioRun.tidy, HelioRun.nothingRemains, HelioRun.lostOff, HelioRun.stopped, ho]

/-- Coming to rest by an answer. -/
theorem Edit.atRest_eq (h : e.r.Good) (c : Option Cause) (p : Rest) :
    (e.set c (e.r.atRest p)).r = e.r.by c (e.r.restedAt p) ∧ (e.r.by c (e.r.restedAt p)).Good :=
  Edit.set_form c (h.atRest p)

/-- An UNSURE record made of one that holds no aim (R80). -/
theorem HelioRun.Good.toUnsure {r : HelioRun} (h : r.Good) (hs : r.state = .silent ∨ r.state = .standby ∨ r.state = .stowed ∨ r.state = .unsure) :
    ({ r with state := .unsure } : HelioRun).Good := by
  refine ⟨?_, ?_⟩
  · have hn : r.grantState = false := by rcases hs with hs | hs | hs | hs <;> simp [HelioRun.grantState, hs]
    obtain ⟨hg, hl⟩ := h.sound.no_aims hn
    have := h.sound
    rcases hs with hs | hs | hs | hs <;> simp_all [HelioRun.Sound, HelioRun.grantState]
  · obtain ⟨h1, h2, h3, h4, h5, h6, h7, h8⟩ := h.tidy
    rcases hs with hs | hs | hs | hs <;> constructor <;> simp_all

/-- The table of R80. -/
theorem Edit.positionAtRest_eq (hf : ∀ z, (f.zoneAt z).critical = (s.field.zoneAt z).critical) (h : e.r.Good) (p : Position) :
    (e.positionAtRest s.env f p).r = s.placedAtRest p e.r ∧ (s.placedAtRest p e.r).Good := by
  unfold Edit.positionAtRest State.placedAtRest
  cases hs : e.r.state <;> dsimp only
  case silent => exact Edit.set_good _ (h.toUnsure (Or.inl hs))
  case faulted =>
    cases p with
    | onAim a =>
      dsimp only
      by_cases hp : (s.live.aimAt a).present = true
      · rw [if_pos hp, if_pos (show (s.env.live.aimAt a).present = true from hp)]
        exact Edit.adopt_eq hf h a
      · rw [if_neg hp, if_neg (show ¬ (s.env.live.aimAt a).present = true from hp)]
        exact ⟨rfl, h⟩
    | _ => exact ⟨rfl, h⟩
  case unsure =>
    have hu : e.r.by (some .survey) { e.r with state := .unsure } = e.r := by
      rw [show ({ e.r with state := .unsure } : HelioRun) = e.r by rw [← hs]]
      exact HelioRun.by_self _ _
    cases p with
    | onAim a => exact Edit.foundOnAim_eq hf h a
    | moving u v b => exact ⟨hu.symm, hu.symm ▸ h⟩
    | clear => exact ⟨hu.symm, hu.symm ▸ h⟩
    | atStandby => exact Edit.atRest_eq h _ _
    | stowed => exact Edit.atRest_eq h _ _
  case standby =>
    cases p with
    | onAim a => exact Edit.foundOnAim_eq hf h a
    | moving u v b => exact Edit.set_good _ (h.toUnsure (Or.inr (Or.inl hs)))
    | clear => exact Edit.set_good _ (h.toUnsure (Or.inr (Or.inl hs)))
    | atStandby => exact Edit.atRest_eq h _ _
    | stowed => exact Edit.atRest_eq h _ _
  case stowed =>
    cases p with
    | onAim a => exact Edit.foundOnAim_eq hf h a
    | moving u v b => exact Edit.set_good _ (h.toUnsure (Or.inr (Or.inr (Or.inl hs))))
    | clear => exact Edit.set_good _ (h.toUnsure (Or.inr (Or.inr (Or.inl hs))))
    | atStandby => exact Edit.atRest_eq h _ _
    | stowed => exact Edit.atRest_eq h _ _
  all_goals exact ⟨rfl, h⟩

/-- The test of a MOVING class, as the statements write it. -/
theorem Position.movingTo_iff (u v : Bool) (b : Nat) (g : Option Nat) :
    (Position.moving u v b).movingTo g = true ↔ u = true ∧ v = false ∧ g = some b := by
  cases u <;> cases v <;> simp [Position.movingTo]

/-- A heliostat that stands elsewhere is owed DEFOCUS, cause DRIVE LEFT (R77, R78). -/
theorem Edit.driveLeft_eq (h : e.r.Good) (hq : e.r.queued = false) (hs : e.r.state = .slewing ∨ e.r.state = .tracking) :
    (e.owe .defocus .driveLeft .driveLeft).r = e.r.by (some .driveLeft) (e.r.owing .driveLeft)
      ∧ (e.r.by (some .driveLeft) (e.r.owing .driveLeft)).Good := by
  have := Edit.owe_eq h (hs.imp id Or.inl) .driveLeft
  rw [HelioRun.sentOff_owing hq (by rcases hs with hs | hs <;> simp [hs])] at this
  exact this

/-- R77, TRACKING. -/
theorem Edit.positionTracking_eq (h : e.r.Good) (hs : e.r.state = .tracking) (p : Position) :
    (e.positionTracking p).r = e.r.placedTracking p ∧ (e.r.placedTracking p).Good := by
  have hd := Edit.driveLeft_eq h (h.sound.not_queued (by simp [hs])) (Or.inr hs)
  unfold Edit.positionTracking HelioRun.placedTracking
  cases p with
  | onAim a =>
    dsimp only
    by_cases hg : e.r.granted = some a
    · rw [if_pos hg, if_pos hg]; exact ⟨rfl, h⟩
    · rw [if_neg hg, if_neg hg]; exact hd
  | moving u v b =>
    dsimp only
    by_cases hg : u = true ∧ v = false ∧ e.r.granted = some b
    · rw [if_pos hg, if_pos ((Position.movingTo_iff u v b _).2 hg)]; exact ⟨rfl, h⟩
    · rw [if_neg hg, if_neg (fun hm => hg ((Position.movingTo_iff u v b _).1 hm))]; exact hd
  | clear => exact Edit.atRest_eq h _ _
  | atStandby => exact Edit.atRest_eq h _ _
  | stowed => exact Edit.atRest_eq h _ _

/-- An arrival on the granted aim. -/
theorem Edit.arriveOnAim_eq (h : e.r.Good) (hs : e.r.state = .slewing) :
    (e.arriveOnAim).r = e.r.by e.r.motionCause e.r.arrived ∧ (e.r.by e.r.motionCause e.r.arrived).Good := by
  have hg : e.r.granted.isSome := by rw [h.sound.1]; simp [HelioRun.grantState, hs]
  refine Edit.set_form _ ⟨?_, h.arrived hg⟩
  cases ho : e.r.owed with
  | none => simp [HelioRun.tidy, HelioRun.nothingRemains, HelioRun.arrived, HelioRun.stopped, ho]
  | some o =>
    obtain ⟨m, c⟩ := o
    cases m <;> simp [HelioRun.tidy, HelioRun.nothingRemains, HelioRun.arrived, HelioRun.stopped, ho]

/-- R77, SLEWING with accepted yes. -/
theorem Edit.positionSlewing_eq (h : e.r.Good) (hs : e.r.state = .slewing) (ha : e.r.accepted = true) (p : Position) :
    (e.positionSlewing p).r = e.r.placedSlewing p ∧ (e.r.placedSlewing p).Good := by
  have hq : e.r.queued = false := by
    by_contra hq
    have := (h.sound.2.2.2.2.2.2.2 (by simpa using hq)).2.1
    simp [ha] at this
  have hd := Edit.driveLeft_eq h hq (Or.inl hs)
  unfold Edit.positionSlewing HelioRun.placedSlewing
  cases p with
  | onAim a =>
    dsimp only
    by_cases hg : e.r.granted = some a
    · rw [if_pos hg, if_pos hg]; exact Edit.arriveOnAim_eq h hs
    · rw [if_neg hg, if_neg hg]
      by_cases hl : e.r.leaving = some a
      · rw [if_pos hl, if_pos hl]; exact ⟨rfl, h⟩
      · rw [if_neg hl, if_neg hl]; exact hd
  | moving u v b =>
    dsimp only
    by_cases hg : u = true ∧ v = false ∧ e.r.granted = some b
    · rw [if_pos hg, if_pos ((Position.movingTo_iff u v b _).2 hg)]; exact ⟨rfl, h⟩
    · rw [if_neg hg, if_neg (fun hm => hg ((Position.movingTo_iff u v b _).1 hm))]; exact hd
  | clear => exact Edit.set_good _ h.dropLeaving
  | atStandby => exact Edit.atRest_eq h _ _
  | stowed => exact Edit.atRest_eq h _ _

/-- R78 where the drive stands elsewhere. -/
theorem Edit.unexpected_eq (hf : ∀ z, (f.zoneAt z).critical = (s.field.zoneAt z).critical) (h : e.r.Good) (hs : e.r.state = .slewing)
    (p : Position) : (e.unexpected s.env f p).r = s.placedOff p e.r ∧ (s.placedOff p e.r).Good := by
  unfold Edit.unexpected State.placedOff
  by_cases hq : e.r.queued = true
  · rw [if_pos hq, if_pos hq]
    obtain ⟨h1, h2⟩ := h.grantUndone
    have hr : (e.revoke .driveLeft).r = e.r.by (some .driveLeft) e.r.grantUndone := by
      unfold Edit.revoke
      rw [← h1]
    have hg : (e.revoke .driveLeft).r.Good := hr ▸ h2.by _
    rw [← hr]
    dsimp only
    by_cases ht : (e.revoke .driveLeft).r.state = .tracking
    · rw [if_pos ht, if_pos ht]; exact Edit.positionTracking_eq hg ht p
    · rw [if_neg ht, if_neg ht]; exact Edit.positionAtRest_eq hf hg p
  · rw [if_neg hq, if_neg hq]
    exact Edit.driveLeft_eq h (by simpa using hq) (Or.inl hs)

/-- R78, SLEWING with accepted no. -/
theorem Edit.positionUnaccepted_eq (hf : ∀ z, (f.zoneAt z).critical = (s.field.zoneAt z).critical) (h : e.r.Good)
    (hs : e.r.state = .slewing) (p : Position) :
    (e.positionUnaccepted s.env f p).r = s.placedUnaccepted p e.r ∧ (s.placedUnaccepted p e.r).Good := by
  have hu := Edit.unexpected_eq hf h hs p
  have hw := h.underWay hs s.now s.live.slewLimit
  have hk : (e.takeUp s.env).r = e.r.underWay s.now s.live.slewLimit := rfl
  unfold Edit.positionUnaccepted State.placedUnaccepted
  cases p with
  | onAim a =>
    dsimp only
    by_cases hg : e.r.granted = some a
    · rw [if_pos hg, if_pos hg]
      exact Edit.arriveOnAim_eq (e := e.takeUp s.env) (hk ▸ hw) hs
    · rw [if_neg hg, if_neg hg]
      by_cases hl : e.r.leaving = some a
      · rw [if_pos hl, if_pos hl]; exact ⟨rfl, h⟩
      · rw [if_neg hl, if_neg hl]; exact hu
  | moving u v b =>
    dsimp only
    by_cases hg : u = true ∧ v = false ∧ e.r.granted = some b
    · rw [if_pos hg, if_pos ((Position.movingTo_iff u v b _).2 hg)]; exact ⟨rfl, hw⟩
    · rw [if_neg hg, if_neg (fun hm => hg ((Position.movingTo_iff u v b _).1 hm))]; exact hu
  | clear => exact Edit.set_good _ h.dropLeaving
  | atStandby =>
    dsimp only
    by_cases hr : e.r.reAim = false ∧ e.r.rest = .standby
    · rw [if_pos hr, if_pos hr]; exact ⟨rfl, h⟩
    · rw [if_neg hr, if_neg hr]; exact hu
  | stowed =>
    dsimp only
    by_cases hr : e.r.reAim = false ∧ e.r.rest = .stowed
    · rw [if_pos hr, if_pos hr]; exact ⟨rfl, h⟩
    · rw [if_neg hr, if_neg hr]; exact hu

/-- R79, RETURNING. -/
theorem Edit.positionReturning_eq (hf : ∀ z, (f.zoneAt z).critical = (s.field.zoneAt z).critical) (h : e.r.Good)
    (hs : e.r.state = .returning) (p : Position) :
    (e.positionReturning s.env f p).r = s.placedReturning p e.r ∧ (s.placedReturning p e.r).Good := by
  unfold Edit.positionReturning State.placedReturning
  cases p with
  | onAim a =>
    dsimp only
    by_cases hr : e.r.released = true
    · rw [if_pos hr, if_pos hr]; exact Edit.foundOnAim_eq hf h a
    · rw [if_neg hr, if_neg hr]; exact ⟨rfl, h⟩
  | moving u v b => exact ⟨rfl, h⟩
  | clear =>
    dsimp only
    by_cases hr : e.r.released = true
    · rw [if_pos hr, if_pos hr]; exact ⟨rfl, h⟩
    · rw [if_neg hr, if_neg hr]; exact Edit.set_good _ (h.released hs)
  | atStandby => exact Edit.atRest_eq h _ _
  | stowed => exact Edit.atRest_eq h _ _

/-- R79, LOST. -/
theorem Edit.positionLost_eq (hf : ∀ z, (f.zoneAt z).critical = (s.field.zoneAt z).critical) (h : e.r.Good)
    (hs : e.r.state = .lost) (p : Position) :
    (e.positionLost s.env f p).r = s.placedLost p e.r ∧ (s.placedLost p e.r).Good := by
  unfold Edit.positionLost State.placedLost
  cases p with
  | onAim a =>
    dsimp only
    by_cases hr : e.r.unaccounted = true ∧ (s.live.aimAt a).present = true
    · rw [if_pos hr, if_pos (show e.r.unaccounted = true ∧ (s.env.live.aimAt a).present = true from hr)]
      exact Edit.adopt_eq hf h a
    · rw [if_neg hr, if_neg (show ¬ (e.r.unaccounted = true ∧ (s.env.live.aimAt a).present = true) from hr)]
      have := Edit.owe_eq h (Or.inr (Or.inr (Or.inl hs))) (e.r.faultOr .silence)
      rw [HelioRun.sentOff_owing (h.sound.not_queued (by simp [hs])) (by simp [hs])] at this
      exact this
  | moving u v b => exact ⟨rfl, h⟩
  | clear =>
    refine Edit.set_form _ ⟨?_, h.unsure⟩
    cases ho : e.r.owed with
    | none => simp [HelioRun.tidy, HelioRun.nothingRemains, HelioRun.stopped, ho]
    | some o =>
      obtain ⟨m, c⟩ := o
      cases m <;> simp [HelioRun.tidy, HelioRun.nothingRemains, HelioRun.stopped, ho]
  | atStandby => exact Edit.atRest_eq h _ _
  | stowed => exact Edit.atRest_eq h _ _

/-- The position class by the heliostat's state (R77 to R80). -/
theorem Edit.positionByState_eq (hf : ∀ z, (f.zoneAt z).critical = (s.field.zoneAt z).critical) (h : e.r.Good) (p : Position) :
    (e.positionByState s.env f p).r = s.placed p e.r ∧ (s.placed p e.r).Good := by
  unfold Edit.positionByState State.placed
  cases hs : e.r.state <;> dsimp only
  case slewing =>
    by_cases ha : e.r.accepted = true
    · rw [if_pos ha, if_pos ha]; exact Edit.positionSlewing_eq h hs ha p
    · rw [if_neg ha, if_neg ha]; exact Edit.positionUnaccepted_eq hf h hs p
  case tracking => exact Edit.positionTracking_eq h hs p
  case returning => exact Edit.positionReturning_eq hf h hs p
  case lost => exact Edit.positionLost_eq hf h hs p
  case absent =>
    have : s.placedAtRest p e.r = e.r := by unfold State.placedAtRest; rw [hs]
    rw [this]
    exact ⟨rfl, h⟩
  all_goals exact Edit.positionAtRest_eq hf h p

/-- Rest with a fault cause present (R76). -/
theorem Edit.faultAtRest_eq (h : e.r.Good) (before : HelioRun) :
    (e.faultAtRest before).r = e.r.faultedAtRest before ∧ (e.r.faultedAtRest before).Good := by
  unfold Edit.faultAtRest HelioRun.faultedAtRest
  by_cases hr : (e.r.state = .standby ∨ e.r.state = .stowed) ∧ e.r.state ≠ before.state ∧ e.r.fault.isSome
  · rw [if_pos hr, if_pos hr]
    refine ⟨?_, h.faultedOff before.rest⟩
    have hn : e.r.grantState = false := by rcases hr.1 with hs | hs <;> simp [HelioRun.grantState, hs]
    obtain ⟨hg, hl⟩ := h.sound.no_aims hn
    have ht := HelioRun.tidy_eq h.sound h.tidy
    rw [← ht]
    rcases hr.1 with hs | hs <;>
      simp [HelioRun.faultedOff, HelioRun.stopped, HelioRun.clearOwed, HelioRun.tidy, hs, hg, hl]
  · rw [if_neg hr, if_neg hr]
    exact ⟨rfl, h⟩

/-! ### The third step of R76 -/

/-- A failure that the status carries (R76). -/
theorem Edit.failNow_eq (h : e.r.Good) (c : Cause) : (e.failNow c c).r = e.r.failedBy c ∧ (e.r.failedBy c).Good := by
  have h1 : (if e.r.holdsLoad then e.owe .defocus c c else e).r = (if e.r.holdsLoad then e.r.sentOff c else e.r)
      ∧ (if e.r.holdsLoad then e.r.sentOff c else e.r).Good := by
    by_cases hl : e.r.holdsLoad = true
    · rw [if_pos hl, if_pos hl]
      refine Edit.owe_eq h ?_ c
      have hg := h.sound.1
      rw [← h.sound.holdsLoad_eq, hl] at hg
      revert hg
      unfold HelioRun.grantState
      cases e.r.state <;> simp
    · rw [if_neg hl, if_neg hl]; exact ⟨rfl, h⟩
  unfold Edit.failNow HelioRun.failedBy
  dsimp only
  rw [← h1.1]
  have hg : (if e.r.holdsLoad then e.owe .defocus c c else e).r.Good := h1.1 ▸ h1.2
  generalize (if e.r.holdsLoad then e.owe .defocus c c else e) = e1 at hg ⊢
  by_cases hx : e1.r.holdsLoad = true ∨ e1.r.state = .faulted
  · rw [if_pos hx, if_pos hx]; exact ⟨rfl, hg⟩
  · rw [if_neg hx, if_neg hx]
    have hl : e1.r.granted = none ∧ e1.r.leaving = none := by
      simp only [HelioRun.holdsLoad, Bool.or_eq_true, not_or, Bool.not_eq_true, Option.isSome_eq_false_iff, Option.isNone_iff_eq_none] at hx
      exact hx.1
    refine Edit.set_form _ ⟨?_, hg.faultedOff _⟩
    simp [HelioRun.tidy, HelioRun.nothingRemains, HelioRun.faultedOff, HelioRun.stopped, HelioRun.clearOwed, hl]

/-- The third step of R76. -/
theorem Edit.statusConsequences_eq (h : e.r.Good) (st : Status) :
    (e.statusConsequences st).r = e.r.failedAsSaid st ∧ (e.r.failedAsSaid st).Good := by
  have h1 : (e.failBy st).r
      = (if st.fault then e.r.failedBy .driveFault else if st.localControl then e.r.failedBy .localControl else e.r)
      ∧ (e.failBy st).r.Good := by
    unfold Edit.failBy
    by_cases hf : st.fault = true
    · rw [if_pos hf, if_pos hf]
      have := Edit.failNow_eq h .driveFault
      exact ⟨this.1, this.1 ▸ this.2⟩
    · rw [if_neg hf, if_neg hf]
      by_cases hl : st.localControl = true
      · rw [if_pos hl, if_pos hl]
        have := Edit.failNow_eq h .localControl
        exact ⟨this.1, this.1 ▸ this.2⟩
      · rw [if_neg hl, if_neg hl]; exact ⟨rfl, h⟩
  unfold Edit.statusConsequences HelioRun.failedAsSaid
  dsimp only
  rw [← h1.1]
  have hg := h1.2
  generalize e.failBy st = e1 at hg ⊢
  by_cases hx : st.limit = true ∧ (e1.r.state = .slewing ∨ e1.r.state = .tracking)
  · rw [if_pos hx, if_pos (by simpa using hx)]
    exact Edit.owe_eq hg (hx.2.imp id Or.inl) .reject
  · rw [if_neg hx, if_neg (by simpa using hx)]
    exact ⟨rfl, hg⟩

/-- A status applied to a good record gives the record of the three steps of R76, a good one. -/
theorem Edit.status_eq (hf : ∀ z, (f.zoneAt z).critical = (s.field.zoneAt z).critical) (h : e.r.Good) (st : Status) :
    (e.status s.env f st).r = s.statused st e.r ∧ (s.statused st e.r).Good := by
  obtain ⟨h1, g1⟩ := Edit.statusFlags_eq h st
  have g1' : (e.statusFlags st).r.Good := h1 ▸ g1
  obtain ⟨h2, g2⟩ := Edit.positionByState_eq hf g1' st.position
  have g2' : ((e.statusFlags st).positionByState s.env f st.position).r.Good := h2 ▸ g2
  obtain ⟨h3, g3⟩ := Edit.faultAtRest_eq g2' (e.statusFlags st).r
  have g3' : ((e.statusFlags st).position s.env f st.position).r.Good := by
    unfold Edit.position
    exact h3 ▸ g3
  obtain ⟨h4, g4⟩ := Edit.statusConsequences_eq g3' st
  have he : ((e.statusFlags st).position s.env f st.position).r.failedAsSaid st = s.statused st e.r := by
    unfold Edit.position State.statused
    dsimp only
    rw [h3, h2, h1]
  exact ⟨he ▸ h4, he ▸ g4⟩

end Placed

end Sys2Proof.Machine
end

