-- ==== Sys2Proof/Laws/Checks.lean ====
section
/-! SUPPORT. Checks over the listed entries of the tables that establish, for one concrete state, the facts the statements assume. -/

namespace Sys2Proof.Machine

variable {α : Type}

/-- What holds of the blank value and of every listed entry holds at every index. -/
theorem Table.get_all {d : α} {t : Table α} {P : Nat → α → Prop} (hd : ∀ i, P i d) (ht : ∀ p ∈ t, P p.1 p.2) (i : Nat) :
    P i (Table.get d t i) := by
  induction t with
  | nil => exact hd i
  | cons q t ih =>
    rw [Table.get_cons]
    by_cases h : q.1 = i
    · rw [if_pos h]; have := ht q (by simp); rwa [h] at this
    · rw [if_neg h]; exact ih fun p hp => ht p (by simp [hp])

/-- What holds of the blank value at every unlisted index and of every listed entry holds at every index. -/
theorem Table.get_listed {d : α} {t : Table α} {P : Nat → α → Prop} (hd : ∀ i, (∀ p ∈ t, p.1 ≠ i) → P i d)
    (ht : ∀ p ∈ t, P p.1 p.2) (i : Nat) : P i (Table.get d t i) := by
  by_cases e : ∀ p ∈ t, p.1 ≠ i
  · rw [Table.get_of_unlisted d t i e]; exact hd i e
  · clear hd
    induction t with
    | nil => exact absurd (fun p hp => by simp at hp) e
    | cons q t ih =>
      rw [Table.get_cons]
      by_cases h : q.1 = i
      · rw [if_pos h]; have := ht q (by simp); rwa [h] at this
      · rw [if_neg h]
        refine ih (fun p hp => ht p (by simp [hp])) fun e' => e fun p hp => ?_
        rcases List.mem_cons.1 hp with rfl | hp
        · exact h
        · exact e' p hp

theorem Table.total_eq_zero {g : Nat → α → Nat} {t : Table α} (h : ∀ p ∈ t, g p.1 p.2 = 0) : Table.total g t = 0 :=
  List.sum_eq_zero fun n hn => by
    obtain ⟨p, hp, rfl⟩ := List.mem_map.1 hn
    exact h p hp

/-- Every sparse table is in canonical form. -/
def State.canonicalCheck (s : State) : Bool :=
  decide (Table.wf Config.heliostats HelioRun.blank s.field.helio) && decide (Table.wf Config.zones ZoneRun.blank s.field.zone)
    && decide (Table.wf Config.aimPoints 0 s.field.refs) && decide (Table.wf Config.segments Sxe.blank s.field.sxe)
    && decide (Table.wf Config.slots Slot.blank s.field.slot) && decide (Table.wf Config.zones false s.field.reports.zoneOwed)
    && decide (Table.wf Config.slots false s.field.reports.slotOwed)
    && decide (Table.wf Config.segments Deferred.empty s.ulp.deferred)

/-- Every table of a copy of the store is in canonical form. -/
def Tables.canonicalCheck (t : Tables) : Bool :=
  decide (Table.wf Config.heliostats HelioConfig.blank t.helio) && decide (Table.wf Config.aimPoints AimPoint.blank t.aim)
    && decide (Table.wf Config.standbyPoints StandbyPoint.blank t.standby) && decide (Table.wf Config.zones ZoneConfig.blank t.zone)
    && decide (Table.wf Config.zones criticalBlank t.critical)

/-- The check of a record (R6). -/
def HelioRun.soundCheck (r : HelioRun) : Bool :=
  r.granted.isSome == r.grantState && decide (r.leaving.isSome → r.state = .slewing ∧ r.granted ≠ r.leaving)
    && decide (r.destination.isSome ↔ r.state = .returning)
    && decide (r.motionCause.isSome ↔ r.state = .slewing ∨ r.state = .returning) && decide (r.released → r.state = .returning)
    && decide (r.accepted → r.state = .slewing) && decide (r.unaccounted → r.state = .lost)
    && decide (r.queued → r.state = .slewing ∧ r.accepted = false ∧ r.owed = none)

/-- The check of the lists. -/
def State.listsCheck (s : State) : Bool :=
  decide s.field.grants.Nodup && decide (∀ p ∈ s.field.helio, p.2.granted.isSome → p.1 ∈ s.field.grants)
    && decide (∀ h ∈ s.field.grants, (s.field.run h).granted.isSome)
    && decide (s.field.reports.queue.length ≤ Config.reportQueue) && decide s.field.reports.queue.Nodup
    && decide (∀ src ∈ s.field.reports.queue, s.field.reportOwed src = false)
    && decide (∀ p ∈ s.field.sxe, p.2.queue.length ≤ Config.moveQueue) && decide (s.ulp.rxBuf.length ≤ Config.rxFrames)

/-- The check of the accounts: the listed zones and aims are exact, and every aim held, with its zones, is listed. -/
def Field.accountsCheck (env : Env) (f : Field) : Bool :=
  decide (∀ p ∈ f.zone, p.2.committed = Table.total (fun h r => env.load h r p.1) f.helio)
    && decide (∀ p ∈ f.zone, p.2.pending = Table.total (fun h r => env.pendingLoad h r p.1) f.helio)
    && decide (∀ p ∈ f.refs, p.2 = Table.total (fun _ r => if p.1 ∈ r.aims then 1 else 0) f.helio)
    && decide (∀ p ∈ f.helio, ∀ a ∈ p.2.aims, a ∈ List.map Prod.fst f.refs)
    && decide (∀ p ∈ f.helio, ∀ a ∈ p.2.aims, ∀ q ∈ env.footprint a, q.1 ∈ List.map Prod.fst f.zone)

theorem Field.accounts_of_check {env : Env} {f : Field} (h : f.accountsCheck env) : f.AccountsExact env := by
  simp only [Field.accountsCheck, Bool.and_eq_true, decide_eq_true_eq] at h
  obtain ⟨⟨⟨⟨h1, h2⟩, h3⟩, h4⟩, h5⟩ := h
  have hz : ∀ z, (∀ p ∈ f.zone, p.1 ≠ z) → ∀ p ∈ f.helio, env.load p.1 p.2 z = 0 := by
    intro z hz p hp
    refine List.sum_eq_zero fun n hn => ?_
    obtain ⟨a, ha, rfl⟩ := List.mem_map.1 hn
    have hf : (env.footprint a).find? (fun q => q.1 == z) = none := by
      refine List.find?_eq_none.2 fun q hq => ?_
      obtain ⟨v, hv, e⟩ := List.mem_map.1 (h5 p hp a ha q hq)
      have := hz v hv
      simpa using fun e2 => this (e.trans e2)
    show env.contribution p.1 a z = 0
    simp [Env.contribution, shareOf, hf]
  refine ⟨fun z _ => ?_, fun z _ => ?_, fun a _ => ?_⟩
  · refine Table.get_listed (d := ZoneRun.blank)
      (P := fun z (v : ZoneRun) => v.committed = Table.total (fun h r => env.load h r z) f.helio) (fun z e => ?_) h1 z
    exact (Table.total_eq_zero (hz z e)).symm
  · refine Table.get_listed (d := ZoneRun.blank)
      (P := fun z (v : ZoneRun) => v.pending = Table.total (fun h r => env.pendingLoad h r z) f.helio) (fun z e => ?_) h2 z
    refine (Table.total_eq_zero fun p hp => ?_).symm
    simp only [Env.pendingLoad, hz z e p hp, ite_self]
  · refine Table.get_listed (d := 0)
      (P := fun a (n : Nat) => n = Table.total (fun _ r => if a ∈ r.aims then 1 else 0) f.helio) (fun a e => ?_) h3 a
    refine (Table.total_eq_zero fun p hp => if_neg fun ha => ?_).symm
    obtain ⟨q, hq, e'⟩ := List.mem_map.1 (h4 p hp a ha)
    exact e q hq e'

/-- The check of `State.Sound`. -/
def State.soundCheck (s : State) : Bool :=
  s.canonicalCheck && s.live.canonicalCheck && s.store.tables.canonicalCheck && s.field.helio.all (fun p => p.2.soundCheck)
    && s.listsCheck && s.field.accountsCheck s.env

theorem Tables.canonical_of_check {t : Tables} (h : t.canonicalCheck) : t.Canonical := by
  simp only [Tables.canonicalCheck, Bool.and_eq_true, decide_eq_true_eq] at h
  obtain ⟨⟨⟨⟨h1, h2⟩, h3⟩, h4⟩, h5⟩ := h
  exact ⟨h1, h2, h3, h4, h5⟩

theorem HelioRun.sound_of_check {r : HelioRun} (h : r.soundCheck) : r.Sound := by
  simp only [HelioRun.soundCheck, Bool.and_eq_true, decide_eq_true_eq, beq_iff_eq] at h
  obtain ⟨⟨⟨⟨⟨⟨⟨h1, h2⟩, h3⟩, h4⟩, h5⟩, h6⟩, h7⟩, h8⟩ := h
  exact ⟨h1, h2, h3, h4, h5, h6, h7, h8⟩

theorem State.sound_of_check {s : State} (h : s.soundCheck) : s.Sound := by
  simp only [State.soundCheck, Bool.and_eq_true, and_assoc] at h
  obtain ⟨h1, h2, h3, h4, h5, h6⟩ := h
  simp only [State.canonicalCheck, Bool.and_eq_true, decide_eq_true_eq] at h1
  simp only [State.listsCheck, Bool.and_eq_true, decide_eq_true_eq, and_assoc] at h5
  obtain ⟨⟨⟨⟨⟨⟨⟨c1, c2⟩, c3⟩, c4⟩, c5⟩, c6⟩, c7⟩, c8⟩ := h1
  obtain ⟨l1, l2, l3, l4, l5, l6, l7, l8⟩ := h5
  refine ⟨⟨⟨c1, c2, c3, c4, c5, c6, c7⟩, Tables.canonical_of_check h2, Tables.canonical_of_check h3, c8⟩, ?_,
    ⟨l1, fun h => ⟨l3 h, ?_⟩⟩, ⟨l4, l5, l6⟩, ?_, Field.accounts_of_check h6, l8⟩
  · exact Table.get_all (P := fun _ (r : HelioRun) => r.Sound) (fun _ => HelioRun.sound_blank)
      fun p hp => HelioRun.sound_of_check (List.all_eq_true.1 h4 p hp)
  · exact Table.get_all (P := fun h (r : HelioRun) => r.granted.isSome → h ∈ s.field.grants)
      (fun _ hh => by simp [HelioRun.blank] at hh) l2 h
  · exact Table.get_all (P := fun _ (x : Sxe) => x.queue.length ≤ Config.moveQueue) (fun _ => by simp [Sxe.blank]) l7

/-- The check of the budgets, the zones, the critical zones and the trip record. -/
abbrev State.ZoneCheck (s : State) : Prop :=
  (∀ z, z < Config.zones → (s.field.zoneAt z).budget = budgetOf (s.live.zoneAt z) s.watchOn (s.field.zoneAt z))
    ∧ (∀ p ∈ s.field.zone, p.2.overBudget = p.2.isOver ∧ p.2.unsheddable = p.2.inExcess
      ∧ (p.2.inExcess → ∀ h ∈ s.field.grants, (Work.of s.field).candidate s.env p.1 h = false)
      ∧ (p.2.critical → ∀ q ∈ s.field.helio, s.env.covers q.2 p.1 → q.2.isPending ∨ q.2.state = .lost))
    ∧ s.field.trip = ⟨s.field.anyCritical, s.field.anyNonCritical, s.field.trip.latch,
        assertedUnder s.live.watch.mode s.field.anyCritical s.field.anyNonCritical s.field.trip.latch⟩
    ∧ (s.live.watch.mode ≠ .latch → s.field.trip.latch = false)

theorem State.zones_of_check {s : State} (h : s.ZoneCheck) :
    s.BudgetsExact ∧ s.ZonesSettled ∧ s.CriticalCleared ∧ s.TripExact := by
  obtain ⟨h1, h2, h3, h4⟩ := h
  refine ⟨h1, ⟨?_, ?_, ?_⟩, ?_, h3, h4⟩
  · exact Table.get_all (P := fun _ (v : ZoneRun) => v.overBudget = v.isOver) (fun _ => by decide) fun p hp => (h2 p hp).1
  · exact Table.get_all (P := fun _ (v : ZoneRun) => v.unsheddable = v.inExcess) (fun _ => by decide) fun p hp => (h2 p hp).2.1
  · intro z h hx hg
    exact Table.get_all (P := fun z (v : ZoneRun) => v.inExcess → ∀ h ∈ s.field.grants, (Work.of s.field).candidate s.env z h = false)
      (fun _ hh => absurd hh (by decide)) (fun p hp => (h2 p hp).2.2.1) z hx h hg
  · intro z h hc hv
    exact Table.get_all
      (P := fun z (v : ZoneRun) => v.critical → ∀ h, s.env.covers (s.field.run h) z → (s.field.run h).isPending ∨ (s.field.run h).state = .lost)
      (fun _ hh => absurd hh (by decide))
      (fun p hp hc h => Table.get_all (P := fun _ (r : HelioRun) => s.env.covers r p.1 → r.isPending ∨ r.state = .lost)
        (fun _ hh => by simp [Env.covers, HelioRun.aims, HelioRun.blank] at hh) ((h2 p hp).2.2.2 hc) h) z hc h hv

/-- The check of `Field.ArbiterExact`. -/
abbrev Field.ArbiterCheck (f : Field) : Prop :=
  (f.arbiter.active.toList ++ f.arbiter.suspended ++ f.arbiter.waiting).Nodup
    ∧ (∀ k ∈ f.arbiter.active.toList, (f.slotAt k).state = .running ∨ (f.slotAt k).state = .waiting)
    ∧ (∀ k ∈ f.arbiter.suspended, (f.slotAt k).state = .suspended) ∧ (∀ k ∈ f.arbiter.waiting, (f.slotAt k).state = .pending)
    ∧ (∀ p ∈ f.slot, (p.2.state = .running ∨ p.2.state = .waiting → p.1 ∈ f.arbiter.active.toList)
      ∧ (p.2.state = .suspended → p.1 ∈ f.arbiter.suspended) ∧ (p.2.state = .pending → p.1 ∈ f.arbiter.waiting)
      ∧ (p.2.waitingOn.isSome ↔ p.2.state = .waiting))
    ∧ (f.arbiter.active.toList ++ f.arbiter.suspended).Pairwise (fun j k => f.levelOf j < f.levelOf k)
    ∧ (f.arbiter.active.toList = [] → f.arbiter.suspended = [] ∧ f.arbiter.waiting = [])
    ∧ ∀ a ∈ f.arbiter.active.toList, ∀ k ∈ f.arbiter.waiting, f.levelOf k < f.levelOf a → (f.slotAt a).insideHolding

theorem Field.arbiter_of_check {f : Field} (h : f.ArbiterCheck) : f.ArbiterExact := by
  obtain ⟨h1, h2, h3, h4, h5, h6, h7, h8⟩ := h
  have hm : ∀ k, k ∈ f.arbiter.active.toList ↔ f.arbiter.active = some k := fun k => by simp
  have g := fun k => Table.get_all (d := Slot.blank)
    (P := fun k (v : Slot) => (v.state = .running ∨ v.state = .waiting → k ∈ f.arbiter.active.toList)
      ∧ (v.state = .suspended → k ∈ f.arbiter.suspended) ∧ (v.state = .pending → k ∈ f.arbiter.waiting)
      ∧ (v.waitingOn.isSome ↔ v.state = .waiting)) (fun _ => by simp [Slot.blank]) h5 k
  exact ⟨h1, fun k => ⟨fun e => h2 k ((hm k).2 e), fun e => (hm k).1 ((g k).1 e)⟩, fun k => ⟨h3 k, (g k).2.1⟩,
    fun k => ⟨h4 k, (g k).2.2.1⟩, h6, fun e => h7 (by simp [e]), fun a k e => h8 a ((hm a).2 e) k, fun k => (g k).2.2.2⟩

/-- The check of `Field.LinesExact`. -/
abbrev Field.LinesCheck (env : Env) (f : Field) : Prop :=
  (∀ p ∈ f.sxe, (∀ x ∈ p.2.exchange.toList, env.segmentOf x.helio = p.1 ∧ (f.run x.helio).inFlight
        ∧ ((f.run x.helio).queued → x.kind = .query) ∧ (x.kind = .pass ↔ x.helio ∈ p.2.passSlot.toList.map PassReq.helio))
      ∧ (∀ q ∈ p.2.passSlot.toList, env.segmentOf q.helio = p.1 ∧ (f.run q.helio).inFlight ∧ (f.run q.helio).queued = false)
      ∧ (∀ e ∈ p.2.queue, env.segmentOf e.helio = p.1 ∧ (f.run e.helio).queued ∧ (f.run e.helio).granted = some e.aim)
      ∧ (p.2.queue.map Entry.helio).Nodup)
    ∧ ∀ p ∈ f.helio, (p.2.inFlight → p.1 ∈ (f.sxeAt (env.segmentOf p.1)).exchange.toList.map Exchange.helio
        ∨ p.1 ∈ (f.sxeAt (env.segmentOf p.1)).passSlot.toList.map PassReq.helio)
      ∧ (p.2.queued → p.1 ∈ (f.sxeAt (env.segmentOf p.1)).queue.map Entry.helio)

theorem Field.lines_of_check {env : Env} {f : Field} (h : f.LinesCheck env) : f.LinesExact env := by
  obtain ⟨h1, h2⟩ := h
  have g := fun k => Table.get_all (d := Sxe.blank)
    (P := fun k (y : Sxe) => (∀ x ∈ y.exchange.toList, env.segmentOf x.helio = k ∧ (f.run x.helio).inFlight
        ∧ ((f.run x.helio).queued → x.kind = .query) ∧ (x.kind = .pass ↔ x.helio ∈ y.passSlot.toList.map PassReq.helio))
      ∧ (∀ q ∈ y.passSlot.toList, env.segmentOf q.helio = k ∧ (f.run q.helio).inFlight ∧ (f.run q.helio).queued = false)
      ∧ (∀ e ∈ y.queue, env.segmentOf e.helio = k ∧ (f.run e.helio).queued ∧ (f.run e.helio).granted = some e.aim)
      ∧ (y.queue.map Entry.helio).Nodup) (fun _ => by simp [Sxe.blank]) h1 k
  have r := fun h => Table.get_all (d := HelioRun.blank)
    (P := fun h (r : HelioRun) => (r.inFlight → h ∈ (f.sxeAt (env.segmentOf h)).exchange.toList.map Exchange.helio
        ∨ h ∈ (f.sxeAt (env.segmentOf h)).passSlot.toList.map PassReq.helio)
      ∧ (r.queued → h ∈ (f.sxeAt (env.segmentOf h)).queue.map Entry.helio)) (fun _ => by simp [HelioRun.blank]) h2 h
  constructor
  · intro k x e; exact ⟨((g k).1 x (Option.mem_toList.2 e)).1, ((g k).1 x (Option.mem_toList.2 e)).2.1⟩
  · intro k x e; exact ⟨((g k).2.1 x (Option.mem_toList.2 e)).1, ((g k).2.1 x (Option.mem_toList.2 e)).2.1⟩
  · intro k x e; simpa [Field.sxeAt] using ((g k).1 x (Option.mem_toList.2 e)).2.2.2
  · intro h e; simpa using (r h).1 e
  · exact fun k => (g k).2.2.1
  · exact fun k => (g k).2.2.2
  · intro h e; simpa using (r h).2 e
  · intro k x e; exact ((g k).1 x (Option.mem_toList.2 e)).2.2.1
  · intro k x e; exact ((g k).2.1 x (Option.mem_toList.2 e)).2.2

/-- The check of `State.FieldSafeHeld`. -/
abbrev State.SafeCheck (s : State) : Prop :=
  s.osc.fieldSafe = true → s.osc.opState ≠ .operate ∧ (∀ w ∈ s.osc.wake.toList, w.requested = .hold)
    ∧ s.field.anyNonIdle = false ∧ (∀ p ∈ s.field.sxe, p.2.queue = [])
    ∧ ∀ p ∈ s.field.helio, p.2.holdsLoad → p.2.isPending ∨ p.2.state = .lost

theorem State.safe_of_check {s : State} (h : s.SafeCheck) : s.FieldSafeHeld := by
  intro e
  obtain ⟨h1, h2, h3, h4, h5⟩ := h e
  refine ⟨h1, fun w hw => h2 w (by simp [hw]), h3, ?_, ?_⟩
  · exact Table.get_all (P := fun _ (x : Sxe) => x.queue = []) (fun _ => rfl) h4
  · exact Table.get_all (P := fun _ (r : HelioRun) => r.holdsLoad → r.isPending ∨ r.state = .lost)
      (fun _ hh => by simp [HelioRun.holdsLoad, HelioRun.blank] at hh) h5

/-- The check of `Tables.InRange`. -/
abbrev Tables.RangeCheck (t : Tables) : Prop :=
  (∀ p ∈ t.helio, p.2.inRange = true) ∧ (∀ p ∈ t.aim, footprintOk p.2.footprint = true) ∧ (∀ p ∈ t.zone, p.2.inRange = true)
    ∧ (10 ≤ t.slewLimit ∧ t.slewLimit ≤ 600) ∧ ∀ p ∈ t.critical, p.2 ≤ 4095

theorem Tables.inRange_of_check {t : Tables} (h : t.RangeCheck) : t.InRange := by
  obtain ⟨h1, h2, h3, h4, h5⟩ := h
  exact ⟨Table.get_all (P := fun _ c => HelioConfig.inRange c = true) (fun _ => by decide) h1,
    Table.get_all (P := fun _ (a : AimPoint) => footprintOk a.footprint = true) (fun _ => by decide) h2,
    Table.get_all (P := fun _ c => ZoneConfig.inRange c = true) (fun _ => by decide) h3, h4,
    Table.get_all (P := fun _ n => n ≤ 4095) (fun _ => by decide) h5⟩

/-- The check of a tidy record. -/
def HelioRun.tidyCheck (r : HelioRun) : Bool :=
  decide (r.state ≠ .slewing → r.slewEnds = none ∧ r.origin = none ∧ r.reAim = false) && decide (r.leaving.isSome → r.reAim = true)
    && decide (r.state = .standby → r.rest = .standby) && decide (r.state = .stowed → r.rest = .stowed)
    && r.owed.toList.all (fun o =>
      decide (o.motion = .defocus → r.state ≠ .standby ∧ r.state ≠ .stowed ∧ r.state ≠ .returning)
        && decide (o.motion = .stow → r.state ≠ .stowed ∧ (r.state = .returning → r.destination = some .standby)))
    && decide (r.state = .faulted ∨ r.state = .silent → r.owed = none) && decide (r.silentCount ≤ 3 ∧ r.busyCount ≤ 3)

theorem HelioRun.tidy_of_check {r : HelioRun} (h : r.tidyCheck) : r.Tidy := by
  simp only [HelioRun.tidyCheck, Bool.and_eq_true, decide_eq_true_eq, List.all_eq_true] at h
  obtain ⟨⟨⟨⟨⟨⟨h1, h2⟩, h3⟩, h4⟩, h5⟩, h6⟩, h7⟩ := h
  exact ⟨h1, h2, h3, h4, fun c e => (h5 ⟨.defocus, c⟩ (by simp [e])).1 rfl, fun c e => (h5 ⟨.stow, c⟩ (by simp [e])).2 rfl, h6, h7⟩

/-- The destination of an owed-motion request (R66). -/
def ExKind.dest : ExKind → Option Dest
  | .owedMotion dest _ => some dest
  | .moveAim _ | .query | .pass => none

/-- An owed-motion request to `dest` can still move the heliostat. -/
abbrev HelioRun.CanReturn (dest : Dest) (r : HelioRun) : Prop :=
  r.state ≠ .absent ∧ r.state ≠ .stowed ∧ r.state ≠ .faulted ∧ r.state ≠ .silent ∧ (dest = .standby → r.state ≠ .returning)

/-- The check of `Field.Tidy`. -/
abbrev Field.TidyCheck (f : Field) : Prop :=
  f.helio.all (fun p => p.2.tidyCheck) = true
    ∧ ∀ p ∈ f.sxe, p.2.scan < 4096 ∧ p.2.settle < 4096 ∧ ∀ x ∈ p.2.exchange.toList, ∀ dest ∈ x.kind.dest.toList, (f.run x.helio).CanReturn dest

theorem Field.tidy_of_check {f : Field} (h : f.TidyCheck) : f.Tidy := by
  obtain ⟨h1, h2⟩ := h
  have g := fun k => Table.get_all (d := Sxe.blank)
    (P := fun _ (y : Sxe) => y.scan < 4096 ∧ y.settle < 4096 ∧ ∀ x ∈ y.exchange.toList, ∀ dest ∈ x.kind.dest.toList,
      (f.run x.helio).CanReturn dest) (fun _ => by simp [Sxe.blank]) h2 k
  refine ⟨Table.get_all (P := fun _ (r : HelioRun) => r.Tidy) (fun _ => HelioRun.tidy_of_check (by decide))
    fun p hp => HelioRun.tidy_of_check (List.all_eq_true.1 h1 p hp), fun k => ⟨(g k).1, (g k).2.1⟩, fun k x dest cause e hk => ?_⟩
  exact (g k).2.2 x (Option.mem_toList.2 e) dest (by simp [hk, ExKind.dest])

/-- The check of `State.OscExact`. -/
abbrev State.OscCheck (s : State) : Prop :=
  (s.osc.wake.isSome ↔ s.osc.opState = .waking) ∧ (∀ w ∈ s.osc.wake.toList, w.count ≤ 8)
    ∧ (s.osc.surveyEnds.isSome → s.osc.opState = .survey)
    ∧ (s.phase = .running → s.osc.opState = .survey → s.osc.surveyEnds.isSome)

theorem State.osc_of_check {s : State} (h : s.OscCheck) : s.OscExact :=
  ⟨h.1, fun w e => h.2.1 w (Option.mem_toList.2 e), h.2.2.1, h.2.2.2⟩

/-- The check of `State.PresenceExact`. -/
abbrev State.PresenceCheck (s : State) : Prop :=
  (∀ p ∈ s.live.helio, p.2.present = true → (s.field.run p.1).state ≠ .absent)
    ∧ ∀ p ∈ s.field.helio, (p.2.state ≠ .absent → (s.live.helioAt p.1).present = true)
      ∧ (p.2.state = .absent → p.2.inFlight = false ∧ p.2.owed = none)

theorem State.presence_of_check {s : State} (h : s.PresenceCheck) : s.PresenceExact := by
  have g := fun h' => Table.get_all (d := HelioConfig.blank)
    (P := fun h (c : HelioConfig) => c.present = true → (s.field.run h).state ≠ .absent) (fun _ hh => absurd hh (by decide)) h.1 h'
  have r := fun h' => Table.get_all (d := HelioRun.blank)
    (P := fun h (r : HelioRun) => (r.state ≠ .absent → (s.live.helioAt h).present = true)
      ∧ (r.state = .absent → r.inFlight = false ∧ r.owed = none))
    (fun _ => ⟨fun hh => absurd rfl hh, fun _ => ⟨rfl, rfl⟩⟩) h.2 h'
  exact ⟨fun h' => ⟨g h', (r h').1⟩, fun h' => (r h').2⟩

/-- The check of one slot for `Field.AwaitedExact`. -/
def Slot.awaitedCheck (v : Slot) : Bool :=
  match v.waitingOn with
  | some (.queueSpace _ members _) =>
    decide (members ≠ [] ∧ members.Pairwise (· < ·) ∧ ∀ h ∈ members, ∀ q ∈ v.settleSet, q.1 < h)
  | some (.timer _) | some .settle | some (.offReceiver _) | none => true

theorem Field.awaited_of_check {f : Field} (h : ∀ p ∈ f.slot, p.2.awaitedCheck = true) : f.AwaitedExact := by
  intro k j members short e
  have g := Table.get_all (d := Slot.blank) (P := fun _ (v : Slot) => v.awaitedCheck = true) (fun _ => by decide) h k
  unfold Slot.awaitedCheck at g
  rw [show (Table.get Slot.blank f.slot k).waitingOn = _ from e] at g
  simpa [Field.slotAt] using g

/-- Every check together. -/
def State.factsCheck (s : State) : Bool :=
  s.soundCheck && decide s.ZoneCheck && decide s.field.ArbiterCheck && decide (s.field.LinesCheck s.env) && decide s.SafeCheck
    && decide s.live.RangeCheck && decide s.store.tables.RangeCheck && decide s.field.TidyCheck && decide s.OscCheck
    && decide s.PresenceCheck && s.field.slot.all (fun p => p.2.awaitedCheck)

/-- Every fact the statements assume of a state. -/
structure State.Facts (s : State) : Prop where
  sound : s.Sound
  budgets : s.BudgetsExact
  zones : s.ZonesSettled
  critical : s.CriticalCleared
  trip : s.TripExact
  arbiter : s.field.ArbiterExact
  lines : s.field.LinesExact s.env
  safe : s.FieldSafeHeld
  live : s.live.InRange
  store : s.store.tables.InRange
  tidy : s.field.Tidy
  osc : s.OscExact
  presence : s.PresenceExact
  awaited : s.field.AwaitedExact

theorem State.facts_of_check {s : State} (h : s.factsCheck) : s.Facts := by
  simp only [State.factsCheck, Bool.and_eq_true, decide_eq_true_eq] at h
  obtain ⟨⟨⟨⟨⟨⟨⟨⟨⟨⟨h1, h2⟩, h3⟩, h4⟩, h5⟩, h6⟩, h7⟩, h8⟩, h9⟩, h10⟩, h11⟩ := h
  obtain ⟨g1, g2, g3, g4⟩ := State.zones_of_check h2
  exact ⟨State.sound_of_check h1, g1, g2, g3, g4, Field.arbiter_of_check h3, Field.lines_of_check h4, State.safe_of_check h5,
    Tables.inRange_of_check h6, Tables.inRange_of_check h7, Field.tidy_of_check h8, State.osc_of_check h9, State.presence_of_check h10,
    Field.awaited_of_check fun p hp => List.all_eq_true.1 h11 p hp⟩

end Sys2Proof.Machine
end

