-- ==== Sys2Proof/Laws/Resets.lean ====
section
/-! SUPPORT. The commands that make a reset or write a table: what they leave of the facts that every other command keeps by
`exec_steps`, and the facts kept by one step. -/

namespace Sys2Proof.Machine

/-! ### The facts together -/

/-- The facts about the field that every step keeps. -/
structure Field.Good (env : Env) (f : Field) : Prop where
  canonical : f.Canonical
  records : f.RecordsSound
  grants : f.GrantsExact
  reports : f.ReportsSound
  queues : f.QueuesBounded
  accounts : f.AccountsExact env

theorem Field.Prim.good {env : Env} {f g : Field} (hp : Field.Prim env.live f g) (hf : f.Good env) : g.Good env :=
  ⟨hp.canonical hf.canonical, hp.records hf.records, hp.grantsExact hf.grants, hp.reportsSound hf.reports,
    hp.queuesBounded hf.queues, hp.accounts hf.canonical hf.records hf.accounts⟩

theorem Field.Reach.good {env : Env} {f g : Field} (h : Field.Reach env.live f g) (hf : f.Good env) : g.Good env :=
  h.keeps (P := fun f => f.Good env) (fun _ _ hp hf => hp.good hf) hf

theorem Field.Good.congr {env env' : Env} {f : Field} (he : env'.live = env.live) (h : f.Good env) : f.Good env' :=
  ⟨h.canonical, h.records, h.grants, h.reports, h.queues, h.accounts.congr he⟩

/-! ### In reset -/

theorem Field.run_halt {f : Field} (hc : f.Canonical) (h : Nat) : f.halt.run h = { f.run h with slewEnds := none } :=
  Table.get_map (fun r : HelioRun => { r with slewEnds := none }) rfl hc.1 h

theorem Field.zoneAt_halt {f : Field} (hc : f.Canonical) (z : Nat) : f.halt.zoneAt z = { f.zoneAt z with staleEnds := none } :=
  Table.get_map (fun v : ZoneRun => { v with staleEnds := none }) rfl hc.2.1 z

theorem Field.sxeAt_halt {f : Field} (hc : f.Canonical) (g : Nat) : f.halt.sxeAt g = { f.sxeAt g with exchange := none } :=
  Table.get_map (fun x : Sxe => { x with exchange := none }) rfl hc.2.2.2.1 g

/-- A total over a mapped table of a quantity that the map leaves and that is 0 at the blank value. -/
theorem Table.total_map {α : Type} [DecidableEq α] {d : α} (t : Table α) (m : α → α) (q : Nat → α → Nat)
    (hm : ∀ i v, q i (m v) = q i v) (hd : ∀ i, q i d = 0) : Table.total q (Table.map d m t) = Table.total q t := by
  induction t with
  | nil => rfl
  | cons p t ih =>
    have hcons : Table.map d m (p :: t) = (if m p.2 = d then [] else [(p.1, m p.2)]) ++ Table.map d m t := by
      simp only [Table.map, List.filterMap_cons]
      by_cases hg : m p.2 = d <;> simp [hg]
    rw [hcons, show Table.total q (p :: t) = q p.1 p.2 + Table.total q t from rfl, ← ih]
    split
    · next hg =>
      have : q p.1 p.2 = 0 := by rw [← hm, hg, hd]
      rw [this, Nat.zero_add, List.nil_append]
    · rw [← hm p.1 p.2]
      rfl

theorem Field.halt_good {env : Env} {f : Field} (h : f.Good env) : f.halt.Good env := by
  have hc := h.canonical
  refine ⟨?_, fun j => ?_, ⟨h.grants.1, fun j => ?_⟩, ⟨h.reports.1, h.reports.2.1, fun src hs => ?_⟩, fun g => ?_, ?_⟩
  · obtain ⟨h1, h2, h3, h4, h5, h6, h7⟩ := hc
    exact ⟨Table.wf_map (fun r : HelioRun => { r with slewEnds := none }) h1,
      Table.wf_map (fun v : ZoneRun => { v with staleEnds := none }) h2, h3,
      Table.wf_map (fun x : Sxe => { x with exchange := none }) h4, Table.wf_map Slot.stopTimer h5, h6, h7⟩
  · rw [Field.run_halt hc]
    exact (h.records j).other rfl rfl rfl rfl rfl rfl rfl rfl rfl rfl
  · rw [Field.run_halt hc]
    exact h.grants.2 j
  · rw [← h.reports.2.2 src hs]
    refine Field.reportOwed_congr src rfl rfl rfl rfl (fun j _ => ?_)
    rw [Field.run_halt hc]
  · rw [Field.sxeAt_halt hc]
    exact h.queues g
  · obtain ⟨h1, h2, h3⟩ := h.accounts
    refine ⟨fun z hz => ?_, fun z hz => ?_, fun a ha => ?_⟩
    · rw [Field.zoneAt_halt hc]
      exact (h1 z hz).trans (Table.total_map (d := HelioRun.blank) f.helio (fun r : HelioRun => { r with slewEnds := none })
        (fun h r => env.load h r z) (fun _ _ => rfl) (fun h => env.load_blank h z)).symm
    · rw [Field.zoneAt_halt hc]
      exact (h2 z hz).trans (Table.total_map (d := HelioRun.blank) f.helio (fun r : HelioRun => { r with slewEnds := none })
        (fun h r => env.pendingLoad h r z) (fun _ _ => rfl) (fun h => env.pendingLoad_blank h z)).symm
    · exact (h3 a ha).trans (Table.total_map (d := HelioRun.blank) f.helio (fun r : HelioRun => { r with slewEnds := none })
        (fun _ r => if a ∈ r.aims then 1 else 0) (fun _ _ => rfl) (fun _ => rfl)).symm

/-! ### After a reset -/

/-- What a table reads is its blank value or a listed value. -/
theorem Table.get_blank_or_mem {α : Type} (d : α) (t : Table α) (i : Nat) :
    Table.get d t i = d ∨ ∃ p ∈ t, Table.get d t i = p.2 := by
  by_cases h : Table.get d t i = d
  · exact Or.inl h
  · exact Or.inr ⟨_, Table.mem_of_get h, rfl⟩

theorem HelioRun.sound_afterReset (r : HelioRun) : r.afterReset.Sound := by
  simp [HelioRun.Sound, HelioRun.afterReset, HelioRun.blank, HelioRun.grantState]

theorem HelioRun.aims_afterReset (r : HelioRun) : r.afterReset.aims = [] := rfl

theorem Field.run_afterReset (l : Tables) (b : Bool) (kept : Field) (h : Nat) :
    (kept.afterReset l b).run h = HelioRun.blank ∨ ∃ r : HelioRun, (kept.afterReset l b).run h = r.afterReset := by
  rcases Table.get_blank_or_mem HelioRun.blank (kept.afterReset l b).helio h with hb | ⟨p, hp, he⟩
  · exact Or.inl hb
  · obtain ⟨q, -, rfl⟩ := List.mem_map.1 hp
    exact Or.inr ⟨_, he⟩

theorem Field.zone_afterReset (l : Tables) (b : Bool) (kept : Field) :
    Table.wf Config.zones ZoneRun.blank (kept.afterReset l b).zone
      ∧ ∀ z, ((kept.afterReset l b).zoneAt z).committed = 0 ∧ ((kept.afterReset l b).zoneAt z).pending = 0 := by
  have key : ∀ (zs : List Nat) (t : Table ZoneRun), Table.wf Config.zones ZoneRun.blank t →
      (∀ z, (Table.get ZoneRun.blank t z).committed = 0 ∧ (Table.get ZoneRun.blank t z).pending = 0) →
      Table.wf Config.zones ZoneRun.blank (zs.foldl
        (fun t z => Table.set Config.zones ZoneRun.blank t z ((kept.zoneAt z).afterReset (l.zoneAt z) b)) t)
      ∧ ∀ z, (Table.get ZoneRun.blank (zs.foldl
        (fun t z => Table.set Config.zones ZoneRun.blank t z ((kept.zoneAt z).afterReset (l.zoneAt z) b)) t) z).committed = 0
        ∧ (Table.get ZoneRun.blank (zs.foldl
        (fun t z => Table.set Config.zones ZoneRun.blank t z ((kept.zoneAt z).afterReset (l.zoneAt z) b)) t) z).pending = 0 := by
    intro zs
    induction zs with
    | nil => exact fun t h1 h2 => ⟨h1, h2⟩
    | cons y zs ih =>
      intro t h1 h2
      refine ih _ (Table.wf_set _ _ h1) (fun z => ?_)
      rw [Table.get_set]
      split
      · exact ⟨rfl, rfl⟩
      · exact h2 z
  exact key (List.range Config.zones) [] (Table.wf_nil _ _) (fun z => ⟨rfl, rfl⟩)

/-- The field after a reset has every fact. -/
theorem Field.afterReset_good {env : Env} {l : Tables} (hl : l.Canonical) (b : Bool) {kept : Field} (hk : kept.Canonical) :
    (kept.afterReset l b).Good env := by
  have hrun := Field.run_afterReset l b kept
  obtain ⟨hz1, hz2⟩ := Field.zone_afterReset l b kept
  have haims : ∀ p ∈ (kept.afterReset l b).helio, p.2.aims = [] := by
    intro p hp
    obtain ⟨q, -, rfl⟩ := List.mem_map.1 hp
    exact HelioRun.aims_afterReset _
  have htot : ∀ q : Nat → HelioRun → Nat, (∀ i r, r.aims = [] → q i r = 0) → Table.total q (kept.afterReset l b).helio = 0 := by
    intro q hq
    unfold Table.total
    rw [List.map_congr_left (g := fun _ => 0) (fun p hp => hq p.1 p.2 (haims p hp))]
    simp
  refine ⟨⟨?_, hz1, Table.wf_nil _ _, Table.wf_nil _ _, Table.wf_map _ hk.2.2.2.2.1, Table.wf_nil _ _, Table.wf_nil _ _⟩,
    fun j => ?_, ⟨List.nodup_nil, fun j => ?_⟩, ⟨Nat.zero_le _, List.nodup_nil, by simp [Field.afterReset, Field.blank, Reports.empty]⟩,
    fun g => Nat.zero_le _, fun z hz => ?_, fun z hz => ?_, fun a ha => ?_⟩
  · refine ⟨?_, fun p hp => ?_⟩
    · refine List.pairwise_map.2 ((hl.1.1.filter _).imp ?_)
      exact fun h => h
    · obtain ⟨q, hq, rfl⟩ := List.mem_map.1 hp
      exact ⟨(hl.1.2 q (List.mem_filter.1 hq).1).1, by
        intro hc
        exact absurd (congrArg HelioRun.state hc) (by simp [HelioRun.afterReset, HelioRun.blank])⟩
  · rcases hrun j with h | ⟨r, h⟩ <;> rw [h]
    · exact HelioRun.sound_blank
    · exact HelioRun.sound_afterReset r
  · rcases hrun j with h | ⟨r, h⟩ <;> rw [h] <;> simp [Field.afterReset, Field.blank, HelioRun.blank, HelioRun.afterReset]
  · rw [(hz2 z).1, htot]
    intro i r hr
    simp [Env.load, hr]
  · rw [(hz2 z).2, htot]
    intro i r hr
    simp [Env.pendingLoad, Env.load, hr]
  · rw [htot]
    · rfl
    · intro i r hr
      simp [hr]

theorem Field.canonical_blank : Field.blank.Canonical :=
  ⟨Table.wf_nil _ _, Table.wf_nil _ _, Table.wf_nil _ _, Table.wf_nil _ _, Table.wf_nil _ _, Table.wf_nil _ _, Table.wf_nil _ _⟩

theorem State.steps_enterSurvey (c : StateCause) (s : State) : s.Steps (s.enterSurvey c) := by
  unfold State.enterSurvey
  simp only
  refine State.Steps.trans ?_ (State.steps_kick _)
  have h := (State.steps_osc s
    { opState := .survey, wake := none, surveyEnds := some (s.now + Config.surveyMs), adopted := 0, atRest := 0,
      leftLost := 0, counted := [], fieldSafe := s.fsafeAsserted, cause := c }).trans (State.steps_stateEvent _)
  split
  · exact h
  · exact h.trans (State.steps_enterHold _ _)

theorem Tables.canonical_blankPage {t : Tables} (h : t.Canonical) (p : PageRef) : (t.blankPage p).Canonical := by
  cases p
  · exact Tables.canonical_copyPage _ _ _ h
  · exact h

/-! ### The commands that make a reset -/

/-- Entering reset keeps every fact about the field. -/
theorem State.enterReset_good {k : ResetKind} {s : State} (h : s.field.Good s.env) :
    (s.enterReset k).field.Good (s.enterReset k).env := (Field.halt_good h).congr rfl

/-- What every reset but a power-on reset keeps outside the field. -/
theorem State.enterReset_frame (k : ResetKind) (s : State) : s.SameFrame (s.enterReset k) := ⟨rfl, id, id, id, fun _ h => h⟩

/-- The live tables loaded from a canonical store are canonical. -/
theorem State.canonical_loadTables {s : State} (h : s.store.tables.Canonical) : s.loadTables.live.Canonical :=
  Tables.canonical_foldl _ (fun _ _ h => Tables.canonical_blankPage h _) _ h

/-- The part as it comes up after a hard reset has every fact about the field. -/
theorem State.comeUp_good {k : ResetKind} {s : State} (hl : s.live.Canonical) : (s.comeUp k).field.Good (s.comeUp k).env := by
  have h := State.steps_enterSurvey k.cause { s with
    phase := .running, watchOn := true, sensorRx := none, ulp := Ulp.blank, field := Field.blank.afterReset s.live true }
  refine Field.Good.congr (env := s.env) (show (s.comeUp k).live = s.live from h.live) (h.field.good (env := s.env) ?_)
  exact Field.afterReset_good hl true Field.canonical_blank

/-- The part after a soft reset has every fact about the field. -/
theorem State.softReset_good {s : State} (hl : s.live.Canonical) (hf : s.field.Canonical) :
    s.softReset.field.Good s.softReset.env := by
  have h := State.steps_enterSurvey .softReset { s with
    field := s.field.afterReset s.live s.watchOn
    ulp := { s.ulp with waiting := none, deferred := [], readyOrder := [], tx := none } }
  refine Field.Good.congr (env := s.env) (show s.softReset.live = s.live from h.live) (h.field.good (env := s.env) ?_)
  exact Field.afterReset_good hl s.watchOn hf

/-- What the coming up after a hard reset leaves outside the field. -/
theorem State.comeUp_frame (k : ResetKind) (s : State) : (s.comeUp k).pending = s.pending ∧ (s.comeUp k).limitLock = s.limitLock
    ∧ (s.comeUp k).live = s.live ∧ (s.comeUp k).store = s.store ∧ (s.comeUp k).ulp = Ulp.blank
    ∧ (s.comeUp k).phase = .running := by
  unfold State.comeUp State.enterSurvey
  simp only
  split <;> exact ⟨rfl, rfl, rfl, rfl, rfl, rfl⟩

/-- What a soft reset leaves outside the field. -/
theorem State.softReset_frame (s : State) : s.softReset.pending = s.pending ∧ s.softReset.limitLock = s.limitLock
    ∧ s.softReset.live = s.live ∧ s.softReset.store = s.store ∧ s.softReset.ulp.rxBuf = s.ulp.rxBuf
    ∧ s.softReset.ulp.deferred = [] ∧ s.softReset.phase = s.phase := by
  unfold State.softReset State.enterSurvey
  simp only
  split <;> exact ⟨rfl, rfl, rfl, rfl, rfl, rfl, rfl⟩

end Sys2Proof.Machine
end

