-- ==== Sys2Proof/Laws/Writes.lean ====
section
/-! SUPPORT. TABLE WRITE: an accepted write changes no weight of a load holder and no footprint that is held, so the accounts stay
exact under the new live tables (R22, R25, R184), and what it changes in the field is a chain of primitive changes. -/

namespace Sys2Proof.Machine

/-! ### The live tables after a write -/

theorem Tables.helioAt_withRecord (t : Tables) (i : Nat) (r : Record) (h : Nat) : (t.withRecord i r).helioAt h = t.helioAt h
    ∨ ∃ c, r = .helio c ∧ h = i ∧ (t.withRecord i r).helioAt h = c := by
  cases r with
  | helio c =>
    by_cases hi : i = h ∧ i < Config.heliostats
    · refine Or.inr ⟨c, rfl, hi.1.symm, ?_⟩
      simp only [Tables.withRecord, Tables.helioAt, Table.get_set, if_pos hi]
    · refine Or.inl ?_
      simp only [Tables.withRecord, Tables.helioAt, Table.get_set, hi, if_false]
  | _ => exact Or.inl rfl

theorem Tables.aimAt_withRecord (t : Tables) (i : Nat) (r : Record) (a : Nat) : (t.withRecord i r).aimAt a = t.aimAt a
    ∨ ∃ c, r = .aim c ∧ a = i ∧ a < Config.aimPoints := by
  cases r with
  | aim c =>
    by_cases hi : i = a ∧ i < Config.aimPoints
    · exact Or.inr ⟨c, rfl, hi.1.symm, hi.1 ▸ hi.2⟩
    · refine Or.inl ?_
      simp only [Tables.withRecord, Tables.aimAt, Table.get_set, hi, if_false]
  | _ => exact Or.inl rfl

/-- A record that may be written changes the weight of no load holder. -/
theorem State.weight_of_writeFact {s : State} {i : Nat} {c : HelioConfig} (h : s.writeFact i (.helio c) = none) :
    c.weight = (s.live.helioAt i).weight ∨ (s.field.run i).holdsLoad = false := by
  unfold State.writeFact at h
  simp only at h
  split at h
  · cases h
  · next hn =>
    split at hn
    · refine Or.inr ?_
      unfold HelioRun.useFact at hn
      split at hn
      · cases hn
      · next hh => simpa using hh
    · next hd =>
      refine Or.inl ?_
      simp only [HelioConfig.coreDiffers, Bool.or_eq_true, not_or, bne_iff_ne, ne_eq, Decidable.not_not] at hd
      exact hd.1.2.symm

/-- An aim-point record that may be written is held by no heliostat. -/
theorem State.unheld_of_writeFact {s : State} {i : Nat} {a : AimPoint} (h : s.writeFact i (.aim a) = none) : s.field.refAt i = 0 := by
  unfold State.writeFact at h
  simp only at h
  split at h
  · cases h
  · omega

theorem HelioRun.aims_of_no_load {r : HelioRun} (h : r.holdsLoad = false) : r.aims = [] := by
  unfold HelioRun.holdsLoad at h
  simp only [Bool.or_eq_false_iff, Option.isSome_eq_false_iff, Option.isNone_iff_eq_none] at h
  simp [HelioRun.aims, h]

/-- After the records of a write that may be taken, a load holder's weight and a held aim's record stand. -/
theorem State.live_after_write {s : State} (records : List (Nat × Record))
    (hw : ∀ p ∈ records, s.writeFact p.1 p.2 = none) {t : Tables}
    (h1 : ∀ h, (t.helioAt h).weight = (s.live.helioAt h).weight ∨ (s.field.run h).holdsLoad = false)
    (h2 : ∀ a, t.aimAt a = s.live.aimAt a ∨ (a < Config.aimPoints ∧ s.field.refAt a = 0)) :
    (∀ h, ((records.foldl (fun (l : Tables) (p : Nat × Record) => l.withRecord p.1 p.2) t).helioAt h).weight
        = (s.live.helioAt h).weight ∨ (s.field.run h).holdsLoad = false)
      ∧ ∀ a, (records.foldl (fun (l : Tables) (p : Nat × Record) => l.withRecord p.1 p.2) t).aimAt a = s.live.aimAt a
        ∨ (a < Config.aimPoints ∧ s.field.refAt a = 0) := by
  induction records generalizing t with
  | nil => exact ⟨h1, h2⟩
  | cons p ps ih =>
    refine ih (fun q hq => hw q (List.mem_cons_of_mem _ hq)) (fun h => ?_) (fun a => ?_)
    · rcases Tables.helioAt_withRecord t p.1 p.2 h with he | ⟨c, hc, hi, he⟩
      · rw [he]; exact h1 h
      · have hp := hw p (List.mem_cons_self)
        rw [hc] at hp
        rw [he, hi]
        exact State.weight_of_writeFact hp
    · rcases Tables.aimAt_withRecord t p.1 p.2 a with he | ⟨c, hc, hi, hlt⟩
      · rw [he]; exact h2 a
      · have hp := hw p (List.mem_cons_self)
        rw [hc] at hp
        exact Or.inr ⟨hlt, hi ▸ State.unheld_of_writeFact hp⟩

/-- A sum of naturals that is 0 has only zero terms. -/
theorem Table.total_zero {α : Type} {g : Nat → α → Nat} {t : Table α} (h : Table.total g t = 0) {p : Nat × α} (hp : p ∈ t) :
    g p.1 p.2 = 0 := by
  unfold Table.total at h
  exact List.sum_eq_zero_iff.1 h _ (List.mem_map.2 ⟨p, hp, rfl⟩)

/-- Two totals whose terms agree agree. -/
theorem Table.total_congr {α : Type} {g g' : Nat → α → Nat} {t : Table α} (h : ∀ p ∈ t, g p.1 p.2 = g' p.1 p.2) :
    Table.total g t = Table.total g' t := by
  unfold Table.total
  rw [List.map_congr_left h]

/-- The accounts stay exact under new live tables that leave every load holder's weight and every held footprint. -/
theorem Field.AccountsExact.newLive {env env' : Env} {f : Field} (hf : f.AccountsExact env) (hc : f.Canonical)
    (h1 : ∀ h, (env'.live.helioAt h).weight = (env.live.helioAt h).weight ∨ (f.run h).holdsLoad = false)
    (h2 : ∀ a, env'.live.aimAt a = env.live.aimAt a ∨ (a < Config.aimPoints ∧ f.refAt a = 0)) : f.AccountsExact env' := by
  have hload : ∀ p ∈ f.helio, ∀ z, env'.load p.1 p.2 z = env.load p.1 p.2 z := by
    intro p hp z
    have hr : f.run p.1 = p.2 := Table.get_of_mem hc.1 hp
    unfold Env.load
    refine congrArg List.sum (List.map_congr_left (fun a ha => ?_))
    have ha' : env'.live.aimAt a = env.live.aimAt a := by
      rcases h2 a with h | ⟨hlt, h⟩
      · exact h
      · rw [hf.2.2 a hlt] at h
        have := Table.total_zero h hp
        simp [ha] at this
    have hw : (env'.live.helioAt p.1).weight = (env.live.helioAt p.1).weight := by
      rcases h1 p.1 with h | h
      · exact h
      · rw [hr] at h
        rw [HelioRun.aims_of_no_load h] at ha
        exact absurd ha List.not_mem_nil
    unfold Env.contribution Env.footprint
    rw [hw, ha']
  refine ⟨fun z hz => ?_, fun z hz => ?_, hf.2.2⟩
  · rw [hf.1 z hz]
    exact Table.total_congr (fun p hp => (hload p hp z).symm)
  · rw [hf.2.1 z hz]
    refine Table.total_congr (fun p hp => ?_)
    unfold Env.pendingLoad
    rw [hload p hp z]

/-! ### The effects of an accepted write -/

theorem HelioRun.sound_present (b : Bool) : ({ HelioRun.blank with state := if b then .unsure else .absent } : HelioRun).Sound := by
  cases b <;> simp [HelioRun.Sound, HelioRun.blank, HelioRun.grantState]

theorem Work.reach_presence {env : Env} (h : Nat) (a b : Bool) (w : Work) :
    Field.Reach env.live w.fld (w.presence env h a b).fld := by
  unfold Work.presence
  split
  · exact Relation.ReflTransGen.refl
  · refine Work.reach_put h _ w (fun _ => HelioRun.Sound.by _ (HelioRun.sound_present b)) ?_
    rw [HelioRun.by_reportOwed]
    exact fun hb => Bool.noConfusion (show false = true from hb)

theorem Work.reach_rewatch {live : Tables} (old new : WatchSettings) (w : Work) : Field.Reach live w.fld (w.rewatch old new).fld := by
  have h : Field.Reach live w.fld (if new.mode = .latch ∧ old.mode ≠ .latch then
      { w with fld := { w.fld with trip := { w.fld.trip with latch := w.fld.trip.critical || w.fld.trip.nonCritical } } }
    else w).fld := by
    split
    · exact (Field.Prim.trip _).reach
    · exact Relation.ReflTransGen.refl
  unfold Work.rewatch
  simp only
  split
  · exact h
  · exact h.trans (Work.reach_report _ _)

theorem Work.reach_afterRecord {env : Env} (old : Tables) (w : Work) (p : Nat × Record) :
    Field.Reach env.live w.fld (w.afterRecord env old p).fld := by
  unfold Work.afterRecord
  split
  · exact Work.reach_presence _ _ _ w
  · exact Work.reach_rebudget _ w
  · exact Work.reach_rewatch _ _ w
  all_goals exact Relation.ReflTransGen.refl

/-- The records of a write whose checks all passed may be written. -/
theorem State.writeFact_of_writeRefusal {s : State} {t : TableId} {first : Nat} {written : List (Nat × List Byte)}
    (h : s.writeRefusal t first written = none) : ∀ p ∈ goodRecords t written, s.writeFact p.1 p.2 = none := by
  have hf : written.findSome? (s.recordRefusal t written) = none := by
    unfold State.writeRefusal at h
    split at h
    · cases h
    · split at h
      · cases h
      · split at h
        · cases h
        · split at h
          · cases h
          · split at h
            · cases h
            · exact h
  intro p hp
  obtain ⟨q, hq, hqp⟩ := List.mem_filterMap.1 hp
  have hr := List.findSome?_eq_none_iff.1 hf q hq
  unfold State.recordRefusal at hr
  cases hrd : readRecord t q.2 with
  | none => rw [hrd] at hqp; cases hqp
  | some rec =>
    rw [hrd] at hqp hr
    simp only [Option.map_some, Option.some.injEq] at hqp
    simp only at hr
    split at hr
    · cases hr
    · rw [← hqp]
      simpa using hr

/-- An accepted write keeps every fact about the field. -/
theorem State.acceptWrite_good {s : State} {t : TableId} {first : Nat} {written : List (Nat × List Byte)}
    (h : s.field.Good s.env) (hw : ∀ p ∈ goodRecords t written, s.writeFact p.1 p.2 = none) :
    (s.acceptWrite t first written).field.Good (s.acceptWrite t first written).env := by
  unfold State.acceptWrite
  simp only
  have hl := State.live_after_write (goodRecords t written) hw (t := s.live) (fun h => Or.inl rfl) (fun a => Or.inl rfl)
  generalize hs1 : ({ s with
      live := (goodRecords t written).foldl (fun (l : Tables) (p : Nat × Record) => l.withRecord p.1 p.2) s.live
      commit := some (.page t (pageStart first)) } : State) = s1
  have hf : s1.field = s.field := by rw [← hs1]
  have hg : s1.field.Good s1.env := by
    rw [hf]
    refine ⟨h.canonical, h.records, h.grants, h.reports, h.queues, h.accounts.newLive h.canonical ?_ ?_⟩
    · intro j
      rw [← hs1]
      exact hl.1 j
    · intro a
      rw [← hs1]
      exact hl.2 a
  have hst : s1.Steps (s1.change (fun w => (goodRecords t written).foldl (Work.afterRecord s1.env s.live) w)).kick :=
    (State.steps_change s1 _ (fun w => Work.reach_foldl _ (fun w p => Work.reach_afterRecord (env := s1.env) s.live w p) _ _)).trans
      (State.steps_kick _)
  exact Field.Good.congr (env := s1.env) (show _ = s1.live from hst.live) (hst.field.good (env := s1.env) hg)

/-- What an accepted write leaves outside the field. -/
theorem State.acceptWrite_frame (s : State) (t : TableId) (first : Nat) (written : List (Nat × List Byte)) :
    (s.acceptWrite t first written).pending = s.pending ∧ (s.acceptWrite t first written).limitLock = s.limitLock
      ∧ (s.acceptWrite t first written).ulp = s.ulp ∧ (s.acceptWrite t first written).store = s.store
      ∧ (s.acceptWrite t first written).osc = s.osc ∧ (s.acceptWrite t first written).phase = s.phase
      ∧ (s.acceptWrite t first written).commit = some (.page t (pageStart first))
      ∧ (s.acceptWrite t first written).live
        = (goodRecords t written).foldl (fun (l : Tables) (p : Nat × Record) => l.withRecord p.1 p.2) s.live :=
  ⟨rfl, rfl, rfl, rfl, rfl, rfl, rfl, rfl⟩

/-- A TABLE WRITE changes nothing, or is an accepted write of records that pass the checks. -/
theorem State.tableWriteOrder_cases (table : Byte) (first : Half) (count : Byte) (records : List Byte) (s : State) :
    (s.tableWriteOrder table first count records).2 = s
      ∨ ∃ t written, s.writeRefusal t first.toNat written = none
        ∧ (s.tableWriteOrder table first count records).2 = s.acceptWrite t first.toNat written := by
  unfold State.tableWriteOrder
  split
  · exact Or.inl rfl
  · next t _ =>
    simp only
    split
    · exact Or.inl rfl
    · split
      · exact Or.inl rfl
      · next hr => exact Or.inr ⟨_, _, hr, rfl⟩

/-- TABLE WRITE leaves the queue of commands, and the limit lock. -/
theorem execTableWrite_frame (tag table : Byte) (first : Half) (count : Byte) (records : List Byte) (s : State) :
    ∃ t, execTableWrite tag table first count records s = .next t ∧ t.pending = s.pending ∧ t.limitLock = s.limitLock := by
  refine ⟨_, rfl, ?_⟩
  unfold State.order
  split
  · rcases State.tableWriteOrder_cases table first count records s.popFrame with h | ⟨t, w, -, h⟩
    · simp only [State.answer, h]
      exact ⟨rfl, rfl⟩
    · simp only [State.answer, h]
      exact ⟨(State.acceptWrite_frame s.popFrame t first.toNat w).1, (State.acceptWrite_frame s.popFrame t first.toNat w).2.1⟩
  · exact ⟨rfl, rfl⟩

end Sys2Proof.Machine
end

