-- ==== Sys2Proof/Laws/Frames.lean ====
section
/-! SUPPORT. What the end of a change leaves alone: the SXEs' choices touch only in flight and queued, the trip record's
re-evaluation only the trip record, and a change that touches no zone calls for no test of the FAU. -/

namespace Sys2Proof.Machine

/-! ### The SXEs' choices -/

theorem Field.ChoiceOnly.refl (f : Field) : f.ChoiceOnly f := ⟨fun _ => Or.inl rfl, fun _ => Or.inl rfl, rfl⟩

theorem Field.ChoiceOnly.run_eq {f g : Field} (h : f.ChoiceOnly g) (j : Nat) :
    g.run j = { f.run j with inFlight := (g.run j).inFlight, queued := (g.run j).queued } := by
  rcases h.runs j with e | e
  · rw [e]
  · rw [e.1]

theorem Field.ChoiceOnly.trans {f g k : Field} (h1 : f.ChoiceOnly g) (h2 : g.ChoiceOnly k) : f.ChoiceOnly k := by
  refine ⟨fun h => ?_, fun n => ?_, ?_⟩
  · rcases h1.runs h with e1 | e1 <;> rcases h2.runs h with e2 | e2
    · exact Or.inl (e2.trans e1)
    · rw [e1] at e2; exact Or.inr e2
    · rw [e2]; exact Or.inr e1
    · refine Or.inr ⟨?_, fun hq => e1.2 (e2.2 hq)⟩
      rw [e2.1, e1.1]
  · rcases h1.sxes n with e1 | e1 <;> rcases h2.sxes n with e2 | e2
    · exact Or.inl (e2.trans e1)
    · rw [e1] at e2; exact Or.inr e2
    · rw [e2]; exact Or.inr e1
    · rw [e2.1] at e1; exact absurd e1.2.1 (fun h => Bool.noConfusion h)
  · rw [h2.others, h1.others]

theorem Field.choiceOnly_launch (env : Env) (g h : Nat) (k : ExKind) (req : List Byte) (x : Sxe) (f : Field)
    (hx : (f.sxeAt g).exchange = none) (hq : x.queue = (f.sxeAt g).queue ∨ x.queue = (f.sxeAt g).queue.tail)
    (hp : x.passSlot = (f.sxeAt g).passSlot) (hl : x.lastEnd = (f.sxeAt g).lastEnd) : f.ChoiceOnly (f.launch env g h k req x) := by
  unfold Field.launch
  refine ⟨fun j => ?_, fun n => ?_, rfl⟩
  · rw [Field.run_setSxe, Field.run_setRun]
    split
    · next hj =>
      refine Or.inr ⟨by rw [hj.1], fun hr => ?_⟩
      simp only [Bool.and_eq_true] at hr
      rw [← hj.1]; exact hr.1
    · exact Or.inl rfl
  · rw [Field.sxeAt_setSxe]
    split
    · next hn => rw [← hn.1]; exact Or.inr ⟨hx, rfl, hq, hp, hl⟩
    · exact Or.inl rfl

theorem Field.choiceOnly_begin (env : Env) (g : Nat) (c : Choice) (f : Field) (hx : (f.sxeAt g).exchange = none) :
    f.ChoiceOnly (f.begin env g c) := by
  unfold Field.begin
  simp only
  split
  · split
    · exact Field.choiceOnly_launch _ _ _ _ _ _ _ hx (Or.inl rfl) rfl rfl
    · exact .refl f
  · exact Field.choiceOnly_launch _ _ _ _ _ _ _ hx (Or.inl rfl) rfl rfl
  · exact Field.choiceOnly_launch _ _ _ _ _ _ _ hx (Or.inl rfl) rfl rfl
  · exact Field.choiceOnly_launch _ _ _ _ _ _ _ hx (Or.inr rfl) rfl rfl
  · exact Field.choiceOnly_launch _ _ _ _ _ _ _ hx (Or.inl rfl) rfl rfl
  · exact Field.choiceOnly_launch _ _ _ _ _ _ _ hx (Or.inl rfl) rfl rfl

theorem Field.choiceOnly_choose (env : Env) (b : Bool) (f : Field) (g : Nat) : f.ChoiceOnly (f.choose env b g) := by
  unfold Field.choose
  split
  · exact .refl f
  · next hx =>
    split
    · exact Field.choiceOnly_begin _ _ _ f (by simpa using hx)
    · exact .refl f

theorem Field.choiceOnly_foldl {β : Type} (op : Field → β → Field) (h : ∀ f b, Field.ChoiceOnly f (op f b)) (l : List β) (f : Field) :
    f.ChoiceOnly (l.foldl op f) := by
  induction l generalizing f with
  | nil => exact .refl f
  | cons b l ih => exact (h f b).trans (ih _)

/-- The SXEs' choices at the end of a change (R60). -/
theorem State.choiceOnly_kick (s : State) : s.field.ChoiceOnly s.kick.field :=
  Field.choiceOnly_foldl _ (fun f g => Field.choiceOnly_choose _ _ f g) _ _

/-- The choices change the field alone. -/
theorem State.kick_eq (s : State) : s.kick = { s with field := s.kick.field } := rfl

theorem Field.ChoiceOnly.zoneAt {f g : Field} (h : f.ChoiceOnly g) (z : Nat) : g.zoneAt z = f.zoneAt z := by rw [h.others]; rfl
theorem Field.ChoiceOnly.refAt {f g : Field} (h : f.ChoiceOnly g) (a : Nat) : g.refAt a = f.refAt a := by rw [h.others]; rfl
theorem Field.ChoiceOnly.slotAt {f g : Field} (h : f.ChoiceOnly g) (k : Nat) : g.slotAt k = f.slotAt k := by rw [h.others]; rfl
theorem Field.ChoiceOnly.grants {f g : Field} (h : f.ChoiceOnly g) : g.grants = f.grants := by rw [h.others]
theorem Field.ChoiceOnly.slot {f g : Field} (h : f.ChoiceOnly g) : g.slot = f.slot := by rw [h.others]
theorem Field.ChoiceOnly.zone {f g : Field} (h : f.ChoiceOnly g) : g.zone = f.zone := by rw [h.others]
theorem Field.ChoiceOnly.arbiter {f g : Field} (h : f.ChoiceOnly g) : g.arbiter = f.arbiter := by rw [h.others]
theorem Field.ChoiceOnly.trip {f g : Field} (h : f.ChoiceOnly g) : g.trip = f.trip := by rw [h.others]
theorem Field.ChoiceOnly.reports {f g : Field} (h : f.ChoiceOnly g) : g.reports = f.reports := by rw [h.others]
theorem Field.ChoiceOnly.state {f g : Field} (h : f.ChoiceOnly g) (j : Nat) : (g.run j).state = (f.run j).state := by rw [h.run_eq j]
theorem Field.ChoiceOnly.granted {f g : Field} (h : f.ChoiceOnly g) (j : Nat) : (g.run j).granted = (f.run j).granted := by rw [h.run_eq j]
theorem Field.ChoiceOnly.leaving {f g : Field} (h : f.ChoiceOnly g) (j : Nat) : (g.run j).leaving = (f.run j).leaving := by rw [h.run_eq j]
theorem Field.ChoiceOnly.owed {f g : Field} (h : f.ChoiceOnly g) (j : Nat) : (g.run j).owed = (f.run j).owed := by rw [h.run_eq j]
theorem Field.ChoiceOnly.unaccounted {f g : Field} (h : f.ChoiceOnly g) (j : Nat) :
    (g.run j).unaccounted = (f.run j).unaccounted := by rw [h.run_eq j]

/-! ### The trip record's re-evaluation -/

theorem Field.queueReport_trip_eq (f : Field) : f.queueReport .trip = { f with reports := (f.queueReport .trip).reports } := by
  unfold Field.queueReport
  split
  · rfl
  · split
    · rfl
    · split <;> rfl

theorem Field.queueReport_opState_eq (f : Field) : f.queueReport .opState = { f with reports := (f.queueReport .opState).reports } := by
  unfold Field.queueReport
  split
  · rfl
  · split
    · rfl
    · split <;> rfl

theorem Field.queueReport_slot_eq (f : Field) (k : Nat) : f.queueReport (.slot k) = { f with reports := (f.queueReport (.slot k)).reports } := by
  unfold Field.queueReport
  split
  · rfl
  · split
    · rfl
    · split <;> rfl

theorem Field.queueReport_zone_eq (f : Field) (z : Nat) : f.queueReport (.zone z) = { f with reports := (f.queueReport (.zone z)).reports } := by
  unfold Field.queueReport
  split
  · rfl
  · split
    · rfl
    · split <;> rfl

/-- The re-evaluation changes the trip record and the reports alone (R100, R101). -/
theorem Work.fld_evalTrip (env : Env) (w : Work) :
    (w.evalTrip env).fld = { w.fld with trip := (w.evalTrip env).fld.trip, reports := (w.evalTrip env).fld.reports } := by
  unfold Work.evalTrip
  simp only
  split
  · rfl
  · unfold Work.report
    simp only
    rw [Field.queueReport_trip_eq]

/-- After the re-evaluation the record is what R100 and R101 say of the causes, the latch and the mode. -/
theorem Work.trip_evalTrip (env : Env) (w : Work) : (w.evalTrip env).fld.trip =
    ⟨w.fld.anyCritical, w.fld.anyNonCritical, env.live.watch.mode == .latch && (w.fld.trip.latch || w.onset),
      assertedUnder env.live.watch.mode w.fld.anyCritical w.fld.anyNonCritical
        (env.live.watch.mode == .latch && (w.fld.trip.latch || w.onset))⟩ := by
  unfold Work.evalTrip
  simp only
  split
  · next h => exact h.symm
  · rw [Work.report_trip]

/-! ### Changes that touch no zone -/

theorem Work.settle_nil (env : Env) (n : Nat) {w : Work} (h : w.touched = []) : w.settle env n = w := by
  cases n with
  | zero => rfl
  | succ n => unfold Work.settle; rw [h]

theorem Work.settleNow_nil (env : Env) {w : Work} (h : w.touched = []) : w.settleNow env = w := Work.settle_nil env _ h

/-- A change that touches no zone ends with the trip record's re-evaluation alone. -/
theorem Work.finish_nil (env : Env) {w : Work} (h : w.touched = []) : w.finish env = (w.evalTrip env).fld := by
  unfold Work.finish
  rw [Work.settleNow_nil env h]

/-- The end of a change that touches no zone changes the trip record and the reports alone. -/
theorem Work.finish_eq (env : Env) {w : Work} (h : w.touched = []) :
    w.finish env = { w.fld with trip := (w.finish env).trip, reports := (w.finish env).reports } := by
  rw [Work.finish_nil env h]
  exact Work.fld_evalTrip env w

end Sys2Proof.Machine
end

