-- ==== Sys2Proof/Laws/Choices.lean ====
section
/-! SUPPORT. What an SXE may choose (R61, R64): present heliostats of its segment that are not in flight, the PASS it holds, or the
head of its Move Queue. -/

namespace Sys2Proof.Machine

/-- The choice is one that R61 and R64 offer: of a heliostat that the segment may choose, the held PASS, or the queue's head. -/
def Choice.Offered (env : Env) (seg : Nat) (f : Field) : Choice → Prop
  | .owed h => h ∈ f.choosable env seg ∧ (f.run h).servable = true
  | .pass p => (f.sxeAt seg).passSlot = some p
  | .resend h => h ∈ f.choosable env seg ∧ (f.run h).awaitsResend = true
  | .head e => (f.sxeAt seg).queue.head? = some e ∧ (f.run e.helio).inFlight = false
  | .settle h => h ∈ f.choosable env seg ∧ (f.run h).unsettled = true
  | .poll h => h ∈ f.choosable env seg

theorem Option.orElse_some {α : Type} {a : Option α} {b : Unit → Option α} {c : α} (h : a.orElse b = some c) :
    a = some c ∨ b () = some c := by
  cases a with
  | none => exact Or.inr h
  | some _ => exact Or.inl h

theorem mem_searchFrom {pointer h : Nat} {hs : List Nat} (hm : h ∈ searchFrom pointer hs) : h ∈ hs := by
  unfold searchFrom at hm
  rcases List.mem_append.1 hm with hm | hm <;> exact List.mem_of_mem_filter hm

theorem Field.mem_oldest {f : Field} {hs : List Nat} {h : Nat} (ho : f.oldest hs = some h) : h ∈ hs := by
  induction hs generalizing h with
  | nil => cases ho
  | cons k t ih =>
    unfold Field.oldest at ho
    cases hk : f.oldest t with
    | none => rw [hk] at ho; cases ho; exact List.mem_cons_self ..
    | some g =>
      rw [hk] at ho
      simp only at ho
      split at ho
      · cases ho; exact List.mem_cons_of_mem _ (ih hk)
      · cases ho; exact List.mem_cons_self ..

/-- A search from a pointer finds the offering heliostat at the least distance from it (R62, R63). -/
theorem searchFrom_first {pointer h : Nat} {hs : List Nat} {offers : Nat → Bool} (hp : pointer < 4096) (hs_lt : ∀ j ∈ hs, j < 4096)
    (hs_inc : hs.Pairwise (· < ·)) (hm : h ∈ hs) (ho : offers h = true)
    (hl : ∀ j ∈ hs, offers j = true → searchDistance pointer h ≤ searchDistance pointer j) :
    (searchFrom pointer hs).find? offers = some h := by
  have hne : (searchFrom pointer hs).find? offers ≠ none := fun e => by
    have := List.find?_eq_none.1 e h (by
      unfold searchFrom
      rcases Nat.lt_or_ge h pointer with hlt | hge
      · exact List.mem_append_right _ (List.mem_filter.2 ⟨hm, by simpa using hlt⟩)
      · exact List.mem_append_left _ (List.mem_filter.2 ⟨hm, by simpa using hge⟩))
    exact this ho
  obtain ⟨k, hk⟩ := Option.ne_none_iff_exists'.1 hne
  obtain ⟨hko, as, bs, happ, hno⟩ := List.find?_eq_some_iff_append.1 hk
  have hkm : k ∈ hs := mem_searchFrom (List.mem_of_find?_eq_some hk)
  have hle := hl k hkm hko
  have h1 := hs_lt h hm
  have h2 := hs_lt k hkm
  rw [hk]
  by_contra hc
  have hc : k ≠ h := fun e => hc (by rw [e])
  have hh : h ∈ searchFrom pointer hs := by
    unfold searchFrom
    rcases Nat.lt_or_ge h pointer with hlt | hge
    · exact List.mem_append_right _ (List.mem_filter.2 ⟨hm, by simpa using hlt⟩)
    · exact List.mem_append_left _ (List.mem_filter.2 ⟨hm, by simpa using hge⟩)
  have hafter : h ∈ bs := by
    rw [happ] at hh
    rcases List.mem_append.1 hh with e | e
    · exact absurd ho (by simpa using hno h e)
    · rcases List.mem_cons.1 e with e | e
      · exact absurd e.symm hc
      · exact e
  have hord : (searchFrom pointer hs).Pairwise (fun i j => searchDistance pointer i < searchDistance pointer j) := by
    unfold searchFrom
    refine List.pairwise_append.2 ⟨?_, ?_, ?_⟩
    · refine ((hs_inc.filter _).imp_of_mem ?_)
      intro i j hi hj hij
      have a1 := (List.mem_filter.1 hi); have a2 := (List.mem_filter.1 hj)
      have b1 := hs_lt i a1.1; have b2 := hs_lt j a2.1
      have c1 : pointer ≤ i := by simpa using a1.2
      unfold searchDistance; omega
    · refine ((hs_inc.filter _).imp_of_mem ?_)
      intro i j hi hj hij
      have a1 := (List.mem_filter.1 hi); have a2 := (List.mem_filter.1 hj)
      have b2 := hs_lt j a2.1
      have c2 : j < pointer := by simpa using a2.2
      unfold searchDistance; omega
    · intro i hi j hj
      have a1 := (List.mem_filter.1 hi); have a2 := (List.mem_filter.1 hj)
      have b1 := hs_lt i a1.1
      have c1 : pointer ≤ i := by simpa using a1.2
      have c2 : j < pointer := by simpa using a2.2
      unfold searchDistance; omega
  rw [happ] at hord
  have := (List.pairwise_cons.1 (List.pairwise_append.1 hord).2.1).1 h hafter
  omega

/-- The choice by age takes the heliostat of oldest last exchange, the lower index among equals (R61, R64). -/
theorem Field.oldest_first {f : Field} {hs : List Nat} {h : Nat} (hs_inc : hs.Pairwise (· < ·)) (hm : h ∈ hs)
    (hl : ∀ j ∈ hs, (f.run h).since < (f.run j).since ∨ ((f.run h).since = (f.run j).since ∧ h ≤ j)) : f.oldest hs = some h := by
  induction hs with
  | nil => cases hm
  | cons k t ih =>
    have hk := hl k (List.mem_cons_self ..)
    unfold Field.oldest
    rcases List.mem_cons.1 hm with rfl | hmt
    · cases ho : f.oldest t with
      | none => rfl
      | some g =>
        have hg := hl g (List.mem_cons_of_mem _ (Field.mem_oldest ho))
        simp only
        rw [if_neg (by omega)]
    · have := (List.pairwise_cons.1 hs_inc).1 h hmt
      rw [ih (List.pairwise_cons.1 hs_inc).2 hmt fun j hj => hl j (List.mem_cons_of_mem _ hj)]
      simp only
      rw [if_pos (by omega)]

theorem Field.offered_owedHolder {env : Env} {seg : Nat} {f : Field} {scan : Nat} {c : Choice}
    (h : f.owedHolder scan (f.choosable env seg) = some c) : c.Offered env seg f := by
  unfold Field.owedHolder at h
  obtain ⟨k, h1, rfl⟩ := Option.map_eq_some_iff.1 h
  have h2 := List.find?_some h1
  simp only [Bool.and_eq_true] at h2
  exact ⟨mem_searchFrom (List.mem_of_find?_eq_some h1), h2.2⟩

theorem Field.offered_owedOther {env : Env} {seg : Nat} {f : Field} {scan : Nat} {c : Choice}
    (h : f.owedOther scan (f.choosable env seg) = some c) : c.Offered env seg f := by
  unfold Field.owedOther at h
  obtain ⟨k, h1, rfl⟩ := Option.map_eq_some_iff.1 h
  have h2 := List.find?_some h1
  simp only [Bool.and_eq_true] at h2
  exact ⟨mem_searchFrom (List.mem_of_find?_eq_some h1), h2.2⟩

theorem Field.offered_settlePoll {env : Env} {seg : Nat} {f : Field} {pointer : Nat} {c : Choice}
    (h : f.settlePoll pointer (f.choosable env seg) = some c) : c.Offered env seg f := by
  unfold Field.settlePoll at h
  obtain ⟨k, h1, rfl⟩ := Option.map_eq_some_iff.1 h
  exact ⟨mem_searchFrom (List.mem_of_find?_eq_some h1), List.find?_some (p := fun h => (f.run h).unsettled) h1⟩

theorem Field.offered_poll {env : Env} {seg : Nat} {f : Field} {hs : List Nat} {c : Choice} (hs_sub : ∀ h ∈ hs, h ∈ f.choosable env seg)
    (h : (f.oldest hs).map Choice.poll = some c) : c.Offered env seg f := by
  obtain ⟨k, h1, rfl⟩ := Option.map_eq_some_iff.1 h
  exact hs_sub _ (Field.mem_oldest h1)

theorem Field.offered_pass {env : Env} {seg : Nat} {f : Field} {c : Choice}
    (h : (f.sxeAt seg).passSlot.map Choice.pass = some c) : c.Offered env seg f := by
  obtain ⟨p, h1, rfl⟩ := Option.map_eq_some_iff.1 h
  exact h1

theorem Field.offered_aimChoice {env : Env} {seg : Nat} {f : Field} {c : Choice}
    (h : f.aimChoice (f.sxeAt seg) (f.choosable env seg) = some c) : c.Offered env seg f := by
  unfold Field.aimChoice at h
  rcases Option.orElse_some h with h | h
  · obtain ⟨k, h1, rfl⟩ := Option.map_eq_some_iff.1 h
    exact ⟨mem_searchFrom (List.mem_of_find?_eq_some h1), List.find?_some (p := fun h => (f.run h).awaitsResend) h1⟩
  · split at h
    · next e t hq =>
      split at h
      · cases h
      · next hf =>
        cases h
        exact ⟨by rw [hq]; rfl, by simpa using hf⟩
    · cases h

/-- Outside NIGHT a choice is one that R61 offers. -/
theorem Field.offered_chooseDay {env : Env} {seg : Nat} {f : Field} {c : Choice} (h : f.chooseDay env seg = some c) :
    c.Offered env seg f := by
  unfold Field.chooseDay at h
  rcases Option.orElse_some h with h | h
  · exact Field.offered_owedHolder h
  rcases Option.orElse_some h with h | h
  · exact Field.offered_poll (fun _ hm => List.mem_of_mem_filter hm) h
  rcases Option.orElse_some h with h | h
  · exact Field.offered_owedOther h
  rcases Option.orElse_some h with h | h
  · exact Field.offered_pass h
  rcases Option.orElse_some h with h | h
  · exact Field.offered_aimChoice h
  rcases Option.orElse_some h with h | h
  · exact Field.offered_settlePoll h
  · exact Field.offered_poll (fun _ hm => hm) h

/-- In NIGHT a choice is one that R64 offers. -/
theorem Field.offered_chooseNight {env : Env} {seg : Nat} {b : Bool} {f : Field} {c : Choice}
    (h : f.chooseNight env seg b = some c) : c.Offered env seg f := by
  unfold Field.chooseNight at h
  rcases Option.orElse_some h with h | h
  · exact Field.offered_owedHolder h
  rcases Option.orElse_some h with h | h
  · exact Field.offered_owedOther h
  rcases Option.orElse_some h with h | h
  · exact Field.offered_pass h
  rcases Option.orElse_some h with h | h
  · exact Field.offered_settlePoll h
  · split at h
    · exact Field.offered_poll (fun _ hm => List.mem_of_mem_filter hm) h
    · cases h

/-- A choice made, or none. -/
theorem Field.choose_cases (env : Env) (b : Bool) (f : Field) (seg : Nat) :
    f.choose env b seg = f ∨ ∃ c : Choice, c.Offered env seg f ∧ (f.sxeAt seg).exchange = none ∧ f.choose env b seg = f.begin env seg c := by
  unfold Field.choose
  split
  · exact Or.inl rfl
  · next hx =>
    split
    · next c hc =>
      refine Or.inr ⟨c, ?_, by simpa using hx, rfl⟩
      split at hc
      · exact Field.offered_chooseNight hc
      · exact Field.offered_chooseDay hc
    · exact Or.inl rfl

theorem Field.mem_choosable {env : Env} {seg h : Nat} {f : Field} (hm : h ∈ f.choosable env seg) :
    (∃ p ∈ env.live.present, p.1 = h ∧ p.2.segment = seg) ∧ (f.run h).inFlight = false := by
  unfold Field.choosable Tables.onSegment at hm
  rw [List.mem_filter] at hm
  obtain ⟨p, hp, rfl⟩ := List.mem_map.1 hm.1
  rw [List.mem_filter] at hp
  exact ⟨⟨p, hp.1, rfl, by simpa using hp.2⟩, by simpa using hm.2⟩

theorem Field.run_launch_other (env : Env) (seg h : Nat) (k : ExKind) (req : List Byte) (x : Sxe) (f : Field) {j : Nat} (hj : j ≠ h) :
    (f.launch env seg h k req x).run j = f.run j := by
  unfold Field.launch
  rw [Field.run_setSxe, Field.run_setRun, if_neg (fun c => hj c.1.symm)]

/-- With no queued aim and no PASS held, a choice leaves every heliostat that is not present. -/
theorem Field.choose_absent {env : Env} {b : Bool} {f : Field} {seg j : Nat} (hq : (f.sxeAt seg).queue = [])
    (hp : (f.sxeAt seg).passSlot = none) (hj : ∀ p ∈ env.live.present, p.1 ≠ j) : (f.choose env b seg).run j = f.run j := by
  rcases Field.choose_cases env b f seg with h | ⟨c, ho, -, h⟩
  · rw [h]
  · rw [h]
    have hne : ∀ k, k ∈ f.choosable env seg → j ≠ k := by
      intro k hk e
      obtain ⟨⟨p, h1, h2, -⟩, -⟩ := Field.mem_choosable hk
      exact hj p h1 (h2.trans e.symm)
    unfold Field.begin
    cases c with
    | owed k =>
      simp only
      split
      · exact Field.run_launch_other _ _ _ _ _ _ _ (hne k ho.1)
      · rfl
    | pass p => exact absurd (hp.symm.trans ho) (fun e => by cases e)
    | resend k => exact Field.run_launch_other _ _ _ _ _ _ _ (hne k ho.1)
    | head e => exact absurd ho.1 (by rw [hq]; exact fun e => by cases e)
    | settle k => exact Field.run_launch_other _ _ _ _ _ _ _ (hne k ho.1)
    | poll k => exact Field.run_launch_other _ _ _ _ _ _ _ (hne k ho)

theorem Field.ChoiceOnly.queue_nil {f g : Field} (h : f.ChoiceOnly g) {k : Nat} (hq : (f.sxeAt k).queue = []) : (g.sxeAt k).queue = [] := by
  rcases h.sxes k with e | ⟨-, -, e | e, -⟩
  · rw [e, hq]
  · rw [e, hq]
  · rw [e, hq]; rfl

theorem Field.ChoiceOnly.passSlot {f g : Field} (h : f.ChoiceOnly g) (k : Nat) : (g.sxeAt k).passSlot = (f.sxeAt k).passSlot := by
  rcases h.sxes k with e | e
  · rw [e]
  · exact e.2.2.2.1

theorem Field.ChoiceOnly.lastEnd {f g : Field} (h : f.ChoiceOnly g) (k : Nat) : (g.sxeAt k).lastEnd = (f.sxeAt k).lastEnd := by
  rcases h.sxes k with e | e
  · rw [e]
  · exact e.2.2.2.2

/-- With no queued aim and no PASS held on any segment, the choices leave every heliostat that is not present. -/
theorem State.kick_absent (s : State) {j : Nat} (hq : ∀ g, (s.field.sxeAt g).queue = [] ∧ (s.field.sxeAt g).passSlot = none)
    (hj : ∀ p ∈ s.live.present, p.1 ≠ j) : s.kick.field.run j = s.field.run j := by
  have key : ∀ (l : List Nat) (f : Field), (∀ g, (f.sxeAt g).queue = [] ∧ (f.sxeAt g).passSlot = none) →
      (l.foldl (Field.choose s.env false) f).run j = f.run j := by
    intro l
    induction l with
    | nil => exact fun _ _ => rfl
    | cons g l ih =>
      intro f hf
      have hc := Field.choiceOnly_choose s.env false f g
      refine (ih _ (fun k => ⟨hc.queue_nil (hf k).1, (hc.passSlot k).trans (hf k).2⟩)).trans ?_
      exact Field.choose_absent (hf g).1 (hf g).2 hj
  exact key _ _ hq

end Sys2Proof.Machine
end

