-- ==== Sys2Proof/Laws/Kept.lean ====
section
/-! SUPPORT. Every command keeps the facts of `State.Sound`. -/

namespace Sys2Proof.Machine

theorem State.Sound.good {s : State} (h : s.Sound) : s.field.Good s.env :=
  ⟨h.canonical.1, h.records, h.grants, h.reports, h.queues, h.accounts⟩

theorem State.sound_of {s : State} (h : s.field.Good s.env) (hl : s.live.Canonical)
    (hs : s.store.tables.Canonical)
    (hd : Table.wf Config.segments Deferred.empty s.ulp.deferred) (hb : s.ulp.rxBuf.length ≤ Config.rxFrames) : s.Sound :=
  ⟨⟨h.canonical, hl, hs, hd⟩, h.records, h.grants, h.reports, h.queues, h.accounts, hb⟩

theorem State.Steps.sound {s t : State} (h : s.Steps t) (hs : s.Sound) : t.Sound := by
  have hl : t.live = s.live := h.live
  refine State.sound_of (Field.Good.congr (env := s.env) hl (h.field.good (env := s.env) hs.good)) (hl ▸ hs.canonical.2.1)
    (h.frame.store hs.canonical.2.1 hs.canonical.2.2.1) (h.frame.deferred hs.canonical.2.2.2) (h.frame.buffer hs.buffer)

/-- TABLE_LOADING_DONE keeps the facts. -/
theorem execTableLoadingDone_sound {s t : State} (d : List PageRef) (hs : s.Sound) (he : execTableLoadingDone d s = .next t) :
    t.Sound := by
  have he := Host.Outcome.next.inj he
  subst he
  split
  · next k _ =>
    have hl := State.canonical_loadTables (s := { s with store := s.store.damage d }) hs.canonical.2.2.1
    have hf := State.comeUp_frame k ({ s with store := s.store.damage d }.loadTables)
    refine State.sound_of (State.comeUp_good hl) ?_ ?_ ?_ ?_
    · rw [hf.2.2.1]; exact hl
    · rw [hf.2.2.2.1]; exact hs.canonical.2.2.1
    · rw [hf.2.2.2.2.1]; exact Table.wf_nil _ _
    · rw [hf.2.2.2.2.1]; exact Nat.zero_le _
  · exact hs
  · exact hs

/-- TABLE WRITE keeps the facts. -/
theorem execTableWrite_sound {s t : State} (tag table : Byte) (first : Half) (count : Byte) (records : List Byte) (hs : s.Sound)
    (he : execTableWrite tag table first count records s = .next t) : t.Sound := by
  have he := Host.Outcome.next.inj he
  subst he
  unfold State.order
  split
  · have hp := (State.steps_popFrame s).sound hs
    refine (State.steps_answer _ _ _ _).sound ?_
    rcases State.tableWriteOrder_cases table first count records s.popFrame with h | ⟨t, w, hr, h⟩
    · rw [h]; exact hp
    · rw [h]
      have hf := State.acceptWrite_frame s.popFrame t first.toNat w
      refine State.sound_of (State.acceptWrite_good hp.good (State.writeFact_of_writeRefusal hr)) ?_ ?_ ?_ ?_
      · rw [hf.2.2.2.2.2.2.2]
        exact Tables.canonical_foldl _ (fun _ _ h => Tables.canonical_withRecord h _ _) _ hp.canonical.2.1
      · rw [hf.2.2.2.1]; exact hp.canonical.2.2.1
      · rw [hf.2.2.1]; exact hp.canonical.2.2.2
      · rw [hf.2.2.1]; exact hp.buffer
  · exact hs

/-- FRAME_SENT keeps the facts. -/
theorem execFrameSent_sound {s t : State} (hs : s.Sound) (he : execFrameSent s = .next t) : t.Sound := by
  have he := Host.Outcome.next.inj he
  subst he
  split
  · split
    · have h1 : State.Sound { s with ulp := { s.ulp with tx := none } } :=
        State.sound_of (Field.Good.congr (env := s.env) rfl hs.good) hs.canonical.2.1 hs.canonical.2.2.1 hs.canonical.2.2.2 hs.buffer
      simp only
      split
      · have hf := State.softReset_frame { s with ulp := { s.ulp with tx := none } }
        refine State.sound_of (State.softReset_good h1.canonical.2.1 h1.canonical.1) ?_ ?_ ?_ ?_
        · rw [hf.2.2.1]; exact h1.canonical.2.1
        · rw [hf.2.2.2.1]; exact h1.canonical.2.2.1
        · rw [hf.2.2.2.2.2.1]; exact Table.wf_nil _ _
        · rw [hf.2.2.2.2.1]; exact h1.buffer
      · exact h1
    · exact hs
  · exact hs

/-- Every command keeps the facts. -/
theorem exec_sound {s t : State} (c : Instr) (hs : s.Sound) (he : exec c s = .next t) : t.Sound := by
  by_cases hc : Instr.resetsOrWrites c = false
  · obtain ⟨t', h1, h2⟩ := exec_steps c hc s
    rw [h1] at he
    cases he
    exact h2.sound hs
  · cases c <;> first | exact absurd rfl hc | skip
    · cases he
      exact State.sound_of (Field.Good.congr (env := (s.enterReset .powerOn).env) rfl (State.enterReset_good hs.good))
        hs.canonical.2.1 hs.canonical.2.2.1 hs.canonical.2.2.2 hs.buffer
    · cases he
      exact State.sound_of (State.enterReset_good hs.good) hs.canonical.2.1 hs.canonical.2.2.1 hs.canonical.2.2.2 hs.buffer
    · exact execTableLoadingDone_sound _ hs he
    · exact execTableWrite_sound _ _ _ _ _ hs he
    · exact execFrameSent_sound hs he

end Sys2Proof.Machine
end

