-- ==== Sys2Proof/Laws/Loading.lean ====
section
/-! SUPPORT. What the loading of the tables reads, record by record (R180), and what every reset brings the blocks to. -/

set_option maxHeartbeats 1000000

namespace Sys2Proof.Machine

theorem Tables.mem_present (t : Tables) (h : t.Canonical) (i : Nat) : (∃ p ∈ t.present, p.1 = i) ↔ (t.helioAt i).present = true := by
  unfold Tables.present Tables.helioAt
  constructor
  · rintro ⟨p, hp, rfl⟩
    rw [List.mem_filter] at hp
    rw [Table.get_of_mem h.1 hp.1]
    exact hp.2
  · intro hp
    have : Table.get HelioConfig.blank t.helio i ≠ HelioConfig.blank := by
      intro e; rw [e] at hp; cases hp
    exact ⟨_, List.mem_filter.2 ⟨Table.mem_of_get this, hp⟩, rfl⟩

theorem Table.get_map_present (l : List (Nat × HelioConfig)) (g : Nat → HelioRun) (h : Nat) :
    Table.get HelioRun.blank (l.map (fun p => (p.1, g p.1))) h = if ∃ p ∈ l, p.1 = h then g h else HelioRun.blank := by
  induction l with
  | nil => simp
  | cons p l ih =>
    rw [List.map_cons, Table.get_cons, ih]
    by_cases e : p.1 = h
    · subst e; simp
    · rw [if_neg e]
      by_cases h2 : ∃ q ∈ l, q.1 = h
      · rw [if_pos h2, if_pos]
        obtain ⟨q, h3, h4⟩ := h2
        exact ⟨q, List.mem_cons_of_mem _ h3, h4⟩
      · rw [if_neg h2, if_neg]
        rintro ⟨q, h3, h4⟩
        rcases List.mem_cons.1 h3 with rfl | h3
        · exact e h4
        · exact h2 ⟨q, h3, h4⟩

theorem Field.run_afterReset_eq {l : Tables} (hl : l.Canonical) (b : Bool) (kept : Field) (h : Nat) :
    (kept.afterReset l b).run h = if (l.helioAt h).present then (kept.run h).afterReset else HelioRun.blank := by
  have := Table.get_map_present l.present (fun i => (kept.run i).afterReset) h
  refine this.trans ?_
  by_cases hp : (l.helioAt h).present = true
  · rw [if_pos ((Tables.mem_present l hl h).2 hp), if_pos hp]
  · rw [if_neg (fun c => hp ((Tables.mem_present l hl h).1 c)), if_neg hp]

theorem Field.zoneAt_afterReset (l : Tables) (b : Bool) (kept : Field) (z : Nat) (hz : z < Config.zones) :
    (kept.afterReset l b).zoneAt z = (kept.zoneAt z).afterReset (l.zoneAt z) b := by
  have key : ∀ (zs : List Nat) (t : Table ZoneRun), zs.Nodup → (∀ y ∈ zs, y < Config.zones) → 
      Table.get ZoneRun.blank (zs.foldl
        (fun t z => Table.set Config.zones ZoneRun.blank t z ((kept.zoneAt z).afterReset (l.zoneAt z) b)) t) z
        = if z ∈ zs then (kept.zoneAt z).afterReset (l.zoneAt z) b else Table.get ZoneRun.blank t z := by
    intro zs
    induction zs with
    | nil => intro t _ _; simp
    | cons y zs ih =>
      intro t hn hb
      rw [List.foldl_cons, ih _ (List.nodup_cons.1 hn).2 (fun w hw => hb w (List.mem_cons_of_mem _ hw)), Table.get_set]
      by_cases e : z ∈ zs
      · rw [if_pos e, if_pos (List.mem_cons_of_mem _ e)]
      · rw [if_neg e]
        by_cases e2 : y = z
        · subst e2; rw [if_pos ⟨rfl, hz⟩, if_pos (by simp)]
        · rw [if_neg (fun c => e2 c.1), if_neg]
          intro c
          rcases List.mem_cons.1 c with rfl | c
          · exact e2 rfl
          · exact e c
  refine (key (List.range Config.zones) [] List.nodup_range (fun y hy => List.mem_range.1 hy)).trans ?_
  rw [if_pos (List.mem_range.2 hz)]

theorem Field.endAll_idle (w : Work) (c : EndCause) (h : ∀ k, (w.fld.slotAt k).state.nonIdle = false) : (w.endAll c).1 = w := by
  unfold Work.endAll
  have : ∀ (l : List Nat) (n : Nat), (l.foldl
    (fun (p : Work × Nat) k => if (p.1.fld.slotAt k).state.nonIdle then (p.1.endSlot k c, p.2 + 1) else p) (w, n)) = (w, n) := by
    intro l
    induction l with
    | nil => exact fun _ => rfl
    | cons k l ih =>
      intro n
      rw [List.foldl_cons]
      simp only [h k]
      exact ih n
  exact congrArg Prod.fst (this _ 0)

theorem Field.queueReport_of_mem {src : Source} {f : Field} (h : src ∈ f.reports.queue) : f.queueReport src = f := by
  unfold Field.queueReport
  rw [if_pos h]

theorem State.stateEvent_of_mem {s : State} (h : .opState ∈ s.field.reports.queue) : s.stateEvent = s := by
  unfold State.stateEvent
  rw [Field.queueReport_of_mem h]

theorem State.surveyDone_idle (s : State) (h : ∀ k, (s.field.slotAt k).state.nonIdle = false) (hq : .opState ∈ s.field.reports.queue) :
    s.surveyDone = { s with osc := { s.osc with opState := .hold, wake := none, surveyEnds := none, cause := .surveyDone } } := by
  unfold State.surveyDone State.enterHold
  rw [Field.endAll_idle (Work.of s.field) .hold h]
  exact State.stateEvent_of_mem hq

theorem Slot.afterReset_idle (v : Slot) : v.afterReset.state.nonIdle = false := by
  unfold Slot.afterReset
  simp only
  split <;> rfl

theorem List.any_of_all (l : List (Nat × HelioConfig)) (p : Nat × HelioConfig → Bool) (h : ∀ q ∈ l, p q = true) : l.any p = !l.isEmpty := by
  cases l with
  | nil => rfl
  | cons a l => simp [h a (by simp)]

theorem State.surveyBegun_of (cause : StateCause) (kept : Field) (hk : kept.Canonical) (s : State) (hl : s.live.Canonical)
   (hf : s.field = kept.afterReset s.live s.watchOn) :
   (s.enterSurvey cause).SurveyBegun cause kept ∧ s.enterSurvey cause = { s with osc := (s.enterSurvey cause).osc, field := (s.enterSurvey cause).field } := by
  let o : Osc :=
    { opState := .survey, wake := none, surveyEnds := some (s.now + Config.surveyMs), adopted := 0, atRest := 0,
      leftLost := 0, counted := [], fieldSafe := s.fsafeAsserted, cause := cause }
  let f1 : Field := { s.field with reports := { Reports.empty with queue := [.opState] } }
  have hr : s.field.reports = Reports.empty := by rw [hf]; rfl
  have hf1 : s.field.queueReport .opState = f1 := by
    unfold Field.queueReport
    simp only [Field.reportOwed, hr]
    rfl
  have hslot : ∀ k, s.field.slotAt k = (kept.slotAt k).afterReset := by
    intro k; rw [hf]
    exact Table.get_map Slot.afterReset rfl hk.2.2.2.2.1 k
  have hrun : ∀ h, s.field.run h = if (s.live.helioAt h).present then (kept.run h).afterReset else HelioRun.blank := by
    intro h; rw [hf]; exact Field.run_afterReset_eq hl _ _ h
  have hany : ({ s with osc := o, field := f1 } : State).anyUnsure = !s.live.present.isEmpty := by
    refine List.any_of_all _ _ (fun q hq => ?_)
    have : (s.live.helioAt q.1).present = true := (Tables.mem_present _ hl _).1 ⟨q, hq, rfl⟩
    show ((s.field.run q.1).state == .unsure) = true
    rw [hrun, if_pos this]; rfl
  have hs2 : s.enterSurvey cause = State.kick { s with osc := (if s.live.present = [] then { o with opState := .hold, surveyEnds := none, cause := .surveyDone } else o), field := f1 } := by
    have hs1 : State.stateEvent { s with osc := o } = { s with osc := o, field := f1 } := by
      unfold State.stateEvent; rw [show ({ s with osc := o } : State).field = s.field from rfl, hf1]
    unfold State.enterSurvey
    simp only
    rw [show State.stateEvent _ = _ from hs1, hany]
    by_cases hp : s.live.present = []
    · rw [hp]
      simp only [List.isEmpty_nil, Bool.not_true, Bool.false_eq_true, if_false, if_true]
      rw [State.surveyDone_idle ({ s with osc := o, field := f1 }) ?_ ?_]
      · intro k
        show ((s.field.slotAt k).state.nonIdle) = false
        rw [hslot]
        exact Slot.afterReset_idle _
      · show _ ∈ [Source.opState]
        simp
    · have : s.live.present.isEmpty = false := by simpa using hp
      rw [this, if_neg hp]; rfl
  have hch : f1.ChoiceOnly (s.enterSurvey cause).field := by
    rw [hs2]
    exact State.choiceOnly_kick { s with osc := (if s.live.present = [] then { o with opState := .hold, surveyEnds := none, cause := .surveyDone } else o), field := f1 }
  have heq : s.enterSurvey cause = { s with osc := (if s.live.present = [] then { o with opState := .hold, surveyEnds := none, cause := .surveyDone } else o), field := (s.enterSurvey cause).field } := by
    rw [hs2]; rfl
  have hosc := congrArg State.osc heq
  have hlive := congrArg State.live heq
  refine ⟨⟨?_, ?_, ?_, ?_, ?_, ?_, ?_⟩, by rw [hosc]; exact heq⟩
  · intro h
    rw [hlive]
    show _ = if (s.live.helioAt h).present then _ else _
    have e := hch.runs h
    have er : f1.run h = _ := hrun h
    rw [er] at e
    split
    · next hp =>
      rw [if_pos hp] at e
      rcases e with e | ⟨e, eq⟩
      · rw [e]; rfl
      · rw [e]
        have : ((s.enterSurvey cause).field.run h).queued = false := by
          cases hq : ((s.enterSurvey cause).field.run h).queued with
          | false => rfl
          | true => have := eq hq; cases this
        simp only [this]; rfl
    · next hp =>
      rw [if_neg hp] at er
      have hab : (s.enterSurvey cause).field.run h = f1.run h := by
        rw [hs2]
        refine State.kick_absent _ (fun g => ?_) (fun p hpp e => hp ?_)
        · have : (f1.sxeAt g) = Sxe.blank := by show s.field.sxeAt g = _; rw [hf]; rfl
          show (f1.sxeAt g).queue = [] ∧ (f1.sxeAt g).passSlot = none
          rw [this]; exact ⟨rfl, rfl⟩
        · exact (Tables.mem_present _ hl _).1 ⟨p, hpp, e⟩
      rw [hab, er]
  · intro z hz
    have e : (s.enterSurvey cause).field.zoneAt z = (kept.zoneAt z).afterReset (s.live.zoneAt z) s.watchOn := by
      rw [hch.zoneAt]; show s.field.zoneAt z = _; rw [hf, Field.zoneAt_afterReset _ _ _ _ hz]
    rw [e, hlive, congrArg State.watchOn heq]
    rfl
  · exact ⟨by rw [hch.others]; show s.field.refs = []; rw [hf]; rfl, by rw [hch.grants]; show s.field.grants = []; rw [hf]; rfl⟩
  · intro g
    have : (f1.sxeAt g) = Sxe.blank := by show s.field.sxeAt g = _; rw [hf]; rfl
    refine ⟨hch.queue_nil (by rw [this]; rfl), (hch.passSlot g).trans (by rw [this]; rfl), (hch.lastEnd g).trans (by rw [this]; rfl)⟩
  · intro k
    rw [hch.slotAt]; show s.field.slotAt k = _
    rw [hslot]; unfold Slot.afterReset
    simp only [List.isEmpty_iff]
  · exact ⟨by rw [hch.arbiter]; show s.field.arbiter = _; rw [hf]; rfl, by rw [hch.trip]; show s.field.trip = _; rw [hf]; rfl, by rw [hch.reports]⟩
  · rw [hosc, hlive, congrArg State.fsafeAsserted heq, congrArg State.now heq]
    show (if s.live.present = [] then _ else _) = if s.live.present = [] then _ else _
    split <;> rfl

theorem mem_allPages {id : TableId} {n : Nat} (h : PageRef.page id n ∈ allPages) : n < id.size ∧ n % 16 = 0 := by
  have key : ∀ p ∈ allPages, PageRef.wellFormed p = true := by decide +kernel
  have := key _ h
  simpa [PageRef.wellFormed, Config.pageSize] using this

theorem allPages_page {id : TableId} {i : Nat} (h : i < id.size) : PageRef.page id (16 * (i / 16)) ∈ allPages := by
  unfold allPages
  refine List.mem_append_left _ (List.mem_flatMap.2 ⟨id, by cases id <;> decide, ?_⟩)
  unfold pagesOf
  refine List.mem_map.2 ⟨i / 16, List.mem_range.2 ?_, rfl⟩
  simp only [Config.pageSize]; omega

theorem Tables.recordAt_withRecord (t src : Tables) (id : TableId) (i j : Nat) (hi : i < id.size) (hj : j < id.size) :
   (t.withRecord i (src.recordAt id i)).recordAt id j = if i = j then src.recordAt id j else t.recordAt id j := by
  cases id <;> simp only [Tables.recordAt, Tables.withRecord, Tables.helioAt, Tables.aimAt, Tables.standbyAt, Tables.zoneAt, Tables.criticalAt, TableId.size] at hi hj ⊢
  all_goals first
    | (rw [Table.get_set]; by_cases e : i = j
       · subst e; rw [if_pos ⟨rfl, hi⟩, if_pos rfl]
       · rw [if_neg (fun c => e c.1), if_neg e])
    | (rw [if_pos (by omega)])
theorem Tables.recordAt_withRecord_other (t src : Tables) (id id' : TableId) (i j : Nat) (h : id ≠ id') :
   (t.withRecord i (src.recordAt id i)).recordAt id' j = t.recordAt id' j := by
  cases id <;> cases id' <;> first | exact absurd rfl h | rfl

theorem Tables.recordAt_copyPage (id id' : TableId) (first j : Nat) (t src : Tables) (hf : first < id.size) (h16 : first % 16 = 0) (hj : j < id'.size) :
    (t.copyPage id first src).recordAt id' j = if id = id' ∧ first = 16 * (j / 16) then src.recordAt id' j else t.recordAt id' j := by
  have key : ∀ (l : List Nat) (t : Tables), (∀ i ∈ l, i < id.size) →
     (l.foldl (fun (t : Tables) i => t.withRecord i (src.recordAt id i)) t).recordAt id' j = if id = id' ∧ j ∈ l then src.recordAt id' j else t.recordAt id' j := by
    intro l
    induction l with
    | nil => intro t _; simp
    | cons i l ih =>
      intro t hl
      rw [List.foldl_cons, ih _ (fun k hk => hl k (List.mem_cons_of_mem _ hk))]
      by_cases e : id = id'
      · subst e
        rw [Tables.recordAt_withRecord _ _ _ _ _ (hl i (by simp)) hj]
        by_cases e1 : j ∈ l
        · simp [e1]
        · by_cases e2 : i = j
          · subst e2; simp
          · have : j ≠ i := fun c => e2 c.symm
            simp [e1, e2, this]
      · rw [Tables.recordAt_withRecord_other _ _ _ _ _ _ e]; simp [e]
  have hlast : pageLast id first = min (first + 15) (id.size - 1) := by
    unfold pageLast pageStart; simp only [Config.pageSize]; congr 2; omega
  have hm : j ∈ List.range' first (pageLast id first + 1 - first) ↔ first ≤ j ∧ j ≤ pageLast id first := by
    rw [List.mem_range'_1, hlast]; omega
  refine (key _ t ?_).trans ?_
  · intro i hi
    rw [List.mem_range'_1, hlast] at hi
    omega
  · by_cases e : id = id'
    · subst e
      have : (j ∈ List.range' first (pageLast id first + 1 - first)) ↔ first = 16 * (j / 16) := by
        rw [hm, hlast]; omega
      simp only [this]
    · simp [e]

theorem Tables.recordAt_load (l : List PageRef) (hl : ∀ p ∈ l, p.wellFormed = true) (t : Tables) (id : TableId) (j : Nat) (hj : j < id.size) :
    (l.foldl Tables.blankPage t).recordAt id j = if PageRef.page id (16 * (j / 16)) ∈ l then Tables.blank.recordAt id j else t.recordAt id j := by
  induction l generalizing t with
  | nil => simp
  | cons p l ih =>
    rw [List.foldl_cons, ih (fun q hq => hl q (List.mem_cons_of_mem _ hq))]
    have hp := hl p (by simp)
    cases p with
    | marks => simp [Tables.blankPage]
    | page id0 first =>
      simp only [PageRef.wellFormed, Config.pageSize, Bool.and_eq_true, decide_eq_true_eq, beq_iff_eq] at hp
      unfold Tables.blankPage
      simp only
      rw [Tables.recordAt_copyPage _ _ _ _ _ _ hp.1 hp.2 hj]
      by_cases e : PageRef.page id (16 * (j / 16)) ∈ l
      · simp [e]
      · by_cases e2 : id0 = id ∧ first = 16 * (j / 16)
        · obtain ⟨rfl, rfl⟩ := e2; simp
        · have : ¬ (PageRef.page id (16 * (j / 16)) = PageRef.page id0 first) := by
            intro c; injection c with c1 c2; exact e2 ⟨c1.symm, c2.symm⟩
          simp [e, e2, this]

end Sys2Proof.Machine
end

