-- ==== Sys2Proof/Laws/Orders.lean ====
section
/-! SUPPORT. When an order command is taken, and what the taking leaves around the owner's rule (R170 to R172). -/

namespace Sys2Proof.Machine

theorem State.mayTake_iff (s : State) : s.mayTake = true ↔
    s.phase = .running ∧ s.ulp.waiting = none ∧ ∀ b bytes, s.ulp.tx ≠ some ⟨.answer b, bytes⟩ := by
  unfold State.mayTake State.isRunning
  simp only [Bool.and_eq_true, beq_iff_eq, Option.isNone_iff_eq_none, and_assoc]
  refine and_congr_right fun _ => and_congr_right fun _ => ?_
  cases s.ulp.tx with
  | none => simp
  | some f =>
    obtain ⟨k, b⟩ := f
    cases k <;> simp

/-- An order command is taken just when R170 lets its frame be taken. -/
theorem State.takes_iff (s : State) (c : Instr) : s.takes c = true ↔ s.OrderDue c := by
  unfold State.takes State.OrderDue
  simp only [Bool.and_eq_true, decide_eq_true_eq, Bool.not_eq_true', State.mayTake_iff]
  constructor
  · rintro ⟨⟨⟨h1, h2, h3⟩, h4⟩, h5⟩
    cases hb : s.ulp.rxBuf with
    | nil => rw [hb] at h5; exact absurd h5 (by decide)
    | cons body rest =>
      rw [hb] at h4
      exact ⟨h1, h2, h3, body, rest, h4.symm, rfl⟩
  · rintro ⟨h1, h2, h3, body, rest, h4, h5⟩
    rw [h5, h4]
    exact ⟨⟨⟨h1, h2, h3⟩, rfl⟩, rfl⟩

/-- A due order: its frame leaves the buffer, its owner's rule runs, and the answer waits (R171, R172). -/
theorem State.order_due {s : State} {c : Instr} (h : s.OrderDue c) (tag kind : Byte) (run : State → Reply × State) :
    s.order c tag kind run = State.answer tag kind (run s.popFrame).1 (run s.popFrame).2 := by
  unfold State.order
  rw [if_pos ((State.takes_iff s c).2 h)]

/-- An order command out of its time changes nothing (log entry 5). -/
theorem State.order_not_due {s : State} {c : Instr} (h : ¬ s.OrderDue c) (tag kind : Byte) (run : State → Reply × State) :
    s.order c tag kind run = s := by
  unfold State.order
  rw [if_neg (fun ht => h ((State.takes_iff s c).1 ht))]

theorem State.takes_false {s : State} {c : Instr} (h : ¬ s.OrderDue c) : s.takes c = false := by
  rw [← Bool.not_eq_true, State.takes_iff]
  exact h

theorem State.OrderDue.running {s : State} {c : Instr} (h : s.OrderDue c) : s.phase = .running := h.1

@[simp] theorem State.popFrame_env (s : State) : s.popFrame.env = s.env := rfl

/-- An order whose owner's rule changes the field alone is answered, and nothing else is changed. -/
theorem State.answeredWith_of {s : State} {c : Instr} (h : s.OrderDue c) (tag kind : Byte) (run : State → Reply × State) {r : Reply}
    {f : Field} (hr : run s.popFrame = (r, { s.popFrame with field := f })) :
    s.AnsweredWith (s.order c tag kind run) tag kind r ∧ (s.order c tag kind run).field = f := by
  rw [State.order_due h, hr]
  exact ⟨rfl, rfl⟩

end Sys2Proof.Machine
end

