-- ==== Sys2Proof/Laws/RecordChecks.lean ====
section
/-! SUPPORT. TABLE WRITE's per-record checks as the meaning makes them and as `RecordInRange`, `recordValue`, `State.RecordClashes` and
`State.RecordInUse` state them (R182 to R184). -/

namespace Sys2Proof.Machine

/-! ### Bytes -/

theorem nat16_eq (h l : Byte) : nat16 h l = 256 * h.toNat + l.toNat := by
  unfold nat16 half
  rw [BitVec.toNat_append, Nat.shiftLeft_eq, ← Nat.shiftLeft_eq, ← Nat.shiftLeft_add_eq_or_of_lt l.isLt, Nat.shiftLeft_eq]
  omega

theorem nat24_eq (a b c : Byte) : nat24 a b c = 65536 * a.toNat + (256 * b.toNat + c.toNat) := by
  unfold nat24
  rw [BitVec.toNat_append, ← Nat.shiftLeft_add_eq_or_of_lt c.isLt, Nat.shiftLeft_eq, BitVec.toNat_append,
    ← Nat.shiftLeft_add_eq_or_of_lt b.isLt, Nat.shiftLeft_eq]
  omega

theorem half_eq (h l : Byte) : half h l = BitVec.ofNat 16 (256 * h.toNat + l.toNat) := by
  rw [← nat16_eq, nat16, BitVec.ofNat_toNat, BitVec.setWidth_eq]

theorem offset_iff (h l : Byte) :
    (-2000 ≤ (half h l).toInt ∧ (half h l).toInt ≤ 2000) ↔ offsetInRange (256 * h.toNat + l.toNat) := by
  have hb := h.isLt
  have lb := l.isLt
  have e : (half h l).toNat = 256 * h.toNat + l.toNat := nat16_eq h l
  unfold offsetInRange
  rw [BitVec.toInt_eq_toNat_cond, e]
  split <;> omega

theorem presentBit (b : Byte) : b.getLsbD 7 = decide (128 ≤ b.toNat) := by
  revert b; decide

theorem lowBits (b : Byte) : (b &&& 3#8).toNat = b.toNat % 4 := by revert b; decide

theorem pairBits (b : Byte) : (b &&& 7#8).toNat = b.toNat % 8 := by revert b; decide

theorem bit4 (b : Byte) : b.getLsbD 4 = (b.toNat / 16 % 2 == 1) := by revert b; decide

theorem bit5 (b : Byte) : b.getLsbD 5 = (b.toNat / 32 % 2 == 1) := by revert b; decide

/-! ### One record (R182, 10.7) -/

/-- A record of its table's size reads as its value where it is in range, and else as none. -/
theorem readRecord_eq (id : TableId) (bytes : List Byte) (hl : bytes.length = recordSize id) :
    (RecordInRange id bytes → readRecord id bytes = some (recordValue id bytes))
      ∧ (¬ RecordInRange id bytes → readRecord id bytes = none) := by
  cases id with
  | heliostat =>
    match bytes, hl with
    | [b0, a1, a0, g, w, e1, e0, z1, z0, sp], _ =>
      have hE := offset_iff e1 e0
      have hZ := offset_iff z1 z0
      have hw := w.isLt
      simp only [RecordInRange, recordWord, recordByte, readRecord, readHelio, HelioConfig.inRange, HelioConfig.normal, recordValue,
        presentBit, lowBits, nat16_eq, List.getD_cons_zero, List.getD_cons_succ, ← hE, ← hZ]
      by_cases hp : 128 ≤ b0.toNat
      · simp only [hp, decide_true, Bool.not_true, Bool.false_or, if_true, half_eq]
        constructor
        · intro h
          obtain ⟨h1, h2, ⟨h3, h4⟩, ⟨h5, h6⟩, h7⟩ := h trivial
          rw [if_pos]
          simp only [Bool.and_eq_true, decide_eq_true_eq]

          refine ⟨⟨⟨⟨⟨⟨⟨⟨?_, h1⟩, h2⟩, ?_⟩, h3⟩, h4⟩, h5⟩, h6⟩, h7⟩ <;> omega
        · intro h
          rw [if_neg]
          simp only [Bool.and_eq_true, decide_eq_true_eq]
          rintro ⟨⟨⟨⟨⟨⟨⟨⟨-, h1⟩, h2⟩, -⟩, h3⟩, h4⟩, h5⟩, h6⟩, h7⟩

          exact h fun _ => ⟨h1, h2, ⟨h3, h4⟩, ⟨h5, h6⟩, h7⟩
      · simp [hp, HelioConfig.blank]
  | aim =>
    match bytes, hl with
    | [b0, x1, x0, y1, y0, z1, z0, p0, p1, p2, p3], _ =>
      have h8 : b0.toNat % 8 < 8 := Nat.mod_lt _ (by omega)
      simp only [RecordInRange, recordWord, recordByte, recordPairs, readRecord, readAim, AimPoint.inRange, AimPoint.normal, recordValue,
        presentBit, pairBits, List.getD_cons_zero, List.getD_cons_succ, half_eq, footprintOk]
      by_cases hp : 128 ≤ b0.toNat
      · have q0 := p0.isLt
        have q1 := p1.isLt
        have q2 := p2.isLt
        have q3 := p3.isLt
        simp only [hp, decide_true, Bool.not_true, Bool.false_or, if_true]
        generalize b0.toNat % 8 = n at h8
        interval_cases n <;> simp [List.range_succ, readPair] <;> (try omega)
      · simp [hp, AimPoint.blank]
  | standby =>
    match bytes, hl with
    | [b0, x1, x0, y1, y0, z1, z0], _ =>
      simp only [RecordInRange, recordWord, recordByte, readRecord, readStandby, StandbyPoint.normal, recordValue,
        presentBit, List.getD_cons_zero, List.getD_cons_succ, half_eq]
      by_cases hp : 128 ≤ b0.toNat <;> simp [hp, StandbyPoint.blank]
  | zone =>
    match bytes, hl with
    | [b2, b1, b0, f2, f1, f0, d, w1, w0], _ =>
      simp only [RecordInRange, recordTriple, recordWord, recordByte, readRecord, readZoneRecord, ZoneConfig.inRange, recordValue,
        List.getD_cons_zero, List.getD_cons_succ, nat16_eq, nat24_eq, Config.maxLoad]
      constructor
      · rintro ⟨h1, h2, h3, h4⟩
        simp [h1, h2, h3, h4]
      · intro h
        rw [if_neg]
        simp only [Bool.and_eq_true, decide_eq_true_eq]
        rintro ⟨⟨⟨h1, h2⟩, h3⟩, h4⟩
        exact h ⟨h1, h2, h3, h4⟩
  | field =>
    match bytes, hl with
    | [b1, b0], _ =>
      simp only [RecordInRange, recordWord, recordByte, readRecord, readNumber, recordValue, List.getD_cons_zero, List.getD_cons_succ,
        nat16_eq]
      exact ⟨fun h => if_pos h, fun h => if_neg h⟩
  | critical =>
    match bytes, hl with
    | [b1, b0], _ =>
      simp only [RecordInRange, recordWord, recordByte, readRecord, readNumber, recordValue, List.getD_cons_zero, List.getD_cons_succ,
        nat16_eq]
      exact ⟨fun h => if_pos h, fun h => if_neg h⟩
  | watch =>
    match bytes, hl with
    | [b], _ =>
      simp only [RecordInRange, recordByte, readRecord, readWatch, recordValue, List.getD_cons_zero, bit4, bit5]
      have h4 : b.toNat / 4 % 4 < 4 := Nat.mod_lt _ (by omega)
      generalize b.toNat / 4 % 4 = n at h4
      interval_cases n <;> simp

/-! ### Duplicates and use (R183, R184) -/

/-- In a canonical table, a listed entry satisfies `q` exactly where some entry, listed or not, does. -/
theorem Table.any_iff {α : Type} {n : Nat} {d : α} {t : Table α} (h : Table.wf n d t) (q : Nat → α → Bool) (hd : ∀ i, q i d = false) :
    List.any t (fun p => q p.1 p.2) = true ↔ ∃ i, q i (Table.get d t i) = true := by
  rw [List.any_eq_true]
  constructor
  · rintro ⟨p, hp, hq⟩
    exact ⟨p.1, by rw [Table.get_of_mem h hp]; exact hq⟩
  · rintro ⟨i, hi⟩
    refine ⟨(i, Table.get d t i), Table.mem_of_get (fun e => ?_), hi⟩
    rw [e, hd] at hi
    cases hi

theorem HelioConfig.clashes_iff (c d : HelioConfig) : c.clashes d = true ↔ c.SharesAddress d := by
  simp [HelioConfig.clashes, HelioConfig.SharesAddress, and_assoc]

/-- A heliostat record as written clashes as its value does, for an absent one clashes with none. -/
theorem clashes_value (c : HelioConfig) (bytes : List Byte) (hl : bytes.length = 10) :
    c.clashes (readHelio bytes) = true ↔ ∃ d, recordValue .heliostat bytes = .helio d ∧ c.SharesAddress d := by
  match bytes, hl with
  | [b0, a1, a0, g, w, e1, e0, z1, z0, sp], _ =>
    rw [HelioConfig.clashes_iff]
    simp only [readHelio, recordValue, recordWord, recordByte, presentBit, lowBits, nat16_eq, half_eq, List.getD_cons_zero,
      List.getD_cons_succ]
    by_cases hp : 128 ≤ b0.toNat <;> simp [hp, HelioConfig.SharesAddress]

theorem State.duplicate_iff {s : State} (hs : s.Canonical) (id : TableId) (written : List (Nat × List Byte)) (p : Nat × List Byte)
    (hw : ∀ q ∈ written, q.2.length = recordSize id) :
    s.live.duplicate written p.1 (recordValue id p.2) = true ↔ s.RecordClashes id written p := by
  have key : ∀ c : HelioConfig, (s.live.helio.any (fun q => !(written.any (fun r => r.1 == q.1)) && c.clashes q.2)) = true
      ↔ ∃ j, (∀ q ∈ written, q.1 ≠ j) ∧ c.SharesAddress (s.live.helioAt j) := by
    intro c
    rw [Table.any_iff (t := s.live.helio) hs.2.1.1 (fun i d => !(written.any (fun r => r.1 == i)) && c.clashes d)
      (fun i => by simp [HelioConfig.clashes, HelioConfig.blank])]
    refine exists_congr fun j => ?_
    rw [Bool.and_eq_true, HelioConfig.clashes_iff]
    simp [Tables.helioAt]
  cases id with
  | heliostat =>
    have e : ∀ c : HelioConfig, (written.any (fun q => q.1 != p.1 && c.clashes (readHelio q.2))) = true
        ↔ ∃ q ∈ written, q.1 ≠ p.1 ∧ ∃ d, recordValue .heliostat q.2 = .helio d ∧ c.SharesAddress d := by
      intro c
      rw [List.any_eq_true]
      refine exists_congr fun q => and_congr_right fun hq => ?_
      rw [Bool.and_eq_true, clashes_value c q.2 (hw q hq)]
      simp
    simp only [State.RecordClashes]
    obtain ⟨c, hc⟩ : ∃ c, recordValue .heliostat p.2 = .helio c := ⟨_, rfl⟩
    rw [hc]
    simp only [Tables.duplicate, Bool.or_eq_true, e, key]
  | _ => simp [State.RecordClashes, recordValue, Tables.duplicate]

theorem State.inUse_iff {s : State} (hs : s.Canonical) (id : TableId) (p : Nat × List Byte) (fact : Byte) :
    (s.writeFact p.1 (recordValue id p.2)).map (fun f => byte f.code) = some fact ↔ s.RecordInUse id p fact := by
  have hslots : s.field.anyNonIdle = true ↔ ∃ k, k < 8 ∧ (s.field.slotAt k).state.nonIdle = true := by
    unfold Field.anyNonIdle
    have hwf : Table.wf Config.slots Slot.blank s.field.slot := hs.1.2.2.2.2.1
    rw [Table.any_iff (t := s.field.slot) hwf (fun _ v => v.state.nonIdle) (fun _ => rfl)]
    refine exists_congr fun k => ?_
    by_cases hk : k < 8
    · simp [hk, Field.slotAt]
    · have : Table.get Slot.blank s.field.slot k = Slot.blank := Table.get_outside hwf hk
      have hb : Slot.blank.state.nonIdle = false := rfl
      simp [hk, this, hb]
  cases id with
  | heliostat =>
    obtain ⟨c, hc⟩ : ∃ c, recordValue .heliostat p.2 = .helio c := ⟨_, rfl⟩
    simp only [State.RecordInUse, hc, State.writeFact, ← hslots]
    generalize s.field.anyNonIdle = busy
    have hcore : (s.live.helioAt p.1).coreDiffers c = true ↔ (c.present, c.segment, c.address, c.weight, c.standby)
        ≠ ((s.live.helioAt p.1).present, (s.live.helioAt p.1).segment, (s.live.helioAt p.1).address, (s.live.helioAt p.1).weight,
          (s.live.helioAt p.1).standby) := by
      simp only [HelioConfig.coreDiffers, Bool.or_eq_true, bne_iff_ne, ne_eq, Prod.mk.injEq, not_and_or]
      tauto
    rw [← hcore]
    generalize (s.live.helioAt p.1).coreDiffers c = tied
    have hload : ((s.field.run p.1).granted.isSome = true ∨ (s.field.run p.1).leaving.isSome = true)
        ↔ (s.field.run p.1).holdsLoad = true := by
      simp [HelioRun.holdsLoad]
    have howed : (s.field.run p.1).owed = none ↔ (s.field.run p.1).owed.isSome = false := by simp
    have hgroup : c.group ≠ (s.live.helioAt p.1).group ↔ ((s.live.helioAt p.1).group != c.group) = true := by
      rw [bne_iff_ne]
      exact ne_comm
    rw [hload, howed, hgroup]
    unfold HelioRun.useFact
    generalize ((s.live.helioAt p.1).group != c.group) = moved
    generalize (s.field.run p.1).holdsLoad = loaded
    generalize (s.field.run p.1).queued = queued
    generalize (s.field.run p.1).owed.isSome = owes
    generalize (s.field.run p.1).inFlight = flies
    cases tied <;> cases loaded <;> cases queued <;> cases owes <;> cases flies <;> cases moved <;> cases busy <;>
      simp [Fact.code, byte, eq_comm (a := fact)]
  | aim =>
    simp only [State.RecordInUse, recordValue, State.writeFact]
    by_cases hr : s.field.refAt p.1 = 0
    · simp [hr]
    · simp [hr, Nat.pos_of_ne_zero hr, Fact.code, byte, eq_comm (a := fact)]
  | _ => simp [State.RecordInUse, recordValue, State.writeFact]

/-! ### The refusal of one record (R181 check 7) -/

/-- What the checks of one record answer: RANGE, then DUPLICATE, then IN_USE with its fact; nothing exactly where the record passes. -/
theorem State.recordRefusal_spec {s : State} (hs : s.Canonical) (id : TableId) (written : List (Nat × List Byte)) (p : Nat × List Byte)
    (hp : p.2.length = recordSize id) (hw : ∀ q ∈ written, q.2.length = recordSize id) :
    (¬ RecordInRange id p.2 → s.recordRefusal id written p = some ⟨.range, 1#8 :: be16 p.1⟩)
      ∧ (RecordInRange id p.2 → s.RecordClashes id written p →
        s.recordRefusal id written p = some ⟨.duplicate, 1#8 :: be16 p.1⟩)
      ∧ (RecordInRange id p.2 → ¬ s.RecordClashes id written p → ∀ fact, s.RecordInUse id p fact →
        s.recordRefusal id written p = some ⟨.inUse, fact :: be16 p.1⟩)
      ∧ (s.recordRefusal id written p = none ↔ s.RecordPasses id written p) := by
  have hread := readRecord_eq id p.2 hp
  have hdup := State.duplicate_iff hs id written p hw
  have huse := State.inUse_iff hs id p
  by_cases hr : RecordInRange id p.2
  · by_cases hc : s.RecordClashes id written p
    · have e : s.recordRefusal id written p = some ⟨.duplicate, 1#8 :: be16 p.1⟩ := by
        unfold State.recordRefusal
        simp only [hread.1 hr, hdup.2 hc, if_true]
      exact ⟨fun h => absurd hr h, fun _ _ => e, fun _ h => absurd hc h,
        ⟨fun h => (by rw [e] at h; cases h), fun h => absurd hc h.2.1⟩⟩
    · have hd : s.live.duplicate written p.1 (recordValue id p.2) = false := Bool.eq_false_iff.2 fun h => hc (hdup.1 h)
      have e : s.recordRefusal id written p
          = (s.writeFact p.1 (recordValue id p.2)).map (fun fact => ⟨.inUse, byte fact.code :: be16 p.1⟩) := by
        unfold State.recordRefusal
        simp only [hread.1 hr, hd]
        rfl
      refine ⟨fun h => absurd hr h, fun _ h => absurd h hc, fun _ _ fact h => ?_, ?_⟩
      · obtain ⟨f, hf, he⟩ := Option.map_eq_some_iff.1 ((huse fact).2 h)
        rw [e, hf, Option.map_some, he]
      · rw [e, Option.map_eq_none_iff]
        refine ⟨fun h => ⟨hr, hc, fun fact hf => ?_⟩, fun h => ?_⟩
        · have := (huse fact).2 hf
          rw [h] at this
          cases this
        · cases hf : s.writeFact p.1 (recordValue id p.2) with
          | none => rfl
          | some f => exact absurd ((huse (byte f.code)).1 (by rw [hf]; rfl)) (h.2.2 _)
  · have e : s.recordRefusal id written p = some ⟨.range, 1#8 :: be16 p.1⟩ := by
      unfold State.recordRefusal
      simp only [hread.2 hr]
    exact ⟨fun _ => e, fun h => absurd h hr, fun h => absurd h hr,
      ⟨fun h => (by rw [e] at h; cases h), fun h => absurd h.1 hr⟩⟩

/-- A refusal of one record is one of the three that R182, R183 and R184 give, with what each of them says. -/
theorem State.recordRefusal_cases {s : State} (hs : s.Canonical) (id : TableId) (written : List (Nat × List Byte)) (p : Nat × List Byte)
    (hp : p.2.length = recordSize id) (hw : ∀ q ∈ written, q.2.length = recordSize id) {r : Reply}
    (h : s.recordRefusal id written p = some r) :
    (¬ RecordInRange id p.2 ∧ r = ⟨.range, 1#8 :: be16 p.1⟩)
      ∨ (RecordInRange id p.2 ∧ s.RecordClashes id written p ∧ r = ⟨.duplicate, 1#8 :: be16 p.1⟩)
      ∨ ∃ fact, RecordInRange id p.2 ∧ ¬ s.RecordClashes id written p ∧ s.RecordInUse id p fact ∧ r = ⟨.inUse, fact :: be16 p.1⟩ := by
  obtain ⟨h1, h2, h3, h4⟩ := State.recordRefusal_spec hs id written p hp hw
  by_cases hr : RecordInRange id p.2
  · by_cases hc : s.RecordClashes id written p
    · exact Or.inr (Or.inl ⟨hr, hc, by rw [h2 hr hc] at h; exact (Option.some.inj h).symm⟩)
    · by_cases hu : ∃ fact, s.RecordInUse id p fact
      · obtain ⟨fact, hf⟩ := hu
        exact Or.inr (Or.inr ⟨fact, hr, hc, hf, by rw [h3 hr hc fact hf] at h; exact (Option.some.inj h).symm⟩)
      · have := h4.2 ⟨hr, hc, fun fact hf => hu ⟨fact, hf⟩⟩
        rw [h] at this
        cases this
  · exact Or.inl ⟨hr, by rw [h1 hr] at h; exact (Option.some.inj h).symm⟩

end Sys2Proof.Machine
end

