-- ==== Sys2Proof/Laws/Shedding.lean ====
section
/-! SUPPORT. What the FAU's tests at the end of a change leave alone (R44 to R47): no heliostat but a shedding candidate, no budget,
no condition of the Receiver Watch, no program's standing. -/

namespace Sys2Proof.Machine

theorem ZoneRun.SameInputs.refl (v : ZoneRun) : v.SameInputs v := ⟨rfl, rfl, rfl, rfl, rfl, rfl, rfl⟩

theorem ZoneRun.SameInputs.trans {u v w : ZoneRun} (h1 : u.SameInputs v) (h2 : v.SameInputs w) : u.SameInputs w :=
  ⟨h2.budget.trans h1.budget, h2.ceiling.trans h1.ceiling, h2.lastReading.trans h1.lastReading,
    h2.staleEnds.trans h1.staleEnds, h2.warn.trans h1.warn, h2.critical.trans h1.critical, h2.stale.trans h1.stale⟩

/-- What the FAU's tests leave alone. -/
structure Field.ShedOnly (f g : Field) : Prop where
  runs : ∀ h, (f.run h).secured → g.run h = { f.run h with reportOwed := (g.run h).reportOwed }
  kept : ∀ h, (g.run h).fault = (f.run h).fault ∧ (g.run h).inhibit = (f.run h).inhibit ∧ (g.run h).maint = (f.run h).maint
    ∧ (g.run h).localControl = (f.run h).localControl ∧ (g.run h).inFlight = (f.run h).inFlight
    ∧ (g.run h).lastExchange = (f.run h).lastExchange ∧ (g.run h).silentCount = (f.run h).silentCount
  lost : ∀ h, (g.run h).state = .lost → (f.run h).state = .lost
  zones : ∀ z, (f.zoneAt z).SameInputs (g.zoneAt z)
  slots : ∀ k, g.slotAt k = { f.slotAt k with residual := (g.slotAt k).residual, flags := (g.slotAt k).flags }
  arbiter : g.arbiter = f.arbiter
  trip : g.trip = f.trip

theorem Field.ShedOnly.refl (f : Field) : f.ShedOnly f :=
  ⟨fun _ _ => rfl, fun _ => ⟨rfl, rfl, rfl, rfl, rfl, rfl, rfl⟩, fun _ => id, fun _ => .refl _, fun _ => rfl, rfl, rfl⟩

theorem HelioRun.secured_reportOwed (r : HelioRun) (b : Bool) : ({ r with reportOwed := b } : HelioRun).secured = r.secured := rfl

theorem Field.ShedOnly.secured {f g : Field} (h : f.ShedOnly g) {j : Nat} (hs : (f.run j).secured) : (g.run j).secured := by
  rw [h.runs j hs, HelioRun.secured_reportOwed]
  exact hs

theorem Field.ShedOnly.trans {f g k : Field} (h1 : f.ShedOnly g) (h2 : g.ShedOnly k) : f.ShedOnly k := by
  refine ⟨fun j hj => ?_, fun j => ?_, fun j hj => h1.lost j (h2.lost j hj), fun z => (h1.zones z).trans (h2.zones z), fun j => ?_,
    h2.arbiter.trans h1.arbiter, h2.trip.trans h1.trip⟩
  · have e1 := h1.runs j hj
    have e2 := h2.runs j (h1.secured hj)
    rw [e2, e1]
  · obtain ⟨a1, a2, a3, a4, a5, a6, a7⟩ := h1.kept j
    obtain ⟨b1, b2, b3, b4, b5, b6, b7⟩ := h2.kept j
    exact ⟨b1.trans a1, b2.trans a2, b3.trans a3, b4.trans a4, b5.trans a5, b6.trans a6, b7.trans a7⟩
  · rw [h2.slots j, h1.slots j]

/-! ### The operations -/

theorem Field.run_queueReport_eq (f : Field) (src : Source) (j : Nat) :
    (f.queueReport src).run j = { f.run j with reportOwed := ((f.queueReport src).run j).reportOwed } := by
  unfold Field.queueReport
  split
  · rfl
  · split
    · rfl
    · split
      · rfl
      · cases src with
        | helio h =>
          simp only [Field.setReportOwed, Field.run_setRun]
          split
          · next hj => rw [hj.1]
          · rfl
        | _ => rfl

theorem Field.slotAt_queueReport (f : Field) (src : Source) (k : Nat) : (f.queueReport src).slotAt k = f.slotAt k := by
  unfold Field.slotAt
  rw [Field.queueReport_slot]

theorem Field.zoneAt_queueReport (f : Field) (src : Source) (z : Nat) : (f.queueReport src).zoneAt z = f.zoneAt z := by
  unfold Field.zoneAt
  rw [Field.queueReport_zone]

theorem Field.shedOnly_queueReport (f : Field) (src : Source) : f.ShedOnly (f.queueReport src) := by
  refine ⟨fun h _ => Field.run_queueReport_eq f src h, fun h => ?_, fun h hl => ?_, fun z => ?_, fun k => ?_,
    Field.queueReport_arbiter f src, Field.queueReport_trip f src⟩
  · rw [Field.run_queueReport_eq f src h]
    exact ⟨rfl, rfl, rfl, rfl, rfl, rfl, rfl⟩
  · rw [Field.run_queueReport_eq f src h] at hl
    exact hl
  · rw [Field.zoneAt_queueReport]
    exact .refl _
  · rw [Field.slotAt_queueReport]

theorem Field.shedOnly_setZone (f : Field) (z : Nat) (v : ZoneRun) (hv : (f.zoneAt z).SameInputs v) : f.ShedOnly (f.setZone z v) := by
  refine ⟨fun _ _ => rfl, fun _ => ⟨rfl, rfl, rfl, rfl, rfl, rfl, rfl⟩, fun _ h => h, fun y => ?_, fun _ => rfl, rfl, rfl⟩
  rw [Field.zoneAt_setZone]
  split
  · next hy => exact hy.1 ▸ hv
  · exact .refl _

theorem Field.shedOnly_setSxe (f : Field) (g : Nat) (x : Sxe) : f.ShedOnly (f.setSxe g x) :=
  ⟨fun _ _ => rfl, fun _ => ⟨rfl, rfl, rfl, rfl, rfl, rfl, rfl⟩, fun _ h => h, fun _ => .refl _, fun _ => rfl, rfl, rfl⟩

theorem Field.slotAt_record (env : Env) (h : Nat) (r : HelioRun) (f : Field) (hl : r.state ≠ .lost) (k : Nat) :
    (f.record env h r).slotAt k = f.slotAt k := by
  unfold Field.record
  simp only
  rw [if_neg (fun c => hl c.1)]
  obtain ⟨tz, tr, he, -⟩ := Field.accountRecord_eq env h r f
  rw [he]
  rfl

/-- Records that agree in what no shed changes. -/
structure HelioRun.ShedKept (r r' : HelioRun) : Prop where
  fault : r'.fault = r.fault
  inhibit : r'.inhibit = r.inhibit
  maint : r'.maint = r.maint
  localControl : r'.localControl = r.localControl
  inFlight : r'.inFlight = r.inFlight
  lastExchange : r'.lastExchange = r.lastExchange
  silentCount : r'.silentCount = r.silentCount

theorem Work.shedOnly_write (env : Env) (h : Nat) (r : HelioRun) (w : Work) (hs : (w.fld.run h).secured = false)
    (hl : r.state ≠ .lost) (hk : (w.fld.run h).ShedKept r) : w.fld.ShedOnly (w.write env h r).fld := by
  unfold Work.write
  split
  · next hh =>
    refine ⟨fun j hj => ?_, fun j => ?_, fun j hj => ?_, fun z => ?_, fun k => ?_, Field.arbiter_record env h r w.fld,
      Field.trip_record env h r w.fld⟩
    · simp only [Field.run_record]
      split
      · next hc =>
        rw [← hc.1] at hj
        rw [hs] at hj
        cases hj
      · rfl
    · simp only [Field.run_record]
      split
      · next hc =>
        rw [← hc.1]
        exact ⟨hk.fault, hk.inhibit, hk.maint, hk.localControl, hk.inFlight, hk.lastExchange, hk.silentCount⟩
      · exact ⟨rfl, rfl, rfl, rfl, rfl, rfl, rfl⟩
    · simp only [Field.run_record] at hj
      split at hj
      · exact absurd hj hl
      · exact hj
    · simp only [Field.zoneAt_record]
      split
      · exact ⟨rfl, rfl, rfl, rfl, rfl, rfl, rfl⟩
      · exact .refl _
    · simp only [Field.slotAt_record env h r w.fld hl]
  · exact .refl _

theorem Work.shedOnly_report (src : Source) (w : Work) : w.fld.ShedOnly (w.report src).fld := Field.shedOnly_queueReport _ _

theorem Work.shedOnly_put (env : Env) (h : Nat) (r : HelioRun) (w : Work) (hs : (w.fld.run h).secured = false)
    (hl : r.state ≠ .lost) (hk : (w.fld.run h).ShedKept r) : w.fld.ShedOnly (w.put env h r).fld := by
  unfold Work.put
  simp only
  split
  · exact (Work.shedOnly_write env h r w hs hl hk).trans (Work.shedOnly_report _ _)
  · exact Work.shedOnly_write env h r w hs hl hk

theorem Field.shedOnly_dropEntry (g h : Nat) (f : Field) : f.ShedOnly (f.dropEntry g h) := by
  unfold Field.dropEntry
  simp only
  split
  · exact Field.shedOnly_setSxe _ _ _
  · exact .refl f

theorem Field.shedOnly_setSlot (f : Field) (k : Nat) (v : Slot)
    (hv : v = { f.slotAt k with residual := v.residual, flags := v.flags }) : f.ShedOnly (f.setSlot k v) := by
  refine ⟨fun _ _ => rfl, fun _ => ⟨rfl, rfl, rfl, rfl, rfl, rfl, rfl⟩, fun _ h => h, fun _ => .refl _, fun j => ?_, rfl, rfl⟩
  rw [Field.slotAt_setSlot]
  split
  · next hj => rw [← hj.1]; exact hv
  · rfl

theorem Field.shedOnly_foldl {β : Type} (op : Field → β → Field) (h : ∀ f b, Field.ShedOnly f (op f b)) (l : List β) (f : Field) :
    f.ShedOnly (l.foldl op f) := by
  induction l generalizing f with
  | nil => exact .refl f
  | cons b l ih => exact (h f b).trans (ih _)

theorem Work.shedOnly_follow (h : Nat) (a : Option Nat) (c : Bool) (w : Work) : w.fld.ShedOnly (w.follow h a c).fld := by
  unfold Work.follow
  split
  · exact .refl _
  · refine Field.shedOnly_foldl _ (fun f k => Field.shedOnly_setSlot f k _ ?_) _ _
    unfold Slot.follow
    split
    · split <;> rfl
    · rfl

/-! ### Records -/

theorem HelioRun.ShedKept.refl (r : HelioRun) : r.ShedKept r := ⟨rfl, rfl, rfl, rfl, rfl, rfl, rfl⟩

theorem HelioRun.ShedKept.trans {r s t : HelioRun} (h1 : r.ShedKept s) (h2 : s.ShedKept t) : r.ShedKept t :=
  ⟨h2.fault.trans h1.fault, h2.inhibit.trans h1.inhibit, h2.maint.trans h1.maint, h2.localControl.trans h1.localControl,
    h2.inFlight.trans h1.inFlight, h2.lastExchange.trans h1.lastExchange, h2.silentCount.trans h1.silentCount⟩

theorem HelioRun.shedKept_by (c : Option Cause) (old new : HelioRun) : new.ShedKept (old.by c new) := by
  unfold HelioRun.by
  split
  · exact ⟨rfl, rfl, rfl, rfl, rfl, rfl, rfl⟩
  · exact .refl _

theorem HelioRun.shedKept_nothingRemains (r : HelioRun) : r.ShedKept r.nothingRemains := by
  unfold HelioRun.nothingRemains
  split
  · exact .refl _
  · split
    · exact ⟨rfl, rfl, rfl, rfl, rfl, rfl, rfl⟩
    · exact .refl _
  · split
    · exact ⟨rfl, rfl, rfl, rfl, rfl, rfl, rfl⟩
    · exact .refl _

theorem HelioRun.shedKept_setOwed (m : Motion) (c : Cause) (r : HelioRun) : r.ShedKept (r.setOwed m c) := by
  unfold HelioRun.setOwed
  split
  · exact ⟨rfl, rfl, rfl, rfl, rfl, rfl, rfl⟩
  · exact ⟨rfl, rfl, rfl, rfl, rfl, rfl, rfl⟩
  · exact .refl _

theorem HelioRun.shedKept_revoked (r : HelioRun) : r.ShedKept r.revoked := by
  unfold HelioRun.revoked
  split <;> exact ⟨rfl, rfl, rfl, rfl, rfl, rfl, rfl⟩

theorem HelioRun.shedKept_unqueued (r : HelioRun) : r.ShedKept { r with queued := false } :=
  ⟨rfl, rfl, rfl, rfl, rfl, rfl, rfl⟩

theorem HelioRun.by_state (c : Option Cause) (old new : HelioRun) : (old.by c new).state = new.state := by
  unfold HelioRun.by
  split <;> rfl

theorem HelioRun.nothingRemains_state (r : HelioRun) : r.nothingRemains.state = r.state := by
  unfold HelioRun.nothingRemains
  split
  · rfl
  · split <;> rfl
  · split <;> rfl

theorem HelioRun.setOwed_state (m : Motion) (c : Cause) (r : HelioRun) : (r.setOwed m c).state = r.state := by
  unfold HelioRun.setOwed
  split <;> rfl

theorem HelioRun.revoked_ne_lost (r : HelioRun) : r.revoked.state ≠ .lost := by
  unfold HelioRun.revoked
  split
  · exact fun h => HState.noConfusion h
  · cases r.rest <;> exact fun h => HState.noConfusion h

theorem HelioRun.secured_ne_lost {r : HelioRun} (h : r.secured = false) : r.state ≠ .lost := by
  intro hl
  simp [HelioRun.secured, hl] at h

theorem Work.run_dropEntry' (env : Env) (h : Nat) (w : Work) (j : Nat) : (w.dropEntry env h).fld.run j = w.fld.run j :=
  Field.run_dropEntry _ h _ j

theorem Work.shedOnly_withdraw (env : Env) (c : Cause) (h : Nat) (w : Work) (hs : (w.fld.run h).secured = false) :
    w.fld.ShedOnly (w.withdraw env c h).fld := by
  unfold Work.withdraw
  simp only
  split
  · refine ((Field.shedOnly_dropEntry _ h w.fld).trans (Work.shedOnly_put env h _ (w.dropEntry env h) ?_ ?_ ?_)).trans
      (Work.shedOnly_follow _ _ _ _)
    · rw [Work.run_dropEntry']; exact hs
    · rw [HelioRun.by_state, HelioRun.nothingRemains_state]; exact HelioRun.revoked_ne_lost _
    · rw [Work.run_dropEntry']
      exact ((((HelioRun.shedKept_unqueued (w.fld.run h)).trans
        (HelioRun.shedKept_revoked _))).trans (HelioRun.shedKept_nothingRemains _)).trans
        (HelioRun.shedKept_by _ _ _)
  · exact .refl _

theorem Work.shedOnly_owe (env : Env) (m : Motion) (c : Cause) (h : Nat) (w : Work) (hs : (w.fld.run h).secured = false) :
    w.fld.ShedOnly (w.owe env m c h).fld := by
  unfold Work.owe
  simp only
  split
  · refine ((Field.shedOnly_dropEntry _ h w.fld).trans (Work.shedOnly_put env h _ (w.dropEntry env h) ?_ ?_ ?_)).trans
      (Work.shedOnly_follow _ _ _ _)
    · rw [Work.run_dropEntry']; exact hs
    · rw [HelioRun.by_state, HelioRun.nothingRemains_state, HelioRun.setOwed_state]; exact HelioRun.revoked_ne_lost _
    · rw [Work.run_dropEntry']
      exact (((((HelioRun.shedKept_unqueued (w.fld.run h)).trans
        (HelioRun.shedKept_revoked _))).trans (HelioRun.shedKept_setOwed m c _)).trans
        (HelioRun.shedKept_nothingRemains _)).trans (HelioRun.shedKept_by _ _ _)
  · refine Work.shedOnly_put env h _ w hs ?_ ?_
    · rw [HelioRun.by_state, HelioRun.nothingRemains_state, HelioRun.setOwed_state]; exact HelioRun.secured_ne_lost hs
    · exact ((HelioRun.shedKept_setOwed m c _).trans (HelioRun.shedKept_nothingRemains _)).trans (HelioRun.shedKept_by _ _ _)

theorem Env.covers_holdsLoad {env : Env} {r : HelioRun} {z : Nat} (h : env.covers r z) : r.holdsLoad := by
  unfold Env.covers HelioRun.aims at h
  unfold HelioRun.holdsLoad
  cases hg : r.granted <;> cases hl : r.leaving <;> simp_all

theorem Work.secured_of_candidate {env : Env} {z h : Nat} {w : Work} (hc : w.candidate env z h) : (w.fld.run h).secured = false := by
  unfold Work.candidate at hc
  simp only [Bool.and_eq_true, bne_iff_ne, ne_eq] at hc
  obtain ⟨⟨⟨h1, h2⟩, h3⟩, h4⟩ := hc
  have := Env.covers_holdsLoad h1
  simp [HelioRun.secured, this, h3, h4, Option.isNone_iff_eq_none.1 h2]

theorem HelioRun.by_secured (c : Option Cause) (old new : HelioRun) : (old.by c new).secured = new.secured := by
  unfold HelioRun.by
  split <;> rfl

theorem HelioRun.nothingRemains_none {r : HelioRun} (h : r.owed = none) : r.nothingRemains = r := by
  unfold HelioRun.nothingRemains
  rw [h]

theorem HelioRun.revoked_owed (r : HelioRun) : r.revoked.owed = r.owed := by
  unfold HelioRun.revoked
  split
  · rfl
  · cases r.rest <;> rfl

theorem HelioRun.revoked_state_cases (r : HelioRun) :
    r.revoked.state = .tracking ∨ r.revoked.state = .standby ∨ r.revoked.state = .stowed := by
  unfold HelioRun.revoked
  split
  · exact Or.inl rfl
  · cases r.rest
    · exact Or.inr (Or.inl rfl)
    · exact Or.inr (Or.inr rfl)

theorem Work.run_put (env : Env) (h : Nat) (r : HelioRun) (w : Work) (j : Nat) : (w.put env h r).fld.run j =
    { (if h = j ∧ h < Config.heliostats then r else w.fld.run j) with reportOwed := ((w.put env h r).fld.run j).reportOwed } := by
  have hw : (w.write env h r).fld.run j = if h = j ∧ h < Config.heliostats then r else w.fld.run j := by
    unfold Work.write
    split
    · exact Field.run_record env h r w.fld j
    · next hh => rw [if_neg (fun c => hh c.2)]
  unfold Work.put
  simp only
  split
  · rw [← hw]
    exact Field.run_queueReport_eq _ _ _
  · rw [hw]

theorem Work.run_follow (h : Nat) (a : Option Nat) (c : Bool) (w : Work) (j : Nat) : (w.follow h a c).fld.run j = w.fld.run j := by
  unfold Work.follow
  split
  · rfl
  · next k =>
    have : ∀ (l : List Nat) (f : Field), (l.foldl (fun f n => f.setSlot n ((f.slotAt n).follow h k c)) f).run j = f.run j := by
      intro l
      induction l with
      | nil => exact fun _ => rfl
      | cons n l ih => exact fun f => (ih _).trans rfl
    exact this _ w.fld

theorem Work.shedOnly_shed (env : Env) (z h : Nat) (w : Work) (hc : w.candidate env z h) : w.fld.ShedOnly (w.shed env z h).fld := by
  have hs := Work.secured_of_candidate hc
  unfold Work.shed
  split
  · next hq =>
    have h1 := Work.shedOnly_withdraw env .shed h w hs
    simp only
    split
    · next hcov =>
      refine h1.trans (Work.shedOnly_owe env _ _ h _ ?_)
      simp only [Bool.and_eq_true] at hcov
      have hload := Env.covers_holdsLoad hcov.1
      have ho : (w.fld.run h).owed = none := by
        unfold Work.candidate at hc
        simp only [Bool.and_eq_true] at hc
        exact Option.isNone_iff_eq_none.1 hc.1.1.2
      have hrun : ((w.withdraw env .shed h).fld.run h).state ≠ .returning ∧ ((w.withdraw env .shed h).fld.run h).state ≠ .lost
          ∧ ((w.withdraw env .shed h).fld.run h).owed = none := by
        unfold Work.withdraw
        simp only [hq, if_true]
        rw [Work.run_follow, Work.run_put, Work.run_dropEntry']
        have hn : ({ w.fld.run h with queued := false } : HelioRun).revoked.owed = none := by rw [HelioRun.revoked_owed]; exact ho
        split
        · simp only [HelioRun.by_state, HelioRun.nothingRemains_none hn]
          refine ⟨?_, HelioRun.revoked_ne_lost _, ?_⟩
          · rcases HelioRun.revoked_state_cases { w.fld.run h with queued := false } with e | e | e <;>
              rw [e] <;> exact fun h => HState.noConfusion h
          · unfold HelioRun.by
            split <;> exact hn
        · unfold HelioRun.secured at hs
          simp only [Bool.or_eq_false_iff, beq_eq_false_iff_ne, ne_eq] at hs
          exact ⟨hs.1.1.2, hs.1.2, ho⟩
      unfold HelioRun.secured
      simp [hload, hrun.1, hrun.2.1, hrun.2.2]
    · exact h1
  · exact Work.shedOnly_owe env _ _ h w hs

theorem Work.shedOnly_walk (env : Env) (z : Nat) (l : List Nat) (w : Work) : w.fld.ShedOnly (w.walk env z l).fld := by
  induction l generalizing w with
  | nil => exact .refl _
  | cons h l ih =>
    unfold Work.walk
    split
    · refine Field.ShedOnly.trans ?_ (ih _)
      split
      · next hc => exact Work.shedOnly_shed env z h w hc
      · exact .refl _
    · exact .refl _

theorem Work.shedOnly_mark (z : Nat) (v : ZoneRun) (w : Work) (hv : (w.fld.zoneAt z).SameInputs v) : w.fld.ShedOnly (w.mark z v).fld :=
  (Field.shedOnly_setZone _ z v hv).trans (Field.shedOnly_queueReport _ _)

theorem Work.shedOnly_evalOver (z : Nat) (w : Work) : w.fld.ShedOnly (w.evalOver z).fld := by
  unfold Work.evalOver
  simp only
  split
  · exact .refl _
  · exact Work.shedOnly_mark z _ w ⟨rfl, rfl, rfl, rfl, rfl, rfl, rfl⟩

theorem Work.shedOnly_setUnsheddable (z : Nat) (b : Bool) (w : Work) : w.fld.ShedOnly (w.setUnsheddable z b).fld := by
  unfold Work.setUnsheddable
  simp only
  split
  · exact .refl _
  · exact Work.shedOnly_mark z _ w ⟨rfl, rfl, rfl, rfl, rfl, rfl, rfl⟩

theorem Work.shedOnly_shedTest (env : Env) (z : Nat) (w : Work) : w.fld.ShedOnly (w.shedTest env z).fld := by
  unfold Work.shedTest
  simp only
  refine Field.ShedOnly.trans ?_ (Work.shedOnly_setUnsheddable z _ _)
  split
  · exact (Work.shedOnly_walk env z _ w).trans (Work.shedOnly_evalOver z _)
  · exact .refl _

theorem Work.shedOnly_settle (env : Env) (n : Nat) (w : Work) : w.fld.ShedOnly (w.settle env n).fld := by
  induction n generalizing w with
  | zero => exact .refl _
  | succ n ih =>
    unfold Work.settle
    split
    · exact .refl _
    · next z t _ =>
      exact ((Work.shedOnly_evalOver z { w with touched := t }).trans (Work.shedOnly_shedTest env z _)).trans (ih _)

/-- What the FAU's tests leave alone. -/
theorem Work.shedOnly_settleNow (env : Env) (w : Work) : w.fld.ShedOnly (w.settleNow env).fld := Work.shedOnly_settle env _ w

/-- What the end of a change leaves alone, beside the trip record and the reports. -/
theorem Work.shedOnly_finish (env : Env) (w : Work) : w.fld.ShedOnly { w.finish env with trip := w.fld.trip } := by
  have h1 := Work.shedOnly_settleNow env w
  have h2 := Work.fld_evalTrip env (w.settleNow env)
  have h3 : w.finish env = { (w.settleNow env).fld with trip := (w.finish env).trip, reports := (w.finish env).reports } := h2
  refine ⟨fun j hj => ?_, fun j => ?_, fun j hj => ?_, fun z => ?_, fun k => ?_, ?_, rfl⟩
  · have := h1.runs j hj
    rw [h3]; exact this
  · have := h1.kept j
    rw [h3]; exact this
  · rw [h3] at hj; exact h1.lost j hj
  · have := h1.zones z
    rw [h3]; exact this
  · have := h1.slots k
    rw [h3]; exact this
  · rw [h3]; exact h1.arbiter

theorem Work.run_finish {env : Env} {w : Work} {j : Nat} (h : (w.fld.run j).secured) :
    (w.finish env).run j = { w.fld.run j with reportOwed := ((w.finish env).run j).reportOwed } := (Work.shedOnly_finish env w).runs j h

theorem Work.zoneAt_finish (env : Env) (w : Work) (z : Nat) : (w.fld.zoneAt z).SameInputs ((w.finish env).zoneAt z) :=
  (Work.shedOnly_finish env w).zones z

theorem Work.slotAt_finish (env : Env) (w : Work) (k : Nat) : (w.finish env).slotAt k =
    { w.fld.slotAt k with residual := ((w.finish env).slotAt k).residual, flags := ((w.finish env).slotAt k).flags } :=
  (Work.shedOnly_finish env w).slots k

theorem Work.arbiter_finish (env : Env) (w : Work) : (w.finish env).arbiter = w.fld.arbiter := (Work.shedOnly_finish env w).arbiter

end Sys2Proof.Machine
end

