-- ==== Sys2Proof/Tests/Slice0.lean ====
section
/-! SUPPORT. Tests: the ill-formed commands the check refuses, small one-step tests, and for every statement states and operands that
meet its hypotheses. -/

namespace Sys2Proof.Tests

set_option Elab.async false

open Sys2Proof Sys2Proof.Machine

/-! ### WellFormed: an ill-formed term for each check -/

theorem test_illFormed_damagedPage : (Instr.tableLoadingDone [.page .aim 8]).wellFormed = false := by decide
theorem test_illFormed_damagedIndex : (Instr.tableLoadingDone [.page .aim 256]).wellFormed = false := by decide
theorem test_illFormed_uplinkFrame : (Instr.uplinkFrame []).wellFormed = false := by decide
theorem test_illFormed_pass : (Instr.pass 0#8 0#16 []).wellFormed = false := by decide
theorem test_illFormed_passLong : (Instr.pass 0#8 0#16 (List.replicate 201 0#8)).wellFormed = false := by decide +kernel
theorem test_illFormed_loadProgram : (Instr.loadProgram 0#8 0#8 32#8 (List.replicate 225 0#8)).wellFormed = false := by decide +kernel
theorem test_illFormed_tableWrite : (Instr.tableWrite 0#8 1#8 0#16 16#8 (List.replicate 177 0#8)).wellFormed = false := by
  decide +kernel
theorem test_illFormed_driveAnswer : (Instr.driveAnswer 0 [0x5A#8]).wellFormed = false := by decide
theorem test_illFormed_driveAnswerLong : (Instr.driveAnswer 0 (List.replicate 208 0#8)).wellFormed = false := by decide +kernel
theorem test_illFormed_slewTimeout : (Instr.slewTimeout 4096).wellFormed = false := by decide
theorem test_illFormed_sensorReading : (Instr.sensorReading []).wellFormed = false := by decide
theorem test_illFormed_staleExpiry : (Instr.staleExpiry 64).wellFormed = false := by decide

/-! ### Check values and the table's words -/

/-- "123456789" under the CRC-16 that R167 describes. -/
theorem test_crc16 : crc16 [0x31#8, 0x32#8, 0x33#8, 0x34#8, 0x35#8, 0x36#8, 0x37#8, 0x38#8, 0x39#8] = 0x29B1#16 := by decide +kernel
/-- "123456789" under the common CRC-8 of R85's polynomial and initial value; the spec gives no such value (log entry 46). -/
theorem test_crc8 : crc8 [0x31#8, 0x32#8, 0x33#8, 0x34#8, 0x35#8, 0x36#8, 0x37#8, 0x38#8, 0x39#8] = 0xF4#8 := by decide +kernel
/-- No row of the table gives bits, so no word spells a command. -/
theorem test_noTableWord : decodeTableWord 8 1 = none := rfl

/-! ### Small states -/

/-- A present heliostat. -/
def cfg (seg address group weight : Nat) : HelioConfig := ⟨true, seg, address, group, weight, 0#16, 0#16, 0⟩

/-- Three heliostats on two segments, two aim points, one standby point and two zones. -/
def tables : Tables where
  helio := [(0, cfg 0 5 1 10), (1, cfg 0 6 1 20), (2, cfg 1 5 2 30)]
  aim := [(3, ⟨true, 1#16, 2#16, 3#16, [(0, 4)]⟩), (4, ⟨true, 1#16, 2#16, 4#16, [(0, 2), (1, 2)]⟩)]
  standby := [(0, ⟨true, 7#16, 8#16, 9#16⟩)]
  zone := [(0, ⟨100, 50, 50, 2400⟩), (1, ⟨100, 50, 50, 2400⟩)]
  slewLimit := 60
  critical := [(0, 2800), (1, 2800)]
  watch := ⟨1, .latch, true, true⟩

/-- A zone with a good reading. -/
def fresh : ZoneRun := { ZoneRun.blank with stale := false, lastReading := some 2000, staleEnds := some 2000, budget := 100 }

/-- A heliostat at standby. -/
def idle : HelioRun := { HelioRun.blank with state := .standby, lastExchange := some 0 }
/-- A heliostat on its aim. -/
def tracking (a : Nat) : HelioRun := { idle with state := .tracking, granted := some a }
/-- A heliostat granted an aim by an order, not yet accepted. -/
def granted (a : Nat) (leaving : Option Nat) : HelioRun :=
  { idle with
    state := .slewing, granted := some a, leaving := leaving, motionCause := some .order, origin := some (.order 7#8)
    reAim := leaving.isSome }
/-- A heliostat whose move to its aim is under way. -/
def moving (a : Nat) : HelioRun := { granted a none with accepted := true, slewEnds := some 61000 }

/-- The field with these records, its accounts exact. -/
def fld (op : OpState) (runs : Table HelioRun) (zones : Table ZoneRun) : Field :=
  let env : Env := ⟨tables, op, false, true, 1000⟩
  let zs : Table ZoneRun := List.map (fun p : Nat × ZoneRun =>
    let v := { p.2 with
      committed := Table.total (fun h r => env.load h r p.1) runs, pending := Table.total (fun h r => env.pendingLoad h r p.1) runs }
    (p.1, { v with overBudget := v.isOver, unsheddable := v.inExcess })) zones
  let refs : Table Nat := (List.range 8).map fun a => (a, Table.total (fun _ r => if a ∈ r.aims then 1 else 0) runs)
  let f := { Field.blank with
    helio := runs, zone := zs, refs := refs.filter (fun p => p.2 != 0)
    grants := List.map (fun p : Nat × HelioRun => p.1) (runs.filter (fun p => p.2.granted.isSome)) }
  { f with trip := ⟨f.anyCritical, f.anyNonCritical, f.anyCritical || f.anyNonCritical, f.anyCritical || f.anyNonCritical⟩ }

/-- A running part in an operating state with these records. -/
def part (op : OpState) (runs : Table HelioRun) : State :=
  { State.reset with
    now := 1000, live := tables, store := ⟨tables, ProtMarks.none, []⟩, osc := { State.reset.osc with
      opState := op, cause := .order, wake := if op = .waking then some ⟨.hold, 0, 900⟩ else none
      surveyEnds := if op = .survey then some 90000 else none }
    field := fld op runs [(0, fresh), (1, fresh)] }

/-- A running part in an operating state with these records and other zones. -/
def partZ (op : OpState) (runs : Table HelioRun) (z0 : ZoneRun) : State :=
  { part op runs with field := fld op runs [(0, z0), (1, fresh)] }

/-- Every heliostat at standby. -/
def calm : Table HelioRun := [(0, idle), (1, idle), (2, idle)]
/-- Heliostat 0 on aim 3, the others at standby. -/
def aimed : Table HelioRun := [(0, tracking 3), (1, idle), (2, idle)]

/-- The order `c` is the frame received. -/
def withOrder (c : Instr) (s : State) : State := { s with ulp := { s.ulp with rxBuf := (orderBody c).toList } }

/-- A segment engine in place. -/
def withSxe (g : Nat) (x : Sxe) (s : State) : State := { s with field := s.field.setSxe g x }

/-- An exchange of a heliostat of `tables`, its answer awaited from 999 ms on. -/
def awaiting (h address : Nat) (kind : ExKind) : Exchange := ⟨h, address, kind, [1#8], false, .awaiting 999⟩

/-- A program running in slot 3 at level 2. -/
def withProgram (steps : List Step) (s : State) : State :=
  { s with
    field := { s.field with
      slot := [(3, { Slot.blank with steps := steps, state := .running, level := some 2, startTag := some 9#8 })]
      arbiter := ⟨some 3, [], []⟩ } }

/-- That program waiting. -/
def withWait (steps : List Step) (on : WaitOn) (s : State) : State :=
  { s with
    field := { s.field with
      slot := [(3, { Slot.blank with
        steps := steps, state := .waiting, level := some 2, startTag := some 9#8, waitingOn := some on })]
      arbiter := ⟨some 3, [], []⟩ } }

/-- The state a command leaves. -/
def after (c : Instr) (s : State) : State := match exec c s with
  | .next t => t
  | _ => s

/-- The order `c` is due in `s`, and `s` has every fact the statements assume. -/
structure Due (c : Instr) (s : State) : Prop where
  facts : s.Facts
  due : s.OrderDue c

theorem due_of {c : Instr} {s : State}
    (h : s.factsCheck ∧ s.phase = .running ∧ s.ulp.waiting = none ∧ s.ulp.tx = none ∧ (orderBody c).isSome
      ∧ s.ulp.rxBuf = (orderBody c).toList) : Due c s := by
  obtain ⟨h1, h2, h3, h4, h5, h6⟩ := h
  refine ⟨State.facts_of_check h1, h2, h3, by simp [h4], ?_⟩
  obtain ⟨b, hb⟩ := Option.isSome_iff_exists.1 h5
  exact ⟨b, [], hb, by simp [h6, hb]⟩

/-- A program step is due in `s`, and `s` has every fact the statements assume. -/
theorem stepDue_of {k : Nat} {st : Step} {s : State}
    (h : s.factsCheck ∧ s.phase = .running ∧ s.field.arbiter.active = some k ∧ (s.field.slotAt k).state = .running
      ∧ (s.field.slotAt k).steps[(s.field.slotAt k).current]? = some st) : s.Facts ∧ s.StepDue k st :=
  ⟨State.facts_of_check h.1, h.2⟩

theorem waitDue_of {k : Nat} {st : Step} {on : WaitOn} {s : State}
    (h : s.factsCheck ∧ s.phase = .running ∧ s.field.arbiter.active = some k ∧ (s.field.slotAt k).state = .waiting
      ∧ (s.field.slotAt k).steps[(s.field.slotAt k).current]? = some st ∧ (s.field.slotAt k).waitingOn = some on) :
    s.Facts ∧ s.WaitDue k st on :=
  ⟨State.facts_of_check h.1, h.2⟩

theorem answerDue_of {g : Nat} {x : Exchange} {frame : List Byte} {fr : SegFrame} {since : Nat} {s : State}
    (h : s.factsCheck ∧ s.phase = .running ∧ (s.field.sxeAt g).exchange = some x ∧ x.phase = .awaiting since
      ∧ readSegFrame frame = some fr ∧ fr.checkOk = true ∧ fr.address = x.address) : s.Facts ∧ s.AnswerDue g x frame fr :=
  ⟨State.facts_of_check h.1, h.2.1, h.2.2.1, ⟨since, h.2.2.2.1⟩, h.2.2.2.2⟩

/-! ### States and operands that meet the statements' hypotheses -/

theorem test_w_StepTakesFrontCommand : ∃ (s : State) (c : Instr) (rest : List Instr), s.pending = c :: rest :=
  ⟨{ State.reset with pending := [.frameSent] }, .frameSent, [], rfl⟩

theorem test_w_EveryStepAnswersNext : State.reset.pending = [] := rfl

/-- A part with a load holder, and an order in front. -/
def busyPart : State := { withOrder (.aim 1#8 1#16 4#8) (part .operate aimed) with pending := [.aim 1#8 1#16 4#8] }
/-- A field-safe part with a CRITICAL zone, its load pending, in HOLD. -/
def safePart : State :=
  let s := partZ .hold [(0, { tracking 3 with owed := some ⟨.defocus, .safe⟩ }), (1, idle), (2, idle)]
    { fresh with critical := true, budget := 0 }
  { s with osc := { s.osc with fieldSafe := true }, fsafeAsserted := true, pending := [.frameSent] }

theorem test_w_KeptByEveryStep : ∃ s t, s.Facts ∧ s.phase = .running ∧ t.phase = .running ∧ step s = .next t :=
  ⟨busyPart, after (.aim 1#8 1#16 4#8) { busyPart with pending := [] }, State.facts_of_check (by decide +kernel), rfl,
    by decide +kernel, rfl⟩
theorem test_w_KeptByEveryStepSafe : ∃ s t, s.Facts ∧ s.osc.fieldSafe = true ∧ (s.field.zoneAt 0).critical = true
    ∧ s.phase = .running ∧ t.phase = .running ∧ step s = .next t :=
  ⟨safePart, { safePart with pending := [] }, State.facts_of_check (by decide +kernel), rfl, by decide, rfl, rfl, rfl⟩

/-- In LATCH mode a zone becomes CRITICAL, a zone becomes UNSHEDDABLE, and a heliostat enters accounted LOST (R100). -/
def onsets : List State :=
  let lost : State := part .hold [(0, { idle with state := .lost, granted := some 3 }), (1, idle), (2, idle)]
  let silent : State := withSxe 0 { Sxe.blank with exchange := some ⟨0, 5, .query, [1#8], true, .awaiting 999⟩ }
    (part .hold [(0, { tracking 3 with silentCount := 2, inFlight := true }), (1, idle), (2, idle)])
  [{ part .operate aimed with pending := [.sensorReading [0xA5#8, 0#8, 0x0A#8, 0xF0#8, 0#8, 0x93#8]] },
    { withOrder (.setCeiling 7#8 0#8 0#8 0#24) lost with pending := [.setCeiling 7#8 0#8 0#8 0#24] },
    { silent with pending := [.driveResponseTimeout 0] }]
/-- A part in FOLLOW mode with a CRITICAL zone, about to be written into LATCH mode. -/
def intoLatch : State :=
  let c := Instr.tableWrite 7#8 6#8 0#16 1#8 [0x31#8]
  let s := withOrder c safePart
  { s with
    pending := [c], live := { tables with watch := ⟨1, .follow, true, true⟩ }
    field := { s.field with trip := ⟨true, false, false, true⟩ } }
/-- What a step leaves. -/
def stepped (s : State) : State := match step s with
  | .next t => t
  | _ => s
theorem test_onsetLatches : (∀ s ∈ onsets, (stepped s).live.watch.mode = .latch ∧ (stepped s).field.trip.latch = true
      ∧ (stepped s).field.trip.asserted = true)
    ∧ (stepped intoLatch).live.watch.mode = .latch ∧ (stepped intoLatch).field.trip.latch = true := by decide +kernel
theorem test_w_TripRecordExactAtEveryStep :
    (∀ s ∈ onsets, s.Facts ∧ s.live.watch.mode = .latch ∧ step s = .next (stepped s)
      ∧ (((s.field.zoneAt 0).critical = false ∧ ((stepped s).field.zoneAt 0).critical = true)
        ∨ ((s.field.zoneAt 0).unsheddable = false ∧ ((stepped s).field.zoneAt 0).unsheddable = true)
        ∨ ((s.field.run 0).state ≠ .lost ∧ ((stepped s).field.run 0).state = .lost ∧ ((stepped s).field.run 0).unaccounted = false)))
      ∧ intoLatch.Facts ∧ intoLatch.live.watch.mode = .follow ∧ step intoLatch = .next (stepped intoLatch) := by
  have h : ∀ s ∈ onsets, s.factsCheck = true ∧ s.live.watch.mode = .latch
      ∧ (((s.field.zoneAt 0).critical = false ∧ ((stepped s).field.zoneAt 0).critical = true)
        ∨ ((s.field.zoneAt 0).unsheddable = false ∧ ((stepped s).field.zoneAt 0).unsheddable = true)
        ∨ ((s.field.run 0).state ≠ .lost ∧ ((stepped s).field.run 0).state = .lost
          ∧ ((stepped s).field.run 0).unaccounted = false)) := by decide +kernel
  have hn : ∀ s ∈ onsets, ∃ t, step s = .next t := by
    intro s hs
    simp only [onsets, List.mem_cons, List.not_mem_nil, or_false] at hs
    rcases hs with rfl | rfl | rfl <;> exact ⟨_, rfl⟩
  refine ⟨fun s hs => ⟨State.facts_of_check (h s hs).1, (h s hs).2.1, ?_, (h s hs).2.2⟩,
    State.facts_of_check (by decide +kernel), rfl, rfl⟩
  obtain ⟨t, ht⟩ := hn s hs
  rw [stepped, ht]

theorem test_w_LimitLockHeldUntilPowerOnReset :
    (exec .frameSent { State.reset with limitLock := true } = .next { State.reset with limitLock := true })
      ∧ Due (.lockLimits 7#8) (withOrder (.lockLimits 7#8) (part .hold calm)) :=
  ⟨rfl, due_of (by decide +kernel)⟩

theorem test_w_HardResetsHaltThePart : (part .operate aimed).Canonical
    ∧ { part .operate aimed with phase := .inReset .pin }.phase = .inReset .pin
    ∧ ({ part .operate aimed with phase := .inReset .powerOn } : State).phase = .inReset .powerOn :=
  ⟨(State.facts_of_check (s := part .operate aimed) (by decide +kernel)).sound.canonical, rfl, rfl⟩

theorem test_w_NothingActsUntilTablesLoaded : ({ State.reset with phase := .loading .pin } : State).phase ≠ .running := by decide

theorem test_w_TableLoadingBringsThePartUp :
    let s := { part .hold calm with phase := .loading .powerOn }
    s.phase = .loading .powerOn ∧ s.store.tables.Canonical :=
  ⟨rfl, (State.facts_of_check (s := part .hold calm) (by decide +kernel)).sound.canonical.2.2.1⟩
/-- A record made absent keeps the cause of its report and is read at its reset values (R16, R17, log entry 35). -/
theorem test_absentRecordReadsBlank :
    State.readRun { State.reset with field := State.reset.field.setRun 5 { HelioRun.blank with lastCause := some .order } } 5
      = HelioRun.blank := by decide

/-- From the blank store the part comes up as the reset state the model names (R191, log entry 1). -/
theorem test_blankStoreComesUp :
    exec (.tableLoadingDone []) { State.reset with phase := .loading .powerOn, field := Field.blank, watchOn := false } =
      .next State.reset := congrArg Host.Outcome.next (by decide +kernel)
/-- A damaged page is loaded blank and named; the others are as stored (R180). -/
theorem test_damagedPage :
    let t := after (.tableLoadingDone [.page .aim 0]) { part .hold calm with phase := .loading .pin }
    t.loadFaults = [.page .aim 0] ∧ (t.live.aimAt 3).present = false ∧ (t.live.helioAt 2).weight = 30
      ∧ t.osc.opState = .survey ∧ t.osc.cause = .pinReset := by decide +kernel

/-- A program that waits, in HOLD: a state no run reaches. -/
def heldProgram : State := withProgram [.wait 3 false] (part .hold calm)

theorem test_w_ResetOrder :
    let c := Instr.reset 7#8
    (Due c (withOrder c (part .operate calm)) ∧ (part .operate calm).osc.opState = .operate)
      ∧ (Due c (withOrder c (part .hold aimed)) ∧ ((part .hold aimed).field.run 0).holdsLoad = true)
      ∧ (Due c (withOrder c heldProgram) ∧ (heldProgram.field.slotAt 3).state.nonIdle = true)
      ∧ Due c (withOrder c (part .night calm)) :=
  ⟨⟨due_of (by decide +kernel), rfl⟩, ⟨due_of (by decide +kernel), by decide⟩, ⟨due_of (by decide +kernel), by decide⟩,
    due_of (by decide +kernel)⟩
theorem test_w_FrameSent :
    ({ part .hold calm with ulp := { Ulp.blank with tx := some ⟨.answer true, []⟩ } } : State).ulp.tx = some ⟨.answer true, []⟩
      ∧ (part .hold calm).phase = .running ∧ (part .hold calm).Sound :=
  ⟨rfl, rfl, (State.facts_of_check (s := part .hold calm) (by decide +kernel)).sound⟩

theorem test_w_ReceiverJudgesEveryFrame :
    (part .hold calm).phase = .running ∧ (part .hold calm).ulp.rx = none
      ∧ ({ part .hold calm with ulp := { Ulp.blank with rx := some [] } } : State).ulp.rx ≠ none
      ∧ ({ State.reset with phase := .inReset .pin } : State).phase ≠ .running := by decide
/-- A STATUS order's frame joins the receive buffer; with one bit wrong it is discarded CRC; a length of 241 is LENGTH (R168). -/
theorem test_receiver :
    (after (.uplinkFrame (uplinkFrameBytes [0x16#8, 7#8])) State.reset).ulp.rxBuf = [[0x16#8, 7#8]]
      ∧ (after (.uplinkFrame (0xC3#8 :: 3#8 :: (uplinkFrameBytes [0x16#8, 7#8]).tail.tail)) State.reset).ulp.rx ≠ none
      ∧ (after (.uplinkFrame [0xC3#8, 2#8, 0x16#8, 7#8, 0#8, 0#8]) State.reset).ulp.lastError = some .crc
      ∧ (after (.uplinkFrame [0xC3#8, 241#8]) State.reset).ulp.lastError = some .length := by decide +kernel

theorem test_w_EveryTakenOrderEarnsOneAnswer :
    (let s := { part .hold calm with ulp := { Ulp.blank with rxBuf := [[0x55#8, 7#8]] } };
      s.phase = .running ∧ s.ulp.waiting = none ∧ s.ulp.tx = none ∧ s.ulp.rxBuf = [[0x55#8, 7#8]] ∧ orderLength 0x55#8 = none)
      ∧ orderBody (.status 7#8) = some [0x16#8, 7#8] ∧ Due (.status 7#8) (withOrder (.status 7#8) (part .hold calm))
      ∧ ¬ (part .hold calm).OrderDue (.status 7#8) :=
  ⟨by decide, rfl, due_of (by decide +kernel), fun h => by
    obtain ⟨_, _, _, body, rest, _, h⟩ := h; exact absurd h (by simp [part, State.reset, Ulp.blank])⟩

theorem test_w_AnswersSentBeforeDeferredOnes :
    (let s := { part .hold calm with ulp := { Ulp.blank with waiting := some ⟨[0x80#8], false⟩ } };
      s.phase = .running ∧ s.ulp.tx = none ∧ s.ulp.waiting = some ⟨[0x80#8], false⟩)
      ∧ (let s := { part .hold calm with ulp := { Ulp.blank with deferred := [(3, .ready [0x80#8])], readyOrder := [3] } };
        s.ulp.waiting = none ∧ s.ulp.rxBuf = [] ∧ s.ulp.readyOrder = [3] ∧ s.ulp.deferredAt 3 = .ready [0x80#8]
          ∧ Table.wf Config.segments Deferred.empty s.ulp.deferred)
      ∧ (withOrder (.status 7#8) (part .hold calm)).ulp.rxBuf ≠ [] := by decide +kernel

/-- Reports wait, with a source owed and without. -/
def reporting (owed : Bool) : State :=
  let s := part .hold calm
  { s with field := { s.field with reports := { Reports.empty with queue := [.zone 1], tripOwed := owed } } }
theorem test_w_ReportsSentFromTheHead :
    ((reporting true).Facts ∧ (reporting true).field.reportOwed .trip = true ∧ (reporting true).field.reports.queue = [.zone 1])
      ∧ (reporting false).Facts ∧ (reporting false).phase = .running ∧ (reporting false).ulp.tx = none
      ∧ (reporting false).ulp.waiting = none ∧ (reporting false).ulp.readyOrder = [] ∧ (reporting false).ulp.rxBuf = [] :=
  ⟨⟨State.facts_of_check (by decide +kernel), rfl, rfl⟩, State.facts_of_check (by decide +kernel), by decide⟩

/-! #### Field-safe, reads and zones -/

/-- Heliostat 0 queued for aim 4, from rest or leaving aim 3, its segment busy with another heliostat's poll. -/
def queuedPart (leaving : Option Nat) : State :=
  withSxe 0 { Sxe.blank with queue := [⟨0, 4, .order 7#8⟩], exchange := some (awaiting 1 6 .query) }
    (part .operate [(0, { granted 4 leaving with queued := true }), (1, { idle with inFlight := true }), (2, idle)])

theorem test_w_FieldSafeOnsetAndRelease :
    ((part .operate aimed).Facts ∧ (part .operate aimed).osc.fieldSafe = false ∧ (part .operate aimed).phase = .running)
      ∧ safePart.osc.fieldSafe = true ∧ safePart.phase = .running
      ∧ ∀ b ∈ [none, some 3], (queuedPart b).Facts ∧ ((queuedPart b).field.run 0).queued = true
        ∧ ((queuedPart b).field.run 0).leaving = b ∧ (queuedPart b).osc.fieldSafe = false := by
  have h : ∀ b ∈ [none, some 3], (queuedPart b).factsCheck = true ∧ ((queuedPart b).field.run 0).queued = true
      ∧ ((queuedPart b).field.run 0).leaving = b ∧ (queuedPart b).osc.fieldSafe = false := by decide +kernel
  exact ⟨⟨State.facts_of_check (by decide +kernel), rfl, rfl⟩, rfl, rfl,
    fun b hb => ⟨State.facts_of_check (h b hb).1, (h b hb).2⟩⟩
/-- At the onset a queued heliostat granted from rest is at rest and owes nothing, a queued re-aim TRACKING its old aim owes DEFOCUS
(R159, R37, R38), and the STATE EVENT is queued (R165). -/
theorem test_onsetWithdraws :
    let t := after .fsafeAssert (queuedPart none)
    let u := after .fsafeAssert (queuedPart (some 3))
    ((t.field.run 0).state = .standby ∧ (t.field.run 0).owed = none ∧ (t.field.run 0).lastCause = some .safe)
      ∧ ((u.field.run 0).state = .tracking ∧ (u.field.run 0).granted = some 3 ∧ (u.field.run 0).owed = some ⟨.defocus, .safe⟩)
      ∧ .opState ∈ t.field.reports.queue := by decide +kernel
/-- The onset owes the load holder DEFOCUS, cause SAFE, and leaves OPERATE (R159). -/
theorem test_fieldSafeOnset :
    let t := after .fsafeAssert (part .operate aimed)
    (t.field.run 0).owed = some ⟨.defocus, .safe⟩ ∧ t.osc.opState = .hold ∧ t.osc.fieldSafe = true
      ∧ (t.field.zoneAt 0).committed = (t.field.zoneAt 0).pending := by decide +kernel

theorem test_w_FieldDefocusMakesTheFieldSafe :
    Due (.fieldDefocus 7#8) (withOrder (.fieldDefocus 7#8) (withProgram [.wait 3 false] (part .operate aimed)))
      ∧ Due (.fieldDefocus 7#8) (withOrder (.fieldDefocus 7#8) (queuedPart none))
      ∧ Due (.fieldDefocus 7#8) (withOrder (.fieldDefocus 7#8) (queuedPart (some 3)))
      ∧ (queuedPart none).osc.safeState ≠ (queuedPart none).osc ∧ (part .hold calm).osc.safeState = (part .hold calm).osc :=
  ⟨due_of (by decide +kernel), due_of (by decide +kernel), due_of (by decide +kernel), by decide⟩

theorem test_w_ReadOrdersAnswerWhatStands :
    Due (.status 7#8) (withOrder (.status 7#8) (part .hold calm))
      ∧ Due (.readZone 7#8 63#8) (withOrder (.readZone 7#8 63#8) (part .hold calm))
      ∧ Due (.readZone 7#8 64#8) (withOrder (.readZone 7#8 64#8) (part .hold calm))
      ∧ Due (.readHeliostat 7#8 4095#16) (withOrder (.readHeliostat 7#8 4095#16) (part .hold calm))
      ∧ Due (.readHeliostat 7#8 4096#16) (withOrder (.readHeliostat 7#8 4096#16) (part .hold calm))
      ∧ Due (.tableRead 7#8 0#8 15#16 1#8) (withOrder (.tableRead 7#8 0#8 15#16 1#8) (part .hold calm))
      ∧ Due (.tableRead 7#8 7#8 15#16 2#8) (withOrder (.tableRead 7#8 7#8 15#16 2#8) (part .hold calm))
      ∧ Due (.protectionStatus 7#8) (withOrder (.protectionStatus 7#8) (part .hold calm)) :=
  ⟨due_of (by decide +kernel), due_of (by decide +kernel), due_of (by decide +kernel), due_of (by decide +kernel),
    due_of (by decide +kernel), due_of (by decide +kernel), due_of (by decide +kernel), due_of (by decide +kernel)⟩

theorem test_w_ReadProgramStatusFreesTheEndedSlot :
    Due (.readProgramStatus 7#8 8#8) (withOrder (.readProgramStatus 7#8 8#8) (part .hold calm))
      ∧ Due (.readProgramStatus 7#8 7#8) (withOrder (.readProgramStatus 7#8 7#8) (part .hold calm)) :=
  ⟨due_of (by decide +kernel), due_of (by decide +kernel)⟩

theorem test_w_SetCeilingSetsTheRange :
    Due (.setCeiling 7#8 0#8 64#8 0#24) (withOrder (.setCeiling 7#8 0#8 64#8 0#24) (part .hold calm))
      ∧ Due (.setCeiling 7#8 5#8 4#8 0#24) (withOrder (.setCeiling 7#8 5#8 4#8 0#24) (part .hold calm))
      ∧ Due (.setCeiling 7#8 0#8 63#8 8388608#24) (withOrder (.setCeiling 7#8 0#8 63#8 8388608#24) (part .hold calm))
      ∧ Due (.setCeiling 7#8 0#8 63#8 8388607#24) (withOrder (.setCeiling 7#8 0#8 63#8 8388607#24) (part .hold calm))
      ∧ Due (.setCeiling 7#8 0#8 63#8 0xFFFFFF#24) (withOrder (.setCeiling 7#8 0#8 63#8 0xFFFFFF#24) (part .hold calm)) :=
  ⟨due_of (by decide +kernel), due_of (by decide +kernel), due_of (by decide +kernel), due_of (by decide +kernel),
    due_of (by decide +kernel)⟩

/-! #### AIM, motions, flags, PASS -/

theorem test_w_AimRefusedChangesNothing :
    (Due (.aim 7#8 1#16 3#8) (withOrder (.aim 7#8 1#16 3#8) (part .operate aimed))
        ∧ (part .operate aimed).aimJudgement 1 3 = some ⟨.noBudget, [0#8, 0#8, 0#8, 60#8]⟩)
      ∧ (part .operate aimed).aimJudgement 0 3 = some ⟨.done, [1#8]⟩
      ∧ (part .hold aimed).aimJudgement 1 4 = some (.plain .state) ∧ (part .operate aimed).aimJudgement 3 4 = some (.plain .range) :=
  ⟨⟨due_of (by decide +kernel), by decide +kernel⟩, by decide +kernel⟩
theorem test_w_AimGrantCommitsTheLoad :
    (Due (.aim 7#8 1#16 4#8) (withOrder (.aim 7#8 1#16 4#8) (part .operate aimed))
        ∧ (withOrder (.aim 7#8 1#16 4#8) (part .operate aimed)).aimJudgement 1 4 = none)
      ∧ Due (.aim 7#8 0#16 4#8) (withOrder (.aim 7#8 0#16 4#8) (part .operate aimed))
      ∧ (withOrder (.aim 7#8 0#16 4#8) (part .operate aimed)).aimJudgement 0 4 = none :=
  ⟨⟨due_of (by decide +kernel), by decide +kernel⟩, due_of (by decide +kernel), by decide +kernel⟩
/-- Heliostat 1 granted aim 4 holds 40 on both zones (R25, R34). -/
theorem test_aimGrant :
    let t := after (.aim 7#8 1#16 4#8) (withOrder (.aim 7#8 1#16 4#8) (part .operate aimed))
    (t.field.run 1).state = .slewing ∧ (t.field.zoneAt 0).committed = 80 ∧ (t.field.zoneAt 1).committed = 40
      ∧ t.field.grants = [0, 1] ∧ t.ulp.waiting = some ⟨[0x80#8, 7#8, 1#8, 0#8, 0#8], false⟩ := by decide +kernel

/-- A PASS for heliostat 0 held on segment 0. -/
def passPart : State :=
  withSxe 0 { Sxe.blank with passSlot := some ⟨0, 8#8, [0x20#8]⟩ }
    (part .hold [(0, { idle with inFlight := true }), (1, idle), (2, idle)])

theorem test_w_MotionOrderOwesOneHeliostat :
    Due (.defocus 7#8 0#8 3#16) (withOrder (.defocus 7#8 0#8 3#16) (part .hold calm))
      ∧ Due (.stow 7#8 0#8 0#16) (withOrder (.stow 7#8 0#8 0#16)
        (part .hold [(0, { idle with state := .faulted, fault := some .busy }), (1, idle), (2, idle)]))
      ∧ Due (.stow 7#8 0#8 0#16) (withOrder (.stow 7#8 0#8 0#16)
        (part .hold [(0, { idle with maint := true }), (1, idle), (2, idle)]))
      ∧ (Due (.stow 7#8 0#8 0#16) (withOrder (.stow 7#8 0#8 0#16) passPart)
        ∧ (passPart.field.sxeAt 0).passSlot = some ⟨0, 8#8, [0x20#8]⟩)
      ∧ Due (.defocus 7#8 0#8 0#16) (withOrder (.defocus 7#8 0#8 0#16) (part .operate aimed))
      ∧ Due (.stow 7#8 0#8 0#16) (withOrder (.stow 7#8 0#8 0#16) (queuedPart none))
      ∧ Due (.defocus 7#8 0#8 0#16) (withOrder (.defocus 7#8 0#8 0#16) (queuedPart (some 3))) :=
  ⟨due_of (by decide +kernel), due_of (by decide +kernel), due_of (by decide +kernel), ⟨due_of (by decide +kernel), by decide⟩,
    due_of (by decide +kernel), due_of (by decide +kernel), due_of (by decide +kernel)⟩

theorem test_w_MotionOrderOwesTheScope :
    Due (.defocus 7#8 3#8 0#16) (withOrder (.defocus 7#8 3#8 0#16) (part .operate aimed))
      ∧ Due (.stow 7#8 1#8 64#16) (withOrder (.stow 7#8 1#8 64#16) (part .operate aimed))
      ∧ Due (.stow 7#8 1#8 1#16) (withOrder (.stow 7#8 1#8 1#16) (part .operate aimed))
      ∧ Due (.defocus 7#8 2#8 0#16) (withOrder (.defocus 7#8 2#8 0#16) (part .operate aimed))
      ∧ Due (.stow 7#8 2#8 0#16) (withOrder (.stow 7#8 2#8 0#16) (queuedPart none))
      ∧ Due (.defocus 7#8 1#8 1#16) (withOrder (.defocus 7#8 1#8 1#16) (queuedPart (some 3))) :=
  ⟨due_of (by decide +kernel), due_of (by decide +kernel), due_of (by decide +kernel), due_of (by decide +kernel),
    due_of (by decide +kernel), due_of (by decide +kernel)⟩
/-- A STANDBY heliostat that owes a STOW and is given a DEFOCUS order is left owing nothing (R11, log entry 36). -/
theorem test_defocusAtStandby :
    let s := part .hold [(0, { idle with owed := some ⟨.stow, .order⟩ }), (1, idle), (2, idle)]
    ((after (.defocus 7#8 0#8 0#16) (withOrder (.defocus 7#8 0#8 0#16) s)).field.run 0).owed = none := by decide +kernel

theorem test_w_ClearFaultMakesUnsure :
    let s := part .hold [(0, { idle with state := .faulted, fault := some .busy }), (1, idle), (2, idle)]
    Due (.clearFault 7#8 2#8 0#16) (withOrder (.clearFault 7#8 2#8 0#16) s)
      ∧ Due (.clearFault 7#8 1#8 64#16) (withOrder (.clearFault 7#8 1#8 64#16) s)
      ∧ Due (.clearFault 7#8 0#8 3#16) (withOrder (.clearFault 7#8 0#8 3#16) s)
      ∧ Due (.clearFault 7#8 0#8 0#16) (withOrder (.clearFault 7#8 0#8 0#16) s)
      ∧ Due (.clearFault 7#8 1#8 63#16) (withOrder (.clearFault 7#8 1#8 63#16) s) :=
  ⟨due_of (by decide +kernel), due_of (by decide +kernel), due_of (by decide +kernel), due_of (by decide +kernel),
    due_of (by decide +kernel)⟩

theorem test_w_FlagsSetAndClear :
    Due (.flagsSet 7#8 64#8 1#8) (withOrder (.flagsSet 7#8 64#8 1#8) (part .hold calm))
      ∧ Due (.flagsSet 7#8 63#8 4#8) (withOrder (.flagsSet 7#8 63#8 4#8) (part .hold calm))
      ∧ Due (.flagsSet 7#8 1#8 3#8) (withOrder (.flagsSet 7#8 1#8 3#8) (part .operate aimed))
      ∧ Due (.flagsClear 7#8 1#8 0#8) (withOrder (.flagsClear 7#8 1#8 0#8) (part .hold calm))
      ∧ Due (.flagsClear 7#8 63#8 3#8) (withOrder (.flagsClear 7#8 63#8 3#8) (part .operate aimed)) :=
  ⟨due_of (by decide +kernel), due_of (by decide +kernel), due_of (by decide +kernel), due_of (by decide +kernel),
    due_of (by decide +kernel)⟩

/-- The PASS of `passPart` in flight. -/
def relayPart : State :=
  withSxe 0 { Sxe.blank with passSlot := some ⟨0, 8#8, [0x20#8]⟩, exchange := some (awaiting 0 5 .pass) }
    (part .hold [(0, { idle with inFlight := true }), (1, idle), (2, idle)])
theorem test_w_PassHeldThenRelayed :
    (Due (.pass 7#8 0#16 [1#8]) (withOrder (.pass 7#8 0#16 [1#8]) (part .hold calm))
        ∧ (part .hold calm).passJudgement 0 1#8 = some (.plain .format))
      ∧ (Due (.pass 7#8 2#16 [0x20#8]) (withOrder (.pass 7#8 2#16 [0x20#8]) (part .hold calm))
        ∧ (withOrder (.pass 7#8 2#16 [0x20#8]) (part .hold calm)).passJudgement 2 0x20#8 = none)
      ∧ relayPart.Facts ∧ (relayPart.field.sxeAt 0).exchange = some (awaiting 0 5 .pass)
      ∧ (readSegFrame (segmentFrame 5 0x60#8 [])).isSome :=
  ⟨⟨due_of (by decide +kernel), by decide +kernel⟩, ⟨due_of (by decide +kernel), by decide +kernel⟩,
    State.facts_of_check (by decide +kernel), by decide +kernel⟩

/-! #### The Receiver Watch -/

theorem test_w_GoodReadingJudgesTheZone :
    let s := part .operate aimed
    s.Facts ∧ s.takesReadings = true ∧ s.sensorRx = none ∧ crc8 [0#8, 0x0A#8, 0xF0#8, 0#8] = 0x93#8 ∧ nat16 0x0A#8 0xF0#8 = 2800
      ∧ crc8 [63#8, 0x0F#8, 0xFF#8, 0#8] = 0xEB#8 ∧ nat16 0x0F#8 0xFF#8 = 4095 :=
  ⟨State.facts_of_check (by decide +kernel), by decide +kernel⟩
/-- A reading at the critical limit owes the zone's load holder DEFOCUS, cause CRITICAL (R88, R93). -/
theorem test_criticalReading :
    let t := after (.sensorReading [0xA5#8, 0#8, 0x0A#8, 0xF0#8, 0#8, crc8 [0#8, 0x0A#8, 0xF0#8, 0#8]]) (part .operate aimed)
    (t.field.zoneAt 0).critical = true ∧ (t.field.zoneAt 0).budget = 0 ∧ (t.field.run 0).owed = some ⟨.defocus, .critical⟩
      ∧ t.field.trip.latch = true := by decide +kernel

theorem test_w_OtherReadingsAndDiscards :
    ((part .operate aimed).Facts ∧ (part .operate aimed).takesReadings = true
        ∧ crc8 [1#8, 0#8, 0#8, 1#8] = 0x11#8 ∧ ((part .operate aimed).field.zoneAt 1).stale = false
        ∧ ((part .operate aimed).field.zoneAt 2).stale = true ∧ ((part .operate aimed).field.zoneAt 1).staleEnds = some 2000)
      ∧ (part .night calm).Facts ∧ (part .night calm).takesReadings = false :=
  ⟨⟨State.facts_of_check (by decide +kernel), by decide +kernel⟩, State.facts_of_check (by decide +kernel), by decide⟩

theorem test_w_WatchOffAndOn :
    Due (.watchOff 7#8) (withOrder (.watchOff 7#8) { part .operate aimed with limitLock := true })
      ∧ Due (.watchOff 7#8) (withOrder (.watchOff 7#8) (part .operate aimed))
      ∧ Due (.watchOn 7#8) (withOrder (.watchOn 7#8) (part .operate aimed))
      ∧ (let s := { State.reset with watchOn := false };
        Due (.watchOff 7#8) (withOrder (.watchOff 7#8) s) ∧ Due (.watchOn 7#8) (withOrder (.watchOn 7#8) s)) :=
  ⟨due_of (by decide +kernel), due_of (by decide +kernel), due_of (by decide +kernel), due_of (by decide +kernel),
    due_of (by decide +kernel)⟩

theorem test_w_ClearTripClearsTheLatch :
    (Due (.clearTrip 7#8) (withOrder (.clearTrip 7#8) safePart) ∧ safePart.live.watch.mode = .latch
        ∧ safePart.field.trip.latch = true)
      ∧ (Due (.clearTrip 7#8) (withOrder (.clearTrip 7#8) (part .hold calm)) ∧ (part .hold calm).field.trip.latch = false
        ∧ (part .hold calm).field.trip.asserted = false)
      ∧ Due (.clearTrip 7#8) (withOrder (.clearTrip 7#8) State.reset) ∧ State.reset.live.watch.mode ≠ .latch :=
  ⟨⟨due_of (by decide +kernel), rfl, by decide⟩, ⟨due_of (by decide +kernel), by decide⟩, due_of (by decide +kernel), by decide⟩

/-! #### Programs -/

/-- A frame loads these records into slot 7. -/
def loads (count : Byte) (records : List Byte) : Instr := .loadProgram 7#8 7#8 count records
theorem test_w_LoadProgramReplacesTheSlot :
    (let c := Instr.loadProgram 7#8 8#8 0#8 [];
      Due c (withOrder c (part .hold calm)))
      ∧ (let c := Instr.loadProgram 7#8 3#8 0#8 [];
        Due c (withOrder c heldProgram))
      ∧ Due (loads 1#8 []) (withOrder (loads 1#8 []) (part .hold calm))
      ∧ (let r := [9#8, 0#8, 0#8, 0#8, 0#8, 0#8, 0#8];
        Due (loads 1#8 r) (withOrder (loads 1#8 r) (part .hold calm)) ∧ (cutRecords 7 1 r).map (readStep 1) = [.unknown])
      ∧ (let r := [7#8, 1#8, 0#8, 0#8, 0#8, 0#8, 0#8];
        Due (loads 1#8 r) (withOrder (loads 1#8 r) (part .hold calm)) ∧ (cutRecords 7 1 r).map (readStep 1) = [.outOfRange])
      ∧ (let r := [8#8, 0#8, 0#8, 0#8, 0#8, 0#8, 0#8];
        Due (loads 1#8 r) (withOrder (loads 1#8 r) (part .hold calm)) ∧ (cutRecords 7 1 r).map (readStep 1) = [.ok .finish])
      ∧ Due (loads 0#8 []) (withOrder (loads 0#8 []) (part .hold calm)) :=
  ⟨due_of (by decide +kernel), due_of (by decide +kernel), due_of (by decide +kernel), ⟨due_of (by decide +kernel), by decide⟩,
    ⟨due_of (by decide +kernel), by decide⟩, ⟨due_of (by decide +kernel), by decide⟩, due_of (by decide +kernel)⟩

/-- A slot with a loaded program. -/
def loaded : Slot := { Slot.blank with steps := [.finish], state := .loaded }
/-- Slot 1 loaded, and slot 3 active at level 2 in the given state. -/
def twoSlots (st : SlotState) (steps : List Step) (on : Option WaitOn) : State :=
  let s := part .operate calm
  { s with
    field := { s.field with
      slot := [(1, loaded), (3, { Slot.blank with
        steps := steps, state := st, level := some 2, startTag := some 9#8, waitingOn := on })]
      arbiter := ⟨some 3, [], []⟩ } }
/-- Slot 1 loaded and no program active. -/
def oneSlot : State := { part .operate calm with field := { (part .operate calm).field with slot := [(1, loaded)] } }

theorem test_w_StartProgramPlacesTheSlot :
    (Due (.startProgram 7#8 8#8 0#8) (withOrder (.startProgram 7#8 8#8 0#8) oneSlot)
        ∧ oneSlot.startJudgement 8 0 = some (.plain .range) ∧ oneSlot.startJudgement 1 4 = some (.plain .range))
      ∧ (Due (.startProgram 7#8 1#8 3#8) (withOrder (.startProgram 7#8 1#8 3#8) oneSlot) ∧ oneSlot.startJudgement 1 3 = none)
      ∧ (let s := twoSlots .running [.finish] none;
        Due (.startProgram 7#8 1#8 1#8) (withOrder (.startProgram 7#8 1#8 1#8) s) ∧ s.startJudgement 1 1 = none
          ∧ s.field.levelOf 3 = 2 ∧ (s.field.slotAt 3).insideHolding = false)
      ∧ (let s := twoSlots .waiting [.wait 3 true] (some (.timer 1300));
        Due (.startProgram 7#8 1#8 1#8) (withOrder (.startProgram 7#8 1#8 1#8) s) ∧ s.startJudgement 1 1 = none
          ∧ (s.field.slotAt 3).insideHolding = true)
      ∧ (let s := twoSlots .running [.finish] none;
        Due (.startProgram 7#8 1#8 2#8) (withOrder (.startProgram 7#8 1#8 2#8) s) ∧ s.startJudgement 1 2 = none) :=
  ⟨⟨due_of (by decide +kernel), by decide⟩, ⟨due_of (by decide +kernel), by decide⟩, ⟨due_of (by decide +kernel), by decide⟩,
    ⟨due_of (by decide +kernel), by decide⟩, ⟨due_of (by decide +kernel), by decide⟩⟩

/-- Slot 3 running, heliostat 0 queued by it for aim 4, from rest or leaving aim 3, and heliostat 1 queued by an order. -/
def haltPart (leaving : Option Nat) : State :=
  withProgram [.finish] (withSxe 0 { Sxe.blank with
      queue := [⟨0, 4, .program 3⟩, ⟨1, 4, .order 7#8⟩], exchange := some (awaiting 1 6 .query) }
    (part .operate [(0, { granted 4 leaving with queued := true, origin := some (.program 3) }),
      (1, { granted 4 none with queued := true, inFlight := true }), (2, idle)]))
theorem test_w_HaltProgramEndsTheRun :
    Due (.haltProgram 7#8 8#8) (withOrder (.haltProgram 7#8 8#8) (twoSlots .running [.finish] none))
      ∧ Due (.haltProgram 7#8 3#8) (withOrder (.haltProgram 7#8 3#8) (twoSlots .running [.finish] none))
      ∧ Due (.haltProgram 7#8 1#8) (withOrder (.haltProgram 7#8 1#8) (twoSlots .running [.finish] none))
      ∧ Due (.haltProgram 7#8 3#8) (withOrder (.haltProgram 7#8 3#8) (haltPart none))
      ∧ Due (.haltProgram 7#8 3#8) (withOrder (.haltProgram 7#8 3#8) (haltPart (some 3)))
      ∧ ((haltPart none).field.sxeAt 0).queue = [⟨0, 4, .program 3⟩, ⟨1, 4, .order 7#8⟩] :=
  ⟨due_of (by decide +kernel), due_of (by decide +kernel), due_of (by decide +kernel), due_of (by decide +kernel),
    due_of (by decide +kernel), by decide⟩
/-- The entry of the slot's origin is withdrawn, cause REVOKED; the other keeps its place (R129). -/
theorem test_haltWithdraws :
    let t := after (.haltProgram 7#8 3#8) (withOrder (.haltProgram 7#8 3#8) (haltPart (some 3)))
    (t.field.sxeAt 0).queue = [⟨1, 4, .order 7#8⟩] ∧ (t.field.run 0).state = .tracking ∧ (t.field.run 0).granted = some 3
      ∧ (t.field.run 0).lastCause = some .revoked ∧ (t.field.slotAt 3).endCause = some .halted := by decide +kernel

theorem test_w_JumpAndTestGoOn :
    (let s := withProgram [.jump 0] (part .operate calm);
      s.Facts ∧ s.StepDue 3 (.jump 0))
      ∧ (let s := withProgram [.test (.notOver 0), .finish, .finish] (part .operate calm);
        (s.Facts ∧ s.StepDue 3 (.test (.notOver 0))) ∧ (s.field.zoneAt 0).overBudget = false)
      ∧ (let s := withProgram [.test (.warn 0), .finish, .finish] (part .operate calm);
        (s.Facts ∧ s.StepDue 3 (.test (.warn 0))) ∧ (s.field.zoneAt 0).warn = false) :=
  ⟨stepDue_of (by decide +kernel), ⟨stepDue_of (by decide +kernel), by decide⟩, stepDue_of (by decide +kernel), by decide⟩

/-- The active program at its END, with another suspended and one pending. -/
def threeSlots : State :=
  let s := part .operate calm
  let v : Slot := { loaded with startTag := some 9#8 }
  { s with
    field := { s.field with
      slot := [(1, { v with state := .suspended, level := some 3 }), (3, { v with state := .running, level := some 1 }),
        (5, { v with state := .pending, level := some 2 })]
      arbiter := ⟨some 3, [1], [5]⟩ } }
theorem test_w_EndCompletesAndTheNextIsChosen : threeSlots.Facts ∧ threeSlots.StepDue 3 .finish := stepDue_of (by decide +kernel)

/-- A holding WAIT with a preemption held. -/
def heldWait : State :=
  let s := part .operate calm
  let v : Slot := { loaded with startTag := some 9#8 }
  { s with
    field := { s.field with
      slot := [(1, { v with state := .pending, level := some 0 }),
        (3, { v with
          steps := [.wait 3 true, .finish], state := .waiting, level := some 1, waitingOn := some (.timer 1300) })]
      arbiter := ⟨some 3, [], [1]⟩ } }
theorem test_w_WaitsBeginAndEnd :
    (let s := withProgram [.wait 36000 false] (part .operate calm);
      s.Facts ∧ s.StepDue 3 (.wait 36000 false))
      ∧ (let s := withWait [.wait 3 true] (.timer 1300) (part .operate calm);
        s.Facts ∧ s.WaitDue 3 (.wait 3 true) (.timer 1300))
      ∧ (let s := withWait [.stowGroup 1 true false] (.offReceiver [0]) (part .operate calm);
        (s.Facts ∧ s.WaitDue 3 (.stowGroup 1 true false) (.offReceiver [0])) ∧ (s.field.run 0).movingOff = false)
      ∧ (heldWait.Facts ∧ heldWait.WaitDue 3 (.wait 3 true) (.timer 1300)) ∧ heldWait.field.levelOf 1 < heldWait.field.levelOf 3 :=
  ⟨stepDue_of (by decide +kernel), waitDue_of (by decide +kernel), ⟨waitDue_of (by decide +kernel), by decide⟩,
    waitDue_of (by decide +kernel), by decide⟩

theorem test_w_CeilingStepSetsTheRange :
    (let s := withProgram [.ceiling 0 63 (some 8388607)] (part .operate aimed);
      s.Facts ∧ s.StepDue 3 (.ceiling 0 63 (some 8388607)))
      ∧ (let s := withProgram [.ceiling 0 0 none] (part .operate aimed);
        s.Facts ∧ s.StepDue 3 (.ceiling 0 0 none)) :=
  ⟨stepDue_of (by decide +kernel), stepDue_of (by decide +kernel)⟩

theorem test_w_GroupMotionStepsOweMembers :
    (let s := withProgram [.defocusGroup 1 true false] (part .operate aimed);
      s.Facts ∧ s.StepDue 3 (.defocusGroup 1 true false))
      ∧ (let s := withProgram [.stowGroup 63 false true] (part .operate aimed);
        s.Facts ∧ s.StepDue 3 (.stowGroup 63 false true))
      ∧ (let s := withProgram [.stowGroup 1 false true] (queuedPart (some 3));
        s.Facts ∧ s.StepDue 3 (.stowGroup 1 false true)) :=
  ⟨stepDue_of (by decide +kernel), stepDue_of (by decide +kernel), stepDue_of (by decide +kernel)⟩

/-- The AIM GROUP steps of the tests. -/
def aimStep (expected : Option Nat) : Step := .aimGroup 1 4 1 expected ⟨true, false, false, true⟩
/-- The step waits for space, its member 0 in the settle set and its member 1 next, and an entry has left the queue, or none. -/
def spacePart (freed : Bool) : State :=
  let s := withSxe 0 { Sxe.blank with spaceFreed := freed, scan := 1 }
    (withWait [aimStep none] (.queueSpace 1 [1] false) (part .operate [(0, tracking 4), (1, idle), (2, idle)]))
  { s with field := s.field.setSlot 3 { s.field.slotAt 3 with settleSet := [(0, 4)] } }
theorem test_w_AimGroupTakesItsMembers :
    (let s := withProgram [aimStep (some 3)] (part .operate aimed);
      (s.Facts ∧ s.StepDue 3 (aimStep (some 3))) ∧ (s.live.members 1).length = 2)
      ∧ (let s := withProgram [aimStep (some 2)] (part .operate aimed);
        s.Facts ∧ s.StepDue 3 (aimStep (some 2)))
      ∧ (let s := withProgram [aimStep none] (part .operate calm);
        s.Facts ∧ s.StepDue 3 (aimStep none))
      ∧ ((spacePart true).Facts ∧ (spacePart true).WaitDue 3 (aimStep none) (.queueSpace 1 [1] false))
      ∧ ((spacePart true).Facts ∧ (0, 4) ∈ ((spacePart true).field.slotAt 3).settleSet)
      ∧ ((spacePart false).Facts ∧ (spacePart false).WaitDue 3 (aimStep none) (.queueSpace 1 [1] false))
      ∧ ((spacePart true).field.sxeAt 0).spaceFreed = true ∧ ((spacePart false).field.sxeAt 0).spaceFreed = false :=
  ⟨⟨stepDue_of (by decide +kernel), by decide⟩, stepDue_of (by decide +kernel), stepDue_of (by decide +kernel),
    waitDue_of (by decide +kernel), ⟨State.facts_of_check (by decide +kernel), by decide⟩, waitDue_of (by decide +kernel), by decide⟩
/-- Both members of group 1 are granted aim 4 within the budgets (R115). -/
theorem test_aimGroup :
    let t := after .aimGroup (withProgram [aimStep none] (part .operate calm))
    (t.field.run 0).granted = some 4 ∧ (t.field.run 1).granted = some 4 ∧ (t.field.zoneAt 1).committed = 60
      ∧ (t.field.slotAt 3).settleSet = [(0, 4), (1, 4)] ∧ (t.field.slotAt 3).waitingOn = some .settle := by decide +kernel

/-- The settle wait, its member TRACKING the aim, or still SLEWING. -/
def settlePart (r : HelioRun) : State :=
  let s := withWait [aimStep none] .settle (part .operate [(0, r), (1, idle), (2, idle)])
  { s with field := s.field.setSlot 3 { s.field.slotAt 3 with settleSet := [(0, 4), (1, 4)] } }
theorem test_w_SettleWaitEndsWhenSettled :
    ((settlePart (tracking 4)).Facts ∧ (settlePart (tracking 4)).WaitDue 3 (aimStep none) .settle)
      ∧ ((settlePart (tracking 4)).field.run 0).unsettledOn 4 = false
      ∧ ((settlePart (moving 4)).Facts ∧ (settlePart (moving 4)).WaitDue 3 (aimStep none) .settle)
      ∧ ((settlePart (moving 4)).field.run 0).unsettledOn 4 = true :=
  ⟨waitDue_of (by decide +kernel), by decide +kernel, waitDue_of (by decide +kernel), by decide +kernel⟩

/-! #### The operating state -/

theorem test_w_SetStateEntersOperateAndWaking :
    (Due (.setState 7#8 4#8) (withOrder (.setState 7#8 4#8) (part .hold calm))
        ∧ (part .hold calm).setStateJudgement 4#8 = some (.plain .range))
      ∧ (part .hold calm).setStateJudgement 1#8 = some ((part .hold calm).setStateDone true)
      ∧ (Due (.setState 7#8 2#8) (withOrder (.setState 7#8 2#8) (part .hold calm)) ∧ (part .hold calm).setStateJudgement 2#8 = none)
      ∧ (Due (.setState 7#8 1#8) (withOrder (.setState 7#8 1#8) (part .night calm)) ∧ (part .night calm).setStateJudgement 1#8 = none) :=
  ⟨⟨due_of (by decide +kernel), by decide⟩, by decide, ⟨due_of (by decide +kernel), by decide⟩, due_of (by decide +kernel), by decide⟩

theorem test_w_SetStateEntersHoldAndNight :
    (let s := withProgram [.finish] (part .operate aimed);
      Due (.setState 7#8 1#8) (withOrder (.setState 7#8 1#8) s) ∧ s.setStateJudgement 1#8 = none)
      ∧ (Due (.setState 7#8 3#8) (withOrder (.setState 7#8 3#8) (part .hold calm)) ∧ (part .hold calm).setStateJudgement 3#8 = none)
      ∧ (Due (.setState 7#8 3#8) (withOrder (.setState 7#8 3#8) (part .operate calm))
        ∧ (part .operate calm).setStateJudgement 3#8 = none) :=
  ⟨⟨due_of (by decide +kernel), by decide⟩, ⟨due_of (by decide +kernel), by decide⟩, due_of (by decide +kernel), by decide⟩

/-- A survey under way, heliostat 0 still UNSURE. -/
def surveyPart : State :=
  let s := part .survey [(0, { HelioRun.blank with state := .unsure }), (1, idle), (2, idle)]
  { s with osc := { s.osc with surveyEnds := some 90000, counted := [1, 2], atRest := 2 } }
/-- A wake under way at this count. -/
def wakePart (r : Requested) (count : Nat) : State :=
  { part .waking calm with osc := { (part .waking calm).osc with wake := some ⟨r, count, 900⟩ } }
theorem test_w_SurveyAndWakeEnd :
    (surveyPart.Facts ∧ surveyPart.phase = .running ∧ surveyPart.osc.surveyEnds = some 90000)
      ∧ (wakePart .operate 6).osc.wake = some ⟨.operate, 6, 900⟩ ∧ (wakePart .operate 7).osc.wake = some ⟨.operate, 7, 900⟩
      ∧ (wakePart .hold 8).osc.wake = some ⟨.hold, 8, 900⟩ ∧ (wakePart .hold 8).Facts :=
  ⟨⟨State.facts_of_check (by decide +kernel), rfl, rfl⟩, rfl, rfl, rfl, State.facts_of_check (by decide +kernel)⟩
theorem test_surveyLimit :
    let t := after .surveyLimit surveyPart
    (t.field.run 0).state = .lost ∧ (t.field.run 0).unaccounted = true ∧ t.osc.leftLost = 1 ∧ t.osc.opState = .hold
      ∧ t.now = 90000 := by decide +kernel

/-! #### The segment lines -/

/-- A night with the last exchange of segment 1 at 1000 ms, and of its one heliostat at `heard`. -/
def nightPart (heard : Option Nat) (now : Nat) : State :=
  { withSxe 1 { Sxe.blank with lastEnd := some 1000 } (part .night [(0, idle), (1, idle), (2, { idle with lastExchange := heard })]) with
    now := now }
theorem test_w_NightPollsTheOldestDue :
    ((nightPart (some 1000) 1040).Facts ∧ (nightPart (some 1000) 1040).osc.opState = .night
        ∧ ((nightPart (some 1000) 1040).field.sxeAt 1).exchange = none ∧ ((nightPart (some 1000) 1040).field.sxeAt 1).passSlot = none
        ∧ ((nightPart (some 1000) 1040).field.run 2).servable = false ∧ ((nightPart (some 1000) 1040).field.run 2).unsettled = false)
      ∧ (nightPart none 1040).Facts ∧ ((nightPart none 1040).field.run 2).lastExchange = none :=
  ⟨⟨State.facts_of_check (by decide +kernel), by decide⟩, State.facts_of_check (by decide +kernel), by decide⟩
/-- The poll is made at 120 s, not at the end of the spacing (R64). -/
theorem test_nightPoll :
    after (.nightSpacingExpiry 1) (nightPart (some 1000) 1040) = { nightPart (some 1000) 1040 with now := 1050 }
      ∧ (after (.nightPollDue 1) (nightPart (some 1000) 1040)).now = 121000
      ∧ (((after (.nightPollDue 1) (nightPart (some 1000) 1040)).field.sxeAt 1).exchange.map Exchange.helio) = some 2 := by
  decide +kernel

/-- Heliostat 0's exchange of a kind is in flight, its record `r`. -/
def exchangePart (op : OpState) (r : HelioRun) (x : Exchange) : State :=
  withSxe 0 { Sxe.blank with exchange := some x } (part op [(0, { r with inFlight := true }), (1, idle), (2, idle)])

theorem test_w_RequestSentThenRepeatedOnce :
    (let x := { awaiting 0 5 .query with phase := .sending };
      (exchangePart .hold idle x).phase = .running ∧ ((exchangePart .hold idle x).field.sxeAt (0 : Fin 4)).exchange = some x)
      ∧ ((exchangePart .hold idle (awaiting 0 5 .query)).field.sxeAt (0 : Fin 4)).exchange = some (awaiting 0 5 .query)
      ∧ readSegFrame [0x5A#8, 0#8, 5#8, 0x44#8, 1#8, 0#8] = none
      ∧ readSegFrame [0x5A#8, 0#8, 5#8, 0x41#8, 0#8, 0#8, 0#8] = some ⟨5, 0x41#8, [], false⟩
      ∧ (readSegFrame (segmentFrame 6 0x41#8 [])).isSome
      ∧ readAnswer 0x41#8 [] = some .accept ∧ Answer.accept.permitted .query = false := by decide +kernel

/-- One part for each level of R61, segment 0 without an exchange, and the exchange it then begins. -/
def choices : List (State × Option (Nat × ExKind)) :=
  let others : Table HelioRun := [(1, idle), (2, idle)]
  let withRun (r : HelioRun) : State := part .operate ((0, r) :: others)
  [(withRun { tracking 3 with owed := some ⟨.defocus, .shed⟩ }, some (0, .owedMotion .standby .shed)),
    ({ part .hold calm with now := 10000 }, some (0, .query)),
    (part .hold [(0, idle), (1, { idle with owed := some ⟨.stow, .order⟩ }), (2, idle)], some (1, .owedMotion .stow .order)),
    (passPart, some (0, .pass)),
    (withRun (granted 4 none), some (0, .moveAim (some (.order 7#8)))),
    (withSxe 0 { Sxe.blank with queue := [⟨0, 4, .order 7#8⟩] } (withRun { granted 4 (some 3) with queued := true }),
      some (0, .moveAim (some (.order 7#8)))),
    (part .hold [(0, idle), (1, { idle with state := .unsure }), (2, idle)], some (1, .query)),
    (withSxe 0 { Sxe.blank with settle := 1 } (withRun (moving 4)), some (0, .query)),
    (part .hold calm, some (0, .query)),
    (State.reset, none)]
theorem test_w_SxeChoices : ∀ c ∈ choices, c.1.Facts ∧ c.1.osc.opState ≠ .night ∧ (c.1.field.sxeAt 0).exchange = none := by
  have h : ∀ c ∈ choices, c.1.factsCheck = true ∧ c.1.osc.opState ≠ .night ∧ (c.1.field.sxeAt 0).exchange = none := by decide +kernel
  exact fun c hc => ⟨State.facts_of_check (h c hc).1, (h c hc).2⟩
theorem test_sxeChoices : ∀ c ∈ choices,
    ((c.1.field.choose c.1.env true 0).sxeAt 0).exchange.map (fun x => (x.helio, x.kind)) = c.2 := by decide +kernel

/-- A repeated exchange with heliostat 0. -/
def lastTry (kind : ExKind) : Exchange := { awaiting 0 5 kind with repeated := true }
theorem test_w_SilentExchangeCountsThenActs :
    (∀ r ∈ [{ idle with silentCount := 1 }, { idle with silentCount := 2 }, { tracking 3 with silentCount := 2 },
        { moving 3 with silentCount := 2 }, { idle with state := .silent, silentCount := 3 }],
      (exchangePart .hold r (lastTry .query)).factsCheck = true)
      ∧ ((exchangePart .survey { HelioRun.blank with state := .unsure, silentCount := 2 } (lastTry .query)).Facts)
      ∧ ((withSxe 0 { Sxe.blank with queue := [⟨0, 4, .order 7#8⟩], exchange := some (lastTry .query) }
        (part .operate [(0, { granted 4 (some 3) with queued := true, inFlight := true, silentCount := 2 }), (1, idle), (2, idle)])).Facts) :=
  ⟨by decide +kernel, State.facts_of_check (by decide +kernel), State.facts_of_check (by decide +kernel)⟩

/-- The frame of a QUERY's answer with a position class and an aim. -/
def statusFrame (position id : Byte) : List Byte := segmentFrame 5 0x44#8 [position, id, 0#8, 0#8]
/-- What that frame reads as. -/
def statusRead (position id : Byte) : SegFrame := ⟨5, 0x44#8, [position, id, 0#8, 0#8], true⟩

theorem test_w_AimAcceptedThenTimed :
    (let x := awaiting 0 5 (.moveAim (some (.order 7#8)));
      (exchangePart .operate (granted 4 none) x).Facts
        ∧ (exchangePart .operate (granted 4 none) x).AnswerDue 0 x (segmentFrame 5 0x41#8 []) ⟨5, 0x41#8, [], true⟩)
      ∧ (let s := part .operate [(0, moving 4), (1, idle), (2, idle)];
        s.Facts ∧ (s.field.run 0).slewEnds = some 61000 ∧ (s.field.run 0).accepted = true) :=
  ⟨answerDue_of (since := 999) (by decide +kernel), State.facts_of_check (by decide +kernel), by decide⟩

/-- A due answer of heliostat 0: the exchange is awaiting it, and the state has every fact the statements assume. -/
def answerCheck (s : State) (frame : List Byte) : Bool :=
  s.factsCheck && decide (s.phase = .running) && match (s.field.sxeAt 0).exchange, readSegFrame frame with
    | some x, some fr => x.awaiting.isSome && fr.checkOk && decide (fr.address = x.address)
      && ((readAnswer fr.kind fr.params).map (fun a => a.permitted x.kind)).getD false
    | _, _ => false

theorem answerDue_of_check {s : State} {frame : List Byte} (h : answerCheck s frame) : s.Facts ∧ ∃ x fr, s.AnswerDue 0 x frame fr := by
  unfold answerCheck at h
  simp only [Bool.and_eq_true, decide_eq_true_eq] at h
  obtain ⟨⟨h1, h2⟩, h3⟩ := h
  cases hx : (s.field.sxeAt 0).exchange with
  | none => simp [hx] at h3
  | some x =>
    cases hf : readSegFrame frame with
    | none => simp [hx, hf] at h3
    | some fr =>
      simp only [hx, hf, Bool.and_eq_true, decide_eq_true_eq] at h3
      obtain ⟨⟨⟨h4, h5⟩, h6⟩, _⟩ := h3
      cases hp : x.phase with
      | sending => simp [Exchange.awaiting, hp] at h4
      | awaiting t => exact ⟨State.facts_of_check h1, x, fr, h2, hx, ⟨t, hp⟩, hf, h5, h6⟩

/-- A state, the parameters of an answer in it with its kind, and the state, the owed motion and the last cause it leaves. -/
abbrev AnswerCase := State × Byte × List Byte × HState × Option Owed × Option Cause

/-- The frame of a case. -/
def AnswerCase.frame (c : AnswerCase) : List Byte := segmentFrame 5 c.2.1 c.2.2.1
/-- The case's answer is due, and it leaves what the case says. -/
def AnswerCase.holds (c : AnswerCase) : Bool :=
  let r := (after (.driveAnswer 0 c.frame) c.1).field.run 0
  answerCheck c.1 c.frame && decide (r.state = c.2.2.2.1 ∧ r.owed = c.2.2.2.2.1 ∧ r.lastCause = c.2.2.2.2.2)

/-- The answers to an owed motion: ACCEPT, the three reasons of REJECT, BUSY, and the third BUSY, of holders and others. -/
def owedCases : List AnswerCase :=
  let x := awaiting 0 5 (.owedMotion .standby .shed)
  let holder : HelioRun := { tracking 3 with owed := some ⟨.defocus, .shed⟩ }
  let other : HelioRun := { idle with state := .unsure, owed := some ⟨.stow, .order⟩ }
  let s (r : HelioRun) : State := exchangePart .operate r x
  [(s holder, 0x41#8, [], .returning, none, some .shed), (s other, 0x41#8, [], .returning, some ⟨.stow, .order⟩, some .shed),
    (s { moving 4 with owed := some ⟨.defocus, .shed⟩ }, 0x41#8, [], .returning, none, some .order),
    (s holder, 0x43#8, [1#8], .lost, none, some .reject), (s holder, 0x43#8, [2#8], .lost, none, some .reject),
    (s other, 0x43#8, [3#8], .faulted, none, some .reject),
    (s holder, 0x42#8, [1#8, 3#8, 0#8, 0#8], .tracking, some ⟨.defocus, .shed⟩, none),
    (s { holder with busyCount := 2 }, 0x42#8, [1#8, 3#8, 0#8, 0#8], .lost, none, some .busy),
    (s { other with busyCount := 2 }, 0x42#8, [2#8, 0#8, 0#8, 0#8], .faulted, none, some .busy),
    (s holder, 0x42#8, [4#8, 0#8, 0#8, 0#8], .stowed, none, some .driveLeft),
    (s { holder with busyCount := 2 }, 0x42#8, [1#8, 4#8, 2#8, 9#8], .lost, none, some .busy),
    (s { other with busyCount := 2 }, 0x42#8, [1#8, 4#8, 1#8, 0#8], .tracking, some ⟨.defocus, .localControl⟩, some .adopted),
    (s { other with busyCount := 1 }, 0x42#8, [3#8, 0#8, 4#8, 0#8], .standby, some ⟨.stow, .order⟩, some .survey)]
theorem test_owedCases : ∀ c ∈ owedCases, AnswerCase.holds c = true := by decide +kernel
theorem test_w_OwedMotionAcceptedReturns : ∀ c ∈ owedCases, c.1.Facts ∧ ∃ x fr, c.1.AnswerDue 0 x (AnswerCase.frame c) fr :=
  fun c hc => answerDue_of_check (by have := test_owedCases c hc; simp only [AnswerCase.holds, Bool.and_eq_true] at this; exact this.1)

theorem test_w_StatusAnswersMoveTheRecord :
    let x := awaiting 0 5 .query
    ((exchangePart .operate (moving 4) x).Facts
        ∧ (exchangePart .operate (moving 4) x).AnswerDue 0 x (statusFrame 1#8 4#8) (statusRead 1#8 4#8))
      ∧ ((exchangePart .operate (tracking 3) x).Facts
        ∧ (exchangePart .operate (tracking 3) x).AnswerDue 0 x (statusFrame 3#8 0#8) (statusRead 3#8 0#8))
      ∧ ((exchangePart .survey { HelioRun.blank with state := .unsure } x).Facts
        ∧ (exchangePart .survey { HelioRun.blank with state := .unsure } x).AnswerDue 0 x (statusFrame 4#8 0#8) (statusRead 4#8 0#8))
      ∧ readAnswer 0x44#8 [4#8, 0#8, 0#8, 0#8] = some (.status ⟨.stowed, false, false, false, 0#8⟩) :=
  ⟨answerDue_of (since := 999) (by decide +kernel), answerDue_of (since := 999) (by decide +kernel),
    answerDue_of (since := 999) (by decide +kernel), by decide⟩

/-- Heliostat 0 in the states a poll may meet. -/
def unsure : HelioRun := { idle with state := .unsure }
def stowedRun : HelioRun := { idle with state := .stowed, rest := .stowed }
def returning (held : Option Nat) : HelioRun :=
  { idle with state := .returning, granted := held, released := held.isNone, destination := some .standby, motionCause := some .order }
def lostRun (held : Option Nat) : HelioRun := { idle with state := .lost, granted := held, unaccounted := held.isNone }
def faulted : HelioRun := { idle with state := .faulted, fault := some .busy }

/-- Heliostat 0 polled, its record `r`. -/
def polled (op : OpState) (r : HelioRun) : State := exchangePart op r (awaiting 0 5 .query)
/-- Heliostat 0 queued for aim 4 and polled. -/
def polledQueued (r : HelioRun) : State :=
  withSxe 0 { Sxe.blank with queue := [⟨0, 4, .order 7#8⟩], exchange := some (awaiting 0 5 .query) }
    (part .operate [(0, { r with queued := true, inFlight := true }), (1, idle), (2, idle)])

/-- A poll that finds the heliostat on an aim: adopted, in SURVEY, in NIGHT and with a fault cause; on the absent aim 5; LOST on its aim;
elsewhere than expected. -/
def onAimCases : List AnswerCase :=
  let on (a : Byte) : List Byte := [1#8, a, 0#8, 0#8]
  [(polled .survey unsure, 0x44#8, on 4#8, .tracking, none, some .adopted),
    (polled .night idle, 0x44#8, on 4#8, .tracking, some ⟨.defocus, .adopted⟩, some .adopted),
    (polled .hold faulted, 0x44#8, on 4#8, .tracking, some ⟨.defocus, .busy⟩, some .adopted),
    (polled .hold (returning none), 0x44#8, on 4#8, .tracking, none, some .adopted),
    (polled .hold (lostRun none), 0x44#8, on 4#8, .tracking, none, some .adopted),
    (polled .survey unsure, 0x44#8, on 5#8, .lost, some ⟨.defocus, .survey⟩, some .survey),
    (polled .hold stowedRun, 0x44#8, on 5#8, .lost, some ⟨.defocus, .survey⟩, some .survey),
    (polled .hold (lostRun (some 3)), 0x44#8, on 3#8, .lost, some ⟨.defocus, .silence⟩, some .silence),
    (polled .hold (tracking 3), 0x44#8, on 4#8, .tracking, some ⟨.defocus, .driveLeft⟩, some .driveLeft),
    (polled .hold (moving 4), 0x44#8, on 3#8, .slewing, some ⟨.defocus, .driveLeft⟩, some .driveLeft),
    (polled .hold (tracking 3), 0x44#8, on 3#8, .tracking, none, none)]
/-- A poll that finds it off the receiver or moving: at rest with a fault cause, gone from rest, heard from again. -/
def offAimCases : List AnswerCase :=
  let faulty (r : HelioRun) : HelioRun := { r with fault := some .busy }
  let at' (c : Byte) : List Byte := [c, 4#8, 0#8, 0#8]
  [(polled .hold (tracking 3), 0x44#8, at' 0x80#8, .tracking, some ⟨.defocus, .driveLeft⟩, some .driveLeft),
    (polled .hold (tracking 3), 0x44#8, at' 2#8, .standby, none, some .driveLeft),
    (polled .hold { moving 4 with leaving := some 3, reAim := true }, 0x44#8, at' 2#8, .slewing, none, some .order),
    (polled .hold (returning (some 3)), 0x44#8, at' 2#8, .returning, none, some .order),
    (polled .hold (lostRun (some 3)), 0x44#8, at' 2#8, .unsure, none, some .recovered),
    (polled .hold idle, 0x44#8, at' 2#8, .unsure, none, some .survey),
    (polled .hold stowedRun, 0x44#8, at' 0#8, .unsure, none, some .survey),
    (polled .hold { idle with state := .silent }, 0x44#8, at' 3#8, .unsure, none, some .recovered),
    (polled .hold (faulty (tracking 3)), 0x44#8, at' 2#8, .faulted, none, some .driveLeft),
    (polled .hold (faulty (tracking 3)), 0x44#8, at' 3#8, .faulted, none, some .driveLeft),
    (polled .hold (faulty (returning (some 3))), 0x44#8, at' 3#8, .faulted, none, some .order),
    (polled .hold (faulty (lostRun none)), 0x44#8, at' 4#8, .faulted, none, some .recovered),
    (polled .hold (faulty unsure), 0x44#8, at' 4#8, .faulted, none, some .survey)]
/-- A poll whose flags say LOCAL, FAULT or LIMIT, of a heliostat that stands as its record says, and of one that stands elsewhere (R76). -/
def flagCases : List AnswerCase :=
  let told (c f : Byte) : List Byte := [c, 3#8, f, 9#8]
  [(polled .hold { idle with localControl := true }, 0x44#8, told 3#8 0#8, .standby, none, some .recovered),
    (polled .hold (tracking 3), 0x44#8, told 1#8 2#8, .tracking, some ⟨.defocus, .driveFault⟩, some .driveFault),
    (polled .hold (returning (some 3)), 0x44#8, told 1#8 1#8, .returning, none, some .localControl),
    (polled .hold idle, 0x44#8, told 3#8 1#8, .faulted, none, some .localControl),
    (polledQueued (granted 4 (some 3)), 0x44#8, told 1#8 2#8, .tracking, some ⟨.defocus, .driveFault⟩, some .driveFault),
    (polledQueued (granted 4 none), 0x44#8, told 3#8 1#8, .faulted, none, some .localControl),
    (polled .hold (tracking 3), 0x44#8, told 1#8 4#8, .tracking, some ⟨.defocus, .reject⟩, some .reject),
    (polledQueued (granted 4 (some 3)), 0x44#8, told 1#8 4#8, .tracking, some ⟨.defocus, .reject⟩, some .reject),
    (polledQueued (granted 4 none), 0x44#8, told 3#8 4#8, .standby, none, some .reject),
    (polled .hold idle, 0x44#8, told 3#8 4#8, .standby, none, none),
    (polled .hold (tracking 3), 0x44#8, told 2#8 2#8, .faulted, none, some .driveLeft),
    (polled .hold (tracking 4), 0x44#8, told 1#8 5#8, .tracking, some ⟨.defocus, .driveLeft⟩, some .driveLeft),
    (polled .hold unsure, 0x44#8, told 1#8 7#8, .tracking, some ⟨.defocus, .driveFault⟩, some .adopted),
    (polled .hold unsure, 0x44#8, told 1#8 4#8, .tracking, some ⟨.defocus, .reject⟩, some .reject),
    (polledQueued (granted 4 none), 0x44#8, told 0#8 2#8, .faulted, none, some .driveFault),
    (polledQueued (granted 4 (some 3)), 0x44#8, told 4#8 1#8, .faulted, none, some .driveLeft)]
theorem test_onAimCases : ∀ c ∈ onAimCases, AnswerCase.holds c = true := by decide +kernel
theorem test_offAimCases : ∀ c ∈ offAimCases, AnswerCase.holds c = true := by decide +kernel
theorem test_flagCases : ∀ c ∈ flagCases, AnswerCase.holds c = true := by decide +kernel
theorem test_w_HeliostatFoundOnAimIsAdopted : ∀ c ∈ onAimCases ++ offAimCases ++ flagCases,
    c.1.Facts ∧ ∃ x fr, c.1.AnswerDue 0 x (AnswerCase.frame c) fr := fun c hc => answerDue_of_check (by
  have h : AnswerCase.holds c = true := by
    rcases List.mem_append.1 hc with hc | hc
    · rcases List.mem_append.1 hc with hc | hc
      · exact test_onAimCases c hc
      · exact test_offAimCases c hc
    · exact test_flagCases c hc
  simp only [AnswerCase.holds, Bool.and_eq_true] at h
  exact h.1)
/-- In NIGHT an adopted heliostat is owed DEFOCUS, cause ADOPTED (R155). -/
theorem test_adoption :
    let t := after (.driveAnswer 0 (statusFrame 1#8 4#8)) (exchangePart .night idle (awaiting 0 5 .query))
    (t.field.run 0).state = .tracking ∧ (t.field.run 0).granted = some 4 ∧ (t.field.run 0).owed = some ⟨.defocus, .adopted⟩
      ∧ (t.field.zoneAt 0).committed = 20 := by decide +kernel

/-- The answers of a heliostat whose grant is not accepted: REJECT, BUSY, and polls that find it elsewhere. -/
def grantCases : List AnswerCase :=
  let s (r : HelioRun) : State := exchangePart .operate r (awaiting 0 5 (.moveAim (some (.order 7#8))))
  let at' (c a : Byte) : List Byte := [c, a, 0#8, 0#8]
  let released : HelioRun := { granted 4 none with reAim := true }
  [(s (granted 4 (some 3)), 0x43#8, [1#8], .tracking, none, some .reject), (s (granted 4 none), 0x43#8, [1#8], .standby, none, some .reject),
    (s (granted 4 (some 3)), 0x43#8, [2#8], .tracking, some ⟨.defocus, .driveFault⟩, some .reject),
    (s (granted 4 none), 0x43#8, [3#8], .faulted, none, some .reject),
    (s (granted 4 none), 0x42#8, at' 3#8 0#8, .slewing, none, none),
    (s { granted 4 none with busyCount := 1 }, 0x42#8, at' 3#8 0#8, .standby, none, some .busy),
    (s { granted 4 (some 3) with owed := some ⟨.stow, .order⟩ }, 0x42#8, at' 1#8 3#8, .slewing, some ⟨.stow, .order⟩, none),
    (s (granted 4 none), 0x42#8, at' 1#8 4#8, .tracking, none, some .order),
    (s (granted 4 none), 0x42#8, at' 4#8 0#8, .slewing, some ⟨.defocus, .driveLeft⟩, some .driveLeft),
    (s (granted 4 (some 3)), 0x42#8, at' 2#8 0#8, .slewing, none, some .order),
    (s { granted 4 (some 3) with busyCount := 1 }, 0x42#8, at' 2#8 0#8, .standby, none, some .busy),
    (s (granted 4 none), 0x42#8, [1#8, 4#8, 4#8, 0#8], .tracking, some ⟨.defocus, .reject⟩, some .reject),
    (s (granted 4 (some 3)), 0x42#8, [2#8, 0#8, 2#8, 9#8], .slewing, some ⟨.defocus, .driveFault⟩, some .driveFault),
    (s { granted 4 none with localControl := true }, 0x42#8, at' 3#8 0#8, .slewing, none, some .recovered),
    (s { granted 4 (some 3) with owed := some ⟨.stow, .order⟩ }, 0x42#8, at' 2#8 0#8, .slewing, some ⟨.stow, .order⟩, some .order),
    (polledQueued (granted 4 none), 0x44#8, at' 0x80#8 4#8, .slewing, none, none),
    (polledQueued (granted 4 none), 0x44#8, at' 1#8 4#8, .tracking, none, some .order),
    (polled .operate (granted 4 (some 3)), 0x44#8, at' 2#8 0#8, .slewing, none, some .order),
    (polled .operate (granted 4 none), 0x44#8, at' 4#8 0#8, .slewing, some ⟨.defocus, .driveLeft⟩, some .driveLeft),
    (polledQueued (granted 4 (some 3)), 0x44#8, at' 3#8 0#8, .standby, none, some .driveLeft),
    (polledQueued (granted 4 (some 3)), 0x44#8, at' 0x80#8 3#8, .tracking, none, some .driveLeft),
    (polledQueued (granted 4 (some 3)), 0x44#8, at' 1#8 2#8, .tracking, some ⟨.defocus, .driveLeft⟩, some .driveLeft),
    (polledQueued (granted 4 none), 0x44#8, at' 0#8 0#8, .unsure, none, some .survey),
    (polledQueued (granted 4 none), 0x44#8, at' 1#8 3#8, .tracking, none, some .adopted),
    (polledQueued (granted 4 none), 0x44#8, at' 1#8 5#8, .lost, some ⟨.defocus, .survey⟩, some .survey),
    (polledQueued (granted 4 none), 0x44#8, at' 4#8 0#8, .stowed, none, some .survey),
    (polledQueued released, 0x44#8, at' 3#8 0#8, .standby, none, some .driveLeft)]
theorem test_grantCases : ∀ c ∈ grantCases, AnswerCase.holds c = true := by decide +kernel
theorem test_w_RejectedAimIsRevoked : ∀ c ∈ grantCases, c.1.Facts ∧ ∃ x fr, c.1.AnswerDue 0 x (AnswerCase.frame c) fr :=
  fun c hc => answerDue_of_check (by have := test_grantCases c hc; simp only [AnswerCase.holds, Bool.and_eq_true] at this; exact this.1)
/-- A heliostat adopted at a withdrawal joins the newest end of the Grant List (R36, R43). -/
theorem test_adoptedNewest :
    let s := withSxe 0 { Sxe.blank with queue := [⟨0, 4, .order 7#8⟩], exchange := some (awaiting 0 5 .query) }
      (part .operate [(0, { granted 4 none with queued := true, inFlight := true }), (1, tracking 4), (2, idle)])
    s.field.grants = [0, 1] ∧ (after (.driveAnswer 0 (statusFrame 1#8 3#8)) s).field.grants = [1, 0] := by decide +kernel

/-- LIMIT in a poll withdraws a settle set member's grant: REVOKED, no flag (R76, R120). A REJECT sets DRIVE REJECT. -/
theorem test_settleSetHears :
    let kept (s : State) : State :=
      let w := withWait [aimStep none] .settle s
      { w with field := w.field.setSlot 3 { w.field.slotAt 3 with settleSet := [(0, 4)] } }
    let t := after (.driveAnswer 0 (segmentFrame 5 0x44#8 [3#8, 0#8, 4#8, 0#8])) (kept (polledQueued (granted 4 none)))
    let u := after (.driveAnswer 0 (segmentFrame 5 0x43#8 [1#8]))
      (kept (exchangePart .operate (granted 4 none) (awaiting 0 5 (.moveAim (some (.order 7#8))))))
    (t.field.slotAt 3).residual = [(0, .revoked)] ∧ (t.field.slotAt 3).flags.driveReject = false
      ∧ (u.field.slotAt 3).residual = [(0, .rejected)] ∧ (u.field.slotAt 3).flags.driveReject = true := by decide +kernel
/-- The third BUSY of an UNSURE heliostat found on an aim: counted as adopted, then accounted LOST (R73, R74, R148, log entry 17). -/
theorem test_surveyCountsTheAnswer :
    let t := after (.driveAnswer 0 (segmentFrame 5 0x42#8 [1#8, 4#8, 0#8, 0#8]))
      (exchangePart .survey { unsure with owed := some ⟨.defocus, .order⟩, busyCount := 2 } (awaiting 0 5 (.owedMotion .standby .order)))
    (t.field.run 0).state = .lost ∧ t.osc.adopted = 1 ∧ t.osc.leftLost = 0 := by decide +kernel
/-- At the field-safe onset the STATE EVENT joins the Report Queue after the heliostats and before the zones and the trip state (R159, log entry 13). -/
theorem test_onsetReports :
    (after .fsafeAssert (partZ .operate aimed { fresh with budget := 0, overBudget := true, unsheddable := true })).field.reports.queue
      = [.helio 0, .opState, .zone 0, .trip] := by decide +kernel

/-! #### The Table Store -/

/-- A TABLE WRITE of one record at `first`. -/
def writes (table : Byte) (first : Half) (count : Byte) (bytes : List Byte) : Instr := .tableWrite 7#8 table first count bytes
/-- A ZONE record. -/
def zoneBytes : List Byte := writeZoneRecord ⟨200, 50, 100, 4095⟩
theorem test_w_TableWriteReplacesLiveRecords :
    Due (writes 7#8 0#16 1#8 []) (withOrder (writes 7#8 0#16 1#8 []) (part .hold calm))
      ∧ Due (writes 3#8 0#16 1#8 []) (withOrder (writes 3#8 0#16 1#8 []) (part .hold calm))
      ∧ Due (writes 3#8 15#16 2#8 (zoneBytes ++ zoneBytes)) (withOrder (writes 3#8 15#16 2#8 (zoneBytes ++ zoneBytes)) (part .hold calm))
      ∧ Due (writes 3#8 63#16 1#8 zoneBytes) (withOrder (writes 3#8 63#16 1#8 zoneBytes) { part .hold calm with commit := some .marks })
      ∧ (let c := writes 0#8 4095#16 1#8 (writeHelio (cfg 3 9 1 1));
        Due c (withOrder c surveyPart))
      ∧ Due (writes 3#8 0#16 1#8 zoneBytes) (withOrder (writes 3#8 0#16 1#8 zoneBytes) { part .hold calm with marks := ProtMarks.all })
      ∧ (let c := writes 6#8 0#16 1#8 [0x34#8];
        Due c (withOrder c { part .hold calm with limitLock := true })) :=
  ⟨due_of (by decide +kernel), due_of (by decide +kernel), due_of (by decide +kernel), due_of (by decide +kernel),
    due_of (by decide +kernel), due_of (by decide +kernel), due_of (by decide +kernel)⟩
/-- A part, a table, an index, the one record written there, and what the record's checks answer, if they do. -/
abbrev RecordCase := State × TableId × Nat × List Byte × Option Reply
/-- The case's write. -/
def RecordCase.order (c : RecordCase) : Instr :=
  writes (byte (tableCode c.2.1)) (BitVec.ofNat 16 c.2.2.1) 1#8 c.2.2.2.1
/-- The case's write is due, its record is of its table's size, and its checks answer what the case says. -/
def RecordCase.holds (c : RecordCase) : Bool :=
  let s := withOrder (RecordCase.order c) c.1
  let p := (c.2.2.1, c.2.2.2.1)
  s.factsCheck && decide (s.phase = .running ∧ s.ulp.waiting = none ∧ s.ulp.tx = none ∧ p.2.length = recordSize c.2.1
    ∧ s.recordRefusal c.2.1 [p] p = c.2.2.2.2)
/-- Records out of range (bits 15 to 12 of a limit among them), a drive address taken, each fact of use, and records that pass. -/
def recordCases : List RecordCase :=
  let calmPart := part .hold calm
  let helio (c : HelioConfig) : List Byte := writeHelio c
  [(calmPart, .field, 0, [0#8, 9#8], some ⟨.range, [1#8, 0#8, 0#8]⟩),
    (calmPart, .critical, 63, [0x10#8, 0#8], some ⟨.range, [1#8, 0#8, 63#8]⟩),
    (calmPart, .aim, 255, [0x81#8, 0#8, 0#8, 0#8, 0#8, 0#8, 0#8, 2#8, 0#8, 0#8, 0#8], some ⟨.range, [1#8, 0#8, 255#8]⟩),
    (calmPart, .heliostat, 0, helio (cfg 0 6 1 10), some ⟨.duplicate, [1#8, 0#8, 0#8]⟩),
    (part .hold aimed, .heliostat, 0, helio HelioConfig.blank, some ⟨.inUse, [1#8, 0#8, 0#8]⟩),
    (part .hold [(0, { idle with owed := some ⟨.stow, .order⟩ }), (1, idle), (2, idle)], .heliostat, 0, helio (cfg 0 5 1 11),
      some ⟨.inUse, [3#8, 0#8, 0#8]⟩),
    (passPart, .heliostat, 0, helio (cfg 1 9 1 10), some ⟨.inUse, [8#8, 0#8, 0#8]⟩),
    (heldProgram, .heliostat, 2, helio (cfg 1 5 3 30), some ⟨.inUse, [2#8, 0#8, 2#8]⟩),
    (part .hold aimed, .aim, 3, writeAim AimPoint.blank, some ⟨.inUse, [9#8, 0#8, 3#8]⟩),
    (calmPart, .heliostat, 0, helio HelioConfig.blank, none), (calmPart, .standby, 15, writeStandby ⟨true, 1#16, 2#16, 3#16⟩, none),
    (part .hold aimed, .zone, 1, zoneBytes, none), (calmPart, .watch, 0, [0x3B#8], none)]
theorem test_recordCases : ∀ c ∈ recordCases, RecordCase.holds c = true := by decide +kernel
theorem test_w_TableWriteRecords : ∀ c ∈ recordCases,
    let s := withOrder (RecordCase.order c) c.1
    let p := (c.2.2.1, c.2.2.2.1)
    Due (RecordCase.order c) s ∧ (c.2.2.2.2 = none → s.RecordPasses c.2.1 [p] p)
      ∧ ∀ r, c.2.2.2.2 = some r →
        (¬ RecordInRange c.2.1 p.2 ∧ r = ⟨.range, 1#8 :: be16 p.1⟩)
          ∨ (RecordInRange c.2.1 p.2 ∧ s.RecordClashes c.2.1 [p] p ∧ r = ⟨.duplicate, 1#8 :: be16 p.1⟩)
          ∨ ∃ fact, RecordInRange c.2.1 p.2 ∧ ¬ s.RecordClashes c.2.1 [p] p ∧ s.RecordInUse c.2.1 p fact
            ∧ r = ⟨.inUse, fact :: be16 p.1⟩ := by
  intro c hc
  have h := test_recordCases c hc
  simp only [RecordCase.holds, Bool.and_eq_true, decide_eq_true_eq] at h
  obtain ⟨h1, h2, h3, h4, h5, h6⟩ := h
  have hs := (State.facts_of_check h1).sound.canonical
  have hw : ∀ q ∈ [(c.2.2.1, c.2.2.2.1)], q.2.length = recordSize c.2.1 := by
    intro q hq
    rw [List.mem_singleton.1 hq]
    exact h5
  refine ⟨due_of ⟨h1, h2, h3, h4, rfl, rfl⟩, fun hn => ?_, fun r hr => ?_⟩
  · exact (State.recordRefusal_spec hs _ _ _ h5 hw).2.2.2.1 (h6.trans hn)
  · exact State.recordRefusal_cases hs _ _ _ h5 hw (h6.trans hr)
/-- A zone written takes its new budget at once, and the commit copies its page (R185, R186). -/
theorem test_tableWrite :
    let t := after (writes 3#8 1#16 1#8 zoneBytes) (withOrder (writes 3#8 1#16 1#8 zoneBytes) (part .hold aimed))
    (t.field.zoneAt 1).budget = 200 ∧ t.commit = some (.page .zone 0) ∧ (t.store.tables.zoneAt 1).base = 100
      ∧ ((after .commitDone t).store.tables.zoneAt 1).base = 200 ∧ (after .commitDone t).commit = none := by decide +kernel

theorem test_w_ProtectionAndCommit :
    Due (.protect 7#8 8#8) (withOrder (.protect 7#8 8#8) (part .hold calm))
      ∧ Due (.protect 7#8 7#8) (withOrder (.protect 7#8 7#8) (part .hold calm))
      ∧ Due (.protect 7#8 7#8) (withOrder (.protect 7#8 7#8) { part .hold calm with marks := ProtMarks.all })
      ∧ Due (.protect 7#8 0#8) (withOrder (.protect 7#8 0#8) { part .hold calm with commit := some .marks })
      ∧ Due (.unprotectAll 7#8) (withOrder (.unprotectAll 7#8) { part .hold calm with commit := some .marks })
      ∧ Due (.unprotectAll 7#8) (withOrder (.unprotectAll 7#8) (part .hold calm))
      ∧ Due (.unprotectAll 7#8) (withOrder (.unprotectAll 7#8) { part .hold calm with marks := ProtMarks.all })
      ∧ (let s := { part .hold calm with commit := some (.page .zone 48) };
        s.phase = .running ∧ s.commit = some (.page .zone 48) ∧ s.Sound) :=
  ⟨due_of (by decide +kernel), due_of (by decide +kernel), due_of (by decide +kernel), due_of (by decide +kernel),
    due_of (by decide +kernel), due_of (by decide +kernel), due_of (by decide +kernel), rfl, rfl,
    (State.facts_of_check (by decide +kernel)).sound⟩

end Sys2Proof.Tests
end

section
/-! PROOFS for the family of heliostat records and groups (chapter 1): the facts that every step keeps, and that stand at reset. -/

namespace Sys2Proof.Machine

/-- A fact that the commands keep, that the clock's tick keeps and that does not speak of the queue of commands is kept by a step. -/
theorem step_keeps {P Q : State → Prop} (htick : ∀ s : State, P s → Q s.tick)
    (hqueue : ∀ (s : State) (rest : List Instr), P s → P { s with pending := rest })
    (hexec : ∀ (c : Instr) (s t : State), P s → exec c s = .next t → Q t) {s t : State} (hs : P s) (h : step s = .next t) : Q t := by
  unfold step at h
  split at h
  · exact Host.Outcome.next.inj h ▸ htick s hs
  · next c rest _ => exact hexec c _ t (hqueue s rest hs) h

theorem State.Sound.tick {s : State} (h : s.Sound) : s.tick.Sound :=
  ⟨h.canonical, h.records, h.grants, h.reports, h.queues, h.accounts, h.buffer⟩

theorem State.Sound.withQueue {s : State} (rest : List Instr) (h : s.Sound) : ({ s with pending := rest } : State).Sound :=
  ⟨h.canonical, h.records, h.grants, h.reports, h.queues, h.accounts, h.buffer⟩

/-- Settles O3: no command leaves the facts, and neither the clock nor the queue of commands is one of them. -/
theorem soundKeptByEveryStep : Obligations.SoundKeptByEveryStep := by
  unfold Obligations.SoundKeptByEveryStep
  intro s t hs h
  exact step_keeps (fun _ => State.Sound.tick) (fun _ rest => State.Sound.withQueue rest) (fun c _ _ => exec_sound c) hs h

/-- Settles O4: the state after reset has empty tables, so the checks over the listed entries give every fact. -/
theorem resetStateHasEveryFact : Obligations.ResetStateHasEveryFact := by
  unfold Obligations.ResetStateHasEveryFact
  have h : State.reset.Facts := State.facts_of_check (by decide)
  exact ⟨h.sound, h.budgets, h.zones, h.critical, h.trip, h.arbiter, h.lines, h.safe, h.live, h.store, h.tidy, h.osc⟩

end Sys2Proof.Machine
end

section
/-! PROOFS: the members of a group and the present heliostats (R4), and FLAGS SET and FLAGS CLEAR (R9, R10). -/

namespace Sys2Proof.Machine

/-! ### Members (R4) -/

theorem Tables.present_sorted {t : Tables} (ht : t.Canonical) : (t.present.map (·.1)).Pairwise (· < ·) :=
  List.pairwise_map.2 (ht.1.1.filter _)

theorem Tables.mem_present_map {t : Tables} (ht : t.Canonical) {h : Nat} :
    h ∈ t.present.map (·.1) ↔ (t.helioAt h).present = true := by
  rw [← Tables.mem_present t ht h, List.mem_map]

theorem Tables.lt_of_present {t : Tables} (ht : t.Canonical) {h : Nat} (hp : (t.helioAt h).present = true) : h < Config.heliostats := by
  by_contra hn
  rw [Tables.helioAt, Table.get_outside ht.1 hn] at hp
  cases hp

theorem Tables.members_sublist (t : Tables) (g : Nat) : (t.members g).Sublist (t.present.map (·.1)) :=
  List.filter_sublist.map _

theorem Tables.members_sorted {t : Tables} (ht : t.Canonical) (g : Nat) : (t.members g).Pairwise (· < ·) :=
  (Tables.present_sorted ht).sublist (t.members_sublist g)

theorem Tables.present_of_mem_members {t : Tables} (ht : t.Canonical) {g h : Nat} (hm : h ∈ t.members g) :
    (t.helioAt h).present = true := (Tables.mem_present_map ht).1 ((t.members_sublist g).mem hm)

theorem nodup_of_sorted {l : List Nat} (h : l.Pairwise (· < ·)) : l.Nodup := h.imp fun hlt => Nat.ne_of_lt hlt

/-! ### One effect on each heliostat of a list -/

/-- What the records read after an effect on each heliostat of a list, and what else is changed: nothing. -/
theorem Field.foldl_setRun (effect : HelioRun → HelioRun) {hs : List Nat} (hn : hs.Nodup) (hlt : ∀ h ∈ hs, h < Config.heliostats)
    (f : Field) : ∃ t, hs.foldl (fun (f : Field) h => f.setRun h (effect (f.run h))) f = { f with helio := t }
      ∧ ∀ j, ({ f with helio := t } : Field).run j = if j ∈ hs then effect (f.run j) else f.run j := by
  induction hs generalizing f with
  | nil => exact ⟨f.helio, rfl, fun j => by simp⟩
  | cons h hs ih =>
    obtain ⟨hnh, hn⟩ := List.nodup_cons.1 hn
    obtain ⟨t, ht, hr⟩ := ih hn (fun j hj => hlt j (List.mem_cons_of_mem _ hj)) (f.setRun h (effect (f.run h)))
    refine ⟨t, ht, fun j => ?_⟩
    have hj : ({ f with helio := t } : Field).run j = _ := hr j
    rw [hj, Field.run_setRun]
    by_cases e : h = j
    · subst e
      rw [if_neg hnh, if_pos ⟨rfl, hlt h List.mem_cons_self⟩, if_pos List.mem_cons_self]
    · have hne : ¬ (h = j ∧ h < Config.heliostats) := fun c => e c.1
      simp only [if_neg hne, List.mem_cons, Ne.symm e, false_or]

/-! ### FLAGS SET and FLAGS CLEAR (R9, R10) -/

theorem flagsRefused_iff (group mask : Byte) : flagsRefused group mask = true ↔ 63 < group.toNat ∨ mask = 0#8 ∨ 3 < mask.toNat := by
  have hm : ∀ mask : Byte, (flagsWithin mask 0x03#8 = false) ↔ 3 < mask.toNat := by decide
  unfold flagsRefused
  simp only [Bool.or_eq_true, decide_eq_true_eq, beq_iff_eq, Bool.not_eq_true', hm, or_assoc]

/-- A FLAGS order that is refused is answered RANGE and changes nothing else. -/
theorem State.flags_refused {s : State} {c : Instr} (hd : s.OrderDue c) (tag kind : Byte) {group mask : Byte}
    (effect : HelioRun → HelioRun) (h : 63 < group.toNat ∨ mask = 0#8 ∨ 3 < mask.toNat) :
    s.order c tag kind (State.flagsOrder group mask effect) = s.popFrame.answer tag kind (.plain .range) := by
  rw [State.order_due hd, State.flagsOrder, if_pos ((flagsRefused_iff group mask).2 h)]

/-- A FLAGS order that is not refused has its effect on each member and on nothing else, and answers how many records it changed and
whether all now carry the mask. -/
theorem State.flags_accepted {s : State} {c : Instr} (hd : s.OrderDue c) (hl : s.live.Canonical) (tag kind : Byte) {group mask : Byte}
    (effect : HelioRun → HelioRun) (h : ¬ (63 < group.toNat ∨ mask = 0#8 ∨ 3 < mask.toNat)) :
    let hs := s.live.members group.toNat
    let t := s.order c tag kind (State.flagsOrder group mask effect)
    s.AnsweredWith t tag kind ⟨.done, be16 (hs.filter (fun h => t.field.run h ≠ s.field.run h)).length
        ++ [byte (bit 1 (hs.all (fun h => (t.field.run h).carries mask)))]⟩
      ∧ (∀ h, h ∈ hs → t.field.run h = effect (s.field.run h)) ∧ (∀ h, h ∉ hs → t.field.run h = s.field.run h)
      ∧ t.field = { s.field with helio := t.field.helio } := by
  intro hs t
  obtain ⟨th, hf, hr⟩ := Field.foldl_setRun effect (nodup_of_sorted (Tables.members_sorted hl group.toNat))
    (fun h hm => Tables.lt_of_present hl (Tables.present_of_mem_members hl hm)) s.field
  have hin : ∀ h ∈ hs, ({ s.field with helio := th } : Field).run h = effect (s.field.run h) := fun h hm => by rw [hr, if_pos hm]
  have hrun : (State.flagsOrder group mask effect s.popFrame) =
      (⟨.done, be16 (hs.filter (fun h => ({ s.field with helio := th } : Field).run h ≠ s.field.run h)).length
        ++ [byte (bit 1 (hs.all (fun h => (({ s.field with helio := th } : Field).run h).carries mask)))]⟩,
        { s.popFrame with field := { s.field with helio := th } }) := by
    have hcount : hs.filter (fun h => effect (s.field.run h) != s.field.run h)
        = hs.filter (fun h => ({ s.field with helio := th } : Field).run h ≠ s.field.run h) :=
      List.filter_congr fun h hm => by rw [hin h hm, Bool.eq_iff_iff, bne_iff_ne, decide_eq_true_eq]
    unfold State.flagsOrder
    rw [if_neg (fun hc => h ((flagsRefused_iff group mask).1 hc)), ← hcount]
    simp only [State.popFrame_live, State.popFrame_field, hf]
    rfl
  obtain ⟨ha, hfield⟩ := State.answeredWith_of hd tag kind _ hrun
  have ht : t.field = { s.field with helio := th } := hfield
  refine ⟨ht ▸ ha, fun h hm => ht ▸ hin h hm, fun h hm => ?_, by rw [ht]⟩
  rw [ht, hr, if_neg hm]

theorem HelioRun.carries_iff (mask : Byte) (r : HelioRun) :
    r.carries mask = true ↔ (mask.getLsbD 0 → r.inhibit) ∧ (mask.getLsbD 1 → r.maint) := by
  unfold HelioRun.carries
  cases mask.getLsbD 0 <;> cases mask.getLsbD 1 <;> simp

/-- A record that has lost the flags of a mask within the two flags that is not empty does not carry the mask. -/
theorem HelioRun.not_carries_takeFlags {mask : Byte} (h0 : mask ≠ 0#8) (h3 : mask.toNat ≤ 3) (r : HelioRun) :
    (r.takeFlags mask).carries mask = false := by
  have hm : ∀ mask : Byte, mask ≠ 0#8 → mask.toNat ≤ 3 → mask.getLsbD 0 = true ∨ mask.getLsbD 1 = true := by decide
  unfold HelioRun.carries HelioRun.takeFlags
  rcases hm mask h0 h3 with e | e <;> simp [e]

theorem byte_bit (b : Bool) : byte (bit 1 b) = if b then 1#8 else 0#8 := by cases b <;> rfl

/-- Settles O32: the order's effect is the same fold over the members for both orders, and no member that has lost the mask carries
it. -/
theorem flagsSetAndClear : Obligations.FlagsSetAndClear := by
  unfold Obligations.FlagsSetAndClear
  constructor
  · intro s tag group mask hd hs
    refine ⟨fun hr => congrArg _ (State.flags_refused hd _ _ _ hr), fun hg h0 h3 => ?_⟩
    obtain ⟨ha, hin, hout, hf⟩ := State.flags_accepted hd hs.canonical.2.1 tag 0x07#8 (HelioRun.giveFlags mask)
      (group := group) (mask := mask) (not_or.2 ⟨by omega, not_or.2 ⟨h0, by omega⟩⟩)
    refine ⟨_, rfl, ?_, hin, hout, hf⟩
    rw [byte_bit] at ha
    simpa only [List.all_eq_true, HelioRun.carries_iff] using ha
  · intro s tag group mask hd hs
    refine ⟨fun hr => congrArg _ (State.flags_refused hd _ _ _ hr), fun hg h0 h3 => ?_⟩
    obtain ⟨ha, hin, hout, hf⟩ := State.flags_accepted hd hs.canonical.2.1 tag 0x08#8 (HelioRun.takeFlags mask)
      (group := group) (mask := mask) (not_or.2 ⟨by omega, not_or.2 ⟨h0, by omega⟩⟩)
    refine ⟨_, rfl, ?_, hin, hout, hf⟩
    have hall : ∀ t : State, (∀ h ∈ s.live.members group.toNat, t.field.run h = HelioRun.takeFlags mask (s.field.run h)) →
        ((s.live.members group.toNat).all (fun h => (t.field.run h).carries mask) = true ↔ s.live.members group.toNat = []) := by
      intro t hin
      rw [List.all_eq_true]
      constructor
      · intro hc
        refine List.eq_nil_iff_forall_not_mem.2 fun h hm => ?_
        have := hc h hm
        rw [hin h hm, HelioRun.not_carries_takeFlags h0 h3] at this
        cases this
      · intro he h hm
        rw [he] at hm
        cases hm
    rw [byte_bit] at ha
    simpa only [hall _ hin] using ha

end Sys2Proof.Machine
end

section
/-! PROOFS: scopes (R4), and CLEAR FAULT (R15, R17, R60). -/

namespace Sys2Proof.Machine

/-! ### Scopes (R4, 10.3) -/

theorem Env.scope_one (env : Env) (all : Bool) (index : Half) : env.scope all 0#8 index = some (.one index.toNat) := rfl

theorem Env.scope_group (env : Env) (all : Bool) {index : Half} (h : index.toNat ≤ 63) :
    env.scope all 1#8 index = some (.members (env.live.members index.toNat)) := if_pos (Nat.lt_succ_of_le h)

theorem Env.scope_group_refused (env : Env) (all : Bool) {index : Half} (h : 63 < index.toNat) : env.scope all 1#8 index = none :=
  if_neg (Nat.not_lt.2 h)

theorem Env.scope_all (env : Env) (index : Half) : env.scope true 2#8 index = some (.members env.all) := rfl

theorem Env.scope_code_refused (env : Env) (all : Bool) {scope : Byte} (index : Half) (h : (if all then 2 else 1) < scope.toNat) :
    env.scope all scope index = none := by
  unfold Env.scope
  split
  · next e => rw [e] at h; split at h <;> omega
  · next e => rw [e] at h; split at h <;> omega
  · next e =>
    rw [e] at h
    cases all
    · rfl
    · exact absurd h (by decide)
  · rfl

/-! ### The Report Queue beside the records (R19, R175) -/

/-- Two fields with the same Report Queue and the same report-owed flags. -/
structure Field.SameReports (f g : Field) : Prop where
  reports : g.reports = f.reports
  owed : ∀ h, (g.run h).reportOwed = (f.run h).reportOwed

theorem Field.SameReports.refl (f : Field) : f.SameReports f := ⟨rfl, fun _ => rfl⟩

theorem Field.SameReports.trans {f g k : Field} (h1 : f.SameReports g) (h2 : g.SameReports k) : f.SameReports k :=
  ⟨h2.reports.trans h1.reports, fun h => (h2.owed h).trans (h1.owed h)⟩

theorem Field.SameReports.reportOwed {f g : Field} (h : f.SameReports g) (src : Source) : g.reportOwed src = f.reportOwed src := by
  cases src <;> simp [Field.reportOwed, h.reports, h.owed]

/-- What a queued report makes of the queue and the flags is told by the queue and the flags alone. -/
theorem Field.SameReports.queueReport {f g : Field} (h : f.SameReports g) (src : Source) :
    (f.queueReport src).SameReports (g.queueReport src) := by
  unfold Field.queueReport
  rw [h.reports, h.reportOwed]
  split
  · exact h
  · split
    · exact h
    · split
      · exact ⟨rfl, h.owed⟩
      · cases src with
        | helio k =>
          refine ⟨h.reports, fun j => ?_⟩
          simp only [Field.setReportOwed, Field.run_setRun]
          split
          · rfl
          · exact h.owed j
        | _ => exact ⟨by simp [Field.setReportOwed, h.reports], h.owed⟩

theorem Field.SameReports.foldl {f g : Field} (h : f.SameReports g) (hs : List Nat) :
    (hs.foldl (fun (f : Field) k => f.queueReport (.helio k)) f).SameReports
      (hs.foldl (fun (f : Field) k => f.queueReport (.helio k)) g) := by
  induction hs generalizing f g with
  | nil => exact h
  | cons k hs ih => exact ih (h.queueReport _)

theorem Field.queueReport_helio_eq (f : Field) (h : Nat) : f.queueReport (.helio h) =
    { f with helio := (f.queueReport (.helio h)).helio, reports := (f.queueReport (.helio h)).reports } := by
  unfold Field.queueReport
  split
  · rfl
  · split
    · rfl
    · split <;> rfl

/-- A HELIO EVENT touches no other heliostat's record. -/
theorem Field.run_queueReport_other (f : Field) {h j : Nat} (hj : h ≠ j) : (f.queueReport (.helio h)).run j = f.run j := by
  unfold Field.queueReport
  split
  · rfl
  · split
    · rfl
    · split
      · rfl
      · exact (Field.run_setRun _ _ _ _).trans (if_neg fun c => hj c.1)

/-! ### Records without load -/

theorem HelioRun.Sound.aims_nil {r : HelioRun} (h : r.Sound) (hs : r.grantState = false) : r.aims = [] := by
  obtain ⟨hg, hl⟩ := h.no_aims hs
  simp [HelioRun.aims, hg, hl]

theorem HelioRun.holdsLoad_eq_aims (r : HelioRun) : r.holdsLoad = !r.aims.isEmpty := by
  unfold HelioRun.holdsLoad HelioRun.aims
  cases r.granted <;> cases r.leaving <;> rfl

theorem HelioRun.granted_of_aims_nil {r : HelioRun} (h : r.aims = []) : r.granted = none := by
  unfold HelioRun.aims at h
  cases hg : r.granted with
  | none => rfl
  | some a => rw [hg] at h; cases h

theorem Env.zonesMoved_nil (env : Env) {old new : HelioRun} (ho : old.aims = []) (hn : new.aims = []) : env.zonesMoved old new = [] := by
  unfold Env.zonesMoved HelioRun.isPending
  simp [HelioRun.holdsLoad_eq_aims, ho, hn]

/-- Writing a record without load over one without load, of a heliostat that goes not LOST, changes that record alone. -/
theorem Field.record_noLoad (env : Env) {h : Nat} {r : HelioRun} {f : Field} (hold : (f.run h).aims = []) (hnew : r.aims = [])
    (hm : h ∉ f.grants) (hl : r.state ≠ .lost) : f.record env h r = f.setRun h r := by
  unfold Field.record Field.accountRecord
  simp only [Env.zonesMoved_nil env hold hnew, hold, hnew, HelioRun.granted_of_aims_nil hnew]
  rw [if_neg (fun c => hl c.1)]
  have hf : f.grants.filter (· != h) = f.grants := by
    refine List.filter_eq_self.2 fun j hj => ?_
    rw [bne_iff_ne]
    exact fun e => hm (e ▸ hj)
  simp only [List.foldl_nil, List.filter_nil, Field.recount, grantsAfter, Option.isNone_none, if_true, Field.setRun, hf]

theorem Field.GrantsExact.not_mem {f : Field} (h : f.GrantsExact) {j : Nat} (hj : (f.run j).granted = none) : j ∉ f.grants := by
  rw [h.2 j, hj]
  exact Bool.false_ne_true

/-! ### The trip record where it is exact (R100, R101) -/

/-- The trip record as its causes, its latch and its mode give it. -/
def Field.TripOf (live : Tables) (f : Field) : Prop :=
  f.trip = ⟨f.anyCritical, f.anyNonCritical, f.trip.latch,
      assertedUnder live.watch.mode f.anyCritical f.anyNonCritical f.trip.latch⟩
    ∧ (live.watch.mode ≠ .latch → f.trip.latch = false)

/-- Without an onset, a trip record that is exact is left as it is. -/
theorem Work.evalTrip_exact {env : Env} {w : Work} (ho : w.onset = false) (ht : w.fld.TripOf env.live) : w.evalTrip env = w := by
  obtain ⟨h1, h2⟩ := ht
  have hl : (env.live.watch.mode == .latch && (w.fld.trip.latch || w.onset)) = w.fld.trip.latch := by
    rw [ho, Bool.or_false]
    by_cases hm : env.live.watch.mode = .latch
    · simp [hm]
    · simp [h2 hm]
  unfold Work.evalTrip
  simp only [hl]
  rw [if_pos h1.symm]
  obtain ⟨f, t, o⟩ := w
  cases ho
  rfl

theorem Field.anyLost_iff {f : Field} (hc : f.Canonical) :
    f.helio.any (fun p => p.2.accountedLost) = true ↔ ∃ h, (f.run h).accountedLost = true :=
  Table.any_iff hc.1 (fun _ r => r.accountedLost) fun _ => rfl

/-- An exact trip record stays exact while the zones, the record and what is accounted LOST stay. -/
theorem Field.TripOf.congr {live : Tables} {f g : Field} (h : f.TripOf live) (hf : f.Canonical) (hg : g.Canonical)
    (hz : g.zone = f.zone) (ht : g.trip = f.trip) (hl : ∀ j, (g.run j).accountedLost = (f.run j).accountedLost) : g.TripOf live := by
  have hc : g.anyCritical = f.anyCritical := by rw [Field.anyCritical, hz]; rfl
  have hn : g.anyNonCritical = f.anyNonCritical := by
    unfold Field.anyNonCritical
    rw [hz, Bool.eq_iff_iff, Bool.or_eq_true, Bool.or_eq_true, Field.anyLost_iff hf, Field.anyLost_iff hg]
    simp only [hl]
  unfold Field.TripOf at *
  rw [ht, hc, hn]
  exact h

/-! ### CLEAR FAULT (R15) -/

/-- The record after a CLEAR FAULT (R15). -/
def HelioRun.faultCleared (r : HelioRun) : HelioRun :=
  { r with state := .unsure, fault := none, silentCount := 0, busyCount := 0, lastCause := some .cleared }

/-- A FAULTED heliostat's record is cleared and its HELIO EVENT queued, and no zone is touched. -/
theorem Work.clearFault_faulted {env : Env} {h : Nat} {w : Work} (hr : w.fld.RecordsSound) (hg : w.fld.GrantsExact)
    (hh : h < Config.heliostats) (hs : (w.fld.run h).state = .faulted) :
    w.clearFault env h = { w with fld := (w.fld.setRun h (w.fld.run h).faultCleared).queueReport (.helio h) } := by
  have hgs : (w.fld.run h).grantState = false := by simp [HelioRun.grantState, hs]
  have haims := (hr h).aims_nil hgs
  have hcleared : (w.fld.run h).faultCleared.aims = [] := haims
  have hdiff : (w.fld.run h).differs (w.fld.run h).faultCleared = true := by simp [HelioRun.differs, HelioRun.faultCleared, hs]
  have hby : (w.fld.run h).by (some .cleared)
      { w.fld.run h with state := .unsure, fault := none, silentCount := 0, busyCount := 0 } = (w.fld.run h).faultCleared :=
    if_pos hdiff
  unfold Work.clearFault
  simp only [hs, if_true, hby]
  unfold Work.put
  simp only [hdiff, if_true]
  unfold Work.write
  rw [if_pos hh, Env.zonesMoved_nil env haims hcleared,
    Field.record_noLoad env haims hcleared (hg.not_mem ((hr h).no_aims hgs).1) (fun e => HState.noConfusion e)]
  simp [Work.report, HelioRun.accountedLost, HelioRun.faultCleared]

/-- The faults of the heliostats `hs` have been cleared: the field was `f` and is `g`. -/
structure Field.FaultsCleared (hs : List Nat) (f g : Field) : Prop where
  cleared : ∀ j, j ∈ hs → (f.run j).state = .faulted → g.run j = { (f.run j).faultCleared with reportOwed := (g.run j).reportOwed }
  kept : ∀ j, j ∉ hs ∨ (f.run j).state ≠ .faulted → g.run j = f.run j
  others : g = { f with helio := g.helio, reports := g.reports }
  reports : ((hs.filter (fun h => (f.run h).state = .faulted)).foldl (fun (f : Field) h => f.queueReport (.helio h)) f).SameReports g

/-- CLEAR FAULT clears the heliostats it names, one after the other, and touches no zone (R15). -/
theorem Work.foldl_clearFault {env : Env} {hs : List Nat} (hn : hs.Nodup) (hlt : ∀ h ∈ hs, h < Config.heliostats) (w : Work)
    (hw : w.fld.Good env) :
    ∃ g, hs.foldl (fun (w : Work) h => w.clearFault env h) w = { w with fld := g } ∧ w.fld.FaultsCleared hs g := by
  induction hs generalizing w with
  | nil => exact ⟨w.fld, rfl, fun _ hj => absurd hj List.not_mem_nil, fun _ _ => rfl, rfl, .refl _⟩
  | cons h hs ih =>
    obtain ⟨hnh, hn⟩ := List.nodup_cons.1 hn
    have hlt' : ∀ j ∈ hs, j < Config.heliostats := fun j hj => hlt j (List.mem_cons_of_mem _ hj)
    by_cases hf : (w.fld.run h).state = .faulted
    · have hstep := Work.clearFault_faulted (env := env) hw.records hw.grants (hlt h List.mem_cons_self) hf
      have hgood := (Work.reach_clearFault (env := env) h w).good hw
      have hsame : ∀ j, h ≠ j →
          ((w.fld.setRun h (w.fld.run h).faultCleared).queueReport (.helio h)).run j = w.fld.run j := fun j hj => by
        rw [Field.run_queueReport_other _ hj, Field.run_setRun, if_neg (fun c => hj c.1)]
      have hne : ∀ j ∈ hs, h ≠ j := fun j hj e => hnh (e ▸ hj)
      rw [List.foldl_cons, hstep]
      rw [hstep] at hgood
      obtain ⟨g, hg, hc⟩ := ih hn hlt' _ hgood
      refine ⟨g, hg, fun j hj hs' => ?_, fun j hj => ?_, ?_, ?_⟩
      · rcases List.mem_cons.1 hj with rfl | hj
        · rw [hc.kept j (Or.inl hnh), Field.run_queueReport_eq, Field.run_setRun, if_pos ⟨rfl, hlt j List.mem_cons_self⟩]
        · have := hc.cleared j hj
          rw [hsame j (hne j hj)] at this
          exact this hs'
      · have hj' : h ≠ j ∧ (j ∉ hs ∨ (w.fld.run j).state ≠ .faulted) := by
          rcases hj with hj | hj
          · exact ⟨fun e => hj (e ▸ List.mem_cons_self), Or.inl fun hm => hj (List.mem_cons_of_mem _ hm)⟩
          · exact ⟨fun e => hj (e ▸ hf), Or.inr hj⟩
        have := hc.kept j
        rw [hsame j hj'.1] at this
        exact this hj'.2
      · have h1 := hc.others
        rw [Field.queueReport_helio_eq] at h1
        exact h1
      · have hfilter : hs.filter (fun j =>
            (((w.fld.setRun h (w.fld.run h).faultCleared).queueReport (.helio h)).run j).state = .faulted)
            = hs.filter (fun j => (w.fld.run j).state = .faulted) :=
          List.filter_congr fun j hj => by rw [hsame j (hne j hj)]
        have hstart : w.fld.SameReports (w.fld.setRun h (w.fld.run h).faultCleared) := ⟨rfl, fun j => by
          rw [Field.run_setRun]
          split
          · next c => rw [← c.1]; rfl
          · rfl⟩
        have h1 := hc.reports
        rw [hfilter] at h1
        rw [List.filter_cons, if_pos (decide_eq_true hf), List.foldl_cons]
        exact ((hstart.queueReport _).foldl _).trans h1
    · have hstep : w.clearFault env h = w := if_neg hf
      rw [List.foldl_cons, hstep]
      obtain ⟨g, hg, hc⟩ := ih hn hlt' w hw
      refine ⟨g, hg, fun j hj hs' => ?_, fun j hj => ?_, hc.others, ?_⟩
      · rcases List.mem_cons.1 hj with rfl | hj
        · exact absurd hs' hf
        · exact hc.cleared j hj hs'
      · refine hc.kept j ?_
        rcases hj with hj | hj
        · exact Or.inl fun hm => hj (List.mem_cons_of_mem _ hm)
        · exact Or.inr hj
      · rw [List.filter_cons, if_neg (fun c => hf (of_decide_eq_true c))]
        exact hc.reports

theorem Field.FaultsCleared.accountedLost {hs : List Nat} {f g : Field} (h : f.FaultsCleared hs g) (j : Nat) :
    (g.run j).accountedLost = (f.run j).accountedLost := by
  by_cases hj : j ∈ hs ∧ (f.run j).state = .faulted
  · rw [h.cleared j hj.1 hj.2]
    unfold HelioRun.accountedLost
    rw [hj.2]
    rfl
  · rw [h.kept j (not_and_or.1 hj)]

/-- The change of a CLEAR FAULT ends with the clearing alone: no zone is touched and the trip record stays (R15, R100). -/
theorem State.change_clearFault {s : State} (hs : s.Sound) (ht : s.TripExact) {hl : List Nat} (hn : hl.Nodup)
    (hlt : ∀ h ∈ hl, h < Config.heliostats) :
    s.field.FaultsCleared hl (s.change (fun w => hl.foldl (fun (w : Work) h => w.clearFault s.env h) w)).field := by
  obtain ⟨g, hg, hc⟩ := Work.foldl_clearFault hn hlt (Work.of s.field) hs.good
  have hreach : Field.Reach s.live s.field g := by
    have h1 := Work.reach_foldl (fun (w : Work) h => w.clearFault s.env h)
      (fun w h => Work.reach_clearFault (env := s.env) h w) hl (Work.of s.field)
    rw [hg] at h1
    exact h1
  have hgood : g.Good s.env := Field.Reach.good (env := s.env) hreach hs.good
  have htrip : g.TripOf s.live := Field.TripOf.congr ht hs.canonical.1 hgood.canonical (by rw [hc.others]; rfl)
    (by rw [hc.others]; rfl) hc.accountedLost
  have hfield : (s.change (fun w => hl.foldl (fun (w : Work) h => w.clearFault s.env h) w)).field = g := by
    show Work.finish s.env (hl.foldl (fun (w : Work) h => w.clearFault s.env h) (Work.of s.field)) = g
    rw [hg, Work.finish_nil s.env rfl, Work.evalTrip_exact rfl htrip]
  rw [hfield]
  exact hc

theorem Field.ChoiceOnly.not_queued {f g : Field} (h : f.ChoiceOnly g) {j : Nat} (hq : (f.run j).queued = false) :
    (g.run j).queued = false := by
  rcases h.runs j with e | ⟨-, e⟩
  · rw [e]; exact hq
  · rw [← Bool.not_eq_true] at hq ⊢
    exact fun c => hq (e c)

theorem State.kick_withField (s : State) (f : Field) :
    ({ s with field := f } : State).kick = { s with field := ({ s with field := f } : State).kick.field } := State.kick_eq _

/-- A change followed by the SXEs' choices changes the field alone. -/
theorem State.changeKick_eq (s : State) (g : Work → Work) : (s.change g).kick = { s with field := (s.change g).kick.field } :=
  State.kick_withField s _

/-- What a CLEAR FAULT that is not refused does with the heliostats it names, and what it answers. -/
def State.clearFaults (hl : List Nat) (s : State) : Reply × State :=
  (⟨.done, be16 (hl.filter (fun h => (s.field.run h).state == .faulted)).length⟩,
    (s.change (fun w => hl.foldl (fun (w : Work) h => w.clearFault s.env h) w)).kick)

theorem State.clearFaultOrder_cases (scope : Byte) (index : Half) (s : State) : s.clearFaultOrder scope index =
    match s.env.scope false scope index with
    | none => (.plain .range, s)
    | some (.one h) => if (s.live.helioAt h).present then s.clearFaults [h] else (.plain .range, s)
    | some (.members hs) => s.clearFaults hs := rfl

/-- CLEAR FAULT refused (R15). -/
theorem State.clearFaultOrder_refused {scope : Byte} {index : Half} {s : State}
    (h : 1 < scope.toNat ∨ (scope = 1#8 ∧ 63 < index.toNat) ∨ (scope = 0#8 ∧ (s.live.helioAt index.toNat).present = false)) :
    s.clearFaultOrder scope index = (.plain .range, s) := by
  rw [State.clearFaultOrder_cases]
  rcases h with h | ⟨rfl, h⟩ | ⟨rfl, h⟩
  · rw [Env.scope_code_refused s.env false index h]
  · rw [Env.scope_group_refused s.env false h]
  · rw [Env.scope_one]
    exact if_neg (by rw [h]; exact Bool.false_ne_true)

/-- The heliostats that a CLEAR FAULT names (R4, R15). -/
theorem State.clearFaultOrder_named {scope : Byte} {index : Half} {s : State} (hc : s.live.Canonical) {hl : List Nat}
    (h : (scope = 0#8 ∧ (s.live.helioAt index.toNat).present ∧ hl = [index.toNat])
      ∨ (scope = 1#8 ∧ index.toNat ≤ 63 ∧ hl = s.live.members index.toNat)) :
    s.clearFaultOrder scope index = s.clearFaults hl ∧ hl.Nodup ∧ ∀ h ∈ hl, h < Config.heliostats := by
  rw [State.clearFaultOrder_cases]
  rcases h with ⟨rfl, hp, rfl⟩ | ⟨rfl, h63, rfl⟩
  · rw [Env.scope_one]
    exact ⟨if_pos hp, List.nodup_singleton _, fun h hm => Tables.lt_of_present hc (List.mem_singleton.1 hm ▸ hp)⟩
  · rw [Env.scope_group s.env false h63]
    exact ⟨rfl, nodup_of_sorted (Tables.members_sorted hc _), fun h hm => Tables.lt_of_present hc (Tables.present_of_mem_members hc hm)⟩

/-- CLEAR FAULT not refused: the heliostats named are cleared, and the SXEs choose (R15, R60). -/
theorem State.clearFaults_spec {s : State} (hs : s.Sound) (ht : s.TripExact) {hl : List Nat} (hn : hl.Nodup)
    (hlt : ∀ h ∈ hl, h < Config.heliostats) :
    ∃ f g, s.clearFaults hl = (⟨.done, be16 (hl.filter (fun h => (s.field.run h).state = .faulted)).length⟩, { s with field := g })
      ∧ s.field.FaultsCleared hl f ∧ f.ChoiceOnly g := by
  refine ⟨_, _, ?_, State.change_clearFault hs ht hn hlt, State.choiceOnly_kick _⟩
  have hcount : hl.filter (fun h => (s.field.run h).state == .faulted) = hl.filter (fun h => (s.field.run h).state = .faulted) :=
    List.filter_congr fun h _ => by rw [Bool.eq_iff_iff, beq_iff_eq, decide_eq_true_eq]
  unfold State.clearFaults
  rw [← State.changeKick_eq, hcount]

/-- Settles O31: the heliostats named hold no load, so their clearing touches no zone, and the SXEs then choose. -/
theorem clearFaultMakesUnsure : Obligations.ClearFaultMakesUnsure := by
  unfold Obligations.ClearFaultMakesUnsure
  intro s tag scope index hd hs ht
  refine ⟨fun hr => congrArg Host.Outcome.next ?_, fun hl hnamed => ?_⟩
  · rw [State.order_due hd, State.clearFaultOrder_refused (s := s.popFrame) hr]
  · obtain ⟨hrun, hnodup, hlt⟩ := State.clearFaultOrder_named (s := s.popFrame) hs.canonical.2.1 hnamed
    obtain ⟨f, g, he, hc, hk⟩ := State.clearFaults_spec (s := s.popFrame) ((State.steps_popFrame s).sound hs) ht hnodup hlt
    obtain ⟨ha, hfield⟩ := State.answeredWith_of hd tag 0x06#8 _ (hrun.trans he)
    rw [State.popFrame_field] at hc
    refine ⟨_, rfl, ha, ?_⟩
    rw [hfield]
    refine ⟨fun h hm hf => ?_, fun h hj => ?_, ?_, ?_, fun h => ?_, f, hk, fun k => ?_⟩
    · have hq : (s.field.run h).queued = false := (hs.records h).not_queued (by rw [hf]; decide)
      have hqf : (f.run h).queued = false := by rw [hc.cleared h hm hf]; exact hq
      have ho : (g.run h).reportOwed = (f.run h).reportOwed := by rw [hk.run_eq h]
      have hg := hk.run_eq h
      rw [hk.not_queued hqf, hc.cleared h hm hf, ← hq] at hg
      rw [ho]
      exact hg
    · rw [hk.run_eq h, hc.kept h hj]
    · rw [hk.others, hc.others]
    · rw [hk.reports]; exact hc.reports.reports
    · rw [hk.run_eq h]; exact hc.reports.owed h
    · rw [Field.sxeAt, hc.others]; rfl

end Sys2Proof.Machine
end

section
/-! PROOFS: DEFOCUS and STOW by order (R4, R11, R12, R14). -/

namespace Sys2Proof.Machine

/-! ### The end of a change (R44 to R47, R60) -/

theorem Field.ZonesKept.refl (f : Field) : f.ZonesKept f := fun _ => .refl _

theorem Field.ZonesKept.trans {f g k : Field} (h1 : f.ZonesKept g) (h2 : g.ZonesKept k) : f.ZonesKept k :=
  fun z => (h1 z).trans (h2 z)

theorem Field.ProgramsKept.refl (f : Field) : f.ProgramsKept f := ⟨rfl, fun _ => rfl⟩

theorem Field.ProgramsKept.trans {f g k : Field} (h1 : f.ProgramsKept g) (h2 : g.ProgramsKept k) : f.ProgramsKept k :=
  ⟨h2.1.trans h1.1, fun n => by rw [h2.2 n, h1.2 n]⟩

/-- What the FAU's tests, the trip record and the SXEs' choices keep at the end of a change. -/
theorem State.changeKick_kept (s : State) (g : Work → Work) :
    let f := (g (Work.of s.field)).fld
    let t := (s.change g).kick.field
    f.RunsKept (fun _ => True) t ∧ f.ZonesKept t ∧ f.ProgramsKept t ∧ ∀ j, (f.run j).secured → (f.run j).queued = false →
      (t.run j).queued = false := by
  intro f t
  have hshed := Work.shedOnly_finish s.env (g (Work.of s.field))
  have hk : ((g (Work.of s.field)).finish s.env).ChoiceOnly t := State.choiceOnly_kick (s.change g)
  have hsec : ∀ j, (f.run j).secured → ((g (Work.of s.field)).finish s.env).run j =
      { f.run j with reportOwed := (((g (Work.of s.field)).finish s.env).run j).reportOwed } := fun j hj => Work.run_finish hj
  refine ⟨fun j _ hj => ⟨?_, fun hi => ?_⟩, fun z => ?_, ⟨?_, fun k => ?_⟩, fun j hj hq => hk.not_queued ?_⟩
  · have h1 := hk.run_eq j
    rw [hsec j hj] at h1
    rw [h1]
  · have h2 : (((g (Work.of s.field)).finish s.env).run j).inFlight = true := by rw [hsec j hj]; exact hi
    rcases hk.runs j with e | ⟨e, -⟩
    · rw [e]; exact h2
    · rw [e]
  · rw [hk.zoneAt]; exact hshed.zones z
  · rw [hk.arbiter]; exact hshed.arbiter
  · rw [hk.slotAt]; exact hshed.slots k
  · rw [hsec j hj]; exact hq

/-! ### The owed motion of one heliostat (R11, R12) -/

/-- The record of a heliostat that is given a motion (R11), its Move Queue entry withdrawn in the same change (R12). -/
def HelioRun.given (m : Motion) (c : Cause) (r : HelioRun) : HelioRun :=
  r.by (some c) ((if r.queued then ({ r with queued := false } : HelioRun).revoked else r).setOwed m c).nothingRemains

theorem HelioRun.by_queued (c : Option Cause) (old new : HelioRun) : (old.by c new).queued = new.queued := by
  unfold HelioRun.by
  split <;> rfl

theorem HelioRun.nothingRemains_queued (r : HelioRun) : r.nothingRemains.queued = r.queued := by
  unfold HelioRun.nothingRemains
  split
  · rfl
  · split <;> rfl
  · split <;> rfl

theorem HelioRun.setOwed_queued (m : Motion) (c : Cause) (r : HelioRun) : (r.setOwed m c).queued = r.queued := by
  unfold HelioRun.setOwed
  split <;> rfl

theorem HelioRun.given_queued (m : Motion) (c : Cause) (r : HelioRun) : (r.given m c).queued = false := by
  unfold HelioRun.given
  rw [HelioRun.by_queued, HelioRun.nothingRemains_queued, HelioRun.setOwed_queued]
  split
  · exact HelioRun.revoked_queued _ rfl
  · next hq => exact eq_false_of_ne_true hq

/-- The record of a queued re-aim that is given a motion: TRACKING its old aim and owing the motion (R12). -/
theorem HelioRun.given_reAim (m : Motion) (c : Cause) {r : HelioRun} (hs : r.Sound) (hq : r.queued = true) (hl : r.leaving.isSome) :
    (r.given m c).state = .tracking ∧ (r.given m c).granted = r.leaving ∧ (r.given m c).leaving = none
      ∧ (r.given m c).owed = some ⟨m, c⟩ ∧ (r.given m c).lastCause = some c := by
  obtain ⟨-, -, -, -, -, -, -, h8⟩ := hs
  obtain ⟨hst, -, ho⟩ := h8 hq
  obtain ⟨a, ha⟩ := Option.isSome_iff_exists.1 hl
  unfold HelioRun.given HelioRun.by HelioRun.differs
  cases m <;> simp [HelioRun.revoked, HelioRun.tidy, HelioRun.setOwed, HelioRun.nothingRemains, hst, ha, ho, hq]

/-- The record of a queued grant from rest that is given a motion: at rest, only a STOW at STANDBY left to do (R12). -/
theorem HelioRun.given_fromRest (m : Motion) (c : Cause) {r : HelioRun} (hs : r.Sound) (hq : r.queued = true) (hl : r.leaving = none) :
    (r.given m c).state = (match r.rest with | .standby => .standby | .stowed => .stowed) ∧ (r.given m c).granted = none
      ∧ (r.given m c).leaving = none ∧ (r.given m c).owed = (if m = .stow ∧ r.rest = .standby then some ⟨.stow, c⟩ else none)
      ∧ (r.given m c).lastCause = some c := by
  obtain ⟨-, -, -, -, -, -, -, h8⟩ := hs
  obtain ⟨hst, -, ho⟩ := h8 hq
  unfold HelioRun.given HelioRun.by HelioRun.differs
  cases m <;> cases hr : r.rest <;>
    simp [HelioRun.revoked, HelioRun.tidy, HelioRun.setOwed, HelioRun.nothingRemains, hst, hl, ho, hq]

/-- What R11 and R12 say of a heliostat given a motion holds of `HelioRun.given`, whatever then comes in flight or is reported. -/
theorem HelioRun.givenMotion {m : Motion} {c : Cause} {r r' : HelioRun} (hs : r.Sound)
    (he : r' = { r.given m c with reportOwed := r'.reportOwed, inFlight := r'.inFlight, queued := r'.queued })
    (hq : r'.queued = false) : r.GivenMotion m c r' := by
  rw [hq] at he
  refine ⟨fun hn => ?_, fun hr hl => ?_, fun hr hl => ?_⟩
  · have hg : r.given m c = r.by (some c) (r.setOwed m c).nothingRemains := by
      unfold HelioRun.given
      rw [if_neg (by rw [hn]; exact Bool.false_ne_true)]
    rw [hg] at he
    exact he
  · obtain ⟨h1, h2, h3, h4, h5⟩ := HelioRun.given_reAim m c hs hr hl
    exact ⟨he ▸ h1, he ▸ h2, he ▸ h3, he ▸ h4, hq, he ▸ h5⟩
  · obtain ⟨h1, h2, h3, h4, h5⟩ := HelioRun.given_fromRest m c hs hr hl
    exact ⟨he ▸ h1, he ▸ h2, he ▸ h3, he ▸ h4, hq, he ▸ h5⟩

theorem HelioRun.setOwed_isSome (m : Motion) (c : Cause) (r : HelioRun) : (r.setOwed m c).owed.isSome = true := by
  unfold HelioRun.setOwed
  cases ho : r.owed with
  | none => rfl
  | some o =>
    obtain ⟨o, _⟩ := o
    cases o <;> cases m <;> simp [ho]

/-- A motion is cleared by the nothing-remains test only at rest or RETURNING (R11). -/
theorem HelioRun.nothingRemains_owed (r : HelioRun) :
    r.nothingRemains.owed = r.owed ∨ r.state = .standby ∨ r.state = .stowed ∨ r.state = .returning := by
  unfold HelioRun.nothingRemains
  split
  · exact Or.inl rfl
  · split
    · next h => exact Or.inr h
    · exact Or.inl rfl
  · split
    · next h => exact Or.inr (h.elim (fun h => Or.inr (Or.inl h)) fun h => Or.inr (Or.inr h.1))
    · exact Or.inl rfl

/-- No shedding walk takes a heliostat that has been given a motion: it owes it, is RETURNING, or is at rest without load (R45). -/
theorem HelioRun.secured_given (m : Motion) (c : Cause) {r : HelioRun} (hs : r.Sound) : (r.given m c).secured = true := by
  let r1 := (if r.queued then ({ r with queued := false } : HelioRun).revoked else r)
  have hs1 : r1.Sound := by
    by_cases hq : r.queued = true
    · rw [show r1 = _ from if_pos hq]; exact hs.revoked
    · rw [show r1 = _ from if_neg hq]; exact hs
  have hq1 : r1.queued = false := by
    by_cases hq : r.queued = true
    · rw [show r1 = _ from if_pos hq]; exact HelioRun.revoked_queued _ rfl
    · rw [show r1 = _ from if_neg hq]; exact eq_false_of_ne_true hq
  have hs2 : (r1.setOwed m c).nothingRemains.Sound := (hs1.setOwed m c hq1).nothingRemains
  have hsec : (r1.setOwed m c).nothingRemains.secured = true := by
    unfold HelioRun.secured
    simp only [Bool.or_eq_true, Bool.not_eq_true', beq_iff_eq]
    have hst := HelioRun.nothingRemains_state (r1.setOwed m c)
    rcases HelioRun.nothingRemains_owed (r1.setOwed m c) with h | h | h | h
    · exact Or.inl (Or.inl (Or.inl (by rw [h]; exact HelioRun.setOwed_isSome m c r1)))
    · refine Or.inr ?_
      rw [hs2.holdsLoad_eq, hs2.1, HelioRun.grantState, hst, h]; rfl
    · refine Or.inr ?_
      rw [hs2.holdsLoad_eq, hs2.1, HelioRun.grantState, hst, h]; rfl
    · exact Or.inl (Or.inl (Or.inr (hst.trans h)))
  exact (HelioRun.by_secured _ _ _).trans hsec

/-! ### What giving a motion leaves alone -/

theorem Work.run_put_same (env : Env) {h : Nat} (hh : h < Config.heliostats) (r : HelioRun) (w : Work) :
    (w.put env h r).fld.run h = { r with reportOwed := ((w.put env h r).fld.run h).reportOwed } := by
  have := Work.run_put env h r w h
  rwa [if_pos ⟨rfl, hh⟩] at this

theorem Work.run_write_other (env : Env) {h j : Nat} (hj : h ≠ j) (r : HelioRun) (w : Work) :
    (w.write env h r).fld.run j = w.fld.run j := by
  unfold Work.write
  split
  · exact (Field.run_record env h r w.fld j).trans (if_neg fun c => hj c.1)
  · rfl

theorem Work.run_put_other (env : Env) {h j : Nat} (hj : h ≠ j) (r : HelioRun) (w : Work) :
    (w.put env h r).fld.run j = w.fld.run j := by
  unfold Work.put
  simp only
  split
  · exact (Field.run_queueReport_other _ hj).trans (Work.run_write_other env hj r w)
  · exact Work.run_write_other env hj r w

/-- Giving a motion, said once for queued and other heliostats. -/
theorem Work.owe_eq (env : Env) (m : Motion) (c : Cause) (h : Nat) (w : Work) : w.owe env m c h =
    if (w.fld.run h).queued then
      ((w.dropEntry env h).put env h ((w.fld.run h).given m c)).follow h (w.fld.run h).granted false
    else w.put env h ((w.fld.run h).given m c) := by
  unfold Work.owe HelioRun.given
  split
  · next hq => simp only [hq, if_true]
  · next hq => simp only [hq, if_false, Bool.false_eq_true]

theorem Work.run_owe_same (env : Env) (m : Motion) (c : Cause) {h : Nat} (hh : h < Config.heliostats) (w : Work) :
    (w.owe env m c h).fld.run h =
      { (w.fld.run h).given m c with reportOwed := ((w.owe env m c h).fld.run h).reportOwed } := by
  rw [Work.owe_eq]
  split
  · rw [Work.run_follow]; exact Work.run_put_same env hh _ _
  · exact Work.run_put_same env hh _ _

theorem Work.run_owe_other (env : Env) (m : Motion) (c : Cause) {h j : Nat} (hj : h ≠ j) (w : Work) :
    (w.owe env m c h).fld.run j = w.fld.run j := by
  rw [Work.owe_eq]
  split
  · rw [Work.run_follow, Work.run_put_other env hj, Work.run_dropEntry]
  · exact Work.run_put_other env hj _ _

theorem Field.passSlot_dropEntry (g h : Nat) (f : Field) (k : Nat) : ((f.dropEntry g h).sxeAt k).passSlot = (f.sxeAt k).passSlot := by
  unfold Field.dropEntry
  simp only
  split
  · rw [Field.sxeAt_setSxe]
    split
    · next hk => rw [← hk.1]
    · rfl
  · rfl

theorem Work.sxe_follow (h : Nat) (a : Option Nat) (c : Bool) (w : Work) : (w.follow h a c).fld.sxe = w.fld.sxe := by
  unfold Work.follow
  split
  · rfl
  · next k =>
    have : ∀ (l : List Nat) (f : Field), (l.foldl (fun f n => f.setSlot n ((f.slotAt n).follow h k c)) f).sxe = f.sxe := by
      intro l
      induction l with
      | nil => exact fun _ => rfl
      | cons n l ih => exact fun f => (ih _).trans rfl
    exact this _ w.fld

theorem Work.sxe_write (env : Env) (h : Nat) (r : HelioRun) (w : Work) : (w.write env h r).fld.sxe = w.fld.sxe := by
  unfold Work.write
  split
  · exact Field.sxe_record env h r w.fld
  · rfl

theorem Work.sxe_put (env : Env) (h : Nat) (r : HelioRun) (w : Work) : (w.put env h r).fld.sxe = w.fld.sxe := by
  unfold Work.put
  simp only
  split
  · exact (Work.report_sxe _ _).trans (Work.sxe_write env h r w)
  · exact Work.sxe_write env h r w

/-- Giving a motion touches no held PASS. -/
theorem Work.passSlot_owe (env : Env) (m : Motion) (c : Cause) (h : Nat) (w : Work) (k : Nat) :
    ((w.owe env m c h).fld.sxeAt k).passSlot = (w.fld.sxeAt k).passSlot := by
  rw [Work.owe_eq]
  split
  · rw [Field.sxeAt, Work.sxe_follow, Work.sxe_put]; exact Field.passSlot_dropEntry _ h w.fld k
  · rw [Field.sxeAt, Work.sxe_put]; rfl

/-- The zones and the programs of a written record: the loads alone may change, where its heliostat enters LOST not now. -/
theorem Work.kept_write (env : Env) (h : Nat) (r : HelioRun) (w : Work) (hl : r.state = .lost → (w.fld.run h).state = .lost) :
    w.fld.ZonesKept (w.write env h r).fld ∧ w.fld.ProgramsKept (w.write env h r).fld := by
  unfold Work.write
  split
  · refine ⟨fun z => ?_, Field.arbiter_record env h r w.fld, fun k => ?_⟩
    · simp only [Field.zoneAt_record]
      split
      · exact ⟨rfl, rfl, rfl, rfl, rfl, rfl, rfl⟩
      · exact .refl _
    · have hs : (w.fld.record env h r).slotAt k = w.fld.slotAt k := by
        unfold Field.record
        simp only
        rw [if_neg (fun c => c.2 (hl c.1))]
        obtain ⟨tz, tr, he, -⟩ := Field.accountRecord_eq env h r w.fld
        rw [he]
        rfl
      simp only [hs]
  · exact ⟨.refl _, .refl _⟩

theorem Field.kept_queueReport (f : Field) (src : Source) : f.ZonesKept (f.queueReport src) ∧ f.ProgramsKept (f.queueReport src) :=
  ⟨(Field.shedOnly_queueReport f src).zones, (Field.shedOnly_queueReport f src).arbiter, (Field.shedOnly_queueReport f src).slots⟩

theorem Work.kept_put (env : Env) (h : Nat) (r : HelioRun) (w : Work) (hl : r.state = .lost → (w.fld.run h).state = .lost) :
    w.fld.ZonesKept (w.put env h r).fld ∧ w.fld.ProgramsKept (w.put env h r).fld := by
  obtain ⟨h1, h2⟩ := Work.kept_write env h r w hl
  unfold Work.put
  simp only
  split
  · obtain ⟨h3, h4⟩ := Field.kept_queueReport (w.write env h r).fld (.helio h)
    exact ⟨h1.trans h3, h2.trans h4⟩
  · exact ⟨h1, h2⟩

theorem HelioRun.given_lost (m : Motion) (c : Cause) {r : HelioRun} (h : (r.given m c).state = .lost) : r.state = .lost := by
  unfold HelioRun.given at h
  rw [HelioRun.by_state, HelioRun.nothingRemains_state, HelioRun.setOwed_state] at h
  split at h
  · exact absurd h (HelioRun.revoked_ne_lost _)
  · exact h

/-- Giving a motion keeps the zones' inputs and the programs' standing. -/
theorem Work.kept_owe (env : Env) (m : Motion) (c : Cause) (h : Nat) (w : Work) :
    w.fld.ZonesKept (w.owe env m c h).fld ∧ w.fld.ProgramsKept (w.owe env m c h).fld := by
  rw [Work.owe_eq]
  split
  · have h1 := Field.shedOnly_dropEntry (env.segmentOf h) h w.fld
    have h2 := Work.kept_put env h ((w.fld.run h).given m c) (w.dropEntry env h)
      (fun hl => (congrArg HelioRun.state (Work.run_dropEntry h w h)).trans (HelioRun.given_lost m c hl))
    have h3 := Work.shedOnly_follow h (w.fld.run h).granted false ((w.dropEntry env h).put env h ((w.fld.run h).given m c))
    exact ⟨Field.ZonesKept.trans h1.zones (Field.ZonesKept.trans h2.1 h3.zones),
      Field.ProgramsKept.trans ⟨h1.arbiter, h1.slots⟩ (Field.ProgramsKept.trans h2.2 ⟨h3.arbiter, h3.slots⟩)⟩
  · exact Work.kept_put env h _ w fun hl => HelioRun.given_lost m c hl

/-! ### The members of an order (R14) -/

/-- Is a DEFOCUS or STOW order refused for heliostat `h` that is present, and how (R14)? -/
def Field.refusedMotion (env : Env) (h : Nat) (f : Field) : Option Result := (f.run h).motionRefusal (f.passHeld env h)

/-- One member of an order that gives a motion: it is given the motion unless it is refused, and counted where that changed it. -/
def Work.oweMember (env : Env) (m : Motion) (c : Cause) (p : Work × Nat) (h : Nat) : Work × Nat :=
  if (p.1.fld.refusedMotion env h).isSome then p
  else
    (p.1.owe env m c h,
      if (p.1.fld.run h).queued || ((p.1.owe env m c h).fld.run h).owed != (p.1.fld.run h).owed then p.2 + 1 else p.2)

theorem Work.oweMembers_eq (env : Env) (m : Motion) (c : Cause) (hs : List Nat) (w : Work) :
    w.oweMembers env m c hs = hs.foldl (Work.oweMember env m c) (w, 0) := rfl

theorem Field.refusedMotion_congr {env : Env} {h : Nat} {f g : Field} (hr : g.run h = f.run h)
    (hp : ∀ k, (g.sxeAt k).passSlot = (f.sxeAt k).passSlot) : g.refusedMotion env h = f.refusedMotion env h := by
  unfold Field.refusedMotion Field.passHeld
  rw [hr, hp]

/-- The heliostats `hs` have been given the motion where it is not refused: the work was `w`, the count `n`, and they are `p`. -/
structure Work.MembersOwed (env : Env) (m : Motion) (c : Cause) (hs : List Nat) (w : Work) (n : Nat) (p : Work × Nat) : Prop where
  given : ∀ j, j ∈ hs → w.fld.refusedMotion env j = none →
    p.1.fld.run j = { (w.fld.run j).given m c with reportOwed := (p.1.fld.run j).reportOwed }
  others : ∀ j, j ∉ hs ∨ w.fld.refusedMotion env j ≠ none → p.1.fld.run j = w.fld.run j
  kept : w.fld.ZonesKept p.1.fld ∧ w.fld.ProgramsKept p.1.fld
  count : p.2 = n + (hs.filter (fun h => w.fld.refusedMotion env h = none
    ∧ ((w.fld.run h).queued = true ∨ ((w.fld.run h).given m c).owed ≠ (w.fld.run h).owed))).length

theorem Work.membersOwed_foldl (env : Env) (m : Motion) (c : Cause) {hs : List Nat} (hn : hs.Nodup)
    (hlt : ∀ h ∈ hs, h < Config.heliostats) (w : Work) (n : Nat) :
    w.MembersOwed env m c hs n (hs.foldl (Work.oweMember env m c) (w, n)) := by
  induction hs generalizing w n with
  | nil => exact ⟨fun _ hj => absurd hj List.not_mem_nil, fun _ _ => rfl, ⟨.refl _, .refl _⟩, rfl⟩
  | cons h hs ih =>
    obtain ⟨hnh, hn⟩ := List.nodup_cons.1 hn
    have hlt' : ∀ j ∈ hs, j < Config.heliostats := fun j hj => hlt j (List.mem_cons_of_mem _ hj)
    have hne : ∀ j ∈ hs, h ≠ j := fun j hj e => hnh (e ▸ hj)
    rw [List.foldl_cons]
    by_cases hr : w.fld.refusedMotion env h = none
    · have hstep : Work.oweMember env m c (w, n) h = (w.owe env m c h,
          if (w.fld.run h).queued = true ∨ ((w.fld.run h).given m c).owed ≠ (w.fld.run h).owed then n + 1 else n) := by
        unfold Work.oweMember
        simp only [hr, Option.isSome_none, Bool.false_eq_true, if_false, Bool.or_eq_true, bne_iff_ne]
        rw [Work.run_owe_same env m c (hlt h List.mem_cons_self)]
      have hsame : ∀ j, h ≠ j → (w.owe env m c h).fld.run j = w.fld.run j := fun j hj => Work.run_owe_other env m c hj w
      have href : ∀ j, h ≠ j → (w.owe env m c h).fld.refusedMotion env j = w.fld.refusedMotion env j :=
        fun j hj => Field.refusedMotion_congr (hsame j hj) (Work.passSlot_owe env m c h w)
      rw [hstep]
      have hi := ih hn hlt' (w.owe env m c h)
        (if (w.fld.run h).queued = true ∨ ((w.fld.run h).given m c).owed ≠ (w.fld.run h).owed then n + 1 else n)
      obtain ⟨hz, hp⟩ := Work.kept_owe env m c h w
      refine ⟨fun j hj hrj => ?_, fun j hj => ?_, ⟨hz.trans hi.kept.1, hp.trans hi.kept.2⟩, ?_⟩
      · rcases List.mem_cons.1 hj with rfl | hj
        · rw [hi.others j (Or.inl hnh)]; exact Work.run_owe_same env m c (hlt j List.mem_cons_self) w
        · have := hi.given j hj
          rw [href j (hne j hj), hsame j (hne j hj)] at this
          exact this hrj
      · have hj' : h ≠ j ∧ (j ∉ hs ∨ w.fld.refusedMotion env j ≠ none) := by
          rcases hj with hj | hj
          · exact ⟨fun e => hj (e ▸ List.mem_cons_self), Or.inl fun hm => hj (List.mem_cons_of_mem _ hm)⟩
          · exact ⟨fun e => hj (e ▸ hr), Or.inr hj⟩
        have := hi.others j
        rw [href j hj'.1, hsame j hj'.1] at this
        exact this hj'.2
      · rw [hi.count, List.filter_cons]
        rw [List.filter_congr (p := fun j => decide ((w.owe env m c h).fld.refusedMotion env j = none ∧ _))
          (q := fun j => decide (w.fld.refusedMotion env j = none
            ∧ ((w.fld.run j).queued = true ∨ ((w.fld.run j).given m c).owed ≠ (w.fld.run j).owed)))
          (fun j hj => by rw [href j (hne j hj), hsame j (hne j hj)])]
        by_cases hcnt : (w.fld.run h).queued = true ∨ ((w.fld.run h).given m c).owed ≠ (w.fld.run h).owed
        · rw [if_pos hcnt, if_pos (decide_eq_true ⟨hr, hcnt⟩), List.length_cons]; omega
        · rw [if_neg hcnt, if_neg (fun e => hcnt (of_decide_eq_true e).2)]
    · have hstep : Work.oweMember env m c (w, n) h = (w, n) := if_pos (Option.isSome_iff_ne_none.2 hr)
      rw [hstep]
      have hi := ih hn hlt' w n
      refine ⟨fun j hj hrj => ?_, fun j hj => hi.others j ?_, hi.kept, ?_⟩
      · rcases List.mem_cons.1 hj with rfl | hj
        · exact absurd hrj hr
        · exact hi.given j hj hrj
      · exact hj.imp (fun hj hm => hj (List.mem_cons_of_mem _ hm)) id
      · rw [hi.count, List.filter_cons, if_neg (fun e => hr (of_decide_eq_true e).1)]

/-! ### The orders (R14) -/

/-- What a DEFOCUS or STOW order that is not refused does with the heliostats it names, and what it answers. -/
def State.oweMotions (m : Motion) (hl : List Nat) (s : State) : Reply × State :=
  (⟨.done, be16 ((Work.of s.field).oweMembers s.env m .order hl).2⟩,
    (s.change (fun w => (w.oweMembers s.env m .order hl).1)).kick)

theorem State.motionOrder_cases (m : Motion) (scope : Byte) (index : Half) (s : State) : s.motionOrder m scope index =
    match s.env.scope true scope index with
    | none => (.plain .range, s)
    | some (.one h) =>
      match s.field.motionRefusal s.env h with
      | some r => (.plain r, s)
      | none => s.oweMotions m [h]
    | some (.members hs) => s.oweMotions m hs := rfl

/-- The motion has been given to the heliostats `hl` by an order, and the change has ended: the field was `f` and is `g`. -/
structure Field.MotionsGiven (env : Env) (m : Motion) (hl : List Nat) (f g : Field) : Prop where
  given : ∀ h ∈ hl, f.refusedMotion env h = none → (f.run h).GivenMotion m .order (g.run h)
  others : f.RunsKept (fun h => h ∉ hl ∨ f.refusedMotion env h ≠ none) g
  zones : f.ZonesKept g
  programs : f.ProgramsKept g

/-- A DEFOCUS or STOW order that is not refused gives the motion and counts what it changed (R14). -/
theorem State.oweMotions_spec {s : State} (hs : s.Sound) (m : Motion) {hl : List Nat} (hn : hl.Nodup)
    (hlt : ∀ h ∈ hl, h < Config.heliostats) :
    ∃ g, s.oweMotions m hl = (⟨.done, be16 (hl.filter (fun h => s.field.refusedMotion s.env h = none
        ∧ ((s.field.run h).queued = true ∨ (g.run h).owed ≠ (s.field.run h).owed))).length⟩, { s with field := g })
      ∧ s.field.MotionsGiven s.env m hl g := by
  have hm := Work.membersOwed_foldl s.env m .order hn hlt (Work.of s.field) 0
  rw [← Work.oweMembers_eq] at hm
  obtain ⟨hruns, hzones, hprogs, hqueued⟩ := State.changeKick_kept s (fun w => (w.oweMembers s.env m .order hl).1)
  have hke := State.changeKick_eq s (fun w => (w.oweMembers s.env m .order hl).1)
  have hsec : ∀ h, h ∈ hl → s.field.refusedMotion s.env h = none →
      ((((Work.of s.field).oweMembers s.env m .order hl).1.fld.run h).secured = true
        ∧ (((Work.of s.field).oweMembers s.env m .order hl).1.fld.run h).queued = false) := by
    intro h hh hr
    rw [hm.given h hh hr]
    exact ⟨HelioRun.secured_given m .order (hs.records h), HelioRun.given_queued m .order _⟩
  have hgiven : ∀ h, h ∈ hl → s.field.refusedMotion s.env h = none →
      (s.change (fun w => (w.oweMembers s.env m .order hl).1)).kick.field.run h = { (s.field.run h).given m .order with
        reportOwed := ((s.change (fun w => (w.oweMembers s.env m .order hl).1)).kick.field.run h).reportOwed
        inFlight := ((s.change (fun w => (w.oweMembers s.env m .order hl).1)).kick.field.run h).inFlight
        queued := ((s.change (fun w => (w.oweMembers s.env m .order hl).1)).kick.field.run h).queued } := by
    intro h hh hr
    have h1 := (hruns h trivial (hsec h hh hr).1).1
    rw [hm.given h hh hr] at h1
    exact h1
  refine ⟨_, Prod.ext ?_ hke, fun h hh hr => ?_, fun h hh hsc => ?_, hm.kept.1.trans hzones, hm.kept.2.trans hprogs⟩
  · refine congrArg (fun n => (⟨.done, be16 n⟩ : Reply)) ?_
    rw [hm.count, Nat.zero_add]
    refine congrArg List.length (List.filter_congr fun h hh => ?_)
    rw [decide_eq_decide]
    refine and_congr_right fun hr => ?_
    rw [hgiven h hh hr]
    rfl
  · exact HelioRun.givenMotion (hs.records h) (hgiven h hh hr) (hqueued h (hsec h hh hr).1 (hsec h hh hr).2)
  · have h1 := hruns h trivial
    rw [hm.others h hh] at h1
    exact h1 hsc

/-- A DEFOCUS or STOW order, and the kind of its answer. -/
theorem exec_motionOrder {m : Motion} {c : Instr} {kind tag scope : Byte} {index : Half}
    (hc : (m = .defocus ∧ c = .defocus tag scope index ∧ kind = 0x04#8) ∨ (m = .stow ∧ c = .stow tag scope index ∧ kind = 0x05#8))
    (s : State) : exec c s = .next (s.order c tag kind (State.motionOrder m scope index)) := by
  rcases hc with ⟨rfl, rfl, rfl⟩ | ⟨rfl, rfl, rfl⟩ <;> rfl

/-- An order that is answered with nothing else done. -/
theorem State.order_answered {s : State} {c : Instr} (hd : s.OrderDue c) (tag kind : Byte) {run : State → Reply × State} {r : Reply}
    (h : run s.popFrame = (r, s.popFrame)) : s.order c tag kind run = s.popFrame.answer tag kind r := by
  rw [State.order_due hd, h]

/-- Settles O30: each member not refused is given the motion by itself, and no end of the change takes one that has been given it. -/
theorem motionOrderOwesTheScope : Obligations.MotionOrderOwesTheScope := by
  unfold Obligations.MotionOrderOwesTheScope
  intro s tag scope index m c kind hc hd hs
  have hexec := exec_motionOrder hc s
  refine ⟨fun hr => hexec.trans (congrArg _ (State.order_answered hd tag kind ?_)), fun hl hscope => ?_⟩
  · rw [State.motionOrder_cases]
    rcases hr with h | ⟨rfl, h⟩
    · rw [Env.scope_code_refused _ true index h]
    · rw [Env.scope_group_refused _ true h]
  · have hrun : State.motionOrder m scope index s.popFrame = s.popFrame.oweMotions m hl := by
      rw [State.motionOrder_cases]
      rcases hscope with ⟨rfl, h, rfl⟩ | ⟨rfl, rfl⟩
      · rw [Env.scope_group _ true h]; rfl
      · rw [Env.scope_all]; rfl
    have hsort : hl.Pairwise (· < ·) ∧ ∀ h ∈ hl, (s.live.helioAt h).present = true := by
      rcases hscope with ⟨-, -, rfl⟩ | ⟨-, rfl⟩
      · exact ⟨Tables.members_sorted hs.canonical.2.1 _, fun h => Tables.present_of_mem_members hs.canonical.2.1⟩
      · exact ⟨Tables.present_sorted hs.canonical.2.1, fun h => (Tables.mem_present_map hs.canonical.2.1).1⟩
    obtain ⟨g, he, hg⟩ := State.oweMotions_spec (s := s.popFrame) ((State.steps_popFrame s).sound hs) m (nodup_of_sorted hsort.1)
      (fun h hh => Tables.lt_of_present hs.canonical.2.1 (hsort.2 h hh))
    obtain ⟨ha, hf⟩ := State.answeredWith_of hd tag kind _ (hrun.trans he)
    refine ⟨_, hexec, ?_⟩
    rw [hf]
    exact ⟨ha, hg.given, hg.others, hg.zones, hg.programs⟩

/-- The checks of R14 on one present heliostat, in their order. -/
theorem HelioRun.motionRefusal_none {r : HelioRun} {b : Bool} (h1 : r.state ≠ .faulted) (h2 : r.state ≠ .silent)
    (h3 : r.maint → r.holdsLoad) : r.motionRefusal b = if b then some .busy else none := by
  unfold HelioRun.motionRefusal
  rw [if_neg (not_or.2 ⟨h1, h2⟩), if_neg]
  cases hm : r.maint <;> simp_all

theorem HelioRun.motionRefusal_inhibited {r : HelioRun} {b : Bool} (h1 : r.state ≠ .faulted) (h2 : r.state ≠ .silent)
    (h3 : r.maint) (h4 : r.holdsLoad = false) : r.motionRefusal b = some .inhibited := by
  unfold HelioRun.motionRefusal
  rw [if_neg (not_or.2 ⟨h1, h2⟩), if_pos]
  rw [h3, h4]; rfl

theorem Field.passHeld_iff (env : Env) (h : Nat) (f : Field) :
    f.passHeld env h = true ↔ ∃ p, (f.sxeAt (env.segmentOf h)).passSlot = some p ∧ p.helio = h := by
  unfold Field.passHeld
  cases (f.sxeAt (env.segmentOf h)).passSlot <;> simp

/-- Settles O29: the checks of R14 in their order, and then the motion of the one heliostat. -/
theorem motionOrderOwesOneHeliostat : Obligations.MotionOrderOwesOneHeliostat := by
  unfold Obligations.MotionOrderOwesOneHeliostat
  intro s tag index m c kind hc hd hs _ h r held
  have hexec := exec_motionOrder hc s
  have hheld : s.field.passHeld s.env h = true ↔ held := Field.passHeld_iff s.env h s.field
  have hcases : State.motionOrder m 0#8 index s.popFrame = match s.field.motionRefusal s.env h with
      | some r => (.plain r, s.popFrame)
      | none => s.popFrame.oweMotions m [h] := by
    rw [State.motionOrder_cases, Env.scope_one]; rfl
  have hrefused : ∀ x, s.field.motionRefusal s.env h = some x → exec c s = .next (s.popFrame.answer tag kind (.plain x)) := by
    intro x hx
    rw [hx] at hcases
    exact hexec.trans (congrArg _ (State.order_answered hd tag kind hcases))
  have hpresent : (s.live.helioAt h).present = true → s.field.motionRefusal s.env h = s.field.refusedMotion s.env h := by
    intro hp
    unfold Field.motionRefusal
    rw [if_neg]
    · rfl
    · rw [show s.env.live = s.live from rfl, hp]; exact Bool.false_ne_true
  refine ⟨fun hp => hrefused _ ?_, fun hp hst => hrefused _ ?_, fun hp h1 h2 h3 h4 => hrefused _ ?_, fun hp h1 h2 h3 hh => hrefused _ ?_,
    fun hp h1 h2 h3 hh => ?_⟩
  · exact if_pos (by rw [show s.env.live = s.live from rfl, hp]; rfl)
  · rw [hpresent hp]; exact if_pos hst
  · rw [hpresent hp]; exact HelioRun.motionRefusal_inhibited h1 h2 h3 h4
  · rw [hpresent hp]; exact (HelioRun.motionRefusal_none h1 h2 h3).trans (if_pos (hheld.2 hh))
  · have hnone : s.field.refusedMotion s.env h = none :=
      (HelioRun.motionRefusal_none h1 h2 h3).trans (if_neg fun e => hh (hheld.1 e))
    rw [hpresent hp, hnone] at hcases
    obtain ⟨g, he, hg⟩ := State.oweMotions_spec (s := s.popFrame) ((State.steps_popFrame s).sound hs) m (List.nodup_singleton h)
      (fun j hj => Tables.lt_of_present hs.canonical.2.1 (List.mem_singleton.1 hj ▸ hp))
    obtain ⟨ha, hf⟩ := State.answeredWith_of hd tag kind _ (hcases.trans he)
    have hgiven := hg.given h (List.mem_singleton.2 rfl) hnone
    refine ⟨_, hexec, ?_⟩
    rw [hf]
    refine ⟨?_, hgiven.set, hgiven.reAim, fun hq hl => ?_, fun j hj => ?_, hg.zones, hg.programs⟩
    · have hcount : ([h].filter (fun h => s.popFrame.field.refusedMotion s.popFrame.env h = none
          ∧ ((s.popFrame.field.run h).queued = true ∨ (g.run h).owed ≠ (s.popFrame.field.run h).owed))).length
          = if r.queued = true ∨ (g.run h).owed ≠ r.owed then 1 else 0 := by
        rw [List.filter_cons, List.filter_nil]
        by_cases hcnt : r.queued = true ∨ (g.run h).owed ≠ r.owed
        · rw [if_pos hcnt, if_pos (decide_eq_true ⟨hnone, hcnt⟩)]; rfl
        · rw [if_neg hcnt, if_neg (fun e => hcnt (of_decide_eq_true e).2)]; rfl
      rw [hcount] at ha
      exact ha
    · obtain ⟨e1, e2, -, e4⟩ := hgiven.fromRest hq hl
      exact ⟨e1, e2, e4⟩
    · exact hg.others j (Or.inl fun hm => hj (List.mem_singleton.1 hm))

end Sys2Proof.Machine
end

section
/-! PROOFS: PASS and its relay (R20, R21, R83, R173). -/

namespace Sys2Proof.Machine

/-! ### The intake (R20) -/

/-- The model's checks of a PASS are those of R20. -/
theorem State.passRefusal_eq (s : State) (h : Nat) (kind : Byte) : s.passRefusal h kind = s.passJudgement h kind := by
  have hown : isOwnKind kind = true ↔ kind = 0x01#8 ∨ kind = 0x02#8 ∨ kind = 0x03#8 := by
    unfold isOwnKind
    simp only [Bool.or_eq_true, beq_iff_eq, or_assoc]
  unfold State.passRefusal State.passJudgement
  simp only [hown, HelioRun.holdsLoad, Bool.or_eq_true, Bool.not_eq_true', or_assoc]
  rfl

theorem Tables.segment_lt {t : Tables} (ht : t.InRange) {h : Nat} (hp : (t.helioAt h).present = true) :
    (t.helioAt h).segment < Config.segments := by
  have hr := ht.helio h
  simp only [HelioConfig.inRange, hp, Bool.not_true, Bool.false_or, Bool.and_eq_true, decide_eq_true_eq] at hr
  exact Nat.lt_succ_of_le hr.1.1.1.1.1.1.1.1

theorem Ulp.deferredAt_setDeferred (u : Ulp) {g : Nat} (hg : g < Config.segments) (v : Deferred) (k : Nat) :
    (u.setDeferred g v).deferredAt k = if k = g then v else u.deferredAt k := by
  have h := Table.get_set Config.segments Deferred.empty u.deferred g k v
  by_cases e : g = k
  · rw [if_pos ⟨e, hg⟩] at h
    rw [if_pos e.symm]
    exact h
  · rw [if_neg fun c => e c.1] at h
    rw [if_neg fun c => e c.symm]
    exact h

/-- The part of a passed check of R20 that a held PASS turns on: its heliostat is present and not queued. -/
theorem State.passJudgement_none {s : State} {h : Nat} {kind : Byte} (hn : s.passJudgement h kind = none) :
    (s.live.helioAt h).present = true ∧ (s.field.run h).queued = false := by
  unfold State.passJudgement at hn
  simp only at hn
  split at hn
  · cases hn
  · next hp =>
    refine ⟨by simpa using hp, ?_⟩
    iterate 3
      split at hn
      · cases hn
    split at hn
    · cases hn
    · next hq => simp only [not_or, Bool.not_eq_true] at hq; exact hq.1

/-- A PASS held: the SXE of its segment holds it, its heliostat is in flight, and the field is otherwise as it was (R20, R21). -/
theorem State.holdPass_field {s : State} {tag : Byte} {h : Nat} {body : List Byte} (hh : h < Config.heliostats)
    (hg : s.env.segmentOf h < Config.segments) :
    let f := (s.holdPass tag h body).field
    f.run h = { s.field.run h with inFlight := true } ∧ (∀ j, j ≠ h → f.run j = s.field.run j)
      ∧ (∀ k, f.sxeAt k = { s.field.sxeAt k with
          passSlot := if k = s.env.segmentOf h then some ⟨h, tag, body⟩ else (s.field.sxeAt k).passSlot })
      ∧ f = { s.field with helio := f.helio, sxe := f.sxe } := by
  refine ⟨?_, fun j hj => ?_, fun k => ?_, rfl⟩
  · exact (Field.run_setRun _ _ _ _).trans (if_pos ⟨rfl, hh⟩)
  · exact (Field.run_setRun _ _ _ _).trans (if_neg fun c => hj c.1.symm)
  · have h1 : (s.holdPass tag h body).field.sxeAt k = if s.env.segmentOf h = k ∧ s.env.segmentOf h < Config.segments then
        { s.field.sxeAt (s.env.segmentOf h) with passSlot := some ⟨h, tag, body⟩ } else s.field.sxeAt k :=
      Field.sxeAt_setSxe s.field (s.env.segmentOf h) k _
    rw [h1]
    by_cases e : s.env.segmentOf h = k
    · subst e
      rw [if_pos ⟨rfl, hg⟩, if_pos rfl]
    · rw [if_neg (fun c => e c.1), if_neg (fun c => e c.symm)]

/-! ### The relay (R21, R83) -/

/-- The field with the relay of a PASS ended, before the SXE's next choice (R21). -/
def Field.passEnded (g h now : Nat) (f : Field) : Field :=
  let f1 := f.setSxe g { (f.sxeAt g).ended now with passSlot := none }
  f1.setRun h { f1.run h with inFlight := false }

theorem State.endPass_eq {g : Nat} {x : Exchange} {p : PassReq} (reply : Option SegFrame) {s : State}
    (hp : (s.field.sxeAt g).passSlot = some p) : s.endPass g x reply =
      State.kick { s with
        field := (s.field.passEnded g x.helio s.now).choose s.env true g
        ulp := { s.ulp.setDeferred g (.ready (passAnswer p reply)) with readyOrder := s.ulp.readyOrder ++ [g] } } := by
  unfold State.endPass
  simp only [hp]
  rfl

theorem Field.lt_of_inFlight {f : Field} (hc : f.Canonical) {h : Nat} (hi : (f.run h).inFlight = true) : h < Config.heliostats := by
  by_contra hn
  rw [Field.run, Table.get_outside hc.1 hn] at hi
  cases hi

theorem Field.passEnded_spec {f : Field} {g h now : Nat} (hg : g < Config.segments) (hh : h < Config.heliostats) :
    (∀ j, (f.passEnded g h now).run j = { f.run j with inFlight := (f.run j).inFlight && j != h })
      ∧ (∀ k, (f.passEnded g h now).sxeAt k =
        if k = g then { f.sxeAt k with exchange := none, passSlot := none, lastEnd := some now } else f.sxeAt k)
      ∧ f.passEnded g h now = { f with helio := (f.passEnded g h now).helio, sxe := (f.passEnded g h now).sxe } := by
  refine ⟨fun j => ?_, fun k => ?_, rfl⟩
  · have h1 : (f.passEnded g h now).run j = if h = j ∧ h < Config.heliostats then { f.run h with inFlight := false } else f.run j :=
      Field.run_setRun _ _ _ _
    rw [h1]
    by_cases e : h = j
    · subst e
      rw [if_pos ⟨rfl, hh⟩]
      simp
    · rw [if_neg fun c => e c.1, bne_iff_ne.2 fun c => e c.symm, Bool.and_true]
  · have h1 : (f.passEnded g h now).sxeAt k = if g = k ∧ g < Config.segments then { (f.sxeAt g).ended now with passSlot := none }
        else f.sxeAt k := Field.sxeAt_setSxe _ _ _ _
    rw [h1]
    by_cases e : g = k
    · subst e
      rw [if_pos ⟨rfl, hg⟩, if_pos rfl]
      rfl
    · rw [if_neg fun c => e c.1, if_neg fun c => e c.symm]

/-- The end of a PASS's relay (R21, R83, R173): what O33 says of it, for either end. -/
theorem State.endPass_spec {s : State} {g : Fin 4} {x : Exchange} {p : PassReq} (reply : Option SegFrame) (hs : s.Sound)
    (hl : s.field.LinesExact s.env) (hx : (s.field.sxeAt g).exchange = some x) (hk : x.kind = .pass)
    (hp : (s.field.sxeAt g).passSlot = some p) :
    let t := s.endPass g x reply
    t = { s with
        ulp := { s.ulp with deferred := t.ulp.deferred, readyOrder := s.ulp.readyOrder ++ [g.val] }
        field := { s.field with helio := t.field.helio, sxe := t.field.sxe } }
      ∧ (∀ k, t.ulp.deferredAt k = if k = g then .ready (passAnswer p reply) else s.ulp.deferredAt k)
      ∧ (t.field.sxeAt g).passSlot = none ∧ (t.field.sxeAt g).lastEnd = some s.now
      ∧ (∀ j, t.field.run j = { s.field.run j with inFlight := (t.field.run j).inFlight, queued := (t.field.run j).queued })
      ∧ (t.field.run x.helio).queued = (s.field.run x.helio).queued
      ∧ ∃ f : Field, (∀ j, f.run j = { s.field.run j with inFlight := (s.field.run j).inFlight && j != x.helio })
        ∧ (∀ k, f.sxeAt k =
          if k = g then { s.field.sxeAt k with exchange := none, passSlot := none, lastEnd := some s.now } else s.field.sxeAt k)
        ∧ f = { s.field with helio := f.helio, sxe := f.sxe }
        ∧ t.field = (State.kick { s with field := f.choose s.env true g }).field := by
  intro t
  have ht : t = _ := State.endPass_eq reply hp
  have hg : g.val < Config.segments := g.isLt
  obtain ⟨q, hq, hqx⟩ := (hl.relayed g x hx).1 hk
  obtain rfl : q = p := Option.some.inj (hq.symm.trans hp)
  obtain ⟨hrun, hsxe, hrest⟩ := Field.passEnded_spec (f := s.field) (now := s.now) hg
    (Field.lt_of_inFlight hs.canonical.1 (hl.exchange g x hx).2)
  have hfield : t.field = (State.kick { s with field := (s.field.passEnded g x.helio s.now).choose s.env true g }).field := by
    rw [ht]; rfl
  have hc : (s.field.passEnded g x.helio s.now).ChoiceOnly t.field := by
    rw [hfield]
    exact (Field.choiceOnly_choose s.env true _ g.val).trans
      (State.choiceOnly_kick { s with field := (s.field.passEnded g x.helio s.now).choose s.env true g })
  have hulp : t.ulp = { s.ulp.setDeferred g (.ready (passAnswer q reply)) with readyOrder := s.ulp.readyOrder ++ [g.val] } := by
    rw [ht]; rfl
  have hqueued : (s.field.run x.helio).queued = false := hqx ▸ hl.unqueued g q hp
  refine ⟨?_, fun k => ?_, ?_, ?_, fun j => ?_, ?_, s.field.passEnded g x.helio s.now, hrun, hsxe, hrest, hfield⟩
  · have hfe : t.field = { s.field with helio := t.field.helio, sxe := t.field.sxe } := by
      rw [hc.others, hrest]
    rw [← hfe]
    have hue : t.ulp = { s.ulp with deferred := t.ulp.deferred, readyOrder := s.ulp.readyOrder ++ [g.val] } := by
      rw [hulp]; rfl
    rw [← hue]
    rw [ht]
    rfl
  · rw [hulp]
    exact Ulp.deferredAt_setDeferred s.ulp hg _ k
  · rw [hc.passSlot, hsxe, if_pos rfl]
  · rw [hc.lastEnd, hsxe, if_pos rfl]
  · have h1 := hc.run_eq j
    rw [hrun j] at h1
    exact h1
  · rw [hqueued]
    refine hc.not_queued ?_
    rw [hrun]
    exact hqueued

theorem exec_driveAnswer_pass {s : State} {g : Fin 4} {x : Exchange} {since : Nat} {frame : List Byte} {fr : SegFrame}
    (hr : s.phase = .running) (hx : (s.field.sxeAt g).exchange = some x) (hw : x.phase = .awaiting since) (hk : x.kind = .pass)
    (hf : readSegFrame frame = some fr) (hc : fr.checkOk = true) (ha : fr.address = x.address) :
    exec (.driveAnswer g frame) s = .next (s.endPass g x (some fr)) := by
  have hrun : s.isRunning = true := beq_iff_eq.2 hr
  have hwait : x.awaiting.isSome = true := by unfold Exchange.awaiting; rw [hw]; rfl
  have htake : s.takeAnswer g x fr = s.endPass g x (some fr) := by
    unfold State.takeAnswer
    rw [if_pos hk, if_pos (by rw [hc, ha]; exact beq_self_eq_true _)]
  show execDriveAnswer g frame s = _
  unfold execDriveAnswer
  simp only [hrun, hx, hf, hwait, if_true, htake]

theorem exec_driveResponseTimeout_pass {s : State} {g : Fin 4} {x : Exchange} {since : Nat}
    (hr : s.phase = .running) (hx : (s.field.sxeAt g).exchange = some x) (hw : x.phase = .awaiting since) (hk : x.kind = .pass) :
    exec (.driveResponseTimeout g) s = .next ((s.advanceTo (since + 4)).endPass g x none) := by
  have hrun : s.isRunning = true := beq_iff_eq.2 hr
  have hwait : x.awaiting = some since := by unfold Exchange.awaiting; rw [hw]
  show execDriveResponseTimeout g s = _
  unfold execDriveResponseTimeout
  simp only [hrun, hx, hwait, hk, if_true]
  rfl

/-- A due PASS that the checks pass is held, and the SXEs choose (R20, R21, R60). -/
theorem exec_pass_held {s : State} {tag : Byte} {helio : Half} {body : List Byte} (hd : s.OrderDue (.pass tag helio body))
    (hn : s.passJudgement helio.toNat (body.headD 0#8) = none) :
    exec (.pass tag helio body) s = .next (s.popFrame.holdPass tag helio.toNat body).kick := by
  have hn' : s.popFrame.passRefusal helio.toNat (body.headD 0#8) = none := (State.passRefusal_eq s.popFrame _ _).trans hn
  show execPass tag helio body s = _
  unfold execPass
  simp only [(State.takes_iff s _).2 hd, if_true, hn']

theorem exec_pass_refused {s : State} {tag : Byte} {helio : Half} {body : List Byte} {r : Reply}
    (hd : s.OrderDue (.pass tag helio body)) (hn : s.passJudgement helio.toNat (body.headD 0#8) = some r) :
    exec (.pass tag helio body) s = .next (s.popFrame.answer tag 0x0A#8 r) := by
  have hn' : s.popFrame.passRefusal helio.toNat (body.headD 0#8) = some r := (State.passRefusal_eq s.popFrame _ _).trans hn
  show execPass tag helio body s = _
  unfold execPass
  simp only [(State.takes_iff s _).2 hd, if_true, hn']

/-- Settles O33: the checks of R20, the hold, and one end of the relay for both of its events. -/
theorem passHeldThenRelayed : Obligations.PassHeldThenRelayed := by
  unfold Obligations.PassHeldThenRelayed
  constructor
  · intro s tag helio body hd hs hlive
    refine ⟨fun r hr => exec_pass_refused hd hr, fun hn => ⟨_, exec_pass_held hd hn, ?_⟩⟩
    obtain ⟨hp, hq⟩ := State.passJudgement_none hn
    have hg : s.popFrame.env.segmentOf helio.toNat < Config.segments := Tables.segment_lt hlive hp
    obtain ⟨hrun, hothers, hsxe, hrest⟩ := State.holdPass_field (s := s.popFrame) (tag := tag) (body := body)
      (Tables.lt_of_present hs.canonical.2.1 hp) hg
    have hc := State.choiceOnly_kick (s.popFrame.holdPass tag helio.toNat body)
    have hke := State.kick_eq (s.popFrame.holdPass tag helio.toNat body)
    generalize (s.popFrame.holdPass tag helio.toNat body).kick = t at hc hke ⊢
    have hdef : t.ulp.deferred = (s.ulp.setDeferred (s.live.helioAt helio.toNat).segment (.held tag)).deferred := by rw [hke]; rfl
    refine ⟨?_, fun k => ?_, fun k => ?_, ?_, fun j hj => ?_, ?_, _, hc, hrun, hothers, hsxe⟩
    · rw [hdef, hke]
      rfl
    · rw [Ulp.deferredAt, hdef]
      exact Ulp.deferredAt_setDeferred s.ulp hg _ k
    · rw [hc.passSlot, hsxe]
      rfl
    · rcases hc.runs helio.toNat with e | ⟨e, he⟩
      · rw [e, hrun]; rfl
      · have hq' : (t.field.run helio.toNat).queued = false := hc.not_queued (by rw [hrun]; exact hq)
        rw [hrun, hq', ← hq] at e
        exact e
    · rw [hc.run_eq j, hothers j hj]
      rfl
    · rw [hc.others, hrest]
      rfl
  · intro s g x p since hr hx hw hk hp hs hl
    refine ⟨fun frame fr hf hc ha => ⟨_, exec_driveAnswer_pass hr hx hw hk hf hc ha, ?_⟩,
      ⟨_, exec_driveResponseTimeout_pass hr hx hw hk, ?_⟩⟩
    · exact State.endPass_spec (some fr) hs hl hx hk hp
    · exact State.endPass_spec (s := s.advanceTo (since + 4)) none ((State.steps_advanceTo s _).sound hs) ⟨hl.exchange, hl.pass,
        hl.relayed, hl.inFlight, hl.entry, hl.once, hl.queued, hl.polled, hl.unqueued⟩ hx hk hp

end Sys2Proof.Machine
end

section
/-! PROOFS for the segment lines (R20, R21, R56, R58): the facts of one field together, and the two kinds of change that keep them: one
that the lines do not see, and one of a single heliostat with its Move Queue entry. -/

namespace Sys2Proof.Machine

/-- What holds of the segment lines from a reset on: the live tables are canonical, the records are as R6 says, the lines agree with
them (R21, R58, R83), a record is present exactly where its state is not ABSENT (R1), and, where `T` is given, the field is tidy. -/
structure Field.Linked (T : Prop) (env : Env) (f : Field) : Prop where
  tables : env.live.Canonical
  records : f.RecordsSound
  lines : f.LinesExact env
  present : ∀ h, (env.live.helioAt h).present = true ↔ (f.run h).state ≠ .absent
  idle : ∀ h, (f.run h).state = .absent → (f.run h).inFlight = false ∧ (f.run h).owed = none
  tidy : T → f.Tidy

/-- What every step keeps of the segment lines, with what the steps need to keep it: each present heliostat has a segment. -/
structure Field.Lined (T : Prop) (env : Env) (f : Field) : Prop extends f.Linked T env where
  placed : ∀ h, (env.live.helioAt h).present = true → env.segmentOf h < Config.segments

variable {T : Prop} {env : Env} {f g : Field}

/-- The facts speak of the live tables and of nothing else around the field. -/
theorem Field.Linked.congr {env' : Env} (hf : f.Linked T env) (he : env'.live = env.live) : f.Linked T env' := by
  have hseg : env'.segmentOf = env.segmentOf := by unfold Env.segmentOf; rw [he]
  obtain ⟨htab, hrec, hlines, hpres, hidle, htidy⟩ := hf
  refine ⟨he ▸ htab, hrec, ?_, he ▸ hpres, hidle, htidy⟩
  obtain ⟨h1, h2, h3, h4, h5, h6, h7, h8, h9⟩ := hlines
  exact ⟨hseg ▸ h1, hseg ▸ h2, h3, hseg ▸ h4, hseg ▸ h5, h6, hseg ▸ h7, h8, h9⟩

theorem Field.Lined.congr {env' : Env} (hf : f.Lined T env) (he : env'.live = env.live) : f.Lined T env' := by
  have hseg : env'.segmentOf = env.segmentOf := by unfold Env.segmentOf; rw [he]
  exact ⟨hf.toLinked.congr he, he ▸ hseg ▸ hf.placed⟩

theorem Field.Linked.lt_of_state (hf : f.Linked T env) {h : Nat} (hs : (f.run h).state ≠ .absent) : h < Config.heliostats :=
  Tables.lt_of_present hf.tables ((hf.present h).2 hs)

theorem Field.Lined.placed_of_state (hf : f.Lined T env) {h : Nat} (hs : (f.run h).state ≠ .absent) :
    h < Config.heliostats ∧ env.segmentOf h < Config.segments := ⟨hf.lt_of_state hs, hf.placed h ((hf.present h).2 hs)⟩

theorem Field.Linked.slewing_of_queued (hf : f.Linked T env) {h : Nat} (hq : (f.run h).queued = true) : (f.run h).state = .slewing := by
  obtain ⟨-, -, -, -, -, -, -, hqueued⟩ := hf.records h
  exact (hqueued hq).1

theorem Field.Linked.state_of_queued (hf : f.Linked T env) {h : Nat} (hq : (f.run h).queued = true) : (f.run h).state ≠ .absent := by
  rw [hf.slewing_of_queued hq]
  decide

theorem Field.Linked.state_of_inFlight (hf : f.Linked T env) {h : Nat} (hi : (f.run h).inFlight = true) : (f.run h).state ≠ .absent := by
  intro hs
  rw [(hf.idle h hs).1] at hi
  cases hi

/-! ### Changes that the lines do not see -/

/-- Two records that differ in nothing but the report-owed flag, INHIBIT and MAINT. -/
def HelioRun.Alike (r r' : HelioRun) : Prop := ∃ a b c, r' = { r with reportOwed := a, inhibit := b, maint := c }

/-- Two SXEs that differ in nothing but the freed mark and the time of the last end. -/
def Sxe.Alike (x x' : Sxe) : Prop := ∃ u v, x' = { x with spaceFreed := u, lastEnd := v }

theorem HelioRun.Alike.refl (r : HelioRun) : r.Alike r := ⟨_, _, _, rfl⟩

theorem Sxe.Alike.refl (x : Sxe) : x.Alike x := ⟨_, _, rfl⟩

theorem HelioRun.Alike.trans {r r' r'' : HelioRun} (h1 : r.Alike r') (h2 : r'.Alike r'') : r.Alike r'' := by
  obtain ⟨a, b, c, rfl⟩ := h1
  obtain ⟨a', b', c', rfl⟩ := h2
  exact ⟨a', b', c', rfl⟩

theorem Sxe.Alike.trans {x x' x'' : Sxe} (h1 : x.Alike x') (h2 : x'.Alike x'') : x.Alike x'' := by
  obtain ⟨u, v, rfl⟩ := h1
  obtain ⟨u', v', rfl⟩ := h2
  exact ⟨u', v', rfl⟩

theorem HelioRun.Sound.alike {r r' : HelioRun} (hr : r.Sound) (h : r.Alike r') : r'.Sound := by
  obtain ⟨a, b, c, rfl⟩ := h
  exact hr.other rfl rfl rfl rfl rfl rfl rfl rfl rfl rfl

theorem HelioRun.Tidy.alike {r r' : HelioRun} (hr : r.Tidy) (h : r.Alike r') : r'.Tidy := by
  obtain ⟨a, b, c, rfl⟩ := h
  obtain ⟨h1, h2, h3, h4, h5, h6, h7, h8⟩ := hr
  exact ⟨h1, h2, h3, h4, h5, h6, h7, h8⟩

/-- A change that the segment lines do not see. -/
structure Field.Quiet (f g : Field) : Prop where
  runs : ∀ h, (f.run h).Alike (g.run h)
  sxes : ∀ k, (f.sxeAt k).Alike (g.sxeAt k)

theorem Field.Quiet.refl (f : Field) : f.Quiet f := ⟨fun _ => .refl _, fun _ => .refl _⟩

theorem Field.Quiet.trans {f g k : Field} (h1 : f.Quiet g) (h2 : g.Quiet k) : f.Quiet k :=
  ⟨fun h => (h1.runs h).trans (h2.runs h), fun s => (h1.sxes s).trans (h2.sxes s)⟩

/-- A change of anything but the heliostats and the SXEs. -/
theorem Field.Quiet.of_eq (hh : g.helio = f.helio) (hs : g.sxe = f.sxe) : f.Quiet g := by
  constructor
  · intro h
    rw [show g.run h = f.run h by unfold Field.run; rw [hh]]
    exact .refl _
  · intro k
    rw [show g.sxeAt k = f.sxeAt k by unfold Field.sxeAt; rw [hs]]
    exact .refl _

theorem Field.Quiet.foldl {β : Type} (op : Field → β → Field) (hop : ∀ (f : Field) (b : β), f.Quiet (op f b)) (l : List β) (f : Field) :
    f.Quiet (l.foldl op f) := by
  induction l generalizing f with
  | nil => exact .refl f
  | cons b l ih => exact (hop f b).trans (ih _)

theorem Work.quiet_foldl {β : Type} (op : Work → β → Work) (hop : ∀ (w : Work) (b : β), w.fld.Quiet (op w b).fld) (l : List β) (w : Work) :
    w.fld.Quiet (l.foldl op w).fld := by
  induction l generalizing w with
  | nil => exact .refl _
  | cons b l ih => exact (hop w b).trans (ih _)

/-- What the lines do not see keeps every fact about them. -/
theorem Field.Linked.quiet (hf : f.Linked T env) (hq : f.Quiet g) : g.Linked T env := by
  choose a b c hrun using hq.runs
  choose u v hsxe using hq.sxes
  obtain ⟨htab, hrec, ⟨h1, h2, h3, h4, h5, h6, h7, h8, h9⟩, hpres, hidle, htidy⟩ := hf
  refine ⟨htab, fun h => (hrec h).alike (hq.runs h), ?_, ?_, ?_, fun hT => ⟨fun h => ((htidy hT).records h).alike (hq.runs h), ?_, ?_⟩⟩
  · constructor <;> simp only [hrun, hsxe] <;> assumption
  · simpa only [hrun] using hpres
  · simpa only [hrun] using hidle
  · simpa only [hsxe] using (htidy hT).pointers
  · simpa only [hrun, hsxe] using (htidy hT).served

theorem Field.Lined.quiet (hf : f.Lined T env) (hq : f.Quiet g) : g.Lined T env := ⟨hf.toLinked.quiet hq, hf.placed⟩

/-! ### A change of one heliostat and its Move Queue entry -/

/-- What a changed record keeps of the one it replaces, so that the lines agree with it too. -/
structure HelioRun.Moves (r r' : HelioRun) : Prop where
  inFlight : r'.inFlight = r.inFlight
  before : r.state ≠ .absent
  after : r'.state ≠ .absent
  sound : r'.Sound
  tidy : r.Tidy → r'.Tidy
  served : r.inFlight = true → r.queued = false → ∀ dest, r.CanReturn dest → r'.CanReturn dest

/-- A Move Queue that follows the record of heliostat `h` from `r` to `r'` (R58). -/
structure QueueFollows (h : Nat) (r r' : HelioRun) (q q' : List Entry) : Prop where
  others : ∀ e, e.helio ≠ h → (e ∈ q' ↔ e ∈ q)
  own : ∀ e ∈ q', e.helio = h → r'.queued = true ∧ r'.granted = some e.aim
  once : (q.map Entry.helio).Nodup → (q'.map Entry.helio).Nodup
  queued : r'.queued = true → ∃ e ∈ q', e.helio = h
  polled : r'.queued = true → r.queued = true ∨ r.inFlight = false

/-- One heliostat and its segment's Move Queue have changed, and beside them only what the lines do not see. -/
structure Field.Moved (env : Env) (h : Nat) (f g : Field) : Prop where
  others : ∀ j, j ≠ h → (f.run j).Alike (g.run j)
  sxes : ∀ k, ∃ q, ({ f.sxeAt k with queue := q } : Sxe).Alike (g.sxeAt k) ∧ (k ≠ env.segmentOf h → q = (f.sxeAt k).queue)
  run : (f.run h).Moves (g.run h)
  queue : QueueFollows h (f.run h) (g.run h) (f.sxeAt (env.segmentOf h)).queue (g.sxeAt (env.segmentOf h)).queue

/-- The record keeps its place in the queue, or its absence from it. -/
theorem QueueFollows.stays {h : Nat} {r r' : HelioRun} {q : List Entry}
    (hown : ∀ e ∈ q, e.helio = h → r.queued = true ∧ r.granted = some e.aim) (hin : r.queued = true → ∃ e ∈ q, e.helio = h)
    (hq : r'.queued = r.queued) (hg : r.queued = true → r'.granted = r.granted) : QueueFollows h r r' q q where
  others _ _ := Iff.rfl
  own e he hh := by
    obtain ⟨h1, h2⟩ := hown e he hh
    exact ⟨hq.trans h1, (hg h1).trans h2⟩
  once := id
  queued h1 := hin (hq ▸ h1)
  polled h1 := Or.inl (hq ▸ h1)

/-- The record's entry leaves the queue. -/
theorem QueueFollows.leaves {h : Nat} {r r' : HelioRun} {q : List Entry} (hq : r'.queued = false) :
    QueueFollows h r r' q (q.filter (fun e => e.helio != h)) where
  others e he := by simp [he]
  own e he hh := by simp [hh] at he
  once hn := hn.sublist (List.filter_sublist.map _)
  queued h1 := by simp [hq] at h1
  polled h1 := by simp [hq] at h1

/-- An entry for the record's grant joins the tail. -/
theorem QueueFollows.joins {h a : Nat} {o : Origin} {r r' : HelioRun} {q : List Entry} (hno : ∀ e ∈ q, e.helio ≠ h)
    (hi : r.inFlight = false) (hq : r'.queued = true) (hg : r'.granted = some a) : QueueFollows h r r' q (q ++ [⟨h, a, o⟩]) where
  others e he := by
    simp only [List.mem_append, List.mem_singleton]
    exact or_iff_left fun h1 => he (by rw [h1])
  own e he hh := by
    rcases List.mem_append.1 he with h1 | h1
    · exact absurd hh (hno e h1)
    · rw [List.mem_singleton.1 h1]
      exact ⟨hq, hg⟩
  once hn := by
    rw [List.map_append]
    refine List.nodup_append.2 ⟨hn, by simp, ?_⟩
    intro x hx y hy
    obtain ⟨e, he, rfl⟩ := List.mem_map.1 hx
    rw [List.map_singleton, List.mem_singleton] at hy
    exact hy ▸ hno e he
  queued _ := ⟨⟨h, a, o⟩, by simp, rfl⟩
  polled _ := Or.inr hi

/-- A heliostat that is not queued has no entry. -/
theorem Field.LinesExact.no_entry (hf : f.LinesExact env) {k h : Nat} (hq : (f.run h).queued = false) :
    ∀ e ∈ (f.sxeAt k).queue, e.helio ≠ h := by
  intro e he hh
  have := (hf.entry k e he).2.1
  rw [hh, hq] at this
  cases this

/-- The facts about the lines after a change of one heliostat and its Move Queue entry. -/
theorem Field.Moved.lines {h : Nat} (hf : f.LinesExact env) (hm : f.Moved env h g) : g.LinesExact env := by
  choose q hsxe hqueue using hm.sxes
  choose u v hsxe using hsxe
  have hin : ∀ j, (g.run j).inFlight = (f.run j).inFlight := by
    intro j
    by_cases hj : j = h
    · rw [hj, hm.run.inFlight]
    · obtain ⟨a, b, c, e⟩ := hm.others j hj
      rw [e]
  have hqueued : ∀ j, j ≠ h → (g.run j).queued = (f.run j).queued ∧ (g.run j).granted = (f.run j).granted := by
    intro j hj
    obtain ⟨a, b, c, e⟩ := hm.others j hj
    rw [e]
    exact ⟨rfl, rfl⟩
  have hqueue' : ∀ k, k ≠ env.segmentOf h → (g.sxeAt k).queue = (f.sxeAt k).queue := by
    intro k hk
    rw [hsxe]
    exact hqueue k hk
  obtain ⟨h1, h2, h3, h4, h5, h6, h7, h8, h9⟩ := hf
  obtain ⟨q1, q2, q3, q4, q5⟩ := hm.queue
  constructor
  · simpa only [hsxe, hin] using h1
  · simpa only [hsxe, hin] using h2
  · simpa only [hsxe] using h3
  · simpa only [hsxe, hin] using h4
  · intro k e he
    by_cases hk : k = env.segmentOf h
    · subst hk
      by_cases hh : e.helio = h
      · rw [hh]
        exact ⟨rfl, q2 e he hh⟩
      · rw [(hqueued _ hh).1, (hqueued _ hh).2]
        exact h5 _ e ((q1 e hh).1 he)
    · rw [hqueue' k hk] at he
      have he' := h5 k e he
      have hh : e.helio ≠ h := fun hh => hk (by rw [← he'.1, hh])
      rw [(hqueued _ hh).1, (hqueued _ hh).2]
      exact he'
  · intro k
    by_cases hk : k = env.segmentOf h
    · subst hk
      exact q3 (h6 _)
    · rw [hqueue' k hk]
      exact h6 k
  · intro j hj
    by_cases hh : j = h
    · subst hh
      exact q4 hj
    · obtain ⟨e, he, hej⟩ := h7 j ((hqueued j hh).1 ▸ hj)
      refine ⟨e, ?_, hej⟩
      by_cases hk : env.segmentOf j = env.segmentOf h
      · rw [hk] at he ⊢
        exact (q1 e (hej ▸ hh)).2 he
      · rw [hqueue' _ hk]
        exact he
  · intro k x hx hj
    have hx' : (f.sxeAt k).exchange = some x := by simpa only [hsxe] using hx
    by_cases hh : x.helio = h
    · rw [hh] at hj
      rcases q5 hj with hq | hi
      · exact h8 k x hx' (hh ▸ hq)
      · have := (h1 k x hx').2
        rw [hh, hi] at this
        cases this
    · exact h8 k x hx' ((hqueued _ hh).1 ▸ hj)
  · intro k p hp
    have hp' : (f.sxeAt k).passSlot = some p := by simpa only [hsxe] using hp
    by_cases hh : p.helio = h
    · rw [hh]
      by_contra hj
      rcases q5 (by simpa using hj) with hq | hi
      · have := h9 k p hp'
        rw [hh, hq] at this
        cases this
      · have := (h2 k p hp').2
        rw [hh, hi] at this
        cases this
    · rw [(hqueued _ hh).1]
      exact h9 k p hp'

/-- Every fact after a change of one heliostat and its Move Queue entry. -/
theorem Field.Linked.moved {h : Nat} (hf : f.Linked T env) (hm : f.Moved env h g) : g.Linked T env := by
  have hlines := hm.lines hf.lines
  choose q hsxe hqueue using hm.sxes
  choose u v hsxe using hsxe
  obtain ⟨htab, hrec, hl, hpres, hidle, htidy⟩ := hf
  obtain ⟨hin, hbefore, hafter, hsound, hrtidy, hserved⟩ := hm.run
  refine ⟨htab, ?_, hlines, ?_, ?_, fun hT => ⟨?_, ?_, ?_⟩⟩
  · intro j
    by_cases hj : j = h
    · exact hj ▸ hsound
    · exact (hrec j).alike (hm.others j hj)
  · intro j
    by_cases hj : j = h
    · rw [hpres, hj]
      exact iff_of_true hbefore hafter
    · obtain ⟨a, b, c, e⟩ := hm.others j hj
      rw [e]
      exact hpres j
  · intro j hs
    by_cases hj : j = h
    · exact absurd (hj ▸ hs) hafter
    · obtain ⟨a, b, c, e⟩ := hm.others j hj
      rw [e] at hs ⊢
      exact hidle j hs
  · intro j
    by_cases hj : j = h
    · rw [hj]
      exact hrtidy ((htidy hT).records h)
    · exact ((htidy hT).records j).alike (hm.others j hj)
  · simpa only [hsxe] using (htidy hT).pointers
  · intro k x dest cause hx hk
    have hx' : (f.sxeAt k).exchange = some x := by simpa only [hsxe] using hx
    have hs := (htidy hT).served k x dest cause hx' hk
    by_cases hh : x.helio = h
    · have hq : (f.run h).queued = false := by
        by_contra hq
        have := hl.polled k x hx' (by rw [hh]; simpa using hq)
        rw [hk] at this
        cases this
      have hi := (hl.exchange k x hx').2
      rw [hh] at hs hi ⊢
      exact hserved hi hq dest hs
    · obtain ⟨a, b, c, e⟩ := hm.others _ hh
      rw [e]
      exact hs

theorem Field.Lined.moved {h : Nat} (hf : f.Lined T env) (hm : f.Moved env h g) : g.Lined T env := ⟨hf.toLinked.moved hm, hf.placed⟩

end Sys2Proof.Machine
end

section
/-! PROOFS for the segment lines: the operations that the lines do not see, and the beginning of an exchange (R56, R60). -/

namespace Sys2Proof.Machine

/-! ### The operations that the lines do not see -/

theorem Field.quiet_setSlot (f : Field) (k : Nat) (v : Slot) : f.Quiet (f.setSlot k v) := .of_eq rfl rfl

theorem Field.quiet_setReportOwed (f : Field) (src : Source) (b : Bool) : f.Quiet (f.setReportOwed src b) := by
  refine ⟨fun h => ?_, fun k => ?_⟩
  · cases src with
    | helio j =>
      rw [show f.setReportOwed (.helio j) b = f.setRun j { f.run j with reportOwed := b } from rfl, Field.run_setRun]
      split
      · next hj => exact hj.1 ▸ ⟨b, _, _, rfl⟩
      · exact .refl _
    | _ => exact .refl _
  · rw [show (f.setReportOwed src b).sxeAt k = f.sxeAt k by unfold Field.sxeAt; rw [Field.setReportOwed_sxe]]
    exact .refl _

theorem Field.quiet_queueReport (f : Field) (src : Source) : f.Quiet (f.queueReport src) := by
  unfold Field.queueReport
  split
  · exact .refl f
  · split
    · exact .refl f
    · split
      · exact .of_eq rfl rfl
      · exact f.quiet_setReportOwed src true

/-- A change of anything but the heliostats and the SXEs, with its report. -/
theorem Field.Quiet.reported {f g : Field} (hh : g.helio = f.helio) (hs : g.sxe = f.sxe) (src : Source) :
    f.Quiet (g.queueReport src) := (Field.Quiet.of_eq hh hs).trans (g.quiet_queueReport src)

theorem Work.quiet_report (src : Source) (w : Work) : w.fld.Quiet (w.report src).fld := w.fld.quiet_queueReport src

theorem Work.quiet_mark (z : Nat) (v : ZoneRun) (w : Work) : w.fld.Quiet (w.mark z v).fld :=
  .reported (by rfl) (by rfl) _

theorem Work.quiet_rebudget (env : Env) (z : Nat) (w : Work) : w.fld.Quiet (w.rebudget env z).fld := by
  unfold Work.rebudget
  dsimp only
  split
  · exact .refl _
  · exact w.quiet_mark z _

theorem Work.quiet_rebudgetAll (env : Env) (zs : List Nat) (w : Work) : w.fld.Quiet (w.rebudgetAll env zs).fld :=
  Work.quiet_foldl _ (fun w z => w.quiet_rebudget env z) zs w

theorem Work.quiet_evalOver (z : Nat) (w : Work) : w.fld.Quiet (w.evalOver z).fld := by
  unfold Work.evalOver
  dsimp only
  split
  · exact .refl _
  · exact w.quiet_mark z _

theorem Work.quiet_setUnsheddable (z : Nat) (b : Bool) (w : Work) : w.fld.Quiet (w.setUnsheddable z b).fld := by
  unfold Work.setUnsheddable
  dsimp only
  split
  · exact .refl _
  · exact w.quiet_mark z _

theorem Work.quiet_evalTrip (env : Env) (w : Work) : w.fld.Quiet (w.evalTrip env).fld := by
  unfold Work.evalTrip
  dsimp only
  split
  · exact .refl _
  · exact .reported (by rfl) (by rfl) _

theorem Work.quiet_setCeiling (env : Env) (v : Option Nat) (z : Nat) (w : Work) : w.fld.Quiet (w.setCeiling env v z).fld := by
  unfold Work.setCeiling
  dsimp only
  split
  · exact .refl _
  · exact (w.quiet_mark z _).trans (Work.quiet_rebudget env z _)

theorem Work.quiet_setCeilings (env : Env) (first last : Nat) (v : Option Nat) (w : Work) :
    w.fld.Quiet (w.setCeilings env first last v).1.fld := Work.quiet_foldl _ (fun w z => w.quiet_setCeiling env v z) _ w

theorem Work.quiet_setConditions (z : Nat) (v : ZoneRun) (w : Work) : w.fld.Quiet (w.setConditions z v).fld := by
  unfold Work.setConditions
  split
  · exact w.quiet_mark z v
  · exact .of_eq rfl rfl

theorem Work.quiet_staleAll (env : Env) (w : Work) : w.fld.Quiet (w.staleAll env).fld :=
  (Work.quiet_foldl _ (fun w z => w.quiet_setConditions z _) _ w).trans (Work.quiet_rebudgetAll env _ _)

theorem Work.quiet_follow (h : Nat) (a : Option Nat) (c : Bool) (w : Work) : w.fld.Quiet (w.follow h a c).fld := by
  unfold Work.follow
  split
  · exact .refl _
  · exact Field.Quiet.foldl _ (fun f k => f.quiet_setSlot k _) _ _

theorem Work.quiet_followRevoked (h : Nat) (v : Option (Nat × Bool)) (w : Work) : w.fld.Quiet (w.followRevoked h v).fld := by
  unfold Work.followRevoked
  split
  · exact w.quiet_follow h _ _
  · exact .refl _

theorem Work.quiet_toNewest (h : Nat) (w : Work) : w.fld.Quiet (w.toNewest h).fld := by
  unfold Work.toNewest
  split
  · exact .of_eq rfl rfl
  · exact .refl _

theorem Work.quiet_endSlot (k : Nat) (c : EndCause) (w : Work) : w.fld.Quiet (w.endSlot k c).fld :=
  .reported (by rfl) (by rfl) _

theorem Work.quiet_endAll (c : EndCause) (w : Work) : w.fld.Quiet (w.endAll c).1.fld := by
  unfold Work.endAll
  suffices h : ∀ (l : List Nat) (p : Work × Nat), p.1.fld.Quiet
      (l.foldl (fun (p : Work × Nat) k =>
        if (p.1.fld.slotAt k).state.nonIdle then (p.1.endSlot k c, p.2 + 1) else p) p).1.fld from h _ (w, 0)
  intro l
  induction l with
  | nil => exact fun p => .refl _
  | cons k l ih =>
    intro p
    refine .trans ?_ (ih _)
    dsimp only
    split
    · exact p.1.quiet_endSlot k c
    · exact .refl _

theorem Field.quiet_activate (k : Nat) (f : Field) : f.Quiet (f.activate k) := .of_eq rfl rfl

theorem Field.quiet_chooseProgram (f : Field) : f.Quiet f.chooseProgram := by
  unfold Field.chooseProgram
  split
  · split <;> exact f.quiet_activate _
  · exact f.quiet_activate _
  · exact f.quiet_activate _
  · exact .refl f

theorem Work.quiet_endRun (k : Nat) (c : EndCause) (w : Work) : w.fld.Quiet (w.endRun k c).fld := by
  unfold Work.endRun
  dsimp only
  split
  · exact (w.quiet_endSlot k c).trans (Field.quiet_chooseProgram _)
  · exact w.quiet_endSlot k c

theorem Field.quiet_preempt (a k : Nat) (f : Field) : f.Quiet (f.preempt a k) := .of_eq rfl rfl

theorem Field.quiet_heldPreemption (a : Nat) (f : Field) : f.Quiet (f.heldPreemption a) := by
  unfold Field.heldPreemption
  split
  · exact f.quiet_preempt a _
  · exact .refl f

theorem Work.quiet_completeStep (k : Nat) (a : After) (w : Work) : w.fld.Quiet (w.completeStep k a).fld := by
  unfold Work.completeStep
  dsimp only
  have hend : ∀ v c, w.fld.Quiet (Work.endRun k c { w with fld := w.fld.setSlot k v }).fld := fun v c =>
    (w.fld.quiet_setSlot k v).trans (Work.quiet_endRun k c { w with fld := w.fld.setSlot k v })
  split
  · exact hend _ _
  · split
    · exact hend _ _
    · split
      · exact hend _ _
      · split
        · exact ((w.fld.quiet_setSlot k _).trans (Field.quiet_setSlot _ k _)).trans (Field.quiet_heldPreemption k _)
        · exact .of_eq rfl rfl

theorem Work.quiet_waitFor (k : Nat) (on : WaitOn) (w : Work) : w.fld.Quiet (w.waitFor k on).fld := .of_eq rfl rfl

theorem Work.quiet_settleWith (k h a : Nat) (w : Work) : w.fld.Quiet (w.settleWith k h a).fld := .of_eq rfl rfl

theorem Work.quiet_refuseMember (k h : Nat) (reason : Reason) (b c : Bool) (w : Work) :
    w.fld.Quiet (w.refuseMember k h reason b c).fld := .of_eq rfl rfl

theorem Work.quiet_freshStep (k : Nat) (b : Bool) (w : Work) : w.fld.Quiet (w.freshStep k b).fld := .of_eq rfl rfl

theorem Field.quiet_placeUnsettled (k : Nat) (f : Field) : f.Quiet (f.placeUnsettled k) := .of_eq rfl rfl

theorem Field.quiet_clearFreed (f : Field) : f.Quiet f.clearFreed := by
  have hop : ∀ (f : Field) (g : Nat), f.Quiet (f.setSxe g { f.sxeAt g with spaceFreed := false }) := by
    refine fun f g => ⟨fun h => .refl _, fun k => ?_⟩
    rw [Field.sxeAt_setSxe]
    split
    · next hk => exact hk.1 ▸ ⟨false, _, rfl⟩
    · exact .refl _
  exact Field.Quiet.foldl _ hop _ f

theorem Field.quiet_start (k level : Nat) (tag : Byte) (f : Field) : f.Quiet (f.start k level tag).1 := by
  unfold Field.start
  dsimp only
  split
  · exact .of_eq rfl rfl
  · split
    · split <;> exact .of_eq rfl rfl
    · exact .of_eq rfl rfl

theorem Field.quiet_fillOwed (f : Field) : f.Quiet f.fillOwed := by
  unfold Field.fillOwed
  split
  · exact (f.quiet_setReportOwed _ false).trans (Field.quiet_queueReport _ _)
  · exact .refl f

theorem Field.quiet_takeReport (src : Source) (rest : List Source) (f : Field) : f.Quiet (f.takeReport src rest) := by
  unfold Field.takeReport
  dsimp only
  refine .trans (.of_eq ?_ ?_) (Field.quiet_fillOwed _) <;> cases src <;> rfl

theorem Field.quiet_clearTrip (f : Field) : f.Quiet f.clearTrip := by
  unfold Field.clearTrip
  dsimp only
  split
  · exact .refl f
  · exact .reported (by rfl) (by rfl) _

theorem Work.quiet_rewatch (old new : WatchSettings) (w : Work) : w.fld.Quiet (w.rewatch old new).fld := by
  unfold Work.rewatch
  dsimp only
  have h1 : w.fld.Quiet (if new.mode = .latch ∧ old.mode ≠ .latch then
      { w with fld := { w.fld with trip := { w.fld.trip with latch := w.fld.trip.critical || w.fld.trip.nonCritical } } }
      else w : Work).fld := by
    split
    · exact .of_eq rfl rfl
    · exact .refl _
  split
  · exact h1
  · exact h1.trans (Field.quiet_queueReport _ _)

theorem Field.quiet_flags (hs : List Nat) {effect : HelioRun → HelioRun} (he : ∀ r : HelioRun, r.Alike (effect r)) (f : Field) :
    f.Quiet (hs.foldl (fun (f : Field) h => f.setRun h (effect (f.run h))) f) := by
  have hop : ∀ (f : Field) (h : Nat), f.Quiet (f.setRun h (effect (f.run h))) := by
    refine fun f h => ⟨fun j => ?_, fun k => .refl _⟩
    rw [Field.run_setRun]
    split
    · next hj => exact hj.1 ▸ he _
    · exact .refl _
  exact Field.Quiet.foldl _ hop hs f

end Sys2Proof.Machine
end

section
/-! PROOFS for the segment lines: an exchange begins (R56, R60), an exchange ends (R56), a PASS is held (R21). -/

namespace Sys2Proof.Machine

variable {T : Prop} {env : Env} {f g : Field}

/-! ### The beginning of an exchange -/

/-- An exchange has begun on a segment that had none (R56): its heliostat has come in flight, or was so already where its held PASS is
relayed (R21, R83). -/
structure Field.Launched (T : Prop) (env : Env) (k : Nat) (x : Exchange) (f g : Field) : Prop where
  free : (f.sxeAt k).exchange = none
  segment : env.segmentOf x.helio = k
  state : (f.run x.helio).state ≠ .absent
  polled : (f.run x.helio).queued = true → x.kind = .query
  flight : (x.kind = .pass ∧ ∃ p, (f.sxeAt k).passSlot = some p ∧ p.helio = x.helio)
    ∨ (x.kind ≠ .pass ∧ (f.run x.helio).inFlight = false)
  served : T → ∀ dest cause, x.kind = .owedMotion dest cause → (f.run x.helio).CanReturn dest
  runs : ∀ j, g.run j = if j = x.helio then { f.run j with inFlight := true } else f.run j
  others : ∀ j, j ≠ k → g.sxeAt j = f.sxeAt j
  own : ∃ scan settle freed, g.sxeAt k = { f.sxeAt k with exchange := some x, scan := scan, settle := settle, spaceFreed := freed }
    ∧ (T → f.Tidy → scan < 4096 ∧ settle < 4096)

theorem Field.Launched.run_keeps {k : Nat} {x : Exchange} (h : f.Launched T env k x g) (j : Nat) :
    ∃ b, g.run j = { f.run j with inFlight := b } := by
  rw [h.runs]
  split
  · exact ⟨true, rfl⟩
  · exact ⟨_, rfl⟩

theorem Field.Launched.passSlot {k : Nat} {x : Exchange} (h : f.Launched T env k x g) (j : Nat) :
    (g.sxeAt j).passSlot = (f.sxeAt j).passSlot ∧ (g.sxeAt j).queue = (f.sxeAt j).queue := by
  by_cases hj : j = k
  · obtain ⟨a, b, c, e, -⟩ := h.own
    rw [hj, e]
    exact ⟨rfl, rfl⟩
  · rw [h.others j hj]
    exact ⟨rfl, rfl⟩

theorem Field.Launched.exchange {k : Nat} {x : Exchange} (h : f.Launched T env k x g) {j : Nat} {y : Exchange}
    (hy : (g.sxeAt j).exchange = some y) : (j = k ∧ y = x) ∨ (j ≠ k ∧ (f.sxeAt j).exchange = some y) := by
  by_cases hj : j = k
  · obtain ⟨a, b, c, e, -⟩ := h.own
    rw [hj, e] at hy
    exact Or.inl ⟨hj, (Option.some.inj hy).symm⟩
  · rw [h.others j hj] at hy
    exact Or.inr ⟨hj, hy⟩

theorem Field.Launched.lines {k : Nat} {x : Exchange} (hf : f.LinesExact env) (h : f.Launched T env k x g) : g.LinesExact env := by
  have hrun : ∀ j, (g.run j).queued = (f.run j).queued ∧ (g.run j).granted = (f.run j).granted := by
    intro j
    obtain ⟨b, e⟩ := h.run_keeps j
    rw [e]
    exact ⟨rfl, rfl⟩
  have hfly : ∀ j, (f.run j).inFlight = true → (g.run j).inFlight = true := by
    intro j hj
    rw [h.runs]
    split
    · rfl
    · exact hj
  have hx : (g.run x.helio).inFlight = true := by rw [h.runs, if_pos rfl]
  have hown : (g.sxeAt k).exchange = some x := by
    obtain ⟨a, b, c, e, -⟩ := h.own
    rw [e]
  obtain ⟨h1, h2, h3, h4, h5, h6, h7, h8, h9⟩ := hf
  constructor
  · intro j y hy
    rcases h.exchange hy with ⟨rfl, rfl⟩ | ⟨-, hy⟩
    · exact ⟨h.segment, hx⟩
    · exact ⟨(h1 j y hy).1, hfly _ (h1 j y hy).2⟩
  · intro j p hp
    rw [(h.passSlot j).1] at hp
    exact ⟨(h2 j p hp).1, hfly _ (h2 j p hp).2⟩
  · intro j y hy
    rw [(h.passSlot j).1]
    rcases h.exchange hy with ⟨rfl, rfl⟩ | ⟨-, hy⟩
    · rcases h.flight with ⟨hk, hp⟩ | ⟨hk, hi⟩
      · exact iff_of_true hk hp
      · refine iff_of_false hk ?_
        rintro ⟨p, hp, hph⟩
        have := (h2 j p hp).2
        rw [hph, hi] at this
        cases this
    · exact h3 j y hy
  · intro j hj
    rw [(h.passSlot _).1]
    by_cases hjx : j = x.helio
    · exact Or.inl ⟨x, by rw [hjx, h.segment, hown], hjx.symm⟩
    · rw [h.runs, if_neg hjx] at hj
      rcases h4 j hj with ⟨y, hy, hyj⟩ | hp
      · refine Or.inl ⟨y, ?_, hyj⟩
        rw [h.others _ ?_]
        · exact hy
        · intro hk
          rw [hk, h.free] at hy
          cases hy
      · exact Or.inr hp
  · intro j e he
    rw [(h.passSlot j).2] at he
    rw [(hrun _).1, (hrun _).2]
    exact h5 j e he
  · intro j
    rw [(h.passSlot j).2]
    exact h6 j
  · intro j hj
    rw [(h.passSlot _).2]
    exact h7 j ((hrun j).1 ▸ hj)
  · intro j y hy hq
    rw [(hrun _).1] at hq
    rcases h.exchange hy with ⟨rfl, rfl⟩ | ⟨-, hy⟩
    · exact h.polled hq
    · exact h8 j y hy hq
  · intro j p hp
    rw [(h.passSlot j).1] at hp
    rw [(hrun _).1]
    exact h9 j p hp

/-- The beginning of an exchange keeps every fact. -/
theorem Field.Linked.launched {k : Nat} {x : Exchange} (hf : f.Linked T env) (h : f.Launched T env k x g) : g.Linked T env := by
  have hlines := h.lines hf.lines
  obtain ⟨htab, hrec, hl, hpres, hidle, htidy⟩ := hf
  refine ⟨htab, fun j => ?_, hlines, fun j => ?_, fun j hj => ?_, fun hT => ⟨fun j => ?_, fun j => ?_, fun j y dest cause hy hk => ?_⟩⟩
  · obtain ⟨b, e⟩ := h.run_keeps j
    rw [e]
    exact (hrec j).other rfl rfl rfl rfl rfl rfl rfl rfl rfl rfl
  · obtain ⟨b, e⟩ := h.run_keeps j
    rw [e]
    exact hpres j
  · rw [h.runs] at hj ⊢
    split at hj
    · next hjx => exact absurd (hjx ▸ hj) h.state
    · next hjx =>
      rw [if_neg hjx]
      exact hidle j hj
  · obtain ⟨b, e⟩ := h.run_keeps j
    obtain ⟨h1, h2, h3, h4, h5, h6, h7, h8⟩ := (htidy hT).records j
    rw [e]
    exact ⟨h1, h2, h3, h4, h5, h6, h7, h8⟩
  · by_cases hj : j = k
    · obtain ⟨a, b, c, e, hp⟩ := h.own
      rw [hj, e]
      exact hp hT (htidy hT)
    · rw [h.others j hj]
      exact (htidy hT).pointers j
  · obtain ⟨b, e⟩ := h.run_keeps y.helio
    rw [e]
    rcases h.exchange hy with ⟨rfl, rfl⟩ | ⟨-, hy⟩
    · exact h.served hT dest cause hk
    · exact (htidy hT).served j y dest cause hy hk

/-! ### The choices (R60 to R64) -/

/-- Is an exchange a MOVE to an aim (R65)? -/
def ExKind.movesToAim : ExKind → Bool
  | .moveAim _ => true
  | .owedMotion _ _ | .query | .pass => false

theorem Field.run_launch (env : Env) {seg h : Nat} (hh : h < Config.heliostats) (kind : ExKind) (req : List Byte) (x : Sxe) (f : Field)
    (j : Nat) : (f.launch env seg h kind req x).run j =
      if j = h then { f.run h with inFlight := true, queued := (f.run h).queued && !kind.movesToAim } else f.run j := by
  rw [show (f.launch env seg h kind req x).run j =
    (f.setRun h { f.run h with inFlight := true, queued := (f.run h).queued && !kind.movesToAim }).run j by cases kind <;> rfl,
    Field.run_setRun]
  by_cases hj : j = h
  · rw [if_pos hj, if_pos ⟨hj.symm, hh⟩]
  · rw [if_neg hj, if_neg fun c => hj c.1.symm]

theorem Field.sxeAt_launch (env : Env) {seg h : Nat} (hs : seg < Config.segments) (kind : ExKind) (req : List Byte) (x : Sxe) (f : Field)
    (k : Nat) : (f.launch env seg h kind req x).sxeAt k =
      if k = seg then { x with exchange := some ⟨h, (env.live.helioAt h).address, kind, req, false, .sending⟩ } else f.sxeAt k := by
  unfold Field.launch
  dsimp only
  rw [Field.sxeAt_setSxe]
  by_cases hk : k = seg
  · rw [if_pos hk, if_pos ⟨hk.symm, hs⟩]
  · rw [if_neg hk, if_neg fun c => hk c.1.symm, Field.sxeAt_setRun]

theorem nextPointer_lt (h : Nat) : nextPointer h < 4096 := Nat.mod_lt _ (by decide)

/-- An exchange of a heliostat that is not queued, or a poll, with the Move Queue left alone. -/
theorem Field.Linked.launch (hf : f.Linked T env) {seg h : Nat} (hs : seg < Config.segments) (hfree : (f.sxeAt seg).exchange = none)
    (hseg : env.segmentOf h = seg) (hstate : (f.run h).state ≠ .absent) {kind : ExKind} (req : List Byte) {x : Sxe}
    (hx : ∃ scan settle freed, x = { f.sxeAt seg with scan := scan, settle := settle, spaceFreed := freed }
      ∧ (f.Tidy → scan < 4096 ∧ settle < 4096))
    (hq : (f.run h).queued = true → kind = .query)
    (hi : (kind = .pass ∧ ∃ p, (f.sxeAt seg).passSlot = some p ∧ p.helio = h) ∨ (kind ≠ .pass ∧ (f.run h).inFlight = false))
    (hserved : T → ∀ dest cause, kind = .owedMotion dest cause → (f.run h).CanReturn dest) :
    (f.launch env seg h kind req x).Linked T env := by
  obtain ⟨scan, settle, freed, rfl, hp⟩ := hx
  refine hf.launched (k := seg) (x := ⟨h, (env.live.helioAt h).address, kind, req, false, .sending⟩)
    ⟨hfree, hseg, hstate, hq, hi, hserved, fun j => ?_, fun j hj => ?_, scan, settle, freed, ?_, fun _ => hp⟩
  · rw [Field.run_launch env (hf.lt_of_state hstate)]
    split
    · next hj =>
      subst hj
      have hqueued : ((f.run j).queued && !kind.movesToAim) = (f.run j).queued := by
        cases hk : (f.run j).queued
        · rfl
        · rw [hq hk]; rfl
      rw [hqueued]
    · rfl
  · rw [Field.sxeAt_launch env hs, if_neg hj]
  · rw [Field.sxeAt_launch env hs, if_pos rfl]

/-- The head of the Move Queue has left it, and its heliostat is not queued. -/
def Field.headTaken (seg : Nat) (e : Entry) (f : Field) : Field :=
  (f.setSxe seg { f.sxeAt seg with queue := (f.sxeAt seg).queue.filter (fun d => d.helio != e.helio), spaceFreed := true }).setRun e.helio
    { f.run e.helio with queued := false }

theorem Field.run_headTaken {e : Entry} (he : e.helio < Config.heliostats) (seg : Nat) (f : Field) (j : Nat) :
    (f.headTaken seg e).run j = if j = e.helio then { f.run e.helio with queued := false } else f.run j := by
  unfold Field.headTaken
  rw [Field.run_setRun, Field.run_setSxe]
  by_cases hj : j = e.helio
  · rw [if_pos hj, if_pos ⟨hj.symm, he⟩]
  · rw [if_neg hj, if_neg fun c => hj c.1.symm]

theorem Field.sxeAt_headTaken {seg : Nat} (hs : seg < Config.segments) (e : Entry) (f : Field) (k : Nat) :
    (f.headTaken seg e).sxeAt k = if k = seg then
      { f.sxeAt seg with queue := (f.sxeAt seg).queue.filter (fun d => d.helio != e.helio), spaceFreed := true } else f.sxeAt k := by
  unfold Field.headTaken
  rw [Field.sxeAt_setRun, Field.sxeAt_setSxe]
  by_cases hk : k = seg
  · rw [if_pos hk, if_pos ⟨hk.symm, hs⟩]
  · rw [if_neg hk, if_neg fun c => hk c.1.symm]

theorem Field.Linked.headTaken (hf : f.Linked T env) {seg : Nat} (hs : seg < Config.segments) {e : Entry}
    (he : e ∈ (f.sxeAt seg).queue) : (f.headTaken seg e).Linked T env := by
  obtain ⟨hseg, hq, -⟩ := hf.lines.entry seg e he
  have hstate := hf.state_of_queued hq
  have hrun := Field.run_headTaken (hf.lt_of_state hstate) seg f
  have hsxe := Field.sxeAt_headTaken hs e f
  subst hseg
  refine hf.moved (h := e.helio) ⟨fun j hj => ?_, fun k => ?_, ?_, ?_⟩
  · rw [hrun, if_neg hj]
    exact .refl _
  · rw [hsxe]
    split
    · next hk =>
      subst hk
      exact ⟨_, ⟨true, _, rfl⟩, fun hk => absurd rfl hk⟩
    · exact ⟨_, .refl _, fun _ => rfl⟩
  · rw [hrun, if_pos rfl]
    refine ⟨rfl, hstate, hstate, ?_, fun ht => ?_, fun _ _ _ hd => hd⟩
    · obtain ⟨h1, h2, h3, h4, h5, h6, h7, h8⟩ := hf.records e.helio
      exact ⟨h1, h2, h3, h4, h5, h6, h7, by simp⟩
    · obtain ⟨h1, h2, h3, h4, h5, h6, h7, h8⟩ := ht
      exact ⟨h1, h2, h3, h4, h5, h6, h7, h8⟩
  · rw [hrun, if_pos rfl, hsxe, if_pos rfl]
    exact .leaves rfl

/-- The head of a queue that holds each heliostat once is its heliostat's only entry. -/
theorem tail_eq_filter {e : Entry} {q : List Entry} (hn : ((e :: q).map Entry.helio).Nodup) :
    (e :: q).filter (fun d => d.helio != e.helio) = q := by
  rw [List.filter_cons_of_neg (by simp)]
  refine List.filter_eq_self.2 fun d hd => ?_
  rw [List.map_cons, List.nodup_cons] at hn
  simp only [bne_iff_ne, ne_eq]
  exact fun hde => hn.1 (hde ▸ List.mem_map_of_mem hd)

theorem Field.Linked.choosable (hf : f.Linked T env) {seg h : Nat} (hm : h ∈ f.choosable env seg) :
    env.segmentOf h = seg ∧ (f.run h).state ≠ .absent ∧ (f.run h).inFlight = false := by
  obtain ⟨⟨p, hp, rfl, hseg⟩, hi⟩ := Field.mem_choosable hm
  have hp := List.mem_filter.1 hp
  have hc : env.live.helioAt p.1 = p.2 := Table.get_of_mem hf.tables.1 hp.1
  refine ⟨by unfold Env.segmentOf; rw [hc, hseg], (hf.present p.1).1 ?_, hi⟩
  rw [hc]
  exact hp.2

/-- An owed motion's request can still move the heliostat that owes it (R11, R66). -/
theorem HelioRun.Tidy.canReturn {r : HelioRun} (ht : r.Tidy) (hs : r.state ≠ .absent) {o : Owed} (ho : r.owed = some o) (h : Nat) :
    r.CanReturn (env.owedDest h o.motion) := by
  obtain ⟨-, -, -, -, hdefocus, hstow, hidle, -⟩ := ht
  have hmoving : r.state ≠ .faulted ∧ r.state ≠ .silent := by
    constructor <;> intro hst <;> rw [hidle (by simp [hst])] at ho <;> cases ho
  obtain ⟨m, c⟩ := o
  cases m with
  | defocus =>
    obtain ⟨-, h2, h3⟩ := hdefocus c ho
    exact ⟨hs, h2, hmoving.1, hmoving.2, fun _ => h3⟩
  | stow =>
    refine ⟨hs, (hstow c ho).1, hmoving.1, hmoving.2, fun hd => ?_⟩
    simp [Env.owedDest] at hd

/-- The exchange that a choice begins keeps every fact. -/
theorem Field.Linked.begin (hf : f.Linked T env) {seg : Nat} (hs : seg < Config.segments) (hfree : (f.sxeAt seg).exchange = none)
    {c : Choice} (ho : c.Offered env seg f) : (f.begin env seg c).Linked T env := by
  have hnext : ∀ h, f.Tidy → nextPointer h < 4096 ∧ (f.sxeAt seg).settle < 4096 := fun h ht => ⟨nextPointer_lt h, (ht.pointers seg).2⟩
  have hnotq : ∀ h, (f.run h).queued = true → (f.run h).state = .slewing ∧ (f.run h).accepted = false ∧ (f.run h).owed = none := by
    intro h
    obtain ⟨-, -, -, -, -, -, -, hq⟩ := hf.records h
    exact hq
  unfold Field.begin
  cases c with
  | owed h =>
    dsimp only
    split
    · next o hw =>
      obtain ⟨hseg, hstate, hi⟩ := hf.choosable ho.1
      refine hf.launch hs hfree hseg hstate _ ⟨_, _, _, rfl, hnext h⟩ (fun hq => ?_) (Or.inr ⟨nofun, hi⟩) fun hT dest cause hk => ?_
      · rw [(hnotq h hq).2.2] at hw
        cases hw
      · obtain ⟨rfl, rfl⟩ := ExKind.owedMotion.inj hk
        exact ((hf.tidy hT).records h).canReturn hstate hw h
    · exact hf
  | pass p =>
    obtain ⟨hseg, hi⟩ := hf.lines.pass seg p ho
    refine hf.launch hs hfree hseg (hf.state_of_inFlight hi) _ ⟨_, _, _, rfl, fun ht => ht.pointers seg⟩ (fun hq => ?_)
      (Or.inl ⟨rfl, p, ho, rfl⟩) fun _ _ _ hk => by cases hk
    rw [hf.lines.unqueued seg p ho] at hq
    cases hq
  | resend h =>
    obtain ⟨hseg, hstate, hi⟩ := hf.choosable ho.1
    refine hf.launch hs hfree hseg hstate _ ⟨_, _, _, rfl, hnext h⟩ (fun hq => ?_) (Or.inr ⟨nofun, hi⟩) fun _ _ _ hk => by cases hk
    have hr := ho.2
    simp [HelioRun.awaitsResend, hq] at hr
  | head e =>
    obtain ⟨t, ht⟩ := List.head?_eq_some_iff.1 ho.1
    have he : e ∈ (f.sxeAt seg).queue := by simp [ht]
    obtain ⟨hseg, hq, -⟩ := hf.lines.entry seg e he
    have hlt := (hf.lt_of_state (hf.state_of_queued hq))
    have hrun := Field.run_headTaken hlt seg f
    have hsxe := Field.sxeAt_headTaken hs e f
    have hqueue : (f.sxeAt seg).queue.filter (fun d => d.helio != e.helio) = t := by
      have hn := hf.lines.once seg
      rw [ht] at hn ⊢
      exact tail_eq_filter hn
    refine (hf.headTaken hs he).launched (k := seg)
      (x := ⟨e.helio, (env.live.helioAt e.helio).address, .moveAim (some e.origin),
        env.moveAimRequest e.helio (orZero (f.run e.helio).granted), false, .sending⟩)
      ⟨?_, hseg, ?_, ?_, Or.inr ⟨nofun, ?_⟩, (fun _ _ _ hk => by cases hk), fun j => ?_, fun j hj => ?_, ?_⟩
    · rw [hsxe, if_pos rfl]
      exact hfree
    · rw [hrun, if_pos rfl]
      exact hf.state_of_queued hq
    · rw [hrun, if_pos rfl]
      exact nofun
    · rw [hrun, if_pos rfl]
      exact ho.2
    · rw [Field.run_launch env hlt, hrun]
      split
      · simp [ExKind.movesToAim]
      · rfl
    · rw [Field.sxeAt_launch env hs, if_neg hj, hsxe, if_neg hj]
    · refine ⟨(f.sxeAt seg).scan, (f.sxeAt seg).settle, true, ?_, fun hT _ => (hf.tidy hT).pointers seg⟩
      rw [Field.sxeAt_launch env hs, if_pos rfl, hsxe, if_pos rfl, hqueue, ht]
      rfl
  | settle h =>
    obtain ⟨hseg, hstate, hi⟩ := hf.choosable ho.1
    exact hf.launch hs hfree hseg hstate _ ⟨_, _, _, rfl, fun ht => ⟨(ht.pointers seg).1, nextPointer_lt h⟩⟩ (fun _ => rfl)
      (Or.inr ⟨nofun, hi⟩) fun _ _ _ hk => by cases hk
  | poll h =>
    obtain ⟨hseg, hstate, hi⟩ := hf.choosable ho
    exact hf.launch hs hfree hseg hstate _ ⟨_, _, _, rfl, fun ht => ht.pointers seg⟩ (fun _ => rfl)
      (Or.inr ⟨nofun, hi⟩) fun _ _ _ hk => by cases hk

/-- The choice of one SXE keeps every fact. -/
theorem Field.Linked.choose (hf : f.Linked T env) (b : Bool) {seg : Nat} (hs : seg < Config.segments) :
    (f.choose env b seg).Linked T env := by
  rcases Field.choose_cases env b f seg with h | ⟨c, ho, hfree, h⟩ <;> rw [h]
  · exact hf
  · exact hf.begin hs hfree ho

theorem Field.Lined.choose (hf : f.Lined T env) (b : Bool) {seg : Nat} (hs : seg < Config.segments) :
    (f.choose env b seg).Lined T env := ⟨hf.toLinked.choose b hs, hf.placed⟩

/-- The facts about the segment lines, of a state. -/
abbrev State.Linked (T : Prop) (s : State) : Prop := s.field.Linked T s.env

/-- What every step keeps of the segment lines, of a state. -/
abbrev State.Lined (T : Prop) (s : State) : Prop := s.field.Lined T s.env

/-- The choices of every idle SXE keep every fact (R60). -/
theorem State.Linked.kick {s : State} (h : s.Linked T) : s.kick.Linked T := by
  suffices key : ∀ (l : List Nat) (f : Field), (∀ k ∈ l, k < Config.segments) → f.Linked T s.env →
      (l.foldl (Field.choose s.env false) f).Linked T s.env from key _ _ (fun _ hk => List.mem_range.1 hk) h
  intro l
  induction l with
  | nil => exact fun _ _ hf => hf
  | cons k l ih =>
    intro f hl hf
    exact ih _ (fun j hj => hl j (by simp [hj])) (hf.choose false (hl k (by simp)))

theorem State.Lined.kick {s : State} (h : s.Lined T) : s.kick.Lined T := ⟨State.Linked.kick h.toLinked, h.placed⟩

/-! ### The end of an exchange, and the holding of a PASS -/

/-- What held heliostat `h` in flight on segment `k` is over: its exchange has ended, and with it the PASS it relayed, if it was one
(R21, R56). -/
structure Field.Landed (k h : Nat) (f g : Field) : Prop where
  exchange : ∃ x, (f.sxeAt k).exchange = some x ∧ x.helio = h
  runs : ∀ j, ∃ t, g.run j = if j = h then { f.run j with inFlight := false, lastExchange := t } else f.run j
  others : ∀ j, j ≠ k → g.sxeAt j = f.sxeAt j
  own : ∃ p t, g.sxeAt k = { f.sxeAt k with exchange := none, passSlot := p, lastEnd := t }
    ∧ ((p = none ∧ ∃ q, (f.sxeAt k).passSlot = some q ∧ q.helio = h)
      ∨ (p = (f.sxeAt k).passSlot ∧ ∀ q, (f.sxeAt k).passSlot = some q → q.helio ≠ h))

theorem Field.Landed.lines {k h : Nat} (hf : f.LinesExact env) (hl : f.Landed k h g) : g.LinesExact env := by
  obtain ⟨x, hx, hxh⟩ := hl.exchange
  choose t hrun using hl.runs
  obtain ⟨p, u, hown, hp⟩ := hl.own
  have hsame : ∀ j, (g.run j).queued = (f.run j).queued ∧ (g.run j).granted = (f.run j).granted := by
    intro j
    rw [hrun]
    split <;> exact ⟨rfl, rfl⟩
  have hfly : ∀ j, j ≠ h → (g.run j).inFlight = (f.run j).inFlight := by
    intro j hj
    rw [hrun, if_neg hj]
  have hqueue : ∀ j, (g.sxeAt j).queue = (f.sxeAt j).queue := by
    intro j
    by_cases hj : j = k
    · rw [hj, hown]
    · rw [hl.others j hj]
  have hexch : ∀ j y, (g.sxeAt j).exchange = some y → j ≠ k ∧ (f.sxeAt j).exchange = some y := by
    intro j y hy
    by_cases hj : j = k
    · rw [hj, hown] at hy
      cases hy
    · rw [hl.others j hj] at hy
      exact ⟨hj, hy⟩
  obtain ⟨h1, h2, h3, h4, h5, h6, h7, h8, h9⟩ := hf
  have hseg : env.segmentOf h = k := by
    rw [← hxh]
    exact (h1 k x hx).1
  have hpass : ∀ j q, (g.sxeAt j).passSlot = some q → (f.sxeAt j).passSlot = some q ∧ q.helio ≠ h := by
    intro j q hq
    by_cases hj : j = k
    · rw [hj, hown] at hq
      rcases hp with ⟨rfl, -⟩ | ⟨rfl, hne⟩
      · cases hq
      · rw [hj]
        exact ⟨hq, hne q hq⟩
    · rw [hl.others j hj] at hq
      refine ⟨hq, fun hqh => hj ?_⟩
      rw [← (h2 j q hq).1, hqh, hseg]
  constructor
  · intro j y hy
    obtain ⟨hj, hy⟩ := hexch j y hy
    have hyh : y.helio ≠ h := fun hyh => hj (by rw [← (h1 j y hy).1, hyh, hseg])
    rw [hfly _ hyh]
    exact h1 j y hy
  · intro j q hq
    obtain ⟨hq, hqh⟩ := hpass j q hq
    rw [hfly _ hqh]
    exact h2 j q hq
  · intro j y hy
    obtain ⟨hj, hy⟩ := hexch j y hy
    rw [hl.others j hj]
    exact h3 j y hy
  · intro j hj
    by_cases hjh : j = h
    · rw [hrun, if_pos hjh] at hj
      cases hj
    · rw [hfly j hjh] at hj
      by_cases hk : env.segmentOf j = k
      · rcases h4 j hj with ⟨y, hy, hyj⟩ | ⟨q, hq, hqj⟩
        · rw [hk, hx] at hy
          cases hy
          exact absurd (hyj.symm.trans hxh) hjh
        · rw [hk] at hq
          refine Or.inr ⟨q, ?_, hqj⟩
          rw [hk, hown]
          rcases hp with ⟨-, q', hq', hqh'⟩ | ⟨rfl, -⟩
          · rw [hq] at hq'
            cases hq'
            exact absurd (hqj.symm.trans hqh') hjh
          · exact hq
      · rw [hl.others _ hk]
        exact h4 j hj
  · intro j e he
    rw [hqueue] at he
    rw [(hsame _).1, (hsame _).2]
    exact h5 j e he
  · intro j
    rw [hqueue]
    exact h6 j
  · intro j hj
    rw [hqueue]
    exact h7 j ((hsame j).1 ▸ hj)
  · intro j y hy hq
    obtain ⟨-, hy⟩ := hexch j y hy
    exact h8 j y hy ((hsame _).1 ▸ hq)
  · intro j q hq
    obtain ⟨hq, -⟩ := hpass j q hq
    rw [(hsame _).1]
    exact h9 j q hq

/-- The end of what held a heliostat in flight keeps every fact. -/
theorem Field.Lined.landed {k h : Nat} (hf : f.Lined T env) (hl : f.Landed k h g) : g.Lined T env := by
  have hlines := hl.lines hf.lines
  choose t hrun using hl.runs
  have hsame : ∀ j, ∃ b t, g.run j = { f.run j with inFlight := b, lastExchange := t } := by
    intro j
    rw [hrun]
    split
    · exact ⟨_, _, rfl⟩
    · exact ⟨_, _, rfl⟩
  obtain ⟨⟨htab, hrec, -, hpres, hidle, htidy⟩, hplaced⟩ := hf
  refine ⟨⟨htab, fun j => ?_, hlines, fun j => ?_, fun j hj => ?_, fun hT => ⟨fun j => ?_, fun j => ?_, fun j y dest cause hy hk => ?_⟩⟩, hplaced⟩
  · obtain ⟨b, t, e⟩ := hsame j
    rw [e]
    exact (hrec j).other rfl rfl rfl rfl rfl rfl rfl rfl rfl rfl
  · obtain ⟨b, t, e⟩ := hsame j
    rw [e]
    exact hpres j
  · rw [hrun] at hj ⊢
    split
    · next hjh =>
      rw [if_pos hjh] at hj
      exact ⟨rfl, (hidle j hj).2⟩
    · next hjh =>
      rw [if_neg hjh] at hj
      exact hidle j hj
  · obtain ⟨b, t, e⟩ := hsame j
    obtain ⟨h1, h2, h3, h4, h5, h6, h7, h8⟩ := (htidy hT).records j
    rw [e]
    exact ⟨h1, h2, h3, h4, h5, h6, h7, h8⟩
  · by_cases hj : j = k
    · obtain ⟨p, u, e, -⟩ := hl.own
      rw [hj, e]
      exact (htidy hT).pointers k
    · rw [hl.others j hj]
      exact (htidy hT).pointers j
  · by_cases hj : j = k
    · obtain ⟨p, u, e, -⟩ := hl.own
      rw [hj, e] at hy
      cases hy
    · rw [hl.others j hj] at hy
      obtain ⟨b, t, e⟩ := hsame y.helio
      rw [e]
      exact (htidy hT).served j y dest cause hy hk

end Sys2Proof.Machine
end

section
/-! PROOFS for the segment lines: what the shared changes of a record keep of it (R11, R37, R38), and the operations over the field that
change one heliostat at a time. -/

namespace Sys2Proof.Machine

/-! ### Records -/

/-- Two records that differ in nothing but the owed motion, the busy count and the last cause. -/
def HelioRun.Reowed (r r' : HelioRun) : Prop := ∃ o b l, r' = { r with owed := o, busyCount := b, lastCause := l }

theorem HelioRun.Reowed.trans {r r' r'' : HelioRun} (h1 : r.Reowed r') (h2 : r'.Reowed r'') : r.Reowed r'' := by
  obtain ⟨o, b, l, rfl⟩ := h1
  obtain ⟨o', b', l', rfl⟩ := h2
  exact ⟨o', b', l', rfl⟩

theorem HelioRun.reowed_by (c : Option Cause) (old new : HelioRun) : new.Reowed (old.by c new) := by
  unfold HelioRun.by
  split
  · exact ⟨_, _, _, rfl⟩
  · exact ⟨_, _, _, rfl⟩

theorem HelioRun.reowed_nothingRemains (r : HelioRun) : r.Reowed r.nothingRemains := by
  unfold HelioRun.nothingRemains
  split
  · exact ⟨_, _, _, rfl⟩
  · split <;> exact ⟨_, _, _, rfl⟩
  · split <;> exact ⟨_, _, _, rfl⟩

theorem HelioRun.reowed_setOwed (m : Motion) (c : Cause) (r : HelioRun) : r.Reowed (r.setOwed m c) := by
  unfold HelioRun.setOwed
  split <;> exact ⟨_, _, _, rfl⟩

theorem HelioRun.Tidy.by {old new : HelioRun} (h : new.Tidy) (c : Option Cause) : (old.by c new).Tidy := by
  obtain ⟨h1, h2, h3, h4, h5, h6, h7, h8⟩ := h
  unfold HelioRun.by
  split
  · exact ⟨h1, h2, h3, h4, h5, h6, h7, h8⟩
  · exact ⟨h1, h2, h3, h4, h5, h6, h7, h8⟩

theorem HelioRun.tidy_setOwed (m : Motion) (c : Cause) (r : HelioRun) : (r.setOwed m c).tidy = r.tidy.setOwed m c := by
  unfold HelioRun.setOwed
  rw [show r.tidy.owed = r.owed from rfl]
  split <;> rfl

theorem HelioRun.tidy_tidy (r : HelioRun) : r.tidy.tidy = r.tidy := by
  unfold HelioRun.tidy
  cases r.state <;> simp

theorem HelioRun.tidy_revoked (r : HelioRun) : r.revoked.tidy = r.revoked := by
  unfold HelioRun.revoked
  split <;> exact HelioRun.tidy_tidy _

theorem HelioRun.Good.trim {r : HelioRun} (h : r.Good) : r.Trim := by
  obtain ⟨-, hleaving, hdest, -⟩ := h.sound
  exact ⟨fun hl => ⟨(hleaving hl).1, h.tidy.reAim hl⟩, h.tidy.idle, h.tidy.counts, hdest.2⟩

/-- A revoked grant leaves the heliostat TRACKING or at rest (R37, R38). -/
theorem HelioRun.revoked_state (r : HelioRun) :
    r.revoked.state = .tracking ∨ r.revoked.state = .standby ∨ r.revoked.state = .stowed := by
  unfold HelioRun.revoked
  split
  · exact Or.inl rfl
  · cases r.rest
    · exact Or.inr (Or.inl rfl)
    · exact Or.inr (Or.inr rfl)

theorem HelioRun.revoked_inFlight (r : HelioRun) : r.revoked.inFlight = r.inFlight := by
  unfold HelioRun.revoked
  split <;> rfl

theorem HelioRun.revoked_counts (r : HelioRun) : r.revoked.silentCount = r.silentCount ∧ r.revoked.busyCount = 0 := by
  unfold HelioRun.revoked
  split <;> exact ⟨rfl, rfl⟩

theorem HelioRun.revoked_leaving (r : HelioRun) : r.revoked.leaving = none := by
  unfold HelioRun.revoked
  split
  · rfl
  · next hl => exact hl

theorem HelioRun.trim_revoked {r : HelioRun} (hc : r.silentCount ≤ 3) : r.revoked.Trim := by
  obtain ⟨h1, h2⟩ := r.revoked_counts
  have hs := r.revoked_state
  refine ⟨fun hl => ?_, fun hst => ?_, ⟨h1 ▸ hc, h2 ▸ Nat.zero_le _⟩, fun hst => ?_⟩
  · simp [HelioRun.revoked_leaving] at hl
  · rcases hs with hs | hs | hs <;> simp [hs] at hst
  · rcases hs with hs | hs | hs <;> simp [hs] at hst

/-- A heliostat that a motion may be owed by: none that is ABSENT, FAULTED or SILENT (R57, R74, R76). -/
def HelioRun.Movable (r : HelioRun) : Prop := r.state ≠ .absent ∧ r.state ≠ .faulted ∧ r.state ≠ .silent

theorem HelioRun.Trim.setOwed {r : HelioRun} (h : r.Trim) (hm : r.Movable) (m : Motion) (c : Cause) : (r.setOwed m c).Trim := by
  obtain ⟨o, b, l, e⟩ := r.reowed_setOwed m c
  have hb : (r.setOwed m c).busyCount ≤ 3 := by
    unfold HelioRun.setOwed
    split
    · exact Nat.zero_le _
    · exact Nat.zero_le _
    · exact h.counts.2
  refine ⟨?_, ?_, ⟨?_, hb⟩, ?_⟩
  · rw [e]; exact h.leaving
  · rw [e]; exact fun hs => absurd hs (not_or.2 hm.2)
  · rw [e]; exact h.counts.1
  · rw [e]; exact h.returning

theorem HelioRun.Sound.loaded {r : HelioRun} (h : r.Sound) (hl : r.holdsLoad = true) : r.Movable := by
  have hg := h.1
  rw [← h.holdsLoad_eq, hl] at hg
  refine ⟨?_, ?_, ?_⟩ <;> intro hs <;> rw [HelioRun.grantState, hs] at hg <;> cases hg

/-- A record in whose state and flight nothing changes. -/
theorem HelioRun.Moves.of_kept {r r' : HelioRun} (hs : r.state ≠ .absent) (hst : r'.state = r.state) (hi : r'.inFlight = r.inFlight)
    (hsound : r'.Sound) (htidy : r.Tidy → r'.Tidy) : r.Moves r' where
  inFlight := hi
  before := hs
  after := hst ▸ hs
  sound := hsound
  tidy := htidy
  served _ _ dest hd := by
    unfold HelioRun.CanReturn at *
    rwa [hst]

/-- A queued heliostat whose grant has been revoked (R37, R38, R59). -/
theorem HelioRun.Moves.of_revoked {r r' : HelioRun} (hr : r.Sound) (hq : r.queued = true)
    (he : ({ r with queued := false } : HelioRun).revoked.Reowed r') (hsound : r'.Sound) (htidy : r.Tidy → r'.Tidy) :
    r.Moves r' ∧ r'.queued = false := by
  have hst := ({ r with queued := false } : HelioRun).revoked_state
  have hi := ({ r with queued := false } : HelioRun).revoked_inFlight
  have hqr := HelioRun.revoked_queued { r with queued := false } rfl
  obtain ⟨-, -, -, -, -, -, -, hqueued⟩ := hr
  obtain ⟨o, b, l, rfl⟩ := he
  refine ⟨⟨hi, ?_, ?_, hsound, htidy, fun _ hn => ?_⟩, hqr⟩
  · rw [(hqueued hq).1]; decide
  · rcases hst with hst | hst | hst <;> simp [hst]
  · rw [hq] at hn; cases hn

/-- The record that a motion is owed to, of a heliostat that is not queued. -/
theorem HelioRun.moves_given {r : HelioRun} (hr : r.Sound) (hm : r.Movable) (hq : r.queued = false) (m : Motion) (c : Cause) :
    r.Moves (r.given m c) ∧ (r.given m c).granted = r.granted := by
  have he : r.given m c = r.by (some c) (r.setOwed m c).nothingRemains := by
    unfold HelioRun.given
    rw [if_neg (by simp [hq])]
  have hsound : (r.given m c).Sound := he ▸ (hr.setOwed m c hq).nothingRemains.by _
  have htidy : r.Tidy → (r.given m c).Tidy := by
    intro ht
    have hg : r.Good := ⟨hr, ht⟩
    have h1 := (hg.trim.setOwed hm m c).tidied
    rw [HelioRun.tidy_setOwed, HelioRun.tidy_eq hr ht] at h1
    exact he ▸ h1.by _
  obtain ⟨o, b, l, e⟩ := ((r.reowed_setOwed m c).trans (HelioRun.reowed_nothingRemains _)).trans
    (HelioRun.reowed_by (some c) r (r.setOwed m c).nothingRemains)
  rw [← he] at e
  exact ⟨.of_kept hm.1 (by rw [e]) (by rw [e]) hsound htidy, by rw [e]⟩

/-- The record that a motion is owed to, of a queued heliostat (R12). -/
theorem HelioRun.moves_given_queued {r : HelioRun} (hr : r.Sound) (hq : r.queued = true) (m : Motion) (c : Cause) :
    r.Moves (r.given m c) := by
  have he : r.given m c = r.by (some c) (({ r with queued := false } : HelioRun).revoked.setOwed m c).nothingRemains := by
    unfold HelioRun.given
    rw [if_pos hq]
  have hsound : (r.given m c).Sound :=
    he ▸ (hr.revoked.setOwed m c (HelioRun.revoked_queued _ rfl)).nothingRemains.by _
  have htidy : r.Tidy → (r.given m c).Tidy := by
    intro ht
    have hst := ({ r with queued := false } : HelioRun).revoked_state
    have h1 := ((HelioRun.trim_revoked (r := { r with queued := false }) ht.counts.1).setOwed
      (by rcases hst with h | h | h <;> simp [HelioRun.Movable, h]) m c).tidied
    rw [HelioRun.tidy_setOwed, HelioRun.tidy_revoked] at h1
    exact he ▸ h1.by _
  refine (HelioRun.Moves.of_revoked hr hq ?_ hsound htidy).1
  rw [he]
  exact ((HelioRun.reowed_setOwed m c _).trans (HelioRun.reowed_nothingRemains _)).trans (HelioRun.reowed_by _ _ _)

/-- The record of a queued heliostat whose entry is withdrawn (R39). -/
def HelioRun.withdrawnFor (c : Cause) (r : HelioRun) : HelioRun :=
  r.by (some c) ({ r with queued := false } : HelioRun).revoked.nothingRemains

theorem HelioRun.moves_withdrawnFor {r : HelioRun} (hr : r.Sound) (hq : r.queued = true) (c : Cause) :
    r.Moves (r.withdrawnFor c) ∧ (r.withdrawnFor c).queued = false := by
  refine HelioRun.Moves.of_revoked hr hq ((HelioRun.reowed_nothingRemains _).trans (HelioRun.reowed_by _ _ _))
    (hr.revoked.nothingRemains.by _) fun ht => ?_
  have h1 := (HelioRun.trim_revoked (r := { r with queued := false }) ht.counts.1).tidied
  rw [HelioRun.tidy_revoked] at h1
  exact h1.by _

/-! ### One heliostat's change in the field -/

section
variable {T : Prop} {env : Env}

theorem Work.run_write (env : Env) {h : Nat} (hh : h < Config.heliostats) (r : HelioRun) (w : Work) (j : Nat) :
    (w.write env h r).fld.run j = if j = h then r else w.fld.run j := by
  by_cases hj : j = h
  · rw [if_pos hj, hj]
    unfold Work.write
    rw [if_pos hh]
    exact (Field.run_record env h r w.fld h).trans (if_pos ⟨rfl, hh⟩)
  · rw [if_neg hj]
    exact Work.run_write_other env (Ne.symm hj) r w

theorem Work.sxeAt_write (env : Env) (h : Nat) (r : HelioRun) (w : Work) (k : Nat) : (w.write env h r).fld.sxeAt k = w.fld.sxeAt k := by
  unfold Field.sxeAt
  rw [Work.sxe_write]

/-- Writing a record that keeps its place in the Move Queue, or its absence from it. -/
theorem Work.lined_write {h : Nat} {r : HelioRun} {w : Work} (hf : w.fld.Lined T env) (hm : (w.fld.run h).Moves r)
    (hq : r.queued = (w.fld.run h).queued) (hg : (w.fld.run h).queued = true → r.granted = (w.fld.run h).granted) :
    (w.write env h r).fld.Lined T env := by
  have hrun := Work.run_write env (hf.placed_of_state hm.before).1 r w
  refine hf.moved (h := h) ⟨fun j hj => ?_, fun k => ⟨_, ?_, fun _ => rfl⟩, ?_, ?_⟩
  · rw [hrun, if_neg hj]
    exact .refl _
  · rw [Work.sxeAt_write]
    exact .refl _
  · rw [hrun, if_pos rfl]
    exact hm
  · rw [hrun, if_pos rfl, Work.sxeAt_write]
    refine .stays (fun e he hh => ?_) (hf.lines.queued h) hq hg
    rw [← hh]
    exact (hf.lines.entry _ e he).2

theorem Work.quiet_put (env : Env) (h : Nat) (r : HelioRun) (w : Work) : (w.write env h r).fld.Quiet (w.put env h r).fld := by
  unfold Work.put
  dsimp only
  split
  · exact Work.quiet_report _ _
  · exact .refl _

theorem Work.lined_put {h : Nat} {r : HelioRun} {w : Work} (hf : w.fld.Lined T env) (hm : (w.fld.run h).Moves r)
    (hq : r.queued = (w.fld.run h).queued) (hg : (w.fld.run h).queued = true → r.granted = (w.fld.run h).granted) :
    (w.put env h r).fld.Lined T env := (Work.lined_write hf hm hq hg).quiet (Work.quiet_put env h r w)

theorem Field.sxeAt_dropEntry {seg : Nat} (hs : seg < Config.segments) (h : Nat) (f : Field) (k : Nat) :
    ∃ b, (f.dropEntry seg h).sxeAt k = if k = seg then
      { f.sxeAt seg with queue := (f.sxeAt seg).queue.filter (fun e => e.helio != h), spaceFreed := b } else f.sxeAt k := by
  unfold Field.dropEntry
  dsimp only
  split
  · rw [Field.sxeAt_setSxe]
    refine ⟨true, ?_⟩
    by_cases hk : k = seg
    · rw [if_pos hk, if_pos ⟨hk.symm, hs⟩]
    · rw [if_neg hk, if_neg fun c => hk c.1.symm]
  · next hn =>
    refine ⟨(f.sxeAt seg).spaceFreed, ?_⟩
    split
    · next hk =>
      rw [List.filter_eq_self.2, hk]
      intro e he
      simp only [List.any_eq_true, beq_iff_eq, not_exists, not_and] at hn
      simpa using hn e he
    · rfl

/-- Writing a record whose Move Queue entry leaves the queue. -/
theorem Work.lined_dropWrite {h : Nat} {r : HelioRun} {w : Work} (hf : w.fld.Lined T env) (hm : (w.fld.run h).Moves r)
    (hq : r.queued = false) : ((w.dropEntry env h).write env h r).fld.Lined T env := by
  obtain ⟨hlt, hseg⟩ := hf.placed_of_state hm.before
  have hrun := Work.run_write env hlt r (w.dropEntry env h)
  refine hf.moved (h := h) ⟨fun j hj => ?_, fun k => ?_, ?_, ?_⟩
  · rw [hrun, if_neg hj, Work.run_dropEntry]
    exact .refl _
  · rw [Work.sxeAt_write]
    obtain ⟨b, e⟩ := Field.sxeAt_dropEntry hseg h w.fld k
    rw [show (w.dropEntry env h).fld.sxeAt k = _ from e]
    split
    · next hk =>
      subst hk
      exact ⟨_, ⟨b, _, rfl⟩, fun hk => absurd rfl hk⟩
    · exact ⟨_, .refl _, fun _ => rfl⟩
  · rw [hrun, if_pos rfl]
    exact hm
  · rw [hrun, if_pos rfl, Work.sxeAt_write]
    obtain ⟨b, e⟩ := Field.sxeAt_dropEntry hseg h w.fld (env.segmentOf h)
    rw [show (w.dropEntry env h).fld.sxeAt (env.segmentOf h) = _ from e, if_pos rfl]
    exact .leaves hq

theorem Work.lined_dropPut {h : Nat} {r : HelioRun} {w : Work} (hf : w.fld.Lined T env) (hm : (w.fld.run h).Moves r)
    (hq : r.queued = false) : ((w.dropEntry env h).put env h r).fld.Lined T env :=
  (Work.lined_dropWrite hf hm hq).quiet (Work.quiet_put env h r _)

/-- Writing a record whose new grant joins the tail of the Move Queue, in a work `v` that differs from the written one in nothing the lines
see but that entry. -/
theorem Work.lined_enqueue {h a : Nat} {o : Origin} {r : HelioRun} {w v : Work} (hf : w.fld.Lined T env) (hm : (w.fld.run h).Moves r)
    (hold : (w.fld.run h).queued = false) (hi : (w.fld.run h).inFlight = false) (hq : r.queued = true) (hg : r.granted = some a)
    (hlen : (w.fld.sxeAt (env.segmentOf h)).queue.length < Config.moveQueue)
    (hrun : ∀ j, v.fld.run j = if j = h then r else w.fld.run j) (hs : ∀ k, v.fld.sxeAt k = w.fld.sxeAt k) : (v.enqueue env ⟨h, a, o⟩).fld.Lined T env := by
  obtain ⟨hlt, hseg⟩ := hf.placed_of_state hm.before
  have he : (v.enqueue env ⟨h, a, o⟩).fld = v.fld.setSxe (env.segmentOf h)
      { v.fld.sxeAt (env.segmentOf h) with queue := (v.fld.sxeAt (env.segmentOf h)).queue ++ [⟨h, a, o⟩] } := by
    unfold Work.enqueue
    dsimp only
    rw [if_pos (by rw [hs]; exact hlen)]
  have hrun' : ∀ j, (v.enqueue env ⟨h, a, o⟩).fld.run j = if j = h then r else w.fld.run j := by
    intro j
    rw [he, Field.run_setSxe, hrun]
  have hsxe' : ∀ k, (v.enqueue env ⟨h, a, o⟩).fld.sxeAt k = if k = env.segmentOf h then
      { w.fld.sxeAt k with queue := (w.fld.sxeAt k).queue ++ [⟨h, a, o⟩] } else w.fld.sxeAt k := by
    intro k
    rw [he, Field.sxeAt_setSxe]
    by_cases hk : k = env.segmentOf h
    · rw [if_pos hk, if_pos ⟨hk.symm, hseg⟩, hs, hk]
    · rw [if_neg hk, if_neg fun c => hk c.1.symm, hs]
  refine hf.moved (h := h) ⟨fun j hj => ?_, fun k => ?_, ?_, ?_⟩
  · rw [hrun', if_neg hj]
    exact .refl _
  · rw [hsxe']
    split
    · next hk => exact ⟨_, .refl _, fun h => absurd hk h⟩
    · exact ⟨_, .refl _, fun _ => rfl⟩
  · rw [hrun', if_pos rfl]
    exact hm
  · rw [hrun', if_pos rfl, hsxe', if_pos rfl]
    exact .joins (hf.lines.no_entry hold) hi hq hg

end

end Sys2Proof.Machine
end

section
/-! PROOFS for the segment lines: the operations of the FAU, the PE and the RW over the field (R11, R28 to R47, R93, R114 to R123, R159). -/

namespace Sys2Proof.Machine

variable {T : Prop} {env : Env} {w : Work}

/-- A fold of operations that keep the facts keeps them. -/
theorem Work.lined_foldl {β : Type} {op : Work → β → Work} {l : List β} (hop : ∀ w : Work, ∀ b ∈ l, w.fld.Lined T env → (op w b).fld.Lined T env)
    (hf : w.fld.Lined T env) : (l.foldl op w).fld.Lined T env := by
  induction l generalizing w with
  | nil => exact hf
  | cons b l ih => exact ih (fun w c hc => hop w c (by simp [hc])) (hop w b (by simp) hf)

/-! ### Withdrawals and owed motions -/

theorem Work.lined_withdraw (hf : w.fld.Lined T env) (c : Cause) (h : Nat) : (w.withdraw env c h).fld.Lined T env := by
  unfold Work.withdraw
  dsimp only
  split
  · next hq =>
    obtain ⟨hm, hq'⟩ := HelioRun.moves_withdrawnFor (hf.records h) hq c
    exact (Work.lined_dropPut hf hm hq').quiet (Work.quiet_follow _ _ _ _)
  · exact hf

theorem Work.lined_withdrawAll (hf : w.fld.Lined T env) (c : Cause) (p : Entry → Bool) : (w.withdrawAll env c p).fld.Lined T env :=
  Work.lined_foldl (fun _ e _ hf => Work.lined_withdraw hf c e.helio) hf

theorem Work.lined_owe (hf : w.fld.Lined T env) (m : Motion) (c : Cause) {h : Nat} (hm : (w.fld.run h).Movable) :
    (w.owe env m c h).fld.Lined T env := by
  rw [Work.owe_eq]
  split
  · next hq =>
    exact (Work.lined_dropPut hf (HelioRun.moves_given_queued (hf.records h) hq m c) (HelioRun.given_queued m c _)).quiet
      (Work.quiet_follow _ _ _ _)
  · next hq =>
    have hq : (w.fld.run h).queued = false := by simpa using hq
    obtain ⟨hmoves, hg⟩ := HelioRun.moves_given (hf.records h) hm hq m c
    exact Work.lined_put hf hmoves ((HelioRun.given_queued m c _).trans hq.symm) fun _ => hg

theorem HelioRun.movable_given {r : HelioRun} (hm : r.Movable) (m : Motion) (c : Cause) : (r.given m c).Movable := by
  have hst : (r.given m c).state = (if r.queued then ({ r with queued := false } : HelioRun).revoked else r).state := by
    obtain ⟨o, b, l, e⟩ := ((HelioRun.reowed_setOwed m c (if r.queued then ({ r with queued := false } : HelioRun).revoked else r)).trans
      (HelioRun.reowed_nothingRemains _)).trans (HelioRun.reowed_by (some c) r _)
    unfold HelioRun.given
    rw [e]
  unfold HelioRun.Movable
  rw [hst]
  split
  · rcases ({ r with queued := false } : HelioRun).revoked_state with h | h | h <;> simp [h]
  · exact hm

theorem Work.movable_owe (hf : w.fld.Lined T env) (m : Motion) (c : Cause) {h j : Nat} (hm : (w.fld.run h).Movable)
    (hj : (w.fld.run j).Movable) : ((w.owe env m c h).fld.run j).Movable := by
  by_cases e : h = j
  · subst e
    rw [Work.run_owe_same env m c (hf.placed_of_state hm.1).1]
    exact HelioRun.movable_given hm m c
  · rw [Work.run_owe_other env m c e]
    exact hj

/-- Owing a motion to heliostats that may owe one, in turn. -/
theorem Work.lined_oweAll (hf : w.fld.Lined T env) (m : Motion) (c : Cause) {hs : List Nat} (hm : ∀ h ∈ hs, (w.fld.run h).Movable) :
    (hs.foldl (fun (w : Work) h => w.owe env m c h) w).fld.Lined T env := by
  induction hs generalizing w with
  | nil => exact hf
  | cons h hs ih =>
    have hh := hm h (by simp)
    exact ih (Work.lined_owe hf m c hh) fun j hj => Work.movable_owe hf m c hh (hm j (by simp [hj]))

theorem Field.Lined.holders {f : Field} (hf : f.Lined T env) (hc : Table.wf Config.heliostats HelioRun.blank f.helio) {h : Nat}
    (hm : h ∈ f.holders) : (f.run h).Movable := by
  obtain ⟨p, hp, rfl⟩ := List.mem_map.1 hm
  obtain ⟨hp, hl⟩ := List.mem_filter.1 hp
  have hr : f.run p.1 = p.2 := Table.get_of_mem hc hp
  exact (hf.records p.1).loaded (hr ▸ hl)

/-- Owing a motion to members of a group that R14 does not refuse. -/
theorem Work.lined_oweMembers (hf : w.fld.Lined T env) (m : Motion) (c : Cause) {hs : List Nat}
    (hp : ∀ h ∈ hs, (env.live.helioAt h).present = true) : (w.oweMembers env m c hs).1.fld.Lined T env := by
  rw [Work.oweMembers_eq]
  suffices key : ∀ (l : List Nat) (p : Work × Nat), (∀ h ∈ l, (env.live.helioAt h).present = true) → p.1.fld.Lined T env →
      (l.foldl (Work.oweMember env m c) p).1.fld.Lined T env from key hs (w, 0) hp hf
  intro l
  induction l with
  | nil => exact fun _ _ hf => hf
  | cons h l ih =>
    intro p hl hf
    refine ih _ (fun j hj => hl j (by simp [hj])) ?_
    unfold Work.oweMember
    split
    · exact hf
    · next hn =>
      refine Work.lined_owe hf m c ⟨(hf.present h).1 (hl h (by simp)), ?_⟩
      unfold Field.refusedMotion HelioRun.motionRefusal at hn
      refine ⟨fun hs => hn ?_, fun hs => hn ?_⟩ <;> simp [hs]

/-! ### Shedding and the trip record -/

theorem Work.movable_of_covers (hf : w.fld.Lined T env) {z h : Nat} (hc : env.covers (w.fld.run h) z = true) :
    (w.fld.run h).Movable := by
  refine (hf.records h).loaded ?_
  rw [HelioRun.holdsLoad_eq_aims]
  unfold Env.covers at hc
  cases ha : (w.fld.run h).aims with
  | nil => rw [ha] at hc; cases hc
  | cons a l => rfl

theorem Work.lined_shed (hf : w.fld.Lined T env) {z h : Nat} (hc : w.candidate env z h = true) : (w.shed env z h).fld.Lined T env := by
  unfold Work.candidate at hc
  simp only [Bool.and_eq_true] at hc
  unfold Work.shed
  split
  · have hw := Work.lined_withdraw hf .shed h
    dsimp only
    split
    · next hx =>
      simp only [Bool.and_eq_true] at hx
      exact Work.lined_owe hw _ _ (Work.movable_of_covers hw hx.1)
    · exact hw
  · exact Work.lined_owe hf _ _ (Work.movable_of_covers hf hc.1.1.1)

theorem Work.lined_walk (z : Nat) (l : List Nat) (hf : w.fld.Lined T env) : (w.walk env z l).fld.Lined T env := by
  induction l generalizing w with
  | nil => exact hf
  | cons h l ih =>
    unfold Work.walk
    split
    · refine ih ?_
      split
      · next hc => exact Work.lined_shed hf hc
      · exact hf
    · exact hf

theorem Work.lined_shedTest (z : Nat) (hf : w.fld.Lined T env) : (w.shedTest env z).fld.Lined T env := by
  unfold Work.shedTest
  dsimp only
  refine Field.Lined.quiet ?_ (Work.quiet_setUnsheddable z _ _)
  split
  · exact (Work.lined_walk z _ hf).quiet (Work.quiet_evalOver z _)
  · exact hf

theorem Work.lined_settle (n : Nat) (hf : w.fld.Lined T env) : (w.settle env n).fld.Lined T env := by
  induction n generalizing w with
  | zero => exact hf
  | succ n ih =>
    unfold Work.settle
    split
    · exact hf
    · next z t _ => exact ih (Work.lined_shedTest z (hf.quiet (Work.quiet_evalOver z { w with touched := t })))

theorem Work.lined_settleNow (hf : w.fld.Lined T env) : (w.settleNow env).fld.Lined T env := Work.lined_settle _ hf

theorem Work.lined_finish (hf : w.fld.Lined T env) : (w.finish env).Lined T env :=
  (Work.lined_settleNow hf).quiet (Work.quiet_evalTrip env _)

/-! ### The onsets -/

theorem Work.lined_criticalOnset (hf : w.fld.Lined T env) (z : Nat) : (w.criticalOnset env z).fld.Lined T env := by
  unfold Work.criticalOnset
  have hw := Work.lined_withdrawAll (w := { w with onset := true }) hf .critical (fun e => env.aimCovers e.aim z)
  exact Work.lined_oweAll hw _ _ fun h hh => Work.movable_of_covers hw (List.mem_filter.1 hh).2

theorem Work.lined_safeActions (hc : w.fld.Canonical) (hf : w.fld.Lined T env) : (w.safeActions env).fld.Lined T env := by
  unfold Work.safeActions
  have hw := Work.lined_withdrawAll (hf.quiet (w.quiet_endAll .safe)) .safe (fun _ => true)
  have hreach : Field.Reach env.live w.fld ((w.endAll .safe).1.withdrawAll env .safe (fun _ => true)).fld :=
    (Work.reach_endAll .safe w).trans (Work.reach_withdrawAll _ _ _)
  have hc' := hreach.keeps (P := Field.Canonical) (fun _ _ hp h => hp.canonical h) hc
  exact Work.lined_oweAll hw _ _ fun h hh => hw.holders hc'.1 hh

theorem Work.lined_rejudge (hf : w.fld.Lined T env) (z : Nat) (v : ZoneRun) : (w.rejudge env z v).fld.Lined T env := by
  unfold Work.rejudge
  dsimp only
  have hw := hf.quiet (w.quiet_setConditions z v)
  refine Field.Lined.quiet ?_ (Work.quiet_rebudget env z _)
  split
  · exact Work.lined_criticalOnset hw z
  · exact hw

/-! ### Grants (R31 to R35) -/

/-- The checks of R31 that grant have found room in the Move Queue. -/
theorem Field.admitMotion_room {h a : Nat} {f : Field} (hg : f.admitMotion env h a = .granted) :
    (f.sxeAt (env.segmentOf h)).queue.length < Config.moveQueue := by
  unfold Field.admitMotion at hg
  dsimp only at hg
  repeat' split at hg
  all_goals cases hg
  next hlen => exact Nat.lt_of_not_le hlen

theorem Work.run_toNewest (h : Nat) (w : Work) (j : Nat) : (w.toNewest h).fld.run j = w.fld.run j := by
  unfold Work.toNewest
  split <;> rfl

theorem Work.sxeAt_toNewest (h : Nat) (w : Work) (k : Nat) : (w.toNewest h).fld.sxeAt k = w.fld.sxeAt k := by
  unfold Work.toNewest
  split <;> rfl

theorem Work.lined_grant (hf : w.fld.Lined T env) {h a : Nat} (hg : w.fld.admitMotion env h a = .granted) (o : Origin) (c : Cause) :
    (w.grant env h a o c).fld.Lined T env := by
  obtain ⟨hst, hq, ho, hi, hn⟩ := Field.admitMotion_granted hg
  unfold Work.grant
  dsimp only
  generalize hr : ({ w.fld.run h with
      granted := some a, leaving := if (w.fld.run h).state = .tracking then (w.fld.run h).granted else none, state := .slewing
      motionCause := some c, accepted := false, busyCount := 0, queued := true, origin := some o
      reAim := (w.fld.run h).state == .tracking } : HelioRun) = r1
  have hsound : r1.Sound := by
    obtain ⟨h1, h2, h3, h4, h5, h6, h7, h8⟩ := hf.records h
    rcases hst with hs | hs | hs <;> subst hr <;> simp_all [HelioRun.Sound, HelioRun.grantState]
    exact fun hc => hn hc.symm
  have htidy : (w.fld.run h).Tidy → r1.Tidy := by
    intro ht
    have hcount := ht.counts.1
    rcases hst with hs | hs | hs <;> subst hr <;> constructor <;> simp_all
  obtain ⟨b, cause, l, e⟩ := HelioRun.reowed_by (some c) (w.fld.run h) r1
  have hm : (w.fld.run h).Moves ((w.fld.run h).by (some c) r1) := by
    refine ⟨?_, ?_, ?_, hsound.by _, fun ht => (htidy ht).by _, fun hi' => ?_⟩
    · rw [e, ← hr]
    · rcases hst with hs | hs | hs <;> simp [hs]
    · rw [e, ← hr]; simp
    · rw [hi] at hi'; cases hi'
  refine Field.Lined.quiet ?_ (Work.quiet_report _ _)
  refine Work.lined_enqueue hf hm hq hi ?_ ?_ (Field.admitMotion_room hg) (fun j => ?_) fun k => ?_
  · rw [e, ← hr]
  · rw [e, ← hr]
  · rw [Work.run_toNewest, Work.run_write env (hf.placed_of_state hm.before).1]
  · rw [Work.sxeAt_toNewest, Work.sxeAt_write]

/-! ### The steps of a program (R114 to R123) -/

theorem Work.lined_takeMember (hf : w.fld.Lined T env) {k h a : Nat} {w1 : Work} {b : Bool} (ht : w.takeMember env k h a = .taken w1 b) :
    w1.fld.Lined T env := by
  unfold Work.takeMember at ht
  split at ht
  · cases ht; exact hf.quiet (Work.quiet_settleWith k h a w)
  · split at ht
    · cases ht; exact hf.quiet (Work.quiet_settleWith k h a w)
    · next hg =>
      cases ht
      unfold Field.admitMember at hg
      split at hg
      · exact (Work.lined_grant hf hg _ _).quiet (Work.quiet_settleWith k h a _)
      · cases hg
    · cases ht; exact hf.quiet (Work.quiet_refuseMember k h _ _ _ w)
    · cases ht; exact hf.quiet (Work.quiet_refuseMember k h _ _ _ w)
    · cases ht
    · cases ht; exact hf.quiet (Work.quiet_refuseMember k h _ _ _ w)

theorem Work.lined_takeMembers (k first spread : Nat) (l : List Nat) (j : Nat) (short : Bool) (hf : w.fld.Lined T env) :
    (w.takeMembers env k first spread j l short).1.fld.Lined T env := by
  induction l generalizing j short w with
  | nil => exact hf
  | cons h l ih =>
    unfold Work.takeMembers
    split
    · exact hf
    · next w1 b ht => exact ih _ _ (Work.lined_takeMember hf ht)

theorem Work.lined_aimGroupFrom (k first spread : Nat) (flags : AimFlags) (j : Nat) (members : List Nat) (short : Bool)
    (hf : w.fld.Lined T env) : (w.aimGroupFrom env k first spread flags j members short).fld.Lined T env := by
  have h := Work.lined_takeMembers k first spread members j short hf
  unfold Work.aimGroupFrom
  split
  · next w1 j1 rest short1 he =>
    rw [he] at h
    exact (h.quiet (Field.quiet_clearFreed _)).quiet (Work.quiet_waitFor k _ { w1 with fld := w1.fld.clearFreed })
  · next w1 short1 he =>
    rw [he] at h
    split
    · exact h.quiet (Work.quiet_completeStep k _ w1)
    · split
      · exact h.quiet (Work.quiet_waitFor k _ w1)
      · exact h.quiet (Work.quiet_completeStep k _ w1)

theorem Work.lined_beginAimGroup (k group first spread : Nat) (expected : Option Nat) (flags : AimFlags) (hf : w.fld.Lined T env) :
    (w.beginAimGroup env k group first spread expected flags).fld.Lined T env := by
  have hw : ∀ b, (w.freshStep k b).fld.Lined T env := fun b => hf.quiet (w.quiet_freshStep k b)
  unfold Work.beginAimGroup
  dsimp only
  split
  · exact (hw _).quiet (Work.quiet_completeStep k _ _)
  · exact Work.lined_aimGroupFrom k first spread flags 0 _ false (hw _)

theorem Work.lined_moveGroup (k group : Nat) (settle : Bool) (m : Motion) (hf : w.fld.Lined T env) :
    (w.moveGroup env k group settle m).fld.Lined T env := by
  have h := Work.lined_settleNow (Work.lined_oweMembers hf m .program
    fun h hh => Tables.present_of_mem_members (g := group) hf.tables hh)
  unfold Work.moveGroup
  dsimp only
  split
  · exact h.quiet (Work.quiet_waitFor k _ _)
  · exact h.quiet (Work.quiet_completeStep k _ _)

/-! ### Cleared faults, given-up heliostats and timed-out slews -/

theorem HelioRun.Good.faultCleared {r : HelioRun} (h : r.Good) (hs : r.state = .faulted) :
    ({ r with state := .unsure, fault := none, silentCount := 0, busyCount := 0 } : HelioRun).Tidy := by
  have ho := h.tidy.idle (Or.inl hs)
  obtain ⟨h1, h2, h3, h4, h5, h6, h7, h8⟩ := h.tidy
  constructor <;> simp_all

theorem Work.lined_clearFault (hf : w.fld.Lined T env) (h : Nat) : (w.clearFault env h).fld.Lined T env := by
  unfold Work.clearFault
  dsimp only
  split
  · next hs =>
    have hr := hf.records h
    have hq := hr.not_queued (by simp [hs])
    have hg : (w.fld.run h).grantState = false := by simp [HelioRun.grantState, hs]
    have hsound : ({ w.fld.run h with state := .unsure, fault := none, silentCount := 0, busyCount := 0 } : HelioRun).Sound := by
      obtain ⟨hg1, hg2⟩ := hr.no_aims hg
      obtain ⟨h1, h2, h3, h4, h5, h6, h7, h8⟩ := hr
      simp_all [HelioRun.Sound, HelioRun.grantState]
    obtain ⟨o, b, l, e⟩ := HelioRun.reowed_by (some .cleared) (w.fld.run h)
      { w.fld.run h with state := .unsure, fault := none, silentCount := 0, busyCount := 0 }
    refine Work.lined_put hf ⟨by rw [e], by simp [hs], by rw [e]; simp, hsound.by _, fun ht => ?_, fun _ _ dest hd => ?_⟩
      (by rw [e]) (fun hq' => by rw [hq] at hq'; cases hq')
    · exact (HelioRun.Good.faultCleared ⟨hr, ht⟩ hs).by _
    · exact absurd hs hd.2.2.1
  · exact hf

theorem Work.lined_giveUp (hf : w.fld.Lined T env) (h : Nat) : (w.giveUp env h).fld.Lined T env := by
  unfold Work.giveUp
  dsimp only
  split
  · next hs =>
    have hr := hf.records h
    have hq := hr.not_queued (by simp [hs])
    have hg : (w.fld.run h).grantState = false := by simp [HelioRun.grantState, hs]
    have hsound : ({ (w.fld.run h).clearOwed with state := .lost, unaccounted := true } : HelioRun).Sound := by
      obtain ⟨hg1, hg2⟩ := hr.no_aims hg
      obtain ⟨h1, h2, h3, h4, h5, h6, h7, h8⟩ := hr
      simp_all [HelioRun.Sound, HelioRun.grantState, HelioRun.clearOwed]
    have htidy : (w.fld.run h).Tidy → ({ (w.fld.run h).clearOwed with state := .lost, unaccounted := true } : HelioRun).Tidy := by
      rintro ⟨h1, h2, h3, h4, h5, h6, h7, h8⟩
      constructor <;> simp_all [HelioRun.clearOwed]
      split <;> omega
    obtain ⟨o, b, l, e⟩ := HelioRun.reowed_by (some .survey) (w.fld.run h)
      { (w.fld.run h).clearOwed with state := .lost, unaccounted := true }
    refine Work.lined_put hf ⟨by rw [e]; rfl, by simp [hs], by rw [e]; simp, hsound.by _, fun ht => (htidy ht).by _,
      fun _ _ dest hd => ?_⟩ (by rw [e]; rfl) (fun hq' => by rw [hq] at hq'; cases hq')
    rw [e]
    simp [HelioRun.CanReturn]
  · exact hf

end Sys2Proof.Machine
end

section
/-! PROOFS for the segment lines: the outcome of an exchange (R56, R57, R68 to R80) keeps the heliostat present, in flight as it was, tidy
where it was, and in the Move Queue exactly where its entry stays. -/

namespace Sys2Proof.Machine

/-- An outcome that is faithful to the record `r0` it began with: the Move Queue entry leaves the queue exactly where the record stops being
queued, and none joins it. -/
structure Edit.Faithful (r0 : HelioRun) (e : Edit) : Prop where
  sound : e.r.Sound
  tidy : r0.Tidy → e.r.Tidy
  inFlight : e.r.inFlight = r0.inFlight
  state : e.r.state ≠ .absent
  queued : e.r.queued = true → r0.queued = true ∧ e.drop = false ∧ e.r.granted = r0.granted
  dropped : e.drop = true → r0.queued = true
  leaves : r0.queued = true → e.r.queued = false → e.drop = true
  stays : e.requeue = false

/-- An outcome that puts an unqueued heliostat back into the Move Queue (R69). -/
structure Edit.Requeues (r0 : HelioRun) (e : Edit) : Prop where
  sound : e.r.Sound
  tidy : r0.Tidy → e.r.Tidy
  inFlight : e.r.inFlight = r0.inFlight
  state : e.r.state = .slewing
  unqueued : r0.queued = false
  queued : e.r.queued = true
  kept : e.drop = false
  requeue : e.requeue = true

variable {r0 : HelioRun} {e : Edit} {env : Env} {f : Field}

theorem Edit.Faithful.start (hs : r0.Sound) (ha : r0.state ≠ .absent) : (Edit.of r0).Faithful r0 where
  sound := hs
  tidy := id
  inFlight := rfl
  state := ha
  queued hq := ⟨hq, rfl, rfl⟩
  dropped := nofun
  leaves hq hn := by rw [show (Edit.of r0).r.queued = r0.queued from rfl, hq] at hn; cases hn
  stays := rfl

theorem Edit.Faithful.not_queued (h : e.Faithful r0) (hq : r0.queued = false) : e.r.queued = false := by
  by_contra hc
  rw [(h.queued (by simpa using hc)).1] at hq
  cases hq

/-! ### The operations that an outcome is made of -/

/-- A change of the record that leaves its Move Queue entry alone. -/
theorem Edit.Faithful.changed {r : HelioRun} (h : e.Faithful r0) (hsound : r.Sound) (htidy : e.r.Good → r.Tidy)
    (hi : r.inFlight = e.r.inFlight) (hst : r.state ≠ .absent) (hq : r.queued = e.r.queued)
    (hg : e.r.queued = true → r.granted = e.r.granted) : ({ e with r := r } : Edit).Faithful r0 where
  sound := hsound
  tidy ht := htidy ⟨h.sound, h.tidy ht⟩
  inFlight := hi.trans h.inFlight
  state := hst
  queued hq' := by
    have hq' : e.r.queued = true := hq ▸ hq'
    obtain ⟨h1, h2, h3⟩ := h.queued hq'
    exact ⟨h1, h2, (hg hq').trans h3⟩
  dropped := h.dropped
  leaves h1 h2 := h.leaves h1 (hq ▸ h2)
  stays := h.stays

theorem HelioRun.tidied_fields (c : Option Cause) (old new : HelioRun) :
    (old.by c new.tidy.nothingRemains).state = new.state ∧ (old.by c new.tidy.nothingRemains).inFlight = new.inFlight
      ∧ (old.by c new.tidy.nothingRemains).queued = (new.state == .slewing && new.queued)
      ∧ (old.by c new.tidy.nothingRemains).granted = new.granted := by
  obtain ⟨o, b, l, h⟩ := (HelioRun.reowed_nothingRemains new.tidy).trans (HelioRun.reowed_by c old new.tidy.nothingRemains)
  rw [h]
  exact ⟨rfl, rfl, rfl, rfl⟩

/-- A tidied change (R6, R11) of a record that, where it is queued, stays SLEWING with its grant. -/
theorem Edit.Faithful.set {new : HelioRun} (h : e.Faithful r0) (c : Option Cause) (hfit : new.Fit) (htrim : e.r.Good → new.Trim)
    (hi : new.inFlight = e.r.inFlight) (hst : new.state ≠ .absent) (hq : new.queued = e.r.queued)
    (hkeep : e.r.queued = true → new.state = .slewing ∧ new.granted = e.r.granted) : (e.set c new).Faithful r0 := by
  obtain ⟨h1, h2, h3, h4⟩ := HelioRun.tidied_fields c e.r new
  refine h.changed (Edit.sound_set c hfit) (fun hg => (htrim hg).tidied.by c) (h2.trans hi) (by rw [h1]; exact hst) ?_ fun hq' => ?_
  · rw [h3, hq]
    cases hq' : e.r.queued
    · simp
    · simp [(hkeep hq').1]
  · rw [h4, (hkeep hq').2]

/-- A change of a record without a Move Queue entry. -/
theorem Edit.Faithful.setUnqueued {new : HelioRun} (h : e.Faithful r0) (hn : e.r.queued = false) (c : Option Cause) (hfit : new.Fit)
    (htrim : e.r.Good → new.Trim) (hi : new.inFlight = e.r.inFlight) (hst : new.state ≠ .absent) (hq : new.queued = e.r.queued) :
    (e.set c new).Faithful r0 :=
  h.set c hfit htrim hi hst hq fun hq' => by rw [hn] at hq'; cases hq'

/-- An outcome whose entry has left the queue with its record's queued mark. -/
theorem Edit.Faithful.withdrawn {r : HelioRun} {d : Bool} (h : e.Faithful r0) (hsound : r.Sound) (htidy : e.r.Good → r.Tidy)
    (hi : r.inFlight = e.r.inFlight) (hst : r.state ≠ .absent) (hq : r.queued = false) (hd : d = (e.drop || e.r.queued))
    (v : Option (Nat × Bool)) : ({ e with r := r, drop := d, revoked := v } : Edit).Faithful r0 where
  sound := hsound
  tidy ht := htidy ⟨h.sound, h.tidy ht⟩
  inFlight := hi.trans h.inFlight
  state := hst
  queued hq' := by rw [show r.queued = false from hq] at hq'; cases hq'
  dropped hd' := by
    have hd' : (e.drop || e.r.queued) = true := hd ▸ hd'
    rcases Bool.or_eq_true _ _ ▸ hd' with h1 | h1
    · exact h.dropped h1
    · exact (h.queued h1).1
  leaves h1 _ := by
    show d = true
    rw [hd]
    cases hq' : e.r.queued
    · simp [h.leaves h1 hq']
    · simp
  stays := h.stays

/-- What a revoked grant leaves of a record (R37, R38). -/
theorem HelioRun.Reowed.of_revoked {r r' : HelioRun} (h : ({ r with queued := false } : HelioRun).revoked.Reowed r') :
    r'.inFlight = r.inFlight ∧ r'.state ≠ .absent ∧ r'.queued = false := by
  have hi := ({ r with queued := false } : HelioRun).revoked_inFlight
  have hq := HelioRun.revoked_queued { r with queued := false } rfl
  have hst := ({ r with queued := false } : HelioRun).revoked_state
  obtain ⟨o, b, l, rfl⟩ := h
  refine ⟨hi, ?_, hq⟩
  rcases hst with hs | hs | hs <;> simp [hs]

theorem Edit.Faithful.revoke (h : e.Faithful r0) (c : Cause) : (e.revoke c).Faithful r0 := by
  obtain ⟨hi, hst, hq⟩ := HelioRun.Reowed.of_revoked (r := e.r) (r' := (e.revoke c).r)
    ((HelioRun.reowed_nothingRemains _).trans (HelioRun.reowed_by _ _ _))
  refine h.withdrawn (Edit.sound_revoke c h.sound) (fun hg => ?_) hi hst hq rfl _
  have h1 := (HelioRun.trim_revoked (r := { e.r with queued := false }) hg.tidy.counts.1).tidied
  rw [HelioRun.tidy_revoked] at h1
  exact h1.by _

theorem Edit.Faithful.owe (h : e.Faithful r0) (hm : e.r.Movable) (m : Motion) (c c' : Cause) : (e.owe m c c').Faithful r0 := by
  have hsound := Edit.sound_owe m c c' h.sound
  unfold Edit.owe at hsound ⊢
  split
  · next hq =>
    rw [if_pos hq] at hsound
    obtain ⟨hi, hst, hn⟩ := HelioRun.Reowed.of_revoked (r := e.r) (((HelioRun.reowed_setOwed m c _).trans
      (HelioRun.reowed_nothingRemains _)).trans (HelioRun.reowed_by (some c') e.r _))
    refine h.withdrawn hsound (fun hg => ?_) hi hst hn (by simp [hq]) _
    have h1 := ((HelioRun.trim_revoked (r := { e.r with queued := false }) hg.tidy.counts.1).setOwed
      (by rcases ({ e.r with queued := false } : HelioRun).revoked_state with h | h | h <;> simp [HelioRun.Movable, h]) m c).tidied
    rw [HelioRun.tidy_setOwed, HelioRun.tidy_revoked] at h1
    exact h1.by _
  · next hq =>
    have hq : e.r.queued = false := by simpa using hq
    obtain ⟨o, b, l, hr⟩ := HelioRun.reowed_setOwed m c e.r
    exact h.setUnqueued hq _ (h.sound.setOwed m c hq).fit (fun hg => hg.trim.setOwed hm m c) (by rw [hr]) (by rw [hr]; exact hm.1)
      (by rw [hr])

theorem Edit.Faithful.takeUp (h : e.Faithful r0) (hs : e.r.state = .slewing) : (e.takeUp env).Faithful r0 :=
  h.withdrawn (Edit.sound_takeUp (env := env) h.sound hs) (fun hg => (hg.underWay hs env.now env.live.slewLimit).tidy) rfl h.state rfl
    rfl _

theorem Edit.Faithful.arriveOnAim (h : e.Faithful r0) (hq : e.r.queued = false) (hg : e.r.granted.isSome) :
    e.arriveOnAim.Faithful r0 := by
  refine h.setUnqueued hq _ ?_ (fun hr => ?_) rfl nofun rfl
  · constructor <;> simp [HelioRun.grantState, hg]
  · constructor <;> simp [hr.tidy.counts]

/-- Coming to rest. -/
theorem Edit.Faithful.atRest (h : e.Faithful r0) (hq : e.r.queued = false) (c : Option Cause) (p : Rest) :
    (e.set c (e.r.atRest p)).Faithful r0 := by
  refine h.setUnqueued hq _ (HelioRun.fit_atRest _ _) (fun hr => ?_) rfl ?_ rfl
  · cases p <;> constructor <;> simp [HelioRun.atRest, hr.tidy.counts]
  · cases p <;> simp [HelioRun.atRest]

/-- The release of a leaving aim. -/
theorem Edit.Faithful.dropLeaving (h : e.Faithful r0) (c : Option Cause) : (e.set c { e.r with leaving := none }).Faithful r0 := by
  refine h.set c h.sound.dropLeaving.fit (fun hr => hr.dropLeaving.trim) rfl h.state rfl fun hq => ⟨?_, rfl⟩
  obtain ⟨-, -, -, -, -, -, -, hqueued⟩ := h.sound
  exact (hqueued hq).1

theorem Edit.Faithful.adopt (h : e.Faithful r0) (hq : e.r.queued = false) (a : Nat) : (e.adopt env f a).Faithful r0 := by
  have hfit : ({ e.r with granted := some a, leaving := none, state := .tracking, unaccounted := false } : HelioRun).Fit := by
    constructor <;> simp [HelioRun.grantState]
  have htrim : e.r.Good → ({ e.r with granted := some a, leaving := none, state := .tracking, unaccounted := false } : HelioRun).Trim := by
    intro hr
    constructor <;> simp [hr.tidy.counts]
  unfold Edit.adopt
  dsimp only
  generalize hn : ({ e.r with granted := some a, leaving := none, state := .tracking, unaccounted := false } : HelioRun) = n
    at hfit htrim
  have hset : ∀ n', n.Reowed n' → n'.Fit → (e.r.Good → n'.Trim) → (e.set (some .adopted) n').Faithful r0 := by
    rintro n' ⟨o, b, l, rfl⟩ hf ht
    exact h.setUnqueued hq _ hf ht (by rw [← hn]) (by rw [← hn]; exact nofun) (by rw [← hn])
  have h1 : (e.set (some .adopted) (match env.adoptionCause f a e.r with
      | some c => n.setOwed .defocus c
      | none => n)).Faithful r0 := by
    cases env.adoptionCause f a e.r with
    | none => exact hset n ⟨_, _, _, rfl⟩ hfit htrim
    | some c =>
      refine hset _ (HelioRun.reowed_setOwed _ _ _) ?_ fun hr => (htrim hr).setOwed ?_ _ _
      · simp only [HelioRun.setOwed]
        split <;> (rw [← hn]; constructor <;> simp [HelioRun.grantState])
      · rw [← hn]
        simp [HelioRun.Movable]
  exact ⟨h1.sound, h1.tidy, h1.inFlight, h1.state, h1.queued, h1.dropped, h1.leaves, h1.stays⟩

theorem Edit.Faithful.foundOnAim (h : e.Faithful r0) (hq : e.r.queued = false) (a : Nat) : (e.foundOnAim env f a).Faithful r0 := by
  unfold Edit.foundOnAim
  split
  · exact h.adopt hq a
  · obtain ⟨o, b, l, hr⟩ := HelioRun.reowed_setOwed .defocus (e.r.faultOr .survey)
      { e.r with state := .lost, unaccounted := true, granted := none, leaving := none }
    refine h.setUnqueued hq _ ?_ (fun hg => HelioRun.Trim.setOwed ?_ ?_ _ _) (by rw [hr]) (by rw [hr]; exact nofun) (by rw [hr])
    · rw [hr]
      constructor <;> simp [HelioRun.grantState]
    · constructor <;> simp [hg.tidy.counts]
    · simp [HelioRun.Movable]

/-! ### The position classes (R77 to R80) -/

/-- An UNSURE record made of one that holds no aim. -/
theorem Edit.Faithful.toUnsure (h : e.Faithful r0) (hs : e.r.state = .silent ∨ e.r.state = .standby ∨ e.r.state = .stowed
    ∨ e.r.state = .unsure) (c : Option Cause) : (e.set c { e.r with state := .unsure }).Faithful r0 := by
  have hn : e.r.grantState = false := by rcases hs with hs | hs | hs | hs <;> simp [HelioRun.grantState, hs]
  have hq : e.r.queued = false := h.sound.not_queued (by rcases hs with hs | hs | hs | hs <;> simp [hs])
  exact h.setUnqueued hq _ (h.sound.fit_off hn .unsure e.r.unaccounted (by simp)) (fun hr => (hr.toUnsure hs).trim) rfl nofun rfl

theorem Edit.Faithful.positionAtRest (h : e.Faithful r0) (p : Position) : (e.positionAtRest env f p).Faithful r0 := by
  have hq : e.r.state ≠ .slewing → e.r.queued = false := h.sound.not_queued
  unfold Edit.positionAtRest
  split
  · next hs => exact h.toUnsure (by simp [hs]) _
  · next hs =>
    cases p with
    | onAim a =>
      dsimp only
      split
      · exact h.adopt (hq (by simp [hs])) a
      · exact h
    | moving _ _ _ => exact h
    | clear => exact h
    | atStandby => exact h
    | stowed => exact h
  · next hs =>
    cases p with
    | onAim a => exact h.foundOnAim (hq (by simp [hs])) a
    | moving _ _ _ => exact h
    | clear => exact h
    | atStandby => exact h.atRest (hq (by simp [hs])) _ _
    | stowed => exact h.atRest (hq (by simp [hs])) _ _
  · next hs =>
    cases p with
    | onAim a => exact h.foundOnAim (hq (by simp [hs])) a
    | moving _ _ _ => exact h.toUnsure (by simp [hs]) _
    | clear => exact h.toUnsure (by simp [hs]) _
    | atStandby => exact h.atRest (hq (by simp [hs])) _ _
    | stowed => exact h.atRest (hq (by simp [hs])) _ _
  · next hs =>
    cases p with
    | onAim a => exact h.foundOnAim (hq (by simp [hs])) a
    | moving _ _ _ => exact h.toUnsure (by simp [hs]) _
    | clear => exact h.toUnsure (by simp [hs]) _
    | atStandby => exact h.atRest (hq (by simp [hs])) _ _
    | stowed => exact h.atRest (hq (by simp [hs])) _ _
  all_goals exact h

/-- DEFOCUS owed by a heliostat that stands elsewhere. -/
theorem Edit.Faithful.driveLeft (h : e.Faithful r0) (hs : e.r.state = .slewing ∨ e.r.state = .tracking) :
    (e.owe .defocus .driveLeft .driveLeft).Faithful r0 :=
  h.owe (by rcases hs with hs | hs <;> simp [HelioRun.Movable, hs]) _ _ _

theorem Edit.Faithful.positionSlewing (h : e.Faithful r0) (hs : e.r.state = .slewing) (ha : e.r.accepted = true) (p : Position) :
    (e.positionSlewing p).Faithful r0 := by
  have hq : e.r.queued = false := by
    by_contra hq
    obtain ⟨-, -, -, -, -, -, -, hqueued⟩ := h.sound
    rw [(hqueued (by simpa using hq)).2.1] at ha
    cases ha
  unfold Edit.positionSlewing
  split
  · split
    · next hg => exact h.arriveOnAim hq (by simp [hg])
    · split
      · exact h
      · exact h.driveLeft (Or.inl hs)
  · split
    · exact h
    · exact h.driveLeft (Or.inl hs)
  · exact h.dropLeaving _
  · exact h.atRest hq _ _
  · exact h.atRest hq _ _

theorem Edit.Faithful.positionTracking (h : e.Faithful r0) (hs : e.r.state = .tracking) (p : Position) :
    (e.positionTracking p).Faithful r0 := by
  have hq : e.r.queued = false := h.sound.not_queued (by simp [hs])
  unfold Edit.positionTracking
  split
  · split
    · exact h
    · exact h.driveLeft (Or.inr hs)
  · split
    · exact h
    · exact h.driveLeft (Or.inr hs)
  · exact h.atRest hq _ _
  · exact h.atRest hq _ _
  · exact h.atRest hq _ _

theorem Edit.Faithful.unexpected (h : e.Faithful r0) (hs : e.r.state = .slewing) (p : Position) :
    (e.unexpected env f p).Faithful r0 := by
  unfold Edit.unexpected
  split
  · dsimp only
    split
    · next ht => exact (h.revoke .driveLeft).positionTracking ht p
    · exact (h.revoke .driveLeft).positionAtRest p
  · exact h.driveLeft (Or.inl hs)

theorem Edit.Faithful.positionUnaccepted (h : e.Faithful r0) (hs : e.r.state = .slewing) (p : Position) :
    (e.positionUnaccepted env f p).Faithful r0 := by
  unfold Edit.positionUnaccepted
  split
  · split
    · exact h.takeUp hs
    · exact h.unexpected hs _
  · split
    · next hg => exact (h.takeUp (env := env) hs).arriveOnAim rfl (by simp [Edit.takeUp, hg])
    · split
      · exact h
      · exact h.unexpected hs _
  · exact h.dropLeaving _
  · split
    · exact h
    · exact h.unexpected hs _
  · split
    · exact h
    · exact h.unexpected hs _

theorem Edit.Faithful.positionReturning (h : e.Faithful r0) (hs : e.r.state = .returning) (p : Position) :
    (e.positionReturning env f p).Faithful r0 := by
  have hq : e.r.queued = false := h.sound.not_queued (by simp [hs])
  unfold Edit.positionReturning
  split
  · split
    · exact h.foundOnAim hq _
    · exact h
  · exact h
  · split
    · exact h
    · refine h.setUnqueued hq _ ?_ (fun hr => (hr.released hs).trim) rfl h.state rfl
      obtain ⟨h1, h2, h3, h4, h5, h6, h7, h8⟩ := h.sound
      constructor <;> simp_all [HelioRun.grantState]
  · exact h.atRest hq _ _
  · exact h.atRest hq _ _

theorem Edit.Faithful.positionLost (h : e.Faithful r0) (hs : e.r.state = .lost) (p : Position) :
    (e.positionLost env f p).Faithful r0 := by
  have hq : e.r.queued = false := h.sound.not_queued (by simp [hs])
  unfold Edit.positionLost
  split
  · split
    · exact h.adopt hq _
    · exact h.owe (by simp [HelioRun.Movable, hs]) _ _ _
  · exact h
  · refine h.setUnqueued hq _ ?_ (fun hr => ?_) rfl nofun rfl
    · constructor <;> simp [HelioRun.grantState]
    · constructor <;> simp [hr.tidy.counts]
  · exact h.atRest hq _ _
  · exact h.atRest hq _ _

theorem Edit.Faithful.positionByState (h : e.Faithful r0) (p : Position) : (e.positionByState env f p).Faithful r0 := by
  unfold Edit.positionByState
  split
  · next hs =>
    split
    · next ha => exact h.positionSlewing hs ha p
    · exact h.positionUnaccepted hs p
  · next hs => exact h.positionTracking hs p
  · next hs => exact h.positionReturning hs p
  · next hs => exact h.positionLost hs p
  all_goals first | exact h.positionAtRest p | exact h

/-- Rest with a fault cause present (R76). -/
theorem Edit.Faithful.faultAtRest (h : e.Faithful r0) (before : HelioRun) : (e.faultAtRest before).Faithful r0 := by
  have hsound := Edit.sound_faultAtRest (before := before) h.sound
  unfold Edit.faultAtRest at hsound ⊢
  split
  · next hc =>
    rw [if_pos hc] at hsound
    have hs : e.r.state ≠ .slewing := by rcases hc.1 with hs | hs <;> simp [hs]
    have hq := h.sound.not_queued hs
    have hl : e.r.leaving = none := (h.sound.no_aims (by rcases hc.1 with hs | hs <;> simp [HelioRun.grantState, hs])).2
    refine h.changed hsound (fun hg => ?_) rfl nofun rfl (fun hq' => by rw [hq] at hq'; cases hq')
    obtain ⟨h1, h2, h3, h4, h5, h6, h7, h8⟩ := hg.tidy
    constructor <;> simp_all [HelioRun.clearOwed]
    split <;> omega
  · exact h

/-! ### A status (R76) -/

/-- LOCAL and the fault cause are no part of what the lines see. -/
theorem Edit.Faithful.marked (h : e.Faithful r0) (c : Option Cause) (b : Bool) (x : Option FaultCause) :
    (e.set c { e.r with localControl := b, fault := x }).Faithful r0 := by
  refine h.set c (HelioRun.Sound.fit (h.sound.other rfl rfl rfl rfl rfl rfl rfl rfl rfl rfl)) (fun hr => (hr.marked b x).trim) rfl h.state
    rfl fun hq => ⟨?_, rfl⟩
  obtain ⟨-, -, -, -, -, -, -, hqueued⟩ := h.sound
  exact (hqueued hq).1

theorem Edit.Faithful.noteFault (h : e.Faithful r0) (b : Bool) (c : FaultCause) : (e.noteFault b c).Faithful r0 := by
  unfold Edit.noteFault
  split
  · exact h.marked _ e.r.localControl (some c)
  · exact h

theorem Edit.Faithful.statusFlags (h : e.Faithful r0) (st : Status) : (e.statusFlags st).Faithful r0 := by
  have h1 : (e.noteLocal st.localControl).Faithful r0 := by
    unfold Edit.noteLocal
    split
    · exact h
    · exact h.marked _ _ e.r.fault
  exact (h1.noteFault _ _).noteFault _ _

/-- A failure of a heliostat that holds no load. -/
theorem Edit.Faithful.faulted (h : e.Faithful r0) (hl : e.r.holdsLoad = false) (c : Option Cause) :
    (e.set c { e.r.clearOwed with state := .faulted }).Faithful r0 := by
  have hq : e.r.queued = false := by
    by_contra hq
    obtain ⟨hg, -, -, -, -, -, -, hqueued⟩ := h.sound
    rw [← h.sound.holdsLoad_eq, hl, HelioRun.grantState, (hqueued (by simpa using hq)).1] at hg
    cases hg
  have hleaving : e.r.leaving = none := by
    unfold HelioRun.holdsLoad at hl
    rw [Bool.or_eq_false_iff] at hl
    simpa using hl.2
  refine h.setUnqueued hq _ (h.sound.fit_faulted hl) (fun hr => ?_) rfl nofun rfl
  have hcounts := hr.tidy.counts
  constructor <;> simp [HelioRun.clearOwed, hleaving, hcounts]
  split <;> omega

theorem Edit.Faithful.failNow (h : e.Faithful r0) (c c' : Cause) : (e.failNow c c').Faithful r0 := by
  have h1 : (if e.r.holdsLoad then e.owe .defocus c c' else e).Faithful r0 := by
    split
    · next hl => exact h.owe (h.sound.loaded hl) _ _ _
    · exact h
  unfold Edit.failNow
  generalize (if e.r.holdsLoad then e.owe .defocus c c' else e) = e1 at h1 ⊢
  dsimp only
  split
  · exact h1
  · next hn => exact h1.faulted (by simpa using fun hl => hn (Or.inl hl)) _

theorem Edit.Faithful.failBy (h : e.Faithful r0) (st : Status) : (e.failBy st).Faithful r0 := by
  unfold Edit.failBy
  split
  · exact h.failNow _ _
  · split
    · exact h.failNow _ _
    · exact h

theorem Edit.Faithful.statusConsequences (h : e.Faithful r0) (st : Status) : (e.statusConsequences st).Faithful r0 := by
  have h1 := h.failBy st
  unfold Edit.statusConsequences
  dsimp only
  split
  · next hc =>
    simp only [Bool.and_eq_true, Bool.or_eq_true, beq_iff_eq] at hc
    exact h1.owe (by rcases hc.2 with hs | hs <;> simp [HelioRun.Movable, hs]) _ _ _
  · exact h1

theorem Edit.Faithful.status (h : e.Faithful r0) (st : Status) : (e.status env f st).Faithful r0 :=
  (((h.statusFlags st).positionByState st.position).faultAtRest _).statusConsequences st

/-! ### The answers (R68 to R74) -/

/-- The silent count within its range. -/
theorem Edit.Faithful.counted (h : e.Faithful r0) {n : Nat} (hn : n ≤ 3) : ({ e with r := { e.r with silentCount := n } } : Edit).Faithful r0 := by
  refine h.changed (h.sound.other rfl rfl rfl rfl rfl rfl rfl rfl rfl rfl) (fun hg => ?_) rfl h.state rfl fun _ => rfl
  obtain ⟨h1, h2, h3, h4, h5, h6, h7, h8⟩ := hg.tidy
  exact ⟨h1, h2, h3, h4, h5, h6, h7, hn, h8.2⟩

theorem Edit.Faithful.busyMoveAim (h : e.Faithful r0) (hq : r0.queued = false) (seg : Nat) (st : Status) :
    (e.busyMoveAim env f seg st).Faithful r0
      ∨ ((e.busyMoveAim env f seg st).Requeues r0 ∧ (f.sxeAt seg).queue.length < Config.moveQueue) := by
  have hsound := Edit.sound_busyMoveAim (env := env) (f := f) (g := seg) (st := st) h.sound
  have h1 := h.status (env := env) (f := f) st
  unfold Edit.busyMoveAim at hsound ⊢
  dsimp only at hsound ⊢
  generalize e.status env f st = e1 at h1 hsound ⊢
  split
  · next hc =>
    rw [if_pos hc] at hsound
    split
    · next hb =>
      rw [if_pos hb] at hsound
      refine Or.inr ⟨⟨hsound, fun ht => ?_, h1.inFlight, hc.1, hq, rfl, ?_, rfl⟩, hb.2⟩
      · obtain ⟨h1, h2, h3, h4, h5, h6, h7, h8⟩ := h1.tidy ht
        exact ⟨h1, h2, h3, h4, h5, h6, h7, h8.1, (by decide : 1 ≤ 3)⟩
      · by_contra hd
        rw [h1.dropped (by simpa using hd)] at hq
        cases hq
    · exact Or.inl (h1.revoke .busy)
  · exact Or.inl h1

theorem Edit.Faithful.rejectMoveAim (h : e.Faithful r0) (reason : RejectReason) : (e.rejectMoveAim reason).Faithful r0 := by
  have h1 : (if e.r.state = .slewing then e.revoke .reject else e).Faithful r0 := by
    split
    · exact h.revoke _
    · exact h
  unfold Edit.rejectMoveAim
  dsimp only
  generalize (if e.r.state = .slewing then e.revoke .reject else e) = e1 at h1 ⊢
  cases reason
  · exact h1
  · exact (h1.marked _ _ _).failNow _ _
  · exact (h1.marked _ _ _).failNow _ _

theorem Edit.Faithful.acceptOwed (h : e.Faithful r0) (hq : r0.queued = false) (dest : Dest) (c : Cause) :
    (e.acceptOwed dest c).Faithful r0 := by
  have hload := h.sound.holdsLoad_eq
  refine h.setUnqueued (h.not_queued hq) _ ?_ (fun hr => ?_) rfl nofun rfl
  · constructor
    · simp only [HelioRun.grantState, hload]
      cases e.r.granted <;> rfl
    all_goals simp
  · constructor <;> simp [hr.tidy.counts]

/-- A heliostat that holds load goes accounted LOST (R57, R74). -/
theorem Edit.Faithful.goLost (h : e.Faithful r0) {r : HelioRun} (hr : r.Sound) (hl : r.holdsLoad = true) (hn : e.r.queued = false)
    (hi : r.inFlight = e.r.inFlight) (hq : r.queued = e.r.queued) (hcounts : e.r.Good → r.silentCount ≤ 3 ∧ r.busyCount ≤ 3)
    (c : Option Cause) : (e.set c r.goLost).Faithful r0 := by
  refine h.setUnqueued hn c (hr.goLost_fit hl) (fun hg => ?_) hi nofun hq
  have hcounts := hcounts hg
  constructor <;> simp [HelioRun.goLost, HelioRun.clearOwed, hcounts]
  split <;> omega

theorem Edit.Faithful.refuseOwed (h : e.Faithful r0) (hq : r0.queued = false) (x : FaultCause) (b : Bool) (c : Cause) :
    (e.refuseOwed x b c).Faithful r0 := by
  have hn := h.not_queued hq
  have hr := h.sound.refused x b
  unfold Edit.refuseOwed
  split
  · next hl =>
    have h1 := h.goLost hr hl hn rfl rfl (fun hg => ⟨hg.tidy.counts.1, Nat.zero_le _⟩) (some c)
    exact ⟨h1.sound, h1.tidy, h1.inFlight, h1.state, h1.queued, h1.dropped, h1.leaves, h1.stays⟩
  · next hl =>
    have hl : (e.r.refused x b).holdsLoad = false := by simpa [HelioRun.holdsLoad, HelioRun.refused] using hl
    have hleaving : e.r.leaving = none := by
      unfold HelioRun.holdsLoad at hl
      rw [Bool.or_eq_false_iff] at hl
      simpa [HelioRun.refused] using hl.2
    refine h.setUnqueued hn _ (hr.fit_faulted hl) (fun hg => ?_) rfl nofun rfl
    constructor <;> simp [HelioRun.clearOwed, HelioRun.refused, hleaving, hg.tidy.counts]

theorem Edit.Faithful.busyOwed (h : e.Faithful r0) (hq : r0.queued = false) (st : Status) : (e.busyOwed env f st).Faithful r0 := by
  have h1 := h.status (env := env) (f := f) st
  unfold Edit.busyOwed
  dsimp only
  generalize e.status env f st = e1 at h1 ⊢
  split
  · split
    · next hb =>
      refine h1.changed (h1.sound.other rfl rfl rfl rfl rfl rfl rfl rfl rfl rfl) (fun hg => ?_) rfl h1.state rfl fun _ => rfl
      obtain ⟨h1, h2, h3, h4, h5, h6, h7, h8⟩ := hg.tidy
      exact ⟨h1, h2, h3, h4, h5, h6, h7, h8.1, Nat.le_of_lt hb⟩
    · exact h1.refuseOwed hq _ _ _
  · exact h1

/-- A good answer gives a faithful outcome, or puts the heliostat back into a Move Queue that has room (R69). -/
theorem Edit.Faithful.answer (h : e.Faithful r0) (seg : Nat) {kind : ExKind} (hk : r0.queued = true → kind = .query) (a : Answer) :
    (e.answer env f seg kind a).Faithful r0
      ∨ ((e.answer env f seg kind a).Requeues r0 ∧ (f.sxeAt seg).queue.length < Config.moveQueue) := by
  have h0 := h.counted (Nat.zero_le 3)
  have hq : kind ≠ .query → r0.queued = false := by
    intro hne
    by_contra hq
    exact hne (hk (by simpa using hq))
  unfold Edit.answer
  dsimp only
  split
  · split
    · next hs => exact Or.inl (h0.takeUp hs)
    · exact Or.inl h0
  · exact h0.busyMoveAim (hq nofun) seg _
  · exact Or.inl (h0.rejectMoveAim _)
  · exact Or.inl (h0.acceptOwed (hq nofun) _ _)
  · exact Or.inl (h0.busyOwed (hq nofun) _)
  · refine Or.inl ?_
    unfold Edit.rejectOwed
    split <;> exact h0.refuseOwed (hq nofun) _ _ _
  · exact Or.inl (h0.status _)
  all_goals exact Or.inl h0

/-! ### Silence (R57) -/

/-- A heliostat without load goes SILENT, or LOST unaccounted in SURVEY. -/
theorem Edit.Faithful.goSilent (h : e.Faithful r0) (hg : e.r.grantState = false) (st : HState) (b : Bool)
    (hst : st = .silent ∨ (st = .lost ∧ b = true)) (c : Option Cause) :
    (e.set c { e.r.clearOwed with state := st, unaccounted := b }).Faithful r0 := by
  have hq : e.r.queued = false := by
    refine h.sound.not_queued fun hs => ?_
    rw [HelioRun.grantState, hs] at hg
    cases hg
  have hl : e.r.leaving = none := (h.sound.no_aims hg).2
  refine h.setUnqueued hq c (h.sound.clearOwed.fit_off hg st b (by rcases hst with h | h <;> simp [h])) (fun hr => ?_) rfl ?_ rfl
  · have hcounts := hr.tidy.counts
    rcases hst with rfl | ⟨rfl, rfl⟩ <;> constructor <;> simp [HelioRun.clearOwed, hl, hcounts] <;> split <;> omega
  · rcases hst with rfl | ⟨rfl, rfl⟩ <;> exact nofun

theorem Edit.Faithful.silenceUnqueued (h : e.Faithful r0) (hq : e.r.queued = false) : (e.silenceUnqueued env).Faithful r0 := by
  have hlost : e.r.grantState = true → (e.set (some .silence) e.r.goLost).Faithful r0 := fun hg =>
    h.goLost h.sound (by rw [h.sound.holdsLoad_eq, h.sound.1, hg]) hq rfl rfl (fun hr => hr.tidy.counts) _
  unfold Edit.silenceUnqueued
  split
  · next hs =>
    have hg : e.r.grantState = false := by simp [HelioRun.grantState, hs]
    split
    · exact h.goSilent hg .lost true (by simp) _
    · exact h.goSilent hg .silent e.r.unaccounted (by simp) _
  · next hs => exact h.goSilent (by simp [HelioRun.grantState, hs]) .silent e.r.unaccounted (by simp) _
  · next hs => exact h.goSilent (by simp [HelioRun.grantState, hs]) .silent e.r.unaccounted (by simp) _
  · next hs =>
    split
    · next hr => exact h.goSilent (by simp [HelioRun.grantState, hs, hr]) .silent e.r.unaccounted (by simp) _
    · next hr => exact hlost (by simp [HelioRun.grantState, hs, hr])
  · next hs => exact hlost (by simp [HelioRun.grantState, hs])
  · next hs => exact hlost (by simp [HelioRun.grantState, hs])
  all_goals exact h

theorem Edit.Faithful.silent (h : e.Faithful r0) : (e.silent env).Faithful r0 := by
  have h0 := h.counted (n := min 3 (e.r.silentCount + 1)) (Nat.min_le_left _ _)
  unfold Edit.silent
  dsimp only
  split
  · unfold Edit.silence
    generalize ({ e with r := { e.r with silentCount := min 3 (e.r.silentCount + 1) } } : Edit) = e0 at h0 ⊢
    split
    · exact (h0.revoke .silence).silenceUnqueued (by
        rw [show (e0.revoke .silence).r.queued = false from ?_]
        exact (HelioRun.by_queued _ _ _).trans ((HelioRun.nothingRemains_queued _).trans (HelioRun.revoked_queued _ rfl)))
    · next hn =>
      refine h0.silenceUnqueued ?_
      by_contra hq
      obtain ⟨-, -, -, -, -, -, -, hqueued⟩ := h0.sound
      exact hn ⟨(hqueued (by simpa using hq)).1, by simpa using hq⟩
  · exact h0

end Sys2Proof.Machine
end

section
/-! PROOFS for the segment lines: the end of an exchange and of a PASS, the repeat of a request, and the holding of a PASS (R20, R21, R56). -/

namespace Sys2Proof.Machine

variable {T : Prop} {env : Env} {f g : Field}

/-! ### The outcome of an exchange in the field -/

theorem Work.run_setRun {h : Nat} (hh : h < Config.heliostats) (r : HelioRun) (f : Field) (j : Nat) :
    (f.setRun h r).run j = if j = h then r else f.run j := by
  rw [Field.run_setRun]
  by_cases hj : j = h
  · rw [if_pos hj, if_pos ⟨hj.symm, hh⟩]
  · rw [if_neg hj, if_neg fun c => hj c.1.symm]

/-- Two fields with the same heliostats and the same SXEs. -/
theorem Field.Quiet.of_same (hr : ∀ j, g.run j = f.run j) (hs : ∀ k, g.sxeAt k = f.sxeAt k) : f.Quiet g :=
  ⟨fun j => by rw [hr]; exact .refl _, fun k => by rw [hs]; exact .refl _⟩

/-- The Move Queue and the record of an outcome: `r0` is the record that the exchange's end has left. -/
def Work.outcome (env : Env) (h : Nat) (e : Edit) (w : Work) : Work := (if e.drop then w.dropEntry env h else w).write env h e.r

theorem Work.run_outcome {h : Nat} (hh : h < Config.heliostats) (e : Edit) (w : Work) (j : Nat) :
    (w.outcome env h e).fld.run j = if j = h then e.r else w.fld.run j := by
  unfold Work.outcome
  rw [Work.run_write env hh]
  split
  · rfl
  · split
    · exact Work.run_dropEntry h w j
    · rfl

/-- The SXEs follow an outcome without regard to the records. -/
theorem Work.sxeAt_outcome_setRun (h : Nat) (r0 : HelioRun) (e : Edit) (w : Work) (k : Nat) :
    (Work.outcome env h e { w with fld := w.fld.setRun h r0 }).fld.sxeAt k = (w.outcome env h e).fld.sxeAt k := by
  unfold Work.outcome
  rw [Work.sxeAt_write, Work.sxeAt_write]
  split
  · unfold Work.dropEntry Field.dropEntry
    dsimp only
    rw [Field.sxeAt_setRun]
    split <;> rfl
  · rfl

theorem Work.quiet_outcome_setRun {h : Nat} (hh : h < Config.heliostats) (r0 : HelioRun) (e : Edit) (w : Work) :
    (Work.outcome env h e { w with fld := w.fld.setRun h r0 }).fld.Quiet (w.outcome env h e).fld := by
  refine .of_same (fun j => ?_) fun k => (Work.sxeAt_outcome_setRun h r0 e w k).symm
  rw [Work.run_outcome hh, Work.run_outcome hh]
  split
  · rfl
  · next hj => exact ((Work.run_setRun hh r0 w.fld j).trans (if_neg hj)).symm

theorem Edit.Faithful.moves {r0 : HelioRun} {e : Edit} (h : e.Faithful r0) (hs : r0.state ≠ .absent) (hi : r0.inFlight = false) :
    r0.Moves e.r := ⟨h.inFlight, hs, h.state, h.sound, h.tidy, fun h1 => by rw [hi] at h1; cases h1⟩

theorem Edit.Requeues.moves {r0 : HelioRun} {e : Edit} (h : e.Requeues r0) (hs : r0.state ≠ .absent) (hi : r0.inFlight = false) :
    r0.Moves e.r := ⟨h.inFlight, hs, by rw [h.state]; decide, h.sound, h.tidy, fun h1 => by rw [hi] at h1; cases h1⟩

/-- A faithful outcome, written. -/
theorem Work.lined_outcome {h : Nat} {e : Edit} {w : Work} (hf : w.fld.Lined T env) (he : e.Faithful (w.fld.run h))
    (hm : (w.fld.run h).Moves e.r) : (w.outcome env h e).fld.Lined T env := by
  have hsame : e.drop = false → (w.fld.run h).queued = true → e.r.queued = true := by
    intro hd hq
    by_contra hn
    rw [he.leaves hq (by simpa using hn)] at hd
    cases hd
  unfold Work.outcome
  by_cases hd : e.drop = true
  · rw [if_pos hd]
    refine Work.lined_dropWrite hf hm ?_
    by_contra hn
    rw [(he.queued (by simpa using hn)).2.1] at hd
    cases hd
  · have hd' : e.drop = false := by simpa using hd
    rw [if_neg hd]
    refine Work.lined_write hf hm ?_ fun hq => (he.queued (hsame hd' hq)).2.2
    cases hq : (w.fld.run h).queued
    · exact he.not_queued hq
    · exact hsame hd' hq

/-- The outcome of an exchange that has ended, in the field, where `r0` is the record that its end has left (R56). -/
theorem Work.lined_applyEdit {h : Nat} {r0 : HelioRun} {e : Edit} {w : Work} (o : Origin)
    (hf : (w.fld.setRun h r0).Lined T env) (hh : h < Config.heliostats) (hs : r0.state ≠ .absent) (hi : r0.inFlight = false)
    (he : e.Faithful r0 ∨ (e.Requeues r0 ∧ (w.fld.sxeAt (env.segmentOf h)).queue.length < Config.moveQueue)) :
    (w.applyEdit env h e o).fld.Lined T env := by
  have hr0 : (w.fld.setRun h r0).run h = r0 := (Work.run_setRun hh r0 w.fld h).trans (if_pos rfl)
  have hquiet := Work.quiet_outcome_setRun (env := env) hh r0 e w
  unfold Work.applyEdit
  dsimp only
  refine Field.Lined.quiet ?_ (Work.quiet_followRevoked h e.revoked _)
  change (if e.requeue then (if e.newest then (w.outcome env h e).toNewest h else w.outcome env h e).enqueue env
    ⟨h, orZero e.r.granted, o⟩ else (if e.newest then (w.outcome env h e).toNewest h else w.outcome env h e)).fld.Lined T env
  have hnewest : ∀ v : Work, v.fld.Quiet (if e.newest then v.toNewest h else v).fld := by
    intro v
    split
    · exact v.quiet_toNewest h
    · exact .refl _
  rcases he with he | ⟨he, hlen⟩
  · rw [he.stays]
    refine Field.Lined.quiet ?_ (hnewest _)
    refine Field.Lined.quiet ?_ hquiet
    exact Work.lined_outcome (w := { w with fld := w.fld.setRun h r0 }) hf (hr0.symm ▸ he) (hr0.symm ▸ he.moves hs hi)
  · rw [he.requeue]
    have hg : e.r.granted = some (orZero e.r.granted) := by
      have hg := he.sound.1
      rw [HelioRun.grantState, he.state] at hg
      obtain ⟨a, ha⟩ := Option.isSome_iff_exists.1 hg
      rw [ha]
      rfl
    have hout : w.outcome env h e = w.write env h e.r := by
      unfold Work.outcome
      rw [he.kept]
      rfl
    refine Work.lined_enqueue (w := { w with fld := w.fld.setRun h r0 }) hf (hr0.symm ▸ he.moves hs hi) (hr0.symm ▸ he.unqueued)
      (hr0.symm ▸ hi) he.queued hg hlen (fun j => ?_) fun k => ?_
    · have h1 : (if e.newest then (w.outcome env h e).toNewest h else w.outcome env h e).fld.run j = (w.outcome env h e).fld.run j := by
        split
        · exact Work.run_toNewest h _ j
        · rfl
      refine h1.trans ?_
      rw [Work.run_outcome hh]
      split
      · rfl
      · next hj => exact ((Work.run_setRun hh r0 w.fld j).trans (if_neg hj)).symm
    · have h1 : (if e.newest then (w.outcome env h e).toNewest h else w.outcome env h e).fld.sxeAt k = (w.outcome env h e).fld.sxeAt k := by
        split
        · exact Work.sxeAt_toNewest h _ k
        · rfl
      refine h1.trans ?_
      rw [hout]
      exact Work.sxeAt_write env h e.r w k

theorem Work.lined_conclude {h : Nat} {r0 : HelioRun} {e : Edit} {w : Work} (o : Origin)
    (hf : (w.fld.setRun h r0).Lined T env) (hh : h < Config.heliostats) (hs : r0.state ≠ .absent) (hi : r0.inFlight = false)
    (he : e.Faithful r0 ∨ (e.Requeues r0 ∧ (w.fld.sxeAt (env.segmentOf h)).queue.length < Config.moveQueue)) :
    (w.conclude env h e o).fld.Lined T env := by
  have h1 := Work.lined_settleNow (Work.lined_applyEdit o hf hh hs hi he)
  unfold Work.conclude
  dsimp only
  refine Field.Lined.quiet ?_ (Work.quiet_evalTrip env _)
  split
  · exact h1.quiet (Work.quiet_report _ _)
  · exact h1

/-! ### States -/

/-- A change that the lines do not see, with the live tables left alone. -/
theorem State.Lined.quiet {s t : State} (h : s.Lined T) (hl : t.live = s.live) (hq : s.field.Quiet t.field) : t.Lined T :=
  (Field.Lined.quiet h hq).congr hl

theorem State.quiet_enterHold (c : StateCause) (s : State) : s.field.Quiet (State.enterHold c s).field := by
  have h1 : s.field.Quiet ((Work.of s.field).endAll .hold).1.fld := Work.quiet_endAll .hold (Work.of s.field)
  unfold State.enterHold
  dsimp only
  generalize ((Work.of s.field).endAll .hold).1.fld = f at h1 ⊢
  exact h1.trans (f.quiet_queueReport .opState)

theorem State.Lined.enterHold {s : State} (h : s.Lined T) (c : StateCause) : (State.enterHold c s).Lined T :=
  h.quiet (by rfl) (State.quiet_enterHold c s)

theorem State.Lined.surveyStep {s : State} (h : s.Lined T) (j : Nat) (before : HelioRun) (found : Option Finding) :
    (s.surveyStep j before found).Lined T := by
  have h1 : ({ s with osc := s.osc.countSurvey j found } : State).Lined T := h.quiet rfl (.refl _)
  unfold State.surveyStep
  dsimp only
  split
  · split
    · exact h1
    · exact h1.enterHold _
  · exact h

/-- The choice of one SXE and then of every idle one. -/
theorem State.Lined.chooseKick {s : State} (h : s.Lined T) {seg : Nat} (hs : seg < Config.segments) :
    (State.kick { s with field := s.field.choose s.env true seg }).Lined T :=
  State.Lined.kick (s := { s with field := s.field.choose s.env true seg }) (Field.Lined.choose h true hs)

/-- The end of an exchange that relays no PASS (R56). -/
theorem State.Lined.endExchange {s : State} (h : s.Lined T) {seg : Nat} (hseg : seg < Config.segments) {x : Exchange}
    (hx : (s.field.sxeAt seg).exchange = some x) (hk : x.kind ≠ .pass) (found : Option Finding) {edit : Env → Field → Edit → Edit}
    (hedit : ∀ env f e r0, Edit.Faithful r0 e → (r0.queued = true → x.kind = .query) →
      (edit env f e).Faithful r0 ∨ ((edit env f e).Requeues r0 ∧ (f.sxeAt seg).queue.length < Config.moveQueue)) :
    (s.endExchange seg x found edit).Lined T := by
  obtain ⟨hsegx, hi⟩ := h.lines.exchange seg x hx
  have hstate := h.state_of_inFlight hi
  have hh := (h.placed_of_state hstate).1
  unfold State.endExchange
  dsimp only
  refine State.Lined.chooseKick (State.Lined.surveyStep ?_ _ _ _) hseg
  generalize hf0 : s.field.setSxe seg ((s.field.sxeAt seg).ended s.now) = f0
  have hrun : ∀ j, f0.run j = s.field.run j := fun j => by rw [← hf0]; exact Field.run_setSxe _ _ _ _
  have hsxe : ∀ k, f0.sxeAt k = if k = seg then (s.field.sxeAt seg).ended s.now else s.field.sxeAt k := by
    intro k
    rw [← hf0, Field.sxeAt_setSxe]
    by_cases hk : k = seg
    · rw [if_pos hk, if_pos ⟨hk.symm, hseg⟩]
    · rw [if_neg hk, if_neg fun c => hk c.1.symm]
  have hr : (s.field.run x.helio).Sound := h.records x.helio
  rw [hrun]
  generalize hr0 : ({ s.field.run x.helio with inFlight := false, lastExchange := some s.now } : HelioRun) = r0
  have hlanded : Field.Landed seg x.helio s.field (f0.setRun x.helio r0) := by
    refine ⟨⟨x, hx, rfl⟩, fun j => ⟨some s.now, ?_⟩, fun j hj => ?_, ?_⟩
    · rw [Work.run_setRun hh]
      split
      · next hj => rw [← hr0, hj]
      · exact hrun j
    · rw [Field.sxeAt_setRun, hsxe, if_neg hj]
    · refine ⟨(s.field.sxeAt seg).passSlot, some s.now, ?_, Or.inr ⟨rfl, fun q hq hqh => ?_⟩⟩
      · rw [Field.sxeAt_setRun, hsxe, if_pos rfl]
        rfl
      · exact hk ((h.lines.relayed seg x hx).2 ⟨q, hq, hqh⟩)
  have hsound : r0.Sound := by
    rw [← hr0]
    exact hr.other rfl rfl rfl rfl rfl rfl rfl rfl rfl rfl
  have hstate0 : r0.state ≠ .absent := by rw [← hr0]; exact hstate
  have hq0 : r0.queued = true → x.kind = .query := fun hq => h.lines.polled seg x hx (by rw [← hr0] at hq; exact hq)
  refine Field.Lined.congr (env := s.env) ?_ rfl
  refine Work.lined_conclude (w := Work.of f0) (r0 := r0) _ (Field.Lined.landed h hlanded) hh hstate0 (by rw [← hr0]) ?_
  rw [hsegx]
  exact hedit s.env f0 _ r0 (Edit.Faithful.start hsound hstate0) hq0

/-- The end of the relay of a PASS (R21, R83). -/
theorem State.Lined.endPass {s : State} (h : s.Lined T) {seg : Nat} (hseg : seg < Config.segments) {x : Exchange}
    (hx : (s.field.sxeAt seg).exchange = some x) (hk : x.kind = .pass) (reply : Option SegFrame) : (s.endPass seg x reply).Lined T := by
  obtain ⟨p, hp, hph⟩ := (h.lines.relayed seg x hx).1 hk
  obtain ⟨-, hi⟩ := h.lines.exchange seg x hx
  obtain ⟨hrun, hsxe, -⟩ := Field.passEnded_spec (f := s.field) (now := s.now) hseg (h.placed_of_state (h.state_of_inFlight hi)).1
  have hlanded : Field.Landed seg x.helio s.field (s.field.passEnded seg x.helio s.now) := by
    refine ⟨⟨x, hx, rfl⟩, fun j => ⟨(s.field.run j).lastExchange, ?_⟩, fun j hj => ?_, ?_⟩
    · rw [hrun]
      by_cases hj : j = x.helio
      · rw [if_pos hj, bne_eq_false_iff_eq.2 hj, Bool.and_false]
      · rw [if_neg hj, bne_iff_ne.2 hj, Bool.and_true]
    · rw [hsxe, if_neg hj]
    · refine ⟨none, some s.now, ?_, Or.inl ⟨rfl, p, hp, hph⟩⟩
      rw [hsxe, if_pos rfl]
  rw [State.endPass_eq reply hp]
  exact State.Lined.kick (Field.Lined.choose (f := s.field.passEnded seg x.helio s.now) (Field.Lined.landed h hlanded) true hseg)

/-- The exchange of a segment goes on with the same heliostat and kind. -/
theorem Field.Lined.sameExchange (hf : f.Lined T env) {seg : Nat} (hseg : seg < Config.segments) {x y : Exchange}
    (hx : (f.sxeAt seg).exchange = some x) (hh : y.helio = x.helio) (hk : y.kind = x.kind) :
    (f.setSxe seg { f.sxeAt seg with exchange := some y }).Lined T env := by
  have hsxe : ∀ k, (f.setSxe seg { f.sxeAt seg with exchange := some y }).sxeAt k =
      { f.sxeAt k with exchange := if k = seg then some y else (f.sxeAt k).exchange } := by
    intro k
    rw [Field.sxeAt_setSxe]
    by_cases hk : k = seg
    · rw [if_pos hk, if_pos ⟨hk.symm, hseg⟩, hk]
    · rw [if_neg hk, if_neg fun c => hk c.1.symm]
  have hexch : ∀ k z, (if k = seg then some y else (f.sxeAt k).exchange) = some z →
      ∃ z', (f.sxeAt k).exchange = some z' ∧ z'.helio = z.helio ∧ z'.kind = z.kind := by
    intro k z hz
    split at hz
    · next hks => cases hz; exact ⟨x, hks ▸ hx, hh.symm, hk.symm⟩
    · exact ⟨z, hz, rfl, rfl⟩
  obtain ⟨⟨htab, hrec, ⟨h1, h2, h3, h4, h5, h6, h7, h8, h9⟩, hpres, hidle, htidy⟩, hplaced⟩ := hf
  refine ⟨⟨htab, hrec, ?_, hpres, hidle, fun hT => ⟨(htidy hT).records, ?_, ?_⟩⟩, hplaced⟩
  · constructor <;> simp only [Field.run_setSxe, hsxe]
    · intro k z hz
      obtain ⟨z', hz', e1, -⟩ := hexch k z hz
      exact e1 ▸ h1 k z' hz'
    · exact h2
    · intro k z hz
      obtain ⟨z', hz', e1, e2⟩ := hexch k z hz
      rw [← e1, ← e2]
      exact h3 k z' hz'
    · intro h hi
      rcases h4 h hi with ⟨z, hz, hzh⟩ | hp
      · left
        split
        · next hks =>
          rw [hks, hx] at hz
          cases hz
          exact ⟨y, rfl, hh.trans hzh⟩
        · exact ⟨z, hz, hzh⟩
      · exact Or.inr hp
    · exact h5
    · exact h6
    · exact h7
    · intro k z hz hq
      obtain ⟨z', hz', e1, e2⟩ := hexch k z hz
      rw [← e2]
      exact h8 k z' hz' (e1 ▸ hq)
    · exact h9
  · simpa only [hsxe] using (htidy hT).pointers
  · simp only [Field.run_setSxe, hsxe]
    intro k z dest cause hz hkz
    obtain ⟨z', hz', e1, e2⟩ := hexch k z hz
    rw [← e1]
    exact (htidy hT).served k z' dest cause hz' (e2.trans hkz)

theorem State.Lined.noGoodAnswer {s : State} (h : s.Lined T) {seg : Nat} (hseg : seg < Config.segments) {x : Exchange}
    (hx : (s.field.sxeAt seg).exchange = some x) (hk : x.kind ≠ .pass) : (s.noGoodAnswer seg x).Lined T := by
  unfold State.noGoodAnswer
  split
  · exact h.endExchange hseg hx hk _ fun env f e r0 he _ => Or.inl he.silent
  · exact Field.Lined.sameExchange (f := s.field) h hseg hx rfl rfl

theorem State.Lined.takeAnswer {s : State} (h : s.Lined T) {seg : Nat} (hseg : seg < Config.segments) {x : Exchange}
    (hx : (s.field.sxeAt seg).exchange = some x) (fr : SegFrame) : (s.takeAnswer seg x fr).Lined T := by
  unfold State.takeAnswer
  split
  · next hk =>
    split
    · exact h.endPass hseg hx hk _
    · exact h
  · next hk =>
    split
    · exact h.endExchange hseg hx hk _ fun env f e r0 he hq => he.answer seg hq _
    · exact h.noGoodAnswer hseg hx hk

/-! ### The holding of a PASS (R20, R21) -/

/-- What the checks of R20 have found of a PASS that they accept. -/
theorem State.passRefusal_none {s : State} {h : Nat} {kind : Byte} (hn : s.passRefusal h kind = none) :
    (s.live.helioAt h).present = true ∧ (s.field.run h).queued = false ∧ (s.field.run h).inFlight = false
      ∧ (s.field.sxeAt (s.env.segmentOf h)).passSlot = none := by
  unfold State.passRefusal at hn
  dsimp only at hn
  repeat' split at hn
  all_goals try cases hn
  next hp _ _ _ hb hs =>
    simp only [Bool.or_eq_true, not_or, Bool.not_eq_true] at hb
    rw [not_or] at hs
    exact ⟨by simpa using hp, hb.1.1, hb.2, by simpa using hs.1⟩

theorem State.Lined.holdPass {s : State} (h : s.Lined T) {j : Nat} {kind : Byte} (hn : s.passRefusal j kind = none) (tag : Byte)
    (body : List Byte) : (s.holdPass tag j body).Lined T := by
  obtain ⟨hp, hq, hi, hfree⟩ := State.passRefusal_none hn
  have hstate := (h.present j).1 hp
  obtain ⟨hh, hseg⟩ := h.placed_of_state hstate
  obtain ⟨hrunj, hrun, hsxe, -⟩ := State.holdPass_field (s := s) (tag := tag) (body := body) hh hseg
  refine Field.Lined.congr (env := s.env) ?_ rfl
  generalize (s.holdPass tag j body).field = g at hrunj hrun hsxe
  have hsame : ∀ i, ∃ b, g.run i = { s.field.run i with inFlight := b } := by
    intro i
    by_cases hij : i = j
    · rw [hij, hrunj]; exact ⟨true, rfl⟩
    · rw [hrun i hij]; exact ⟨_, rfl⟩
  have hfly : ∀ i, (s.field.run i).inFlight = true → (g.run i).inFlight = true ∧ i ≠ j := by
    intro i hii
    have hij : i ≠ j := fun e => by rw [e, hi] at hii; cases hii
    rw [hrun i hij]
    exact ⟨hii, hij⟩
  have hpass : ∀ k q, (g.sxeAt k).passSlot = some q →
      (k = s.env.segmentOf j ∧ q = ⟨j, tag, body⟩) ∨ (k ≠ s.env.segmentOf j ∧ (s.field.sxeAt k).passSlot = some q) := by
    intro k q hkq
    rw [hsxe] at hkq
    by_cases hk : k = s.env.segmentOf j
    · rw [show (if k = s.env.segmentOf j then some (⟨j, tag, body⟩ : PassReq) else (s.field.sxeAt k).passSlot) = _ from if_pos hk] at hkq
      cases hkq
      exact Or.inl ⟨hk, rfl⟩
    · rw [show (if k = s.env.segmentOf j then some (⟨j, tag, body⟩ : PassReq) else (s.field.sxeAt k).passSlot) = _ from if_neg hk] at hkq
      exact Or.inr ⟨hk, hkq⟩
  have hpass' : ∀ k q, (s.field.sxeAt k).passSlot = some q → (g.sxeAt k).passSlot = some q := by
    intro k q hkq
    rw [hsxe]
    refine (if_neg fun hk => ?_).trans hkq
    rw [hk, hfree] at hkq
    cases hkq
  have hrest : ∀ k, (g.sxeAt k).exchange = (s.field.sxeAt k).exchange ∧ (g.sxeAt k).queue = (s.field.sxeAt k).queue
      ∧ (g.sxeAt k).scan = (s.field.sxeAt k).scan ∧ (g.sxeAt k).settle = (s.field.sxeAt k).settle := by
    intro k
    rw [hsxe]
    exact ⟨rfl, rfl, rfl, rfl⟩
  obtain ⟨⟨htab, hrec, ⟨h1, h2, h3, h4, h5, h6, h7, h8, h9⟩, hpres, hidle, htidy⟩, hplaced⟩ := h
  refine ⟨⟨htab, fun i => ?_, ⟨?_, ?_, ?_, ?_, ?_, ?_, ?_, ?_, ?_⟩, fun i => ?_, fun i hs => ?_, fun hT => ⟨fun i => ?_, ?_, ?_⟩⟩, hplaced⟩
  · obtain ⟨b, e⟩ := hsame i
    rw [e]
    exact (hrec i).other rfl rfl rfl rfl rfl rfl rfl rfl rfl rfl
  · intro k x hx
    rw [(hrest k).1] at hx
    exact ⟨(h1 k x hx).1, (hfly _ (h1 k x hx).2).1⟩
  · intro k q hkq
    rcases hpass k q hkq with ⟨rfl, rfl⟩ | ⟨-, hkq⟩
    · exact ⟨rfl, by rw [hrunj]⟩
    · exact ⟨(h2 k q hkq).1, (hfly _ (h2 k q hkq).2).1⟩
  · intro k x hx
    rw [(hrest k).1] at hx
    rw [h3 k x hx]
    constructor
    · rintro ⟨q, hkq, hqx⟩
      exact ⟨q, hpass' k q hkq, hqx⟩
    · rintro ⟨q, hkq, hqx⟩
      rcases hpass k q hkq with ⟨rfl, rfl⟩ | ⟨-, hkq⟩
      · exact absurd hqx.symm (hfly _ (h1 _ x hx).2).2
      · exact ⟨q, hkq, hqx⟩
  · intro i hii
    rw [(hrest _).1]
    by_cases hij : i = j
    · refine Or.inr ⟨⟨j, tag, body⟩, ?_, hij.symm⟩
      rw [hsxe, hij]
      exact if_pos rfl
    · rw [hrun i hij] at hii
      rcases h4 i hii with hx | ⟨q, hkq, hqi⟩
      · exact Or.inl hx
      · exact Or.inr ⟨q, hpass' _ q hkq, hqi⟩
  · intro k e he
    rw [(hrest k).2.1] at he
    obtain ⟨b, e'⟩ := hsame e.helio
    rw [e']
    exact h5 k e he
  · intro k
    rw [(hrest k).2.1]
    exact h6 k
  · intro i hiq
    rw [(hrest _).2.1]
    obtain ⟨b, e⟩ := hsame i
    rw [e] at hiq
    exact h7 i hiq
  · intro k x hx hxq
    rw [(hrest k).1] at hx
    obtain ⟨b, e⟩ := hsame x.helio
    rw [e] at hxq
    exact h8 k x hx hxq
  · intro k q hkq
    obtain ⟨b, e⟩ := hsame q.helio
    rw [e]
    rcases hpass k q hkq with ⟨-, rfl⟩ | ⟨-, hkq⟩
    · exact hq
    · exact h9 k q hkq
  · obtain ⟨b, e⟩ := hsame i
    rw [e]
    exact hpres i
  · have hij : i ≠ j := by
      rintro rfl
      rw [hrunj] at hs
      exact hstate hs
    rw [hrun i hij] at hs ⊢
    exact hidle i hs
  · obtain ⟨b, e⟩ := hsame i
    obtain ⟨t1, t2, t3, t4, t5, t6, t7, t8⟩ := (htidy hT).records i
    rw [e]
    exact ⟨t1, t2, t3, t4, t5, t6, t7, t8⟩
  · intro k
    rw [(hrest k).2.2.1, (hrest k).2.2.2]
    exact (htidy hT).pointers k
  · intro k x dest cause hx hk
    rw [(hrest k).1] at hx
    obtain ⟨b, e⟩ := hsame x.helio
    rw [e]
    exact (htidy hT).served k x dest cause hx hk

end Sys2Proof.Machine
end

section
/-! PROOFS for the segment lines: the orders, the Operating State Controller and the Receiver Watch, over the state. -/

namespace Sys2Proof.Machine

variable {T : Prop} {s : State}

/-! ### The operations of a state -/

/-- A command that leaves the field and the live tables alone. -/
theorem State.Lined.same {t : State} (h : s.Lined T) (hl : t.live = s.live) (hf : t.field = s.field) : t.Lined T :=
  h.quiet hl (hf ▸ .refl _)

/-- A change of the field, with the evaluations that follow it. -/
theorem State.Lined.change {g : Work → Work} (hg : (g (Work.of s.field)).fld.Lined T s.env) : (s.change g).Lined T :=
  Work.lined_finish (env := s.env) hg

theorem State.Lined.changeKick {g : Work → Work} (hg : (g (Work.of s.field)).fld.Lined T s.env) : (s.change g).kick.Lined T :=
  (State.Lined.change hg).kick

/-- A change that the lines do not see. -/
theorem State.Lined.changeQuiet (h : s.Lined T) {g : Work → Work} (hg : (Work.of s.field).fld.Quiet (g (Work.of s.field)).fld) :
    (s.change g).Lined T := .change (Field.Lined.quiet h hg)

theorem State.Lined.stateEvent (h : s.Lined T) : s.stateEvent.Lined T := h.quiet rfl (s.field.quiet_queueReport .opState)

theorem State.Lined.advanceTo (h : s.Lined T) (n : Nat) : (s.advanceTo n).Lined T := h.same rfl rfl

/-- An order keeps the facts where its owner's rule does (R171). -/
theorem State.Lined.order (h : s.Lined T) (i : Instr) (tag kind : Byte) {run : State → Reply × State}
    (hrun : s.popFrame.Lined T → (run s.popFrame).2.Lined T) : (s.order i tag kind run).Lined T := by
  unfold State.order
  split
  · exact (hrun (h.same rfl rfl)).same rfl rfl
  · exact h

theorem State.Lined.safeOnset (h : s.Lined T) (hc : s.field.Canonical) (takes : Bool) : (s.safeOnset takes).Lined T := by
  have hw := Work.lined_safeActions (w := Work.of s.field) hc h
  have h1 : (s.change (fun w => if s.osc.onset takes = s.osc then w.safeActions s.env
      else (w.safeActions s.env).report .opState)).Lined T := by
    refine .change ?_
    split
    · exact hw
    · exact hw.quiet (Work.quiet_report _ _)
  exact h1.same rfl rfl

/-! ### The orders to heliostats -/

theorem State.Lined.aimOrder (h : s.Lined T) (tag : Byte) (helio : Half) (point : Byte) : (s.aimOrder tag helio point).2.Lined T := by
  unfold State.aimOrder
  dsimp only
  split
  · next hg =>
    unfold Field.judgeAim at hg
    split at hg
    · cases hg
    · split at hg
      · cases hg
      · exact .changeKick (Work.lined_grant h hg _ _)
  · exact h

theorem State.Lined.motionOrder (h : s.Lined T) (m : Motion) (scope : Byte) (index : Half) : (s.motionOrder m scope index).2.Lined T := by
  have howe : ∀ hs : List Nat, (∀ j ∈ hs, (s.live.helioAt j).present = true) →
      (s.change (fun w => (w.oweMembers s.env m .order hs).1)).kick.Lined T :=
    fun hs hp => .changeKick (Work.lined_oweMembers h m .order hp)
  rw [State.motionOrder_cases]
  split
  · exact h
  · split
    · exact h
    · next hr =>
      refine howe _ fun i hi => ?_
      rw [List.mem_singleton.1 hi]
      unfold Field.motionRefusal at hr
      split at hr
      · cases hr
      · next hp =>
        simp only [Bool.not_eq_true', Bool.not_eq_false] at hp
        exact hp
  · next hs hsc =>
    refine howe hs fun j hj => ?_
    unfold Env.scope at hsc
    split at hsc
    · cases hsc
    · split at hsc
      · cases hsc
        exact Tables.present_of_mem_members h.tables hj
      · cases hsc
    · cases hsc
      exact (Tables.mem_present_map h.tables).1 hj
    · cases hsc

theorem State.Lined.clearFaultOrder (h : s.Lined T) (scope : Byte) (index : Half) : (s.clearFaultOrder scope index).2.Lined T := by
  have hclear : ∀ hs : List Nat, (s.change (fun w => hs.foldl (fun (w : Work) h => w.clearFault s.env h) w)).kick.Lined T :=
    fun hs => .changeKick (Work.lined_foldl (fun _ j _ hw => Work.lined_clearFault hw j) h)
  unfold State.clearFaultOrder
  dsimp only
  split
  · exact h
  · split
    · exact hclear _
    · exact h
  · exact hclear _

theorem State.Lined.flagsOrder (h : s.Lined T) (group mask : Byte) {effect : HelioRun → HelioRun} (he : ∀ r : HelioRun, r.Alike (effect r)) :
    (s.flagsOrder group mask effect).2.Lined T := by
  unfold State.flagsOrder
  split
  · exact h
  · exact h.quiet rfl (s.field.quiet_flags _ he)

theorem HelioRun.alike_giveFlags (mask : Byte) (r : HelioRun) : r.Alike (r.giveFlags mask) := ⟨_, _, _, rfl⟩

theorem HelioRun.alike_takeFlags (mask : Byte) (r : HelioRun) : r.Alike (r.takeFlags mask) := ⟨_, _, _, rfl⟩

theorem State.Lined.readHeliostatOrder (h : s.Lined T) (helio : Half) : (s.readHeliostatOrder helio).2.Lined T := by
  unfold State.readHeliostatOrder
  dsimp only
  split <;> exact h

/-! ### The Receiver Watch -/

theorem State.Lined.setCeilingOrder (h : s.Lined T) (first last : Byte) (value : Tri) : (s.setCeilingOrder first last value).2.Lined T := by
  unfold State.setCeilingOrder
  split
  · exact h
  · split
    · exact (h.changeQuiet (Work.quiet_setCeilings _ _ _ _ _)).kick
    · exact h

theorem State.Lined.readZoneOrder (h : s.Lined T) (zone : Byte) : (s.readZoneOrder zone).2.Lined T := by
  unfold State.readZoneOrder
  dsimp only
  split <;> exact h

theorem State.Lined.staleAll (h : s.Lined T) : (s.change (fun w => w.staleAll s.env)).Lined T := h.changeQuiet (Work.quiet_staleAll _ _)

theorem State.Lined.rejudge (h : s.Lined T) (z : Nat) (v : ZoneRun) : (s.change (fun w => w.rejudge s.env z v)).kick.Lined T :=
  .changeKick (Work.lined_rejudge h z v)

theorem State.Lined.takeReading (h : s.Lined T) (z t : Nat) (fault : Bool) : (s.takeReading z t fault).Lined T := by
  unfold State.takeReading
  split
  · split
    · split
      · exact h
      · exact h.rejudge z _
    · exact h.rejudge z _
  · exact h

theorem State.Lined.sensorByte (h : s.Lined T) (b : Byte) : (s.sensorByte b).Lined T := by
  unfold State.sensorByte
  split
  · split
    · exact h.same rfl rfl
    · exact h
  · split
    · exact h.same rfl rfl
    · dsimp only
      have h1 : ({ s with sensorRx := none } : State).Lined T := h.same rfl rfl
      split
      · exact h1.takeReading _ _ _
      · exact h1

theorem State.Lined.sensorBytes (h : s.Lined T) (bytes : List Byte) : (bytes.foldl State.sensorByte s).Lined T := by
  induction bytes generalizing s with
  | nil => exact h
  | cons b l ih => exact ih (h.sensorByte b)

theorem State.Lined.turnWatchOn (h : s.Lined T) : s.turnWatchOn.2.Lined T := by
  unfold State.turnWatchOn
  split
  · exact h
  · have h1 : ({ s with watchOn := true } : State).Lined T := h.same rfl rfl
    exact h1.changeQuiet (Work.quiet_rebudgetAll _ _ _)

theorem State.Lined.turnWatchOff (h : s.Lined T) : s.turnWatchOff.2.Lined T := by
  unfold State.turnWatchOff
  split
  · exact h
  · split
    · exact h
    · have h1 : ({ s with watchOn := false } : State).Lined T := h.same rfl rfl
      exact h1.staleAll.kick

theorem State.Lined.clearTripOrder (h : s.Lined T) : s.clearTripOrder.2.Lined T := by
  unfold State.clearTripOrder
  dsimp only
  split
  · exact h.quiet rfl s.field.quiet_clearTrip
  · exact h

/-! ### The Program Engine -/

theorem State.Lined.haltProgramOrder (h : s.Lined T) (slot : Byte) : (s.haltProgramOrder slot).2.Lined T := by
  unfold State.haltProgramOrder
  dsimp only
  split
  · exact h
  · refine .changeKick ?_
    have hw := Work.lined_settleNow (Work.lined_withdrawAll (w := Work.of s.field) h .revoked (fun e => e.origin == .program slot.toNat))
    split
    · exact hw.quiet (Work.quiet_endRun _ _ _)
    · exact hw

theorem State.Lined.loadProgramOrder (h : s.Lined T) (slot count : Byte) (records : List Byte) :
    (s.loadProgramOrder slot count records).2.Lined T := by
  unfold State.loadProgramOrder
  dsimp only
  split
  · exact h
  · split
    · exact h
    · exact h
    · exact h
    · exact h
    · exact h
    all_goals
      split
      · exact h
      · split
        · exact h
        · split
          · exact h
          · exact h.quiet rfl (s.field.quiet_setSlot _ _)

theorem State.Lined.startProgramOrder (h : s.Lined T) (tag slot level : Byte) : (s.startProgramOrder tag slot level).2.Lined T := by
  unfold State.startProgramOrder
  dsimp only
  split
  · exact h
  · split
    · exact h
    · split
      · exact h
      · exact h
      · exact h
      · exact h
      · exact h
      · exact h
      · exact h.quiet rfl (s.field.quiet_start _ _ _)

theorem State.Lined.readProgramStatusOrder (h : s.Lined T) (slot : Byte) : (s.readProgramStatusOrder slot).2.Lined T := by
  unfold State.readProgramStatusOrder
  dsimp only
  split
  · exact h
  · dsimp only
    split
    · exact h.quiet rfl (s.field.quiet_setSlot _ _)
    · exact h

/-! ### The Operating State Controller -/

theorem State.Lined.withOsc (h : s.Lined T) (o : Osc) : ({ s with osc := o } : State).Lined T := h.same rfl rfl

theorem State.Lined.enterState (h : s.Lined T) (t : OpState) : (s.enterState t).Lined T := by
  unfold State.enterState
  split
  · split
    · exact (h.withOsc _).stateEvent
    · exact h.enterHold _
  · split
    · exact (h.withOsc _).stateEvent
    · exact (h.withOsc _).stateEvent
  · exact (h.withOsc _).staleAll.stateEvent
  · exact h
  · exact h

theorem State.Lined.setStateOrder (h : s.Lined T) (target : Byte) : (s.setStateOrder target).2.Lined T := by
  unfold State.setStateOrder
  split
  · exact h
  · split
    · exact h
    · split
      · exact h
      · split
        · exact h
        · split
          · exact h
          · split
            · exact h
            · exact (h.enterState _).kick

theorem State.Lined.completeWake (h : s.Lined T) (k : Wake) : (s.completeWake k).Lined T := by
  unfold State.completeWake
  split
  · exact h.enterHold _
  · exact (h.withOsc _).stateEvent

/-! ### The Table Store -/

theorem State.Lined.tableReadOrder (h : s.Lined T) (table : Byte) (first : Half) (count : Byte) :
    (s.tableReadOrder table first count).2.Lined T := by
  unfold State.tableReadOrder
  split
  · exact h
  · split <;> exact h

theorem State.Lined.protectOrder (h : s.Lined T) (block : Byte) : (s.protectOrder block).2.Lined T := by
  unfold State.protectOrder
  split
  · exact h
  · split
    · exact h
    · split
      · exact h
      · exact h.same rfl rfl

theorem State.Lined.unprotectAllOrder (h : s.Lined T) : s.unprotectAllOrder.2.Lined T := by
  unfold State.unprotectAllOrder
  split
  · exact h
  · split
    · exact h
    · exact h.same rfl rfl

end Sys2Proof.Machine
end

section
/-! PROOFS for the segment lines: every command that makes no reset and writes no table. -/

namespace Sys2Proof.Machine

variable {T : Prop} {s t : State}

/-! ### Orders and answers -/

theorem execPass_lined (h : s.Lined T) (tag : Byte) (helio : Half) (body : List Byte) (he : execPass tag helio body s = .next t) :
    t.Lined T := by
  cases he
  have h1 : s.popFrame.Lined T := h.same rfl rfl
  split
  · dsimp only
    split
    · exact h1.same rfl rfl
    · next hn => exact (h1.holdPass hn tag body).kick
  · exact h

theorem execReset_lined (h : s.Lined T) (tag : Byte) (he : execReset tag s = .next t) : t.Lined T := by
  cases he
  split
  · dsimp only
    split <;> exact h.same rfl rfl
  · exact h

theorem execCommitDone_lined (h : s.Lined T) (he : execCommitDone s = .next t) : t.Lined T := by
  cases he
  split
  · split
    · exact h.same rfl rfl
    · exact h
  · exact h

theorem execTakeNonOrderFrame_lined (h : s.Lined T) (he : execTakeNonOrderFrame s = .next t) : t.Lined T := by
  cases he
  split
  · split
    · exact h.same rfl rfl
    · exact h
  · exact h

theorem execSendAnswerFrame_lined (h : s.Lined T) (he : execSendAnswerFrame s = .next t) : t.Lined T := by
  cases he
  split
  · split
    · exact h.same rfl rfl
    · split
      · exact h
      · exact h.same rfl rfl
  · exact h

theorem execSendReportFrame_lined (h : s.Lined T) (he : execSendReportFrame s = .next t) : t.Lined T := by
  cases he
  split
  · split
    · exact h.quiet rfl (Field.quiet_takeReport _ _ _)
    · exact h
  · exact h

/-! ### The segment lines -/

theorem execSegmentRequestSent_lined (h : s.Lined T) (g : Fin 4) (he : execSegmentRequestSent g s = .next t) : t.Lined T := by
  cases he
  split
  · split
    · next x hx =>
      split
      · exact Field.Lined.sameExchange (f := s.field) h g.isLt hx rfl rfl
      · exact h
    · exact h
  · exact h

theorem execDriveAnswer_lined (h : s.Lined T) (g : Fin 4) (frame : List Byte) (he : execDriveAnswer g frame s = .next t) :
    t.Lined T := by
  cases he
  split
  · split
    · next x fr hx _ =>
      split
      · exact h.takeAnswer g.isLt hx fr
      · exact h
    · exact h
    · exact h
  · exact h

theorem execDriveResponseTimeout_lined (h : s.Lined T) (g : Fin 4) (he : execDriveResponseTimeout g s = .next t) : t.Lined T := by
  cases he
  split
  · split
    · next x hx =>
      split
      · next n _ =>
        have h1 := h.advanceTo (n + Config.answerWindowMs)
        dsimp only
        split
        · next hk => exact h1.endPass g.isLt hx hk none
        · next hk => exact h1.noGoodAnswer g.isLt hx hk
      · exact h
    · exact h
  · exact h

theorem execNightSpacingExpiry_lined (h : s.Lined T) (g : Fin 4) (he : execNightSpacingExpiry g s = .next t) : t.Lined T := by
  cases he
  dsimp only
  split
  · split
    · next n _ => exact Field.Lined.choose (h.advanceTo (n + Config.nightSpacingMs)) true g.isLt
    · exact h
  · exact h

theorem execNightPollDue_lined (h : s.Lined T) (g : Fin 4) (he : execNightPollDue g s = .next t) : t.Lined T := by
  cases he
  dsimp only
  split
  · split
    · next n _ => exact Field.Lined.choose (h.advanceTo _) true g.isLt
    · exact h
  · exact h

/-! ### The timers -/

/-- What a slew timeout leaves of the record of a heliostat whose motion has been accepted (R43). -/
theorem HelioRun.moves_slewTimedOut {r : HelioRun} (hr : r.Sound) (hs : r.state = .slewing) (ha : r.accepted = true)
    (x : Option FaultCause) :
    r.Moves (r.by (some .slewTimeout) (({ r with slewEnds := none, fault := x } : HelioRun).setOwed .defocus .slewTimeout).nothingRemains)
      ∧ r.queued = false := by
  have hq : r.queued = false := by
    obtain ⟨-, -, -, -, -, -, -, hqueued⟩ := hr
    by_contra hq
    have := (hqueued (by simpa using hq)).2.1
    rw [ha] at this
    cases this
  obtain ⟨o, b, l, e⟩ := ((HelioRun.reowed_setOwed .defocus .slewTimeout { r with slewEnds := none, fault := x }).trans
    (HelioRun.reowed_nothingRemains _)).trans (HelioRun.reowed_by (some .slewTimeout) r _)
  have hstop : ({ r with slewEnds := none, fault := x } : HelioRun).Sound := hr.other rfl rfl rfl rfl rfl rfl rfl rfl rfl rfl
  refine ⟨.of_kept (by simp [hs]) (by rw [e]) (by rw [e]) ?_ fun ht => ?_, hq⟩
  · exact ((hstop.setOwed _ _ hq).nothingRemains).by _
  · have ht' : ({ r with slewEnds := none, fault := x } : HelioRun).Tidy := by
      obtain ⟨h1, h2, h3, h4, h5, h6, h7, h8⟩ := ht
      exact ⟨fun hn => absurd hs hn, h2, h3, h4, h5, h6, h7, h8⟩
    have h1 := ((HelioRun.Good.trim ⟨hstop, ht'⟩).setOwed ⟨by simp [hs], by simp [hs], by simp [hs]⟩ .defocus .slewTimeout).tidied
    rw [HelioRun.tidy_setOwed, HelioRun.tidy_eq hstop ht'] at h1
    exact h1.by _

theorem execSlewTimeout_lined (h : s.Lined T) (j : Nat) (he : execSlewTimeout j s = .next t) : t.Lined T := by
  cases he
  dsimp only
  split
  · next n _ =>
    split
    · next hc =>
      simp only [Bool.and_eq_true, beq_iff_eq] at hc
      have h1 := h.advanceTo n
      obtain ⟨hm, hq⟩ := HelioRun.moves_slewTimedOut (h.records j) hc.1.2 hc.2
        ((s.field.run j).fault.orElse (fun _ => some .slewTimeout))
      refine .changeKick (Work.lined_put h1 hm ?_ fun hq' => ?_)
      · rw [HelioRun.by_queued, HelioRun.nothingRemains_queued, HelioRun.setOwed_queued]
        rfl
      · rw [show (Work.of (s.advanceTo n).field).fld.run j = s.field.run j from rfl, hq] at hq'
        cases hq'
    · exact h
  · exact h

theorem execSurveyLimit_lined (h : s.Lined T) (he : execSurveyLimit s = .next t) : t.Lined T := by
  cases he
  split
  · next n _ =>
    split
    · dsimp only
      refine State.Lined.kick (State.Lined.enterHold (State.Lined.withOsc (.change ?_) _) _)
      exact Work.lined_foldl (fun _ j _ hw => Work.lined_giveUp hw j) (h.advanceTo n)
    · exact h
  · exact h

theorem execStaleExpiry_lined (h : s.Lined T) (z : Nat) (he : execStaleExpiry z s = .next t) : t.Lined T := by
  cases he
  split
  · next n _ =>
    split
    · exact (h.advanceTo n).rejudge z _
    · exact h
  · exact h

theorem execWakeDone_lined (h : s.Lined T) (he : execWakeDone s = .next t) : t.Lined T := by
  cases he
  split
  · split
    · exact (h.advanceTo _).completeWake _
    · exact h
  · exact h

theorem execWakeSettleTick_lined (h : s.Lined T) (he : execWakeSettleTick s = .next t) : t.Lined T := by
  cases he
  split
  · split
    · exact (h.advanceTo _).withOsc _
    · exact h
  · exact h

/-! ### The steps of the programs -/

theorem execAimGroup_lined (h : s.Lined T) (he : execAimGroup s = .next t) : t.Lined T := by
  cases he
  split
  · exact .changeKick (Work.lined_beginAimGroup _ _ _ _ _ _ h)
  · exact h

theorem execQueueSpaceResume_lined (h : s.Lined T) (he : execQueueSpaceResume s = .next t) : t.Lined T := by
  cases he
  split
  · split
    · exact .changeKick (Work.lined_aimGroupFrom _ _ _ _ _ _ _ (Field.Lined.quiet h (s.field.quiet_setSlot _ _)))
    · exact h
  · exact h

theorem execSettleWaitEnd_lined (h : s.Lined T) (he : execSettleWaitEnd s = .next t) : t.Lined T := by
  cases he
  split
  · next k _ _ _ _ _ _ =>
    split
    · exact h
    · exact h.changeQuiet ((s.field.quiet_placeUnsettled k).trans (Work.quiet_completeStep k _ { Work.of s.field with fld := s.field.placeUnsettled k }))
  · exact h

theorem execDefocusGroup_lined (h : s.Lined T) (he : execDefocusGroup s = .next t) : t.Lined T := by
  cases he
  split
  · exact .changeKick (Work.lined_moveGroup _ _ _ _ h)
  · exact h

theorem execStowGroup_lined (h : s.Lined T) (he : execStowGroup s = .next t) : t.Lined T := by
  cases he
  split
  · exact .changeKick (Work.lined_moveGroup _ _ _ _ h)
  · exact h

theorem execGroupSettleWaitEnd_lined (h : s.Lined T) (he : execGroupSettleWaitEnd s = .next t) : t.Lined T := by
  cases he
  split
  · split
    · exact h
    · exact h.changeQuiet (Work.quiet_completeStep _ _ _)
  · exact h

theorem execCeiling_lined (h : s.Lined T) (he : execCeiling s = .next t) : t.Lined T := by
  cases he
  split
  · refine .changeKick (Field.Lined.quiet (Work.lined_settleNow ?_) (Work.quiet_completeStep _ _ _))
    exact Field.Lined.quiet (f := (Work.of s.field).fld) h (Work.quiet_setCeilings _ _ _ _ _)
  · exact h

theorem execWait_lined (h : s.Lined T) (he : execWait s = .next t) : t.Lined T := by
  cases he
  split
  · exact h.changeQuiet (Work.quiet_waitFor _ _ _)
  · exact h

theorem execWaitTimerExpiry_lined (h : s.Lined T) (he : execWaitTimerExpiry s = .next t) : t.Lined T := by
  cases he
  split
  · exact (h.advanceTo _).changeQuiet (Work.quiet_completeStep _ _ _)
  · exact h

theorem execTest_lined (h : s.Lined T) (he : execTest s = .next t) : t.Lined T := by
  cases he
  split
  · exact h.changeQuiet (Work.quiet_completeStep _ _ _)
  · exact h

theorem execJump_lined (h : s.Lined T) (he : execJump s = .next t) : t.Lined T := by
  cases he
  split
  · exact h.changeQuiet (Work.quiet_completeStep _ _ _)
  · exact h

theorem execEndStep_lined (h : s.Lined T) (he : execEndStep s = .next t) : t.Lined T := by
  cases he
  split
  · exact h.changeQuiet (Work.quiet_completeStep _ _ _)
  · exact h

/-! ### FSAFE_N and the reset line -/

theorem execFsafeAssert_lined (h : s.Lined T) (hc : s.field.Canonical) (he : execFsafeAssert s = .next t) : t.Lined T := by
  cases he
  have h1 : ({ s with fsafeAsserted := true } : State).Lined T := h.same rfl rfl
  dsimp only
  split
  · exact (h1.safeOnset hc true).kick
  · exact h1

theorem execFsafeRelease_lined (h : s.Lined T) (he : execFsafeRelease s = .next t) : t.Lined T := by
  cases he
  have h1 : ({ s with fsafeAsserted := false } : State).Lined T := h.same rfl rfl
  dsimp only
  split
  · exact (h1.withOsc _).stateEvent
  · exact h1

theorem execResetRelease_lined (h : s.Lined T) (he : execResetRelease s = .next t) : t.Lined T := by
  cases he
  split
  · exact h.same rfl rfl
  · exact h
  · exact h

/-! ### Every command -/

/-- Every command that makes no reset and writes no table keeps every fact about the segment lines. -/
theorem exec_lined {c : Instr} (hc : Instr.resetsOrWrites c = false) (hf : s.field.Canonical) (h : s.Lined T) (he : exec c s = .next t) :
    t.Lined T := by
  cases c with
  | powerOnReset => exact absurd hc (by decide)
  | pinReset => exact absurd hc (by decide)
  | tableLoadingDone d => exact absurd hc (by simp [Instr.resetsOrWrites])
  | tableWrite a b c d e => exact absurd hc (by simp [Instr.resetsOrWrites])
  | frameSent => exact absurd hc (by decide)
  | resetRelease => exact execResetRelease_lined h he
  | fsafeAssert => exact execFsafeAssert_lined h hf he
  | fsafeRelease => exact execFsafeRelease_lined h he
  | uplinkFrame bytes =>
    cases he
    split
    · exact h.same rfl rfl
    · exact h
  | takeNonOrderFrame => exact execTakeNonOrderFrame_lined h he
  | aim tag j p => cases he; exact h.order _ _ _ fun h => h.aimOrder tag j p
  | setCeiling tag a b v => cases he; exact h.order _ _ _ fun h => h.setCeilingOrder a b v
  | readZone tag z => cases he; exact h.order _ _ _ fun h => h.readZoneOrder z
  | defocus tag sc i => cases he; exact h.order _ _ _ fun h => h.motionOrder _ sc i
  | stow tag sc i => cases he; exact h.order _ _ _ fun h => h.motionOrder _ sc i
  | clearFault tag sc i => cases he; exact h.order _ _ _ fun h => h.clearFaultOrder sc i
  | flagsSet tag g m => cases he; exact h.order _ _ _ fun h => h.flagsOrder g m (HelioRun.alike_giveFlags m)
  | flagsClear tag g m => cases he; exact h.order _ _ _ fun h => h.flagsOrder g m (HelioRun.alike_takeFlags m)
  | readHeliostat tag j => cases he; exact h.order _ _ _ fun h => h.readHeliostatOrder j
  | pass tag j b => exact execPass_lined h tag j b he
  | watchOn tag => cases he; exact h.order _ _ _ fun h => h.turnWatchOn
  | watchOff tag => cases he; exact h.order _ _ _ fun h => h.turnWatchOff
  | clearTrip tag => cases he; exact h.order _ _ _ fun h => h.clearTripOrder
  | lockLimits tag => cases he; exact h.order _ _ _ fun h => h.same rfl rfl
  | loadProgram tag k n r => cases he; exact h.order _ _ _ fun h => h.loadProgramOrder k n r
  | startProgram tag k l => cases he; exact h.order _ _ _ fun h => h.startProgramOrder tag k l
  | haltProgram tag k => cases he; exact h.order _ _ _ fun h => h.haltProgramOrder k
  | readProgramStatus tag k => cases he; exact h.order _ _ _ fun h => h.readProgramStatusOrder k
  | setState tag t => cases he; exact h.order _ _ _ fun h => h.setStateOrder t
  | fieldDefocus tag => cases he; exact h.order _ _ _ fun h => (h.safeOnset hf false).kick
  | reset tag => exact execReset_lined h tag he
  | status tag => cases he; exact h.order _ _ _ fun h => h.same rfl rfl
  | tableRead tag a b n => cases he; exact h.order _ _ _ fun h => h.tableReadOrder a b n
  | protect tag b => cases he; exact h.order _ _ _ fun h => h.protectOrder b
  | unprotectAll tag => cases he; exact h.order _ _ _ fun h => h.unprotectAllOrder
  | protectionStatus tag => cases he; exact h.order _ _ _ fun h => h
  | commitDone => exact execCommitDone_lined h he
  | sendAnswerFrame => exact execSendAnswerFrame_lined h he
  | sendReportFrame => exact execSendReportFrame_lined h he
  | nightSpacingExpiry g => exact execNightSpacingExpiry_lined h g he
  | segmentRequestSent g => exact execSegmentRequestSent_lined h g he
  | driveAnswer g f => exact execDriveAnswer_lined h g f he
  | driveResponseTimeout g => exact execDriveResponseTimeout_lined h g he
  | slewTimeout j => exact execSlewTimeout_lined h j he
  | surveyLimit => exact execSurveyLimit_lined h he
  | wakeSettleTick => exact execWakeSettleTick_lined h he
  | wakeDone => exact execWakeDone_lined h he
  | sensorReading bytes =>
    cases he
    split
    · exact h.sensorBytes bytes
    · exact h
  | staleExpiry z => exact execStaleExpiry_lined h z he
  | aimGroup => exact execAimGroup_lined h he
  | queueSpaceResume => exact execQueueSpaceResume_lined h he
  | settleWaitEnd => exact execSettleWaitEnd_lined h he
  | defocusGroup => exact execDefocusGroup_lined h he
  | stowGroup => exact execStowGroup_lined h he
  | groupSettleWaitEnd => exact execGroupSettleWaitEnd_lined h he
  | ceiling => exact execCeiling_lined h he
  | wait => exact execWait_lined h he
  | waitTimerExpiry => exact execWaitTimerExpiry_lined h he
  | test => exact execTest_lined h he
  | jump => exact execJump_lined h he
  | endStep => exact execEndStep_lined h he
  | uplinkGapLimit =>
    cases he
    split
    · exact h.same rfl rfl
    · exact h
  | sensorFrameGap =>
    cases he
    split
    · exact h.same rfl rfl
    · exact h
  | nightPollDue g => exact execNightPollDue_lined h g he

end Sys2Proof.Machine
end

section
/-! PROOFS for the segment lines: the resets (R3, R84, R130, R146, R147), and the part while it is in reset or loads its tables. -/

namespace Sys2Proof.Machine

variable {T : Prop} {s t : State}

/-! ### After a reset -/

/-- After a reset no heliostat owes a motion, is queued or is in flight (R3), and no SXE has an exchange, an entry or a PASS (R84). -/
theorem HelioRun.tidy_afterReset (r : HelioRun) : r.afterReset.Tidy := by
  constructor <;> simp [HelioRun.afterReset, HelioRun.blank]

theorem HelioRun.tidy_blank : HelioRun.blank.Tidy := by
  constructor <;> simp [HelioRun.blank]

theorem Field.sxeAt_afterReset (l : Tables) (b : Bool) (kept : Field) (k : Nat) : (kept.afterReset l b).sxeAt k = Sxe.blank := rfl

theorem Field.run_afterReset_still (l : Tables) (b : Bool) (kept : Field) (h : Nat) :
    ((kept.afterReset l b).run h).inFlight = false ∧ ((kept.afterReset l b).run h).queued = false
      ∧ ((kept.afterReset l b).run h).owed = none ∧ ((kept.afterReset l b).run h).Tidy := by
  rcases Field.run_afterReset l b kept h with e | ⟨r, e⟩ <;> rw [e]
  · exact ⟨rfl, rfl, rfl, HelioRun.tidy_blank⟩
  · exact ⟨rfl, rfl, rfl, r.tidy_afterReset⟩

theorem Field.lines_afterReset (env : Env) (l : Tables) (b : Bool) (kept : Field) : (kept.afterReset l b).LinesExact env := by
  have hstill := Field.run_afterReset_still l b kept
  refine ⟨nofun, nofun, nofun, fun h hi => ?_, nofun, fun _ => List.nodup_nil, fun h hq => ?_, nofun, nofun⟩
  · rw [(hstill h).1] at hi
    cases hi
  · rw [(hstill h).2.1] at hq
    cases hq

theorem Field.linked_afterReset {env : Env} (hl : env.live.Canonical) (b : Bool) {kept : Field} (hk : kept.Canonical) :
    (kept.afterReset env.live b).Linked T env := by
  have hstill := Field.run_afterReset_still env.live b kept
  refine ⟨hl, (Field.afterReset_good (env := env) hl b hk).records, Field.lines_afterReset env _ b kept, fun h => ?_,
    fun h _ => ⟨(hstill h).1, (hstill h).2.2.1⟩, fun _ => ⟨fun h => (hstill h).2.2.2, fun k => ?_, nofun⟩⟩
  · rw [Field.run_afterReset_eq hl]
    split
    · next hp => exact iff_of_true hp (by simp [HelioRun.afterReset])
    · next hp => exact iff_of_false hp (by simp [HelioRun.blank])
  · rw [Field.sxeAt_afterReset]
    decide

/-- The entry to SURVEY makes its reports and the SXEs' first choices (R84, R147, R149). -/
theorem State.Linked.enterSurvey (h : s.Linked T) (c : StateCause) : (s.enterSurvey c).Linked T := by
  have hsurvey : ∀ s1 : State, s1.Linked T → (if s1.anyUnsure then s1 else s1.surveyDone).Linked T := by
    intro s1 h1
    split
    · exact h1
    · exact (Field.Linked.quiet h1 (State.quiet_enterHold .surveyDone s1)).congr (by rfl)
  exact State.Linked.kick (hsurvey _ ((Field.Linked.quiet h (s.field.quiet_queueReport .opState)).congr (by rfl)))

theorem State.linked_comeUp (hl : s.live.Canonical) (k : ResetKind) : (s.comeUp k).Linked T :=
  State.Linked.enterSurvey (Field.linked_afterReset (env := State.env { s with
    phase := .running, watchOn := true, sensorRx := none, ulp := Ulp.blank }) hl true Field.canonical_blank) k.cause

theorem State.linked_softReset (hl : s.live.Canonical) (hf : s.field.Canonical) : s.softReset.Linked T :=
  State.Linked.enterSurvey (Field.linked_afterReset (env := State.env { s with
    ulp := { s.ulp with waiting := none, deferred := [], readyOrder := [], tx := none } }) hl s.watchOn hf) .softReset

/-! ### In reset -/

/-- What the statement asks of a command. -/
structure State.LinesKept (s t : State) : Prop where
  running : t.phase = .running → t.field.LinesExact t.env ∧ t.PresenceExact
  tidy : s.field.Tidy → t.field.Tidy

theorem State.Linked.kept (h : t.Linked s.field.Tidy) : s.LinesKept t := ⟨fun _ => ⟨h.lines, h.present, h.idle⟩, h.tidy⟩

/-- A part that is in reset or loads its tables keeps the field. -/
theorem State.LinesKept.of_field (hf : t.field = s.field) (hp : t.phase ≠ .running) : s.LinesKept t :=
  ⟨fun h => absurd h hp, fun h => hf ▸ h⟩

/-- A hard reset ends the exchanges and the slew timers and leaves the records otherwise alone (R144). -/
theorem Field.Tidy.halt {f : Field} (hc : f.Canonical) (h : f.Tidy) : f.halt.Tidy := by
  refine ⟨fun j => ?_, fun k => ?_, fun k x _ _ hx => ?_⟩
  · obtain ⟨h1, h2, h3, h4, h5, h6, h7, h8⟩ := h.records j
    rw [Field.run_halt hc]
    exact ⟨fun hs => ⟨rfl, (h1 hs).2⟩, h2, h3, h4, h5, h6, h7, h8⟩
  · rw [Field.sxeAt_halt hc]
    exact h.pointers k
  · rw [Field.sxeAt_halt hc] at hx
    cases hx

theorem State.linesKept_enterReset (hc : s.field.Canonical) (k : ResetKind) : s.LinesKept (s.enterReset k) :=
  ⟨nofun, fun h => h.halt hc⟩

theorem execTableLoadingDone_linesKept (hp : s.phase ≠ .running) (hc : s.store.tables.Canonical) (damaged : List PageRef)
    (he : exec (.tableLoadingDone damaged) s = .next t) : s.LinesKept t := by
  cases he
  split
  · exact (State.linked_comeUp (State.canonical_loadTables (s := { s with store := s.store.damage damaged }) hc) _).kept
  · exact .of_field rfl hp
  · exact .of_field rfl hp

/-! ### While the part is not running -/

/-- The commands that act while the part is in reset or loads its tables: the resets' own, and the levels at FSAFE_N (R146). -/
def Instr.actsInReset : Instr → Bool
  | .powerOnReset | .pinReset | .resetRelease | .tableLoadingDone _ | .fsafeAssert | .fsafeRelease => true
  | _ => false

theorem State.mayTake_idle (hr : s.isRunning = false) : s.mayTake = false := by
  unfold State.mayTake
  rw [hr, Bool.false_and, Bool.false_and]

theorem State.takes_idle (hr : s.isRunning = false) (c : Instr) : s.takes c = false := by
  unfold State.takes
  rw [State.mayTake_idle hr, Bool.false_and, Bool.false_and]

theorem State.order_idle (hr : s.isRunning = false) (c : Instr) (tag kind : Byte) (run : State → Reply × State) :
    s.order c tag kind run = s := by
  unfold State.order
  rw [if_neg (by rw [State.takes_idle hr]; exact Bool.false_ne_true)]

theorem State.stepDue_idle (hr : s.isRunning = false) : s.stepDue = none := by
  unfold State.stepDue
  rw [if_neg (by rw [hr]; exact Bool.false_ne_true)]

theorem State.waitUnderWay_idle (hr : s.isRunning = false) : s.waitUnderWay = none := by
  unfold State.waitUnderWay
  rw [if_neg (by rw [hr]; exact Bool.false_ne_true)]

/-- While the part is not running, no other command has an effect (R146). -/
theorem exec_idle (hr : s.isRunning = false) {c : Instr} (hc : Instr.actsInReset c = false) : exec c s = .next s := by
  have htakes := State.takes_idle hr
  have horder := State.order_idle hr
  cases c with
  | powerOnReset => cases hc
  | pinReset => cases hc
  | resetRelease => cases hc
  | tableLoadingDone d => cases hc
  | fsafeAssert => cases hc
  | fsafeRelease => cases hc
  | uplinkFrame bytes => simp only [exec, execUplinkFrame, hr, Bool.false_eq_true, if_false]
  | takeNonOrderFrame =>
    simp only [exec, execTakeNonOrderFrame, State.mayTake_idle hr, Bool.false_and, Bool.false_eq_true, if_false]
    split <;> rfl
  | pass tag j b => simp only [exec, execPass, htakes, Bool.false_eq_true, if_false]
  | reset tag => simp only [exec, execReset, htakes, Bool.false_eq_true, if_false]
  | aim => exact congrArg _ (horder _ _ _ _)
  | setCeiling => exact congrArg _ (horder _ _ _ _)
  | readZone => exact congrArg _ (horder _ _ _ _)
  | defocus => exact congrArg _ (horder _ _ _ _)
  | stow => exact congrArg _ (horder _ _ _ _)
  | clearFault => exact congrArg _ (horder _ _ _ _)
  | flagsSet => exact congrArg _ (horder _ _ _ _)
  | flagsClear => exact congrArg _ (horder _ _ _ _)
  | readHeliostat => exact congrArg _ (horder _ _ _ _)
  | watchOn => exact congrArg _ (horder _ _ _ _)
  | watchOff => exact congrArg _ (horder _ _ _ _)
  | clearTrip => exact congrArg _ (horder _ _ _ _)
  | lockLimits => exact congrArg _ (horder _ _ _ _)
  | loadProgram => exact congrArg _ (horder _ _ _ _)
  | startProgram => exact congrArg _ (horder _ _ _ _)
  | haltProgram => exact congrArg _ (horder _ _ _ _)
  | readProgramStatus => exact congrArg _ (horder _ _ _ _)
  | setState => exact congrArg _ (horder _ _ _ _)
  | fieldDefocus => exact congrArg _ (horder _ _ _ _)
  | status => exact congrArg _ (horder _ _ _ _)
  | tableRead => exact congrArg _ (horder _ _ _ _)
  | tableWrite => exact congrArg _ (horder _ _ _ _)
  | protect => exact congrArg _ (horder _ _ _ _)
  | unprotectAll => exact congrArg _ (horder _ _ _ _)
  | protectionStatus => exact congrArg _ (horder _ _ _ _)
  | commitDone => simp only [exec, execCommitDone, hr, Bool.false_eq_true, if_false]; split <;> rfl
  | sendAnswerFrame => simp only [exec, execSendAnswerFrame, hr, Bool.false_and, Bool.false_eq_true, if_false]
  | sendReportFrame => simp only [exec, execSendReportFrame, hr, Bool.false_and, Bool.false_eq_true, if_false]
  | frameSent => simp only [exec, execFrameSent, hr, Bool.false_eq_true, if_false]; split <;> rfl
  | nightSpacingExpiry g => simp only [exec, execNightSpacingExpiry, hr, Bool.false_and, Bool.false_eq_true, if_false]
  | nightPollDue g => simp only [exec, execNightPollDue, hr, Bool.false_and, Bool.false_eq_true, if_false]
  | segmentRequestSent g => simp only [exec, execSegmentRequestSent, hr, Bool.false_eq_true, if_false]
  | driveAnswer g f => simp only [exec, execDriveAnswer, hr, Bool.false_eq_true, if_false]
  | driveResponseTimeout g => simp only [exec, execDriveResponseTimeout, hr, Bool.false_eq_true, if_false]
  | slewTimeout j => simp only [exec, execSlewTimeout, hr, Bool.false_and, Bool.false_eq_true, if_false]; split <;> rfl
  | surveyLimit => simp only [exec, execSurveyLimit, hr, Bool.false_eq_true, if_false]; split <;> rfl
  | wakeSettleTick => simp only [exec, execWakeSettleTick, hr, Bool.false_and, Bool.false_eq_true, if_false]; split <;> rfl
  | wakeDone => simp only [exec, execWakeDone, hr, Bool.false_and, Bool.false_eq_true, if_false]; split <;> rfl
  | sensorReading bytes => simp only [exec, execSensorReading, hr, Bool.false_eq_true, if_false]
  | staleExpiry z => simp only [exec, execStaleExpiry, hr, Bool.false_eq_true, if_false]; split <;> rfl
  | uplinkGapLimit => simp only [exec, execUplinkGapLimit, hr, Bool.false_and, Bool.false_eq_true, if_false]
  | sensorFrameGap => simp only [exec, execSensorFrameGap, hr, Bool.false_eq_true, if_false]
  | aimGroup => simp only [exec, execAimGroup, State.stepDue_idle hr]
  | queueSpaceResume => simp only [exec, execQueueSpaceResume, State.waitUnderWay_idle hr]
  | settleWaitEnd => simp only [exec, execSettleWaitEnd, State.waitUnderWay_idle hr]
  | defocusGroup => simp only [exec, execDefocusGroup, State.stepDue_idle hr]
  | stowGroup => simp only [exec, execStowGroup, State.stepDue_idle hr]
  | groupSettleWaitEnd => simp only [exec, execGroupSettleWaitEnd, State.waitUnderWay_idle hr]
  | ceiling => simp only [exec, execCeiling, State.stepDue_idle hr]
  | wait => simp only [exec, execWait, State.stepDue_idle hr]
  | waitTimerExpiry => simp only [exec, execWaitTimerExpiry, State.waitUnderWay_idle hr]
  | test => simp only [exec, execTest, State.stepDue_idle hr]
  | jump => simp only [exec, execJump, State.stepDue_idle hr]
  | endStep => simp only [exec, execEndStep, State.stepDue_idle hr]

/-- Every command that finds the part in reset or loading its tables does what the statement asks. -/
theorem exec_linesKept_idle (hs : s.Sound) (hp : s.phase ≠ .running) {c : Instr} (he : exec c s = .next t) : s.LinesKept t := by
  obtain ⟨hf, -, hstore, -⟩ := hs.canonical
  have hr : s.isRunning = false := beq_false_of_ne hp
  by_cases hc : Instr.actsInReset c = true
  · cases c with
    | powerOnReset => cases he; exact ⟨nofun, fun h => h.halt hf⟩
    | pinReset => cases he; exact State.linesKept_enterReset hf _
    | resetRelease =>
      cases he
      split
      · exact .of_field rfl nofun
      · exact .of_field rfl hp
      · exact .of_field rfl hp
    | tableLoadingDone d => exact execTableLoadingDone_linesKept hp hstore d he
    | fsafeAssert =>
      simp only [exec, execFsafeAssert, hr, Bool.false_and, Bool.false_eq_true, if_false] at he
      cases he
      exact .of_field rfl hp
    | fsafeRelease =>
      simp only [exec, execFsafeRelease, hr, Bool.false_and, Bool.false_eq_true, if_false] at he
      cases he
      exact .of_field rfl hp
    | _ => cases hc
  · rw [exec_idle hr (by simpa using hc)] at he
    cases he
    exact .of_field rfl hp

end Sys2Proof.Machine
end

section
/-! PROOFS for the segment lines: TABLE WRITE, record by record (R1, R16, R184). A record whose segment or presence changes is of a heliostat
that no line, queue or PASS names, so the lines agree with the records under the new live tables too. -/

namespace Sys2Proof.Machine

variable {T : Prop} {env env' : Env} {f g : Field}

/-! ### New live tables -/

theorem Tables.helioAt_withHelio (t : Tables) (i : Nat) (c : HelioConfig) (j : Nat) :
    (t.withRecord i (.helio c)).helioAt j = if i = j ∧ i < Config.heliostats then c else t.helioAt j := Table.get_set _ _ _ _ _ _

/-- Under new live tables heliostat `i` alone may have another segment or presence, and its record, which no line names, follows. -/
structure Field.Rewritten (T : Prop) (env env' : Env) (i : Nat) (f g : Field) : Prop where
  tables : env'.live.Canonical
  others : ∀ j, j ≠ i → (env'.live.helioAt j).present = (env.live.helioAt j).present ∧ env'.segmentOf j = env.segmentOf j
  placed : (env'.live.helioAt i).present = true → env'.segmentOf i < Config.segments
  still : (f.run i).inFlight = false ∧ (f.run i).queued = false
  runs : ∀ j, j ≠ i → (f.run j).Alike (g.run j)
  sxes : ∀ k, (f.sxeAt k).Alike (g.sxeAt k)
  idle : (g.run i).inFlight = false ∧ (g.run i).queued = false ∧ (g.run i).owed = none
  sound : (g.run i).Sound
  tidy : T → f.Tidy → (g.run i).Tidy
  present : (env'.live.helioAt i).present = true ↔ (g.run i).state ≠ .absent

theorem Field.Rewritten.lines {i : Nat} (hf : f.LinesExact env) (hr : f.Rewritten T env env' i g) : g.LinesExact env' := by
  have hseg := fun j hj => (hr.others j hj).2
  have hsame : ∀ j, j ≠ i → (g.run j).inFlight = (f.run j).inFlight ∧ (g.run j).queued = (f.run j).queued
      ∧ (g.run j).granted = (f.run j).granted := by
    intro j hj
    obtain ⟨a, b, c, e⟩ := hr.runs j hj
    rw [e]
    exact ⟨rfl, rfl, rfl⟩
  have hfly : ∀ j, (f.run j).inFlight = true → j ≠ i := fun j hj e => by rw [e, hr.still.1] at hj; cases hj
  have hqd : ∀ j, (f.run j).queued = true → j ≠ i := fun j hj e => by rw [e, hr.still.2] at hj; cases hj
  choose u v hsxe using hr.sxes
  obtain ⟨h1, h2, h3, h4, h5, h6, h7, h8, h9⟩ := hf
  constructor <;> simp only [hsxe]
  · intro k x hx
    obtain ⟨hk, hi⟩ := h1 k x hx
    rw [hseg _ (hfly _ hi), (hsame _ (hfly _ hi)).1]
    exact ⟨hk, hi⟩
  · intro k p hp
    obtain ⟨hk, hi⟩ := h2 k p hp
    rw [hseg _ (hfly _ hi), (hsame _ (hfly _ hi)).1]
    exact ⟨hk, hi⟩
  · exact h3
  · intro j hj
    by_cases hji : j = i
    · rw [hji, hr.idle.1] at hj
      cases hj
    · rw [hseg j hji]
      exact h4 j ((hsame j hji).1 ▸ hj)
  · intro k e he
    obtain ⟨hk, hq, hg⟩ := h5 k e he
    obtain ⟨-, e1, e2⟩ := hsame _ (hqd _ hq)
    rw [hseg _ (hqd _ hq), e1, e2]
    exact ⟨hk, hq, hg⟩
  · exact h6
  · intro j hj
    by_cases hji : j = i
    · rw [hji, hr.idle.2.1] at hj
      cases hj
    · rw [hseg j hji]
      exact h7 j ((hsame j hji).2.1 ▸ hj)
  · intro k x hx hq
    rw [(hsame _ (hfly _ (h1 k x hx).2)).2.1] at hq
    exact h8 k x hx hq
  · intro k p hp
    rw [(hsame _ (hfly _ (h2 k p hp).2)).2.1]
    exact h9 k p hp

theorem Field.Lined.rewritten {i : Nat} (hf : f.Lined T env) (hr : f.Rewritten T env env' i g) : g.Lined T env' := by
  have hlines := hr.lines hf.lines
  obtain ⟨htab, hothers, hplace, hstill, hruns, hsxes, hidle', hsound, htidy', hpresent⟩ := hr
  choose u v hsxe using hsxes
  have hsame : ∀ j, j ≠ i → (g.run j).state = (f.run j).state ∧ (g.run j).inFlight = (f.run j).inFlight
      ∧ (g.run j).owed = (f.run j).owed := by
    intro j hj
    obtain ⟨a, b, c, e⟩ := hruns j hj
    rw [e]
    exact ⟨rfl, rfl, rfl⟩
  obtain ⟨⟨-, hrec, hl, hpres, hidle, htidy⟩, hplaced⟩ := hf
  refine ⟨⟨htab, fun j => ?_, hlines, fun j => ?_, fun j hj => ?_, fun hT => ⟨fun j => ?_, ?_, ?_⟩⟩, fun j hj => ?_⟩
  · by_cases hji : j = i
    · exact hji ▸ hsound
    · exact (hrec j).alike (hruns j hji)
  · by_cases hji : j = i
    · exact hji ▸ hpresent
    · rw [(hothers j hji).1, (hsame j hji).1]
      exact hpres j
  · by_cases hji : j = i
    · rw [hji]
      exact ⟨hidle'.1, hidle'.2.2⟩
    · obtain ⟨e1, e2, e3⟩ := hsame j hji
      rw [e2, e3]
      exact hidle j (e1 ▸ hj)
  · by_cases hji : j = i
    · rw [hji]
      exact htidy' hT (htidy hT)
    · exact ((htidy hT).records j).alike (hruns j hji)
  · simpa only [hsxe] using (htidy hT).pointers
  · intro k x dest cause hx hk
    rw [hsxe] at hx
    have hxi : x.helio ≠ i := by
      intro e
      have := (hl.exchange k x hx).2
      rw [e, hstill.1] at this
      cases this
    rw [(hsame _ hxi).1]
    exact (htidy hT).served k x dest cause hx hk
  · by_cases hji : j = i
    · rw [hji] at hj ⊢
      exact hplace hj
    · rw [(hothers j hji).2]
      exact hplaced j ((hothers j hji).1 ▸ hj)

/-- New live tables with the same segments and presences. -/
theorem Field.Lined.retabled (hf : f.Lined T env) (hc : env'.live.Canonical)
    (h : ∀ j, (env'.live.helioAt j).present = (env.live.helioAt j).present ∧ env'.segmentOf j = env.segmentOf j) :
    f.Lined T env' := by
  obtain ⟨⟨-, hrec, ⟨h1, h2, h3, h4, h5, h6, h7, h8, h9⟩, hpres, hidle, htidy⟩, hplaced⟩ := hf
  have hseg : env'.segmentOf = env.segmentOf := funext fun j => (h j).2
  have hp : ∀ j, (env'.live.helioAt j).present = (env.live.helioAt j).present := fun j => (h j).1
  refine ⟨⟨hc, hrec, ?_, fun j => hp j ▸ hpres j, hidle, htidy⟩, fun j => hp j ▸ hseg ▸ hplaced j⟩
  exact ⟨hseg ▸ h1, hseg ▸ h2, h3, hseg ▸ h4, hseg ▸ h5, h6, hseg ▸ h7, h8, h9⟩

/-! ### One record -/

/-- A heliostat that no table fact holds in use has no load, no entry, no owed motion and no exchange (R184). -/
theorem HelioRun.unused_of_useFact {r : HelioRun} (h : r.useFact = none) :
    r.holdsLoad = false ∧ r.queued = false ∧ r.owed = none ∧ r.inFlight = false := by
  unfold HelioRun.useFact at h
  repeat' split at h
  all_goals simp_all

/-- The runtime part of a heliostat that a write makes present or absent (R1, R16). -/
def HelioRun.introduced (b : Bool) : HelioRun := { HelioRun.blank with state := if b then .unsure else .absent }

theorem HelioRun.tidy_introduced (b : Bool) : (HelioRun.introduced b).Tidy := by
  cases b <;> constructor <;> simp [HelioRun.introduced, HelioRun.blank]

theorem HelioRun.introduced_state (b : Bool) : (HelioRun.introduced b).state ≠ .absent ↔ b = true := by
  cases b <;> simp [HelioRun.introduced]

theorem HelioRun.by_cause (c : Option Cause) (old new : HelioRun) : ∃ x, old.by c new = { new with lastCause := x } := by
  unfold HelioRun.by
  split
  · exact ⟨_, rfl⟩
  · exact ⟨_, rfl⟩

/-- What a written HELIOSTAT record does to the heliostats and the SXEs. -/
theorem Work.presence_other (env : Env) {i j : Nat} (hj : j ≠ i) (a b : Bool) (w : Work) :
    (w.presence env i a b).fld.run j = w.fld.run j := by
  unfold Work.presence
  split
  · rfl
  · exact Work.run_put_other env (Ne.symm hj) _ w

theorem Work.presence_sxeAt (env : Env) (i : Nat) (a b : Bool) (w : Work) (k : Nat) :
    (w.presence env i a b).fld.sxeAt k = w.fld.sxeAt k := by
  unfold Work.presence
  split
  · rfl
  · unfold Field.sxeAt
    rw [Work.sxe_put]

theorem Work.presence_changed (env : Env) {i : Nat} (hi : i < Config.heliostats) {a b : Bool} (hab : a ≠ b) (w : Work) :
    ∃ c x, (w.presence env i a b).fld.run i = { HelioRun.introduced b with lastCause := c, reportOwed := x } := by
  have he : w.presence env i a b = w.put env i ((w.fld.run i).by (some .order) (HelioRun.introduced b)) := if_neg hab
  obtain ⟨c, hc⟩ := HelioRun.by_cause (some .order) (w.fld.run i) (HelioRun.introduced b)
  rw [he, Work.run_put_same env hi, hc]
  exact ⟨_, _, rfl⟩

/-- The record that a write of the present bit `b` leaves of a heliostat that is not in use. -/
theorem Work.presence_record (e : Env) {i : Nat} (hi : i < Config.heliostats) {a b : Bool} {w : Work} (hr : (w.fld.run i).Sound)
    (hu : (w.fld.run i).inFlight = false ∧ (w.fld.run i).queued = false ∧ (w.fld.run i).owed = none) :
    let r := (w.presence e i a b).fld.run i
    (r.inFlight = false ∧ r.queued = false ∧ r.owed = none) ∧ r.Sound ∧ ((w.fld.run i).Tidy → r.Tidy)
      ∧ ((a = true ↔ (w.fld.run i).state ≠ .absent) → (b = true ↔ r.state ≠ .absent)) := by
  dsimp only
  by_cases hab : a = b
  · rw [show w.presence e i a b = w from if_pos hab]
    exact ⟨hu, hr, id, fun h => hab ▸ h⟩
  · obtain ⟨x, y, hrun⟩ := Work.presence_changed e hi hab w
    rw [hrun]
    refine ⟨⟨rfl, rfl, rfl⟩, (HelioRun.sound_present b).other rfl rfl rfl rfl rfl rfl rfl rfl rfl rfl, fun _ => ?_,
      fun _ => (HelioRun.introduced_state b).symm⟩
    obtain ⟨h1, h2, h3, h4, h5, h6, h7, h8⟩ := HelioRun.tidy_introduced b
    exact ⟨h1, h2, h3, h4, h5, h6, h7, h8⟩

theorem Work.quiet_presence (env : Env) {i : Nat} (hi : ¬ i < Config.heliostats) (a b : Bool) (w : Work) :
    w.fld.Quiet (w.presence env i a b).fld := by
  unfold Work.presence
  split
  · exact .refl _
  · refine Field.Quiet.trans ?_ (Work.quiet_put env i _ w)
    unfold Work.write
    rw [if_neg hi]
    exact .refl _

/-- One record's write, from the live tables that the records before it have left (R184). -/
theorem Work.lined_presence {e : Env} {i : Nat} {c : HelioConfig} {w : Work} (hf : w.fld.Lined T env)
    (hl : env'.live = env.live.withRecord i (.helio c)) (hseg : c.present = true → c.segment < Config.segments)
    (hfact : (env.live.helioAt i).coreDiffers c = true → (w.fld.run i).useFact = none) :
    (w.presence e i (env.live.helioAt i).present c.present).fld.Lined T env' := by
  have htab : env'.live.Canonical := hl ▸ Tables.canonical_withRecord hf.tables i _
  have hat : ∀ j, env'.live.helioAt j = if i = j ∧ i < Config.heliostats then c else env.live.helioAt j :=
    fun j => hl ▸ Tables.helioAt_withHelio env.live i c j
  have hkept : ∀ j, env'.live.helioAt j = env.live.helioAt j →
      (env'.live.helioAt j).present = (env.live.helioAt j).present ∧ env'.segmentOf j = env.segmentOf j := by
    intro j hj
    unfold Env.segmentOf
    rw [hj]
    exact ⟨rfl, rfl⟩
  by_cases hi : i < Config.heliostats
  · have hself : env'.live.helioAt i = c := (hat i).trans (if_pos ⟨rfl, hi⟩)
    have hother : ∀ j, j ≠ i → env'.live.helioAt j = env.live.helioAt j := fun j hj => (hat j).trans (if_neg fun h => hj h.1.symm)
    by_cases hd : (env.live.helioAt i).coreDiffers c = true
    · obtain ⟨hload, hq, ho, hfly⟩ := HelioRun.unused_of_useFact (hfact hd)
      obtain ⟨hidle, hsound, htidy, hpresent⟩ := Work.presence_record (a := (env.live.helioAt i).present) (b := c.present) e hi
        (hf.records i) ⟨hfly, hq, ho⟩
      refine hf.rewritten (i := i)
        { tables := htab, others := fun j hj => hkept j (hother j hj), placed := ?_, still := ⟨hfly, hq⟩, runs := fun j hj => ?_,
          sxes := fun k => ?_, idle := ?_, sound := ?_, tidy := fun _ ht => ?_, present := ?_ }
      · unfold Env.segmentOf
        rw [hself]
        exact hseg
      · rw [Work.presence_other e hj]
        exact .refl _
      · rw [Work.presence_sxeAt]
        exact .refl _
      · exact hidle
      · exact hsound
      · exact htidy (ht.records i)
      · rw [hself]
        exact hpresent (hf.present i)
    · simp only [HelioConfig.coreDiffers, Bool.or_eq_true, not_or, bne_iff_ne, ne_eq, Decidable.not_not] at hd
      obtain ⟨⟨⟨⟨hp, hs⟩, -⟩, -⟩, -⟩ := hd
      rw [show w.presence e i (env.live.helioAt i).present c.present = w from if_pos hp]
      refine hf.retabled htab fun j => ?_
      by_cases hj : j = i
      · unfold Env.segmentOf
        rw [hj, hself]
        exact ⟨hp.symm, hs.symm⟩
      · exact hkept j (hother j hj)
  · exact (hf.retabled htab fun j => hkept j ((hat j).trans (if_neg fun h => hi h.2))).quiet (Work.quiet_presence e hi _ _ w)

end Sys2Proof.Machine
end

section
/-! PROOFS for the segment lines: the whole of a TABLE WRITE (R184), the end of an answer's frame (R172), and O20. -/

namespace Sys2Proof.Machine

variable {T : Prop} {env env' : Env} {s t : State}

/-! ### The records of a TABLE WRITE -/

theorem HelioRun.useFact_alike {r r' : HelioRun} (h : r.Alike r') : r'.useFact = r.useFact := by
  obtain ⟨a, b, c, rfl⟩ := h
  rfl

/-- A HELIOSTAT record that the checks of R184 let be written, before it is: the live tables are `l`, and were `old` before the order. -/
def Work.Writable (old l : Tables) (w : Work) (p : Nat × Record) : Prop :=
  ∀ c, p.2 = .helio c → (c.present = true → c.segment < Config.segments) ∧ old.helioAt p.1 = l.helioAt p.1
    ∧ ((l.helioAt p.1).coreDiffers c = true → (w.fld.run p.1).useFact = none)

theorem Tables.helioAt_withRecord_other (l : Tables) {i j : Nat} (hj : j ≠ i) (r : Record) : (l.withRecord i r).helioAt j = l.helioAt j := by
  rcases Tables.helioAt_withRecord l i r j with h | ⟨-, -, h, -⟩
  · exact h
  · exact absurd h hj

theorem Tables.helioAt_withRecord_of_not_helio (l : Tables) (i : Nat) {r : Record} (hr : ∀ c, r ≠ .helio c) (j : Nat) :
    (l.withRecord i r).helioAt j = l.helioAt j := by
  rcases Tables.helioAt_withRecord l i r j with h | ⟨c, h, -⟩
  · exact h
  · exact absurd h (hr c)

/-- One record of a TABLE WRITE touches the runtime part of its own heliostat alone. -/
theorem Work.afterRecord_other (e : Env) (old : Tables) {p : Nat × Record} {j : Nat} (hj : j ≠ p.1) (w : Work) :
    (w.fld.run j).Alike ((w.afterRecord e old p).fld.run j) := by
  unfold Work.afterRecord
  split
  · rw [Work.presence_other e hj]
    exact .refl _
  · exact (Work.quiet_rebudget e p.1 w).runs j
  · exact (Work.quiet_rewatch _ _ w).runs j
  all_goals exact .refl _

/-- The effects of a record that is not of a heliostat. -/
theorem Work.quiet_afterRecord (e : Env) (old : Tables) {p : Nat × Record} (hp : ∀ c, p.2 ≠ .helio c) (w : Work) :
    w.fld.Quiet (w.afterRecord e old p).fld := by
  unfold Work.afterRecord
  split
  · next c hc => exact absurd hc (hp c)
  · exact Work.quiet_rebudget e p.1 w
  · exact Work.quiet_rewatch _ _ w
  all_goals exact .refl _

theorem Work.lined_afterRecord (e : Env) {old : Tables} {p : Nat × Record} {w : Work} (hf : w.fld.Lined T env)
    (hl : env'.live = env.live.withRecord p.1 p.2) (hw : w.Writable old env.live p) : (w.afterRecord e old p).fld.Lined T env' := by
  by_cases hp : ∃ c, p.2 = .helio c
  · obtain ⟨c, hc⟩ := hp
    obtain ⟨hseg, hold, hfact⟩ := hw c hc
    rw [show w.afterRecord e old p = w.presence e p.1 (old.helioAt p.1).present c.present by unfold Work.afterRecord; rw [hc], hold]
    exact Work.lined_presence hf (hc ▸ hl) hseg hfact
  · have hp : ∀ c, p.2 ≠ .helio c := fun c hc => hp ⟨c, hc⟩
    refine Field.Lined.quiet (hf.retabled ?_ fun j => ?_) (Work.quiet_afterRecord e old hp w)
    · exact hl ▸ Tables.canonical_withRecord hf.tables _ _
    · unfold Env.segmentOf
      rw [show env'.live.helioAt j = env.live.helioAt j from hl ▸ Tables.helioAt_withRecord_of_not_helio _ _ hp j]
      exact ⟨rfl, rfl⟩

/-- The records of a TABLE WRITE, each of another index. -/
theorem Work.lined_afterRecords (e : Env) {old : Tables} {ps : List (Nat × Record)} (hn : ps.Pairwise (fun p q => p.1 ≠ q.1)) {w : Work}
    (hf : w.fld.Lined T env) (hl : env'.live = ps.foldl (fun (l : Tables) (p : Nat × Record) => l.withRecord p.1 p.2) env.live)
    (hw : ∀ p ∈ ps, w.Writable old env.live p) : (ps.foldl (Work.afterRecord e old) w).fld.Lined T env' := by
  induction ps generalizing w env with
  | nil => exact hf.congr hl
  | cons p ps ih =>
    obtain ⟨hp, hn⟩ := List.pairwise_cons.1 hn
    refine ih (env := { env with live := env.live.withRecord p.1 p.2 }) hn
      (Work.lined_afterRecord e hf rfl (hw p (by simp))) hl fun q hq c hc => ?_
    obtain ⟨hseg, hold, hfact⟩ := hw q (by simp [hq]) c hc
    have hqp : q.1 ≠ p.1 := Ne.symm (hp q hq)
    rw [show ({ env with live := env.live.withRecord p.1 p.2 } : Env).live.helioAt q.1 = env.live.helioAt q.1 from
      Tables.helioAt_withRecord_other _ hqp _, HelioRun.useFact_alike (Work.afterRecord_other e old hqp w)]
    exact ⟨hseg, hold, hfact⟩

/-! ### The order -/

theorem State.useFact_of_writeFact {i : Nat} {c : HelioConfig} (h : s.writeFact i (.helio c) = none)
    (hd : (s.live.helioAt i).coreDiffers c = true) : (s.field.run i).useFact = none := by
  unfold State.writeFact at h
  dsimp only at h
  rw [if_pos hd] at h
  split at h
  · cases h
  · next hn => exact hn

/-- A HELIOSTAT record that is read is in range (R182). -/
theorem readRecord_helio_segment {id : TableId} {bs : List Byte} {c : HelioConfig} (h : readRecord id bs = some (.helio c))
    (hp : c.present = true) : c.segment < Config.segments := by
  cases id with
  | heliostat =>
    simp only [readRecord] at h
    split at h
    · next hr =>
      cases h
      unfold HelioConfig.normal at hp ⊢
      split
      · next hq =>
        simp only [HelioConfig.inRange, hq, Bool.not_true, Bool.false_or, Bool.and_eq_true, decide_eq_true_eq] at hr
        exact Nat.lt_succ_of_le hr.1.1.1.1.1.1.1.1
      · next hq =>
        rw [if_neg hq] at hp
        cases hp
    · cases h
  | watch =>
    obtain ⟨v, -, hv⟩ := Option.map_eq_some_iff.1 h
    cases hv
  | _ =>
    simp only [readRecord] at h
    repeat' split at h
    all_goals cases h

theorem goodRecords_apart {id : TableId} {written : List (Nat × List Byte)} (hn : (written.map Prod.fst).Nodup) :
    (goodRecords id written).Pairwise (fun p q => p.1 ≠ q.1) := by
  refine List.Pairwise.filterMap _ (fun p q hpq b hb b' hb' => ?_) (List.pairwise_map.1 hn)
  obtain ⟨r, -, rfl⟩ := Option.map_eq_some_iff.1 hb
  obtain ⟨r', -, rfl⟩ := Option.map_eq_some_iff.1 hb'
  exact hpq

/-- An accepted write keeps every fact about the segment lines. -/
theorem State.Lined.acceptWrite (h : s.Lined T) {id : TableId} {first : Nat} {written : List (Nat × List Byte)}
    (hn : (written.map Prod.fst).Nodup) (hw : ∀ p ∈ goodRecords id written, s.writeFact p.1 p.2 = none) :
    (s.acceptWrite id first written).Lined T := by
  unfold State.acceptWrite
  dsimp only
  refine State.Lined.changeKick (Work.lined_afterRecords (env := s.env) _ (goodRecords_apart hn) h rfl fun p hp c hc => ?_)
  have hfact := hw p hp
  obtain ⟨q, -, hq⟩ := List.mem_filterMap.1 hp
  obtain ⟨r, hr, rfl⟩ := Option.map_eq_some_iff.1 hq
  dsimp only at hc hfact
  subst hc
  exact ⟨readRecord_helio_segment hr, rfl, State.useFact_of_writeFact hfact⟩

theorem length_cutRecords (size n : Nat) (bs : List Byte) : (cutRecords size n bs).length = n := by
  induction n generalizing bs with
  | zero => rfl
  | succ n ih => simp [cutRecords, ih]

theorem State.Lined.tableWriteOrder (h : s.Lined T) (table : Byte) (first : Half) (count : Byte) (records : List Byte) :
    (s.tableWriteOrder table first count records).2.Lined T := by
  unfold State.tableWriteOrder
  split
  · exact h
  · dsimp only
    split
    · exact h
    · split
      · exact h
      · next hr =>
        refine h.acceptWrite ?_ (State.writeFact_of_writeRefusal hr)
        rw [List.map_fst_zip (by rw [length_cutRecords, List.length_range'])]
        exact List.nodup_range'

/-! ### Every command of a running part -/

theorem State.Lined.kept (h : t.Lined s.field.Tidy) : s.LinesKept t := State.Linked.kept h.toLinked

theorem execFrameSent_linesKept (hs : s.Sound) (h : s.Lined s.field.Tidy) (he : exec .frameSent s = .next t) : s.LinesKept t := by
  obtain ⟨hf, hl, -, -⟩ := hs.canonical
  cases he
  split
  · split
    · dsimp only
      split
      · exact (State.linked_softReset (s := { s with ulp := { s.ulp with tx := none } }) hl hf).kept
      · exact (h.same (t := { s with ulp := { s.ulp with tx := none } }) rfl rfl).kept
    · exact h.kept
  · exact h.kept

theorem exec_linesKept_running (hs : s.Sound) (hp : s.phase = .running) (h : s.Lined s.field.Tidy) {c : Instr}
    (he : exec c s = .next t) : s.LinesKept t := by
  obtain ⟨hf, -, -, -⟩ := hs.canonical
  by_cases hc : Instr.resetsOrWrites c = false
  · exact (exec_lined hc hf h he).kept
  · cases c with
    | powerOnReset => cases he; exact ⟨nofun, fun ht => ht.halt hf⟩
    | pinReset => cases he; exact State.linesKept_enterReset hf _
    | tableLoadingDone d =>
      cases he
      rw [hp]
      exact h.kept
    | tableWrite tag table first count records =>
      cases he
      exact (h.order _ _ _ fun h => h.tableWriteOrder table first count records).kept
    | frameSent => exact execFrameSent_linesKept hs h he
    | _ => exact absurd rfl hc

/-- A running part with the facts of the statement has every fact about the segment lines. -/
theorem State.Lined.of_facts (hs : s.Sound) (hr : s.live.InRange) (hl : s.field.LinesExact s.env) (hp : s.PresenceExact) :
    s.Lined s.field.Tidy := by
  obtain ⟨-, htab, -, -⟩ := hs.canonical
  exact ⟨⟨htab, hs.records, hl, hp.present, hp.idle, id⟩, fun h hh => Tables.segment_lt hr hh⟩

/-- What the statement supposes of the state before a step. -/
structure State.LinesFacts (s : State) : Prop where
  sound : s.Sound
  inRange : s.live.InRange
  running : s.phase = .running → s.field.LinesExact s.env ∧ s.PresenceExact

theorem State.LinesFacts.lined (h : s.LinesFacts) (hp : s.phase = .running) : s.Lined s.field.Tidy := by
  obtain ⟨hl, hpres⟩ := h.running hp
  exact .of_facts h.sound h.inRange hl hpres

theorem State.LinesFacts.withQueue (h : s.LinesFacts) (rest : List Instr) : ({ s with pending := rest } : State).LinesFacts :=
  ⟨h.sound.withQueue rest, h.inRange, fun hp => (h.running hp).imp_right fun hpres => ⟨hpres.present, hpres.idle⟩⟩

/-- The clock's tick changes nothing that the lines see. -/
theorem State.LinesFacts.tick (h : s.LinesFacts) : s.LinesKept s.tick := by
  by_cases hp : s.phase = .running
  · exact ((h.lined hp).same (t := s.tick) rfl rfl).kept
  · exact .of_field rfl hp

theorem State.LinesFacts.exec (h : s.LinesFacts) {c : Instr} (he : exec c s = .next t) : s.LinesKept t := by
  by_cases hp : s.phase = .running
  · exact exec_linesKept_running h.sound hp (h.lined hp) he
  · exact exec_linesKept_idle h.sound hp he

/-- Settles O20: a step is the clock's tick, which no line sees, or a command. A command of a running part keeps the facts of `Field.Lined`,
a reset brings up a field that has them, and a part that is in reset or loads its tables keeps its field. -/
theorem segmentLinesKeptByEveryStep : Obligations.SegmentLinesKeptByEveryStep := by
  unfold Obligations.SegmentLinesKeptByEveryStep
  intro s t hs hr hrun hstep
  have hfacts : s.LinesFacts := ⟨hs, hr, hrun⟩
  have hkept : s.LinesKept t := by
    unfold step at hstep
    split at hstep
    · cases hstep
      exact hfacts.tick
    · next c rest _ =>
      obtain ⟨hrunning, htidy⟩ := (hfacts.withQueue rest).exec hstep
      exact ⟨hrunning, htidy⟩
  exact ⟨hkept.running, hkept.tidy⟩

end Sys2Proof.Machine
end

section
/-! PROOFS for flux admission: the FAU's accounts through every step (R23, R26, R27). -/

namespace Sys2Proof.Machine

/-- What the accounts need of a field to stay exact: its tables' canonical form and the records of R6. -/
structure Field.Accounted (env : Env) (f : Field) : Prop where
  canonical : f.Canonical
  records : f.RecordsSound
  accounts : f.AccountsExact env

theorem Field.Accounted.congr {env env' : Env} {f : Field} (he : env'.live = env.live) (h : f.Accounted env) : f.Accounted env' :=
  ⟨h.canonical, h.records, h.accounts.congr he⟩

theorem Field.Reach.accounted {env : Env} {f g : Field} (h : Field.Reach env.live f g) (hf : f.Accounted env) : g.Accounted env :=
  h.keeps (P := fun f => f.Accounted env)
    (fun _ _ hp hf => ⟨hp.canonical hf.canonical, hp.records hf.records, hp.accounts hf.canonical hf.records hf.accounts⟩) hf

theorem State.Steps.accounted {s t : State} (h : s.Steps t) (hs : s.field.Accounted s.env) : t.field.Accounted t.env :=
  Field.Accounted.congr (env := s.env) h.live (h.field.accounted (env := s.env) hs)

/-- The accounts read nothing that the stopping of the timers and the exchanges changes (R146). -/
theorem Field.AccountsExact.halt {env : Env} {f : Field} (hc : f.Canonical) (h : f.AccountsExact env) : f.halt.AccountsExact env := by
  obtain ⟨hcommitted, hpending, hrefs⟩ := h
  have htotal : ∀ q : Nat → HelioRun → Nat, (∀ i r, q i { r with slewEnds := none } = q i r) → (∀ i, q i HelioRun.blank = 0) →
      Table.total q f.halt.helio = Table.total q f.helio := fun q =>
    Table.total_map (d := HelioRun.blank) f.helio (fun r : HelioRun => { r with slewEnds := none }) q
  refine ⟨fun z hz => ?_, fun z hz => ?_, fun a ha => ?_⟩
  · rw [Field.zoneAt_halt hc, htotal _ (fun _ _ => rfl) (fun i => env.load_blank i z)]
    exact hcommitted z hz
  · rw [Field.zoneAt_halt hc, htotal _ (fun _ _ => rfl) (fun i => env.pendingLoad_blank i z)]
    exact hpending z hz
  · rw [htotal _ (fun _ _ => rfl) (fun _ => rfl)]
    exact hrefs a ha

theorem State.enterReset_accounts {s : State} (k : ResetKind) (hs : s.field.Accounted s.env) :
    (s.enterReset k).field.AccountsExact (s.enterReset k).env := (hs.accounts.halt hs.canonical).congr rfl

/-- An accepted write changes no weight of a load holder and no held footprint, so the accounts stay exact (R184). -/
theorem State.acceptWrite_accounts {s : State} {t : TableId} {first : Nat} {written : List (Nat × List Byte)}
    (h : s.field.Accounted s.env) (hw : ∀ p ∈ goodRecords t written, s.writeFact p.1 p.2 = none) :
    (s.acceptWrite t first written).field.AccountsExact (s.acceptWrite t first written).env := by
  obtain ⟨hweight, haim⟩ := State.live_after_write (goodRecords t written) hw (t := s.live) (fun _ => Or.inl rfl) (fun _ => Or.inl rfl)
  let s1 : State := { s with
    live := (goodRecords t written).foldl (fun (l : Tables) (p : Nat × Record) => l.withRecord p.1 p.2) s.live
    commit := some (.page t (pageStart first)) }
  have h1 : s1.field.Accounted s1.env := ⟨h.canonical, h.records, h.accounts.newLive h.canonical hweight haim⟩
  have hst : s1.Steps (s.acceptWrite t first written) :=
    (State.steps_change s1 _ fun w => Work.reach_foldl _ (fun w p => Work.reach_afterRecord (env := s1.env) s.live w p) _ _).trans
      (State.steps_kick _)
  exact (hst.accounted h1).accounts

@[simp] theorem State.answer_env (tag kind : Byte) (r : Reply) (s : State) : (s.answer tag kind r).env = s.env := rfl

/-- TABLE WRITE changes nothing, is answered with a refusal, or is an accepted write of records that pass the checks. -/
theorem execTableWrite_cases {s t : State} {tag table : Byte} {first : Half} {count : Byte} {records : List Byte}
    (he : execTableWrite tag table first count records s = .next t) : t = s
      ∨ ∃ reply, t = s.popFrame.answer tag 0x17#8 reply
        ∨ ∃ id written, s.popFrame.writeRefusal id first.toNat written = none
          ∧ t = (s.popFrame.acceptWrite id first.toNat written).answer tag 0x17#8 reply := by
  cases he
  by_cases hd : s.OrderDue (.tableWrite tag table first count records)
  · rw [State.order_due hd]
    refine Or.inr ⟨(State.tableWriteOrder table first count records s.popFrame).1, ?_⟩
    rcases State.tableWriteOrder_cases table first count records s.popFrame with h | ⟨id, written, hr, h⟩
    · rw [h]
      exact Or.inl rfl
    · rw [h]
      exact Or.inr ⟨id, written, hr, rfl⟩
  · exact Or.inl (State.order_not_due hd _ _ _)

theorem execTableWrite_accounts {s t : State} (tag table : Byte) (first : Half) (count : Byte) (records : List Byte)
    (hs : s.field.Accounted s.env) (he : execTableWrite tag table first count records s = .next t) : t.field.AccountsExact t.env := by
  have hp : s.popFrame.field.Accounted s.popFrame.env := hs
  rcases execTableWrite_cases he with rfl | ⟨_, rfl | ⟨id, written, hr, rfl⟩⟩
  · exact hs.accounts
  · exact hs.accounts
  · rw [State.answer_env, State.answer_field]
    exact State.acceptWrite_accounts hp (State.writeFact_of_writeRefusal hr)

theorem execTableLoadingDone_accounts {s t : State} (d : List PageRef) (hc : s.Canonical) (hs : s.field.Accounted s.env)
    (he : execTableLoadingDone d s = .next t) : t.field.AccountsExact t.env := by
  obtain ⟨-, -, hstore, -⟩ := hc
  cases he
  split
  · exact (State.comeUp_good (State.canonical_loadTables (s := { s with store := s.store.damage d }) hstore)).accounts
  · exact hs.accounts
  · exact hs.accounts

theorem execFrameSent_accounts {s t : State} (hc : s.Canonical) (hs : s.field.Accounted s.env) (he : execFrameSent s = .next t) :
    t.field.AccountsExact t.env := by
  obtain ⟨hfield, hlive, -, -⟩ := hc
  cases he
  split
  · split
    · simp only
      split
      · exact (State.softReset_good (s := { s with ulp := { s.ulp with tx := none } }) hlive hfield).accounts
      · exact hs.accounts
    · exact hs.accounts
  · exact hs.accounts

/-- Every command keeps the accounts exact. -/
theorem exec_accounts {s t : State} (c : Instr) (hc : s.Canonical) (hs : s.field.Accounted s.env) (he : exec c s = .next t) :
    t.field.AccountsExact t.env := by
  by_cases hr : Instr.resetsOrWrites c = false
  · obtain ⟨t', h1, h2⟩ := exec_steps c hr s
    rw [h1] at he
    cases he
    exact (h2.accounted hs).accounts
  · cases c with
    | powerOnReset => cases he; exact State.enterReset_accounts .powerOn hs
    | pinReset => cases he; exact State.enterReset_accounts _ hs
    | tableLoadingDone d => exact execTableLoadingDone_accounts d hc hs he
    | tableWrite tag table first count records => exact execTableWrite_accounts tag table first count records hs he
    | frameSent => exact execFrameSent_accounts hc hs he
    | _ => exact absurd rfl hr

/-- Settles O5: no command leaves the accounts wrong, and neither the clock nor the queue of commands enters them. -/
theorem accountsKeptByEveryStep : Obligations.AccountsKeptByEveryStep := by
  unfold Obligations.AccountsKeptByEveryStep
  intro s t hc hr ha h
  exact step_keeps (P := fun s => s.Canonical ∧ s.field.Accounted s.env) (Q := fun t => t.field.AccountsExact t.env)
    (fun _ h => h.2.accounts.congr rfl) (fun _ _ h => ⟨h.1, h.2.congr rfl⟩) (fun c _ _ h => exec_accounts c h.1 h.2)
    ⟨hc, hc.1, hr, ha⟩ h

end Sys2Proof.Machine
end

section
/-! PROOFS for flux admission: the reading orders (R16, R50, R164, R188, R190) and the refusals of AIM (R31, R32). -/

namespace Sys2Proof.Machine

/-! ### The reading orders -/

/-- An order whose owner's rule changes nothing is answered, and that is all. -/
theorem State.order_reads {s : State} {c : Instr} (h : s.OrderDue c) (tag kind : Byte) (run : State → Reply × State) {r : Reply}
    (hr : run s.popFrame = (r, s.popFrame)) : s.order c tag kind run = s.popFrame.answer tag kind r := by
  rw [State.order_due h, hr]

theorem State.readZoneOrder_eq (s : State) (z : Byte) : s.readZoneOrder z =
    (if z.toNat < 64 then
      ⟨.done, zoneReading s.watchOn z.toNat (s.live.zoneAt z.toNat) (s.live.criticalAt z.toNat) (s.field.zoneAt z.toNat)⟩
    else .plain .range, s) := by
  unfold State.readZoneOrder
  by_cases h : z.toNat < 64
  · simp only [Config.zones, h, if_true]
  · simp only [Config.zones, h, if_false]

theorem State.readHeliostatOrder_eq (s : State) (h : Half) : s.readHeliostatOrder h =
    (if h.toNat < 4096 then
      ⟨.done, heliostatReading s.now h.toNat (s.live.helioAt h.toNat)
        (if (s.live.helioAt h.toNat).present then s.field.run h.toNat else HelioRun.blank)⟩
    else .plain .range, s) := by
  unfold State.readHeliostatOrder State.readRun
  by_cases hh : h.toNat < 4096
  · simp only [Config.heliostats, hh, if_true]
  · simp only [Config.heliostats, hh, if_false]

theorem rangeRefused_iff (id : TableId) (first n : Nat) : rangeRefused id first n = true ↔
    id.size ≤ first ∨ n = 0 ∨ 16 < n ∨ pageLast id first < first + n - 1 := by
  simp only [rangeRefused, Bool.or_eq_true, decide_eq_true_eq, beq_iff_eq, or_assoc]

theorem State.tableReadOrder_eq (s : State) (table : Byte) (first : Half) (count : Byte) : s.tableReadOrder table first count =
    (match tableOf table with
      | none => .plain .format
      | some id =>
        if id.size ≤ first.toNat ∨ count.toNat = 0 ∨ 16 < count.toNat
            ∨ pageLast id first.toNat < first.toNat + count.toNat - 1 then .plain .range
        else ⟨.done, [table] ++ halfBytes first ++ [count]
          ++ (List.range' first.toNat count.toNat).flatMap (fun i => liveRecord s.live id i)⟩, s) := by
  unfold State.tableReadOrder
  cases tableOf table with
  | none => rfl
  | some id =>
    simp only [← rangeRefused_iff]
    split <;> rfl

theorem State.protectionStatusOrder_eq (s : State) : s.protectionStatusOrder =
    (⟨.done, [byte s.marks.code] ++ commitBytes s.commit ++ be16 s.loadFaults.length
      ++ [byte (min 32 s.loadFaults.length)] ++ (s.loadFaults.take 32).flatMap PageRef.entry⟩, s) := by
  simp only [State.protectionStatusOrder, List.length_take]

/-- Settles O24: each rule answers what stands and gives the state back, but that STATUS removes the last-error cause. -/
theorem readOrdersAnswerWhatStands : Obligations.ReadOrdersAnswerWhatStands := by
  unfold Obligations.ReadOrdersAnswerWhatStands
  intro s tag
  refine ⟨fun hd => ?_, fun z hd => ?_, fun h hd => ?_, fun table first count hd => ?_, fun hd => ?_⟩
  · exact congrArg Host.Outcome.next (State.order_due hd _ _ _)
  · exact congrArg Host.Outcome.next (State.order_reads hd _ _ _ (State.readZoneOrder_eq _ z))
  · exact congrArg Host.Outcome.next (State.order_reads hd _ _ _ (State.readHeliostatOrder_eq _ h))
  · exact congrArg Host.Outcome.next (State.order_reads hd _ _ _ (State.tableReadOrder_eq _ table first count))
  · exact congrArg Host.Outcome.next (State.order_reads hd _ _ _ (State.protectionStatusOrder_eq _))

/-! ### The refusals of AIM -/

/-- The answer of the checks where they do not grant. -/
def Admission.refusal : Admission → Option Reply
  | .granted => none
  | .refused r => some (.plain r)
  | .critical z => some ⟨.critical, [byte z]⟩
  | .noBudget z margin => some ⟨.noBudget, byte z :: signed24 margin⟩
  | .alreadyOn => some ⟨.done, [1#8]⟩

theorem Admission.refusal_eq_some {j : Admission} {r : Reply} (h : j.refusal = some r) : j.reply = r ∧ j ≠ .granted := by
  cases j with
  | granted => cases h
  | _ => exact ⟨Option.some.inj h, fun hc => Admission.noConfusion hc⟩

theorem Admission.refusal_eq_none {j : Admission} (h : j.refusal = none) : j = .granted := by
  cases j with
  | granted => rfl
  | _ => cases h

/-- Checks 2 and 3 of R31, as the answer they give. -/
theorem State.gate_refusal (s : State) (rest : Admission) :
    Admission.refusal (match s.env.gate with | some x => .refused x | none => rest) =
      if s.osc.opState = .waking then some (.plain .notReady)
      else if s.osc.opState ≠ .operate then some (.plain .state)
      else if s.osc.fieldSafe then some (.plain .safe)
      else rest.refusal := by
  unfold Env.gate State.env
  cases s.osc.opState <;> cases s.osc.fieldSafe <;> rfl

/-- Check 5 of R31, as the answer it gives. -/
theorem HelioRun.aimRefusal_refusal (r : HelioRun) (rest : Admission) :
    Admission.refusal (match r.aimRefusal with | some x => .refused x | none => rest) =
      if r.state = .faulted then some (.plain .state)
      else if r.state ≠ .standby ∧ r.state ≠ .stowed ∧ r.state ≠ .tracking then some (.plain .busy)
      else rest.refusal := by
  unfold HelioRun.aimRefusal
  cases r.state <;> rfl

/-- The answer of the checks of R31 and of the same-aim test of R32, none where they grant. -/
theorem State.aimJudgement_eq (s : State) (h a : Nat) : s.aimJudgement h a = (s.field.judgeAim s.env h a).refusal := by
  unfold Field.judgeAim State.aimJudgement
  rw [apply_ite Admission.refusal]
  refine if_congr (by simp [State.env]) rfl (Eq.trans ?_ (State.gate_refusal s (s.field.admitMotion s.env h a)).symm)
  refine if_congr Iff.rfl rfl (if_congr Iff.rfl rfl (if_congr Iff.rfl rfl ?_))
  unfold Field.admitMotion
  dsimp only
  rw [apply_ite Admission.refusal]
  refine if_congr (by simp) rfl (Eq.trans ?_ (HelioRun.aimRefusal_refusal (s.field.run h) _).symm)
  refine if_congr Iff.rfl rfl (if_congr Iff.rfl rfl ?_)
  rw [apply_ite Admission.refusal, apply_ite Admission.refusal, apply_ite Admission.refusal]
  refine if_congr (by simp [or_assoc]) rfl (if_congr Iff.rfl rfl (if_congr (by simp [State.env]) rfl ?_))
  rw [show s.env.footprint a = (s.live.aimAt a).footprint from rfl]
  cases List.find? (fun p => (s.field.zoneAt p.1).critical) (s.live.aimAt a).footprint with
  | some p => rfl
  | none =>
    cases List.find? (fun p => decide ((s.field.zoneAt p.1).budget < (s.field.zoneAt p.1).committed + s.env.contribution h a p.1))
        (s.live.aimAt a).footprint with
    | some p => rfl
    | none =>
      dsimp only [Env.segmentOf, State.env, Config.moveQueue]
      exact (apply_ite Admission.refusal
        (64 ≤ (s.field.sxeAt (s.live.helioAt h).segment).queue.length) (.refused .queueFull) .granted).symm

/-- Settles O27: the checks of the model answer as `State.aimJudgement`, and what they refuse is not granted. -/
theorem aimRefusedChangesNothing : Obligations.AimRefusedChangesNothing := by
  unfold Obligations.AimRefusedChangesNothing
  intro s tag helio point r hd hj
  obtain ⟨hr, hn⟩ := Admission.refusal_eq_some ((State.aimJudgement_eq s _ _).symm.trans hj)
  refine congrArg Host.Outcome.next (State.order_reads hd _ _ _ ?_)
  exact Prod.ext hr (if_neg hn)

end Sys2Proof.Machine
end

section
/-! PROOFS for flux admission: zones that are settled and budgets that are exact, through every operation of a change but the FAU's
tests themselves (R28 to R30, R44 to R47). -/

namespace Sys2Proof.Machine

/-! ### Settled zones and exact budgets -/

/-- OVER and UNSHEDDABLE say of a zone what they mean, and where it has unsecured load above its budget no heliostat that covers it may
be taken by a walk (R30, R45, R47). -/
structure Field.ZoneSettled (env : Env) (f : Field) (z : Nat) : Prop where
  isOver : (f.zoneAt z).overBudget = (f.zoneAt z).isOver
  unsheddable : (f.zoneAt z).unsheddable = (f.zoneAt z).inExcess
  spent : (f.zoneAt z).inExcess → ∀ h, env.covers (f.run h) z → (f.run h).secured

/-- Every zone but those of `X` and those still to be tested is settled. -/
def Work.Settled (env : Env) (X : Nat → Prop) (w : Work) : Prop := ∀ z, ¬ X z → z ∉ w.touched → w.fld.ZoneSettled env z

/-- The budget of a zone is what R28 gives. -/
def Field.BudgetExact (env : Env) (f : Field) (z : Nat) : Prop :=
  (f.zoneAt z).budget = budgetOf (env.live.zoneAt z) env.watchOn (f.zoneAt z)

/-- A change under way that leaves no zone unsettled that is not still to be tested, and no exact budget
wrong. -/
structure Work.Steady (env : Env) (w w' : Work) : Prop where
  reach : Field.Reach env.live w.fld w'.fld
  settled : env.live.InRange → w.fld.Good env → ∀ X, w.Settled env X → w'.Settled env X
  budgets : ∀ z, z < Config.zones → w.fld.BudgetExact env z → w'.fld.BudgetExact env z

variable {env : Env}

theorem Work.Steady.refl (w : Work) : Work.Steady env w w := ⟨Relation.ReflTransGen.refl, fun _ _ _ => id, fun _ _ => id⟩

theorem Work.Steady.trans {w w1 w2 : Work} (h1 : Work.Steady env w w1) (h2 : Work.Steady env w1 w2) : Work.Steady env w w2 :=
  ⟨h1.reach.trans h2.reach, fun hr hg X hs => h2.settled hr (h1.reach.good hg) X (h1.settled hr hg X hs),
    fun z hz hb => h2.budgets z hz (h1.budgets z hz hb)⟩

theorem Work.Steady.foldl {β : Type} (op : Work → β → Work) (hop : ∀ w b, Work.Steady env w (op w b)) (l : List β) (w : Work) :
    Work.Steady env w (l.foldl op w) := by
  induction l generalizing w with
  | nil => exact .refl w
  | cons b l ih => exact (hop w b).trans (ih _)

theorem Work.Steady.ite (b : Bool) {w w1 : Work} (h : Work.Steady env w w1) : Work.Steady env w (if b then w1 else w) := by
  cases b
  · exact .refl w
  · exact h

/-! ### Changes that the tests do not read -/

/-- Two values of a zone that differ in nothing but the marks. -/
def ZoneRun.SameButMarks (v v' : ZoneRun) : Prop := ∃ m, v' = { v with marks := m }

theorem ZoneRun.SameButMarks.refl (v : ZoneRun) : v.SameButMarks v := ⟨_, rfl⟩

theorem ZoneRun.SameButMarks.trans {u v v' : ZoneRun} (h1 : u.SameButMarks v) (h2 : v.SameButMarks v') : u.SameButMarks v' := by
  obtain ⟨m, rfl⟩ := h1
  obtain ⟨m', rfl⟩ := h2
  exact ⟨m', rfl⟩

/-- Two fields in which the FAU's tests read the same: the held aims, the heliostats that no walk may take, and the zones, their marks
apart. -/
structure Field.SameLoads (f g : Field) : Prop where
  aims : ∀ h, (g.run h).aims = (f.run h).aims
  secured : ∀ h, (g.run h).secured = (f.run h).secured
  zones : ∀ z, (f.zoneAt z).SameButMarks (g.zoneAt z)

theorem Field.SameLoads.refl (f : Field) : f.SameLoads f := ⟨fun _ => rfl, fun _ => rfl, fun _ => .refl _⟩

theorem Field.SameLoads.trans {f g k : Field} (h1 : f.SameLoads g) (h2 : g.SameLoads k) : f.SameLoads k :=
  ⟨fun h => (h2.aims h).trans (h1.aims h), fun h => (h2.secured h).trans (h1.secured h), fun z => (h1.zones z).trans (h2.zones z)⟩

theorem Field.sameZones_of_eq {f g : Field} (h : g.zone = f.zone) (z : Nat) : (f.zoneAt z).SameButMarks (g.zoneAt z) := by
  rw [show g.zoneAt z = f.zoneAt z by unfold Field.zoneAt; rw [h]]
  exact .refl _

theorem Field.Quiet.sameLoads {f g : Field} (hq : f.Quiet g) (hz : g.zone = f.zone) : f.SameLoads g := by
  refine ⟨fun h => ?_, fun h => ?_, Field.sameZones_of_eq hz⟩
  all_goals
    obtain ⟨a, b, c, e⟩ := hq.runs h
    rw [e]
    rfl

theorem Field.SameLoads.of_eq {f g : Field} (hh : g.helio = f.helio) (hz : g.zone = f.zone) : f.SameLoads g := by
  have hr : ∀ h, g.run h = f.run h := fun h => by unfold Field.run; rw [hh]
  exact ⟨fun h => by rw [hr], fun h => by rw [hr], Field.sameZones_of_eq hz⟩

theorem Field.ChoiceOnly.sameLoads {f g : Field} (h : f.ChoiceOnly g) : f.SameLoads g := by
  refine ⟨fun j => ?_, fun j => ?_, Field.sameZones_of_eq h.zone⟩
  · rw [h.run_eq j]; rfl
  · rw [h.run_eq j]; rfl

/-- A change of what neither a held aim nor a walk depends on, in one record. -/
theorem Field.sameLoads_setRun (f : Field) (h : Nat) {r : HelioRun} (ha : r.aims = (f.run h).aims)
    (hs : r.secured = (f.run h).secured) : f.SameLoads (f.setRun h r) := by
  refine ⟨fun j => ?_, fun j => ?_, fun _ => .refl _⟩
  all_goals
    rw [Field.run_setRun]
    split
    · next hj => first | exact hj.1 ▸ ha | exact hj.1 ▸ hs
    · rfl

theorem Field.ZoneSettled.sameLoads {f g : Field} {z : Nat} (h : f.SameLoads g) (hz : f.ZoneSettled env z) : g.ZoneSettled env z := by
  obtain ⟨m, hm⟩ := h.zones z
  obtain ⟨ho, hu, hs⟩ := hz
  refine ⟨?_, ?_, fun he j hc => ?_⟩
  · rw [hm]; exact ho
  · rw [hm]; exact hu
  · rw [hm] at he
    rw [h.secured j]
    refine hs he j ?_
    unfold Env.covers at hc ⊢
    rw [← h.aims j]
    exact hc

theorem Field.BudgetExact.sameLoads {f g : Field} {z : Nat} (h : f.SameLoads g) (hb : f.BudgetExact env z) : g.BudgetExact env z := by
  obtain ⟨m, hm⟩ := h.zones z
  unfold Field.BudgetExact
  rw [hm]
  exact hb

/-- A change that the tests do not read leaves settled zones settled and exact budgets exact. -/
theorem Work.Steady.aside {w w' : Work} (hr : Field.Reach env.live w.fld w'.fld) (hl : w.fld.SameLoads w'.fld)
    (ht : w'.touched = w.touched) : Work.Steady env w w' :=
  ⟨hr, fun _ _ _ hs z hX hz => (hs z hX (ht ▸ hz)).sameLoads hl, fun _ _ hb => hb.sameLoads hl⟩

theorem Field.sameLoads_queueReport (f : Field) (src : Source) : f.SameLoads (f.queueReport src) :=
  (f.quiet_queueReport src).sameLoads (Field.queueReport_zone f src)

theorem Work.steady_report (src : Source) (w : Work) : Work.Steady env w (w.report src) :=
  .aside (w.reach_report src) (Field.sameLoads_queueReport _ _) rfl

theorem Field.sameLoads_dropEntry (g h : Nat) (f : Field) : f.SameLoads (f.dropEntry g h) := by
  unfold Field.dropEntry
  dsimp only
  split
  · exact .of_eq rfl rfl
  · exact .refl f

theorem Work.steady_dropEntry (h : Nat) (w : Work) : Work.Steady env w (w.dropEntry env h) :=
  .aside (w.reach_dropEntry h) (Field.sameLoads_dropEntry _ h _) rfl

theorem Field.zone_foldl_setSlot (op : Field → Nat → Slot) (l : List Nat) (f : Field) :
    (l.foldl (fun f k => f.setSlot k (op f k)) f).zone = f.zone := by
  induction l generalizing f with
  | nil => rfl
  | cons k l ih => exact (ih _).trans rfl

theorem Work.zone_follow (h : Nat) (a : Option Nat) (c : Bool) (w : Work) : (w.follow h a c).fld.zone = w.fld.zone := by
  unfold Work.follow
  split
  · rfl
  · exact Field.zone_foldl_setSlot _ _ _

theorem Work.touched_follow (h : Nat) (a : Option Nat) (c : Bool) (w : Work) : (w.follow h a c).touched = w.touched := by
  unfold Work.follow
  split <;> rfl

theorem Work.steady_follow (h : Nat) (a : Option Nat) (c : Bool) (w : Work) : Work.Steady env w (w.follow h a c) :=
  .aside (w.reach_follow h a c) ((w.quiet_follow h a c).sameLoads (w.zone_follow h a c)) (w.touched_follow h a c)

theorem Work.steady_followRevoked (h : Nat) (v : Option (Nat × Bool)) (w : Work) : Work.Steady env w (w.followRevoked h v) := by
  unfold Work.followRevoked
  split
  · exact w.steady_follow h _ _
  · exact .refl w

theorem Work.steady_toNewest (h : Nat) (w : Work) : Work.Steady env w (w.toNewest h) := by
  refine .aside (w.reach_toNewest h) ((w.quiet_toNewest h).sameLoads ?_) ?_
  all_goals
    unfold Work.toNewest
    split <;> rfl

theorem Work.steady_enqueue (e : Entry) (w : Work) : Work.Steady env w (w.enqueue env e) := by
  refine .aside (w.reach_enqueue e) ?_ ?_
  · unfold Work.enqueue
    dsimp only
    split
    · exact .of_eq rfl rfl
    · exact .refl _
  · unfold Work.enqueue
    dsimp only
    split <;> rfl

theorem Work.touched_evalTrip (env : Env) (w : Work) : (w.evalTrip env).touched = w.touched := by
  unfold Work.evalTrip
  dsimp only
  split <;> rfl

theorem Field.SameLoads.evalTrip (env : Env) (w : Work) : w.fld.SameLoads (w.evalTrip env).fld := by
  rw [Work.fld_evalTrip]
  exact .of_eq rfl rfl

theorem Work.steady_evalTrip (w : Work) : Work.Steady env w (w.evalTrip env) :=
  .aside w.reach_evalTrip (.evalTrip env w) (w.touched_evalTrip env)

/-! ### Zones -/

/-- A zone written anew, its loads, budget, OVER and UNSHEDDABLE standing. -/
theorem Work.Settled.setZone {X : Nat → Prop} {w : Work} (hs : w.Settled env X) (z : Nat) {v : ZoneRun}
    (hv : v = { v with
      committed := (w.fld.zoneAt z).committed, pending := (w.fld.zoneAt z).pending, budget := (w.fld.zoneAt z).budget
      overBudget := (w.fld.zoneAt z).overBudget, unsheddable := (w.fld.zoneAt z).unsheddable }) :
    ({ w with fld := w.fld.setZone z v } : Work).Settled env X := by
  intro y hX hy
  obtain ⟨ho, hu, hsp⟩ := hs y hX hy
  by_cases hzy : z = y ∧ z < Config.zones
  · have he : (w.fld.setZone z v).zoneAt y = v := by rw [Field.zoneAt_setZone, if_pos hzy]
    obtain ⟨rfl, -⟩ := hzy
    refine ⟨?_, ?_, ?_⟩
    · rw [he, hv]; exact ho
    · rw [he, hv]; exact hu
    · rw [he, hv]; exact hsp
  · have he : (w.fld.setZone z v).zoneAt y = w.fld.zoneAt y := by rw [Field.zoneAt_setZone, if_neg hzy]
    refine ⟨?_, ?_, ?_⟩
    · rw [he]; exact ho
    · rw [he]; exact hu
    · rw [he]; exact hsp

/-- A zone written anew that is among those to be tested. -/
theorem Work.Settled.setTouched {X : Nat → Prop} {w : Work} (hs : w.Settled env X) (z : Nat) (v : ZoneRun) :
    ({ fld := w.fld.setZone z v, touched := insertZone z w.touched, onset := w.onset } : Work).Settled env X := by
  intro y hX hy
  rw [mem_insertZone, not_or] at hy
  obtain ⟨ho, hu, hsp⟩ := hs y hX hy.2
  have he : (w.fld.setZone z v).zoneAt y = w.fld.zoneAt y := by rw [Field.zoneAt_setZone, if_neg fun c => hy.1 c.1.symm]
  refine ⟨?_, ?_, ?_⟩
  · rw [he]; exact ho
  · rw [he]; exact hu
  · rw [he]; exact hsp

theorem Work.Settled.report {X : Nat → Prop} {w : Work} (hs : w.Settled env X) (src : Source) : (w.report src).Settled env X :=
  fun z hX hz => (hs z hX hz).sameLoads (Field.sameLoads_queueReport _ _)

/-- What a zone reads after another zone, or itself, is marked. -/
theorem Work.zoneAt_mark (z : Nat) (v : ZoneRun) (w : Work) (y : Nat) :
    (w.mark z v).fld.zoneAt y = if z = y ∧ z < Config.zones then v else w.fld.zoneAt y :=
  (Field.zoneAt_queueReport _ _ y).trans (Field.zoneAt_setZone _ _ _ _)

theorem Work.zoneAt_rebudget_same {z : Nat} (hz : z < Config.zones) (w : Work) : ∃ m, (w.rebudget env z).fld.zoneAt z =
    { w.fld.zoneAt z with budget := budgetOf (env.live.zoneAt z) env.watchOn (w.fld.zoneAt z), marks := m } := by
  unfold Work.rebudget
  dsimp only
  split
  · next hb => exact ⟨(w.fld.zoneAt z).marks, by rw [hb]⟩
  · have h := Work.zoneAt_mark z { w.fld.zoneAt z with
      budget := budgetOf (env.live.zoneAt z) env.watchOn (w.fld.zoneAt z), marks := { (w.fld.zoneAt z).marks with budget := true } } w z
    rw [if_pos ⟨rfl, hz⟩] at h
    exact ⟨_, h⟩

theorem Work.zoneAt_rebudget_other {z y : Nat} (hy : z ≠ y) (w : Work) : (w.rebudget env z).fld.zoneAt y = w.fld.zoneAt y := by
  unfold Work.rebudget
  dsimp only
  split
  · rfl
  · exact (Work.zoneAt_mark z _ w y).trans (if_neg fun c => hy c.1)

theorem Work.Settled.rebudget {X : Nat → Prop} {w : Work} (hs : w.Settled env X) (z : Nat) : (w.rebudget env z).Settled env X := by
  unfold Work.rebudget
  dsimp only
  split
  · exact hs
  · exact (hs.setTouched z _).report _

/-- A recomputed budget is exact (R29). -/
theorem Work.budget_rebudget_same {z : Nat} (hz : z < Config.zones) (w : Work) : (w.rebudget env z).fld.BudgetExact env z := by
  obtain ⟨m, hm⟩ := Work.zoneAt_rebudget_same (env := env) hz w
  unfold Field.BudgetExact
  rw [hm]
  rfl

theorem Work.budget_rebudget_other {z y : Nat} (hzy : z ≠ y) {w : Work} (hb : w.fld.BudgetExact env y) :
    (w.rebudget env z).fld.BudgetExact env y := by
  unfold Field.BudgetExact
  rw [Work.zoneAt_rebudget_other hzy]
  exact hb

/-- A budget that is exact, or is recomputed, is exact then. -/
theorem Work.budget_rebudget (z : Nat) {w : Work} {y : Nat} (hy : y < Config.zones) (hb : z ≠ y → w.fld.BudgetExact env y) :
    (w.rebudget env z).fld.BudgetExact env y := by
  by_cases hzy : z = y
  · exact hzy ▸ w.budget_rebudget_same (hzy ▸ hy)
  · exact Work.budget_rebudget_other hzy (hb hzy)

theorem Work.steady_rebudget (z : Nat) (w : Work) : Work.Steady env w (w.rebudget env z) :=
  ⟨w.reach_rebudget z, fun _ _ _ hs => hs.rebudget z, fun _ hy hb => Work.budget_rebudget z hy fun _ => hb⟩

theorem Work.steady_rebudgetAll (zs : List Nat) (w : Work) : Work.Steady env w (w.rebudgetAll env zs) :=
  .foldl _ (fun w z => w.steady_rebudget z) zs w

/-- After the budgets of some zones are recomputed they are exact, whatever they were (R29). -/
theorem Work.budget_rebudgetAll (zs : List Nat) (w : Work) {y : Nat} (hy : y < Config.zones) (hb : y ∉ zs → w.fld.BudgetExact env y) :
    (w.rebudgetAll env zs).fld.BudgetExact env y := by
  unfold Work.rebudgetAll
  induction zs generalizing w with
  | nil => exact hb (by simp)
  | cons z zs ih =>
    exact ih (w.rebudget env z) fun hn => Work.budget_rebudget z hy fun hz => hb (by simpa using ⟨Ne.symm hz, hn⟩)

/-- A ceiling set or removed recomputes its zone's budget (R49). -/
theorem Work.steady_setCeiling (v : Option Nat) (z : Nat) (w : Work) : Work.Steady env w (w.setCeiling env v z) := by
  refine ⟨w.reach_setCeiling v z, fun _ _ X hs => ?_, fun y hy hb => ?_⟩
  · unfold Work.setCeiling
    dsimp only
    split
    · exact hs
    · exact ((hs.setZone z rfl).report _).rebudget z
  · unfold Work.setCeiling
    dsimp only
    split
    · exact hb
    · refine Work.budget_rebudget z hy fun hyz => ?_
      unfold Field.BudgetExact
      rw [Work.zoneAt_mark, if_neg fun c => hyz c.1]
      exact hb

theorem Work.steady_setCeilings (first last : Nat) (v : Option Nat) (w : Work) :
    Work.Steady env w (w.setCeilings env first last v).1 := .foldl _ (fun w z => w.steady_setCeiling v z) _ w

/-- A zone whose conditions alone change. -/
structure ZoneRun.Conditioned (v v' : ZoneRun) : Prop where
  committed : v'.committed = v.committed
  pending : v'.pending = v.pending
  budget : v'.budget = v.budget
  overBudget : v'.overBudget = v.overBudget
  unsheddable : v'.unsheddable = v.unsheddable

theorem Work.Settled.setConditions {X : Nat → Prop} {w : Work} (hs : w.Settled env X) (z : Nat) {v : ZoneRun}
    (hv : (w.fld.zoneAt z).Conditioned v) : (w.setConditions z v).Settled env X := by
  have h : v = { v with
      committed := (w.fld.zoneAt z).committed, pending := (w.fld.zoneAt z).pending, budget := (w.fld.zoneAt z).budget
      overBudget := (w.fld.zoneAt z).overBudget, unsheddable := (w.fld.zoneAt z).unsheddable } := by
    rw [← hv.committed, ← hv.pending, ← hv.budget, ← hv.overBudget, ← hv.unsheddable]
  unfold Work.setConditions
  split
  · exact (hs.setZone z h).report _
  · exact hs.setZone z h

theorem Work.zoneAt_setConditions (z : Nat) (v : ZoneRun) (w : Work) (y : Nat) :
    (w.setConditions z v).fld.zoneAt y = if z = y ∧ z < Config.zones then v else w.fld.zoneAt y := by
  unfold Work.setConditions
  split
  · exact Work.zoneAt_mark z v w y
  · exact Field.zoneAt_setZone _ _ _ _

end Sys2Proof.Machine
end

section
/-! PROOFS for flux admission: settled zones and exact budgets through a written record, and the FAU's tests, which end with every zone
settled (R44 to R47). -/

namespace Sys2Proof.Machine

variable {env : Env}

/-! ### A written record -/

theorem HelioRun.holdsLoad_of_aims {r r' : HelioRun} (h : r'.aims = r.aims) : r'.holdsLoad = r.holdsLoad := by
  rw [HelioRun.holdsLoad_eq_aims, HelioRun.holdsLoad_eq_aims, h]

/-- A heliostat that no walk may take stays one where its held aims and pending stay and, if it is LOST, the new record says so. -/
theorem HelioRun.Sound.secured_of_same {old new : HelioRun} (hold : old.Sound) (ha : new.aims = old.aims)
    (hp : new.isPending = old.isPending) (hs : old.secured) (hl : old.state = .lost → old.holdsLoad → new.secured) : new.secured := by
  have hload := HelioRun.holdsLoad_of_aims ha
  by_cases hh : old.holdsLoad = true
  · by_cases hlost : old.state = .lost
    · exact hl hlost hh
    · have hpend : old.isPending = true := by
        unfold HelioRun.isPending
        rw [hh]
        simp only [HelioRun.secured, hh, Bool.or_eq_true, beq_iff_eq, hlost, Bool.not_true, Bool.false_eq_true, or_false] at hs
        rcases hs with hs | hs
        · simp [hs]
        · have hrel : old.released = false := by
            by_contra hrel
            have hg := hold.no_aims (show old.grantState = false by simp [HelioRun.grantState, hs, hrel])
            simp [HelioRun.holdsLoad, hg.1, hg.2] at hh
          simp [hs, hrel]
      rw [← hp] at hpend
      unfold HelioRun.isPending at hpend
      simp only [Bool.and_eq_true, Bool.or_eq_true] at hpend
      unfold HelioRun.secured
      rcases hpend.2 with h | h
      · simp [h]
      · simp [h.1]
  · unfold HelioRun.secured
    rw [hload]
    simp [hh]

theorem Env.secured_of_not_moved {old new : HelioRun} {z : Nat} (hz : z ∉ env.zonesMoved old new) (hold : old.Sound)
    (hl : old.state = .lost → old.holdsLoad → new.secured) (hs : env.covers old z → old.secured) (hc : env.covers new z) :
    new.secured := by
  unfold Env.zonesMoved at hz
  split at hz
  · next h =>
    refine hold.secured_of_same h.1.symm h.2.symm (hs ?_) hl
    unfold Env.covers at hc ⊢
    rw [h.1]
    exact hc
  · refine absurd ((Env.mem_zonesOf env _ z).2 ?_) hz
    unfold Env.covers at hc
    obtain ⟨a, ha, hcov⟩ := List.any_eq_true.1 hc
    exact ⟨a, List.mem_append_right _ ha, hcov⟩

theorem Work.zoneAt_write (h : Nat) (r : HelioRun) (w : Work) {z : Nat} (hz : z ∉ (w.write env h r).touched) :
    (w.write env h r).fld.zoneAt z = w.fld.zoneAt z := by
  unfold Work.write at hz ⊢
  split
  · next hh =>
    rw [if_pos hh, mem_foldr_insertZone, not_or] at hz
    exact (Field.zoneAt_record _ _ _ _ _).trans (if_neg fun c => hz.1 c.1)
  · rfl

theorem Work.Settled.write {X : Nat → Prop} {w : Work} (hs : w.Settled env X) (h : Nat) (r : HelioRun) (hold : (w.fld.run h).Sound)
    (hl : (w.fld.run h).state = .lost → (w.fld.run h).holdsLoad → r.secured) : (w.write env h r).Settled env X := by
  intro z hX hz
  have hzone := Work.zoneAt_write (env := env) h r w hz
  unfold Work.write at hz hzone ⊢
  by_cases hh : h < Config.heliostats
  · simp only [if_pos hh] at hz hzone ⊢
    rw [mem_foldr_insertZone, not_or] at hz
    obtain ⟨ho, hu, hsp⟩ := hs z hX hz.2
    refine ⟨?_, ?_, fun he j hc => ?_⟩
    · rw [hzone]; exact ho
    · rw [hzone]; exact hu
    · rw [hzone] at he
      by_cases hj : h = j
      · rw [Field.run_record, if_pos ⟨hj, hh⟩] at hc ⊢
        exact Env.secured_of_not_moved hz.1 hold hl (hsp he h) hc
      · rw [Field.run_record, if_neg fun c => hj c.1] at hc ⊢
        exact hsp he j hc
  · simp only [if_neg hh] at hz ⊢
    exact hs z hX hz

theorem Field.BudgetExact.sameInputs {f g : Field} {z : Nat} (h : (f.zoneAt z).SameInputs (g.zoneAt z)) (hb : f.BudgetExact env z) :
    g.BudgetExact env z := by
  obtain ⟨h1, h2, -, -, h5, h6, h7⟩ := h
  have he : budgetOf (env.live.zoneAt z) env.watchOn (g.zoneAt z) = budgetOf (env.live.zoneAt z) env.watchOn (f.zoneAt z) := by
    unfold budgetOf
    rw [h2, h5, h6, h7]
  unfold Field.BudgetExact
  rw [h1, he]
  exact hb

theorem Work.sameInputs_write (h : Nat) (r : HelioRun) (w : Work) (z : Nat) :
    (w.fld.zoneAt z).SameInputs ((w.write env h r).fld.zoneAt z) := by
  unfold Work.write
  split
  · simp only [Field.zoneAt_record]
    split
    · exact ⟨rfl, rfl, rfl, rfl, rfl, rfl, rfl⟩
    · exact .refl _
  · exact .refl _

/-- A record that keeps R6's facts, and, of an accounted LOST heliostat with load, one that no walk may take. -/
structure HelioRun.Steady (old new : HelioRun) : Prop where
  sound : old.Sound → new.Sound
  reportOwed : new.reportOwed → old.reportOwed
  lost : old.Sound → old.state = .lost → old.holdsLoad → new.secured

theorem Work.steady_write (h : Nat) (r : HelioRun) (w : Work) (hr : (w.fld.run h).Steady r) :
    Work.Steady env w (w.write env h r) :=
  ⟨w.reach_write h r hr.sound hr.reportOwed,
    fun _ hg _ hs => hs.write h r (hg.records h) (hr.lost (hg.records h)),
    fun z _ hb => hb.sameInputs (w.sameInputs_write h r z)⟩

theorem Work.steady_put (h : Nat) (r : HelioRun) (w : Work) (hr : (w.fld.run h).Steady r) : Work.Steady env w (w.put env h r) := by
  unfold Work.put
  dsimp only
  split
  · exact (w.steady_write h r hr).trans (Work.steady_report _ _)
  · exact w.steady_write h r hr

/-! ### Owed motions and withdrawals -/

/-- The record of a heliostat whose Move Queue entry is withdrawn (R39, R59). -/
def HelioRun.withdrawn (c : Cause) (r : HelioRun) : HelioRun := r.by (some c) ({ r with queued := false } : HelioRun).revoked.nothingRemains

theorem Work.withdraw_eq (c : Cause) (h : Nat) (w : Work) : w.withdraw env c h =
    if (w.fld.run h).queued then
      ((w.dropEntry env h).put env h ((w.fld.run h).withdrawn c)).follow h (w.fld.run h).granted false
    else w := rfl

/-- A queued heliostat is SLEWING, so not LOST. -/
theorem HelioRun.steady_withdrawn (c : Cause) {r : HelioRun} (hq : r.queued = true) : r.Steady (r.withdrawn c) := by
  refine ⟨fun hs => HelioRun.Sound.by _ hs.revoked.nothingRemains, ?_, fun hs hl => ?_⟩
  · unfold HelioRun.withdrawn
    rw [HelioRun.by_reportOwed, HelioRun.nothingRemains_reportOwed, HelioRun.revoked_reportOwed]
    exact id
  · rw [hs.not_queued (by rw [hl]; decide)] at hq
    cases hq

theorem Work.steady_withdraw (c : Cause) (h : Nat) (w : Work) : Work.Steady env w (w.withdraw env c h) := by
  rw [Work.withdraw_eq]
  split
  · next hq =>
    refine ((w.steady_dropEntry h).trans (Work.steady_put h _ _ ?_)).trans (Work.steady_follow _ _ _ _)
    rw [Work.run_dropEntry]
    exact HelioRun.steady_withdrawn c hq
  · exact .refl w

theorem Work.steady_withdrawAll (c : Cause) (p : Entry → Bool) (w : Work) : Work.Steady env w (w.withdrawAll env c p) :=
  .foldl _ (fun w (e : Entry) => w.steady_withdraw c e.helio) _ w

theorem HelioRun.sound_given (m : Motion) (c : Cause) {r : HelioRun} (hs : r.Sound) : (r.given m c).Sound := by
  unfold HelioRun.given
  refine HelioRun.Sound.by _ (HelioRun.Sound.nothingRemains ?_)
  split
  · exact hs.revoked.setOwed m c (HelioRun.revoked_queued _ rfl)
  · next hq => exact hs.setOwed m c (eq_false_of_ne_true hq)

theorem HelioRun.given_reportOwed (m : Motion) (c : Cause) (r : HelioRun) : (r.given m c).reportOwed = r.reportOwed := by
  unfold HelioRun.given
  rw [HelioRun.by_reportOwed, HelioRun.nothingRemains_reportOwed, HelioRun.setOwed_reportOwed]
  split
  · exact HelioRun.revoked_reportOwed _
  · rfl

theorem HelioRun.steady_given (m : Motion) (c : Cause) (r : HelioRun) : r.Steady (r.given m c) :=
  ⟨HelioRun.sound_given m c, by rw [HelioRun.given_reportOwed]; exact id, fun hs _ _ => HelioRun.secured_given m c hs⟩

theorem Work.steady_owe (m : Motion) (c : Cause) (h : Nat) (w : Work) : Work.Steady env w (w.owe env m c h) := by
  rw [Work.owe_eq]
  split
  · refine ((w.steady_dropEntry h).trans (Work.steady_put h _ _ ?_)).trans (Work.steady_follow _ _ _ _)
    rw [Work.run_dropEntry]
    exact HelioRun.steady_given m c _
  · exact w.steady_put h _ (HelioRun.steady_given m c _)

theorem Work.steady_oweMembers (m : Motion) (c : Cause) (hs : List Nat) (w : Work) :
    Work.Steady env w (w.oweMembers env m c hs).1 := by
  unfold Work.oweMembers
  suffices h : ∀ (l : List Nat) (p : Work × Nat), Work.Steady env p.1
      (l.foldl (fun (p : Work × Nat) h =>
        let r := p.1.fld.run h
        if (r.motionRefusal (p.1.fld.passHeld env h)).isSome then p
        else
          let w1 := p.1.owe env m c h
          (w1, if r.queued || (w1.fld.run h).owed != r.owed then p.2 + 1 else p.2)) p).1 from h hs (w, 0)
  intro l
  induction l with
  | nil => exact fun p => .refl _
  | cons h l ih =>
    intro p
    refine .trans ?_ (ih _)
    dsimp only
    split
    · exact .refl _
    · exact p.1.steady_owe m c h

theorem Work.steady_onset (b : Bool) (w : Work) : Work.Steady env w { w with onset := b } :=
  .aside Relation.ReflTransGen.refl (.refl _) rfl

theorem Work.steady_criticalOnset (z : Nat) (w : Work) : Work.Steady env w (w.criticalOnset env z) := by
  unfold Work.criticalOnset
  exact ((w.steady_onset true).trans (Work.steady_withdrawAll _ _ _)).trans
    (.foldl _ (fun w h => w.steady_owe _ _ h) _ _)

theorem Work.touched_endSlot (k : Nat) (c : EndCause) (w : Work) : (w.endSlot k c).touched = w.touched := rfl

theorem Work.steady_endSlot (k : Nat) (c : EndCause) (w : Work) : Work.Steady env w (w.endSlot k c) :=
  .aside (w.reach_endSlot k c) ((w.quiet_endSlot k c).sameLoads (Work.report_zone _ _)) rfl

theorem Work.steady_endAll (c : EndCause) (w : Work) : Work.Steady env w (w.endAll c).1 := by
  unfold Work.endAll
  suffices h : ∀ (l : List Nat) (p : Work × Nat), Work.Steady env p.1
      (l.foldl (fun (p : Work × Nat) k =>
        if (p.1.fld.slotAt k).state.nonIdle then (p.1.endSlot k c, p.2 + 1) else p) p).1 from h _ (w, 0)
  intro l
  induction l with
  | nil => exact fun p => .refl _
  | cons k l ih =>
    intro p
    refine .trans ?_ (ih _)
    dsimp only
    split
    · exact p.1.steady_endSlot k c
    · exact .refl _

theorem Work.steady_safeActions (w : Work) : Work.Steady env w (w.safeActions env) := by
  unfold Work.safeActions
  exact ((w.steady_endAll _).trans (Work.steady_withdrawAll _ _ _)).trans (.foldl _ (fun w h => w.steady_owe _ _ h) _ _)

/-! ### Conditions of the Receiver Watch -/

theorem Work.reach_setConditions' (z : Nat) {v : ZoneRun} (w : Work) (hv : (w.fld.zoneAt z).Conditioned v) :
    Field.Reach env.live w.fld (w.setConditions z v).fld := w.reach_setConditions z v hv.committed hv.pending

/-- A change of one zone's conditions leaves that zone's budget alone in need of the recomputing it ends with (R91). -/
theorem Work.steady_rejudge (z : Nat) {v : ZoneRun} (w : Work) (hv : (w.fld.zoneAt z).Conditioned v) :
    Work.Steady env w (w.rejudge env z v) := by
  have hon := Work.Steady.ite (env := env) (v.critical && !(w.fld.zoneAt z).critical)
    ((w.setConditions z v).steady_criticalOnset z)
  refine ⟨w.reach_rejudge z v hv.committed hv.pending, fun hr hg X hs => ?_, fun y hy hb => ?_⟩
  · exact (hon.settled hr ((w.reach_setConditions' z hv).good hg) X (hs.setConditions z hv)).rebudget z
  · refine Work.budget_rebudget z hy fun hyz => hon.budgets y hy ?_
    unfold Field.BudgetExact
    rw [Work.zoneAt_setConditions, if_neg fun c => hyz c.1]
    exact hb

theorem ZoneRun.conditioned_conditions (a b c : Bool) (v : ZoneRun) : v.Conditioned (v.conditions a b c) := ⟨rfl, rfl, rfl, rfl, rfl⟩

theorem ZoneRun.conditioned_goStale (v : ZoneRun) : v.Conditioned v.goStale := ⟨rfl, rfl, rfl, rfl, rfl⟩

theorem ZoneRun.conditioned_goodReading (z t : Nat) (v : ZoneRun) : v.Conditioned (v.goodReading env z t) := ⟨rfl, rfl, rfl, rfl, rfl⟩

/-- The first step of `Work.staleAll` leaves no zone unsettled. -/
theorem Work.Settled.staleAll {X : Nat → Prop} {w : Work} (hs : w.Settled env X) (zs : List Nat) :
    (zs.foldl (fun (w : Work) z => w.setConditions z ((w.fld.zoneAt z).conditions false false true)) w).Settled env X := by
  induction zs generalizing w with
  | nil => exact hs
  | cons z zs ih => exact ih (hs.setConditions z (ZoneRun.conditioned_conditions _ _ _ _))

theorem Work.settled_staleAll {X : Nat → Prop} {w : Work} (hr : env.live.InRange) (hg : w.fld.Good env) (hs : w.Settled env X) :
    (w.staleAll env).Settled env X := by
  have hreach : ∀ zs : List Nat, Field.Reach env.live w.fld
      (zs.foldl (fun (w : Work) z => w.setConditions z ((w.fld.zoneAt z).conditions false false true)) w).fld := fun zs =>
    Work.reach_foldl (fun (w : Work) z => w.setConditions z ((w.fld.zoneAt z).conditions false false true))
      (fun w z => Work.reach_setConditions z _ w rfl rfl) zs w
  exact (Work.steady_rebudgetAll _ _).settled hr ((hreach _).good hg) X (hs.staleAll _)

/-- Every zone gone STALE has its budget recomputed (R95, R97). -/
theorem Work.budget_staleAll (w : Work) {y : Nat} (hy : y < Config.zones) : (w.staleAll env).fld.BudgetExact env y :=
  Work.budget_rebudgetAll _ _ hy fun hn => absurd (List.mem_range.2 hy) hn

end Sys2Proof.Machine
end

section
/-! PROOFS for flux admission: the FAU's tests end with every zone settled (R29, R30, R44 to R47). Each test lowers the number of zones
still to be tested together with what the walks to come may add to it, so the bound on the tests is never met. -/

namespace Sys2Proof.Machine

variable {env : Env}

/-! ### Lists of zones -/

theorem length_insertZone_le (z : Nat) (l : List Nat) : (insertZone z l).length ≤ l.length + 1 := by
  induction l with
  | nil => simp [insertZone]
  | cons y l ih =>
    unfold insertZone
    split
    · simp
    · split
      · simp
      · simpa using ih

theorem length_foldr_insertZone_le (zs l : List Nat) : (zs.foldr insertZone l).length ≤ l.length + zs.length := by
  induction zs with
  | nil => simp
  | cons z zs ih =>
    have := length_insertZone_le z (zs.foldr insertZone l)
    simp only [List.foldr_cons, List.length_cons]
    omega

theorem HelioRun.length_aims_le (r : HelioRun) : r.aims.length ≤ 2 := by
  unfold HelioRun.aims
  cases r.granted <;> cases r.leaving <;> simp

theorem Tables.InRange.length_footprint {t : Tables} (h : t.InRange) (a : Nat) : (t.aimAt a).footprint.length ≤ 4 := by
  have := h.aim a
  unfold footprintOk at this
  simp only [Bool.and_eq_true, decide_eq_true_eq] at this
  exact this.1.1.1.2

/-- A record that holds no aim but those it held moves at most the eight zones of two footprints (R22, R25). -/
theorem Env.length_zonesMoved (hr : env.live.InRange) {old new : HelioRun} (ha : new.aims ⊆ old.aims) :
    (env.zonesMoved old new).length ≤ 8 := by
  have hsub : env.zonesMoved old new ⊆ old.aims.flatMap (fun a => (env.footprint a).map (·.1)) := by
    intro z hz
    unfold Env.zonesMoved at hz
    split at hz
    · cases hz
    · obtain ⟨a, hm, hc⟩ := (Env.mem_zonesOf env _ z).1 hz
      have hm : a ∈ old.aims := (List.mem_append.1 hm).elim id (fun h => ha h)
      unfold Env.aimCovers at hc
      simp only [List.any_eq_true, beq_iff_eq] at hc
      exact List.mem_flatMap.2 ⟨a, hm, List.mem_map.2 hc⟩
  have hnodup : (env.zonesMoved old new).Nodup := (Env.sorted_zonesMoved env old new).imp fun h => Nat.ne_of_lt h
  have hlen : ∀ l : List Nat, (l.flatMap (fun a => (env.footprint a).map (·.1))).length ≤ 4 * l.length := by
    intro l
    induction l with
    | nil => simp
    | cons a l ih =>
      have := hr.length_footprint a
      simp only [List.flatMap_cons, List.length_append, List.length_map, List.length_cons, Env.footprint] at ih ⊢
      omega
  have := (hnodup.subperm hsub).length_le
  have := hlen old.aims
  have := old.length_aims_le
  omega

/-! ### What the walks to come may add -/

/-- The zones that the walks to come may touch by heliostat `h`: eight for each owed motion or withdrawal still possible. -/
def HelioRun.walkCost (r : HelioRun) : Nat := if r.secured then 0 else if r.queued then 16 else 8

/-- The zones that the walks to come may touch. -/
def Field.walkCost (f : Field) : Nat := ∑ h ∈ Finset.range Config.heliostats, (f.run h).walkCost

/-- The measure of the FAU's tests: the zones still to be tested, and those that walks may add. -/
def Work.testsLeft (w : Work) : Nat := w.touched.length + w.fld.walkCost

theorem Field.walkCost_congr {f g : Field} (h : ∀ j, (g.run j).walkCost = (f.run j).walkCost) : g.walkCost = f.walkCost :=
  Finset.sum_congr rfl fun j _ => h j

/-- A change of one record changes the cost by that record's. -/
theorem Field.walkCost_update {f g : Field} {h : Nat} (hh : h < Config.heliostats) (ho : ∀ j, h ≠ j → g.run j = f.run j) :
    g.walkCost + (f.run h).walkCost = f.walkCost + (g.run h).walkCost := by
  have hmem : h ∈ Finset.range Config.heliostats := Finset.mem_range.2 hh
  have hrest : ∑ j ∈ (Finset.range Config.heliostats).erase h, (g.run j).walkCost
      = ∑ j ∈ (Finset.range Config.heliostats).erase h, (f.run j).walkCost :=
    Finset.sum_congr rfl fun j hj => by rw [ho j (Finset.ne_of_mem_erase hj).symm]
  unfold Field.walkCost
  rw [← Finset.add_sum_erase _ _ hmem, ← Finset.add_sum_erase (a := h) _ (fun j => (f.run j).walkCost) hmem, hrest]
  omega

theorem Field.run_outside {f : Field} (hc : f.Canonical) {h : Nat} (hh : ¬ h < Config.heliostats) : f.run h = HelioRun.blank :=
  Table.get_outside hc.1 hh

theorem Field.zoneAt_outside {f : Field} (hc : f.Canonical) {z : Nat} (hz : ¬ z < Config.zones) : f.zoneAt z = ZoneRun.blank :=
  Table.get_outside hc.2.1 hz

/-- The fuel of the tests covers every walk: only a heliostat with a granted aim can be taken. -/
theorem Field.Good.walkCost_le {f : Field} (hg : f.Good env) : f.walkCost ≤ 16 * f.grants.length := by
  have hcost : ∀ h, (f.run h).walkCost ≤ if h ∈ f.grants then 16 else 0 := by
    intro h
    unfold HelioRun.walkCost
    by_cases hs : (f.run h).secured = true
    · simp [hs]
    · have hload : (f.run h).holdsLoad = true := by
        by_contra hl
        simp [HelioRun.secured, hl] at hs
      have hmem : h ∈ f.grants := (hg.grants.2 h).2 (by rw [← (hg.records h).holdsLoad_eq]; exact hload)
      simp only [hs, Bool.false_eq_true, if_false, hmem, if_true]
      split <;> omega
  calc f.walkCost ≤ ∑ h ∈ Finset.range Config.heliostats, (if h ∈ f.grants then 16 else 0) := Finset.sum_le_sum fun h _ => hcost h
    _ = 16 * ((Finset.range Config.heliostats).filter (· ∈ f.grants)).card := by
      rw [← Finset.sum_filter, Finset.sum_const, smul_eq_mul, Nat.mul_comm]
    _ ≤ 16 * f.grants.toFinset.card := by
      refine Nat.mul_le_mul_left 16 (Finset.card_le_card fun h hm => ?_)
      exact List.mem_toFinset.2 (Finset.mem_filter.1 hm).2
    _ ≤ 16 * f.grants.length := Nat.mul_le_mul_left 16 (List.toFinset_card_le _)

theorem Work.testsLeft_le_fuel {w : Work} (hg : w.fld.Good env) : w.testsLeft ≤ w.fuel := by
  have := hg.walkCost_le
  unfold Work.testsLeft Work.fuel
  omega

/-! ### The cost of a written record -/

theorem Work.length_touched_write (hr : env.live.InRange) (h : Nat) {r : HelioRun} {w : Work} (ha : r.aims ⊆ (w.fld.run h).aims) :
    (w.write env h r).touched.length ≤ w.touched.length + 8 := by
  unfold Work.write
  split
  · have h1 := length_foldr_insertZone_le (env.zonesMoved (w.fld.run h) r) w.touched
    have h2 := Env.length_zonesMoved hr ha
    simp only
    omega
  · omega

theorem Work.touched_put (env : Env) (h : Nat) (r : HelioRun) (w : Work) : (w.put env h r).touched = (w.write env h r).touched := by
  unfold Work.put
  dsimp only
  split <;> rfl

/-- A record put in the place of one that held its aims: eight zones at most are touched. -/
theorem Work.testsLeft_put (hr : env.live.InRange) {h : Nat} (hh : h < Config.heliostats) {r : HelioRun} {w : Work}
    (ha : r.aims ⊆ (w.fld.run h).aims) :
    (w.put env h r).testsLeft + (w.fld.run h).walkCost ≤ w.testsLeft + 8 + r.walkCost := by
  have h1 := Work.length_touched_write hr h ha
  have h2 := Field.walkCost_update hh fun j hj => Work.run_put_other env hj r w
  have h3 : ((w.put env h r).fld.run h).walkCost = r.walkCost := by rw [Work.run_put_same env hh]; rfl
  unfold Work.testsLeft
  rw [Work.touched_put]
  omega

theorem Work.testsLeft_follow (h : Nat) (a : Option Nat) (c : Bool) (w : Work) : (w.follow h a c).testsLeft = w.testsLeft := by
  unfold Work.testsLeft
  rw [Work.touched_follow, Field.walkCost_congr fun j => congrArg _ (Work.run_follow h a c w j)]

theorem Work.testsLeft_dropEntry (h : Nat) (w : Work) : (w.dropEntry env h).testsLeft = w.testsLeft := by
  unfold Work.testsLeft
  rw [Field.walkCost_congr fun j => congrArg _ (Work.run_dropEntry h w j)]
  rfl

theorem HelioRun.aims_by (c : Option Cause) (old new : HelioRun) : (old.by c new).aims = new.aims := by
  unfold HelioRun.by
  split <;> rfl

theorem HelioRun.aims_nothingRemains (r : HelioRun) : r.nothingRemains.aims = r.aims := by
  unfold HelioRun.nothingRemains
  split
  · rfl
  · split <;> rfl
  · split <;> rfl

theorem HelioRun.aims_setOwed (m : Motion) (c : Cause) (r : HelioRun) : (r.setOwed m c).aims = r.aims := by
  unfold HelioRun.setOwed
  split <;> rfl

/-- A revoked grant leaves the leaving aim alone (R37, R38). -/
theorem HelioRun.aims_revoked (r : HelioRun) : r.revoked.aims ⊆ r.aims := by
  unfold HelioRun.revoked HelioRun.aims
  cases r.leaving <;> simp [HelioRun.tidy]

theorem HelioRun.aims_withdrawn (c : Cause) (r : HelioRun) : (r.withdrawn c).aims ⊆ r.aims := by
  unfold HelioRun.withdrawn
  rw [HelioRun.aims_by, HelioRun.aims_nothingRemains]
  exact ({ r with queued := false } : HelioRun).aims_revoked

theorem HelioRun.aims_given (m : Motion) (c : Cause) (r : HelioRun) : (r.given m c).aims ⊆ r.aims := by
  unfold HelioRun.given
  rw [HelioRun.aims_by, HelioRun.aims_nothingRemains, HelioRun.aims_setOwed]
  split
  · exact ({ r with queued := false } : HelioRun).aims_revoked
  · exact List.Subset.refl _

theorem HelioRun.walkCost_given (m : Motion) (c : Cause) {r : HelioRun} (hs : r.Sound) : (r.given m c).walkCost = 0 := by
  unfold HelioRun.walkCost
  rw [if_pos (HelioRun.secured_given m c hs)]

theorem HelioRun.walkCost_withdrawn (c : Cause) (r : HelioRun) : (r.withdrawn c).walkCost ≤ 8 := by
  have hq : (r.withdrawn c).queued = false := by
    unfold HelioRun.withdrawn
    rw [HelioRun.by_queued, HelioRun.nothingRemains_queued]
    exact HelioRun.revoked_queued _ rfl
  unfold HelioRun.walkCost
  rw [hq]
  split <;> simp

theorem HelioRun.walkCost_queued {r : HelioRun} (hs : r.secured = false) (hq : r.queued = true) : r.walkCost = 16 := by
  simp [HelioRun.walkCost, hs, hq]

theorem HelioRun.walkCost_unqueued {r : HelioRun} (hs : r.secured = false) (hq : r.queued = false) : r.walkCost = 8 := by
  simp [HelioRun.walkCost, hs, hq]

/-- An owed motion touches eight zones at most, and its heliostat is then out of the walks' reach. -/
theorem Work.testsLeft_owe (hr : env.live.InRange) (m : Motion) (c : Cause) {h : Nat} (hh : h < Config.heliostats) {w : Work}
    (hs : (w.fld.run h).Sound) : (w.owe env m c h).testsLeft + (w.fld.run h).walkCost ≤ w.testsLeft + 8 := by
  have hput : ∀ w1 : Work, w1.fld.run h = w.fld.run h → (w1.put env h ((w.fld.run h).given m c)).testsLeft
      + (w.fld.run h).walkCost ≤ w1.testsLeft + 8 := by
    intro w1 e
    have := Work.testsLeft_put (w := w1) hr hh (r := (w.fld.run h).given m c) (e ▸ HelioRun.aims_given m c _)
    rw [e, HelioRun.walkCost_given m c hs] at this
    exact this
  rw [Work.owe_eq]
  split
  · rw [Work.testsLeft_follow]
    have := hput (w.dropEntry env h) (Work.run_dropEntry h w h)
    rwa [Work.testsLeft_dropEntry] at this
  · exact hput w rfl

theorem Work.run_withdraw_same (c : Cause) {h : Nat} (hh : h < Config.heliostats) {w : Work} (hq : (w.fld.run h).queued = true) :
    (w.withdraw env c h).fld.run h =
      { (w.fld.run h).withdrawn c with reportOwed := ((w.withdraw env c h).fld.run h).reportOwed } := by
  rw [Work.withdraw_eq, if_pos hq, Work.run_follow]
  exact Work.run_put_same env hh _ _

theorem Work.run_withdraw_other (c : Cause) {h j : Nat} (hj : h ≠ j) (w : Work) : (w.withdraw env c h).fld.run j = w.fld.run j := by
  rw [Work.withdraw_eq]
  split
  · rw [Work.run_follow, Work.run_put_other env hj, Work.run_dropEntry]
  · rfl

/-- A withdrawal touches eight zones at most, and its heliostat may then be taken once more. -/
theorem Work.testsLeft_withdraw (hr : env.live.InRange) (c : Cause) {h : Nat} (hh : h < Config.heliostats) {w : Work}
    (hq : (w.fld.run h).queued = true) :
    (w.withdraw env c h).testsLeft + (w.fld.run h).walkCost
      ≤ w.testsLeft + 8 + ((w.withdraw env c h).fld.run h).walkCost := by
  have hcost : ((w.withdraw env c h).fld.run h).walkCost = ((w.fld.run h).withdrawn c).walkCost := by
    rw [Work.run_withdraw_same c hh hq]; rfl
  rw [hcost, Work.withdraw_eq, if_pos hq, Work.testsLeft_follow]
  have := Work.testsLeft_put (w := w.dropEntry env h) hr hh (r := (w.fld.run h).withdrawn c)
    (by rw [Work.run_dropEntry]; exact HelioRun.aims_withdrawn c _)
  rwa [Work.run_dropEntry, Work.testsLeft_dropEntry] at this

/-! ### One heliostat shed -/

/-- A heliostat that a walk for zone `z` may take (R45). -/
def Field.Exposed (env : Env) (z h : Nat) (f : Field) : Prop := env.covers (f.run h) z = true ∧ (f.run h).secured = false

theorem Work.candidate_iff {z h : Nat} {w : Work} : w.candidate env z h = true ↔ w.fld.Exposed env z h := by
  refine ⟨fun hc => ⟨?_, Work.secured_of_candidate hc⟩, fun ⟨hc, hs⟩ => ?_⟩
  · unfold Work.candidate at hc
    simp only [Bool.and_eq_true] at hc
    exact hc.1.1.1
  · unfold HelioRun.secured at hs
    simp only [Bool.or_eq_false_iff, Bool.not_eq_false', beq_eq_false_iff_ne, ne_eq] at hs
    unfold Work.candidate
    simp [hc, hs.1.1.2, hs.1.2, Option.isSome_eq_false_iff.1 hs.1.1.1]

theorem Field.Exposed.lt {f : Field} (hc : f.Canonical) {z h : Nat} (he : f.Exposed env z h) : h < Config.heliostats := by
  by_contra hh
  have := he.1
  rw [Field.run_outside hc hh] at this
  exact absurd this Bool.false_ne_true

theorem Work.steady_shed (z h : Nat) (w : Work) : Work.Steady env w (w.shed env z h) := by
  unfold Work.shed
  split
  · dsimp only
    split
    · exact (w.steady_withdraw _ h).trans (Work.steady_owe _ _ h _)
    · exact w.steady_withdraw _ h
  · exact w.steady_owe _ _ h

theorem Work.run_shed_other (z : Nat) {h j : Nat} (hj : h ≠ j) (w : Work) : (w.shed env z h).fld.run j = w.fld.run j := by
  unfold Work.shed
  split
  · dsimp only
    split
    · exact (Work.run_owe_other env _ _ hj _).trans (Work.run_withdraw_other _ hj w)
    · exact Work.run_withdraw_other _ hj w
  · exact Work.run_owe_other env _ _ hj w

/-- The whole cost of treating a candidate was counted before it. -/
theorem Work.testsLeft_shed (hr : env.live.InRange) (z : Nat) {h : Nat} {w : Work} (hg : w.fld.Good env)
    (he : w.fld.Exposed env z h) : (w.shed env z h).testsLeft ≤ w.testsLeft := by
  have hh := he.lt hg.canonical
  unfold Work.shed
  split
  · next hq =>
    have h1 := Work.testsLeft_withdraw hr .shed hh (env := env) hq
    have h2 : ((w.withdraw env .shed h).fld.run h).walkCost ≤ 8 := by
      rw [Work.run_withdraw_same .shed hh hq]
      exact HelioRun.walkCost_withdrawn .shed _
    rw [HelioRun.walkCost_queued he.2 hq] at h1
    dsimp only
    split
    · have h3 := Work.testsLeft_owe hr .defocus .shed hh (((w.reach_withdraw .shed h).good hg).records h)
      omega
    · omega
  · next hq =>
    have h1 := Work.testsLeft_owe hr .defocus .shed hh (hg.records h)
    rw [HelioRun.walkCost_unqueued he.2 (eq_false_of_ne_true hq)] at h1
    omega

theorem Work.not_exposed_owe (m : Motion) (c : Cause) {z h : Nat} (hh : h < Config.heliostats) {w : Work} (hs : (w.fld.run h).Sound) :
    ¬ (w.owe env m c h).fld.Exposed env z h := by
  rintro ⟨-, he⟩
  rw [Work.run_owe_same env m c hh, HelioRun.secured_reportOwed, HelioRun.secured_given m c hs] at he
  cases he

/-- A candidate treated is none any more, or the zone is in excess no more (R46). -/
theorem Work.not_exposed_shed {z h : Nat} {w : Work} (hg : w.fld.Good env) (hh : h < Config.heliostats)
    (hx : ((w.shed env z h).fld.zoneAt z).inExcess = true) : ¬ (w.shed env z h).fld.Exposed env z h := by
  unfold Work.shed at hx ⊢
  split at hx
  · next hq =>
    rw [if_pos hq]
    dsimp only at hx ⊢
    split at hx
    · next hc =>
      rw [if_pos hc]
      exact Work.not_exposed_owe _ _ hh (((w.reach_withdraw .shed h).good hg).records h)
    · next hc =>
      rw [if_neg hc]
      rintro ⟨hcov, -⟩
      exact hc (by rw [hcov, hx]; rfl)
  · next hq =>
    rw [if_neg hq]
    exact Work.not_exposed_owe _ _ hh (hg.records h)

/-! ### One walk -/

/-- One heliostat's turn in a walk. -/
def Work.turn (env : Env) (z h : Nat) (w : Work) : Work := if w.candidate env z h then w.shed env z h else w

theorem Work.walk_cons (z h : Nat) (t : List Nat) (w : Work) :
    w.walk env z (h :: t) = if (w.fld.zoneAt z).inExcess then (w.turn env z h).walk env z t else w := rfl

theorem Work.walk_of_not_excess {z : Nat} {w : Work} (hx : (w.fld.zoneAt z).inExcess = false) (l : List Nat) : w.walk env z l = w := by
  cases l with
  | nil => rfl
  | cons h t => rw [Work.walk_cons, hx]; rfl

theorem Work.steady_turn (z h : Nat) (w : Work) : Work.Steady env w (w.turn env z h) := by
  unfold Work.turn
  split
  · exact w.steady_shed z h
  · exact .refl w

theorem Work.testsLeft_turn (hr : env.live.InRange) (z h : Nat) {w : Work} (hg : w.fld.Good env) :
    (w.turn env z h).testsLeft ≤ w.testsLeft := by
  unfold Work.turn
  split
  · next hc => exact Work.testsLeft_shed hr z hg (Work.candidate_iff.1 hc)
  · exact le_refl _

theorem Work.not_exposed_turn {z h : Nat} {w : Work} (hg : w.fld.Good env)
    (hx : ((w.turn env z h).fld.zoneAt z).inExcess = true) : ¬ (w.turn env z h).fld.Exposed env z h := by
  unfold Work.turn at hx ⊢
  split at hx
  · next hc =>
    rw [if_pos hc]
    exact Work.not_exposed_shed hg ((Work.candidate_iff.1 hc).lt hg.canonical) hx
  · next hc =>
    rw [if_neg hc]
    exact fun he => hc (Work.candidate_iff.2 he)

/-- A turn exposes no heliostat that was not. -/
theorem Work.not_exposed_turn_of_not {z h j : Nat} {w : Work} (hj : ¬ w.fld.Exposed env z j) :
    ¬ (w.turn env z h).fld.Exposed env z j := by
  unfold Work.turn
  split
  · next hc =>
    by_cases he : h = j
    · exact absurd (he ▸ Work.candidate_iff.1 hc) hj
    · unfold Field.Exposed
      rw [Work.run_shed_other z he]
      exact hj
  · exact hj

theorem Work.steady_walk (z : Nat) (l : List Nat) (w : Work) : Work.Steady env w (w.walk env z l) := by
  induction l generalizing w with
  | nil => exact .refl w
  | cons h t ih =>
    rw [Work.walk_cons]
    split
    · exact (w.steady_turn z h).trans (ih _)
    · exact .refl w

theorem Work.testsLeft_walk (hr : env.live.InRange) (z : Nat) (l : List Nat) {w : Work} (hg : w.fld.Good env) :
    (w.walk env z l).testsLeft ≤ w.testsLeft := by
  induction l generalizing w with
  | nil => exact le_refl _
  | cons h t ih =>
    rw [Work.walk_cons]
    split
    · exact (ih ((w.steady_turn z h).reach.good hg)).trans (Work.testsLeft_turn hr z h hg)
    · exact le_refl _

theorem Work.not_exposed_walk_of_not {z j : Nat} (l : List Nat) {w : Work} (hj : ¬ w.fld.Exposed env z j) :
    ¬ (w.walk env z l).fld.Exposed env z j := by
  induction l generalizing w with
  | nil => exact hj
  | cons h t ih =>
    rw [Work.walk_cons]
    split
    · exact ih (Work.not_exposed_turn_of_not hj)
    · exact hj

/-- A walk that ends with its zone in excess has left no candidate among the heliostats it passed (R45, R47). -/
theorem Work.not_exposed_walk {z : Nat} (l : List Nat) {w : Work} (hg : w.fld.Good env)
    (hx : ((w.walk env z l).fld.zoneAt z).inExcess = true) : ∀ h ∈ l, ¬ (w.walk env z l).fld.Exposed env z h := by
  induction l generalizing w with
  | nil => exact fun _ h => absurd h (by simp)
  | cons h t ih =>
    rw [Work.walk_cons] at hx ⊢
    split at hx
    · next hw =>
      rw [if_pos hw]
      have hg1 := (w.steady_turn (env := env) z h).reach.good hg
      intro j hj
      rcases List.mem_cons.1 hj with rfl | hj
      · refine Work.not_exposed_walk_of_not t (Work.not_exposed_turn hg ?_)
        by_contra hn
        rw [Work.walk_of_not_excess (eq_false_of_ne_true hn)] at hx
        exact hn hx
      · exact ih hg1 hx j hj
    · next hw => exact absurd hx hw

/-! ### One test -/

theorem Work.reach_touched (w : Work) (t : List Nat) : Field.Reach env.live w.fld ({ w with touched := t } : Work).fld :=
  Relation.ReflTransGen.refl

/-- What OVER's re-evaluation makes of its zone (R30). -/
theorem Work.zoneAt_evalOver {w : Work} (hc : w.fld.Canonical) (z : Nat) : ∃ m, (w.evalOver z).fld.zoneAt z =
    { w.fld.zoneAt z with overBudget := (w.fld.zoneAt z).isOver, marks := m } := by
  unfold Work.evalOver
  dsimp only
  split
  · next he => exact ⟨(w.fld.zoneAt z).marks, by rw [he]⟩
  · next he =>
    have hz : z < Config.zones := by
      by_contra hz
      rw [Field.zoneAt_outside hc hz] at he
      exact he rfl
    have h := Work.zoneAt_mark z { w.fld.zoneAt z with
      overBudget := (w.fld.zoneAt z).isOver, marks := { (w.fld.zoneAt z).marks with overBudget := true } } w z
    rw [if_pos ⟨rfl, hz⟩] at h
    exact ⟨_, h⟩

theorem Work.zoneAt_setUnsheddable {w : Work} (hc : w.fld.Canonical) (z : Nat) {b : Bool} (hb : b = (w.fld.zoneAt z).inExcess) :
    ∃ m, (w.setUnsheddable z b).fld.zoneAt z = { w.fld.zoneAt z with unsheddable := b, marks := m } := by
  unfold Work.setUnsheddable
  dsimp only
  split
  · next he => exact ⟨(w.fld.zoneAt z).marks, by rw [← he]⟩
  · next he =>
    have hz : z < Config.zones := by
      by_contra hz
      rw [hb, Field.zoneAt_outside hc hz] at he
      exact he rfl
    have h := Work.zoneAt_mark z { w.fld.zoneAt z with
      unsheddable := b, marks := { (w.fld.zoneAt z).marks with unsheddable := true } } w z
    rw [if_pos ⟨rfl, hz⟩] at h
    exact ⟨_, h⟩

/-- What the marking of one zone leaves alone: every record but for its report-owed flag, the other zones, and what is to be tested. -/
structure Work.MarksOnly (z : Nat) (w w' : Work) : Prop where
  runs : w.fld.Quiet w'.fld
  zones : ∀ y, z ≠ y → w'.fld.zoneAt y = w.fld.zoneAt y
  inputs : ∀ y, (w.fld.zoneAt y).SameInputs (w'.fld.zoneAt y)
  touched : w'.touched = w.touched

theorem Work.marksOnly_mark {z : Nat} {v : ZoneRun} {w : Work} (hv : (w.fld.zoneAt z).SameInputs v) : w.MarksOnly z (w.mark z v) := by
  refine ⟨w.quiet_mark z v, fun y hy => ?_, fun y => ?_, rfl⟩
  · rw [Work.zoneAt_mark, if_neg fun c => hy c.1]
  · rw [Work.zoneAt_mark]
    split
    · next hy => exact hy.1 ▸ hv
    · exact .refl _

theorem Work.MarksOnly.refl (z : Nat) (w : Work) : w.MarksOnly z w := ⟨.refl _, fun _ _ => rfl, fun _ => .refl _, rfl⟩

theorem Work.marksOnly_evalOver (z : Nat) (w : Work) : w.MarksOnly z (w.evalOver z) := by
  unfold Work.evalOver
  dsimp only
  split
  · exact .refl z w
  · exact Work.marksOnly_mark ⟨rfl, rfl, rfl, rfl, rfl, rfl, rfl⟩

theorem Work.marksOnly_setUnsheddable (z : Nat) (b : Bool) (w : Work) : w.MarksOnly z (w.setUnsheddable z b) := by
  unfold Work.setUnsheddable
  dsimp only
  split
  · exact .refl z w
  · obtain ⟨h1, h2, h3, h4⟩ := Work.marksOnly_mark (z := z) (w := w)
      (v := { w.fld.zoneAt z with unsheddable := b, marks := { (w.fld.zoneAt z).marks with unsheddable := true } })
      ⟨rfl, rfl, rfl, rfl, rfl, rfl, rfl⟩
    exact ⟨h1, h2, h3, h4⟩

theorem HelioRun.Alike.secured {r r' : HelioRun} (h : r.Alike r') : r'.secured = r.secured := by
  obtain ⟨a, b, c, rfl⟩ := h
  rfl

theorem HelioRun.Alike.covers {r r' : HelioRun} (h : r.Alike r') (z : Nat) : env.covers r' z = env.covers r z := by
  obtain ⟨a, b, c, rfl⟩ := h
  rfl

theorem HelioRun.Alike.walkCost {r r' : HelioRun} (h : r.Alike r') : r'.walkCost = r.walkCost := by
  obtain ⟨a, b, c, rfl⟩ := h
  rfl

theorem Work.MarksOnly.testsLeft {z : Nat} {w w' : Work} (h : w.MarksOnly z w') : w'.testsLeft = w.testsLeft := by
  unfold Work.testsLeft
  rw [h.touched, Field.walkCost_congr fun j => (h.runs.runs j).walkCost]

/-- The marking of a zone leaves every other zone settled. -/
theorem Work.MarksOnly.settled {z : Nat} {w w' : Work} (h : w.MarksOnly z w') {y : Nat} (hy : z ≠ y) (hs : w.fld.ZoneSettled env y) :
    w'.fld.ZoneSettled env y := by
  obtain ⟨ho, hu, hsp⟩ := hs
  refine ⟨?_, ?_, fun he j hc => ?_⟩
  · rw [h.zones y hy]; exact ho
  · rw [h.zones y hy]; exact hu
  · rw [h.zones y hy] at he
    rw [(h.runs.runs j).secured]
    exact hsp he j (((h.runs.runs j).covers y).symm.trans hc)

/-- The first part of a test: the walk, with OVER after it (R44). -/
def Work.shedExcess (env : Env) (z : Nat) (w : Work) : Work :=
  if (w.fld.zoneAt z).inExcess then (w.walk env z w.fld.grants.reverse).evalOver z else w

theorem Work.shedTest_eq (z : Nat) (w : Work) : w.shedTest env z =
    let w2 := (w.shedExcess env z).setUnsheddable z ((w.shedExcess env z).fld.zoneAt z).inExcess
    { w2 with touched := w2.touched.filter (· != z) } := rfl

theorem Work.reach_shedExcess (z : Nat) (w : Work) : Field.Reach env.live w.fld (w.shedExcess env z).fld := by
  unfold Work.shedExcess
  split
  · exact (w.reach_walk z _).trans (Work.reach_evalOver z _)
  · exact Relation.ReflTransGen.refl

/-- After the walk no heliostat is left that covers the zone, if it is still in excess, and may be taken (R45, R47). -/
theorem Work.not_exposed_shedExcess {z : Nat} {w : Work} (hg : w.fld.Good env)
    (hx : ((w.shedExcess env z).fld.zoneAt z).inExcess = true) (h : Nat) : ¬ (w.shedExcess env z).fld.Exposed env z h := by
  unfold Work.shedExcess at hx ⊢
  split at hx
  · next hw =>
    rw [if_pos hw]
    have hm := Work.marksOnly_evalOver z (w.walk env z w.fld.grants.reverse)
    obtain ⟨m, he⟩ := Work.zoneAt_evalOver ((w.reach_walk (env := env) z w.fld.grants.reverse).good hg).canonical z
    rw [he] at hx
    have hwalk : ¬ (w.walk env z w.fld.grants.reverse).fld.Exposed env z h := by
      by_cases hmem : h ∈ w.fld.grants
      · exact Work.not_exposed_walk _ hg hx h (List.mem_reverse.2 hmem)
      · refine Work.not_exposed_walk_of_not _ fun he => hmem ((hg.grants.2 h).2 ?_)
        rw [← (hg.records h).holdsLoad_eq]
        exact Env.covers_holdsLoad he.1
    unfold Field.Exposed
    rw [(hm.runs.runs h).covers, (hm.runs.runs h).secured]
    exact hwalk
  · next hw => exact absurd hx hw

theorem Work.overBudget_shedExcess {z : Nat} {w : Work} (hg : w.fld.Good env)
    (ho : (w.fld.zoneAt z).overBudget = (w.fld.zoneAt z).isOver) :
    ((w.shedExcess env z).fld.zoneAt z).overBudget = ((w.shedExcess env z).fld.zoneAt z).isOver := by
  unfold Work.shedExcess
  split
  · obtain ⟨m, he⟩ := Work.zoneAt_evalOver ((w.reach_walk (env := env) z w.fld.grants.reverse).good hg).canonical z
    rw [he]
    rfl
  · exact ho

theorem Work.testsLeft_shedExcess (hr : env.live.InRange) (z : Nat) {w : Work} (hg : w.fld.Good env) :
    (w.shedExcess env z).testsLeft ≤ w.testsLeft := by
  unfold Work.shedExcess
  split
  · rw [(Work.marksOnly_evalOver z _).testsLeft]
    exact Work.testsLeft_walk hr z _ hg
  · exact le_refl _

/-- A zone's own test settles it (R44, R47). -/
theorem Work.zoneSettled_shedTest {z : Nat} {w : Work} (hg : w.fld.Good env)
    (ho : (w.fld.zoneAt z).overBudget = (w.fld.zoneAt z).isOver) : (w.shedTest env z).fld.ZoneSettled env z := by
  rw [Work.shedTest_eq]
  have hm := Work.marksOnly_setUnsheddable z ((w.shedExcess env z).fld.zoneAt z).inExcess (w.shedExcess env z)
  obtain ⟨m, he⟩ := Work.zoneAt_setUnsheddable ((w.reach_shedExcess (env := env) z).good hg).canonical z
    (b := ((w.shedExcess env z).fld.zoneAt z).inExcess) rfl
  refine ⟨?_, ?_, fun hx j hc => ?_⟩
  · dsimp only
    rw [he]
    exact Work.overBudget_shedExcess hg ho
  · dsimp only
    rw [he]
    rfl
  · dsimp only at hx hc ⊢
    rw [he] at hx
    rw [(hm.runs.runs j).secured]
    by_contra hn
    exact Work.not_exposed_shedExcess hg hx j ⟨((hm.runs.runs j).covers z).symm.trans hc, eq_false_of_ne_true hn⟩

/-- A zone's test leaves every other zone settled, or still to be tested. -/
theorem Work.settled_shedTest (hr : env.live.InRange) {X : Nat → Prop} {z : Nat} {w : Work} (hg : w.fld.Good env)
    (hs : w.Settled env (fun y => X y ∨ y = z)) (ho : (w.fld.zoneAt z).overBudget = (w.fld.zoneAt z).isOver) :
    (w.shedTest env z).Settled env X := by
  intro y hX hy
  by_cases hyz : z = y
  · exact hyz ▸ Work.zoneSettled_shedTest hg ho
  · rw [Work.shedTest_eq] at hy ⊢
    have hm := Work.marksOnly_setUnsheddable z ((w.shedExcess env z).fld.zoneAt z).inExcess (w.shedExcess env z)
    have hy1 : y ∉ (w.shedExcess env z).touched := by
      intro hmem
      refine hy (List.mem_filter.2 ⟨hm.touched ▸ hmem, ?_⟩)
      simpa using Ne.symm hyz
    refine hm.settled hyz ?_
    have hXz : ¬ (X y ∨ y = z) := fun c => c.elim hX (Ne.symm hyz)
    unfold Work.shedExcess at hy1 ⊢
    split at hy1
    · next hw =>
      rw [if_pos hw]
      have hm1 := Work.marksOnly_evalOver z (w.walk env z w.fld.grants.reverse)
      rw [hm1.touched] at hy1
      exact hm1.settled hyz ((w.steady_walk z _).settled hr hg _ hs y hXz hy1)
    · next hw =>
      rw [if_neg hw]
      exact hs y hXz hy1

theorem Work.testsLeft_shedTest (hr : env.live.InRange) (z : Nat) {w : Work} (hg : w.fld.Good env) :
    (w.shedTest env z).testsLeft ≤ w.testsLeft := by
  have h1 := Work.testsLeft_shedExcess hr z hg
  have h2 := (Work.marksOnly_setUnsheddable z ((w.shedExcess env z).fld.zoneAt z).inExcess (w.shedExcess env z)).testsLeft
  have h3 : (w.shedTest env z).testsLeft
      ≤ ((w.shedExcess env z).setUnsheddable z ((w.shedExcess env z).fld.zoneAt z).inExcess).testsLeft := by
    rw [Work.shedTest_eq]
    exact Nat.add_le_add_right (List.length_filter_le _ _) _
  omega

/-! ### All tests -/

/-- The first zone to be tested is tested: one fewer is left (R44). -/
def Work.testFirst (env : Env) (z : Nat) (t : List Nat) (w : Work) : Work := (({ w with touched := t }).evalOver z).shedTest env z

theorem Work.settle_cons {z : Nat} {t : List Nat} {w : Work} (h : w.touched = z :: t) (n : Nat) :
    w.settle env (n + 1) = (w.testFirst env z t).settle env n := by
  rw [Work.settle, h]
  rfl

theorem Work.reach_testFirst (z : Nat) (t : List Nat) (w : Work) : Field.Reach env.live w.fld (w.testFirst env z t).fld :=
  (Work.reach_evalOver z ({ w with touched := t } : Work)).trans (Work.reach_shedTest z _)

theorem Work.settled_testFirst (hr : env.live.InRange) {X : Nat → Prop} {z : Nat} {t : List Nat} {w : Work} (hg : w.fld.Good env)
    (ht : w.touched = z :: t) (hs : w.Settled env X) : (w.testFirst env z t).Settled env X := by
  have hm := Work.marksOnly_evalOver z ({ w with touched := t } : Work)
  have hg1 := (Work.reach_evalOver (live := env.live) z ({ w with touched := t } : Work)).good (env := env) hg
  refine Work.settled_shedTest hr hg1 (fun y hX hy => ?_) ?_
  · rw [not_or] at hX
    rw [hm.touched] at hy
    refine hm.settled (Ne.symm hX.2) (hs y hX.1 ?_)
    rw [ht, List.mem_cons, not_or]
    exact ⟨hX.2, hy⟩
  · obtain ⟨m, he⟩ := Work.zoneAt_evalOver (w := { w with touched := t }) hg.canonical z
    rw [he]
    rfl

theorem Work.testsLeft_testFirst (hr : env.live.InRange) {z : Nat} {t : List Nat} {w : Work} (hg : w.fld.Good env)
    (ht : w.touched = z :: t) : (w.testFirst env z t).testsLeft < w.testsLeft := by
  have hg1 := (Work.reach_evalOver (live := env.live) z ({ w with touched := t } : Work)).good (env := env) hg
  have h1 := Work.testsLeft_shedTest hr z hg1
  rw [(Work.marksOnly_evalOver z ({ w with touched := t } : Work)).testsLeft] at h1
  refine lt_of_le_of_lt h1 ?_
  unfold Work.testsLeft
  rw [ht, List.length_cons]
  dsimp only
  omega

/-- Tests enough for what is left end with nothing to be tested and every zone settled. -/
theorem Work.settled_settle (hr : env.live.InRange) {X : Nat → Prop} (n : Nat) {w : Work} (hg : w.fld.Good env)
    (hs : w.Settled env X) (hn : w.testsLeft ≤ n) : (w.settle env n).Settled env X ∧ (w.settle env n).touched = [] := by
  induction n generalizing w with
  | zero =>
    refine ⟨hs, List.eq_nil_of_length_eq_zero ?_⟩
    unfold Work.testsLeft at hn
    have : w.settle env 0 = w := rfl
    rw [this]
    omega
  | succ n ih =>
    cases ht : w.touched with
    | nil =>
      rw [Work.settle_nil env _ ht]
      exact ⟨hs, ht⟩
    | cons z t =>
      rw [Work.settle_cons ht]
      have hlt := Work.testsLeft_testFirst hr hg ht
      exact ih ((w.reach_testFirst z t).good hg) (Work.settled_testFirst hr hg ht hs) (by omega)

/-- The FAU's tests end with nothing to be tested and every zone settled (R44 to R47). -/
theorem Work.settled_settleNow (hr : env.live.InRange) {X : Nat → Prop} {w : Work} (hg : w.fld.Good env) (hs : w.Settled env X) :
    (w.settleNow env).Settled env X ∧ (w.settleNow env).touched = [] :=
  Work.settled_settle hr _ hg hs (Work.testsLeft_le_fuel hg)

theorem Work.steady_settleNow (w : Work) : Work.Steady env w (w.settleNow env) :=
  ⟨w.reach_settleNow, fun hr hg _ hs => (Work.settled_settleNow hr hg hs).1,
    fun z _ hb => hb.sameInputs ((w.shedOnly_settleNow env).zones z)⟩

/-- A change ends with every zone settled. -/
theorem Work.settled_finish (hr : env.live.InRange) {w : Work} (hg : w.fld.Good env) (hs : w.Settled env fun _ => False) (z : Nat) :
    (w.finish env).ZoneSettled env z := by
  obtain ⟨h1, h2⟩ := Work.settled_settleNow hr hg hs
  refine (h1 z id ?_).sameLoads (.evalTrip env _)
  rw [h2]
  exact List.not_mem_nil

theorem Work.budget_finish {w : Work} {z : Nat} (hz : z < Config.zones) (hb : w.fld.BudgetExact env z) :
    (w.finish env).BudgetExact env z := ((w.steady_settleNow.trans (Work.steady_evalTrip _)).budgets z hz hb)

end Sys2Proof.Machine
end

section
/-! PROOFS for flux admission: settled zones and exact budgets through the grants, the ends of exchanges and the programs' steps. -/

namespace Sys2Proof.Machine

variable {env : Env}

/-! ### What an exchange makes of a LOST heliostat that holds load (R74, R79) -/

/-- No motion that a walk looks for: neither SLEWING nor TRACKING, and no Move Queue entry. -/
structure HelioRun.Sheltered (r : HelioRun) : Prop where
  slewing : r.state ≠ .slewing
  tracking : r.state ≠ .tracking
  queued : r.queued = false

/-- Accounted LOST, without a Move Queue entry. -/
structure HelioRun.LostOn (r : HelioRun) : Prop where
  state : r.state = .lost
  unaccounted : r.unaccounted = false
  queued : r.queued = false

theorem HelioRun.LostOn.sheltered {r : HelioRun} (h : r.LostOn) : r.Sheltered :=
  ⟨by rw [h.state]; decide, by rw [h.state]; decide, h.queued⟩

/-- A heliostat that holds load is SLEWING, TRACKING, RETURNING or LOST (R6), so one that is neither of the first two is no walk's. -/
theorem HelioRun.Sheltered.secured {r : HelioRun} (h : r.Sheltered) (hs : r.Sound) : r.secured := by
  unfold HelioRun.secured
  cases hl : r.holdsLoad
  · simp
  · rw [hs.holdsLoad_eq, hs.1] at hl
    simp only [HelioRun.grantState, Bool.or_eq_true, beq_iff_eq, h.slewing, h.tracking, false_or, Bool.and_eq_true] at hl
    rcases hl with hl | hl
    · simp [hl.1]
    · simp [hl.1]

theorem HelioRun.Sound.lostOn {r : HelioRun} (h : r.Sound) (hs : r.state = .lost) (hl : r.holdsLoad) : r.LostOn := by
  refine ⟨hs, ?_, h.not_queued (by rw [hs]; decide)⟩
  rw [h.holdsLoad_eq, h.1] at hl
  simpa [HelioRun.grantState, hs] using hl

theorem Edit.set_state (c : Option Cause) (new : HelioRun) (e : Edit) : (e.set c new).r.state = new.state := by
  rw [Edit.set_r, HelioRun.by_state, HelioRun.nothingRemains_state]
  rfl

theorem Edit.set_queued (c : Option Cause) (new : HelioRun) (e : Edit) : (e.set c new).r.queued = (new.state == .slewing && new.queued) := by
  rw [Edit.set_r, HelioRun.by_queued, HelioRun.nothingRemains_queued]
  rfl

theorem HelioRun.nothingRemains_unaccounted (r : HelioRun) : r.nothingRemains.unaccounted = r.unaccounted := by
  unfold HelioRun.nothingRemains
  split
  · rfl
  · split <;> rfl
  · split <;> rfl

theorem HelioRun.by_unaccounted (c : Option Cause) (old new : HelioRun) : (old.by c new).unaccounted = new.unaccounted := by
  unfold HelioRun.by
  split <;> rfl

theorem Edit.sheltered_set {c : Option Cause} {new : HelioRun} {e : Edit} {st : HState} (hs : new.state = st) (h1 : st ≠ .slewing)
    (h2 : st ≠ .tracking) : (e.set c new).r.Sheltered := by
  subst hs
  refine ⟨?_, ?_, ?_⟩
  · rw [Edit.set_state]; exact h1
  · rw [Edit.set_state]; exact h2
  · rw [Edit.set_queued, beq_eq_false_iff_ne.2 h1]; rfl

theorem Edit.lostOn_set {c : Option Cause} {new : HelioRun} {e : Edit} (hs : new.state = .lost) (hu : new.unaccounted = false) :
    (e.set c new).r.LostOn := by
  refine ⟨?_, ?_, ?_⟩
  · rw [Edit.set_state]; exact hs
  · rw [Edit.set_r, HelioRun.by_unaccounted, HelioRun.nothingRemains_unaccounted]
    simp [HelioRun.tidy, hu]
  · rw [Edit.set_queued, hs]; rfl

theorem HelioRun.Sheltered.owe {e : Edit} (h : e.r.Sheltered) (m : Motion) (c c' : Cause) : (e.owe m c c').r.Sheltered := by
  unfold Edit.owe
  rw [h.queued]
  exact Edit.sheltered_set (HelioRun.setOwed_state m c e.r) h.slewing h.tracking

theorem HelioRun.LostOn.noteFault {e : Edit} (h : e.r.LostOn) (b : Bool) (c : FaultCause) : (e.noteFault b c).r.LostOn := by
  unfold Edit.noteFault
  split
  · exact Edit.lostOn_set h.state h.unaccounted
  · exact h

theorem HelioRun.LostOn.statusFlags {e : Edit} (h : e.r.LostOn) (st : Status) : (e.statusFlags st).r.LostOn := by
  have h1 : (e.noteLocal st.localControl).r.LostOn := by
    unfold Edit.noteLocal
    split
    · exact h
    · exact Edit.lostOn_set h.state h.unaccounted
  exact (h1.noteFault _ _).noteFault _ _

theorem HelioRun.LostOn.positionLost {e : Edit} (h : e.r.LostOn) (f : Field) (p : Position) : (e.positionLost env f p).r.Sheltered := by
  unfold Edit.positionLost
  cases p with
  | onAim a =>
    dsimp only
    rw [if_neg fun c => by rw [h.unaccounted] at c; exact Bool.false_ne_true c.1]
    exact h.sheltered.owe _ _ _
  | moving _ _ _ => exact h.sheltered
  | clear => exact Edit.sheltered_set (st := .unsure) rfl (by decide) (by decide)
  | atStandby => exact Edit.sheltered_set (st := .standby) rfl (by decide) (by decide)
  | stowed => exact Edit.sheltered_set (st := .stowed) rfl (by decide) (by decide)

theorem HelioRun.LostOn.position {e : Edit} (h : e.r.LostOn) (f : Field) (p : Position) : (e.position env f p).r.Sheltered := by
  have hp : (e.positionByState env f p).r.Sheltered := by
    unfold Edit.positionByState
    rw [h.state]
    exact h.positionLost f p
  unfold Edit.position Edit.faultAtRest
  split
  · exact ⟨HState.noConfusion, HState.noConfusion, hp.queued⟩
  · exact hp

theorem HelioRun.Sheltered.failNow {e : Edit} (h : e.r.Sheltered) (c c' : Cause) : (e.failNow c c').r.Sheltered := by
  have h1 : (if e.r.holdsLoad then e.owe .defocus c c' else e).r.Sheltered := by
    split
    · exact h.owe _ _ _
    · exact h
  unfold Edit.failNow
  generalize (if e.r.holdsLoad then e.owe .defocus c c' else e) = e1 at h1 ⊢
  dsimp only
  split
  · exact h1
  · exact Edit.sheltered_set (st := .faulted) rfl (by decide) (by decide)

theorem HelioRun.Sheltered.statusConsequences {e : Edit} (h : e.r.Sheltered) (st : Status) :
    (e.statusConsequences st).r.Sheltered := by
  have h1 : (e.failBy st).r.Sheltered := by
    unfold Edit.failBy
    split
    · exact h.failNow _ _
    · split
      · exact h.failNow _ _
      · exact h
  unfold Edit.statusConsequences
  dsimp only
  split
  · exact h1.owe _ _ _
  · exact h1

/-- A status leaves an accounted LOST heliostat where no walk may take it (R76, R79). -/
theorem HelioRun.LostOn.status {e : Edit} (h : e.r.LostOn) (f : Field) (st : Status) : (e.status env f st).r.Sheltered :=
  ((h.statusFlags st).position f st.position).statusConsequences st

theorem Edit.sheltered_refuseOwed (fault : FaultCause) (b : Bool) (c : Cause) (e : Edit) : (e.refuseOwed fault b c).r.Sheltered := by
  unfold Edit.refuseOwed
  split
  · exact Edit.sheltered_set (st := .lost) rfl (by decide) (by decide)
  · exact Edit.sheltered_set (st := .faulted) rfl (by decide) (by decide)

theorem HelioRun.LostOn.rejectFault {e : Edit} (h : e.r.LostOn) (c : FaultCause) (b : Bool) : (e.rejectFault c b).r.LostOn := by
  unfold Edit.rejectFault
  refine Edit.lostOn_set ?_ ?_
  · exact h.state
  · exact h.unaccounted

theorem Edit.silenceUnqueued_lost {e : Edit} (hs : e.r.state = .lost) : e.silenceUnqueued env = e := by
  unfold Edit.silenceUnqueued
  rw [hs]

/-- So does every good answer. -/
theorem HelioRun.LostOn.answer {e : Edit} (h : e.r.LostOn) (f : Field) (g : Nat) (kind : ExKind) (a : Answer) :
    (e.answer env f g kind a).r.Sheltered := by
  have h0 : ({ e with r := { e.r with silentCount := 0 } } : Edit).r.LostOn := ⟨h.state, h.unaccounted, h.queued⟩
  unfold Edit.answer
  generalize ({ e with r := { e.r with silentCount := 0 } } : Edit) = e0 at h0 ⊢
  have hs : e0.r.state ≠ .slewing := h0.sheltered.slewing
  dsimp only
  split
  · rw [if_neg hs]
    exact h0.sheltered
  · have h1 := h0.status (env := env) f
    unfold Edit.busyMoveAim
    dsimp only
    rw [if_neg fun c => (h1 _).slewing c.1]
    exact h1 _
  · unfold Edit.rejectMoveAim
    rw [if_neg hs]
    split
    · exact h0.sheltered
    · exact (h0.rejectFault _ _).sheltered.failNow _ _
    · exact (h0.rejectFault _ _).sheltered.failNow _ _
  · exact Edit.sheltered_set (st := .returning) rfl (by decide) (by decide)
  · have h1 := h0.status (env := env) f
    unfold Edit.busyOwed
    dsimp only
    split
    · split
      · exact ⟨(h1 _).slewing, (h1 _).tracking, (h1 _).queued⟩
      · exact Edit.sheltered_refuseOwed _ _ _ _
    · exact h1 _
  · unfold Edit.rejectOwed
    split <;> exact Edit.sheltered_refuseOwed _ _ _ _
  · exact h0.status f _
  all_goals exact h0.sheltered

/-- So does silence, which has no consequence for a LOST heliostat (R57). -/
theorem HelioRun.LostOn.silent {e : Edit} (h : e.r.LostOn) : (e.silent env).r.Sheltered := by
  have h0 : ({ e with r := { e.r with silentCount := min 3 (e.r.silentCount + 1) } } : Edit).r.LostOn :=
    ⟨h.state, h.unaccounted, h.queued⟩
  unfold Edit.silent
  generalize ({ e with r := { e.r with silentCount := min 3 (e.r.silentCount + 1) } } : Edit) = e0 at h0 ⊢
  dsimp only
  split
  · unfold Edit.silence
    rw [if_neg fun c => h0.sheltered.slewing c.1]
    rw [Edit.silenceUnqueued_lost h0.state]
    exact h0.sheltered
  · exact h0.sheltered

/-! ### The result of an exchange written -/

theorem Work.steady_applyEdit (h : Nat) (e : Edit) (o : Origin) (w : Work) (hr : (w.fld.run h).Steady e.r) :
    Work.Steady env w (w.applyEdit env h e o) := by
  have hd : (if e.drop then w.dropEntry env h else w).fld.run h = w.fld.run h := by
    split
    · exact Work.run_dropEntry h w h
    · rfl
  unfold Work.applyEdit
  dsimp only
  refine .trans ?_ (Work.steady_onset _ _)
  exact ((((Work.Steady.ite _ (w.steady_dropEntry h)).trans (Work.steady_write h e.r _ (hd ▸ hr))).trans
    (.ite _ (Work.steady_toNewest _ _))).trans (.ite _ (Work.steady_enqueue _ _))).trans (Work.steady_followRevoked _ _ _)

theorem Work.steady_conclude (h : Nat) (e : Edit) (o : Origin) (w : Work) (hr : (w.fld.run h).Steady e.r) :
    Work.Steady env w (w.conclude env h e o) := by
  have h1 := (w.steady_applyEdit (env := env) h e o hr).trans (Work.steady_settleNow _)
  unfold Work.conclude
  dsimp only
  refine .trans ?_ (Work.steady_evalTrip _)
  split
  · exact h1.trans (Work.steady_report _ _)
  · exact h1

theorem Work.touched_conclude (hr : env.live.InRange) (h : Nat) (e : Edit) (o : Origin) {w : Work} (hg : w.fld.Good env)
    (hs : w.Settled env fun _ => False) (he : (w.fld.run h).Steady e.r) : (w.conclude env h e o).touched = [] := by
  have h1 := w.steady_applyEdit (env := env) h e o he
  have h2 := (Work.settled_settleNow hr (h1.reach.good hg) (h1.settled hr hg _ hs)).2
  unfold Work.conclude
  dsimp only
  rw [Work.touched_evalTrip]
  split
  · exact h2
  · exact h2

/-! ### Grants -/

/-- The record of a heliostat that is granted an aim (R34, R35). -/
def HelioRun.grantedBy (a : Nat) (o : Origin) (c : Cause) (r : HelioRun) : HelioRun :=
  r.by (some c)
    { r with
      granted := some a, leaving := if r.state = .tracking then r.granted else none, state := .slewing
      motionCause := some c, accepted := false, busyCount := 0, queued := true, origin := some o
      reAim := r.state == .tracking }

theorem Work.grant_eq (h a : Nat) (o : Origin) (c : Cause) (w : Work) : w.grant env h a o c =
    (((w.write env h ((w.fld.run h).grantedBy a o c)).toNewest h).enqueue env ⟨h, a, o⟩).report (.helio h) := rfl

/-- What the checks of R31 have found of a record that is granted aim `a`. -/
structure HelioRun.Grantable (a : Nat) (r : HelioRun) : Prop where
  state : r.state = .standby ∨ r.state = .stowed ∨ r.state = .tracking
  owed : r.owed = none
  other : ¬ (r.state = .tracking ∧ r.granted = some a)

theorem HelioRun.Grantable.sound {a : Nat} {r : HelioRun} (h : r.Grantable a) (hs : r.Sound) (o : Origin) (c : Cause) :
    (r.grantedBy a o c).Sound := by
  refine HelioRun.Sound.by _ ?_
  obtain ⟨h1, h2, h3, h4, h5, h6, h7, h8⟩ := hs
  obtain ⟨hst, ho, hn⟩ := h
  rcases hst with hst | hst | hst
  · simp_all [HelioRun.Sound, HelioRun.grantState]
  · simp_all [HelioRun.Sound, HelioRun.grantState]
  · simp_all [HelioRun.Sound, HelioRun.grantState]
    exact fun hc => hn hc.symm

theorem HelioRun.Grantable.steady {a : Nat} {r : HelioRun} (h : r.Grantable a) (o : Origin) (c : Cause) : r.Steady (r.grantedBy a o c) := by
  refine ⟨fun hs => h.sound hs o c, ?_, fun _ hl _ => ?_⟩
  · unfold HelioRun.grantedBy
    rw [HelioRun.by_reportOwed]
    exact id
  · exfalso
    rcases h.state with hs | hs | hs <;> rw [hs] at hl <;> cases hl

theorem Field.admitMotion_grantable {h a : Nat} {f : Field} (hg : f.admitMotion env h a = .granted) : (f.run h).Grantable a := by
  obtain ⟨h1, -, h2, -, h3⟩ := Field.admitMotion_granted hg
  exact ⟨h1, h2, h3⟩

theorem Work.steady_grant {h a : Nat} (o : Origin) (c : Cause) {w : Work} (hg : (w.fld.run h).Grantable a) :
    Work.Steady env w (w.grant env h a o c) := by
  rw [Work.grant_eq]
  exact (((w.steady_write h _ (hg.steady o c)).trans (Work.steady_toNewest _ _)).trans (Work.steady_enqueue _ _)).trans
    (Work.steady_report _ _)

/-! ### Program steps -/

/-- A change of anything but records, zones and what is to be tested. -/
theorem Work.Steady.program {w w' : Work} (hr : Field.Reach env.live w.fld w'.fld) (hq : w.fld.Quiet w'.fld)
    (hz : w'.fld.zone = w.fld.zone) (ht : w'.touched = w.touched) : Work.Steady env w w' := .aside hr (hq.sameLoads hz) ht

theorem Field.zone_activate (k : Nat) (f : Field) : (f.activate k).zone = f.zone := rfl

theorem Field.zone_chooseProgram (f : Field) : f.chooseProgram.zone = f.zone := by
  unfold Field.chooseProgram
  split
  · split <;> rfl
  all_goals rfl

theorem Field.zone_heldPreemption (a : Nat) (f : Field) : (f.heldPreemption a).zone = f.zone := by
  unfold Field.heldPreemption
  split <;> rfl

theorem Work.zone_endRun (k : Nat) (c : EndCause) (w : Work) : (w.endRun k c).fld.zone = w.fld.zone := by
  unfold Work.endRun
  dsimp only
  split
  · exact (Field.zone_chooseProgram _).trans (Work.report_zone _ _)
  · exact Work.report_zone _ _

theorem Work.touched_endRun (k : Nat) (c : EndCause) (w : Work) : (w.endRun k c).touched = w.touched := by
  unfold Work.endRun
  dsimp only
  split <;> rfl

theorem Work.steady_endRun (k : Nat) (c : EndCause) (w : Work) : Work.Steady env w (w.endRun k c) :=
  .program (w.reach_endRun k c) (w.quiet_endRun k c) (w.zone_endRun k c) (w.touched_endRun k c)

theorem Work.zone_completeStep (k : Nat) (a : After) (w : Work) : (w.completeStep k a).fld.zone = w.fld.zone := by
  unfold Work.completeStep
  dsimp only
  split
  · exact Work.zone_endRun _ _ _
  · split
    · exact Work.zone_endRun _ _ _
    · split
      · exact Work.zone_endRun _ _ _
      · split
        · exact Field.zone_heldPreemption _ _
        · rfl

theorem Work.touched_completeStep (k : Nat) (a : After) (w : Work) : (w.completeStep k a).touched = w.touched := by
  unfold Work.completeStep
  dsimp only
  split
  · exact Work.touched_endRun _ _ _
  · split
    · exact Work.touched_endRun _ _ _
    · split
      · exact Work.touched_endRun _ _ _
      · rfl

theorem Work.steady_completeStep (k : Nat) (a : After) (w : Work) : Work.Steady env w (w.completeStep k a) :=
  .program (w.reach_completeStep k a) (w.quiet_completeStep k a) (w.zone_completeStep k a) (w.touched_completeStep k a)

theorem Work.steady_setSlot (k : Nat) (v : Slot) (w : Work) : Work.Steady env w { w with fld := w.fld.setSlot k v } :=
  .program (w.fld.reach_setSlot k v) (w.fld.quiet_setSlot k v) rfl rfl

theorem Work.steady_waitFor (k : Nat) (on : WaitOn) (w : Work) : Work.Steady env w (w.waitFor k on) := w.steady_setSlot k _

theorem Work.steady_settleWith (k h a : Nat) (w : Work) : Work.Steady env w (w.settleWith k h a) := w.steady_setSlot k _

theorem Work.steady_refuseMember (k h : Nat) (reason : Reason) (b c : Bool) (w : Work) :
    Work.Steady env w (w.refuseMember k h reason b c) := w.steady_setSlot k _

theorem Work.steady_freshStep (k : Nat) (b : Bool) (w : Work) : Work.Steady env w (w.freshStep k b) := w.steady_setSlot k _

theorem Work.steady_takeMember {k h a : Nat} {w w1 : Work} {b : Bool} (ht : w.takeMember env k h a = .taken w1 b) :
    Work.Steady env w w1 := by
  unfold Work.takeMember at ht
  split at ht
  · cases ht
    exact w.steady_settleWith k h a
  · split at ht
    · cases ht
      exact w.steady_settleWith k h a
    · next hg =>
      cases ht
      unfold Field.admitMember at hg
      split at hg
      · exact (Work.steady_grant _ _ (Field.admitMotion_grantable hg)).trans (Work.steady_settleWith k h a _)
      · cases hg
    · cases ht
      exact w.steady_refuseMember k h _ _ _
    · cases ht
      exact w.steady_refuseMember k h _ _ _
    · cases ht
    · cases ht
      exact w.steady_refuseMember k h _ _ _

theorem Work.steady_takeMembers (k first spread : Nat) (l : List Nat) (j : Nat) (short : Bool) (w : Work) :
    Work.Steady env w (w.takeMembers env k first spread j l short).1 := by
  induction l generalizing j short w with
  | nil => exact .refl w
  | cons h l ih =>
    unfold Work.takeMembers
    split
    · exact .refl w
    · next w1 b ht => exact (Work.steady_takeMember ht).trans (ih _ _ w1)

theorem Field.zone_clearFreed (f : Field) : f.clearFreed.zone = f.zone := by
  unfold Field.clearFreed
  generalize List.range Config.segments = l
  induction l generalizing f with
  | nil => rfl
  | cons g l ih => exact (ih _).trans rfl

theorem Work.steady_aimGroupFrom (k first spread : Nat) (flags : AimFlags) (j : Nat) (members : List Nat) (short : Bool) (w : Work) :
    Work.Steady env w (w.aimGroupFrom env k first spread flags j members short) := by
  have h := w.steady_takeMembers (env := env) k first spread members j short
  unfold Work.aimGroupFrom
  split
  · next w1 j1 rest short1 he =>
    rw [he] at h
    refine .trans (h.trans (w1 := w1) ?_) (Work.steady_waitFor k _ _)
    exact .program w1.fld.reach_clearFreed w1.fld.quiet_clearFreed w1.fld.zone_clearFreed rfl
  · next w1 short1 he =>
    rw [he] at h
    split
    · exact h.trans (w1.steady_completeStep k _)
    · split
      · exact h.trans (w1.steady_waitFor k _)
      · exact h.trans (w1.steady_completeStep k _)

theorem Work.steady_beginAimGroup (k group first spread : Nat) (expected : Option Nat) (flags : AimFlags) (w : Work) :
    Work.Steady env w (w.beginAimGroup env k group first spread expected flags) := by
  unfold Work.beginAimGroup
  dsimp only
  split
  · exact (w.steady_freshStep k _).trans (Work.steady_completeStep k _ _)
  · exact (w.steady_freshStep k _).trans (Work.steady_aimGroupFrom k first spread flags 0 _ false _)

theorem Work.steady_moveGroup (k group : Nat) (settle : Bool) (m : Motion) (w : Work) :
    Work.Steady env w (w.moveGroup env k group settle m) := by
  have h := (w.steady_oweMembers (env := env) m .program (env.live.members group)).trans (Work.steady_settleNow _)
  unfold Work.moveGroup
  dsimp only
  split
  · exact h.trans (Work.steady_waitFor k _ _)
  · exact h.trans (Work.steady_completeStep k _ _)

/-! ### Records without load -/

/-- A LOST record with load is no record of the states named, so what is made of those needs no more. -/
theorem HelioRun.Steady.of_not_lost {old new : HelioRun} (hs : old.Sound → new.Sound) (ho : new.reportOwed → old.reportOwed)
    (hl : old.state ≠ .lost) : old.Steady new := ⟨hs, ho, fun _ h => absurd h hl⟩

theorem HelioRun.Sound.clearedFault {r : HelioRun} (h : r.Sound) (hs : r.state = .faulted) :
    ({ r with state := .unsure, fault := none, silentCount := 0, busyCount := 0 } : HelioRun).Sound := by
  have hn := h.no_aims (show r.grantState = false by simp [HelioRun.grantState, hs])
  obtain ⟨h1, h2, h3, h4, h5, h6, h7, h8⟩ := h
  simp_all [HelioRun.Sound, HelioRun.grantState]

theorem HelioRun.Sound.givenUp {r : HelioRun} (h : r.Sound) (hs : r.state = .unsure) :
    ({ r.clearOwed with state := .lost, unaccounted := true } : HelioRun).Sound := by
  have hn := h.no_aims (show r.grantState = false by simp [HelioRun.grantState, hs])
  obtain ⟨h1, h2, h3, h4, h5, h6, h7, h8⟩ := h
  simp_all [HelioRun.Sound, HelioRun.grantState, HelioRun.clearOwed]

theorem Work.steady_clearFault (h : Nat) (w : Work) : Work.Steady env w (w.clearFault env h) := by
  unfold Work.clearFault
  dsimp only
  split
  · next hs =>
    refine w.steady_put h _ (.of_not_lost (fun hr => HelioRun.Sound.by _ (hr.clearedFault hs)) ?_ (by rw [hs]; decide))
    · rw [HelioRun.by_reportOwed]
      exact id
  · exact .refl w

theorem Work.steady_giveUp (h : Nat) (w : Work) : Work.Steady env w (w.giveUp env h) := by
  unfold Work.giveUp
  dsimp only
  split
  · next hs =>
    refine w.steady_put h _ (.of_not_lost (fun hr => HelioRun.Sound.by _ (hr.givenUp hs)) ?_ (by rw [hs]; decide))
    · rw [HelioRun.by_reportOwed]
      exact id
  · exact .refl w

end Sys2Proof.Machine
end

section
/-! PROOFS for flux admission: every command that makes no reset and writes no table leaves every zone settled and every budget exact. -/

namespace Sys2Proof.Machine

/-! ### States -/

theorem Field.ZoneSettled.congr {env env' : Env} (he : env'.live = env.live) {f : Field} {z : Nat} (h : f.ZoneSettled env z) :
    f.ZoneSettled env' z := by
  refine ⟨h.isOver, h.unsheddable, fun hx j hc => h.spent hx j ?_⟩
  unfold Env.covers Env.aimCovers Env.footprint at hc ⊢
  rw [← he]
  exact hc

/-- The settled zones of a state, said of every heliostat: one that is not on the Grant List covers no zone (R36). -/
theorem State.zonesSettled_iff {s : State} (hg : s.field.Good s.env) : s.ZonesSettled ↔ ∀ z, s.field.ZoneSettled s.env z := by
  constructor
  · refine fun h z => ⟨h.isOver z, h.unsheddable z, fun hx j hc => ?_⟩
    by_contra hn
    have he : s.field.Exposed s.env z j := ⟨hc, eq_false_of_ne_true hn⟩
    have hm : j ∈ s.field.grants := (hg.grants.2 j).2 ((hg.records j).holdsLoad_eq ▸ Env.covers_holdsLoad hc)
    rw [← Work.of_fld s.field, ← Work.candidate_iff, h.spent z j hx hm] at he
    cases he
  · refine fun h => ⟨fun z => (h z).isOver, fun z => (h z).unsheddable, fun z j hx _ => ?_⟩
    by_contra hn
    have he := Work.candidate_iff.1 (eq_true_of_ne_false hn)
    have hs := (h z).spent hx j he.1
    rw [show (s.field.run j).secured = false from he.2] at hs
    cases hs

/-- What every command but the resets and TABLE WRITE does to the zones: the live tables stand, the stored records stay in range,
settled zones stay settled and exact budgets exact. -/
structure State.Steady (s t : State) : Prop where
  live : t.live = s.live
  store : s.live.InRange → s.store.tables.InRange → t.store.tables.InRange
  field : Field.Reach s.live s.field t.field
  settled : s.live.InRange → s.field.Good s.env → (∀ z, s.field.ZoneSettled s.env z) → ∀ z, t.field.ZoneSettled t.env z
  budgets : s.BudgetsExact → t.BudgetsExact

theorem State.Steady.refl (s : State) : s.Steady s := ⟨rfl, fun _ => id, Relation.ReflTransGen.refl, fun _ _ => id, id⟩

theorem State.Steady.trans {s t u : State} (h1 : s.Steady t) (h2 : t.Steady u) : s.Steady u :=
  ⟨h2.live.trans h1.live, fun hl hs => h2.store (h1.live ▸ hl) (h1.store hl hs), h1.field.trans (h1.live ▸ h2.field),
    fun hr hg hs => h2.settled (h1.live ▸ hr) (Field.Good.congr (env := s.env) h1.live (h1.field.good (env := s.env) hg))
      (h1.settled hr hg hs),
    fun hb => h2.budgets (h1.budgets hb)⟩

/-- A change that the FAU's tests do not read. -/
theorem State.Steady.aside {s t : State} (hl : t.live = s.live) (hw : t.watchOn = s.watchOn) (hr : Field.Reach s.live s.field t.field)
    (h : s.field.SameLoads t.field) (hst : t.store = s.store := by rfl) : s.Steady t := by
  refine ⟨hl, fun _ => hst ▸ id, hr, fun _ _ hs z => ((hs z).sameLoads h).congr hl, fun hb z hz => ?_⟩
  have := Field.BudgetExact.sameLoads (env := s.env) h (hb z hz)
  rw [hl, hw]
  exact this

/-- A change outside the field, the live tables and the watch. -/
theorem State.Steady.frame {s t : State} (hl : t.live = s.live) (hw : t.watchOn = s.watchOn) (hf : t.field = s.field)
    (hst : t.store = s.store := by rfl) : s.Steady t :=
  .aside hl hw (hf ▸ Relation.ReflTransGen.refl) (hf ▸ .refl _) hst

/-- A change of anything but records, zones and SXEs, beside the field's own. -/
theorem State.Steady.quiet {s t : State} (hl : t.live = s.live) (hw : t.watchOn = s.watchOn) (hr : Field.Reach s.live s.field t.field)
    (hq : s.field.Quiet t.field) (hz : t.field.zone = s.field.zone) (hst : t.store = s.store := by rfl) : s.Steady t :=
  .aside hl hw hr (hq.sameLoads hz) hst

theorem Work.settled_of {env : Env} {f : Field} (h : ∀ z, f.ZoneSettled env z) (X : Nat → Prop) : (Work.of f).Settled env X :=
  fun z _ _ => h z

/-- One change of the field, ended by the FAU's tests. -/
theorem State.steady_change (s : State) {g : Work → Work} (hg : Work.Steady s.env (Work.of s.field) (g (Work.of s.field))) :
    s.Steady (s.change g) := by
  refine ⟨rfl, fun _ => id, hg.reach.trans (Work.reach_finish (env := s.env) _), fun hr hgood hs z => ?_, fun hb z hz => ?_⟩
  · exact (Work.settled_finish hr (hg.reach.good hgood) (hg.settled hr hgood _ (Work.settled_of hs _)) z).congr rfl
  · exact Work.budget_finish hz (hg.budgets z hz (hb z hz))

/-- A change that recomputes every budget, whatever has happened to the watch and the conditions before it (R29, R95 to R97). -/
theorem State.steady_recomputed {s s1 : State} (hl : s1.live = s.live) (hf : s1.field = s.field) {g : Work → Work}
    (hr : Field.Reach s1.live s1.field (g (Work.of s1.field)).fld)
    (hs : ∀ X, s1.live.InRange → s1.field.Good s1.env → (Work.of s1.field).Settled s1.env X → (g (Work.of s1.field)).Settled s1.env X)
    (hb : ∀ z, z < Config.zones → (g (Work.of s1.field)).fld.BudgetExact s1.env z) (hst : s1.store = s.store := by rfl) :
    s.Steady (s1.change g) := by
  refine ⟨hl, fun _ => hst ▸ id, ?_, fun hir hgood hset z => ?_, fun _ z hz => Work.budget_finish hz (hb z hz)⟩
  · rw [← hl, ← hf]
    exact hr.trans (Work.reach_finish (env := s1.env) _)
  · have hg1 : s1.field.Good s1.env := hf ▸ Field.Good.congr (env := s.env) hl hgood
    have hir1 : s1.live.InRange := hl ▸ hir
    have hset1 : ∀ z, s1.field.ZoneSettled s1.env z := fun z => hf ▸ (hset z).congr hl
    exact (Work.settled_finish (env := s1.env) hir1 (Field.Reach.good (env := s1.env) hr hg1)
      (hs _ hir1 hg1 (Work.settled_of hset1 _)) z).congr rfl

theorem State.steady_kick (s : State) : s.Steady s.kick := .aside rfl rfl (State.reach_kick s) (State.choiceOnly_kick s).sameLoads

theorem State.steady_changeKick (s : State) {g : Work → Work} (hg : ∀ w, Work.Steady s.env w (g w)) : s.Steady (s.change g).kick :=
  (s.steady_change (hg _)).trans (State.steady_kick _)

theorem State.steady_stateEvent (s : State) : s.Steady s.stateEvent :=
  .aside rfl rfl (Field.Prim.report _).reach (Field.sameLoads_queueReport _ _)

theorem State.steady_advanceTo (s : State) (n : Nat) : s.Steady (s.advanceTo n) := .frame rfl rfl rfl

theorem State.steady_osc (s : State) (o : Osc) : s.Steady { s with osc := o } := .frame rfl rfl rfl

theorem State.steady_ulp (s : State) (u : Ulp) : s.Steady { s with ulp := u } := .frame rfl rfl rfl

theorem Work.zone_endAll (c : EndCause) (w : Work) : (w.endAll c).1.fld.zone = w.fld.zone := by
  unfold Work.endAll
  suffices h : ∀ (l : List Nat) (p : Work × Nat), (l.foldl (fun (p : Work × Nat) k =>
      if (p.1.fld.slotAt k).state.nonIdle then (p.1.endSlot k c, p.2 + 1) else p) p).1.fld.zone = p.1.fld.zone from h _ _
  intro l
  induction l with
  | nil => exact fun p => rfl
  | cons k l ih =>
    intro p
    refine (ih _).trans ?_
    dsimp only
    split
    · exact Work.report_zone _ _
    · rfl

theorem State.zone_enterHold (c : StateCause) (s : State) : (State.enterHold c s).field.zone = s.field.zone := by
  unfold State.enterHold State.stateEvent
  dsimp only
  rw [Field.queueReport_zone]
  exact Work.zone_endAll .hold (Work.of s.field)

theorem State.steady_enterHold (c : StateCause) (s : State) : s.Steady (State.enterHold c s) :=
  .quiet (State.enterHold_live c s) (State.enterHold_watchOn c s) (State.steps_enterHold c s).field (State.quiet_enterHold c s)
    (State.zone_enterHold c s)

theorem State.steady_safeOnset (takes : Bool) (s : State) : s.Steady (s.safeOnset takes) := by
  refine (s.steady_change (g := fun w => if s.osc.onset takes = s.osc then w.safeActions s.env else (w.safeActions s.env).report .opState)
    ?_).trans (State.steady_osc _ _)
  split
  · exact Work.steady_safeActions _
  · exact (Work.steady_safeActions _).trans (Work.steady_report _ _)

theorem State.steady_popFrame (s : State) : s.Steady s.popFrame := .frame rfl rfl rfl

theorem State.steady_answer (tag kind : Byte) (r : Reply) (s : State) : s.Steady (s.answer tag kind r) := .frame rfl rfl rfl

/-- What an order does is what its owner's rule does. -/
theorem State.steady_order (s : State) (i : Instr) (tag kind : Byte) (run : State → Reply × State)
    (h : ∀ s : State, s.Steady (run s).2) : s.Steady (s.order i tag kind run) := by
  unfold State.order
  split
  · exact (s.steady_popFrame.trans (h _)).trans (State.steady_answer _ _ _ _)
  · exact .refl s

theorem State.steady_foldl {β : Type} (op : State → β → State) (h : ∀ s b, State.Steady s (op s b)) (l : List β) (s : State) :
    s.Steady (l.foldl op s) := by
  induction l generalizing s with
  | nil => exact .refl s
  | cons b l ih => exact (h s b).trans (ih _)

/-! ### Heliostats and zones -/

theorem State.steady_aimOrder (tag : Byte) (helio : Half) (point : Byte) (s : State) : s.Steady (s.aimOrder tag helio point).2 := by
  unfold State.aimOrder
  dsimp only
  split
  · next h =>
    refine (s.steady_change (g := fun w => w.grant s.env helio.toNat point.toNat (.order tag) .order) ?_).trans (State.steady_kick _)
    unfold Field.judgeAim at h
    split at h
    · cases h
    · split at h
      · cases h
      · exact Work.steady_grant _ _ (Field.admitMotion_grantable h)
  · exact .refl s

theorem State.steady_motionOrder (m : Motion) (scope : Byte) (index : Half) (s : State) : s.Steady (s.motionOrder m scope index).2 := by
  have h : ∀ hs, s.Steady (s.change (fun w => (w.oweMembers s.env m .order hs).1)).kick := fun hs =>
    s.steady_changeKick fun w => w.steady_oweMembers m .order hs
  unfold State.motionOrder
  dsimp only
  split
  · exact .refl s
  · split
    · exact .refl s
    · exact h _
  · exact h _

theorem State.steady_clearFaultOrder (scope : Byte) (index : Half) (s : State) : s.Steady (s.clearFaultOrder scope index).2 := by
  have h : ∀ hs : List Nat, s.Steady (s.change (fun w => hs.foldl (fun (w : Work) h => w.clearFault s.env h) w)).kick := fun hs =>
    s.steady_changeKick fun w => .foldl _ (fun w h => w.steady_clearFault h) _ _
  unfold State.clearFaultOrder
  dsimp only
  split
  · exact .refl s
  · split
    · exact h _
    · exact .refl s
  · exact h _

theorem State.steady_flagsOrder (group mask : Byte) (effect : HelioRun → HelioRun) (hl : ∀ r : HelioRun, r.Like (effect r))
    (he : ∀ r : HelioRun, r.Alike (effect r)) (s : State) : s.Steady (s.flagsOrder group mask effect).2 := by
  unfold State.flagsOrder
  split
  · exact .refl s
  · refine .quiet rfl rfl (Field.Reach.foldl _ (fun f h => (Field.Prim.minor h _ (hl _)).reach) _ _) (Field.quiet_flags _ he _) ?_
    dsimp only
    generalize s.live.members group.toNat = l
    generalize s.field = f
    induction l generalizing f with
    | nil => rfl
    | cons h l ih => exact (ih _).trans rfl

theorem State.steady_readHeliostatOrder (helio : Half) (s : State) : s.Steady (s.readHeliostatOrder helio).2 := by
  unfold State.readHeliostatOrder
  dsimp only
  split <;> exact .refl s

theorem Field.sameLoads_setSxe (f : Field) (g : Nat) (x : Sxe) : f.SameLoads (f.setSxe g x) := .of_eq rfl rfl

theorem Field.sameLoads_inFlight (f : Field) (h : Nat) (b : Bool) : f.SameLoads (f.setRun h { f.run h with inFlight := b }) :=
  f.sameLoads_setRun h rfl rfl

theorem State.steady_holdPass (tag : Byte) (h : Nat) (body : List Byte) (s : State) : s.Steady (s.holdPass tag h body) :=
  .aside rfl rfl (State.steps_holdPass tag h body s).field
    ((s.field.sameLoads_setSxe _ _).trans (Field.sameLoads_inFlight _ h true))

theorem State.steady_setCeilingOrder (first last : Byte) (value : Tri) (s : State) :
    s.Steady (s.setCeilingOrder first last value).2 := by
  unfold State.setCeilingOrder
  split
  · exact .refl s
  · split
    · exact s.steady_changeKick fun w => w.steady_setCeilings _ _ _
    · exact .refl s

theorem State.steady_readZoneOrder (zone : Byte) (s : State) : s.Steady (s.readZoneOrder zone).2 := by
  unfold State.readZoneOrder
  dsimp only
  split <;> exact .refl s

/-! ### The Receiver Watch -/

theorem State.steady_rejudge (z : Nat) {v : ZoneRun} (s : State) (hv : (s.field.zoneAt z).Conditioned v) :
    s.Steady (s.change (fun w => w.rejudge s.env z v)).kick :=
  (s.steady_change (Work.steady_rejudge z (Work.of s.field) hv)).trans (State.steady_kick _)

theorem State.steady_takeReading (z t : Nat) (fault : Bool) (s : State) : s.Steady (s.takeReading z t fault) := by
  unfold State.takeReading
  split
  · split
    · split
      · exact .refl s
      · exact s.steady_rejudge z (ZoneRun.conditioned_goStale _)
    · exact s.steady_rejudge z (ZoneRun.conditioned_goodReading _ _ _)
  · exact .refl s

theorem State.steady_sensorRx (s : State) (x : Option (List Byte)) : s.Steady { s with sensorRx := x } := .frame rfl rfl rfl

theorem State.steady_sensorByte (s : State) (b : Byte) : s.Steady (s.sensorByte b) := by
  unfold State.sensorByte
  split
  · split
    · exact s.steady_sensorRx _
    · exact .refl s
  · split
    · exact s.steady_sensorRx _
    · dsimp only
      split
      · exact (s.steady_sensorRx _).trans (State.steady_takeReading _ _ _ _)
      · exact s.steady_sensorRx _

/-- Every budget worked out again, after a change of the watch (R95). -/
theorem State.steady_rebudgetAll {s s1 : State} (hl : s1.live = s.live) (hf : s1.field = s.field) (hst : s1.store = s.store) :
    s.Steady (s1.change (fun w => w.rebudgetAll s1.env (List.range Config.zones))) :=
  State.steady_recomputed hl hf (Work.reach_rebudgetAll _ (Work.of s1.field))
    (fun X hr hg hs => (Work.steady_rebudgetAll _ (Work.of s1.field)).settled hr hg X hs)
    (fun _ hz => Work.budget_rebudgetAll _ _ hz fun hn => absurd (List.mem_range.2 hz) hn) hst

theorem State.steady_turnWatchOn (s : State) : s.Steady s.turnWatchOn.2 := by
  unfold State.turnWatchOn
  split
  · exact .refl s
  · exact State.steady_rebudgetAll (s := s) (s1 := { s with watchOn := true }) rfl rfl rfl

/-- Every zone going STALE, after a change of the watch or of the operating state (R95, R97). -/
theorem State.steady_staleAll {s s1 : State} (hl : s1.live = s.live) (hf : s1.field = s.field) (hst : s1.store = s.store) :
    s.Steady (s1.change (fun w => w.staleAll s1.env)) :=
  State.steady_recomputed hl hf (Work.reach_staleAll (env := s1.env) (Work.of s1.field)) (fun _ hr hg hs => Work.settled_staleAll hr hg hs)
    (fun _ hz => Work.budget_staleAll _ hz) hst

theorem State.steady_turnWatchOff (s : State) : s.Steady s.turnWatchOff.2 := by
  unfold State.turnWatchOff
  split
  · exact .refl s
  · split
    · exact .refl s
    · exact (State.steady_staleAll (s := s) (s1 := { s with watchOn := false }) rfl rfl rfl).trans (State.steady_kick _)

theorem Field.zone_clearTrip (f : Field) : f.clearTrip.zone = f.zone := by
  unfold Field.clearTrip
  dsimp only
  split
  · rfl
  · exact Field.queueReport_zone _ _

theorem State.steady_clearTripOrder (s : State) : s.Steady s.clearTripOrder.2 := by
  have hr := (State.steps_clearTripOrder s).field
  unfold State.clearTripOrder at hr ⊢
  dsimp only at hr ⊢
  split at hr
  · next hm =>
    rw [if_pos hm]
    exact .quiet rfl rfl hr (Field.quiet_clearTrip _) (Field.zone_clearTrip _)
  · next hm =>
    rw [if_neg hm]
    exact .refl s

/-! ### The Program Engine -/

theorem State.steady_haltProgramOrder (slot : Byte) (s : State) : s.Steady (s.haltProgramOrder slot).2 := by
  unfold State.haltProgramOrder
  dsimp only
  split
  · exact .refl s
  · refine s.steady_changeKick fun w => ?_
    have h := (w.steady_withdrawAll (env := s.env) .revoked (fun e => e.origin == .program slot.toNat)).trans
      (Work.steady_settleNow _)
    split
    · exact h.trans (Work.steady_endRun _ _ _)
    · exact h

theorem State.steady_loadProgramOrder (slot count : Byte) (records : List Byte) (s : State) :
    s.Steady (s.loadProgramOrder slot count records).2 := by
  unfold State.loadProgramOrder
  dsimp only
  split
  · exact .refl s
  · split
    all_goals
      first
      | exact .refl s
      | split
        · exact .refl s
        · split
          · exact .refl s
          · split
            · exact .refl s
            · exact .quiet rfl rfl (Field.reach_setSlot _ _ _) (Field.quiet_setSlot _ _ _) rfl

theorem Field.zone_start (k level : Nat) (tag : Byte) (f : Field) : (f.start k level tag).1.zone = f.zone := by
  unfold Field.start
  dsimp only
  split
  · rfl
  · split
    · split <;> rfl
    · rfl

theorem State.steady_startProgramOrder (tag slot level : Byte) (s : State) : s.Steady (s.startProgramOrder tag slot level).2 := by
  unfold State.startProgramOrder
  dsimp only
  split
  · exact .refl s
  · split
    · exact .refl s
    · split
      all_goals
        first
        | exact .refl s
        | exact .quiet rfl rfl (Field.reach_start _ _ _ _) (Field.quiet_start _ _ _ _) (Field.zone_start _ _ _ _)

theorem State.steady_readProgramStatusOrder (slot : Byte) (s : State) : s.Steady (s.readProgramStatusOrder slot).2 := by
  unfold State.readProgramStatusOrder
  dsimp only
  split
  · exact .refl s
  · dsimp only
    split
    · exact .quiet rfl rfl (Field.reach_setSlot _ _ _) (Field.quiet_setSlot _ _ _) rfl
    · exact .refl s

/-! ### The Operating State Controller -/

theorem State.steady_enterState (t : OpState) (s : State) : s.Steady (s.enterState t) := by
  unfold State.enterState
  split
  · split
    · exact (s.steady_osc _).trans (State.steady_stateEvent _)
    · exact State.steady_enterHold _ s
  · split
    · exact (s.steady_osc _).trans (State.steady_stateEvent _)
    · exact (s.steady_osc _).trans (State.steady_stateEvent _)
  · exact (State.steady_staleAll (s := s) (s1 := { s with osc := { s.osc with opState := .night, cause := .order } }) rfl rfl rfl).trans
      (State.steady_stateEvent _)
  · exact .refl s
  · exact .refl s

theorem State.steady_setStateOrder (target : Byte) (s : State) : s.Steady (s.setStateOrder target).2 := by
  unfold State.setStateOrder
  split
  · exact .refl s
  · split
    · exact .refl s
    · split
      · exact .refl s
      · split
        · exact .refl s
        · split
          · exact .refl s
          · split
            · exact .refl s
            · exact (State.steady_enterState _ s).trans (State.steady_kick _)

theorem State.steady_completeWake (k : Wake) (s : State) : s.Steady (s.completeWake k) := by
  unfold State.completeWake
  split
  · exact State.steady_enterHold _ _
  · exact (State.steady_osc _ _).trans (State.steady_stateEvent _)

/-! ### The Table Store -/

theorem State.steady_tableReadOrder (table : Byte) (first : Half) (count : Byte) (s : State) :
    s.Steady (s.tableReadOrder table first count).2 := by
  unfold State.tableReadOrder
  split
  · exact .refl s
  · split <;> exact .refl s

theorem State.steady_protectOrder (block : Byte) (s : State) : s.Steady (s.protectOrder block).2 := by
  unfold State.protectOrder
  split
  · exact .refl s
  · split
    · exact .refl s
    · split
      · exact .refl s
      · exact .frame rfl rfl rfl

theorem State.steady_unprotectAllOrder (s : State) : s.Steady s.unprotectAllOrder.2 := by
  unfold State.unprotectAllOrder
  split
  · exact .refl s
  · split
    · exact .refl s
    · exact .frame rfl rfl rfl

/-! ### The ends of exchanges -/

theorem State.steady_surveyStep (h : Nat) (before : HelioRun) (found : Option Finding) (s : State) :
    s.Steady (s.surveyStep h before found) := by
  unfold State.surveyStep
  dsimp only
  split
  · split
    · exact State.steady_osc s _
    · exact (State.steady_osc s _).trans (State.steady_enterHold _ _)
  · exact .refl s

theorem State.steady_choose (poll : Bool) (g : Nat) (s : State) : s.Steady { s with field := s.field.choose s.env poll g } :=
  .aside rfl rfl (Field.reach_choose poll _ g) (Field.choiceOnly_choose _ _ _ _).sameLoads

/-- What an exchange's outcome must keep of the record it is worked out on. -/
structure EditKeeps (edit : Env → Field → Edit → Edit) : Prop where
  sound : ∀ env f e, e.r.Sound → (edit env f e).r.Sound
  kept : ∀ env f e, (edit env f e).r.kept = e.r.kept
  lost : ∀ env f e, e.r.LostOn → (edit env f e).r.Sheltered

theorem EditKeeps.steady {edit : Env → Field → Edit → Edit} (h : EditKeeps edit) (env : Env) (f : Field) (r : HelioRun) (now : Nat) :
    r.Steady (edit env f (Edit.of { r with inFlight := false, lastExchange := some now })).r := by
  have hs : r.Sound → (Edit.of { r with inFlight := false, lastExchange := some now }).r.Sound := fun hr =>
    hr.other rfl rfl rfl rfl rfl rfl rfl rfl rfl rfl
  refine ⟨fun hr => h.sound _ _ _ (hs hr), ?_, fun hr hl hload => ?_⟩
  · rw [show ∀ r : HelioRun, r.reportOwed = r.kept.1 from fun _ => rfl, h.kept]
    exact id
  · obtain ⟨h1, h2, h3⟩ := hr.lostOn hl hload
    exact (h.lost env f _ ⟨h1, h2, h3⟩).secured (h.sound _ _ _ (hs hr))

theorem editKeeps_answer (g : Nat) (k : ExKind) (a : Answer) : EditKeeps (fun env f e => e.answer env f g k a) :=
  ⟨fun _ _ _ h => Edit.sound_answer h, fun _ _ _ => Edit.kept_answer _ _ _ _ _ _, fun _ f _ h => h.answer f g k a⟩

theorem editKeeps_silent : EditKeeps (fun env _ e => e.silent env) :=
  ⟨fun _ _ _ h => Edit.sound_silent h, fun _ _ _ => Edit.kept_silent _ _, fun _ _ _ h => h.silent⟩

/-- The outcome of an exchange written in the place of the field (R56). -/
theorem State.steady_conclude {s s1 : State} {f0 : Field} (hf : s.field.SameLoads f0) (hr : Field.Reach s.live s.field f0) {h : Nat}
    {e : Edit} {o : Origin} (he : (f0.run h).Steady e.r)
    (h1 : s1 = { s with field := ((Work.of f0).conclude s.env h e o).fld }) : s.Steady s1 := by
  subst h1
  have hc := Work.steady_conclude (env := s.env) h e o (Work.of f0) he
  refine ⟨rfl, fun _ => id, hr.trans hc.reach, fun hir hg hs z => ?_, fun hb z hz => hc.budgets z hz (Field.BudgetExact.sameLoads hf (hb z hz))⟩
  have hg0 : f0.Good s.env := hr.good (env := s.env) hg
  have hs0 : (Work.of f0).Settled s.env fun _ => False := Work.settled_of (fun z => (hs z).sameLoads hf) _
  refine (hc.settled hir hg0 _ hs0 z id ?_).congr rfl
  rw [Work.touched_conclude hir h e o hg0 hs0 he]
  exact List.not_mem_nil

theorem State.steady_endExchange (g : Nat) (x : Exchange) (found : Option Finding) {edit : Env → Field → Edit → Edit} (s : State)
    (h : EditKeeps edit) : s.Steady (s.endExchange g x found edit) := by
  let f0 := s.field.setSxe g ((s.field.sxeAt g).ended s.now)
  let e := edit s.env f0 (Edit.of { f0.run x.helio with inFlight := false, lastExchange := some s.now })
  have h1 : s.Steady { s with field := ((Work.of f0).conclude s.env x.helio e x.kind.origin).fld } :=
    State.steady_conclude (s.field.sameLoads_setSxe _ _) (Field.reach_ended g s.now s.field) (h.steady _ _ _ _) rfl
  exact ((h1.trans (State.steady_surveyStep _ _ _ _)).trans (State.steady_choose true g _)).trans (State.steady_kick _)

theorem State.endPass_field (g : Nat) (x : Exchange) (reply : Option SegFrame) (s : State) : ∃ u, s.endPass g x reply =
    State.kick { s with
      field := ((s.field.setSxe g { (s.field.sxeAt g).ended s.now with passSlot := none }).setRun x.helio
        { (s.field.setSxe g { (s.field.sxeAt g).ended s.now with passSlot := none }).run x.helio with inFlight := false }).choose
          s.env true g
      ulp := u } := ⟨_, rfl⟩

theorem State.steady_endPass (g : Nat) (x : Exchange) (reply : Option SegFrame) (s : State) : s.Steady (s.endPass g x reply) := by
  obtain ⟨u, hu⟩ := State.endPass_field g x reply s
  rw [hu]
  refine .trans (State.Steady.aside (by rfl) (by rfl) ?_ ?_) (State.steady_kick _)
  · refine Relation.ReflTransGen.trans (Relation.ReflTransGen.trans
      (Field.Prim.sxe g { (s.field.sxeAt g).ended s.now with passSlot := none } (Or.inl (le_refl _))).reach
      (Field.Prim.minor x.helio { (s.field.setSxe g { (s.field.sxeAt g).ended s.now with passSlot := none }).run x.helio with
        inFlight := false } ?_).reach) (Field.reach_choose true _ g)
    constructor <;> first | rfl | exact id
  · exact ((s.field.sameLoads_setSxe _ _).trans (Field.sameLoads_inFlight _ x.helio false)).trans
      (Field.choiceOnly_choose _ _ _ _).sameLoads

theorem State.steady_noGoodAnswer (g : Nat) (x : Exchange) (s : State) : s.Steady (s.noGoodAnswer g x) := by
  unfold State.noGoodAnswer
  split
  · exact State.steady_endExchange g x _ s editKeeps_silent
  · exact .aside rfl rfl (Field.Prim.sxe g
      { s.field.sxeAt g with exchange := some { x with repeated := true, phase := .sending } } (Or.inl (le_refl _))).reach
      (.of_eq rfl rfl)

theorem State.steady_takeAnswer (g : Nat) (x : Exchange) (fr : SegFrame) (s : State) : s.Steady (s.takeAnswer g x fr) := by
  unfold State.takeAnswer
  split
  · split
    · exact State.steady_endPass g x _ s
    · exact .refl s
  · split
    · exact State.steady_endExchange g x _ s (editKeeps_answer g x.kind _)
    · exact State.steady_noGoodAnswer g x s

/-! ### The uplink -/

theorem Field.sameLoads_takeReport (src : Source) (rest : List Source) (f : Field) : f.SameLoads (f.takeReport src rest) := by
  have hfill : ∀ f : Field, f.SameLoads f.fillOwed := by
    intro f
    refine f.quiet_fillOwed.sameLoads ?_
    unfold Field.fillOwed
    split
    · exact (Field.queueReport_zone _ _).trans (Field.setReportOwed_zone _ _ _)
    · rfl
  unfold Field.takeReport
  dsimp only
  refine .trans ?_ (hfill _)
  cases src with
  | zone z =>
    refine .trans (g := { f with reports := { f.reports with queue := rest } }) (.of_eq rfl rfl) ⟨fun _ => rfl, fun _ => rfl, fun y => ?_⟩
    rw [Field.zoneAt_setZone]
    split
    · next hy => exact hy.1 ▸ ⟨_, rfl⟩
    · exact .refl _
  | _ => exact .of_eq rfl rfl

end Sys2Proof.Machine
end

section
/-! PROOFS for flux admission: the ranges of the records (R182), and every command that makes no reset and writes no table leaves every zone settled and every budget exact
(the case list of `exec_steps`). -/

namespace Sys2Proof.Machine

/-! ### The ranges of the records (R182) -/

/-- One record lies within its ranges. -/
def Record.InRange : Record → Prop
  | .helio c => c.inRange
  | .aim a => footprintOk a.footprint
  | .zone c => c.inRange
  | .slewLimit n => 10 ≤ n ∧ n ≤ 600
  | .critical n => n ≤ 4095
  | .standby _ | .watch _ => True

theorem HelioConfig.inRange_normal {c : HelioConfig} (h : c.inRange = true) : c.normal.inRange = true := by
  unfold HelioConfig.normal
  split
  · exact h
  · decide

theorem AimPoint.footprint_normal {a : AimPoint} {n : Nat} (h : a.inRange n = true) : footprintOk a.normal.footprint = true := by
  unfold AimPoint.normal
  split
  · next hp =>
    simp only [AimPoint.inRange, hp, Bool.not_true, Bool.false_or, Bool.and_eq_true] at h
    exact h.2
  · decide

theorem Record.inRange_of_read {id : TableId} {bytes : List Byte} {r : Record} (h : readRecord id bytes = some r) : r.InRange := by
  cases id with
  | heliostat =>
    obtain ⟨hc, hr⟩ := Option.ite_none_right_eq_some.1 h
    cases hr
    exact HelioConfig.inRange_normal hc
  | aim =>
    obtain ⟨ha, hr⟩ := Option.ite_none_right_eq_some.1 h
    cases hr
    exact AimPoint.footprint_normal ha
  | standby => cases h; trivial
  | zone =>
    obtain ⟨hc, hr⟩ := Option.ite_none_right_eq_some.1 h
    cases hr
    exact hc
  | field =>
    obtain ⟨hn, hr⟩ := Option.ite_none_right_eq_some.1 h
    cases hr
    exact hn
  | critical =>
    obtain ⟨hn, hr⟩ := Option.ite_none_right_eq_some.1 h
    cases hr
    exact hn
  | watch =>
    obtain ⟨w, -, rfl⟩ := Option.map_eq_some_iff.1 h
    trivial

theorem Tables.InRange.recordAt {t : Tables} (h : t.InRange) (id : TableId) (i : Nat) : (t.recordAt id i).InRange := by
  cases id with
  | heliostat => exact h.helio i
  | aim => exact h.aim i
  | zone => exact h.zone i
  | field => exact h.slewLimit
  | critical => exact h.critical i
  | standby => trivial
  | watch => trivial

/-- A property of every value of a table stays with one more of it. -/
theorem Table.all_set {α : Type} [DecidableEq α] {P : α → Prop} {n : Nat} {d : α} {t : Table α} {i : Nat} {v : α} (ht : ∀ j, P (Table.get d t j))
    (hv : P v) (j : Nat) : P (Table.get d (Table.set n d t i v) j) := by
  rw [Table.get_set]
  split
  · exact hv
  · exact ht j

theorem Tables.InRange.withRecord {t : Tables} (h : t.InRange) (i : Nat) {r : Record} (hr : r.InRange) : (t.withRecord i r).InRange := by
  obtain ⟨h1, h2, h3, h4, h5⟩ := h
  cases r with
  | helio c => exact ⟨Table.all_set (P := fun c : HelioConfig => c.inRange = true) h1 hr, h2, h3, h4, h5⟩
  | aim a => exact ⟨h1, Table.all_set (P := fun a : AimPoint => footprintOk a.footprint = true) h2 hr, h3, h4, h5⟩
  | zone c => exact ⟨h1, h2, Table.all_set (P := fun c : ZoneConfig => c.inRange = true) h3 hr, h4, h5⟩
  | slewLimit n => exact ⟨h1, h2, h3, hr, h5⟩
  | critical n => exact ⟨h1, h2, h3, h4, Table.all_set (P := fun n => n ≤ 4095) h5 hr⟩
  | standby p => exact ⟨h1, h2, h3, h4, h5⟩
  | watch w => exact ⟨h1, h2, h3, h4, h5⟩

theorem Tables.InRange.foldl {β : Type} (op : Tables → β → Tables) (l : List β)
    (h : ∀ t b, b ∈ l → Tables.InRange t → (op t b).InRange) {t : Tables} (ht : t.InRange) : (l.foldl op t).InRange := by
  induction l generalizing t with
  | nil => exact ht
  | cons b l ih =>
    exact ih (fun t c hc => h t c (List.mem_cons_of_mem _ hc)) (h t b List.mem_cons_self ht)

theorem Tables.InRange.copyPage {t src : Tables} (ht : t.InRange) (hsrc : src.InRange) (id : TableId) (first : Nat) :
    (t.copyPage id first src).InRange :=
  .foldl _ _ (fun _ _ _ h => h.withRecord _ (hsrc.recordAt id _)) ht

theorem Tables.inRange_blank : Tables.blank.InRange := Tables.inRange_of_check (by decide)

theorem Tables.InRange.blankPage {t : Tables} (ht : t.InRange) (p : PageRef) : (t.blankPage p).InRange := by
  cases p with
  | page id first => exact ht.copyPage Tables.inRange_blank id first
  | marks => exact ht

theorem Tables.InRange.goodRecords {t : Tables} (ht : t.InRange) (id : TableId) (written : List (Nat × List Byte)) :
    ((goodRecords id written).foldl (fun (l : Tables) (p : Nat × Record) => l.withRecord p.1 p.2) t).InRange := by
  refine .foldl _ _ (fun _ p hp h => h.withRecord _ ?_) ht
  obtain ⟨q, -, hq⟩ := List.mem_filterMap.1 hp
  obtain ⟨r, hr, rfl⟩ := Option.map_eq_some_iff.1 hq
  exact Record.inRange_of_read hr

/-! ### The Operating State Controller and the uplink -/

theorem State.steady_takeAssert (s : State) : s.Steady s.takeAssert := (State.steady_safeOnset true s).trans (State.steady_kick _)

theorem State.steady_fieldDefocusOrder (s : State) : s.Steady s.fieldDefocusOrder.2 := by
  unfold State.fieldDefocusOrder
  exact (State.steady_safeOnset false s).trans (State.steady_kick _)

theorem State.steady_fsafe (s : State) (b : Bool) : s.Steady { s with fsafeAsserted := b } := .frame rfl rfl rfl

theorem execPass_steady (tag : Byte) (helio : Half) (body : List Byte) (s : State) :
    ∃ t, execPass tag helio body s = .next t ∧ s.Steady t := by
  refine ⟨_, rfl, ?_⟩
  split
  · simp only
    split
    · exact (State.steady_popFrame s).trans (State.steady_answer _ _ _ _)
    · exact ((State.steady_popFrame s).trans (State.steady_holdPass _ _ _ _)).trans (State.steady_kick _)
  · exact .refl s

theorem execReset_steady (tag : Byte) (s : State) : ∃ t, execReset tag s = .next t ∧ s.Steady t := by
  refine ⟨_, rfl, ?_⟩
  split
  · simp only
    split
    · exact (State.steady_popFrame s).trans (State.steady_answer _ _ _ _)
    · exact (State.steady_popFrame s).trans (State.steady_ulp _ _)
  · exact .refl s

theorem execTakeNonOrderFrame_steady (s : State) : ∃ t, execTakeNonOrderFrame s = .next t ∧ s.Steady t := by
  refine ⟨_, rfl, ?_⟩
  split
  · split
    · exact (State.steady_popFrame s).trans (State.steady_answer _ _ _ _)
    · exact .refl s
  · exact .refl s

theorem execSendAnswerFrame_steady (s : State) : ∃ t, execSendAnswerFrame s = .next t ∧ s.Steady t := by
  refine ⟨_, rfl, ?_⟩
  split
  · split
    · exact State.steady_ulp s _
    · split
      · exact .refl s
      · exact State.steady_ulp s _
  · exact .refl s

theorem execSendReportFrame_steady (s : State) : ∃ t, execSendReportFrame s = .next t ∧ s.Steady t := by
  refine ⟨_, rfl, ?_⟩
  split
  · split
    · next hq => exact .aside rfl rfl (Field.reach_takeReport _ _ _ hq) (s.field.sameLoads_takeReport _ _)
    · exact .refl s
  · exact .refl s

theorem execFsafeAssert_steady (s : State) : ∃ t, execFsafeAssert s = .next t ∧ s.Steady t := by
  refine ⟨_, rfl, ?_⟩
  simp only
  split
  · exact (State.steady_fsafe s true).trans (State.steady_takeAssert _)
  · exact State.steady_fsafe s true

theorem execFsafeRelease_steady (s : State) : ∃ t, execFsafeRelease s = .next t ∧ s.Steady t := by
  refine ⟨_, rfl, ?_⟩
  simp only
  split
  · exact ((State.steady_fsafe s false).trans (State.steady_osc _ _)).trans (State.steady_stateEvent _)
  · exact State.steady_fsafe s false

theorem execResetRelease_steady (s : State) : ∃ t, execResetRelease s = .next t ∧ s.Steady t := by
  refine ⟨_, rfl, ?_⟩
  split
  · exact .frame rfl rfl rfl
  · exact .refl s
  · exact .refl s

theorem execSurveyLimit_steady (s : State) : ∃ t, execSurveyLimit s = .next t ∧ s.Steady t := by
  refine ⟨_, rfl, ?_⟩
  split
  · next n _ =>
    split
    · simp only
      refine .trans ?_ (.trans (State.steady_enterHold _ _) (State.steady_kick _))
      refine .trans ?_ (State.steady_osc _ _)
      refine .trans (State.steady_advanceTo s n) (State.steady_change _ ?_)
      exact .foldl _ (fun w h => w.steady_giveUp h) _ _
    · exact .refl s
  · exact .refl s

theorem execStaleExpiry_steady (z : Nat) (s : State) : ∃ t, execStaleExpiry z s = .next t ∧ s.Steady t := by
  refine ⟨_, rfl, ?_⟩
  split
  · next n _ =>
    split
    · exact (State.steady_advanceTo s n).trans (State.steady_rejudge z (s.advanceTo n) (ZoneRun.conditioned_goStale _))
    · exact .refl s
  · exact .refl s

theorem execWakeDone_steady (s : State) : ∃ t, execWakeDone s = .next t ∧ s.Steady t := by
  refine ⟨_, rfl, ?_⟩
  split
  · split
    · exact (State.steady_advanceTo s _).trans (State.steady_completeWake _ _)
    · exact .refl s
  · exact .refl s

theorem execWakeSettleTick_steady (s : State) : ∃ t, execWakeSettleTick s = .next t ∧ s.Steady t := by
  refine ⟨_, rfl, ?_⟩
  split
  · split
    · exact (State.steady_advanceTo s _).trans (State.steady_osc _ _)
    · exact .refl s
  · exact .refl s

/-! ### Exchanges -/

theorem execSegmentRequestSent_steady (g : Fin 4) (s : State) : ∃ t, execSegmentRequestSent g s = .next t ∧ s.Steady t := by
  refine ⟨_, rfl, ?_⟩
  split
  · split
    · split
      · next x _ _ =>
        exact .aside rfl rfl (Field.Prim.sxe g
          { s.field.sxeAt g with exchange := some { x with phase := .awaiting s.now } } (Or.inl (le_refl _))).reach
          (s.field.sameLoads_setSxe _ _)
      · exact .refl s
    · exact .refl s
  · exact .refl s

theorem execDriveAnswer_steady (g : Fin 4) (frame : List Byte) (s : State) :
    ∃ t, execDriveAnswer g frame s = .next t ∧ s.Steady t := by
  refine ⟨_, rfl, ?_⟩
  split
  · split
    · split
      · exact State.steady_takeAnswer _ _ _ _
      · exact .refl s
    · exact .refl s
    · exact .refl s
  · exact .refl s

theorem execDriveResponseTimeout_steady (g : Fin 4) (s : State) :
    ∃ t, execDriveResponseTimeout g s = .next t ∧ s.Steady t := by
  refine ⟨_, rfl, ?_⟩
  split
  · split
    · split
      · simp only
        split
        · exact (State.steady_advanceTo s _).trans (State.steady_endPass _ _ _ _)
        · exact (State.steady_advanceTo s _).trans (State.steady_noGoodAnswer _ _ _)
      · exact .refl s
    · exact .refl s
  · exact .refl s

/-- A SLEW timed out is no record of a LOST heliostat (R65). -/
theorem HelioRun.steady_slewTimedOut {r : HelioRun} (hs : r.state = .slewing) (ha : r.accepted = true) :
    r.Steady (r.by (some .slewTimeout) ({ r with slewEnds := none, fault := r.fault.orElse (fun _ => some .slewTimeout) }.setOwed
      .defocus .slewTimeout).nothingRemains) := by
  refine .of_not_lost (fun h => HelioRun.Sound.by _ (HelioRun.Sound.nothingRemains (HelioRun.Sound.setOwed _ _ ?_ ?_))) ?_
    (by rw [hs]; decide)
  · exact h.other rfl rfl rfl rfl rfl rfl rfl rfl rfl rfl
  · by_contra hq
    have := (h.2.2.2.2.2.2.2 (by simpa using hq)).2.1
    rw [ha] at this
    cases this
  · rw [HelioRun.by_reportOwed, HelioRun.nothingRemains_reportOwed, HelioRun.setOwed_reportOwed]
    exact id

theorem execSlewTimeout_steady (h : Nat) (s : State) : ∃ t, execSlewTimeout h s = .next t ∧ s.Steady t := by
  refine ⟨_, rfl, ?_⟩
  simp only
  split
  · next n _ =>
    split
    · next hc =>
      simp only [Bool.and_eq_true, beq_iff_eq] at hc
      refine (State.steady_advanceTo s n).trans (.trans (State.steady_change _ ?_) (State.steady_kick _))
      exact Work.steady_put h _ (Work.of (s.advanceTo n).field) (HelioRun.steady_slewTimedOut hc.1.2 hc.2)
    · exact .refl s
  · exact .refl s

theorem execNightSpacingExpiry_steady (g : Fin 4) (s : State) : ∃ t, execNightSpacingExpiry g s = .next t ∧ s.Steady t := by
  refine ⟨_, rfl, ?_⟩
  simp only
  split
  · split
    · exact (State.steady_advanceTo s _).trans (State.steady_choose _ _ _)
    · exact .refl s
  · exact .refl s

theorem execNightPollDue_steady (g : Fin 4) (s : State) : ∃ t, execNightPollDue g s = .next t ∧ s.Steady t := by
  refine ⟨_, rfl, ?_⟩
  simp only
  split
  · split
    · exact (State.steady_advanceTo s _).trans (State.steady_choose _ _ _)
    · exact .refl s
  · exact .refl s

/-! ### The Program Engine -/

theorem execAimGroup_steady (s : State) : ∃ t, execAimGroup s = .next t ∧ s.Steady t := by
  refine ⟨_, rfl, ?_⟩
  split
  · exact State.steady_changeKick s fun w => w.steady_beginAimGroup _ _ _ _ _ _
  · exact .refl s

theorem execQueueSpaceResume_steady (s : State) : ∃ t, execQueueSpaceResume s = .next t ∧ s.Steady t := by
  refine ⟨_, rfl, ?_⟩
  split
  · split
    · exact State.steady_changeKick s fun w => (w.steady_setSlot _ _).trans (Work.steady_aimGroupFrom _ _ _ _ _ _ _ _)
    · exact .refl s
  · exact .refl s

theorem execSettleWaitEnd_steady (s : State) : ∃ t, execSettleWaitEnd s = .next t ∧ s.Steady t := by
  refine ⟨_, rfl, ?_⟩
  split
  · split
    · exact .refl s
    · exact State.steady_change s ((Work.steady_setSlot _ _ _).trans (Work.steady_completeStep _ _ _))
  · exact .refl s

theorem execDefocusGroup_steady (s : State) : ∃ t, execDefocusGroup s = .next t ∧ s.Steady t := by
  refine ⟨_, rfl, ?_⟩
  split
  · exact State.steady_changeKick s fun w => w.steady_moveGroup _ _ _ _
  · exact .refl s

theorem execStowGroup_steady (s : State) : ∃ t, execStowGroup s = .next t ∧ s.Steady t := by
  refine ⟨_, rfl, ?_⟩
  split
  · exact State.steady_changeKick s fun w => w.steady_moveGroup _ _ _ _
  · exact .refl s

theorem execGroupSettleWaitEnd_steady (s : State) : ∃ t, execGroupSettleWaitEnd s = .next t ∧ s.Steady t := by
  refine ⟨_, rfl, ?_⟩
  split
  · split
    · exact .refl s
    · exact State.steady_change s (Work.steady_completeStep _ _ _)
  · exact .refl s

theorem execCeiling_steady (s : State) : ∃ t, execCeiling s = .next t ∧ s.Steady t := by
  refine ⟨_, rfl, ?_⟩
  split
  · exact State.steady_changeKick s fun w =>
      ((w.steady_setCeilings _ _ _).trans (Work.steady_settleNow _)).trans (Work.steady_completeStep _ _ _)
  · exact .refl s

theorem execWait_steady (s : State) : ∃ t, execWait s = .next t ∧ s.Steady t := by
  refine ⟨_, rfl, ?_⟩
  split
  · exact State.steady_change s (Work.steady_waitFor _ _ _)
  · exact .refl s

theorem execWaitTimerExpiry_steady (s : State) : ∃ t, execWaitTimerExpiry s = .next t ∧ s.Steady t := by
  refine ⟨_, rfl, ?_⟩
  split
  · exact (State.steady_advanceTo s _).trans (State.steady_change _ (Work.steady_completeStep _ _ _))
  · exact .refl s

theorem execTest_steady (s : State) : ∃ t, execTest s = .next t ∧ s.Steady t := by
  refine ⟨_, rfl, ?_⟩
  split
  · exact State.steady_change s (Work.steady_completeStep _ _ _)
  · exact .refl s

theorem execJump_steady (s : State) : ∃ t, execJump s = .next t ∧ s.Steady t := by
  refine ⟨_, rfl, ?_⟩
  split
  · exact State.steady_change s (Work.steady_completeStep _ _ _)
  · exact .refl s

theorem execEndStep_steady (s : State) : ∃ t, execEndStep s = .next t ∧ s.Steady t := by
  refine ⟨_, rfl, ?_⟩
  split
  · exact State.steady_change s (Work.steady_completeStep _ _ _)
  · exact .refl s

/-! ### The commit (R186, R187) -/

theorem Store.inRange_commit {p : PageRef} {live : Tables} {marks : ProtMarks} {st : Store} (hl : live.InRange)
    (hs : st.tables.InRange) : (st.commit p live marks).tables.InRange := by
  cases p with
  | page id first => exact hs.copyPage hl id first
  | marks => exact hs

/-- A change of the store alone. -/
theorem State.Steady.stored {s t : State} (hl : t.live = s.live) (hw : t.watchOn = s.watchOn) (hf : t.field = s.field)
    (hst : s.live.InRange → s.store.tables.InRange → t.store.tables.InRange) : s.Steady t := by
  obtain ⟨-, -, hr, hs, hb⟩ := State.Steady.frame (s := s) (t := { t with store := s.store }) hl hw hf
  exact ⟨hl, hst, hr, hs, hb⟩

theorem execCommitDone_steady (s : State) : ∃ t, execCommitDone s = .next t ∧ s.Steady t := by
  refine ⟨_, rfl, ?_⟩
  split
  · split
    · exact .stored rfl rfl rfl fun hl hs => Store.inRange_commit hl hs
    · exact .refl s
  · exact .refl s

/-! ### Every command -/

theorem exec_steady (c : Instr) (hc : Instr.resetsOrWrites c = false) (s : State) : ∃ t, exec c s = .next t ∧ s.Steady t := by
  cases c with
  | powerOnReset => exact absurd hc (by decide)
  | pinReset => exact absurd hc (by decide)
  | tableLoadingDone d => exact absurd hc (by simp [Instr.resetsOrWrites])
  | tableWrite a b c d e => exact absurd hc (by simp [Instr.resetsOrWrites])
  | frameSent => exact absurd hc (by decide)
  | resetRelease => exact execResetRelease_steady s
  | fsafeAssert => exact execFsafeAssert_steady s
  | fsafeRelease => exact execFsafeRelease_steady s
  | uplinkFrame bytes =>
    refine ⟨_, rfl, ?_⟩
    split
    · exact State.steady_ulp s _
    · exact .refl s
  | takeNonOrderFrame => exact execTakeNonOrderFrame_steady s
  | aim tag h p => exact ⟨_, rfl, State.steady_order s _ _ _ _ (State.steady_aimOrder tag h p)⟩
  | setCeiling tag a b v => exact ⟨_, rfl, State.steady_order s _ _ _ _ (State.steady_setCeilingOrder a b v)⟩
  | readZone tag z => exact ⟨_, rfl, State.steady_order s _ _ _ _ (State.steady_readZoneOrder z)⟩
  | defocus tag sc i => exact ⟨_, rfl, State.steady_order s _ _ _ _ (State.steady_motionOrder _ sc i)⟩
  | stow tag sc i => exact ⟨_, rfl, State.steady_order s _ _ _ _ (State.steady_motionOrder _ sc i)⟩
  | clearFault tag sc i => exact ⟨_, rfl, State.steady_order s _ _ _ _ (State.steady_clearFaultOrder sc i)⟩
  | flagsSet tag g m =>
    exact ⟨_, rfl, State.steady_order s _ _ _ _
      (State.steady_flagsOrder g m _ (HelioRun.like_giveFlags m) (HelioRun.alike_giveFlags m))⟩
  | flagsClear tag g m =>
    exact ⟨_, rfl, State.steady_order s _ _ _ _
      (State.steady_flagsOrder g m _ (HelioRun.like_takeFlags m) (HelioRun.alike_takeFlags m))⟩
  | readHeliostat tag h => exact ⟨_, rfl, State.steady_order s _ _ _ _ (State.steady_readHeliostatOrder h)⟩
  | pass tag h b => exact execPass_steady tag h b s
  | watchOn tag => exact ⟨_, rfl, State.steady_order s _ _ _ _ State.steady_turnWatchOn⟩
  | watchOff tag => exact ⟨_, rfl, State.steady_order s _ _ _ _ State.steady_turnWatchOff⟩
  | clearTrip tag => exact ⟨_, rfl, State.steady_order s _ _ _ _ State.steady_clearTripOrder⟩
  | lockLimits tag => exact ⟨_, rfl, State.steady_order s _ _ _ _ (fun _ => .frame rfl rfl rfl)⟩
  | loadProgram tag k n r => exact ⟨_, rfl, State.steady_order s _ _ _ _ (State.steady_loadProgramOrder k n r)⟩
  | startProgram tag k l => exact ⟨_, rfl, State.steady_order s _ _ _ _ (State.steady_startProgramOrder tag k l)⟩
  | haltProgram tag k => exact ⟨_, rfl, State.steady_order s _ _ _ _ (State.steady_haltProgramOrder k)⟩
  | readProgramStatus tag k => exact ⟨_, rfl, State.steady_order s _ _ _ _ (State.steady_readProgramStatusOrder k)⟩
  | setState tag t => exact ⟨_, rfl, State.steady_order s _ _ _ _ (State.steady_setStateOrder t)⟩
  | fieldDefocus tag => exact ⟨_, rfl, State.steady_order s _ _ _ _ State.steady_fieldDefocusOrder⟩
  | reset tag => exact execReset_steady tag s
  | status tag => exact ⟨_, rfl, State.steady_order s _ _ _ _ (fun s => State.steady_ulp s _)⟩
  | tableRead tag a b n => exact ⟨_, rfl, State.steady_order s _ _ _ _ (State.steady_tableReadOrder a b n)⟩
  | protect tag b => exact ⟨_, rfl, State.steady_order s _ _ _ _ (State.steady_protectOrder b)⟩
  | unprotectAll tag => exact ⟨_, rfl, State.steady_order s _ _ _ _ State.steady_unprotectAllOrder⟩
  | protectionStatus tag => exact ⟨_, rfl, State.steady_order s _ _ _ _ (fun s => .refl s)⟩
  | commitDone => exact execCommitDone_steady s
  | sendAnswerFrame => exact execSendAnswerFrame_steady s
  | sendReportFrame => exact execSendReportFrame_steady s
  | nightSpacingExpiry g => exact execNightSpacingExpiry_steady g s
  | segmentRequestSent g => exact execSegmentRequestSent_steady g s
  | driveAnswer g f => exact execDriveAnswer_steady g f s
  | driveResponseTimeout g => exact execDriveResponseTimeout_steady g s
  | slewTimeout h => exact execSlewTimeout_steady h s
  | surveyLimit => exact execSurveyLimit_steady s
  | wakeSettleTick => exact execWakeSettleTick_steady s
  | wakeDone => exact execWakeDone_steady s
  | sensorReading bytes =>
    refine ⟨_, rfl, ?_⟩
    split
    · exact State.steady_foldl _ State.steady_sensorByte bytes s
    · exact .refl s
  | staleExpiry z => exact execStaleExpiry_steady z s
  | aimGroup => exact execAimGroup_steady s
  | queueSpaceResume => exact execQueueSpaceResume_steady s
  | settleWaitEnd => exact execSettleWaitEnd_steady s
  | defocusGroup => exact execDefocusGroup_steady s
  | stowGroup => exact execStowGroup_steady s
  | groupSettleWaitEnd => exact execGroupSettleWaitEnd_steady s
  | ceiling => exact execCeiling_steady s
  | wait => exact execWait_steady s
  | waitTimerExpiry => exact execWaitTimerExpiry_steady s
  | test => exact execTest_steady s
  | jump => exact execJump_steady s
  | endStep => exact execEndStep_steady s
  | uplinkGapLimit =>
    refine ⟨_, rfl, ?_⟩
    split
    · exact State.steady_ulp s _
    · exact .refl s
  | sensorFrameGap =>
    refine ⟨_, rfl, ?_⟩
    split
    · exact State.steady_sensorRx s _
    · exact .refl s
  | nightPollDue g => exact execNightPollDue_steady g s

end Sys2Proof.Machine
end

section
/-! PROOFS for flux admission: the commands that make a reset or write a table, and the facts that every step keeps (R28 to R30, R44 to
R47, R182). -/

namespace Sys2Proof.Machine

/-! ### Resets -/

theorem Field.sameLoads_halt_run {f : Field} (hc : f.Canonical) (h : Nat) :
    (f.halt.run h).aims = (f.run h).aims ∧ (f.halt.run h).secured = (f.run h).secured := by
  rw [Field.run_halt hc]
  exact ⟨rfl, rfl⟩

/-- In reset the zones and the loads stand (R146). -/
theorem Field.ZoneSettled.halt {env : Env} {f : Field} (hc : f.Canonical) {z : Nat} (h : f.ZoneSettled env z) :
    f.halt.ZoneSettled env z := by
  obtain ⟨h1, h2, h3⟩ := h
  refine ⟨?_, ?_, fun hx j hcov => ?_⟩
  · rw [Field.zoneAt_halt hc]
    exact h1
  · rw [Field.zoneAt_halt hc]
    exact h2
  · rw [Field.zoneAt_halt hc] at hx
    rw [(Field.sameLoads_halt_run hc j).2]
    refine h3 hx j ?_
    unfold Env.covers at hcov ⊢
    rw [← (Field.sameLoads_halt_run hc j).1]
    exact hcov

theorem Field.BudgetExact.halt {env : Env} {f : Field} (hc : f.Canonical) {z : Nat} (h : f.BudgetExact env z) :
    f.halt.BudgetExact env z := by
  unfold Field.BudgetExact
  rw [Field.zoneAt_halt hc]
  exact h

/-- A zone without load is settled. -/
theorem Field.ZoneSettled.of_idle {env : Env} {f : Field} {z : Nat} (h1 : (f.zoneAt z).overBudget = false)
    (h2 : (f.zoneAt z).unsheddable = false) (h3 : (f.zoneAt z).committed = 0) : f.ZoneSettled env z := by
  have hx : (f.zoneAt z).inExcess = false := by
    unfold ZoneRun.inExcess
    rw [h3]
    exact decide_eq_false (Nat.not_lt_zero _)
  refine ⟨?_, by rw [h2, hx], fun hc => absurd hc (by rw [hx]; exact Bool.false_ne_true)⟩
  rw [h1]
  unfold ZoneRun.isOver
  rw [h3]
  exact (decide_eq_false (Nat.not_lt_zero _)).symm

/-- As a survey begins no zone has load, and every budget is recomputed (R29, R53, R105). -/
theorem State.SurveyBegun.zonesSettled {c : StateCause} {kept : Field} {t : State} (h : t.SurveyBegun c kept)
    (hc : t.field.Canonical) (z : Nat) : t.field.ZoneSettled t.env z := by
  by_cases hz : z < Config.zones
  · have he := h.zones z hz
    refine .of_idle ?_ ?_ ?_ <;> rw [he] <;> rfl
  · have he := Field.zoneAt_outside hc hz
    refine .of_idle ?_ ?_ ?_ <;> rw [he] <;> rfl

theorem State.SurveyBegun.budgets {c : StateCause} {kept : Field} {t : State} (h : t.SurveyBegun c kept) : t.BudgetsExact :=
  fun z hz => congrArg ZoneRun.budget (h.zones z hz)

theorem State.surveyBegun_comeUp (kind : ResetKind) {s : State} (hl : s.live.Canonical) :
    (s.comeUp kind).SurveyBegun kind.cause Field.blank :=
  (State.surveyBegun_of kind.cause Field.blank Field.canonical_blank
    { s with phase := .running, watchOn := true, sensorRx := none, ulp := Ulp.blank, field := Field.blank.afterReset s.live true }
    hl rfl).1

theorem State.surveyBegun_softReset {s : State} (hl : s.live.Canonical) (hf : s.field.Canonical) :
    s.softReset.SurveyBegun .softReset s.field :=
  (State.surveyBegun_of .softReset s.field hf
    { s with
      field := s.field.afterReset s.live s.watchOn
      ulp := { s.ulp with waiting := none, deferred := [], readyOrder := [], tx := none } } hl rfl).1

/-- A soft reset leaves every zone settled. -/
theorem State.softReset_settled {s : State} (hl : s.live.Canonical) (hf : s.field.Canonical) (z : Nat) :
    s.softReset.field.ZoneSettled s.softReset.env z :=
  (State.surveyBegun_softReset hl hf).zonesSettled (State.softReset_good hl hf).canonical z

/-- So does the coming up after a hard reset. -/
theorem State.comeUp_settled (kind : ResetKind) {s : State} (hl : s.live.Canonical) (z : Nat) :
    (s.comeUp kind).field.ZoneSettled (s.comeUp kind).env z :=
  (State.surveyBegun_comeUp kind hl).zonesSettled (State.comeUp_good hl).canonical z

/-! ### TABLE WRITE -/

/-- A held aim has a held reference (R23). -/
theorem Field.AccountsExact.refAt_pos {env : Env} {f : Field} (h : f.AccountsExact env) {a j : Nat} (ha : a < Config.aimPoints)
    (hm : a ∈ (f.run j).aims) : f.refAt a ≠ 0 := by
  intro h0
  rw [h.2.2 a ha] at h0
  have hb : f.run j ≠ HelioRun.blank := fun hb => by
    rw [hb] at hm
    exact List.not_mem_nil hm
  have h1 := Table.total_zero h0 (Table.mem_of_get hb)
  exact absurd h1 (by rw [show (Table.get HelioRun.blank f.helio j).aims = (f.run j).aims from rfl, if_pos hm]; exact Nat.one_ne_zero)

/-- A heliostat covers the same zones after a write that may be taken (R184). -/
theorem State.covers_after_write {s : State} {live : Tables} (hg : s.field.Good s.env)
    (ha : ∀ a, live.aimAt a = s.live.aimAt a ∨ (a < Config.aimPoints ∧ s.field.refAt a = 0)) (j z : Nat) :
    ({ s.env with live := live } : Env).covers (s.field.run j) z = s.env.covers (s.field.run j) z := by
  unfold Env.covers
  rw [Bool.eq_iff_iff, List.any_eq_true, List.any_eq_true]
  refine exists_congr fun a => and_congr_right fun hm => ?_
  have he : live.aimAt a = s.live.aimAt a := (ha a).resolve_right fun h => hg.accounts.refAt_pos h.1 hm h.2
  unfold Env.aimCovers Env.footprint
  rw [he]
  exact Iff.rfl

/-- A heliostat that comes or goes holds no load. -/
theorem HelioRun.secured_by_blank (b : Bool) (old : HelioRun) :
    (old.by (some .order) { HelioRun.blank with state := if b then .unsure else .absent }).secured := by
  rw [HelioRun.by_secured]
  cases b <;> rfl

theorem Work.steady_presence {env : Env} (h : Nat) (a b : Bool) (w : Work) : Work.Steady env w (w.presence env h a b) := by
  unfold Work.presence
  split
  · exact .refl w
  · refine w.steady_put h _ ⟨fun _ => HelioRun.Sound.by _ (HelioRun.sound_present b), ?_, fun _ _ _ => ?_⟩
    · rw [HelioRun.by_reportOwed]
      exact fun hb => Bool.noConfusion (show false = true from hb)
    · exact HelioRun.secured_by_blank b _

theorem Work.zone_rewatch (old new : WatchSettings) (w : Work) : (w.rewatch old new).fld.zone = w.fld.zone := by
  unfold Work.rewatch
  dsimp only
  split <;> split <;> simp

theorem Work.touched_rewatch (old new : WatchSettings) (w : Work) : (w.rewatch old new).touched = w.touched := by
  unfold Work.rewatch
  dsimp only
  split <;> split <;> rfl

theorem Work.steady_rewatch {env : Env} (old new : WatchSettings) (w : Work) : Work.Steady env w (w.rewatch old new) :=
  .aside (w.reach_rewatch old new) ((w.quiet_rewatch old new).sameLoads (w.zone_rewatch old new)) (w.touched_rewatch old new)

theorem Work.steady_afterRecord {env : Env} (old : Tables) (w : Work) (p : Nat × Record) :
    Work.Steady env w (w.afterRecord env old p) := by
  unfold Work.afterRecord
  split
  · exact w.steady_presence _ _ _
  · exact w.steady_rebudget _
  · exact w.steady_rewatch _ _
  all_goals exact .refl w

/-- After the effects of a write the budget of a zone is exact where it was or where the zone's record was written (R185). -/
theorem Work.budget_afterRecords {env : Env} (old : Tables) {z : Nat} (hz : z < Config.zones) (records : List (Nat × Record)) {w : Work}
    (h : w.fld.BudgetExact env z ∨ ∃ c, (z, .zone c) ∈ records) :
    (records.foldl (Work.afterRecord env old) w).fld.BudgetExact env z := by
  induction records generalizing w with
  | nil => exact h.resolve_right fun ⟨_, hm⟩ => List.not_mem_nil hm
  | cons p ps ih =>
    refine ih ?_
    rcases h with h | ⟨c, hm⟩
    · exact Or.inl ((w.steady_afterRecord old p).budgets z hz h)
    · rcases List.mem_cons.1 hm with rfl | hm
      · exact Or.inl (w.budget_rebudget_same hz)
      · exact Or.inr ⟨c, hm⟩

theorem Tables.zoneAt_withRecord (t : Tables) (i : Nat) (r : Record) (z : Nat) :
    (t.withRecord i r).zoneAt z = t.zoneAt z ∨ ∃ c, r = .zone c ∧ i = z := by
  cases r with
  | zone c =>
    by_cases hi : i = z
    · exact Or.inr ⟨c, rfl, hi⟩
    · exact Or.inl (Table.get_set_other _ _ _ _ _ _ hi)
  | _ => exact Or.inl rfl

theorem Tables.zoneAt_withRecords (records : List (Nat × Record)) (t : Tables) (z : Nat) :
    (records.foldl (fun (l : Tables) (p : Nat × Record) => l.withRecord p.1 p.2) t).zoneAt z = t.zoneAt z
      ∨ ∃ c, (z, .zone c) ∈ records := by
  induction records generalizing t with
  | nil => exact Or.inl rfl
  | cons p ps ih =>
    rcases ih (t.withRecord p.1 p.2) with h | ⟨c, hm⟩
    · rcases t.zoneAt_withRecord p.1 p.2 z with h1 | ⟨c, hr, hi⟩
      · exact Or.inl (h.trans h1)
      · exact Or.inr ⟨c, hi ▸ hr ▸ List.mem_cons_self⟩
    · exact Or.inr ⟨c, List.mem_cons_of_mem _ hm⟩

/-- The state in which the effects of an accepted write are worked out: the records written, the commit begun. -/
def State.written (t : TableId) (first : Nat) (written : List (Nat × List Byte)) (s : State) : State :=
  { s with
    live := (goodRecords t written).foldl (fun (l : Tables) (p : Nat × Record) => l.withRecord p.1 p.2) s.live
    commit := some (.page t (pageStart first)) }

theorem State.acceptWrite_eq (t : TableId) (first : Nat) (written : List (Nat × List Byte)) (s : State) :
    s.acceptWrite t first written = ((s.written t first written).change fun w =>
      (goodRecords t written).foldl (Work.afterRecord (s.written t first written).env s.live) w).kick := rfl

/-- The effects of an accepted write leave every zone settled and every exact budget exact. -/
theorem State.steady_effects (t : TableId) (first : Nat) (written : List (Nat × List Byte)) (s : State) :
    (s.written t first written).Steady (s.acceptWrite t first written) := by
  rw [State.acceptWrite_eq]
  exact (State.steady_change _ (.foldl _ (fun w p => w.steady_afterRecord _ p) _ _)).trans (State.steady_kick _)

theorem State.acceptWrite_settled {s : State} {t : TableId} {first : Nat} {written : List (Nat × List Byte)}
    (hw : ∀ p ∈ goodRecords t written, s.writeFact p.1 p.2 = none) (hr : s.live.InRange) (hg : s.field.Good s.env)
    (hs : ∀ z, s.field.ZoneSettled s.env z) (z : Nat) :
    (s.acceptWrite t first written).field.ZoneSettled (s.acceptWrite t first written).env z := by
  obtain ⟨hweight, haim⟩ := State.live_after_write (goodRecords t written) hw (t := s.live) (fun _ => Or.inl rfl) fun _ => Or.inl rfl
  refine (s.steady_effects t first written).settled (hr.goodRecords t written) ?_ (fun z => ?_) z
  · exact ⟨hg.canonical, hg.records, hg.grants, hg.reports, hg.queues, hg.accounts.newLive hg.canonical hweight haim⟩
  · obtain ⟨h1, h2, h3⟩ := hs z
    exact ⟨h1, h2, fun hx j hc => h3 hx j ((s.covers_after_write hg haim j z).symm.trans hc)⟩

theorem State.acceptWrite_budgets {s : State} (t : TableId) (first : Nat) (written : List (Nat × List Byte)) (hb : s.BudgetsExact) :
    (s.acceptWrite t first written).BudgetsExact := by
  rw [State.acceptWrite_eq]
  refine (State.steady_kick _).budgets fun z hz => Work.budget_finish hz (Work.budget_afterRecords _ hz _ ?_)
  refine (Tables.zoneAt_withRecords (goodRecords t written) s.live z).imp_left fun he => ?_
  exact (hb z hz).trans (congrArg (budgetOf · s.watchOn (s.field.zoneAt z)) he.symm)

/-! ### Every command -/

/-- TABLE_LOADING_DONE changes nothing, or the part comes up with its live tables loaded from the store (R180). -/
theorem execTableLoadingDone_cases {s t : State} {d : List PageRef} (he : execTableLoadingDone d s = .next t) :
    t = s ∨ ∃ (s1 : State) (kind : ResetKind), t = s1.comeUp kind ∧ (s.store.tables.Canonical → s1.live.Canonical)
      ∧ (s.store.tables.InRange → s1.live.InRange ∧ s1.store.tables.InRange) := by
  cases he
  split
  · refine Or.inr ⟨_, _, rfl, fun hc => ?_, fun hr => ?_⟩
    · exact State.canonical_loadTables (s := { s with store := s.store.damage d }) hc
    · exact ⟨.foldl _ _ (fun _ p _ h => h.blankPage p) hr, hr⟩
  · exact Or.inl rfl
  · exact Or.inl rfl

/-- FRAME_SENT changes what is being sent alone, or a soft reset follows (R163). -/
theorem execFrameSent_cases {s t : State} (he : execFrameSent s = .next t) : ∃ s1 : State, s1.live = s.live ∧ s1.field = s.field
    ∧ s1.store = s.store ∧ s1.watchOn = s.watchOn ∧ (t = s1 ∨ t = s1.softReset) := by
  cases he
  split
  · split
    · refine ⟨{ s with ulp := { s.ulp with tx := none } }, rfl, rfl, rfl, rfl, ?_⟩
      dsimp only
      split
      · exact Or.inr rfl
      · exact Or.inl rfl
    · exact ⟨s, rfl, rfl, rfl, rfl, Or.inl rfl⟩
  · exact ⟨s, rfl, rfl, rfl, rfl, Or.inl rfl⟩

/-- Every command leaves every zone settled. -/
theorem exec_settled {s t : State} (c : Instr) (hs : s.Sound) (hr : s.live.InRange) (hz : ∀ z, s.field.ZoneSettled s.env z)
    (he : exec c s = .next t) : ∀ z, t.field.ZoneSettled t.env z := by
  obtain ⟨hfield, hlive, hstore, -⟩ := hs.canonical
  by_cases hc : Instr.resetsOrWrites c = false
  · obtain ⟨t', h1, h2⟩ := exec_steady c hc s
    rw [h1] at he
    cases he
    exact h2.settled hr hs.good hz
  · cases c with
    | powerOnReset => cases he; exact fun z => ((hz z).halt hfield).congr rfl
    | pinReset => cases he; exact fun z => ((hz z).halt hfield).congr rfl
    | tableLoadingDone d =>
      rcases execTableLoadingDone_cases he with rfl | ⟨s1, kind, rfl, hl, -⟩
      · exact hz
      · exact State.comeUp_settled kind (hl hstore)
    | tableWrite tag table first count records =>
      rcases execTableWrite_cases he with rfl | ⟨_, rfl | ⟨id, written, hw, rfl⟩⟩
      · exact hz
      · exact (s.steady_popFrame.trans (State.steady_answer _ _ _ _)).settled hr hs.good hz
      · rw [State.answer_env, State.answer_field]
        exact State.acceptWrite_settled (s := s.popFrame) (State.writeFact_of_writeRefusal hw) hr hs.good hz
    | frameSent =>
      obtain ⟨s1, h1, h2, -, -, rfl | rfl⟩ := execFrameSent_cases he
      · exact fun z => h2 ▸ (hz z).congr h1
      · exact State.softReset_settled (h1 ▸ hlive) (h2 ▸ hfield)
    | _ => exact absurd rfl hc

/-- Every command leaves every budget exact. -/
theorem exec_budgets {s t : State} (c : Instr) (hcan : s.Canonical) (hb : s.BudgetsExact) (he : exec c s = .next t) :
    t.BudgetsExact := by
  obtain ⟨hfield, hlive, hstore, -⟩ := hcan
  have halt : ∀ z, z < Config.zones → s.field.halt.BudgetExact s.env z := fun z hz => .halt hfield (hb z hz)
  by_cases hc : Instr.resetsOrWrites c = false
  · obtain ⟨t', h1, h2⟩ := exec_steady c hc s
    rw [h1] at he
    cases he
    exact h2.budgets hb
  · cases c with
    | powerOnReset => cases he; exact halt
    | pinReset => cases he; exact halt
    | tableLoadingDone d =>
      rcases execTableLoadingDone_cases he with rfl | ⟨s1, kind, rfl, hl, -⟩
      · exact hb
      · exact (State.surveyBegun_comeUp kind (hl hstore)).budgets
    | tableWrite tag table first count records =>
      rcases execTableWrite_cases he with rfl | ⟨_, rfl | ⟨id, written, hw, rfl⟩⟩
      · exact hb
      · exact (s.steady_popFrame.trans (State.steady_answer _ _ _ _)).budgets hb
      · exact (State.steady_answer _ _ _ _).budgets (State.acceptWrite_budgets id first.toNat written (s.steady_popFrame.budgets hb))
    | frameSent =>
      obtain ⟨s1, h1, h2, h3, h4, rfl | rfl⟩ := execFrameSent_cases he
      · exact (State.Steady.frame h1 h4 h2 h3).budgets hb
      · exact (State.surveyBegun_softReset (h1 ▸ hlive) (h2 ▸ hfield)).budgets
    | _ => exact absurd rfl hc

/-- Every command leaves every live and stored record in range. -/
theorem exec_inRange {s t : State} (c : Instr) (hl : s.live.InRange) (hs : s.store.tables.InRange) (he : exec c s = .next t) :
    t.live.InRange ∧ t.store.tables.InRange := by
  by_cases hc : Instr.resetsOrWrites c = false
  · obtain ⟨t', h1, h2⟩ := exec_steady c hc s
    rw [h1] at he
    cases he
    exact ⟨h2.live ▸ hl, h2.store hl hs⟩
  · cases c with
    | powerOnReset => cases he; exact ⟨hl, hs⟩
    | pinReset => cases he; exact ⟨hl, hs⟩
    | tableLoadingDone d =>
      rcases execTableLoadingDone_cases he with rfl | ⟨s1, kind, rfl, -, hr⟩
      · exact ⟨hl, hs⟩
      · obtain ⟨-, -, h3, h4, -⟩ := State.comeUp_frame kind s1
        rw [h3, h4]
        exact hr hs
    | tableWrite tag table first count records =>
      rcases execTableWrite_cases he with rfl | ⟨_, rfl | ⟨id, written, hw, rfl⟩⟩
      · exact ⟨hl, hs⟩
      · exact ⟨hl, hs⟩
      · exact ⟨hl.goodRecords id written, hs⟩
    | frameSent =>
      obtain ⟨s1, h1, -, h3, -, rfl | rfl⟩ := execFrameSent_cases he
      · exact ⟨h1 ▸ hl, h3 ▸ hs⟩
      · obtain ⟨-, -, h4, h5, -⟩ := State.softReset_frame s1
        rw [h4, h5]
        exact ⟨h1 ▸ hl, h3 ▸ hs⟩
    | _ => exact absurd rfl hc

/-- Settles O16: every operation of a change tests the zones it touches, and the tests end with every zone settled. -/
theorem zonesSettledAtEveryStep : Obligations.ZonesSettledAtEveryStep := by
  unfold Obligations.ZonesSettledAtEveryStep
  intro s t hs hr hz h
  exact step_keeps (P := fun s => s.Sound ∧ s.live.InRange ∧ s.ZonesSettled) (Q := fun t => t.ZonesSettled)
    (fun _ h => ⟨h.2.2.isOver, h.2.2.unsheddable, h.2.2.spent⟩)
    (fun _ rest h => ⟨h.1.withQueue rest, h.2.1, h.2.2.isOver, h.2.2.unsheddable, h.2.2.spent⟩)
    (fun c s t h he => (State.zonesSettled_iff (exec_sound c h.1 he).good).2
      (exec_settled c h.1 h.2.1 ((State.zonesSettled_iff h.1.good).1 h.2.2) he))
    ⟨hs, hr, hz⟩ h

/-- Settles O15: a record is written as it passed the checks or copied from one in range, and a budget is recomputed whenever
something it is made of changes. -/
theorem rangesAndBudgetsKeptByEveryStep : Obligations.RangesAndBudgetsKeptByEveryStep := by
  unfold Obligations.RangesAndBudgetsKeptByEveryStep
  refine ⟨fun s t _ hl hst h => ?_, fun s t hc hb h => ?_⟩
  · exact step_keeps (P := fun s => s.live.InRange ∧ s.store.tables.InRange) (Q := fun t => t.live.InRange ∧ t.store.tables.InRange)
      (fun _ h => h) (fun _ _ h => h) (fun c _ _ h => exec_inRange c h.1 h.2) ⟨hl, hst⟩ h
  · exact step_keeps (P := fun s => s.Canonical ∧ s.BudgetsExact) (Q := State.BudgetsExact)
      (fun _ h => h.2) (fun _ _ h => h) (fun c _ _ h => exec_budgets c h.1 h.2) ⟨hc, hb⟩ h

end Sys2Proof.Machine
end

section
/-! PROOFS for flux admission: SET CEILING (R49). -/

namespace Sys2Proof.Machine

variable {env : Env}

/-! ### A mark stands until its ZONE EVENT is sent (R51) -/

/-- The ceilings marked as changed stay marked. -/
def Field.CeilingsMarked (f g : Field) : Prop := ∀ z, (f.zoneAt z).marks.ceiling = true → (g.zoneAt z).marks.ceiling = true

theorem Field.CeilingsMarked.refl (f : Field) : f.CeilingsMarked f := fun _ h => h

theorem Field.CeilingsMarked.trans {f g k : Field} (h1 : f.CeilingsMarked g) (h2 : g.CeilingsMarked k) : f.CeilingsMarked k :=
  fun z h => h2 z (h1 z h)

theorem Field.CeilingsMarked.of_zone {f g : Field} (h : g.zone = f.zone) : f.CeilingsMarked g := by
  intro z hz
  unfold Field.zoneAt at hz ⊢
  rw [h]
  exact hz

theorem Work.ceilingsMarked_put (h : Nat) (r : HelioRun) (w : Work) : w.fld.CeilingsMarked (w.put env h r).fld := by
  have hw : w.fld.CeilingsMarked (w.write env h r).fld := by
    intro z hz
    unfold Work.write
    split
    · dsimp only
      rw [Field.zoneAt_record]
      split
      · exact hz
      · exact hz
    · exact hz
  unfold Work.put
  dsimp only
  split
  · exact hw.trans (.of_zone (Work.report_zone _ _))
  · exact hw

theorem Work.zone_dropEntry (h : Nat) (w : Work) : (w.dropEntry env h).fld.zone = w.fld.zone := by
  unfold Work.dropEntry Field.dropEntry
  dsimp only
  split <;> rfl

theorem Work.ceilingsMarked_undone (h : Nat) (r : HelioRun) (a : Option Nat) (w : Work) :
    w.fld.CeilingsMarked (((w.dropEntry env h).put env h r).follow h a false).fld :=
  (Field.CeilingsMarked.of_zone (w.zone_dropEntry h)).trans
    ((Work.ceilingsMarked_put h r _).trans (.of_zone (Work.zone_follow _ _ _ _)))

theorem Work.ceilingsMarked_withdraw (c : Cause) (h : Nat) (w : Work) : w.fld.CeilingsMarked (w.withdraw env c h).fld := by
  unfold Work.withdraw
  dsimp only
  split
  · exact w.ceilingsMarked_undone h _ _
  · exact .refl _

theorem Work.ceilingsMarked_owe (m : Motion) (c : Cause) (h : Nat) (w : Work) : w.fld.CeilingsMarked (w.owe env m c h).fld := by
  unfold Work.owe
  dsimp only
  split
  · exact w.ceilingsMarked_undone h _ _
  · exact w.ceilingsMarked_put h _

theorem Work.ceilingsMarked_shed (z h : Nat) (w : Work) : w.fld.CeilingsMarked (w.shed env z h).fld := by
  unfold Work.shed
  dsimp only
  split
  · split
    · exact (w.ceilingsMarked_withdraw _ h).trans (Work.ceilingsMarked_owe _ _ h _)
    · exact w.ceilingsMarked_withdraw _ h
  · exact w.ceilingsMarked_owe _ _ h

theorem Work.ceilingsMarked_walk (z : Nat) (l : List Nat) (w : Work) : w.fld.CeilingsMarked (w.walk env z l).fld := by
  induction l generalizing w with
  | nil => exact .refl _
  | cons h l ih =>
    unfold Work.walk
    split
    · refine .trans ?_ (ih _)
      split
      · exact w.ceilingsMarked_shed z h
      · exact .refl _
    · exact .refl _

theorem Work.ceilingsMarked_mark (z : Nat) (v : ZoneRun) (w : Work)
    (hv : (w.fld.zoneAt z).marks.ceiling = true → v.marks.ceiling = true) : w.fld.CeilingsMarked (w.mark z v).fld := by
  intro y hy
  rw [Work.zoneAt_mark]
  split
  · next h => exact hv (h.1 ▸ hy)
  · exact hy

theorem Work.ceilingsMarked_evalOver (z : Nat) (w : Work) : w.fld.CeilingsMarked (w.evalOver z).fld := by
  unfold Work.evalOver
  dsimp only
  split
  · exact .refl _
  · exact w.ceilingsMarked_mark z _ id

theorem Work.ceilingsMarked_setUnsheddable (z : Nat) (b : Bool) (w : Work) : w.fld.CeilingsMarked (w.setUnsheddable z b).fld := by
  unfold Work.setUnsheddable
  dsimp only
  split
  · exact .refl _
  · exact w.ceilingsMarked_mark z _ id

theorem Work.ceilingsMarked_shedTest (z : Nat) (w : Work) : w.fld.CeilingsMarked (w.shedTest env z).fld := by
  unfold Work.shedTest
  dsimp only
  refine .trans ?_ (Work.ceilingsMarked_setUnsheddable z _ _)
  split
  · exact (w.ceilingsMarked_walk z _).trans (Work.ceilingsMarked_evalOver z _)
  · exact .refl _

theorem Work.ceilingsMarked_settle (n : Nat) (w : Work) : w.fld.CeilingsMarked (w.settle env n).fld := by
  induction n generalizing w with
  | zero => exact .refl _
  | succ n ih =>
    unfold Work.settle
    split
    · exact .refl _
    · next z t _ =>
      exact ((Work.ceilingsMarked_evalOver z { w with touched := t }).trans (Work.ceilingsMarked_shedTest z _)).trans (ih _)

/-- A ceiling marked before the FAU's tests is marked after the change. -/
theorem State.ceilingsMarked_changeKick (s : State) (g : Work → Work) :
    (g (Work.of s.field)).fld.CeilingsMarked (s.change g).kick.field := by
  have h1 : (g (Work.of s.field)).fld.CeilingsMarked ((g (Work.of s.field)).settleNow s.env).fld := Work.ceilingsMarked_settle _ _
  have h2 : ((g (Work.of s.field)).settleNow s.env).fld.CeilingsMarked (s.change g).field :=
    .of_zone (congrArg (fun f : Field => f.zone) (Work.fld_evalTrip s.env ((g (Work.of s.field)).settleNow s.env)) :
      (((g (Work.of s.field)).settleNow s.env).evalTrip s.env).fld.zone = _)
  refine (h1.trans h2).trans fun z hz => ?_
  rw [(State.choiceOnly_kick (s.change g)).zoneAt]
  exact hz

/-! ### The range of zones (R49) -/

/-- A zone whose ceiling is changed to `v`: its budget is what R28 then gives, and the change is marked. -/
structure Env.CeilingSet (env : Env) (z : Nat) (v : Option Nat) (old new : ZoneRun) : Prop where
  value : new = { old with ceiling := v, budget := budgetOf (env.live.zoneAt z) env.watchOn { old with ceiling := v }, marks := new.marks }
  marked : new.marks.ceiling = true

theorem Work.zoneAt_rebudget_marks {z : Nat} (hz : z < Config.zones) (w : Work) : (w.rebudget env z).fld.zoneAt z =
    { w.fld.zoneAt z with
      budget := budgetOf (env.live.zoneAt z) env.watchOn (w.fld.zoneAt z), marks := ((w.rebudget env z).fld.zoneAt z).marks }
      ∧ ((w.fld.zoneAt z).marks.ceiling = true → ((w.rebudget env z).fld.zoneAt z).marks.ceiling = true) := by
  obtain ⟨m, hm⟩ := Work.zoneAt_rebudget_same (env := env) hz w
  refine ⟨by rw [hm], fun hc => ?_⟩
  unfold Work.rebudget
  dsimp only
  split
  · exact hc
  · exact w.ceilingsMarked_mark z { w.fld.zoneAt z with
      budget := budgetOf (env.live.zoneAt z) env.watchOn (w.fld.zoneAt z)
      marks := { (w.fld.zoneAt z).marks with budget := true } } id z hc

theorem Work.zoneAt_setCeiling_same {v : Option Nat} {z : Nat} (hz : z < Config.zones) {w : Work} (hv : (w.fld.zoneAt z).ceiling ≠ v) :
    env.CeilingSet z v (w.fld.zoneAt z) ((w.setCeiling env v z).fld.zoneAt z) := by
  unfold Work.setCeiling
  dsimp only
  rw [if_neg hv]
  obtain ⟨h1, h2⟩ := Work.zoneAt_rebudget_marks (env := env) hz
    (w.mark z { w.fld.zoneAt z with ceiling := v, marks := { (w.fld.zoneAt z).marks with ceiling := true } })
  rw [Work.zoneAt_mark, if_pos ⟨rfl, hz⟩] at h1 h2
  exact ⟨h1, h2 rfl⟩

theorem Work.setCeiling_of_eq {v : Option Nat} {z : Nat} {w : Work} (hv : (w.fld.zoneAt z).ceiling = v) : w.setCeiling env v z = w :=
  if_pos hv

theorem Work.zoneAt_setCeiling_other {v : Option Nat} {y z : Nat} (hy : y ≠ z) (w : Work) :
    (w.setCeiling env v y).fld.zoneAt z = w.fld.zoneAt z := by
  unfold Work.setCeiling
  dsimp only
  split
  · rfl
  · rw [Work.zoneAt_rebudget_other hy, Work.zoneAt_mark, if_neg fun c => hy c.1]

/-- What each zone reads after the ceilings of some are set. -/
theorem Work.zoneAt_foldl_setCeiling (v : Option Nat) {zs : List Nat} (hn : zs.Nodup) {z : Nat} (hz : z < Config.zones) (w : Work) :
    (z ∈ zs ∧ (w.fld.zoneAt z).ceiling ≠ v →
        env.CeilingSet z v (w.fld.zoneAt z) ((zs.foldl (fun (w : Work) z => w.setCeiling env v z) w).fld.zoneAt z))
      ∧ (¬ (z ∈ zs ∧ (w.fld.zoneAt z).ceiling ≠ v) →
        (zs.foldl (fun (w : Work) z => w.setCeiling env v z) w).fld.zoneAt z = w.fld.zoneAt z) := by
  induction zs generalizing w with
  | nil => exact ⟨fun h => absurd h.1 List.not_mem_nil, fun _ => rfl⟩
  | cons y zs ih =>
    obtain ⟨hy, hn⟩ := List.nodup_cons.1 hn
    obtain ⟨hin, hout⟩ := ih hn (w.setCeiling env v y)
    rw [List.foldl_cons]
    by_cases e : y = z
    · subst e
      have hout := hout fun c => hy c.1
      rw [hout]
      refine ⟨fun h => Work.zoneAt_setCeiling_same hz h.2, fun h => ?_⟩
      rw [Work.setCeiling_of_eq (not_not.1 fun c => h ⟨List.mem_cons_self, c⟩)]
    · rw [Work.zoneAt_setCeiling_other e] at hin hout
      have hm : z ∈ y :: zs ↔ z ∈ zs := by simp [Ne.symm e]
      rw [hm]
      exact ⟨hin, hout⟩

theorem Work.zoneAt_setCeilings (first last : Nat) (v : Option Nat) {z : Nat} (hz : z < Config.zones) (w : Work) :
    let changed := first ≤ z ∧ z ≤ last ∧ (w.fld.zoneAt z).ceiling ≠ v
    (changed → env.CeilingSet z v (w.fld.zoneAt z) ((w.setCeilings env first last v).1.fld.zoneAt z))
      ∧ (¬ changed → (w.setCeilings env first last v).1.fld.zoneAt z = w.fld.zoneAt z) := by
  intro changed
  have hm : (z ∈ List.range' first (last + 1 - first) ∧ (w.fld.zoneAt z).ceiling ≠ v) ↔ changed := by
    rw [List.mem_range'_1, show changed = (first ≤ z ∧ z ≤ last ∧ (w.fld.zoneAt z).ceiling ≠ v) from rfl, ← and_assoc (a := first ≤ z)]
    exact and_congr_left fun _ => by omega
  rw [← hm]
  exact Work.zoneAt_foldl_setCeiling v List.nodup_range' hz w

theorem Work.fld_mark (z : Nat) (v : ZoneRun) (w : Work) :
    (w.mark z v).fld = { w.fld with zone := (w.mark z v).fld.zone, reports := (w.mark z v).fld.reports } := by
  unfold Work.mark Work.report
  dsimp only
  rw [Field.queueReport_zone_eq]
  rfl

theorem Work.fld_setCeiling (v : Option Nat) (z : Nat) (w : Work) : (w.setCeiling env v z).fld =
    { w.fld with zone := (w.setCeiling env v z).fld.zone, reports := (w.setCeiling env v z).fld.reports } := by
  unfold Work.setCeiling
  dsimp only
  split
  · rfl
  · unfold Work.rebudget
    dsimp only
    split
    · exact Work.fld_mark _ _ _
    · exact (Work.fld_mark _ _ _).trans (by rw [Work.fld_mark z _ w]; rfl)

/-- Setting ceilings changes zones and reports alone. -/
theorem Work.fld_setCeilings (first last : Nat) (v : Option Nat) (w : Work) : ∃ tz tr,
    (w.setCeilings env first last v).1.fld = { w.fld with zone := tz, reports := tr } := by
  unfold Work.setCeilings
  dsimp only
  generalize List.range' first (last + 1 - first) = zs
  induction zs generalizing w with
  | nil => exact ⟨_, _, rfl⟩
  | cons z zs ih =>
    obtain ⟨tz, tr, h⟩ := ih (w.setCeiling env v z)
    refine ⟨tz, tr, ?_⟩
    rw [List.foldl_cons, h, Work.fld_setCeiling]

/-- The zones counted: those of the range whose ceiling differs (R49). -/
theorem Work.setCeilings_count {first last : Nat} (hl : last < 64) (v : Option Nat) (w : Work) :
    (w.setCeilings env first last v).2 =
      ((List.range 64).filter fun z => decide (first ≤ z ∧ z ≤ last ∧ (w.fld.zoneAt z).ceiling ≠ v)).length := by
  unfold Work.setCeilings
  dsimp only
  have hr : List.range' first (last + 1 - first) = (List.range 64).filter fun z => decide (first ≤ z ∧ z ≤ last) := by
    refine List.Perm.eq_of_pairwise (le := (· < ·)) (fun a b _ _ h1 h2 => absurd h1 (Nat.lt_asymm h2)) List.pairwise_lt_range'
      (List.Pairwise.filter _ List.pairwise_lt_range) ?_
    refine (List.perm_ext_iff_of_nodup List.nodup_range' (List.nodup_range.filter _)).2 fun z => ?_
    rw [List.mem_range'_1, List.mem_filter, List.mem_range, decide_eq_true_iff]
    omega
  rw [hr, List.filter_filter]
  refine congrArg List.length (List.filter_congr fun z _ => ?_)
  rw [Bool.eq_iff_iff]
  simp only [Bool.and_eq_true, bne_iff_ne, decide_eq_true_iff]
  tauto

/-! ### The order -/

theorem Field.RunsKept.congr {who : Nat → Prop} {f f' g : Field} (hf : ∀ j, f'.run j = f.run j) (h : f'.RunsKept who g) :
    f.RunsKept who g := by
  intro j hj hs
  rw [← hf j] at hs ⊢
  exact h j hj hs

theorem Field.ProgramsKept.congr {f f' g : Field} (ha : f'.arbiter = f.arbiter) (hs : ∀ k, f'.slotAt k = f.slotAt k)
    (h : f'.ProgramsKept g) : f.ProgramsKept g := by
  refine ⟨h.1.trans ha, fun k => ?_⟩
  rw [← hs k]
  exact h.2 k

theorem readCeiling_none {value : Tri} (h : 8388607 < value.toNat) (hne : value ≠ 0xFFFFFF#24) : readCeiling value.toNat = none := by
  have hc : value.toNat ≠ 0xFFFFFF := fun c => hne (BitVec.eq_of_toNat_eq c)
  have hm : ¬ value.toNat ≤ Config.maxLoad := Nat.not_le.2 h
  unfold readCeiling
  rw [if_neg hc, if_neg hm]

theorem readCeiling_some {value : Tri} {v : Option Nat}
    (h : (value = 0xFFFFFF#24 ∧ v = none) ∨ (value.toNat ≤ 8388607 ∧ v = some value.toNat)) : readCeiling value.toNat = some v := by
  unfold readCeiling
  rcases h with ⟨rfl, rfl⟩ | ⟨hle, rfl⟩
  · rfl
  · have hc : value.toNat ≠ 0xFFFFFF := by omega
    have hm : value.toNat ≤ Config.maxLoad := hle
    rw [if_neg hc, if_pos hm]

theorem State.setCeilingOrder_refused {s : State} {first last : Byte} {value : Tri}
    (h : 63 < last.toNat ∨ last.toNat < first.toNat ∨ (8388607 < value.toNat ∧ value ≠ 0xFFFFFF#24)) :
    s.setCeilingOrder first last value = (.plain .range, s) := by
  unfold State.setCeilingOrder
  split
  · rfl
  · next v hv =>
    refine if_neg fun hc => ?_
    simp only [Config.zones] at hc
    rcases h with h | h | ⟨h1, h2⟩
    · omega
    · omega
    · rw [readCeiling_none h1 h2] at hv
      cases hv

theorem State.setCeilingOrder_taken {s : State} {first last : Byte} {value : Tri} {v : Option Nat} (h1 : first.toNat ≤ last.toNat)
    (h2 : last.toNat ≤ 63) (hv : readCeiling value.toNat = some v) : s.setCeilingOrder first last value =
      (⟨.done, [byte ((Work.of s.field).setCeilings s.env first.toNat last.toNat v).2]⟩,
        (s.change (fun w => (w.setCeilings s.env first.toNat last.toNat v).1)).kick) := by
  unfold State.setCeilingOrder
  rw [hv]
  exact if_pos ⟨Nat.lt_succ_of_le h2, h1⟩

/-- A zone `old`, whose ceiling is set where that changes it, still so after tests that keep the FAU's inputs. -/
theorem ZoneRun.ceiling_kept {z : Nat} {v : Option Nat} {old mid new : ZoneRun} {changed : Prop} [Decidable changed]
    (hin : changed → env.CeilingSet z v old mid) (hout : ¬ changed → mid = old) (hkept : mid.SameInputs new)
    (hmark : mid.marks.ceiling = true → new.marks.ceiling = true) :
    new.ceiling = (if changed then v else old.ceiling)
      ∧ new.budget = (if changed then budgetOf (env.live.zoneAt z) env.watchOn { old with ceiling := v } else old.budget)
      ∧ (changed → new.marks.ceiling)
      ∧ new.lastReading = old.lastReading ∧ new.staleEnds = old.staleEnds ∧ new.warn = old.warn
      ∧ new.critical = old.critical ∧ new.stale = old.stale := by
  obtain ⟨hb, hc, hr, hse, hw, hcr, hst⟩ := hkept
  by_cases h : changed
  · obtain ⟨he, hmk⟩ := hin h
    rw [if_pos h, if_pos h]
    rw [he] at hb hc hr hse hw hcr hst
    exact ⟨hc, hb, fun _ => hmark hmk, hr, hse, hw, hcr, hst⟩
  · rw [if_neg h, if_neg h, ← hout h]
    exact ⟨hc, hb, fun c => absurd c h, hr, hse, hw, hcr, hst⟩

/-- What setting the ceilings of a range leaves of each zone at the end of the change. -/
theorem State.zoneAt_setCeilings (s : State) {first last : Nat} {v : Option Nat} {z : Nat} (hz : z < 64) :
    let old := s.field.zoneAt z
    let new := (s.change (fun w => (w.setCeilings s.env first last v).1)).kick.field.zoneAt z
    let changed := first ≤ z ∧ z ≤ last ∧ old.ceiling ≠ v
    new.ceiling = (if changed then v else old.ceiling)
      ∧ new.budget = (if changed then budgetOf (s.live.zoneAt z) s.watchOn { old with ceiling := v } else old.budget)
      ∧ (changed → new.marks.ceiling)
      ∧ new.lastReading = old.lastReading ∧ new.staleEnds = old.staleEnds ∧ new.warn = old.warn
      ∧ new.critical = old.critical ∧ new.stale = old.stale := by
  obtain ⟨-, hkept, -, -⟩ := s.changeKick_kept fun w => (w.setCeilings s.env first last v).1
  have hkept := hkept z
  have hmark := s.ceilingsMarked_changeKick (fun w => (w.setCeilings s.env first last v).1) z
  obtain ⟨hin, hout⟩ := (Work.of s.field).zoneAt_setCeilings (env := s.env) first last v hz
  generalize (s.change (fun w => (w.setCeilings s.env first last v).1)).kick.field.zoneAt z = new at hkept hmark ⊢
  exact ZoneRun.ceiling_kept (env := s.env) hin hout hkept hmark

/-- A SET CEILING that is not refused leaves the records but for what the FAU's tests and the SXEs do, and the programs (R49). -/
theorem State.kept_setCeilings (s : State) (first last : Nat) (v : Option Nat) :
    s.field.RunsKept (fun _ => True) (s.change (fun w => (w.setCeilings s.env first last v).1)).kick.field
      ∧ s.field.ProgramsKept (s.change (fun w => (w.setCeilings s.env first last v).1)).kick.field := by
  obtain ⟨hruns, -, hprograms, -⟩ := s.changeKick_kept fun w => (w.setCeilings s.env first last v).1
  obtain ⟨tz, tr, hf⟩ := (Work.of s.field).fld_setCeilings (env := s.env) first last v
  exact ⟨hruns.congr fun j => by rw [hf]; rfl,
    hprograms.congr (by rw [hf]; rfl) fun k => by rw [hf]; rfl⟩

/-- Settles O26: the range's zones are set one by one before the FAU's tests, which read the ceilings and leave them. -/
theorem setCeilingSetsTheRange : Obligations.SetCeilingSetsTheRange := by
  unfold Obligations.SetCeilingSetsTheRange
  intro s tag first last value hd _
  refine ⟨fun h => congrArg Host.Outcome.next (State.order_reads hd _ _ _ (State.setCeilingOrder_refused h)), fun h1 h2 v hv => ?_⟩
  have hr := State.setCeilingOrder_taken (s := s.popFrame) h1 h2 (readCeiling_some hv)
  rw [Work.setCeilings_count (by omega), State.changeKick_eq] at hr
  obtain ⟨hans, hfield⟩ := State.answeredWith_of hd tag 0x02#8 (State.setCeilingOrder first last value) hr
  refine ⟨s.order (.setCeiling tag first last value) tag 0x02#8 (State.setCeilingOrder first last value), rfl, hans,
    fun z hz => ?_, ?_⟩
  · have h := s.popFrame.zoneAt_setCeilings (first := first.toNat) (last := last.toNat) (v := v) hz
    rw [← hfield, State.popFrame_field, State.popFrame_live, State.popFrame_watchOn] at h
    exact h
  · rw [hfield]
    exact s.popFrame.kept_setCeilings first.toNat last.toNat v

end Sys2Proof.Machine
end

section
/-! PROOFS for flux admission: a granted AIM (R31 to R36). -/

namespace Sys2Proof.Machine

variable {env : Env}

/-! ### FAU's tests that find nothing (R44) -/

/-- A zone that is not OVER and whose unsecured load its budget covers, as its conditions say. -/
structure ZoneRun.Within (v : ZoneRun) : Prop where
  isOver : v.isOver = v.overBudget
  excess : v.inExcess = false
  shed : v.unsheddable = false

theorem Work.evalOver_within {w : Work} {z : Nat} (h : (w.fld.zoneAt z).Within) : w.evalOver z = w := if_pos h.isOver

theorem Work.shedTest_within {w : Work} {z : Nat} (h : (w.fld.zoneAt z).Within) :
    w.shedTest env z = { w with touched := w.touched.filter (· != z) } := by
  unfold Work.shedTest
  dsimp only
  rw [h.excess]
  have hset : w.setUnsheddable z (w.fld.zoneAt z).inExcess = w := if_pos (h.shed.trans h.excess.symm)
  simp only [Bool.false_eq_true, if_false, hset]

/-- Tests of zones that are all within their budgets change nothing. -/
theorem Work.settle_within (n : Nat) {w : Work} (h : ∀ z ∈ w.touched, (w.fld.zoneAt z).Within) (hn : w.touched.length ≤ n) :
    w.settle env n = { w with touched := [] } := by
  induction n generalizing w with
  | zero =>
    have ht := List.eq_nil_of_length_eq_zero (Nat.le_zero.1 hn)
    obtain ⟨f, t, o⟩ := w
    cases ht
    rfl
  | succ n ih =>
    cases ht : w.touched with
    | nil =>
      rw [Work.settle_nil env _ ht, ← ht]
    | cons z t =>
      rw [ht] at h hn
      have hz := h z List.mem_cons_self
      rw [Work.settle_cons ht]
      unfold Work.testFirst
      rw [Work.evalOver_within (w := { w with touched := t }) hz, Work.shedTest_within (w := { w with touched := t }) hz]
      refine ih (fun y hy => h y (List.mem_cons_of_mem _ (List.mem_filter.1 hy).1)) ?_
      exact (List.length_filter_le _ _).trans (Nat.le_of_succ_le_succ hn)

theorem Work.settleNow_within {w : Work} (h : ∀ z ∈ w.touched, (w.fld.zoneAt z).Within) :
    w.settleNow env = { w with touched := [] } := Work.settle_within _ h (by unfold Work.fuel; omega)

/-- An exact trip record stays exact while the conditions and what is accounted LOST stay. -/
theorem Field.TripOf.of_conditions {live : Tables} {f g : Field} (h : f.TripOf live) (hf : f.Canonical) (hg : g.Canonical)
    (hc : ∀ z, (g.zoneAt z).critical = (f.zoneAt z).critical) (hu : ∀ z, (g.zoneAt z).unsheddable = (f.zoneAt z).unsheddable)
    (ht : g.trip = f.trip) (hl : ∀ j, (g.run j).accountedLost = (f.run j).accountedLost) : g.TripOf live := by
  have critical_iff : ∀ {f : Field}, f.Canonical → (f.anyCritical = true ↔ ∃ z, (f.zoneAt z).critical = true) := fun hf =>
    Table.any_iff hf.2.1 (fun _ v => v.critical) fun _ => rfl
  have unsheddable_iff : ∀ {f : Field}, f.Canonical →
      (f.zone.any (fun p => p.2.unsheddable) = true ↔ ∃ z, (f.zoneAt z).unsheddable = true) := fun hf =>
    Table.any_iff hf.2.1 (fun _ v => v.unsheddable) fun _ => rfl
  have h1 : g.anyCritical = f.anyCritical := by
    rw [Bool.eq_iff_iff, critical_iff hg, critical_iff hf]
    simp only [hc]
  have h2 : g.anyNonCritical = f.anyNonCritical := by
    unfold Field.anyNonCritical
    rw [Bool.eq_iff_iff, Bool.or_eq_true, Bool.or_eq_true, unsheddable_iff hg, unsheddable_iff hf, Field.anyLost_iff hf,
      Field.anyLost_iff hg]
    simp only [hl, hu]
  unfold Field.TripOf at *
  rw [ht, h1, h2]
  exact h

/-! ### The record of a grant (R34, R35) -/

theorem HelioRun.Grantable.grantedBy_eq {a : Nat} {r : HelioRun} (h : r.Grantable a) (o : Origin) (c : Cause) : r.grantedBy a o c =
    { r with
      granted := some a, leaving := if r.state = .tracking then r.granted else none, state := .slewing
      motionCause := some c, accepted := false, busyCount := 0, queued := true, origin := some o
      reAim := r.state == .tracking, lastCause := some c } := by
  unfold HelioRun.grantedBy HelioRun.by
  refine if_pos ?_
  have hs : r.state ≠ .slewing := by
    rcases h.state with hs | hs | hs <;> rw [hs] <;> exact fun hc => HState.noConfusion hc
  simp [HelioRun.differs, hs]

theorem HelioRun.Grantable.granted {a : Nat} {r : HelioRun} (h : r.Grantable a) (o : Origin) (c : Cause) :
    (r.grantedBy a o c).granted = some a := by rw [h.grantedBy_eq]

theorem HelioRun.Grantable.not_lost {a : Nat} {r : HelioRun} (h : r.Grantable a) (o : Origin) (c : Cause) :
    (r.grantedBy a o c).state ≠ .lost := by
  rw [h.grantedBy_eq]
  exact fun hc => HState.noConfusion hc

/-- A grantable heliostat holds no leaving aim, and a granted one only TRACKING it. -/
theorem HelioRun.Grantable.aims {a : Nat} {r : HelioRun} (h : r.Grantable a) (hs : r.Sound) (o : Origin) (c : Cause) :
    (r.grantedBy a o c).aims = a :: r.aims ∧ a ∉ r.aims ∧ (r.aims ≠ [] → r.state = .tracking) := by
  have hleave : r.leaving = none := by
    cases hl : r.leaving with
    | none => rfl
    | some b =>
      have := (hs.2.1 (by simp [hl])).1
      rcases h.state with hs | hs | hs <;> rw [hs] at this <;> cases this
  have hrest : r.state ≠ .tracking → r.granted = none := fun hn =>
    (hs.no_aims (by rcases h.state with hs | hs | hs <;> simp_all [HelioRun.grantState])).1
  rw [h.grantedBy_eq]
  unfold HelioRun.aims
  rw [hleave, Option.toList_none, List.append_nil]
  by_cases ht : r.state = .tracking
  · rw [if_pos ht]
    exact ⟨rfl, fun hm => h.other ⟨ht, Option.mem_toList.1 hm⟩, fun _ => ht⟩
  · rw [if_neg ht, hrest ht]
    exact ⟨rfl, List.not_mem_nil, fun hc => absurd rfl hc⟩

theorem HelioRun.Grantable.not_pending {a : Nat} {r : HelioRun} (h : r.Grantable a) (o : Origin) (c : Cause) :
    r.isPending = false ∧ (r.grantedBy a o c).isPending = false := by
  have hs : r.state ≠ .returning := by
    rcases h.state with hs | hs | hs <;> rw [hs] <;> exact fun hc => HState.noConfusion hc
  rw [h.grantedBy_eq]
  unfold HelioRun.isPending
  simp [h.owed, hs]

/-- A footprint covers zones of the receiver alone (R182). -/
theorem Env.lt_of_aimCovers (hr : env.live.InRange) {a z : Nat} (hc : env.aimCovers a z = true) : z < Config.zones := by
  obtain ⟨p, hp, he⟩ := List.any_eq_true.1 hc
  have hok := hr.aim a
  simp only [footprintOk, Bool.and_eq_true, List.all_eq_true, decide_eq_true_eq] at hok
  exact eq_of_beq he ▸ (hok.1.1.2 p hp).1.1

theorem Env.contribution_outside (hr : env.live.InRange) {h a z : Nat} (hz : ¬ z < Config.zones) : env.contribution h a z = 0 :=
  Env.contribution_of_not_covers (eq_false_of_ne_true fun hc => hz (Env.lt_of_aimCovers hr hc))

/-- The committed load grows by the aim's contribution, and the pending load stays (R26, R27, R34). -/
theorem Field.zoneAt_granted (hr : env.live.InRange) {h a : Nat} {f : Field} (hg : (f.run h).Grantable a) (hs : (f.run h).Sound)
    (o : Origin) (c : Cause) (z : Nat) : (f.record env h ((f.run h).grantedBy a o c)).zoneAt z =
      { f.zoneAt z with committed := (f.zoneAt z).committed + env.contribution h a z } := by
  obtain ⟨haims, -, -⟩ := hg.aims hs o c
  obtain ⟨hp, hp'⟩ := hg.not_pending o c
  have hload : env.load h ((f.run h).grantedBy a o c) z = env.contribution h a z + env.load h (f.run h) z := by
    unfold Env.load
    rw [haims, List.map_cons, List.sum_cons]
  have hpl : env.pendingLoad h ((f.run h).grantedBy a o c) z = 0 ∧ env.pendingLoad h (f.run h) z = 0 := by
    unfold Env.pendingLoad
    simp [hp, hp']
  rw [Field.zoneAt_record]
  split
  · rw [hload, hpl.1, hpl.2, ← Nat.add_assoc, Nat.add_sub_cancel, Nat.add_zero, Nat.sub_zero]
  · next hz =>
    have h0 : env.contribution h a z = 0 := by
      by_cases hlt : z < Config.zones
      · have := (Env.load_of_not_moved (env := env) (h := h) fun hm => hz ⟨hm, hlt⟩).1
        omega
      · exact Env.contribution_outside hr hlt
    rw [h0]
    rfl

theorem Field.refAt_outside {f : Field} (hc : f.Canonical) {a : Nat} (ha : ¬ a < Config.aimPoints) : f.refAt a = 0 :=
  Table.get_outside hc.2.2.1 ha

/-- The reference count of the aim grows by one, and no other changes (R23, R34). -/
theorem Field.refAt_granted {h a : Nat} {o : Origin} {c : Cause} {f : Field} (ha : a < Config.aimPoints) (hc : f.Canonical)
    (hc' : (f.record env h ((f.run h).grantedBy a o c)).Canonical) (hg : (f.run h).Grantable a) (hs : (f.run h).Sound)
    (b : Nat) : (f.record env h ((f.run h).grantedBy a o c)).refAt b = f.refAt b + if b = a then 1 else 0 := by
  obtain ⟨haims, hn, -⟩ := hg.aims hs o c
  by_cases hb : b < Config.aimPoints
  · have h1 := Field.refAt_record env h ((f.run h).grantedBy a o c) f hs (hg.sound hs o c) b hb
    rw [haims] at h1
    by_cases hab : b = a
    · subst hab
      simpa [hn] using h1
    · by_cases hm : b ∈ (f.run h).aims
      · simpa [hab, hm] using h1
      · simpa [hab, hm] using h1
  · rw [Field.refAt_outside hc hb, Field.refAt_outside hc' hb, if_neg fun e : b = a => hb (by rw [e]; exact ha)]

/-! ### The grant -/

/-- Heliostat `h` has been granted aim `a` (R34 to R36): the field was `f` and is `g`. -/
structure Field.GrantMade (env : Env) (h a : Nat) (o : Origin) (c : Cause) (f g : Field) : Prop where
  run : g.run h = { (f.run h).grantedBy a o c with reportOwed := (g.run h).reportOwed }
  others : ∀ j, j ≠ h → g.run j = f.run j
  sxes : ∀ k, g.sxeAt k =
    { f.sxeAt k with queue := (f.sxeAt k).queue ++ if k = env.segmentOf h then [⟨h, a, o⟩] else [] }
  grants : g.grants = f.grants.filter (· != h) ++ [h]
  refs : ∀ b, g.refAt b = f.refAt b + if b = a then 1 else 0
  zones : ∀ z, g.zoneAt z = { f.zoneAt z with committed := (f.zoneAt z).committed + env.contribution h a z }
  kept : g.slot = f.slot ∧ g.arbiter = f.arbiter ∧ g.trip = f.trip
  reports : (f.queueReport (.helio h)).SameReports g

/-- The record and the accounts of a grant written, its entry the newest of the Grant List. -/
theorem Field.record_newest {h a : Nat} {f : Field} (r : HelioRun) (hr : r.granted = some a) (hl : r.state ≠ .lost) : ∃ tz tr,
    f.record env h r = { f with
      helio := Table.set Config.heliostats HelioRun.blank f.helio h r, zone := tz, refs := tr
      grants := if h ∈ f.grants then f.grants else f.grants ++ [h] } := by
  obtain ⟨tz, tr, he, -, -⟩ := Field.accountRecord_eq env h r f
  refine ⟨tz, tr, ?_⟩
  unfold Field.record
  dsimp only
  rw [if_neg fun hc => hl hc.1, he, hr]
  rfl

theorem Work.toNewest_write {h a : Nat} {w : Work} (hh : h < Config.heliostats) (r : HelioRun) (hr : r.granted = some a)
    (hl : r.state ≠ .lost) : ((w.write env h r).toNewest h).fld =
      { w.fld.record env h r with grants := w.fld.grants.filter (· != h) ++ [h] } := by
  obtain ⟨tz, tr, he⟩ := Field.record_newest (env := env) (f := w.fld) (h := h) r hr hl
  unfold Work.write
  rw [if_pos hh, he]
  unfold Work.toNewest
  dsimp only
  by_cases hm : h ∈ w.fld.grants
  · rw [if_pos hm, if_pos hm]
  · rw [if_neg hm, if_pos (by simp)]
    simp [List.filter_append]

theorem Work.fld_enqueue {e : Entry} {w : Work} (h : (w.fld.sxeAt (env.segmentOf e.helio)).queue.length < Config.moveQueue) :
    (w.enqueue env e).fld = w.fld.setSxe (env.segmentOf e.helio) { w.fld.sxeAt (env.segmentOf e.helio) with
      queue := (w.fld.sxeAt (env.segmentOf e.helio)).queue ++ [e] } := by
  unfold Work.enqueue
  dsimp only
  rw [if_pos h]

/-- The field of a grant before its HELIO EVENT is queued. -/
def Field.granting (env : Env) (h a : Nat) (o : Origin) (c : Cause) (f : Field) : Field :=
  ({ f.record env h ((f.run h).grantedBy a o c) with grants := f.grants.filter (· != h) ++ [h] } : Field).setSxe (env.segmentOf h)
    { f.sxeAt (env.segmentOf h) with queue := (f.sxeAt (env.segmentOf h)).queue ++ [⟨h, a, o⟩] }

theorem Work.fld_grant {h a : Nat} {w : Work} (hh : h < Config.heliostats) (hg : (w.fld.run h).Grantable a)
    (hroom : (w.fld.sxeAt (env.segmentOf h)).queue.length < Config.moveQueue) (o : Origin) (c : Cause) :
    (w.grant env h a o c).fld = (w.fld.granting env h a o c).queueReport (.helio h) := by
  have hw := Work.toNewest_write (env := env) (w := w) hh ((w.fld.run h).grantedBy a o c) (hg.granted o c)
    (hg.not_lost o c)
  have hsxe : ∀ k, ((w.write env h ((w.fld.run h).grantedBy a o c)).toNewest h).fld.sxeAt k = w.fld.sxeAt k := fun k => by
    rw [Work.sxeAt_toNewest, Work.sxeAt_write]
  rw [Work.grant_eq, show ∀ (w : Work) src, (w.report src).fld = w.fld.queueReport src from fun _ _ => rfl,
    Work.fld_enqueue (by rw [hsxe]; exact hroom), hsxe, hw]
  rfl

theorem Work.grant_made (hr : env.live.InRange) {h a : Nat} {w : Work} (hh : h < Config.heliostats) (ha : a < Config.aimPoints)
    (hseg : env.segmentOf h < Config.segments) (hgood : w.fld.Good env) (hg : (w.fld.run h).Grantable a)
    (hroom : (w.fld.sxeAt (env.segmentOf h)).queue.length < Config.moveQueue) (o : Origin) (c : Cause) :
    Field.GrantMade env h a o c w.fld (w.grant env h a o c).fld := by
  have hs := hgood.records h
  have hreach := (Work.steady_grant (env := env) o c hg).reach
  have hrec : (w.fld.record env h ((w.fld.run h).grantedBy a o c)).Canonical :=
    (Field.Prim.record env rfl h _ hh (fun hs => hg.sound hs o c) (hg.steady o c).reportOwed).canonical hgood.canonical
  have hrun : ∀ j, (w.fld.granting env h a o c).run j = if h = j ∧ h < Config.heliostats then (w.fld.run h).grantedBy a o c
      else w.fld.run j := Field.run_record env h _ w.fld
  obtain ⟨tz, tr, he⟩ := Field.record_newest (env := env) (f := w.fld) (h := h) ((w.fld.run h).grantedBy a o c) (hg.granted o c)
    (hg.not_lost o c)
  have hsxe : ∀ k, (w.fld.record env h ((w.fld.run h).grantedBy a o c)).sxeAt k = w.fld.sxeAt k := fun k => by
    rw [he]
    rfl
  rw [Work.fld_grant hh hg hroom]
  refine ⟨?_, fun j hj => ?_, fun k => ?_, ?_, fun b => ?_, fun z => ?_, ?_, ?_⟩
  · rw [Field.run_queueReport_eq, hrun, if_pos ⟨rfl, hh⟩]
  · rw [Field.run_queueReport_other _ hj.symm, hrun, if_neg fun c => hj c.1.symm]
  · have hk : (w.fld.granting env h a o c).sxeAt k = _ := Field.sxeAt_setSxe _ _ _ _
    rw [show ((w.fld.granting env h a o c).queueReport (.helio h)).sxeAt k = (w.fld.granting env h a o c).sxeAt k by
      unfold Field.sxeAt; rw [Field.queueReport_sxe], hk]
    by_cases e : env.segmentOf h = k
    · rw [if_pos ⟨e, hseg⟩, if_pos e.symm, e]
    · rw [if_neg fun c => e c.1, if_neg fun c => e c.symm, List.append_nil]
      exact hsxe k
  · rw [Field.queueReport_grants]
    rfl
  · unfold Field.refAt
    rw [Field.queueReport_refs]
    exact Field.refAt_granted ha hgood.canonical hrec hg hs b
  · rw [Field.zoneAt_queueReport]
    exact Field.zoneAt_granted hr hg hs o c z
  · rw [Field.queueReport_slot, Field.queueReport_arbiter, Field.queueReport_trip]
    unfold Field.granting
    rw [he]
    exact ⟨rfl, rfl, rfl⟩
  · have hrep : (w.fld.granting env h a o c).reports = w.fld.reports := Field.reports_record env h _ w.fld
    refine Field.SameReports.queueReport ⟨hrep, fun j => ?_⟩ _
    · rw [hrun]
      split
      · next hj => rw [← hj.1, hg.grantedBy_eq]
      · rfl

/-! ### The end of the change -/

/-- The aim brings no zone of its footprint above its budget (R33). -/
def Field.Fits (env : Env) (h a : Nat) (f : Field) : Prop :=
  ∀ p ∈ env.footprint a, (f.zoneAt p.1).committed + env.contribution h a p.1 ≤ (f.zoneAt p.1).budget

theorem Field.admitMotion_fits {h a : Nat} {f : Field} (hg : f.admitMotion env h a = .granted) : f.Fits env h a := by
  unfold Field.admitMotion at hg
  dsimp only at hg
  repeat' split at hg
  all_goals cases hg
  next hb _ => exact fun p hp => Nat.le_of_not_lt fun hc => List.find?_eq_none.1 hb p hp (decide_eq_true hc)

theorem Work.touched_grant {h a : Nat} (hh : h < Config.heliostats) (o : Origin) (c : Cause) (w : Work) :
    (w.grant env h a o c).touched = (env.zonesMoved (w.fld.run h) ((w.fld.run h).grantedBy a o c)).foldr insertZone w.touched := by
  have he : ∀ (e : Entry) (w : Work), (w.enqueue env e).touched = w.touched := fun e w => by
    unfold Work.enqueue
    dsimp only
    split <;> rfl
  have hn : ∀ w : Work, (w.toNewest h).touched = w.touched := fun w => by
    unfold Work.toNewest
    split <;> rfl
  rw [Work.grant_eq, show ∀ (w : Work) src, (w.report src).touched = w.touched from fun _ _ => rfl, he, hn]
  unfold Work.write
  rw [if_pos hh]

theorem Work.onset_grant {h a : Nat} {w : Work} (hg : (w.fld.run h).Grantable a) (o : Origin) (c : Cause) :
    (w.grant env h a o c).onset = w.onset := by
  have he : ∀ (e : Entry) (w : Work), (w.enqueue env e).onset = w.onset := fun e w => by
    unfold Work.enqueue
    dsimp only
    split <;> rfl
  have hn : ∀ w : Work, (w.toNewest h).onset = w.onset := fun w => by
    unfold Work.toNewest
    split <;> rfl
  rw [Work.grant_eq, show ∀ (w : Work) src, (w.report src).onset = w.onset from fun _ _ => rfl, he, hn]
  unfold Work.write
  split
  · have hl : ((w.fld.run h).grantedBy a o c).accountedLost = false := by
      unfold HelioRun.accountedLost
      rw [beq_false_of_ne (hg.not_lost o c), Bool.false_and]
    dsimp only
    rw [hl, Bool.false_and, Bool.or_false]
  · rfl

/-- A zone of the aim's footprint is within its budget after the grant (R33). -/
theorem ZoneRun.within_of_fits {v : ZoneRun} {n : Nat} (ho : v.overBudget = v.isOver) (hu : v.unsheddable = v.inExcess)
    (h : v.committed + n ≤ v.budget) : ({ v with committed := v.committed + n } : ZoneRun).Within := by
  refine ⟨?_, decide_eq_false (by dsimp only; omega), hu.trans (decide_eq_false (by omega))⟩
  rw [show ({ v with committed := v.committed + n } : ZoneRun).overBudget = v.overBudget from rfl, ho]
  exact (decide_eq_false (by dsimp only; omega)).trans (decide_eq_false (by omega)).symm

/-- No zone that a grant moves needs a test: those of the aim have room, and those of the leaving aim had no unsecured load above
their budgets, for the heliostat was a candidate of theirs (R33, R45). -/
theorem Field.GrantMade.within {h a : Nat} {o : Origin} {c : Cause} {f g : Field} (hm : Field.GrantMade env h a o c f g)
    (hg : (f.run h).Grantable a) (hs : (f.run h).Sound) (hfits : f.Fits env h a) (hz : ∀ z, f.ZoneSettled env z) {z : Nat}
    (hmoved : z ∈ env.zonesMoved (f.run h) ((f.run h).grantedBy a o c)) : (g.zoneAt z).Within := by
  obtain ⟨hover, hshed, hspent⟩ := hz z
  obtain ⟨haims, -, htrack⟩ := hg.aims hs o c
  rw [hm.zones]
  by_cases hc : env.aimCovers a z = true
  · obtain ⟨p, hp, he⟩ := List.any_eq_true.1 hc
    have hfit := hfits p hp
    rw [eq_of_beq he] at hfit
    exact ZoneRun.within_of_fits hover hshed hfit
  · rw [Env.contribution_of_not_covers (eq_false_of_ne_true hc)]
    have hx : (f.zoneAt z).inExcess = false := by
      refine eq_false_of_ne_true fun hx => ?_
      unfold Env.zonesMoved at hmoved
      split at hmoved
      · cases hmoved
      · obtain ⟨b, hb, hcov⟩ := (Env.mem_zonesOf env _ z).1 hmoved
        have hb : b ∈ (f.run h).aims := by
          rw [haims, List.mem_append, List.mem_cons] at hb
          rcases hb with hb | rfl | hb
          · exact hb
          · exact absurd hcov hc
          · exact hb
        have hcovers : env.covers (f.run h) z = true := List.any_eq_true.2 ⟨b, hb, hcov⟩
        have hsec := hspent hx h hcovers
        have hload := Env.covers_holdsLoad hcovers
        have ht := htrack (List.ne_nil_of_mem hb)
        simp [HelioRun.secured, hload, ht, hg.owed] at hsec
    exact ⟨hover.symm, hx, hshed.trans hx⟩

/-- The change of a grant ends with the grant alone: no zone is marked and the trip record stays. -/
theorem Work.finish_grant {h a : Nat} {o : Origin} {c : Cause} {w : Work} (hh : h < Config.heliostats)
    (hm : Field.GrantMade env h a o c w.fld (w.grant env h a o c).fld) (hgood : w.fld.Good env) (hg : (w.fld.run h).Grantable a)
    (hfits : w.fld.Fits env h a) (hz : ∀ z, w.fld.ZoneSettled env z) (ht : w.fld.TripOf env.live) (hn : w.touched = [])
    (ho : w.onset = false) : (w.grant env h a o c).finish env = (w.grant env h a o c).fld := by
  have hcan := ((Work.steady_grant (env := env) o c hg).reach.good hgood).canonical
  have htrip : (w.grant env h a o c).fld.TripOf env.live := by
    refine ht.of_conditions hgood.canonical hcan (fun z => by rw [hm.zones]) (fun z => by rw [hm.zones]) hm.kept.2.2 fun j => ?_
    by_cases hj : j = h
    · have hl : (w.fld.run h).state ≠ .lost := by
        rcases hg.state with hs | hs | hs <;> rw [hs] <;> exact fun hc => HState.noConfusion hc
      unfold HelioRun.accountedLost
      rw [hj, hm.run, beq_false_of_ne hl, beq_false_of_ne (hg.not_lost o c)]
      rfl
    · rw [hm.others j hj]
  have hsettle : (w.grant env h a o c).settleNow env = { w.grant env h a o c with touched := [] } := by
    refine Work.settleNow_within fun z hmem => ?_
    rw [Work.touched_grant hh, hn, mem_foldr_insertZone] at hmem
    exact hm.within hg (hgood.records h) hfits hz (hmem.resolve_right List.not_mem_nil)
  unfold Work.finish
  rw [hsettle, Work.evalTrip_exact (w := { w.grant env h a o c with touched := [] }) ((Work.onset_grant hg o c).trans ho) htrip]

/-! ### The order (R31) -/

theorem Field.judgeAim_granted {h a : Nat} {f : Field} (hj : f.judgeAim env h a = .granted) :
    (env.live.helioAt h).present = true ∧ f.admitMotion env h a = .granted := by
  unfold Field.judgeAim at hj
  split at hj
  · cases hj
  · next hp =>
    split at hj
    · cases hj
    · exact ⟨by simpa using hp, hj⟩

/-- An AIM that passes every check is granted, and the SXEs choose (R31, R60). -/
theorem State.aimOrder_granted {s : State} {tag : Byte} {helio : Half} {point : Byte} (hs : s.Sound) (hz : s.ZonesSettled)
    (ht : s.TripExact) (hr : s.live.InRange) (hj : s.aimJudgement helio.toNat point.toNat = none) : ∃ f g,
    s.aimOrder tag helio point = (⟨.done, [0#8]⟩, { s with field := g })
      ∧ Field.GrantMade s.env helio.toNat point.toNat (.order tag) .order s.field f ∧ f.ChoiceOnly g
      ∧ (s.field.run helio.toNat).Grantable point.toNat ∧ s.field.Fits s.env helio.toNat point.toNat := by
  have hgranted := Admission.refusal_eq_none ((State.aimJudgement_eq s _ _).symm.trans hj)
  obtain ⟨hp, hadmit⟩ := Field.judgeAim_granted hgranted
  have hg := Field.admitMotion_grantable hadmit
  have hfits := Field.admitMotion_fits hadmit
  have hh := Tables.lt_of_present hs.canonical.2.1 hp
  have hm := Work.grant_made (env := s.env) (w := Work.of s.field) hr hh point.isLt (Tables.segment_lt hr hp) hs.good hg
    (Field.admitMotion_room hadmit) (.order tag) .order
  have hfin := Work.finish_grant (env := s.env) (w := Work.of s.field) hh hm hs.good hg hfits ((State.zonesSettled_iff hs.good).1 hz) ht rfl rfl
  have hchoice := State.choiceOnly_kick (s.change fun w => w.grant s.env helio.toNat point.toNat (.order tag) .order)
  rw [show (s.change fun w => w.grant s.env helio.toNat point.toNat (.order tag) .order).field = _ from hfin] at hchoice
  refine ⟨_, _, ?_, hm, hchoice, hg, hfits⟩
  unfold State.aimOrder
  dsimp only
  rw [hgranted, if_pos rfl, ← State.changeKick_eq]
  rfl

theorem Field.ChoiceOnly.begun {f g : Field} (h : f.ChoiceOnly g) {j : Nat} (hq : (f.run j).queued = true) :
    (g.run j).queued = true ∨ (g.run j).inFlight = true := by
  rcases h.runs j with e | ⟨e, -⟩
  · rw [e]
    exact Or.inl hq
  · rw [e]
    exact Or.inr rfl

theorem Field.ChoiceOnly.queue {f g : Field} (h : f.ChoiceOnly g) (k : Nat) :
    (g.sxeAt k).queue = (f.sxeAt k).queue ∨ (g.sxeAt k).queue = (f.sxeAt k).queue.tail := by
  rcases h.sxes k with e | ⟨-, -, e, -⟩
  · exact Or.inl (by rw [e])
  · exact e

/-- Settles O28: the grant is made, its zones need no test, and the SXEs then choose. -/
theorem aimGrantCommitsTheLoad : Obligations.AimGrantCommitsTheLoad := by
  unfold Obligations.AimGrantCommitsTheLoad
  intro s tag helio point hd hs hz ht hr hj h a r
  obtain ⟨f, g, horder, hm, hch, hg, hfits⟩ := State.aimOrder_granted (s := s.popFrame) (tag := tag)
    ((State.steps_popFrame s).sound hs) ⟨hz.isOver, hz.unsheddable, hz.spent⟩ ht hr hj
  obtain ⟨hans, hfield⟩ := State.answeredWith_of hd tag 0x01#8 (State.aimOrder tag helio point) horder
  obtain ⟨hrun, hothers, hsxes, hgrants, hrefs, hzones, ⟨hslot, harbiter, htrip⟩, hreports⟩ := hm
  rw [hg.grantedBy_eq] at hrun
  have hqueued : (f.run h).queued = true := by rw [hrun]
  refine ⟨s.order (.aim tag helio point) tag 0x01#8 (State.aimOrder tag helio point), rfl, hans, ?_⟩
  rw [hfield]
  refine ⟨?_, hch.begun hqueued, fun j hj => ?_, fun k => ?_, ?_, fun b => ?_, fun z => ?_, fun p hp => ?_, ?_, ?_, ?_, ?_, f, hch,
    hreports.reports, hqueued, hothers, hsxes⟩
  · rw [hch.run_eq, hrun]
    rfl
  · rw [hch.run_eq, hothers j hj]
    rfl
  · have h1 := hch.queue k
    rw [hsxes] at h1
    exact h1
  · rw [hch.grants]
    exact hgrants
  · rw [hch.refAt]
    exact hrefs b
  · rw [hch.zoneAt]
    exact hzones z
  · rw [hch.zoneAt, hzones]
    exact hfits p hp
  · rw [hch.slot]
    exact hslot
  · rw [hch.arbiter]
    exact harbiter
  · rw [hch.trip]
    exact htrip
  · rw [hch.run_eq]
    exact hreports.owed h

end Sys2Proof.Machine
end

section
/-! PROOFS for flux admission: what a status makes of a record and of the Grant List (R43, R76 to R80): a heliostat that it does not adopt
weighs no more on any zone than before. -/

namespace Sys2Proof.Machine

variable {s : State} {f : Field} {r0 r r' : HelioRun} {e : Edit}

/-! ### Records that weigh no more -/

/-- The record `r'` brings no zone load that `r` did not bring, and none that is unsecured or not pending where it was so (R26, R27, R45). -/
structure HelioRun.Eases (r r' : HelioRun) : Prop where
  aims : r'.aims.Sublist r.aims
  secured : r.secured = true → r'.secured = true
  pending : r.isPending = true → r'.holdsLoad = true → r'.isPending = true

theorem HelioRun.Eases.refl (r : HelioRun) : r.Eases r := ⟨.refl _, id, fun h _ => h⟩

theorem HelioRun.holdsLoad_iff_aims (r : HelioRun) : r.holdsLoad = true ↔ r.aims ≠ [] := by
  unfold HelioRun.holdsLoad HelioRun.aims
  cases r.granted <;> cases r.leaving <;> simp

theorem HelioRun.Eases.trans {r1 r2 r3 : HelioRun} (h1 : r1.Eases r2) (h2 : r2.Eases r3) : r1.Eases r3 := by
  refine ⟨h2.aims.trans h1.aims, fun hs => h2.secured (h1.secured hs), fun hp hl => h2.pending (h1.pending hp ?_) hl⟩
  rw [HelioRun.holdsLoad_iff_aims] at hl ⊢
  exact fun hn => hl (List.sublist_nil.1 (hn ▸ h2.aims))

theorem HelioRun.by_aims (c : Option Cause) (old new : HelioRun) : (old.by c new).aims = new.aims := by
  obtain ⟨x, h⟩ := HelioRun.by_cause c old new
  rw [h]
  rfl

theorem HelioRun.by_granted (c : Option Cause) (old new : HelioRun) : (old.by c new).granted = new.granted := by
  obtain ⟨x, h⟩ := HelioRun.by_cause c old new
  rw [h]

theorem HelioRun.Eases.by (h : r.Eases r') (c : Option Cause) (old : HelioRun) : r.Eases (old.by c r') := by
  obtain ⟨x, e⟩ := HelioRun.by_cause c old r'
  rw [e]
  exact ⟨h.aims, h.secured, h.pending⟩

theorem HelioRun.Eases.of_unloaded (hg : r'.granted = none) (hl : r'.leaving = none) : r.Eases r' := by
  have hn : r'.holdsLoad = false := by simp [HelioRun.holdsLoad, hg, hl]
  refine ⟨?_, fun _ => by simp [HelioRun.secured, hn], fun _ h => by rw [hn] at h; cases h⟩
  rw [show r'.aims = [] by simp [HelioRun.aims, hg, hl]]
  exact List.nil_sublist _

/-- A record with the same owed motion, in a state that shelters no less, and with aims that it had. -/
theorem HelioRun.Eases.of_same (ha : r'.aims.Sublist r.aims) (ho : r'.owed = r.owed) (hs : r.state = .slewing ∨ r'.state = r.state)
    (hr : r'.released = true → r.released = true ∨ r.state = .slewing) : r.Eases r' := by
  refine ⟨ha, fun h => ?_, fun h hl => ?_⟩
  · by_cases hl : r'.holdsLoad = true
    · have : r.holdsLoad = true := by
        rw [HelioRun.holdsLoad_iff_aims] at hl ⊢
        exact fun hn => hl (List.sublist_nil.1 (hn ▸ ha))
      rcases hs with hs | hs <;> simp_all [HelioRun.secured]
    · simp [HelioRun.secured, hl]
  · rcases hs with hs | hs
    · simp_all [HelioRun.isPending]
    · unfold HelioRun.isPending at h ⊢
      rw [hl, hs, ho]
      cases hx : r'.released
      · cases hy : r.released <;> simp_all
      · rcases hr hx with hx' | hx' <;> simp_all

theorem HelioRun.eases_owing (c : Cause) (r : HelioRun) : r.Eases (r.owing c) := by
  unfold HelioRun.owing
  have hset : r.Eases { r with owed := some ⟨.defocus, c⟩, busyCount := 0 } :=
    ⟨.refl _, fun _ => rfl, fun _ hl => by simpa [HelioRun.isPending] using hl⟩
  split
  · exact .refl r
  · exact hset
  · exact hset

theorem HelioRun.eases_arrived (hs : r.state = .slewing) : r.Eases r.arrived := by
  refine .of_same ?_ rfl (Or.inl hs) (fun h => Or.inr hs)
  unfold HelioRun.arrived HelioRun.stopped HelioRun.aims
  simp

theorem HelioRun.eases_dropLeaving (r : HelioRun) : r.Eases { r with leaving := none } := by
  refine .of_same ?_ rfl (Or.inr rfl) Or.inl
  unfold HelioRun.aims
  simp

theorem HelioRun.eases_underWay (now limit : Nat) (r : HelioRun) : r.Eases (r.underWay now limit) :=
  .of_same (.refl _) rfl (Or.inr rfl) Or.inl

/-- A Move Queue entry is of a record whose load is neither secured nor pending. -/
theorem HelioRun.Good.bare_of_queued (h : r.Good) (hq : r.queued = true) : r.secured = false ∧ r.isPending = false := by
  obtain ⟨hs, -, ho⟩ := h.sound.2.2.2.2.2.2.2 hq
  have hl : r.holdsLoad = true := by
    rw [h.sound.holdsLoad_eq, h.sound.1]
    simp [HelioRun.grantState, hs]
  simp [HelioRun.secured, HelioRun.isPending, hs, ho, hl]

theorem HelioRun.aims_grantUndone (r : HelioRun) : r.grantUndone.aims = r.leaving.toList := by
  unfold HelioRun.grantUndone HelioRun.aims
  cases r.leaving <;> rfl

theorem HelioRun.eases_of_queued (h : r.Good) (hq : r.queued = true) (ha : r'.aims.Sublist r.aims) : r.Eases r' := by
  obtain ⟨h1, h2⟩ := h.bare_of_queued hq
  exact ⟨ha, fun c => absurd (h1.symm.trans c) Bool.false_ne_true, fun c => absurd (h2.symm.trans c) Bool.false_ne_true⟩

theorem HelioRun.eases_grantUndone (h : r.Good) (hq : r.queued = true) : r.Eases r.grantUndone := by
  refine HelioRun.eases_of_queued h hq ?_
  rw [HelioRun.aims_grantUndone]
  exact List.sublist_append_right _ _

theorem HelioRun.eases_sentOff (h : r.Good) (c : Cause) : r.Eases (r.sentOff c) := by
  unfold HelioRun.sentOff
  refine HelioRun.Eases.by ?_ _ _
  split
  · next hq =>
    have hu := HelioRun.eases_grantUndone h hq
    split
    · exact hu.trans (HelioRun.eases_owing c _)
    · exact hu
  · split
    · next hs =>
      refine ⟨.refl _, fun _ => by simp [HelioRun.secured, hs], fun hp hl => ?_⟩
      have hg := h.sound.1
      have hl : r.holdsLoad = true := hl
      rw [← h.sound.holdsLoad_eq, hl] at hg
      have hr : r.released = false := by simpa [HelioRun.grantState, hs] using hg
      unfold HelioRun.isPending
      rw [show ({ r with owed := none, busyCount := 0 } : HelioRun).holdsLoad = r.holdsLoad from rfl, hl]
      simp [hs, hr]
    · exact HelioRun.eases_owing c r

/-! ### Outcomes that are traced back to their record -/

/-- An outcome traced back to the record `r0` it began with: it eases the record or has adopted the heliostat onto another aim (R43), and
a queued grant is there still, unless its revocation is noted (R120). -/
structure Edit.Traced (r0 : HelioRun) (e : Edit) : Prop where
  good : e.r.Good
  stays : e.requeue = false
  eases : e.newest = false → r0.Eases e.r
  adopted : e.newest = true → e.r.state = .tracking ∧ ∀ a ∈ r0.aims, e.r.granted ≠ some a
  queued : e.r.queued = true → r0.queued = true
  revoked : r0.queued = true →
    (e.revoked = r0.granted.map (fun a => (a, false)) ∧ e.r.queued = false) ∨ (e.revoked = none ∧ e.r.granted = r0.granted)

/-- The queued grant that the outcome began with is no longer there: none was, or its revocation is noted. -/
def Edit.Loose (r0 : HelioRun) (e : Edit) : Prop :=
  r0.queued = true → e.revoked = r0.granted.map (fun a => (a, false)) ∧ e.r.queued = false

theorem Edit.Traced.start (h : r.Good) : (Edit.of r).Traced r := ⟨h, rfl, fun _ => .refl r, nofun, id, fun _ => Or.inr ⟨rfl, rfl⟩⟩

/-- A change of the record that notes no revocation and no adoption. -/
theorem Edit.Traced.changed {e' : Edit} (h : e.Traced r0) (hsame : e'.requeue = e.requeue ∧ e'.newest = e.newest ∧ e'.revoked = e.revoked)
    (hg : e'.r.Good) (he : e.r.Eases e'.r) (hn : e.newest = true → e'.r.state = .tracking ∧ e'.r.granted = e.r.granted)
    (hk : e.Loose r0 ∨ e'.r.granted = e.r.granted) (hq : e.r.queued = false → e'.r.queued = false) : e'.Traced r0 := by
  obtain ⟨h1, h2, h3⟩ := hsame
  refine ⟨hg, h1.trans h.stays, fun hf => (h.eases (h2.symm.trans hf)).trans he, fun ht => ?_, fun hc => h.queued ?_, fun hr => ?_⟩
  · obtain ⟨hs, hgr⟩ := hn (h2.symm.trans ht)
    exact ⟨hs, fun a ha => by rw [hgr]; exact (h.adopted (h2.symm.trans ht)).2 a ha⟩
  · by_contra hf
    rw [hq (by simpa using hf)] at hc
    cases hc
  · rw [h3]
    rcases hk with hk | hk
    · exact Or.inl ⟨(hk hr).1, hq (hk hr).2⟩
    · rcases h.revoked hr with ⟨hv, hu⟩ | ⟨hv, hu⟩
      · exact Or.inl ⟨hv, hq hu⟩
      · exact Or.inr ⟨hv, hk.trans hu⟩

/-- A change given by its closed form. -/
theorem Edit.Traced.set {c : Option Cause} {x new : HelioRun} (h : e.Traced r0) (hx : (e.set c x).r = e.r.by c new ∧ (e.r.by c new).Good)
    (he : e.r.Eases new) (hn : e.newest = true → new.state = .tracking ∧ new.granted = e.r.granted)
    (hk : e.Loose r0 ∨ new.granted = e.r.granted) (hq : e.r.queued = false → new.queued = false) : (e.set c x).Traced r0 := by
  obtain ⟨hr, hg⟩ := hx
  refine h.changed ⟨rfl, rfl, rfl⟩ (hr ▸ hg) ?_ ?_ ?_ ?_ <;> rw [hr]
  · exact he.by c e.r
  · rw [HelioRun.by_state, HelioRun.by_granted]
    exact hn
  · rw [HelioRun.by_granted]
    exact hk
  · rw [HelioRun.by_queued]
    exact hq

/-- A change of a record that no adoption has made. -/
theorem Edit.Traced.setFirst {c : Option Cause} {x new : HelioRun} (h : e.Traced r0) (hn : e.newest = false)
    (hx : (e.set c x).r = e.r.by c new ∧ (e.r.by c new).Good) (he : e.r.Eases new) (hk : e.Loose r0 ∨ new.granted = e.r.granted)
    (hq : e.r.queued = false → new.queued = false) : (e.set c x).Traced r0 :=
  h.set hx he (fun ht => absurd (hn.symm.trans ht) Bool.noConfusion) hk hq

theorem Edit.Traced.atRest (h : e.Traced r0) (hn : e.newest = false) (hk : e.Loose r0) (c : Option Cause) (p : Rest) :
    (e.set c (e.r.atRest p)).Traced r0 :=
  h.setFirst hn (Edit.atRest_eq h.good c p) (.of_unloaded rfl rfl) (Or.inl hk) fun _ => rfl

/-- A record without a granted aim is of an outcome whose queued grant is gone. -/
theorem Edit.Traced.loose (h : e.Traced r0) (h0 : r0.Sound) (hg : e.r.granted = none) : e.Loose r0 := fun hq => by
  refine (h.revoked hq).resolve_right fun ⟨_, hc⟩ => ?_
  have := h0.1
  rw [← hc, hg] at this
  simp [HelioRun.grantState, (h0.2.2.2.2.2.2.2 hq).1] at this

/-- The granted aim of a queued heliostat is the one that the outcome began with. -/
theorem Edit.Traced.granted_of_queued (h : e.Traced r0) (hq : e.r.queued = true) : e.r.granted = r0.granted :=
  ((h.revoked (h.queued hq)).resolve_left fun hc => absurd (hq.symm.trans hc.2) Bool.noConfusion).2

/-- The revocation of the queued grant, with what else is made of the record (R37, R38, R120). -/
theorem Edit.Traced.withdrawn {e' : Edit} (h : e.Traced r0) (hn : e.newest = false) (hq : e.r.queued = true)
    (hsame : e'.requeue = e.requeue ∧ e'.newest = e.newest ∧ e'.revoked = e.r.granted.map (fun a => (a, false)))
    (hg : e'.r.Good) (he : e.r.Eases e'.r) (hu : e'.r.queued = false) : e'.Traced r0 ∧ e'.Loose r0 := by
  obtain ⟨h1, h2, h3⟩ := hsame
  rw [h.granted_of_queued hq] at h3
  refine ⟨⟨hg, h1.trans h.stays, fun _ => (h.eases hn).trans he, fun ht => ?_, fun _ => h.queued hq, fun _ => Or.inl ⟨h3, hu⟩⟩,
    fun _ => ⟨h3, hu⟩⟩
  rw [h2, hn] at ht
  cases ht

theorem HelioRun.queued_grantUndone (r : HelioRun) : r.grantUndone.queued = false := by
  unfold HelioRun.grantUndone
  split <;> rfl

theorem Edit.Traced.revoke (h : e.Traced r0) (hn : e.newest = false) (hq : e.r.queued = true) :
    (e.revoke .driveLeft).Traced r0 ∧ (e.revoke .driveLeft).Loose r0 := by
  obtain ⟨h1, h2⟩ := h.good.grantUndone
  have hr : (e.revoke .driveLeft).r = e.r.by (some .driveLeft) e.r.grantUndone := by
    unfold Edit.revoke
    rw [← h1]
  refine h.withdrawn hn hq ⟨rfl, rfl, rfl⟩ (hr ▸ h2.by _) ?_ ?_ <;> rw [hr]
  · exact (HelioRun.eases_grantUndone h.good hq).by _ _
  · rw [HelioRun.by_queued]
    exact HelioRun.queued_grantUndone _

/-- The move of the grant is under way, or has arrived (R41, R68, R78). -/
theorem Edit.Traced.takeUp (h : e.Traced r0) (hn : e.newest = false) (hs : e.r.state = .slewing) : (e.takeUp s.env).Traced r0 :=
  h.changed ⟨rfl, rfl, rfl⟩ (h.good.underWay hs s.env.now s.env.live.slewLimit) (HelioRun.eases_underWay _ _ _)
    (fun ht => absurd (hn.symm.trans ht) Bool.noConfusion) (Or.inr rfl) fun _ => rfl

theorem Edit.Traced.arriveOnAim (h : e.Traced r0) (hn : e.newest = false) (hs : e.r.state = .slewing) : e.arriveOnAim.Traced r0 :=
  h.setFirst hn (Edit.arriveOnAim_eq h.good hs) (HelioRun.eases_arrived hs) (Or.inr rfl) fun _ => rfl

theorem Edit.Traced.dropLeaving (h : e.Traced r0) (hn : e.newest = false) (c : Option Cause) :
    (e.set c { e.r with leaving := none }).Traced r0 :=
  h.setFirst hn (Edit.set_good c h.good.dropLeaving) (HelioRun.eases_dropLeaving _) (Or.inr rfl) id

theorem HelioRun.owing_fields (c : Cause) (r : HelioRun) :
    (r.owing c).state = r.state ∧ (r.owing c).granted = r.granted ∧ (r.owing c).queued = r.queued := by
  unfold HelioRun.owing
  split <;> exact ⟨rfl, rfl, rfl⟩

/-- A DEFOCUS owed, a Move Queue entry being withdrawn (R11, R12). -/
theorem Edit.Traced.owe (h : e.Traced r0)
    (hs : e.r.state = .slewing ∨ e.r.state = .tracking ∨ e.r.state = .lost ∨ e.r.state = .returning) (c : Cause) :
    (e.owe .defocus c c).Traced r0 := by
  obtain ⟨hr, hg⟩ := Edit.owe_eq h.good hs c
  have he := HelioRun.eases_sentOff h.good c
  by_cases hq : e.r.queued = true
  · have hn : e.newest = false := by
      by_contra hn
      have hst := (h.adopted (by simpa using hn)).1
      rw [(h.good.sound.2.2.2.2.2.2.2 hq).1] at hst
      cases hst
    have hsame : (e.owe .defocus c c).requeue = e.requeue ∧ (e.owe .defocus c c).newest = e.newest
        ∧ (e.owe .defocus c c).revoked = e.r.granted.map (fun a => (a, false)) := by
      unfold Edit.owe
      rw [if_pos hq]
      exact ⟨rfl, rfl, rfl⟩
    refine (h.withdrawn hn hq hsame (hr ▸ hg) (hr ▸ he) ?_).1
    rw [hr]
    unfold HelioRun.sentOff
    rw [if_pos hq, HelioRun.by_queued]
    split
    · rw [(HelioRun.owing_fields _ _).2.2]
      exact HelioRun.queued_grantUndone _
    · exact HelioRun.queued_grantUndone _
  · have hsame : (e.owe .defocus c c).requeue = e.requeue ∧ (e.owe .defocus c c).newest = e.newest
        ∧ (e.owe .defocus c c).revoked = e.revoked := by
      unfold Edit.owe
      rw [if_neg hq]
      exact ⟨rfl, rfl, rfl⟩
    have hf : (e.r.sentOff c).state = e.r.state ∧ (e.r.sentOff c).granted = e.r.granted ∧ (e.r.sentOff c).queued = e.r.queued := by
      unfold HelioRun.sentOff
      rw [if_neg hq, HelioRun.by_state, HelioRun.by_granted, HelioRun.by_queued]
      split
      · exact ⟨rfl, rfl, rfl⟩
      · exact HelioRun.owing_fields c e.r
    rw [← hr] at hf
    exact h.changed hsame (hr ▸ hg) (hr ▸ he) (fun ht => ⟨hf.1.trans (h.adopted ht).1, hf.2.1⟩) (Or.inr hf.2.1) fun _ => by
      rw [hf.2.2]
      simpa using hq

/-! ### The position classes (R77 to R80) -/

/-- A heliostat found on an aim that it did not hold is adopted (R43). -/
theorem Edit.Traced.adopt (hf : ∀ z, (f.zoneAt z).critical = (s.field.zoneAt z).critical) (h : e.Traced r0) (hk : e.Loose r0) {a : Nat}
    (ha : a ∉ r0.aims) : (e.adopt s.env f a).Traced r0 := by
  obtain ⟨hr, hg⟩ := Edit.adopt_eq hf h.good a
  have hform : (s.adoptedBy a e.r).state = .tracking ∧ (s.adoptedBy a e.r).granted = some a ∧ (s.adoptedBy a e.r).queued = false := by
    unfold State.adoptedBy
    rw [HelioRun.by_state, HelioRun.by_granted, HelioRun.by_queued]
    split
    · exact HelioRun.owing_fields _ _
    · exact ⟨rfl, rfl, rfl⟩
  rw [← hr] at hform hg
  refine ⟨hg, h.stays, nofun, fun _ => ⟨hform.1, fun b hb hc => ha ?_⟩, fun hq => ?_, fun hq => Or.inl ⟨(hk hq).1, hform.2.2⟩⟩
  · rw [hform.2.1] at hc
    exact Option.some.inj hc ▸ hb
  · rw [hform.2.2] at hq
    cases hq

theorem Edit.Traced.foundOnAim (hf : ∀ z, (f.zoneAt z).critical = (s.field.zoneAt z).critical) (h : e.Traced r0) (hn : e.newest = false)
    (hk : e.Loose r0) {a : Nat} (ha : a ∉ r0.aims) : (e.foundOnAim s.env f a).Traced r0 := by
  have hx := Edit.foundOnAim_eq hf h.good a
  unfold Edit.foundOnAim State.foundOn at *
  split
  · exact h.adopt hf hk ha
  · next hp =>
    rw [if_neg hp, if_neg (show ¬ (s.live.aimAt a).present = true from hp)] at hx
    exact h.setFirst hn hx ((HelioRun.Eases.of_unloaded rfl rfl).trans (HelioRun.eases_owing _ _)) (Or.inl hk) fun _ =>
      (HelioRun.owing_fields _ _).2.2

theorem Edit.Traced.toUnsure (h : e.Traced r0) (hn : e.newest = false) (hs : e.r.state = .silent ∨ e.r.state = .standby
    ∨ e.r.state = .stowed ∨ e.r.state = .unsure) (c : Option Cause) : (e.set c { e.r with state := .unsure }).Traced r0 := by
  have hg : e.r.granted = none ∧ e.r.leaving = none :=
    h.good.sound.no_aims (by rcases hs with hs | hs | hs | hs <;> simp [HelioRun.grantState, hs])
  exact h.setFirst hn (Edit.set_good c (h.good.toUnsure hs)) (.of_unloaded hg.1 hg.2) (Or.inr rfl) id

theorem Edit.Traced.positionAtRest (hf : ∀ z, (f.zoneAt z).critical = (s.field.zoneAt z).critical) (h : e.Traced r0)
    (hn : e.newest = false) (hk : e.Loose r0) {p : Position} (hp : ∀ a, p = .onAim a → a ∉ r0.aims) :
    (e.positionAtRest s.env f p).Traced r0 := by
  unfold Edit.positionAtRest
  split
  · next hs => exact h.toUnsure hn (Or.inl hs) _
  · cases p with
    | onAim a =>
      dsimp only
      split
      · exact h.adopt hf hk (hp a rfl)
      · exact h
    | _ => exact h
  · cases p with
    | onAim a => exact h.foundOnAim hf hn hk (hp a rfl)
    | moving _ _ _ => exact h
    | clear => exact h
    | atStandby => exact h.atRest hn hk _ _
    | stowed => exact h.atRest hn hk _ _
  · next hs =>
    cases p with
    | onAim a => exact h.foundOnAim hf hn hk (hp a rfl)
    | moving _ _ _ => exact h.toUnsure hn (Or.inr (Or.inl hs)) _
    | clear => exact h.toUnsure hn (Or.inr (Or.inl hs)) _
    | atStandby => exact h.atRest hn hk _ _
    | stowed => exact h.atRest hn hk _ _
  · next hs =>
    cases p with
    | onAim a => exact h.foundOnAim hf hn hk (hp a rfl)
    | moving _ _ _ => exact h.toUnsure hn (Or.inr (Or.inr (Or.inl hs))) _
    | clear => exact h.toUnsure hn (Or.inr (Or.inr (Or.inl hs))) _
    | atStandby => exact h.atRest hn hk _ _
    | stowed => exact h.atRest hn hk _ _
  all_goals exact h

theorem Edit.Traced.driveLeft (h : e.Traced r0) (hs : e.r.state = .slewing ∨ e.r.state = .tracking) :
    (e.owe .defocus .driveLeft .driveLeft).Traced r0 := h.owe (hs.imp id Or.inl) .driveLeft

theorem Edit.Traced.positionTracking (h : e.Traced r0) (hn : e.newest = false) (hk : e.Loose r0) (hs : e.r.state = .tracking)
    (p : Position) : (e.positionTracking p).Traced r0 := by
  unfold Edit.positionTracking
  cases p with
  | onAim a =>
    dsimp only
    split
    · exact h
    · exact h.driveLeft (Or.inr hs)
  | moving _ _ _ =>
    dsimp only
    split
    · exact h
    · exact h.driveLeft (Or.inr hs)
  | _ => exact h.atRest hn hk _ _

theorem Edit.Traced.positionSlewing (h : e.Traced r0) (hn : e.newest = false) (hk : e.Loose r0) (hs : e.r.state = .slewing)
    (p : Position) : (e.positionSlewing p).Traced r0 := by
  unfold Edit.positionSlewing
  cases p with
  | onAim a =>
    dsimp only
    split
    · exact h.arriveOnAim hn hs
    · split
      · exact h
      · exact h.driveLeft (Or.inl hs)
  | moving _ _ _ =>
    dsimp only
    split
    · exact h
    · exact h.driveLeft (Or.inl hs)
  | clear => exact h.dropLeaving hn _
  | atStandby => exact h.atRest hn hk _ _
  | stowed => exact h.atRest hn hk _ _

theorem Edit.Traced.unexpected (hf : ∀ z, (f.zoneAt z).critical = (s.field.zoneAt z).critical) (h : e.Traced r0) (hn : e.newest = false)
    (hs : e.r.state = .slewing) {p : Position} (hp : ∀ a, p = .onAim a → a ∉ r0.aims) : (e.unexpected s.env f p).Traced r0 := by
  unfold Edit.unexpected
  split
  · next hq =>
    obtain ⟨h1, hk⟩ := h.revoke hn hq
    dsimp only
    split
    · next ht => exact h1.positionTracking hn hk ht p
    · exact h1.positionAtRest hf hn hk hp
  · exact h.driveLeft (Or.inl hs)

theorem Edit.Traced.positionUnaccepted (hf : ∀ z, (f.zoneAt z).critical = (s.field.zoneAt z).critical) (h : e.Traced r0)
    (hn : e.newest = false) (hs : e.r.state = .slewing) (ha : r0.aims = e.r.aims) (p : Position) :
    (e.positionUnaccepted s.env f p).Traced r0 := by
  unfold Edit.positionUnaccepted
  cases p with
  | onAim a =>
    dsimp only
    split
    · exact (h.takeUp hn hs).arriveOnAim hn hs
    · next hg =>
      split
      · exact h
      · next hl =>
        refine h.unexpected hf hn hs fun b hb hm => ?_
        cases hb
        rw [ha, HelioRun.aims, List.mem_append, Option.mem_toList, Option.mem_toList] at hm
        exact hm.elim hg hl
  | moving _ _ _ =>
    dsimp only
    split
    · exact h.takeUp hn hs
    · exact h.unexpected hf hn hs nofun
  | clear => exact h.dropLeaving hn _
  | atStandby =>
    dsimp only
    split
    · exact h
    · exact h.unexpected hf hn hs nofun
  | stowed =>
    dsimp only
    split
    · exact h
    · exact h.unexpected hf hn hs nofun

theorem HelioRun.Good.no_aims (h : r.Good) (hg : r.grantState = false) : r.aims = [] := by
  obtain ⟨h1, h2⟩ := h.sound.no_aims hg
  simp [HelioRun.aims, h1, h2]

theorem Edit.Traced.positionReturning (hf : ∀ z, (f.zoneAt z).critical = (s.field.zoneAt z).critical) (h : e.Traced r0)
    (hn : e.newest = false) (hk : e.Loose r0) (hs : e.r.state = .returning) (ha : r0.aims = e.r.aims) (p : Position) :
    (e.positionReturning s.env f p).Traced r0 := by
  unfold Edit.positionReturning
  cases p with
  | onAim a =>
    dsimp only
    split
    · next hr =>
      refine h.foundOnAim hf hn hk ?_
      rw [ha, h.good.no_aims (by simp [HelioRun.grantState, hs, hr])]
      exact List.not_mem_nil
    · exact h
  | moving _ _ _ => exact h
  | clear =>
    dsimp only
    split
    · exact h
    · exact h.setFirst hn (Edit.set_good _ (h.good.released hs)) (.of_unloaded rfl rfl) (Or.inl hk) id
  | atStandby => exact h.atRest hn hk _ _
  | stowed => exact h.atRest hn hk _ _

theorem Edit.Traced.positionLost (hf : ∀ z, (f.zoneAt z).critical = (s.field.zoneAt z).critical) (h : e.Traced r0)
    (hn : e.newest = false) (hk : e.Loose r0) (hs : e.r.state = .lost) (ha : r0.aims = e.r.aims) (p : Position) :
    (e.positionLost s.env f p).Traced r0 := by
  have hclear := Edit.positionLost_eq hf h.good hs .clear
  unfold Edit.positionLost at hclear ⊢
  cases p with
  | onAim a =>
    dsimp only
    split
    · next hr =>
      refine h.adopt hf hk ?_
      rw [ha, h.good.no_aims (by simp [HelioRun.grantState, hs, hr.1])]
      exact List.not_mem_nil
    · exact h.owe (Or.inr (Or.inr (Or.inl hs))) _
  | moving _ _ _ => exact h
  | clear =>
    exact h.setFirst hn hclear (.of_unloaded rfl rfl) (Or.inl hk) fun _ => rfl
  | atStandby => exact h.atRest hn hk _ _
  | stowed => exact h.atRest hn hk _ _

/-- The position class applied to the record that the flags have left (R77 to R80). -/
theorem Edit.Traced.positionByState (hf : ∀ z, (f.zoneAt z).critical = (s.field.zoneAt z).critical) (hr : r.Good) (p : Position) :
    ((Edit.of r).positionByState s.env f p).Traced r := by
  have h := Edit.Traced.start hr
  have hk : r.state ≠ .slewing ∨ r.accepted = true → (Edit.of r).Loose r := fun hs hq => by
    obtain ⟨h1, h2, -⟩ := hr.sound.2.2.2.2.2.2.2 hq
    rcases hs with hs | hs
    · exact absurd h1 hs
    · rw [h2] at hs
      cases hs
  have hrest : r.state ≠ .slewing → r.grantState = false → ∀ a, p = .onAim a → a ∉ r.aims := fun _ hg a _ => by
    rw [hr.no_aims hg]
    exact List.not_mem_nil
  unfold Edit.positionByState
  rw [show (Edit.of r).r = r from rfl]
  cases hs : r.state <;> dsimp only
  case slewing =>
    split
    · next ha => exact h.positionSlewing rfl (hk (Or.inr ha)) hs p
    · exact h.positionUnaccepted hf rfl hs rfl p
  case tracking => exact h.positionTracking rfl (hk (Or.inl (by simp [hs]))) hs p
  case returning => exact h.positionReturning hf rfl (hk (Or.inl (by simp [hs]))) hs rfl p
  case lost => exact h.positionLost hf rfl (hk (Or.inl (by simp [hs]))) hs rfl p
  case absent => exact h
  all_goals exact h.positionAtRest hf rfl (hk (Or.inl (by simp [hs]))) (hrest (by simp [hs]) (by simp [HelioRun.grantState, hs]))

/-! ### The three steps of R76 -/

theorem Edit.Traced.faultAtRest (h : e.Traced r0) (h0 : r0.Sound) (before : HelioRun) : (e.faultAtRest before).Traced r0 := by
  have hx := Edit.faultAtRest_eq h.good before
  rw [← hx.1] at hx
  have hgood := hx.2
  unfold Edit.faultAtRest at hgood ⊢
  split
  · next hc =>
    rw [if_pos hc] at hgood
    obtain ⟨hg, hl⟩ := h.good.sound.no_aims (by rcases hc.1 with hs | hs <;> simp [HelioRun.grantState, hs])
    refine h.changed ⟨rfl, rfl, rfl⟩ hgood (.of_unloaded hg hl) (fun ht => ?_) (Or.inl (h.loose h0 hg)) id
    rcases hc.1 with hs | hs <;> exact absurd ((h.adopted ht).1.symm.trans hs) HState.noConfusion
  · exact h

theorem HelioRun.Good.state_of_holdsLoad (h : r.Good) (hl : r.holdsLoad = true) :
    r.state = .slewing ∨ r.state = .tracking ∨ r.state = .lost ∨ r.state = .returning := by
  have hg := h.sound.1
  rw [← h.sound.holdsLoad_eq, hl] at hg
  revert hg
  unfold HelioRun.grantState
  cases r.state <;> simp

theorem Edit.Traced.failNow (h : e.Traced r0) (h0 : r0.Sound) (c : Cause) : (e.failNow c c).Traced r0 := by
  have h1 : (if e.r.holdsLoad then e.owe .defocus c c else e).Traced r0 := by
    split
    · next hl => exact h.owe (h.good.state_of_holdsLoad hl) c
    · exact h
  unfold Edit.failNow
  dsimp only
  generalize (if e.r.holdsLoad then e.owe .defocus c c else e) = e1 at h1 ⊢
  split
  · exact h1
  · next hc =>
    rw [not_or, Bool.not_eq_true] at hc
    have hn : e1.r.granted = none ∧ e1.r.leaving = none := by
      have := hc.1
      unfold HelioRun.holdsLoad at this
      simpa using this
    have hform : ({ e1.r.clearOwed with state := .faulted } : HelioRun).tidy.nothingRemains = e1.r.faultedOff := by
      simp [HelioRun.tidy, HelioRun.nothingRemains, HelioRun.faultedOff, HelioRun.stopped, HelioRun.clearOwed, hn]
    refine h1.set (Edit.set_form _ ⟨hform, h1.good.faultedOff e1.r.rest⟩) (.of_unloaded rfl rfl) (fun ht => ?_)
      (Or.inl (h1.loose h0 hn.1)) fun _ => rfl
    have hs := h1.good.sound.1
    rw [hn.1] at hs
    simp [HelioRun.grantState, (h1.adopted ht).1] at hs

theorem Edit.Traced.statusConsequences (h : e.Traced r0) (h0 : r0.Sound) (st : Status) : (e.statusConsequences st).Traced r0 := by
  have h1 : (e.failBy st).Traced r0 := by
    unfold Edit.failBy
    split
    · exact h.failNow h0 _
    · split
      · exact h.failNow h0 _
      · exact h
  unfold Edit.statusConsequences
  dsimp only
  split
  · next hc =>
    simp only [Bool.and_eq_true, Bool.or_eq_true, beq_iff_eq] at hc
    exact h1.owe (hc.2.imp id Or.inl) _
  · exact h1

theorem Edit.statusFlags_of (st : Status) (r : HelioRun) : ∃ r1, (Edit.of r).statusFlags st = Edit.of r1 := by
  have hset : ∀ (c : Option Cause) (new r : HelioRun), ∃ r1, (Edit.of r).set c new = Edit.of r1 := fun _ _ _ => ⟨_, rfl⟩
  have hl : ∀ (b : Bool) (r : HelioRun), ∃ r1, (Edit.of r).noteLocal b = Edit.of r1 := fun b r => by
    unfold Edit.noteLocal
    split
    · exact ⟨r, rfl⟩
    · exact hset _ _ _
  have hf : ∀ (b : Bool) (x : FaultCause) (r : HelioRun), ∃ r1, (Edit.of r).noteFault b x = Edit.of r1 := fun b x r => by
    unfold Edit.noteFault
    split
    · exact hset _ _ _
    · exact ⟨r, rfl⟩
  unfold Edit.statusFlags
  obtain ⟨r1, h1⟩ := hl st.localControl r
  obtain ⟨r2, h2⟩ := hf st.fault (.driveFault (some st.code)) r1
  obtain ⟨r3, h3⟩ := hf st.localControl .localControl r2
  exact ⟨r3, by rw [h1, h2, h3]⟩

/-- The outcome of a status, traced back to the record that its flags have left (R76). -/
theorem Edit.traced_status (hf : ∀ z, (f.zoneAt z).critical = (s.field.zoneAt z).critical) (hr : r.Good) (st : Status) :
    ((Edit.of r).status s.env f st).Traced (r.flagged st) := by
  obtain ⟨r1, h1⟩ := Edit.statusFlags_of st r
  have h2 := Edit.statusFlags_eq (e := Edit.of r) hr st
  rw [h1] at h2
  obtain ⟨he, hg⟩ := h2
  have he : r1 = r.flagged st := he
  subst he
  unfold Edit.status Edit.position
  rw [h1]
  exact ((Edit.Traced.positionByState hf hg st.position).faultAtRest hg.sound _).statusConsequences hg.sound st

end Sys2Proof.Machine
end

section
/-! PROOFS for flux admission: the marks that the end of an exchange leaves on a record are no part of what a status makes of it (R56,
R76). -/

namespace Sys2Proof.Machine

variable {s : State} {r : HelioRun}

/-- The record that the end of an exchange with a good answer leaves (R56, R57). -/
def HelioRun.stamped (now : Nat) (r : HelioRun) : HelioRun :=
  { r with inFlight := false, lastExchange := some now, silentCount := 0 }

section Stamped
variable (n : Nat) (r : HelioRun)

@[simp] theorem HelioRun.stamped_state : (r.stamped n).state = r.state := rfl
@[simp] theorem HelioRun.stamped_granted : (r.stamped n).granted = r.granted := rfl
@[simp] theorem HelioRun.stamped_leaving : (r.stamped n).leaving = r.leaving := rfl
@[simp] theorem HelioRun.stamped_owed : (r.stamped n).owed = r.owed := rfl
@[simp] theorem HelioRun.stamped_queued : (r.stamped n).queued = r.queued := rfl
@[simp] theorem HelioRun.stamped_accepted : (r.stamped n).accepted = r.accepted := rfl
@[simp] theorem HelioRun.stamped_released : (r.stamped n).released = r.released := rfl
@[simp] theorem HelioRun.stamped_unaccounted : (r.stamped n).unaccounted = r.unaccounted := rfl
@[simp] theorem HelioRun.stamped_motionCause : (r.stamped n).motionCause = r.motionCause := rfl
@[simp] theorem HelioRun.stamped_fault : (r.stamped n).fault = r.fault := rfl
@[simp] theorem HelioRun.stamped_rest : (r.stamped n).rest = r.rest := rfl
@[simp] theorem HelioRun.stamped_reAim : (r.stamped n).reAim = r.reAim := rfl
@[simp] theorem HelioRun.stamped_faultOr (c : Cause) : (r.stamped n).faultOr c = r.faultOr c := rfl
@[simp] theorem HelioRun.stamped_holdsLoad : (r.stamped n).holdsLoad = r.holdsLoad := rfl

@[simp] theorem HelioRun.by_stamped (c : Option Cause) (new : HelioRun) : (r.stamped n).by c (new.stamped n) = (r.by c new).stamped n := by
  unfold HelioRun.by
  rw [show (r.stamped n).differs (new.stamped n) = r.differs new from rfl]
  split <;> rfl

@[simp] theorem HelioRun.owing_stamped (c : Cause) : (r.stamped n).owing c = (r.owing c).stamped n := by
  obtain ⟨x, hx⟩ : ∃ x, r.owed = x := ⟨_, rfl⟩
  unfold HelioRun.owing
  rw [HelioRun.stamped_owed, hx]
  rcases x with - | ⟨m, c'⟩
  · rfl
  · cases m <;> rfl

@[simp] theorem HelioRun.grantUndone_stamped : (r.stamped n).grantUndone = r.grantUndone.stamped n := by
  unfold HelioRun.grantUndone
  rw [HelioRun.stamped_leaving]
  cases r.leaving <;> rfl

@[simp] theorem HelioRun.sentOff_stamped (c : Cause) : (r.stamped n).sentOff c = (r.sentOff c).stamped n := by
  have he : ({ r.stamped n with owed := none, busyCount := 0 } : HelioRun) = ({ r with owed := none, busyCount := 0 } : HelioRun).stamped n :=
    rfl
  unfold HelioRun.sentOff
  rw [he, ← HelioRun.by_stamped]
  simp only [HelioRun.stamped_queued, HelioRun.stamped_leaving, HelioRun.stamped_state, HelioRun.grantUndone_stamped,
    HelioRun.owing_stamped, ← apply_ite (HelioRun.stamped n)]

/-- A change whose new record takes the marks over. -/
theorem HelioRun.by_of_stamped (c : Option Cause) {x new : HelioRun} (h : x = new.stamped n) :
    (r.stamped n).by c x = (r.by c new).stamped n := by rw [h, HelioRun.by_stamped]

theorem HelioRun.flagged_stamped (st : Status) : (r.stamped n).flagged st = (r.flagged st).stamped n := by
  have hl := r.by_of_stamped n (some (if st.localControl then .localControl else .recovered))
    (x := { r.stamped n with localControl := st.localControl }) (new := { r with localControl := st.localControl }) rfl
  unfold HelioRun.flagged
  rw [hl]
  generalize r.by (some (if st.localControl then .localControl else .recovered)) { r with localControl := st.localControl } = r1
  dsimp only
  rw [HelioRun.stamped_fault]
  split
  · rfl
  · split
    · exact HelioRun.by_of_stamped n r1 _ rfl
    · split
      · exact HelioRun.by_of_stamped n r1 _ rfl
      · rfl

@[simp] theorem HelioRun.placedTracking_stamped (p : Position) : (r.stamped n).placedTracking p = (r.placedTracking p).stamped n := by
  unfold HelioRun.placedTracking
  cases p with
  | onAim a => simp only [HelioRun.stamped_granted, HelioRun.owing_stamped, HelioRun.by_stamped, ← apply_ite (HelioRun.stamped n)]
  | moving u v b => simp only [HelioRun.stamped_granted, HelioRun.owing_stamped, HelioRun.by_stamped, ← apply_ite (HelioRun.stamped n)]
  | _ => exact HelioRun.by_of_stamped n r _ rfl

theorem HelioRun.placedSlewing_stamped (p : Position) : (r.stamped n).placedSlewing p = (r.placedSlewing p).stamped n := by
  have harr := HelioRun.by_of_stamped n r r.motionCause (x := (r.stamped n).arrived) (new := r.arrived) rfl
  unfold HelioRun.placedSlewing
  cases p with
  | onAim a =>
    simp only [HelioRun.stamped_granted, HelioRun.stamped_leaving, HelioRun.stamped_motionCause, harr, HelioRun.owing_stamped,
      HelioRun.by_stamped, ← apply_ite (HelioRun.stamped n)]
  | moving u v b => simp only [HelioRun.stamped_granted, HelioRun.owing_stamped, HelioRun.by_stamped, ← apply_ite (HelioRun.stamped n)]
  | _ => exact HelioRun.by_of_stamped n r _ rfl

@[simp] theorem State.adoptedBy_stamped (a : Nat) : s.adoptedBy a (r.stamped n) = (s.adoptedBy a r).stamped n := by
  unfold State.adoptedBy
  rw [show s.adoptionOwes a (r.stamped n) = s.adoptionOwes a r from rfl]
  refine HelioRun.by_of_stamped n r _ ?_
  cases s.adoptionOwes a r with
  | none => rfl
  | some c => exact HelioRun.owing_stamped n (r.adoptedOn a) c

@[simp] theorem State.foundOn_stamped (a : Nat) : s.foundOn a (r.stamped n) = (s.foundOn a r).stamped n := by
  unfold State.foundOn
  split
  · exact State.adoptedBy_stamped n r a
  · exact HelioRun.by_of_stamped n r _ (HelioRun.owing_stamped n r.lostOff _)

@[simp] theorem State.placedAtRest_stamped (p : Position) : s.placedAtRest p (r.stamped n) = (s.placedAtRest p r).stamped n := by
  unfold State.placedAtRest
  rw [HelioRun.stamped_state]
  cases r.state with
  | silent => exact HelioRun.by_of_stamped n r _ rfl
  | faulted =>
    cases p with
    | onAim a => simp only [State.adoptedBy_stamped, ← apply_ite (HelioRun.stamped n)]
    | _ => rfl
  | unsure =>
    cases p with
    | onAim a => exact State.foundOn_stamped n r a
    | _ => exact HelioRun.by_of_stamped n r _ rfl
  | standby =>
    cases p with
    | onAim a => exact State.foundOn_stamped n r a
    | _ => exact HelioRun.by_of_stamped n r _ rfl
  | stowed =>
    cases p with
    | onAim a => exact State.foundOn_stamped n r a
    | _ => exact HelioRun.by_of_stamped n r _ rfl
  | _ => rfl

@[simp] theorem State.placedOff_stamped (p : Position) : s.placedOff p (r.stamped n) = (s.placedOff p r).stamped n := by
  unfold State.placedOff
  simp only [HelioRun.stamped_queued, HelioRun.grantUndone_stamped, HelioRun.by_stamped, HelioRun.stamped_state,
    HelioRun.placedTracking_stamped, State.placedAtRest_stamped, HelioRun.owing_stamped, ← apply_ite (HelioRun.stamped n)]

theorem State.placedUnaccepted_stamped (p : Position) : s.placedUnaccepted p (r.stamped n) = (s.placedUnaccepted p r).stamped n := by
  have hu : (r.stamped n).underWay s.now s.live.slewLimit = (r.underWay s.now s.live.slewLimit).stamped n := rfl
  have harr := HelioRun.by_of_stamped n (r.underWay s.now s.live.slewLimit) r.motionCause
    (x := ((r.underWay s.now s.live.slewLimit).stamped n).arrived) (new := (r.underWay s.now s.live.slewLimit).arrived) rfl
  unfold State.placedUnaccepted
  rw [hu]
  cases p with
  | clear => exact HelioRun.by_of_stamped n r _ rfl
  | _ => simp only [HelioRun.stamped_granted, HelioRun.stamped_leaving, HelioRun.stamped_motionCause, HelioRun.stamped_reAim,
      HelioRun.stamped_rest, harr, State.placedOff_stamped, ← apply_ite (HelioRun.stamped n)]

theorem State.placedReturning_stamped (p : Position) : s.placedReturning p (r.stamped n) = (s.placedReturning p r).stamped n := by
  unfold State.placedReturning
  cases p with
  | onAim a => simp only [HelioRun.stamped_released, State.foundOn_stamped, ← apply_ite (HelioRun.stamped n)]
  | moving u v b => rfl
  | clear =>
    dsimp only
    rw [HelioRun.stamped_released]
    split
    · rfl
    · exact HelioRun.by_of_stamped n r _ rfl
  | _ => exact HelioRun.by_of_stamped n r _ rfl

theorem State.placedLost_stamped (p : Position) : s.placedLost p (r.stamped n) = (s.placedLost p r).stamped n := by
  unfold State.placedLost
  cases p with
  | onAim a => simp only [HelioRun.stamped_unaccounted, HelioRun.stamped_faultOr, HelioRun.owing_stamped, HelioRun.by_stamped,
      State.adoptedBy_stamped, ← apply_ite (HelioRun.stamped n)]
  | moving u v b => rfl
  | _ => exact HelioRun.by_of_stamped n r _ rfl

theorem State.placed_stamped (p : Position) : s.placed p (r.stamped n) = (s.placed p r).stamped n := by
  unfold State.placed
  rw [HelioRun.stamped_state]
  cases r.state with
  | slewing => simp only [HelioRun.stamped_accepted, HelioRun.placedSlewing_stamped, State.placedUnaccepted_stamped,
      ← apply_ite (HelioRun.stamped n)]
  | tracking => exact HelioRun.placedTracking_stamped n r p
  | returning => exact State.placedReturning_stamped n r p
  | lost => exact State.placedLost_stamped n r p
  | _ => exact State.placedAtRest_stamped n r p

theorem HelioRun.faultedAtRest_stamped (before : HelioRun) :
    (r.stamped n).faultedAtRest (before.stamped n) = (r.faultedAtRest before).stamped n := by
  unfold HelioRun.faultedAtRest
  by_cases hc : (r.state = .standby ∨ r.state = .stowed) ∧ r.state ≠ before.state ∧ r.fault.isSome
  · rw [if_pos hc]
    exact if_pos hc
  · rw [if_neg hc]
    exact if_neg hc

@[simp] theorem HelioRun.faultedOff_stamped : (r.stamped n).faultedOff = r.faultedOff.stamped n := rfl

@[simp] theorem HelioRun.failedBy_stamped (c : Cause) : (r.stamped n).failedBy c = (r.failedBy c).stamped n := by
  unfold HelioRun.failedBy
  simp only [HelioRun.stamped_holdsLoad, HelioRun.sentOff_stamped, HelioRun.stamped_state, HelioRun.faultedOff_stamped,
    HelioRun.by_stamped, ← apply_ite (HelioRun.stamped n)]

theorem HelioRun.failedAsSaid_stamped (st : Status) : (r.stamped n).failedAsSaid st = (r.failedAsSaid st).stamped n := by
  unfold HelioRun.failedAsSaid
  simp only [HelioRun.failedBy_stamped, ← apply_ite (HelioRun.stamped n), HelioRun.stamped_state, HelioRun.sentOff_stamped]

/-- The three steps of R76 take the marks over. -/
theorem State.statused_stamped (st : Status) : s.statused st (r.stamped n) = (s.statused st r).stamped n := by
  unfold State.statused
  dsimp only
  rw [HelioRun.flagged_stamped, State.placed_stamped, HelioRun.faultedAtRest_stamped, HelioRun.failedAsSaid_stamped]

end Stamped

theorem HelioRun.Good.stamped (h : r.Good) (n : Nat) : (r.stamped n).Good := by
  obtain ⟨h1, h2, h3, h4, h5, h6, h7, h8⟩ := h.tidy
  exact ⟨h.sound.other rfl rfl rfl rfl rfl rfl rfl rfl rfl rfl, ⟨h1, h2, h3, h4, h5, h6, h7, Nat.zero_le _, h8.2⟩⟩

end Sys2Proof.Machine
end

section
/-! PROOFS for flux admission: the FAU's tests after an answer (R43 to R47). Where no heliostat is exposed in a zone in excess they only mark
zones; where the newest heliostat of the Grant List alone brings the excess, the walk takes it and no other. -/

namespace Sys2Proof.Machine

variable {env : Env} {f g k : Field} {h j : Nat} {r : HelioRun}

/-! ### Marks of zones -/

/-- The field `g` is `f` but for marks of zones, the trip record and reports. -/
structure Field.Marked (f g : Field) : Prop where
  runs : ∀ j, g.run j = { f.run j with reportOwed := (g.run j).reportOwed }
  inputs : ∀ z, (f.zoneAt z).SameInputs (g.zoneAt z)
  loads : ∀ z, (g.zoneAt z).committed = (f.zoneAt z).committed ∧ (g.zoneAt z).pending = (f.zoneAt z).pending
  others : g = { f with helio := g.helio, zone := g.zone, trip := g.trip, reports := g.reports }

theorem Field.Marked.refl (f : Field) : f.Marked f := ⟨fun _ => rfl, fun _ => .refl _, fun _ => ⟨rfl, rfl⟩, rfl⟩

theorem Field.Marked.trans (h1 : f.Marked g) (h2 : g.Marked k) : f.Marked k := by
  refine ⟨fun j => ?_, fun z => (h1.inputs z).trans (h2.inputs z), fun z => ?_, ?_⟩
  · have e1 := h1.runs j
    have e2 := h2.runs j
    rw [e1] at e2
    exact e2
  · exact ⟨(h2.loads z).1.trans (h1.loads z).1, (h2.loads z).2.trans (h1.loads z).2⟩
  · have e2 := h2.others
    rw [h1.others] at e2
    exact e2

theorem Field.queueReport_others (f : Field) (src : Source) : f.queueReport src =
    { f with helio := (f.queueReport src).helio, reports := (f.queueReport src).reports } := by
  unfold Field.queueReport
  split
  · rfl
  · split
    · rfl
    · split
      · rfl
      · cases src <;> rfl

theorem Field.marked_queueReport (f : Field) (src : Source) : f.Marked (f.queueReport src) := by
  refine ⟨Field.run_queueReport_eq f src, fun z => ?_, fun z => ?_, ?_⟩
  · rw [Field.zoneAt_queueReport]
    exact .refl _
  · rw [Field.zoneAt_queueReport]
    exact ⟨rfl, rfl⟩
  · have h1 := Field.queueReport_others f src
    rw [h1]

theorem Work.marked_mark {z : Nat} {v : ZoneRun} {w : Work} (hv : (w.fld.zoneAt z).SameInputs v)
    (hl : v.committed = (w.fld.zoneAt z).committed ∧ v.pending = (w.fld.zoneAt z).pending) : w.fld.Marked (w.mark z v).fld := by
  refine Field.Marked.trans (g := w.fld.setZone z v) ⟨fun _ => rfl, fun y => ?_, fun y => ?_, rfl⟩ (Field.marked_queueReport _ _)
  · rw [Field.zoneAt_setZone]
    split
    · next hy => exact hy.1 ▸ hv
    · exact .refl _
  · rw [Field.zoneAt_setZone]
    split
    · next hy => exact hy.1 ▸ hl
    · exact ⟨rfl, rfl⟩

theorem Work.marked_evalOver (z : Nat) (w : Work) : w.fld.Marked (w.evalOver z).fld := by
  unfold Work.evalOver
  dsimp only
  split
  · exact .refl _
  · exact Work.marked_mark ⟨rfl, rfl, rfl, rfl, rfl, rfl, rfl⟩ ⟨rfl, rfl⟩

theorem Work.marked_setUnsheddable (z : Nat) (b : Bool) (w : Work) : w.fld.Marked (w.setUnsheddable z b).fld := by
  unfold Work.setUnsheddable
  dsimp only
  split
  · exact .refl _
  · exact Work.marked_mark (v := { w.fld.zoneAt z with unsheddable := b, marks := { (w.fld.zoneAt z).marks with unsheddable := true } })
      ⟨rfl, rfl, rfl, rfl, rfl, rfl, rfl⟩ ⟨rfl, rfl⟩

theorem Field.marked_setTrip (f : Field) (t : TripRecord) : f.Marked { f with trip := t } :=
  ⟨fun _ => rfl, fun _ => .refl _, fun _ => ⟨rfl, rfl⟩, rfl⟩

theorem Work.marked_evalTrip (env : Env) (w : Work) : w.fld.Marked (w.evalTrip env).fld := by
  unfold Work.evalTrip
  dsimp only
  split
  · exact .refl _
  · exact (Field.marked_setTrip w.fld _).trans (Field.marked_queueReport _ .trip)

theorem Field.Marked.grants (h : f.Marked g) : g.grants = f.grants := by rw [h.others]

theorem Field.Marked.slotAt (h : f.Marked g) (n : Nat) : g.slotAt n = f.slotAt n := by
  unfold Field.slotAt
  rw [h.others]

theorem Field.Marked.sxeAt (h : f.Marked g) (n : Nat) : g.sxeAt n = f.sxeAt n := by
  unfold Field.sxeAt
  rw [h.others]

theorem Field.Marked.arbiter (h : f.Marked g) : g.arbiter = f.arbiter := by rw [h.others]

theorem Field.Marked.exposed (h : f.Marked g) (z j : Nat) : g.Exposed env z j ↔ f.Exposed env z j := by
  unfold Field.Exposed
  rw [h.runs j]
  exact Iff.rfl

theorem Field.Marked.inExcess (h : f.Marked g) (z : Nat) : (g.zoneAt z).inExcess = (f.zoneAt z).inExcess := by
  unfold ZoneRun.inExcess
  rw [(h.loads z).1, (h.loads z).2, (h.inputs z).budget]

/-! ### Tests that find no candidate -/

/-- No zone in excess has a heliostat that a walk may take (R45, R47). -/
def Field.Spent (env : Env) (f : Field) : Prop := ∀ z, (f.zoneAt z).inExcess = true → ∀ j, ¬ f.Exposed env z j

theorem Field.Spent.marked (hs : f.Spent env) (h : f.Marked g) : g.Spent env := fun z hx j he =>
  hs z ((h.inExcess z).symm.trans hx) j ((h.exposed z j).1 he)

theorem Work.turn_of_not_exposed {z j : Nat} {w : Work} (hj : ¬ w.fld.Exposed env z j) : w.turn env z j = w :=
  if_neg fun hc => hj (Work.candidate_iff.1 hc)

theorem Work.walk_of_none_exposed {z : Nat} (l : List Nat) {w : Work} (hj : ∀ j, ¬ w.fld.Exposed env z j) : w.walk env z l = w := by
  induction l with
  | nil => rfl
  | cons j l ih =>
    rw [Work.walk_cons, Work.turn_of_not_exposed (hj j), ih]
    split <;> rfl

theorem Work.walk_spent {z : Nat} (l : List Nat) {w : Work} (hs : w.fld.Spent env) : w.walk env z l = w := by
  cases hx : (w.fld.zoneAt z).inExcess
  · exact Work.walk_of_not_excess hx l
  · exact Work.walk_of_none_exposed l (hs z hx)

/-- The second part of a test marks its zone. -/
theorem Work.marked_shedTest (z : Nat) (w : Work) :
    (if (w.fld.zoneAt z).inExcess then w.walk env z w.fld.grants.reverse else w).fld.Marked (w.shedTest env z).fld := by
  rw [Work.shedTest_eq]
  refine Field.Marked.trans ?_ (Work.marked_setUnsheddable z _ (w.shedExcess env z))
  unfold Work.shedExcess
  split
  · exact Work.marked_evalOver z _
  · exact .refl _

theorem Work.marked_testFirst {z : Nat} {t : List Nat} {w : Work} (hs : w.fld.Spent env) : w.fld.Marked (w.testFirst env z t).fld := by
  have h1 := Work.marked_evalOver z ({ w with touched := t } : Work)
  have h2 := Work.marked_shedTest (env := env) z (({ w with touched := t } : Work).evalOver z)
  rw [Work.walk_spent _ (hs.marked h1), ite_self] at h2
  exact h1.trans h2

/-- Tests that find no candidate mark zones and do nothing else. -/
theorem Work.marked_settle (n : Nat) {w : Work} (hs : w.fld.Spent env) : w.fld.Marked (w.settle env n).fld := by
  induction n generalizing w with
  | zero => exact .refl _
  | succ n ih =>
    cases ht : w.touched with
    | nil =>
      rw [Work.settle_nil env _ ht]
      exact .refl _
    | cons z t =>
      rw [Work.settle_cons ht]
      have h1 := Work.marked_testFirst (z := z) (t := t) hs
      exact h1.trans (ih (hs.marked h1))

/-! ### Tests that may find the newest heliostat -/

/-- The unsecured load that a record brings on a zone (R44, R45). -/
def Env.bareLoad (env : Env) (h : Nat) (r : HelioRun) (z : Nat) : Nat := if r.isPending then 0 else env.load h r z

theorem Env.load_split (env : Env) (h : Nat) (r : HelioRun) (z : Nat) : env.load h r z = env.pendingLoad h r z + env.bareLoad h r z := by
  unfold Env.pendingLoad Env.bareLoad
  split <;> simp

/-- Where another heliostat than `h` is exposed, the zone has no excess without `h`. -/
def Field.Calm (env : Env) (h : Nat) (f : Field) : Prop := ∀ z j, j ≠ h → f.Exposed env z j →
  (f.zoneAt z).committed ≤ (f.zoneAt z).budget + (f.zoneAt z).pending + env.bareLoad h (f.run h) z

theorem Field.Calm.marked (hc : f.Calm env h) (hm : f.Marked g) : g.Calm env h := by
  intro z j hj he
  have h1 := hc z j hj ((hm.exposed z j).1 he)
  rw [(hm.loads z).1, (hm.loads z).2, (hm.inputs z).budget, hm.runs h]
  exact h1

/-- A heliostat adopted onto an aim that it holds alone (R43). -/
structure HelioRun.OnAim (r : HelioRun) : Prop where
  state : r.state = .tracking
  queued : r.queued = false
  loaded : r.holdsLoad = true

theorem HelioRun.OnAim.secured {r : HelioRun} (h : r.OnAim) : r.secured = r.owed.isSome := by
  unfold HelioRun.secured
  rw [h.state, h.loaded]
  cases r.owed <;> rfl

theorem HelioRun.OnAim.isPending {r : HelioRun} (h : r.OnAim) : r.isPending = r.owed.isSome := by
  simp [HelioRun.isPending, h.state, h.loaded]

theorem HelioRun.OnAim.marked (h : (f.run j).OnAim) (hm : f.Marked g) : (g.run j).OnAim := by
  rw [hm.runs j]
  exact ⟨h.state, h.queued, h.loaded⟩

/-- A heliostat that is not exposed in a zone brings it no unsecured load. -/
theorem HelioRun.OnAim.bare {z : Nat} (h : (f.run j).OnAim) (hn : ¬ f.Exposed env z j) (i : Nat) : env.bareLoad i (f.run j) z = 0 := by
  unfold Env.bareLoad
  split
  · rfl
  · next hp =>
    refine Env.load_of_not_covers fun a ha => ?_
    by_contra hc
    refine hn ⟨List.any_eq_true.2 ⟨a, ha, by simpa using hc⟩, ?_⟩
    rw [h.secured, ← h.isPending]
    simpa using hp

/-- In a zone in excess in which `h` is not exposed no heliostat is. -/
theorem Field.Calm.none_exposed {z : Nat} (hc : f.Calm env h) (hr : (f.run h).OnAim) (hx : (f.zoneAt z).inExcess = true)
    (hh : ¬ f.Exposed env z h) (j : Nat) : ¬ f.Exposed env z j := by
  intro he
  have hj : j ≠ h := fun e => hh (e ▸ he)
  have h1 := hc z j hj he
  rw [hr.bare hh] at h1
  unfold ZoneRun.inExcess at hx
  rw [decide_eq_true_eq] at hx
  omega

/-- The FAU has taken the heliostat `h`, at most, and has otherwise only marked zones. -/
def Field.ShedsOnly (env : Env) (h : Nat) (f g : Field) : Prop :=
  f.Marked g ∨ ((f.run h).owed = none ∧ ∃ w : Work, f.Marked w.fld ∧ (w.owe env .defocus .shed h).fld.Marked g)

theorem Field.ShedsOnly.of_marked (h1 : f.Marked g) (h2 : g.ShedsOnly env h k) : f.ShedsOnly env h k := by
  rcases h2 with h2 | ⟨ho, w, h2, h3⟩
  · exact Or.inl (h1.trans h2)
  · refine Or.inr ⟨?_, w, h1.trans h2, h3⟩
    rw [h1.runs h] at ho
    exact ho

/-- The accounts follow a written record (R26, R27). -/
theorem Field.loads_record (hc : Table.wf Config.heliostats HelioRun.blank f.helio) (ha : f.AccountsExact env) (hh : h < Config.heliostats) (r : HelioRun) {z : Nat}
    (hz : z < Config.zones) :
    ((f.record env h r).zoneAt z).committed + env.load h (f.run h) z = (f.zoneAt z).committed + env.load h r z
      ∧ ((f.record env h r).zoneAt z).pending + env.pendingLoad h (f.run h) z = (f.zoneAt z).pending + env.pendingLoad h r z
      ∧ ((f.record env h r).zoneAt z).budget = (f.zoneAt z).budget := by
  have h1 := Table.total_set (fun h r => env.load h r z) (fun i => Env.load_blank env i z) hc hh r
  have h2 := Table.total_set (fun h r => env.pendingLoad h r z) (fun i => Env.pendingLoad_blank env i z) hc hh r
  rw [show Table.get HelioRun.blank f.helio h = f.run h from rfl, ← ha.1 z hz] at h1
  rw [show Table.get HelioRun.blank f.helio h = f.run h from rfl, ← ha.2.1 z hz] at h2
  rw [Field.zoneAt_record]
  split
  · dsimp only
    omega
  · next hm =>
    obtain ⟨hl, hp⟩ := Env.load_of_not_moved (env := env) (h := h) fun hc => hm ⟨hc, hz⟩
    omega

/-- What the owed DEFOCUS makes of an adopted heliostat that a walk takes (R46). -/
theorem Work.owe_shed {w : Work} (hr : (w.fld.run h).OnAim) (ho : (w.fld.run h).owed = none) : w.owe env .defocus .shed h =
    w.put env h ((w.fld.run h).by (some .shed) ((w.fld.run h).owing .shed)) := by
  have hform : ((w.fld.run h).setOwed .defocus .shed).nothingRemains = (w.fld.run h).owing .shed := by
    unfold HelioRun.setOwed HelioRun.owing
    rw [ho]
    simp [HelioRun.nothingRemains, hr.state]
  unfold Work.owe
  dsimp only
  rw [hr.queued, hform]
  rfl

theorem HelioRun.OnAim.owing (h : r.OnAim) (c : Cause) (o : Option Cause) (old : HelioRun) : (old.by o (r.owing c)).OnAim := by
  obtain ⟨x, hx⟩ := HelioRun.by_cause o old (r.owing c)
  rw [hx]
  refine ⟨?_, ?_, ?_⟩
  · exact (HelioRun.owing_fields c r).1.trans h.state
  · exact (HelioRun.owing_fields c r).2.2.trans h.queued
  · have hl := h.loaded
    unfold HelioRun.owing
    split <;> exact hl

theorem HelioRun.owing_owed (c : Cause) (r : HelioRun) : (r.owing c).owed.isSome = true := by
  unfold HelioRun.owing
  split
  · next ho => rw [ho]; rfl
  · rfl
  · rfl

theorem HelioRun.owing_aims (c : Cause) (r : HelioRun) : (r.owing c).aims = r.aims := by
  unfold HelioRun.owing
  split <;> rfl

/-- The zones after a record is put. -/
theorem Work.zoneAt_put (hh : h < Config.heliostats) (r : HelioRun) (w : Work) (z : Nat) :
    (w.put env h r).fld.zoneAt z = (w.fld.record env h r).zoneAt z := by
  have hw : (w.write env h r).fld = w.fld.record env h r := by
    unfold Work.write
    rw [if_pos hh]
  unfold Work.put
  dsimp only
  split
  · exact (Field.zoneAt_queueReport _ _ z).trans (by rw [hw])
  · rw [hw]

/-- With the adopted heliostat taken no zone has a candidate left. -/
theorem Work.spent_shed {w : Work} (hg : w.fld.Good env) (hh : h < Config.heliostats) (hc : w.fld.Calm env h)
    (hr : (w.fld.run h).OnAim) (ho : (w.fld.run h).owed = none) : (w.owe env .defocus .shed h).fld.Spent env := by
  intro z hx j he
  have hgood := (Work.steady_owe (env := env) .defocus .shed h w).reach.good hg
  have hz : z < Config.zones := by
    by_contra hz
    rw [Field.zoneAt_outside hgood.canonical hz] at hx
    cases hx
  rw [Work.owe_shed hr ho] at hx he
  generalize hr1 : (w.fld.run h).by (some .shed) ((w.fld.run h).owing .shed) = r1 at hx he
  have hon : r1.OnAim := hr1 ▸ hr.owing .shed _ _
  obtain ⟨x, hx1⟩ := HelioRun.by_cause (some .shed) (w.fld.run h) ((w.fld.run h).owing .shed)
  have howed : r1.owed.isSome = true := by rw [← hr1, hx1]; exact HelioRun.owing_owed _ _
  by_cases hj : j = h
  · rw [hj] at he
    have hs := he.2
    rw [Work.run_put_same env hh, HelioRun.secured_reportOwed, hon.secured, howed] at hs
    cases hs
  · have hj' : h ≠ j := fun e => hj e.symm
    have h1 := hc z j hj ⟨by rw [← Work.run_put_other env hj' r1 w]; exact he.1, by rw [← Work.run_put_other env hj' r1 w]; exact he.2⟩
    have hload : env.load h r1 z = env.load h (w.fld.run h) z := by
      unfold Env.load
      rw [← hr1, HelioRun.by_aims, HelioRun.owing_aims]
    have hp1 : env.pendingLoad h r1 z = env.load h r1 z := if_pos (by rw [hon.isPending]; exact howed)
    have hp0 : (w.fld.run h).isPending = false := by rw [hr.isPending, ho]; rfl
    have hb : env.bareLoad h (w.fld.run h) z = env.load h (w.fld.run h) z := if_neg (by rw [hp0]; exact Bool.false_ne_true)
    have hp : env.pendingLoad h (w.fld.run h) z = 0 := if_neg (by rw [hp0]; exact Bool.false_ne_true)
    obtain ⟨h2, h3, h4⟩ := Field.loads_record (env := env) hg.canonical.1 hg.accounts hh r1 hz
    rw [Work.zoneAt_put hh] at hx
    unfold ZoneRun.inExcess at hx
    rw [decide_eq_true_eq] at hx
    omega

/-- A walk that begins with the adopted heliostat takes it or none. -/
theorem Work.walk_newest {w : Work} (hg : w.fld.Good env) (hh : h < Config.heliostats) (hc : w.fld.Calm env h) (hr : (w.fld.run h).OnAim)
    (z : Nat) (t : List Nat) : w.walk env z (h :: t) = w
      ∨ ((w.fld.run h).owed = none ∧ w.walk env z (h :: t) = w.owe env .defocus .shed h) := by
  by_cases hx : (w.fld.zoneAt z).inExcess = true
  · by_cases he : w.fld.Exposed env z h
    · have ho : (w.fld.run h).owed = none := by
        have hs := he.2
        rw [hr.secured] at hs
        simpa using hs
      have hshed : w.shed env z h = w.owe env .defocus .shed h := by
        unfold Work.shed
        rw [hr.queued]
        rfl
      refine Or.inr ⟨ho, ?_⟩
      rw [Work.walk_cons, if_pos hx]
      unfold Work.turn
      rw [if_pos (Work.candidate_iff.2 he), hshed]
      exact Work.walk_spent t (Work.spent_shed hg hh hc hr ho)
    · exact Or.inl (Work.walk_of_none_exposed _ (hc.none_exposed hr hx he))
  · exact Or.inl (Work.walk_of_not_excess (eq_false_of_ne_true hx) _)

/-- Tests after an adoption take the adopted heliostat or none (R43, R45). -/
theorem Work.shedsOnly_settle (hh : h < Config.heliostats) (n : Nat) {w : Work} (hg : w.fld.Good env) (hc : w.fld.Calm env h)
    (hr : (w.fld.run h).OnAim) {t : List Nat} (hl : w.fld.grants.reverse = h :: t) : w.fld.ShedsOnly env h (w.settle env n).fld := by
  induction n generalizing w with
  | zero => exact Or.inl (.refl _)
  | succ n ih =>
    cases ht : w.touched with
    | nil =>
      rw [Work.settle_nil env _ ht]
      exact Or.inl (.refl _)
    | cons z rest =>
      rw [Work.settle_cons ht]
      have h1 := Work.marked_evalOver z ({ w with touched := rest } : Work)
      have hg1 := (Work.reach_evalOver (live := env.live) z ({ w with touched := rest } : Work)).good (env := env) hg
      have hg2 := (w.reach_testFirst (env := env) z rest).good hg
      have h2 := Work.marked_shedTest (env := env) z (({ w with touched := rest } : Work).evalOver z)
      unfold Work.testFirst at hg2 ⊢
      generalize ({ w with touched := rest } : Work).evalOver z = w1 at h1 hg1 hg2 h2 ⊢
      have h1 : w.fld.Marked w1.fld := h1
      rw [h1.grants, hl] at h2
      rcases Work.walk_newest hg1 hh (hc.marked h1) (hr.marked h1) z t with hw | ⟨ho, hw⟩
      · rw [hw, ite_self] at h2
        have h3 := h1.trans h2
        exact .of_marked h3 (ih hg2 (hc.marked h3) (hr.marked h3) (by rw [h3.grants]; exact hl))
      · rw [hw] at h2
        by_cases hx : (w1.fld.zoneAt z).inExcess = true
        · rw [if_pos hx] at h2
          have hs := Work.spent_shed hg1 hh (hc.marked h1) (hr.marked h1) ho
          exact .of_marked h1 (Or.inr ⟨ho, w1, .refl _, h2.trans (Work.marked_settle n (hs.marked h2))⟩)
        · rw [if_neg hx] at h2
          have h3 := h1.trans h2
          exact .of_marked h3 (ih hg2 (hc.marked h3) (hr.marked h3) (by rw [h3.grants]; exact hl))

end Sys2Proof.Machine
end

section
/-! PROOFS for flux admission: the end of an exchange with a status (R43, R45, R56, R120, R148): what the outcome, the FAU's tests, the survey
and the SXEs' choices make of the field. -/

namespace Sys2Proof.Machine

variable {env : Env} {f g k : Field} {h : Nat} {e : Edit}

/-! ### The outcome written in the field -/

/-- A slot follows the revocation, if there is one (R120). -/
def Slot.followRevoked (h : Nat) (v : Option (Nat × Bool)) (x : Slot) : Slot := match v with
  | some (a, refused) => x.follow h a refused
  | none => x

/-- The outcome `e` of heliostat `h`'s exchange has made `g` of the field `f` (R56): the FAU's tests have not begun. -/
structure Field.Outcome (env : Env) (h : Nat) (e : Edit) (f g : Field) : Prop where
  run : ∀ j, g.run j = if j = h then e.r else f.run j
  zones : f.ZonesKept g
  loads : ∀ z, z < Config.zones →
    (g.zoneAt z).committed + env.load h (f.run h) z = (f.zoneAt z).committed + env.load h e.r z
      ∧ (g.zoneAt z).pending + env.pendingLoad h (f.run h) z = (f.zoneAt z).pending + env.pendingLoad h e.r z
  programs : (e.r.state = .lost → (f.run h).state = .lost) → f.ProgramsKept g
  hear : ∀ n, n < Config.slots → ∃ x, g.slotAt n = ({ f.slotAt n with waitingOn := x } : Slot).followRevoked h e.revoked
  lastEnd : ∀ n, (g.sxeAt n).lastEnd = (f.sxeAt n).lastEnd
  newest : e.newest = true → e.r.granted.isSome → ∃ l, g.grants.reverse = h :: l

theorem Field.dropEntry_others (n h : Nat) (f : Field) : ∃ t, f.dropEntry n h = { f with sxe := t } := by
  unfold Field.dropEntry
  dsimp only
  split
  · exact ⟨_, rfl⟩
  · exact ⟨f.sxe, rfl⟩

theorem Field.lastEnd_dropEntry (n h : Nat) (f : Field) (m : Nat) : ((f.dropEntry n h).sxeAt m).lastEnd = (f.sxeAt m).lastEnd := by
  unfold Field.dropEntry
  dsimp only
  split
  · rw [Field.sxeAt_setSxe]
    split
    · next hc => rw [← hc.1]
    · rfl
  · rfl

theorem Field.slotAt_record_waiting (env : Env) (h : Nat) (r : HelioRun) (f : Field) (n : Nat) :
    ∃ x, (f.record env h r).slotAt n = { f.slotAt n with waitingOn := x } := by
  obtain ⟨tz, tr, he, -⟩ := Field.accountRecord_eq env h r f
  have hs : ∀ n, ({ f.accountRecord env h r with grants := grantsAfter (f.accountRecord env h r).grants h r.granted } : Field).slotAt n
      = f.slotAt n := fun n => by rw [he]; rfl
  unfold Field.record
  dsimp only
  generalize ({ f.accountRecord env h r with grants := grantsAfter (f.accountRecord env h r).grants h r.granted } : Field) = f2 at hs
  split
  · unfold Field.unfollow
    split
    · next m _ =>
      rw [Field.slotAt_setSlot]
      split
      · next hc => exact ⟨_, by rw [← hs, ← hc.1]⟩
      · exact ⟨_, by rw [hs]⟩
    · exact ⟨_, by rw [hs]⟩
  · exact ⟨_, by rw [hs]⟩

theorem Work.slotAt_follow (h a : Nat) (b : Bool) (w : Work) {n : Nat} (hn : n < Config.slots) :
    (w.follow h (some a) b).fld.slotAt n = (w.fld.slotAt n).follow h a b := by
  have key : ∀ (l : List Nat) (f : Field), l.Nodup → (∀ m ∈ l, m < Config.slots) →
      (l.foldl (fun f m => f.setSlot m ((f.slotAt m).follow h a b)) f).slotAt n =
        if n ∈ l then (f.slotAt n).follow h a b else f.slotAt n := by
    intro l
    induction l with
    | nil => exact fun f _ _ => rfl
    | cons m l ih =>
      intro f hd hlt
      obtain ⟨hm, hd⟩ := List.nodup_cons.1 hd
      rw [List.foldl_cons, ih _ hd fun y hy => hlt y (List.mem_cons_of_mem _ hy), Field.slotAt_setSlot]
      by_cases hnm : m = n
      · subst hnm
        rw [if_neg hm, if_pos ⟨rfl, hn⟩, if_pos List.mem_cons_self]
      · have hmem : n ∈ m :: l ↔ n ∈ l := by simp [Ne.symm hnm]
        rw [if_neg fun c : m = n ∧ m < Config.slots => hnm c.1]
        simp only [hmem]
  have h1 := key (List.range Config.slots) w.fld List.nodup_range fun m hm => List.mem_range.1 hm
  rw [if_pos (List.mem_range.2 hn)] at h1
  exact h1

theorem Work.slotAt_followRevoked (h : Nat) (v : Option (Nat × Bool)) (w : Work) {n : Nat} (hn : n < Config.slots) :
    (w.followRevoked h v).fld.slotAt n = (w.fld.slotAt n).followRevoked h v := by
  unfold Work.followRevoked Slot.followRevoked
  split
  · next a b => exact Work.slotAt_follow h a b w hn
  · rfl

theorem Work.follow_others (h : Nat) (a : Option Nat) (b : Bool) (w : Work) : ∃ t, (w.follow h a b).fld = { w.fld with slot := t } := by
  unfold Work.follow
  split
  · exact ⟨_, rfl⟩
  · next a =>
    have key : ∀ (l : List Nat) (f : Field), ∃ t, l.foldl (fun f m => f.setSlot m ((f.slotAt m).follow h a b)) f = { f with slot := t } := by
      intro l
      induction l with
      | nil => exact fun f => ⟨_, rfl⟩
      | cons m l ih =>
        intro f
        obtain ⟨t, ht⟩ := ih (f.setSlot m ((f.slotAt m).follow h a b))
        exact ⟨t, ht⟩
    exact key _ w.fld

theorem Work.followRevoked_others (h : Nat) (v : Option (Nat × Bool)) (w : Work) :
    ∃ t, (w.followRevoked h v).fld = { w.fld with slot := t } := by
  unfold Work.followRevoked
  split
  · exact Work.follow_others h _ _ w
  · exact ⟨_, rfl⟩

theorem Work.followRevoked_kept (h : Nat) (v : Option (Nat × Bool)) (w : Work) : w.fld.ProgramsKept (w.followRevoked h v).fld := by
  have hs : w.fld.ShedOnly (w.followRevoked h v).fld := by
    unfold Work.followRevoked
    split
    · exact Work.shedOnly_follow h _ _ w
    · exact .refl _
  exact ⟨hs.arbiter, hs.slots⟩

theorem Work.toNewest_others (h : Nat) (b : Bool) (w : Work) :
    ∃ l, (if b then w.toNewest h else w).fld = { w.fld with grants := l } := by
  cases b
  · exact ⟨_, rfl⟩
  · unfold Work.toNewest
    rw [if_pos rfl]
    split
    · exact ⟨_, rfl⟩
    · exact ⟨_, rfl⟩

theorem Field.zonesKept_record (env : Env) (h : Nat) (r : HelioRun) (f : Field) : f.ZonesKept (f.record env h r) := fun z => by
  rw [Field.zoneAt_record]
  split
  · exact ⟨rfl, rfl, rfl, rfl, rfl, rfl, rfl⟩
  · exact .refl _

theorem Work.fld_applyEdit (hq : e.requeue = false) (o : Origin) (w : Work) : (w.applyEdit env h e o).fld =
    ((if e.newest then (w.outcome env h e).toNewest h else w.outcome env h e).followRevoked h e.revoked).fld := by
  unfold Work.applyEdit
  rw [hq]
  rfl

/-- A faithful outcome in the field (R56). -/
theorem Work.outcome_applyEdit {w : Work} (hc : w.fld.Canonical) (ha : w.fld.AccountsExact env) (hh : h < Config.heliostats)
    (hq : e.requeue = false) (o : Origin) : Field.Outcome env h e w.fld (w.applyEdit env h e o).fld := by
  obtain ⟨tx, hx⟩ : ∃ t, (if e.drop then w.dropEntry env h else w).fld = { w.fld with sxe := t } := by
    split
    · exact Field.dropEntry_others _ h w.fld
    · exact ⟨_, rfl⟩
  have hlast : ∀ m, ((if e.drop then w.dropEntry env h else w).fld.sxeAt m).lastEnd = (w.fld.sxeAt m).lastEnd := by
    split
    · exact Field.lastEnd_dropEntry _ h w.fld
    · exact fun _ => rfl
  rw [Work.fld_applyEdit hq]
  unfold Work.outcome
  generalize (if e.drop then w.dropEntry env h else w) = w1 at hx hlast
  have hrun : ∀ j, w1.fld.run j = w.fld.run j := fun j => by rw [hx]; rfl
  have hzone : ∀ z, w1.fld.zoneAt z = w.fld.zoneAt z := fun z => by rw [hx]; rfl
  have hslot : ∀ n, w1.fld.slotAt n = w.fld.slotAt n := fun n => by rw [hx]; rfl
  have harb : w1.fld.arbiter = w.fld.arbiter := by rw [hx]
  have hc1 : Table.wf Config.heliostats HelioRun.blank w1.fld.helio := by
    rw [hx]
    exact hc.1
  have ha1 : w1.fld.AccountsExact env := ha.sameTables (by rw [hx]) (by rw [hx]) (by rw [hx])
  have hw : (w1.write env h e.r).fld = w1.fld.record env h e.r := by
    unfold Work.write
    rw [if_pos hh]
  obtain ⟨l, hl⟩ := Work.toNewest_others h e.newest (w1.write env h e.r)
  have hgr : e.newest = true → e.r.granted.isSome → ∃ l, (if e.newest then (w1.write env h e.r).toNewest h else w1.write env h e.r).fld.grants.reverse
      = h :: l := fun hn hg => by
    have hm : h ∈ (w1.write env h e.r).fld.grants := by
      rw [hw, Field.grants_record]
      unfold grantsAfter
      rw [if_neg (by rw [Option.isNone_iff_eq_none]; intro hc; rw [hc] at hg; cases hg)]
      split
      · next hm => exact hm
      · simp
    rw [if_pos hn]
    unfold Work.toNewest
    rw [if_pos hm]
    simp
  rw [hw] at hl
  generalize (if e.newest then (w1.write env h e.r).toNewest h else w1.write env h e.r) = w2 at hl hgr
  obtain ⟨t, ht⟩ := Work.followRevoked_others h e.revoked w2
  have hfollow := Work.followRevoked_kept h e.revoked w2
  have hheard := fun n hn => Work.slotAt_followRevoked h e.revoked w2 (n := n) hn
  refine ⟨fun j => ?_, fun z => ?_, fun z hz => ?_, fun hlost => ?_, fun n hn => ?_, fun n => ?_, fun hn hg => ?_⟩
  · rw [ht]
    refine (congrArg (fun f : Field => f.run j) hl).trans ((Field.run_record env h e.r w1.fld j).trans ?_)
    rw [hrun]
    by_cases hj : j = h
    · rw [if_pos ⟨hj.symm, hh⟩, if_pos hj]
    · rw [if_neg fun c => hj c.1.symm, if_neg hj]
  · rw [ht, hl, ← hzone]
    exact Field.zonesKept_record env h e.r w1.fld z
  · have h1 := Field.loads_record (env := env) hc1 ha1 hh e.r hz
    rw [hrun, hzone] at h1
    rw [ht, hl]
    exact ⟨h1.1, h1.2.1⟩
  · have h1 := (Work.kept_write env h e.r w1 (by rw [hrun]; exact hlost)).2
    rw [hw] at h1
    have h2 : w1.fld.ProgramsKept w2.fld := by rw [hl]; exact h1
    exact Field.ProgramsKept.trans ⟨harb, fun n => by rw [hslot]⟩ (h2.trans hfollow)
  · obtain ⟨x, hx⟩ := Field.slotAt_record_waiting env h e.r w1.fld n
    refine ⟨x, ?_⟩
    rw [hheard n hn, hl, ← hslot]
    exact congrArg _ hx
  · rw [ht, hl, ← hlast, ← Work.sxeAt_write env h e.r w1, hw]
    rfl
  · rw [ht]
    exact hgr hn hg

/-! ### The zones after the outcome -/

theorem HelioRun.Eases.bareLoad_le {r r' : HelioRun} (h : r.Eases r') (i z : Nat) : env.bareLoad i r' z ≤ env.bareLoad i r z := by
  have hload : env.load i r' z ≤ env.load i r z := (h.aims.map _).sum_le_sum fun _ _ => Nat.zero_le _
  unfold Env.bareLoad
  by_cases hp : r.isPending = true
  · by_cases hl : r'.holdsLoad = true
    · rw [if_pos (h.pending hp hl)]
      exact Nat.zero_le _
    · have h0 : env.load i r' z = 0 := by
        rw [HelioRun.holdsLoad_iff_aims, not_not] at hl
        simp [Env.load, hl]
      rw [h0, ite_self]
      exact Nat.zero_le _
  · rw [if_neg hp]
    split
    · exact Nat.zero_le _
    · exact hload

theorem HelioRun.Eases.exposed {r r' : HelioRun} (h : r.Eases r') {z : Nat} (hc : env.covers r' z = true) (hs : r'.secured = false) :
    env.covers r z = true ∧ r.secured = false := by
  obtain ⟨a, ha, haz⟩ := List.any_eq_true.1 hc
  refine ⟨List.any_eq_true.2 ⟨a, h.aims.subset ha, haz⟩, ?_⟩
  by_contra hn
  rw [h.secured (by simpa using hn)] at hs
  cases hs

/-- A settled zone in which a heliostat is exposed is not in excess (R45, R47). -/
theorem Field.ZoneSettled.calm {z j : Nat} (hz : f.ZoneSettled env z) (he : f.Exposed env z j) :
    (f.zoneAt z).committed ≤ (f.zoneAt z).budget + (f.zoneAt z).pending := by
  by_contra hx
  have hs := hz.spent (decide_eq_true (by omega)) j he.1
  rw [he.2] at hs
  cases hs

theorem Field.inExcess_inside (hc : f.Canonical) {z : Nat} (hx : (f.zoneAt z).inExcess = true) : z < Config.zones := by
  by_contra hz
  rw [Field.zoneAt_outside hc hz] at hx
  cases hx

/-- An outcome that eases its record leaves no zone in excess with a candidate. -/
theorem Field.Outcome.spent (ho : Field.Outcome env h e f g) (hg : g.Canonical) (hz : ∀ z, f.ZoneSettled env z)
    (he : (f.run h).Eases e.r) : g.Spent env := by
  intro z hx j hj
  have hexp : f.Exposed env z j := by
    unfold Field.Exposed at hj ⊢
    rw [ho.run j] at hj
    by_cases hjh : j = h
    · rw [if_pos hjh] at hj
      rw [hjh]
      exact he.exposed hj.1 hj.2
    · rw [if_neg hjh] at hj
      exact hj
  obtain ⟨h1, h2⟩ := ho.loads z (Field.inExcess_inside hg hx)
  have h3 := he.bareLoad_le (env := env) h z
  have h4 := (hz z).calm hexp
  rw [Env.load_split, Env.load_split env h e.r] at h1
  unfold ZoneRun.inExcess at hx
  rw [decide_eq_true_eq, (ho.zones z).budget] at hx
  omega

/-- An adoption leaves no zone in excess with another candidate but for the adopted heliostat's own load. -/
theorem Field.Outcome.calm (ho : Field.Outcome env h e f g) (hg : g.Canonical) (hz : ∀ z, f.ZoneSettled env z) : g.Calm env h := by
  intro z j hj hexp
  unfold Field.Exposed at hexp
  rw [ho.run j, if_neg hj] at hexp
  by_cases hlt : z < Config.zones
  · obtain ⟨h1, h2⟩ := ho.loads z hlt
    have h4 := (hz z).calm hexp
    rw [Env.load_split, Env.load_split env h e.r] at h1
    rw [(ho.zones z).budget, ho.run h, if_pos rfl]
    omega
  · rw [Field.zoneAt_outside hg hlt]
    exact Nat.zero_le _

/-! ### The FAU's tests after the outcome -/

/-- The outcome `e` has made `new` of heliostat `h`'s record, with all that follows in the same change (R43, R45, R56, R120). -/
structure Field.Written (h : Nat) (e : Edit) (new : HelioRun) (f g : Field) : Prop where
  record : g.run h = { new with reportOwed := (g.run h).reportOwed }
  others : ∀ j, j ≠ h → g.run j = { f.run j with reportOwed := (g.run j).reportOwed }
  zones : f.ZonesKept g
  programs : (new.state = .lost → (f.run h).state = .lost) → f.ProgramsKept g
  hear : ∀ n, n < Config.slots → ∃ x, g.slotAt n = ({ f.slotAt n with waitingOn := x } : Slot).followRevoked h e.revoked
  lastEnd : ∀ n, (g.sxeAt n).lastEnd = (f.sxeAt n).lastEnd
  newest : e.newest = true → e.r.granted.isSome → g.grants.getLast? = some h

theorem Field.Written.marked {new : HelioRun} (hw : Field.Written h e new f g) (hm : g.Marked k) : Field.Written h e new f k := by
  refine ⟨?_, fun j hj => ?_, hw.zones.trans hm.inputs, fun hl => (hw.programs hl).trans ⟨hm.arbiter, fun n => by rw [hm.slotAt]⟩,
    fun n hn => ?_, fun n => ?_, fun hn hg => ?_⟩
  · have h1 := hm.runs h
    rw [hw.record] at h1
    exact h1
  · have h1 := hm.runs j
    rw [hw.others j hj] at h1
    exact h1
  · rw [hm.slotAt]
    exact hw.hear n hn
  · rw [hm.sxeAt]
    exact hw.lastEnd n
  · rw [hm.grants]
    exact hw.newest hn hg

theorem Field.Outcome.written (ho : Field.Outcome env h e f g) : Field.Written h e e.r f g := by
  refine ⟨?_, fun j hj => ?_, ho.zones, ho.programs, ho.hear, ho.lastEnd, fun hn hg => ?_⟩
  · rw [ho.run h, if_pos rfl]
  · rw [ho.run j, if_neg hj]
  · obtain ⟨l, hl⟩ := ho.newest hn hg
    rw [← List.head?_reverse, hl]
    rfl

theorem HelioRun.shed_reportOwed (b : Bool) (r : HelioRun) : ({ r with reportOwed := b } : HelioRun).by (some .shed)
    (({ r with reportOwed := b } : HelioRun).owing .shed) = { r.by (some .shed) (r.owing .shed) with reportOwed := b } := by
  have ho : ({ r with reportOwed := b } : HelioRun).owing .shed = { r.owing .shed with reportOwed := b } := by
    unfold HelioRun.owing
    dsimp only
    split <;> rfl
  rw [ho]
  unfold HelioRun.by
  rw [show ({ r with reportOwed := b } : HelioRun).differs { r.owing .shed with reportOwed := b } = r.differs (r.owing .shed) from rfl]
  split <;> rfl

/-- The record put in the place of an adopted one that keeps its aim. -/
theorem Field.Written.put {w : Work} {new r : HelioRun} (hw : Field.Written h e new f w.fld) (hh : h < Config.heliostats)
    (hl : new.state ≠ .lost) (hs : r.state ≠ .lost) (hg : r.granted.isSome = true) (hn : e.newest = true) (he : e.r.granted.isSome = true) :
    Field.Written h e r f (w.put env h r).fld := by
  have hkept := Work.kept_put env h r w fun hl => absurd hl hs
  have hfld : (w.write env h r).fld = w.fld.record env h r := by
    unfold Work.write
    rw [if_pos hh]
  have hslot : ∀ n, (w.put env h r).fld.slotAt n = w.fld.slotAt n := fun n => by
    unfold Work.put
    dsimp only
    split
    · refine (Field.slotAt_queueReport _ _ n).trans ?_
      rw [hfld, Field.slotAt_record env h r w.fld hs]
    · rw [hfld, Field.slotAt_record env h r w.fld hs]
  have hgrants : (w.put env h r).fld.grants = w.fld.grants := by
    have hm : h ∈ w.fld.grants := List.mem_of_getLast? (hw.newest hn he)
    have h1 : (w.fld.record env h r).grants = w.fld.grants := by
      rw [Field.grants_record]
      unfold grantsAfter
      rw [if_neg (by rw [Option.isNone_iff_eq_none]; intro hc; rw [hc] at hg; cases hg), if_pos hm]
    unfold Work.put
    dsimp only
    split
    · refine (Field.queueReport_grants _ _).trans ?_
      rw [hfld, h1]
    · rw [hfld, h1]
  refine ⟨Work.run_put_same env hh r w, fun j hj => ?_, hw.zones.trans hkept.1, fun _ => ?_, fun n hn => ?_, fun n => ?_, fun _ _ => ?_⟩
  · rw [Work.run_put_other env fun c => hj c.symm]
    exact hw.others j hj
  · exact (hw.programs fun c => absurd c hl).trans hkept.2
  · rw [hslot]
    exact hw.hear n hn
  · rw [Field.sxeAt, Work.sxe_put]
    exact hw.lastEnd n
  · rw [hgrants]
    exact hw.newest hn he

theorem Edit.Traced.onAim {r0 : HelioRun} (h : e.Traced r0) (hn : e.newest = true) : e.r.OnAim := by
  have hs := (h.adopted hn).1
  refine ⟨hs, h.good.sound.not_queued (by simp [hs]), ?_⟩
  rw [h.good.sound.holdsLoad_eq, h.good.sound.1]
  simp [HelioRun.grantState, hs]

theorem HelioRun.OnAim.granted {r : HelioRun} (h : r.OnAim) (hs : r.Sound) : r.granted.isSome = true := by
  rw [← hs.holdsLoad_eq]
  exact h.loaded

theorem Field.Written.of_reportOwed {new : HelioRun} {b : Bool} (hw : Field.Written h e { new with reportOwed := b } f g) :
    Field.Written h e new f g :=
  ⟨hw.record, hw.others, hw.zones, hw.programs, hw.hear, hw.lastEnd, hw.newest⟩

/-- The adopted heliostat taken by a walk (R46). -/
theorem Field.Written.shed {w : Work} (hw : Field.Written h e e.r f w.fld) (hh : h < Config.heliostats) (hon : e.r.OnAim)
    (hg : e.r.granted.isSome = true) (ho : e.r.owed = none) (hn : e.newest = true) :
    Field.Written h e (e.r.by (some .shed) (e.r.owing .shed)) f (w.owe env .defocus .shed h).fld := by
  have hr := hw.record
  generalize (w.fld.run h).reportOwed = b at hr
  obtain ⟨x, hx⟩ := HelioRun.by_cause (some .shed) e.r (e.r.owing .shed)
  obtain ⟨h1, h2, -⟩ := HelioRun.owing_fields .shed e.r
  have hst : (e.r.by (some .shed) (e.r.owing .shed)).state ≠ .lost := by
    rw [hx]
    dsimp only
    rw [h1, hon.state]
    exact nofun
  have hgr : (e.r.by (some .shed) (e.r.owing .shed)).granted.isSome = true := by
    rw [hx]
    dsimp only
    rw [h2]
    exact hg
  have hlost : e.r.state ≠ .lost := by
    rw [hon.state]
    exact nofun
  rw [Work.owe_shed (hr ▸ ⟨hon.state, hon.queued, hon.loaded⟩) (by rw [hr]; exact ho), hr, HelioRun.shed_reportOwed b]
  generalize e.r.by (some .shed) (e.r.owing .shed) = new at hst hgr ⊢
  exact Field.Written.of_reportOwed (new := new) (b := b) (hw.put (r := { new with reportOwed := b }) hh hlost hst hgr hn hg)

/-- The FAU's tests after the outcome: they take the adopted heliostat, or no heliostat (R43, R45). -/
theorem Work.written_settleNow {r0 : HelioRun} {w : Work} (ho : Field.Outcome env h e f w.fld) (hg : w.fld.Good env)
    (hh : h < Config.heliostats) (hz : ∀ z, f.ZoneSettled env z) (ht : e.Traced r0) (he : (f.run h).Eases r0) :
    Field.Written h e e.r f (w.settleNow env).fld
      ∨ (e.newest = true ∧ e.r.owed = none ∧ Field.Written h e (e.r.by (some .shed) (e.r.owing .shed)) f (w.settleNow env).fld) := by
  have hrun : w.fld.run h = e.r := (ho.run h).trans (if_pos rfl)
  cases hn : e.newest
  · exact Or.inl (ho.written.marked (Work.marked_settle _ (ho.spent hg.canonical hz (he.trans (ht.eases hn)))))
  · have hon := ht.onAim hn
    have hsome := hon.granted ht.good.sound
    obtain ⟨l, hl⟩ := ho.newest hn hsome
    rcases Work.shedsOnly_settle hh w.fuel hg (ho.calm hg.canonical hz) (hrun.symm ▸ hon) hl with hm | ⟨howed, v, hv, hm⟩
    · exact Or.inl (ho.written.marked hm)
    · rw [hrun] at howed
      exact Or.inr ⟨rfl, howed, ((ho.written.marked hv).shed hh hon hsome howed hn).marked hm⟩

/-- The outcome of an exchange that eased its record or adopted it, concluded (R43, R45, R56). -/
theorem Work.written_conclude {r0 : HelioRun} {w : Work} (hc : w.fld.Canonical) (ha : w.fld.AccountsExact env)
    (hh : h < Config.heliostats) (hz : ∀ z, w.fld.ZoneSettled env z) (ht : e.Traced r0) (he : (w.fld.run h).Eases r0) (o : Origin)
    (hg : (w.applyEdit env h e o).fld.Good env) :
    Field.Written h e e.r w.fld (w.conclude env h e o).fld
      ∨ (e.newest = true ∧ e.r.owed = none
        ∧ Field.Written h e (e.r.by (some .shed) (e.r.owing .shed)) w.fld (w.conclude env h e o).fld) := by
  have hend : ((w.applyEdit env h e o).settleNow env).fld.Marked (w.conclude env h e o).fld := by
    unfold Work.conclude
    dsimp only
    refine Field.Marked.trans ?_ (Work.marked_evalTrip env _)
    split
    · exact Field.marked_queueReport _ _
    · exact .refl _
  rcases Work.written_settleNow (Work.outcome_applyEdit hc ha hh ht.stays o) hg hh hz ht he with hw | ⟨hn, howed, hw⟩
  · exact Or.inl (hw.marked hend)
  · exact Or.inr ⟨hn, howed, hw.marked hend⟩

end Sys2Proof.Machine
end

section
/-! PROOFS for flux admission: the state after the answer to a QUERY (R56, R60, R148). -/

namespace Sys2Proof.Machine

variable {s t : State} {f g : Field} {h : Nat} {e : Edit}

/-! ### The survey takes note (R148, R149) -/

/-- The programs and the reports alone may differ. -/
def Field.EndsOnly (f g : Field) : Prop := g = { f with slot := g.slot, arbiter := g.arbiter, reports := g.reports }

theorem Field.EndsOnly.trans {k : Field} (h1 : f.EndsOnly g) (h2 : g.EndsOnly k) : f.EndsOnly k := by
  unfold Field.EndsOnly at *
  rw [h1] at h2
  exact h2

theorem Work.endsOnly_endSlot (k : Nat) (c : EndCause) (w : Work) : w.fld.EndsOnly (w.endSlot k c).fld := by
  have hr : ∀ f : Field, f.EndsOnly (f.queueReport (.slot k)) := fun f => by
    rw [Field.queueReport_slot_eq]
    rfl
  have hs : ∀ (f : Field) (x : Slot) (a : Arbiter), f.EndsOnly { f.setSlot k x with arbiter := a } := fun _ _ _ => rfl
  exact (hs w.fld _ _).trans (hr _)

theorem Work.endsOnly_endAll (c : EndCause) (w : Work) : w.fld.EndsOnly (w.endAll c).1.fld := by
  unfold Work.endAll
  suffices h : ∀ (l : List Nat) (p : Work × Nat), p.1.fld.EndsOnly (l.foldl (fun (p : Work × Nat) k =>
      if (p.1.fld.slotAt k).state.nonIdle then (p.1.endSlot k c, p.2 + 1) else p) p).1.fld from h _ _
  intro l
  induction l with
  | nil => exact fun p => rfl
  | cons k l ih =>
    intro p
    refine Field.EndsOnly.trans ?_ (ih _)
    dsimp only
    split
    · exact Work.endsOnly_endSlot k c p.1
    · rfl

theorem State.enterHold_others (c : StateCause) (s : State) :
    ∃ ts ta tr, State.enterHold c s = { s with
      osc := { s.osc with opState := .hold, wake := none, surveyEnds := none, cause := c }
      field := { s.field with slot := ts, arbiter := ta, reports := tr } } := by
  have hf := Work.endsOnly_endAll .hold (Work.of s.field)
  unfold State.enterHold State.stateEvent
  dsimp only
  generalize ((Work.of s.field).endAll .hold).1.fld = f at hf ⊢
  have hf : f = { s.field with slot := f.slot, arbiter := f.arbiter, reports := f.reports } := hf
  refine ⟨f.slot, f.arbiter, (f.queueReport .opState).reports, ?_⟩
  rw [Field.queueReport_opState_eq]
  generalize (f.queueReport .opState).reports = tr
  rw [hf]

/-- What the survey's note changes. -/
theorem State.surveyStep_others (h : Nat) (before : HelioRun) (found : Option Finding) (s : State) :
    ∃ o ts ta tr, s.surveyStep h before found = { s with osc := o, field := { s.field with slot := ts, arbiter := ta, reports := tr } } := by
  unfold State.surveyStep State.surveyDone
  dsimp only
  split
  · split
    · exact ⟨_, _, _, _, rfl⟩
    · obtain ⟨ts, ta, tr, he⟩ := State.enterHold_others .surveyDone { s with osc := s.osc.countSurvey h found }
      exact ⟨_, ts, ta, tr, he⟩
  · exact ⟨_, _, _, _, rfl⟩

/-- An exchange that places no UNSURE heliostat is none of a survey's. -/
theorem State.surveyStep_skipped {before : HelioRun} (hc : s.osc.opState ≠ .survey ∨ before.state ≠ .unsure) (h : Nat)
    (found : Option Finding) : s.surveyStep h before found = s :=
  if_neg fun ⟨h1, h2, _⟩ => hc.elim (fun c => c h1) fun c => c h2

/-- The counts of a survey that an exchange has placed a heliostat for. -/
theorem State.surveyStep_counts {before : HelioRun} (h1 : s.osc.opState = .survey) (h2 : before.state = .unsure)
    (h3 : (s.field.run h).state ≠ .unsure) (found : Option Finding) :
    (s.surveyStep h before found).osc.adopted = (s.osc.countSurvey h found).adopted
      ∧ (s.surveyStep h before found).osc.leftLost = (s.osc.countSurvey h found).leftLost := by
  unfold State.surveyStep State.surveyDone
  dsimp only
  rw [if_pos ⟨h1, h2, h3⟩]
  split
  · exact ⟨rfl, rfl⟩
  · obtain ⟨ts, ta, tr, he⟩ := State.enterHold_others .surveyDone { s with osc := s.osc.countSurvey h found }
    rw [he]
    exact ⟨rfl, rfl⟩

/-! ### The end of the exchange -/

/-- An exchange of segment `g` with heliostat `h` has ended with a good answer whose outcome is `e` and whose survey line is `found`; the
record has become `new` (R56, R120, R148). -/
structure State.AnswerEnded (s t : State) (g h : Nat) (e : Edit) (found : Option Finding) (new : HelioRun) : Prop where
  made : s.AnswerMade t g h none new
  newest : e.newest = true → e.r.granted.isSome → t.field.grants.getLast? = some h
  hear : (s.field.run h).state ≠ .unsure → ∀ n, n < Config.slots →
    ∃ x, t.field.slotAt n = ({ s.field.slotAt n with waitingOn := x } : Slot).followRevoked h e.revoked
  counted : s.osc.opState = .survey → (s.field.run h).state = .unsure → new.state ≠ .unsure →
    t.osc.adopted = (s.osc.countSurvey h found).adopted ∧ t.osc.leftLost = (s.osc.countSurvey h found).leftLost

theorem HelioRun.by_none (old new : HelioRun) : old.by none new = new := by
  unfold HelioRun.by
  split <;> rfl

/-- The survey's note and the SXEs' choices after the outcome (R56, R60, R148). -/
theorem State.ended_of_written {n : Fin 4} {f0 f3 : Field} {found : Option Finding} {new : HelioRun}
    (hf0 : f0 = s.field.setSxe n ((s.field.sxeAt n).ended s.now)) (hw : Field.Written h e (new.stamped s.now) f0 f3)
    {s2 : State} (hs2 : s2 = ({ s with field := f3 } : State).surveyStep h (f0.run h) found) :
    s.AnswerEnded (State.kick { s2 with field := s2.field.choose s2.env true n }) n h e found new := by
  have hrun : ∀ j, f0.run j = s.field.run j := fun j => by rw [hf0]; rfl
  have hzone : ∀ z, f0.zoneAt z = s.field.zoneAt z := fun z => by rw [hf0]; rfl
  have hslot : ∀ k, f0.slotAt k = s.field.slotAt k := fun k => by rw [hf0]; rfl
  have harb : f0.arbiter = s.field.arbiter := by rw [hf0]; rfl
  have hlast : (f0.sxeAt n).lastEnd = some s.now := by
    rw [hf0, Field.sxeAt_setSxe, if_pos ⟨rfl, n.isLt⟩]
    rfl
  obtain ⟨o, ts, ta, tr, hs⟩ := State.surveyStep_others h (f0.run h) found { s with field := f3 }
  have hskip : s.osc.opState ≠ .survey ∨ (s.field.run h).state ≠ .unsure → s2 = { s with field := f3 } := fun hc => by
    rw [hs2]
    exact State.surveyStep_skipped (by rw [hrun]; exact hc) h found
  have hch : s2.field.ChoiceOnly (State.kick { s2 with field := s2.field.choose s2.env true n }).field :=
    (Field.choiceOnly_choose s2.env true s2.field n).trans
      (State.choiceOnly_kick { s2 with field := s2.field.choose s2.env true n })
  have ht : State.kick { s2 with field := s2.field.choose s2.env true n }
      = { s2 with field := (State.kick { s2 with field := s2.field.choose s2.env true n }).field } := State.kick_withField s2 _
  generalize State.kick { s2 with field := s2.field.choose s2.env true n } = t at hch ht ⊢
  have hosc : t.osc = s2.osc := by rw [ht]
  have hfield : s2.field = { f3 with slot := ts, arbiter := ta, reports := tr } := by rw [hs2, hs]
  have hrun2 : ∀ j, s2.field.run j = f3.run j := fun j => by rw [hfield]; rfl
  have hst : (f3.run h).state = new.state := by rw [hw.record]; rfl
  refine ⟨⟨?_, ?_, fun hq => ?_, ?_, fun j hj hsec => ⟨?_, fun hi => ?_⟩, fun z => ?_, fun hc => ?_, fun hc hl => ?_⟩, fun hn hg => ?_,
    fun hc k hk => ?_, fun h1 h2 h3 => ?_⟩
  · rw [ht, hs2, hs]
  · have h1 := hch.run_eq h
    rw [hrun2, hw.record] at h1
    rw [HelioRun.by_none]
    rw [h1]
    rfl
  · by_contra hn
    have h1 : (s2.field.run h).queued = false := by
      rw [hrun2, hw.record]
      exact eq_false_of_ne_true hn
    rw [hch.not_queued h1] at hq
    cases hq
  · rw [hch.lastEnd, hfield]
    exact (hw.lastEnd n).trans hlast
  · have h1 := hch.run_eq j
    rw [hrun2, hw.others j hj, hrun] at h1
    rw [h1]
  · have h1 : (s2.field.run j).inFlight = true := by
      rw [hrun2, hw.others j hj, hrun]
      exact hi
    rcases hch.runs j with e | ⟨e, -⟩
    · rw [e]
      exact h1
    · rw [e]
  · rw [hch.zoneAt, hfield, ← hzone]
    exact hw.zones z
  · rw [hosc, hskip hc]
  · have h1 := hw.programs fun c => absurd c hl
    refine ⟨?_, fun k => ?_⟩
    · rw [hch.arbiter, hskip hc, ← harb]
      exact h1.1
    · rw [hch.slotAt, hskip hc, ← hslot]
      exact h1.2 k
  · rw [hch.grants, hfield]
    exact hw.newest hn hg
  · rw [hch.slotAt, hskip (Or.inr hc), ← hslot]
    exact hw.hear k hk
  · rw [hosc, hs2]
    exact State.surveyStep_counts (s := { s with field := f3 }) h1 (by rw [hrun]; exact h2) (by rw [hst]; exact h3) found

/-! ### The answer to a QUERY (R56, R76) -/

/-- The outcome of a status for heliostat `h` of segment `n` (R76). -/
def State.statusEdit (s : State) (n h : Nat) (st : Status) : Edit :=
  (Edit.of ((s.field.run h).stamped s.now)).status s.env (s.field.setSxe n ((s.field.sxeAt n).ended s.now)) st

theorem State.exec_status {n : Fin 4} {x : Exchange} {frame : List Byte} {fr : SegFrame} {st : Status} (hd : s.AnswerDue n x frame fr)
    (hk : x.kind = .query) (ha : readAnswer fr.kind fr.params = some (.status st)) : exec (.driveAnswer n frame) s =
      .next (s.endExchange n x ((Answer.status st).finding s.env) fun env f e => e.answer env f n .query (.status st)) := by
  obtain ⟨hphase, hx, ⟨t0, ht⟩, hfr, hok, haddr⟩ := hd
  have hrun : s.isRunning = true := by rw [State.isRunning, hphase]; rfl
  have haw : x.awaiting.isSome = true := by rw [Exchange.awaiting, ht]; rfl
  have hj : x.judge fr = some (.status st) := by
    unfold Exchange.judge
    rw [hok, haddr, ha, hk]
    simp [Answer.permitted]
  refine congrArg Host.Outcome.next ?_
  rw [if_pos hrun, hx, hfr]
  dsimp only
  rw [if_pos haw]
  unfold State.takeAnswer
  rw [if_neg (by rw [hk]; exact nofun), hj, hk]

/-- What a change of the marks, the flags and the fault cause leaves of a record. -/
structure HelioRun.Flagged (r r' : HelioRun) : Prop where
  state : r'.state = r.state
  granted : r'.granted = r.granted
  leaving : r'.leaving = r.leaving
  owed : r'.owed = r.owed
  released : r'.released = r.released
  queued : r'.queued = r.queued

theorem HelioRun.Flagged.refl (r : HelioRun) : r.Flagged r := ⟨rfl, rfl, rfl, rfl, rfl, rfl⟩

theorem HelioRun.Flagged.trans {r1 r2 r3 : HelioRun} (h1 : r1.Flagged r2) (h2 : r2.Flagged r3) : r1.Flagged r3 :=
  ⟨h2.state.trans h1.state, h2.granted.trans h1.granted, h2.leaving.trans h1.leaving, h2.owed.trans h1.owed,
    h2.released.trans h1.released, h2.queued.trans h1.queued⟩

theorem HelioRun.Flagged.by {r r' : HelioRun} (h : r.Flagged r') (c : Option Cause) (old : HelioRun) : r.Flagged (old.by c r') := by
  obtain ⟨x, hx⟩ := HelioRun.by_cause c old r'
  rw [hx]
  exact ⟨h.state, h.granted, h.leaving, h.owed, h.released, h.queued⟩

theorem HelioRun.flagged_flagged (st : Status) (r : HelioRun) : r.Flagged (r.flagged st) := by
  have h1 : r.Flagged (r.by (some (if st.localControl then .localControl else .recovered)) { r with localControl := st.localControl }) :=
    HelioRun.Flagged.by (r := r) (r' := { r with localControl := st.localControl }) ⟨rfl, rfl, rfl, rfl, rfl, rfl⟩ _ _
  have hf : ∀ (r1 : HelioRun) (c : Cause) (x : FaultCause), r1.Flagged (r1.by (some c) { r1 with fault := some x }) := fun r1 _ x =>
    HelioRun.Flagged.by (r := r1) (r' := { r1 with fault := some x }) ⟨rfl, rfl, rfl, rfl, rfl, rfl⟩ _ _
  unfold HelioRun.flagged
  dsimp only
  generalize r.by (some (if st.localControl then .localControl else .recovered)) { r with localControl := st.localControl } = r1 at h1
  split
  · exact h1
  · split
    · exact h1.trans (hf _ _ _)
    · split
      · exact h1.trans (hf _ _ _)
      · exact h1

theorem HelioRun.Flagged.aims {r r' : HelioRun} (h : r.Flagged r') : r'.aims = r.aims := by
  unfold HelioRun.aims
  rw [h.granted, h.leaving]

theorem HelioRun.Flagged.eases {r r' : HelioRun} (h : r.Flagged r') : r.Eases r' :=
  .of_same (by rw [h.aims]) h.owed (Or.inr h.state) fun hr => Or.inl (h.released ▸ hr)

/-- The answer to a QUERY with a status: the record becomes what the three steps of R76 make of it, and where it is a new adoption that owes
nothing the walk may have taken it (R43, R45, R76). -/
theorem State.status_ended {n : Fin 4} {x : Exchange} {frame : List Byte} {fr : SegFrame} {st : Status} (hd : s.AnswerDue n x frame fr)
    (hk : x.kind = .query) (ha : readAnswer fr.kind fr.params = some (.status st)) (hs : s.Sound) (hz : s.ZonesSettled)
    (hl : s.field.LinesExact s.env) (ht : s.field.Tidy) :
    let r := s.field.run x.helio
    let new := s.statused st r
    let e := s.statusEdit n x.helio st
    let found := (Answer.status st).finding s.env
    e.Traced ((r.stamped s.now).flagged st) ∧ e.r = new.stamped s.now
      ∧ ∃ t, exec (.driveAnswer n frame) s = .next t ∧ (s.AnswerEnded t n x.helio e found new
        ∨ (e.newest = true ∧ new.owed = none ∧ s.AnswerEnded t n x.helio e found (new.by (some .shed) (new.owing .shed)))) := by
  intro r new e found
  have hgood : r.Good := ⟨hs.records x.helio, ht.records x.helio⟩
  have hh : x.helio < Config.heliostats := by
    by_contra hh
    have hi := (hl.exchange n x hd.2.1).2
    rw [Field.run_outside hs.good.canonical hh] at hi
    cases hi
  have hcrit : ∀ z, ((s.field.setSxe n ((s.field.sxeAt n).ended s.now)).zoneAt z).critical = (s.field.zoneAt z).critical := fun _ => rfl
  have htr : e.Traced ((r.stamped s.now).flagged st) := Edit.traced_status hcrit (hgood.stamped s.now) st
  have her : e.r = new.stamped s.now :=
    ((Edit.status_eq (e := Edit.of (r.stamped s.now)) hcrit (hgood.stamped s.now) st).1).trans (State.statused_stamped s.now r st)
  refine ⟨htr, her, _, State.exec_status hd hk ha, ?_⟩
  have hf0 : (s.field.setSxe n ((s.field.sxeAt n).ended s.now)).Good s.env :=
    (Field.reach_ended (live := s.live) n s.now s.field).good (env := s.env) hs.good
  have hz0 : ∀ z, (s.field.setSxe n ((s.field.sxeAt n).ended s.now)).ZoneSettled s.env z := fun z =>
    ((State.zonesSettled_iff hs.good).1 hz z).sameLoads (s.field.sameLoads_setSxe _ _)
  have hflag : r.Flagged (r.stamped s.now) := ⟨rfl, rfl, rfl, rfl, rfl, rfl⟩
  have happ : ((Work.of (s.field.setSxe n ((s.field.sxeAt n).ended s.now))).applyEdit s.env x.helio e x.kind.origin).fld.Good s.env := by
    have hsteady : r.Steady e.r := (editKeeps_answer n .query (.status st)).steady s.env
      (s.field.setSxe n ((s.field.sxeAt n).ended s.now)) r s.now
    exact (Work.reach_applyEdit (env := s.env) x.helio e x.kind.origin (Work.of (s.field.setSxe n ((s.field.sxeAt n).ended s.now)))
      (fun _ => htr.good.sound) hsteady.reportOwed).good hf0
  have hw := Work.written_conclude (env := s.env) (w := Work.of (s.field.setSxe n ((s.field.sxeAt n).ended s.now))) hf0.canonical hf0.accounts hh
    hz0 htr (hflag.trans (HelioRun.flagged_flagged st _)).eases x.kind.origin happ
  have hend : s.endExchange n x found (fun env f e => e.answer env f n .query (.status st)) =
      let s2 := ({ s with field := ((Work.of (s.field.setSxe n ((s.field.sxeAt n).ended s.now))).conclude s.env x.helio e x.kind.origin).fld }
        : State).surveyStep x.helio ((s.field.setSxe n ((s.field.sxeAt n).ended s.now)).run x.helio) found
      State.kick { s2 with field := s2.field.choose s2.env true n } := rfl
  rw [hend]
  dsimp only
  rw [her] at hw
  rcases hw with hw | ⟨hn, ho, hw⟩
  · exact Or.inl (State.ended_of_written rfl hw rfl)
  · refine Or.inr ⟨hn, ho, ?_⟩
    rw [HelioRun.owing_stamped, HelioRun.by_stamped] at hw
    exact State.ended_of_written rfl hw rfl

end Sys2Proof.Machine
end

section
/-! PROOFS for flux admission: what the statements say of an answer that has been taken (R43, R76, R120). -/

namespace Sys2Proof.Machine

variable {s t : State} {g h : Nat} {r new : HelioRun} {e : Edit}

/-! ### Records and their causes -/

theorem HelioRun.differs_stamps (old new : HelioRun) (n : Nat) (l : Option Nat) :
    old.differs { new with silentCount := n, lastExchange := l } = old.differs new := rfl

theorem HelioRun.by_stamps (c : Option Cause) (old new : HelioRun) (n : Nat) (l : Option Nat) :
    old.by c { new with silentCount := n, lastExchange := l } = { old.by c new with silentCount := n, lastExchange := l } := by
  unfold HelioRun.by
  rw [HelioRun.differs_stamps]
  split <;> rfl

/-- The cause of a change, with the changed record. -/
theorem State.AnswerMade.of_by {c : Option Cause} (hm : s.AnswerMade t g h none ((s.field.run h).by c new)) : s.AnswerMade t g h c new := by
  obtain ⟨h1, h2, h3, h4, h5, h6, h7, h8⟩ := hm
  refine ⟨h1, ?_, fun hq => ?_, h4, h5, h6, h7, fun hc hl => h8 hc ?_⟩
  · rw [HelioRun.by_none] at h2
    rw [HelioRun.by_stamps]
    exact h2
  · have := h3 hq
    rwa [HelioRun.by_queued] at this
  · rwa [HelioRun.by_state]

theorem State.AnswerMade.by {c : Option Cause} (hm : s.AnswerMade t g h c new) : s.AnswerMade t g h none ((s.field.run h).by c new) := by
  obtain ⟨h1, h2, h3, h4, h5, h6, h7, h8⟩ := hm
  refine ⟨h1, ?_, fun hq => ?_, h4, h5, h6, h7, fun hc hl => h8 hc ?_⟩
  · rw [HelioRun.by_stamps] at h2
    rw [HelioRun.by_none]
    exact h2
  · rw [HelioRun.by_queued]
    exact h3 hq
  · rwa [HelioRun.by_state] at hl

/-- A reported change sets the last cause, whatever it was before. -/
theorem HelioRun.by_of_differs {c : Cause} {old new : HelioRun} (hd : old.differs new = true) :
    old.by (some c) new = { new with lastCause := some c } := if_pos hd

/-- Of two reported changes the last cause stays (log entry 12). -/
theorem HelioRun.by_last {c : Cause} {old mid new : HelioRun} (h1 : old.differs new = true) (h2 : mid.differs new = true) :
    mid.by (some c) new = old.by (some c) new := by
  rw [HelioRun.by_of_differs h1, HelioRun.by_of_differs h2]

/-! ### The answer taken -/

/-- The answer to a QUERY with status `st` has been taken for heliostat `h`, as the statements say it in general. -/
structure State.StatusTaken (s t : State) (g h : Nat) (st : Status) : Prop where
  made : s.AnswerMadeOrShed t g h (s.statused st (s.field.run h))
  newest : ∀ a, (s.statused st (s.field.run h)).granted = some a → (s.field.run h).granted ≠ some a → (s.field.run h).leaving ≠ some a →
    t.field.grants.getLast? = some h
  hear : (s.field.run h).queued = true → ∀ a, (s.field.run h).granted = some a → (s.statused st (s.field.run h)).granted ≠ some a →
    s.SettleSetsHear t h a false
  counted : s.osc.opState = .survey → (s.field.run h).state = .unsure → (s.statused st (s.field.run h)).state ≠ .unsure →
    t.osc.adopted = (s.osc.countSurvey h ((Answer.status st).finding s.env)).adopted
      ∧ t.osc.leftLost = (s.osc.countSurvey h ((Answer.status st).finding s.env)).leftLost

theorem mem_addResidual (h : Nat) (x : Reason) (l : List (Nat × Reason)) :
    ∃ y, (h, y) ∈ addResidual h x l ∧ ((∀ p ∈ l, p.1 ≠ h) → y = x) := by
  induction l with
  | nil => exact ⟨x, List.mem_singleton.2 rfl, fun _ => rfl⟩
  | cons p l ih =>
    obtain ⟨k, z⟩ := p
    unfold addResidual
    split
    · exact ⟨x, List.mem_cons_self, fun _ => rfl⟩
    · split
      · next hk => exact ⟨z, hk ▸ List.mem_cons_self, fun hn => absurd hk.symm (hn _ List.mem_cons_self)⟩
      · obtain ⟨y, hy, hyx⟩ := ih
        exact ⟨y, List.mem_cons_of_mem _ hy, fun hn => hyx fun q hq => hn q (List.mem_cons_of_mem _ hq)⟩

/-- A slot that keeps the heliostat and its aim has heard of the withdrawal (R120). -/
theorem Slot.follow_hears {x : Slot} {h a : Nat} (hm : (h, a) ∈ x.settleSet) : (x.follow h a false).flags = x.flags
    ∧ ∃ y, (h, y) ∈ (x.follow h a false).residual ∧ ((∀ p ∈ x.residual, p.1 ≠ h) → y = .revoked) := by
  unfold Slot.follow
  rw [if_pos hm]
  exact ⟨rfl, mem_addResidual h .revoked x.residual⟩

theorem State.settleSetsHear_of {a : Nat} (hs : ∀ n, n < Config.slots →
    ∃ x, t.field.slotAt n = ({ s.field.slotAt n with waitingOn := x } : Slot).followRevoked h (some (a, false))) :
    s.SettleSetsHear t h a false := by
  intro n hn hm
  obtain ⟨x, hx⟩ := hs n hn
  obtain ⟨h1, y, h2, h3⟩ := Slot.follow_hears (x := { s.field.slotAt n with waitingOn := x }) hm
  rw [hx]
  refine ⟨?_, y, h2, h3⟩
  rw [Bool.or_false]
  exact congrArg RunFlags.driveReject h1

/-- What holds of the state however the FAU's tests have gone. -/
theorem State.AnswerEnded.general {found : Option Finding} {new' : HelioRun} (ha : s.AnswerEnded t g h e found new')
    (ht : e.Traced r) (hr : (s.field.run h).Flagged r) (hs : (s.field.run h).Sound) :
    (∀ a, e.r.granted = some a → (s.field.run h).granted ≠ some a → (s.field.run h).leaving ≠ some a →
      t.field.grants.getLast? = some h)
    ∧ ((s.field.run h).queued = true → ∀ a, (s.field.run h).granted = some a → e.r.granted ≠ some a → s.SettleSetsHear t h a false) := by
  refine ⟨fun a hg h1 h2 => ?_, fun hq a hg hn => ?_⟩
  · refine ha.newest ?_ (by rw [hg]; rfl)
    by_contra hf
    have hmem : a ∈ e.r.aims := List.mem_append_left _ (by rw [hg]; exact List.mem_singleton.2 rfl)
    have := (ht.eases (eq_false_of_ne_true hf)).aims.subset hmem
    rw [hr.aims, HelioRun.aims, List.mem_append, Option.mem_toList, Option.mem_toList] at this
    exact this.elim h1 h2
  · have hslew := (hs.2.2.2.2.2.2.2 hq).1
    have hrev : e.revoked = some (a, false) := by
      rcases ht.revoked (hr.queued.trans hq) with hv | hv
      · rw [hv.1, hr.granted, hg]
        rfl
      · exact absurd (hv.2.trans (hr.granted.trans hg)) hn
    refine State.settleSetsHear_of fun n hn => ?_
    rw [← hrev]
    exact ha.hear (by rw [hslew]; exact nofun) n hn

theorem HelioRun.stamped_flagged (n : Nat) (st : Status) (r : HelioRun) : r.Flagged ((r.stamped n).flagged st) := by
  have h : r.Flagged (r.stamped n) := ⟨rfl, rfl, rfl, rfl, rfl, rfl⟩
  exact h.trans (HelioRun.flagged_flagged st (r.stamped n))

theorem HelioRun.owing_differs {r : HelioRun} (ho : r.owed = none) (c : Cause) : r.differs (r.owing c) = true := by
  unfold HelioRun.owing HelioRun.differs
  rw [ho]
  simp

theorem HelioRun.differs_of_granted {old new : HelioRun} (hg : new.granted ≠ old.granted) : old.differs new = true := by
  unfold HelioRun.differs
  simp [Ne.symm hg]

/-- The answer to a QUERY is taken (R56, R76). -/
theorem State.status_taken {n : Fin 4} {x : Exchange} {frame : List Byte} {fr : SegFrame} {st : Status} (hd : s.AnswerDue n x frame fr)
    (hk : x.kind = .query) (ha : readAnswer fr.kind fr.params = some (.status st)) (hs : s.Sound) (hz : s.ZonesSettled)
    (hl : s.field.LinesExact s.env) (ht : s.field.Tidy) :
    ∃ t, exec (.driveAnswer n frame) s = .next t ∧ s.StatusTaken t n x.helio st := by
  obtain ⟨htr, her, t, hx, hend⟩ := State.status_ended hd hk ha hs hz hl ht
  have hflag := HelioRun.stamped_flagged s.now st (s.field.run x.helio)
  have hsound := hs.records x.helio
  refine ⟨t, hx, ?_⟩
  generalize s.statusEdit n x.helio st = e at htr her hend
  have hgr : e.r.granted = (s.statused st (s.field.run x.helio)).granted := by rw [her]; rfl
  rcases hend with hend | ⟨hn, ho, hend⟩
  · obtain ⟨h1, h2⟩ := hend.general htr hflag hsound
    rw [hgr] at h1 h2
    exact ⟨Or.inl hend.made, h1, h2, hend.counted⟩
  · obtain ⟨h1, h2⟩ := hend.general htr hflag hsound
    rw [hgr] at h1 h2
    have hst : (s.statused st (s.field.run x.helio)).state = .tracking := by
      have := (htr.adopted hn).1
      rwa [her] at this
    obtain ⟨b, hb⟩ := Option.isSome_iff_exists.1 ((htr.onAim hn).granted htr.good.sound)
    have hfresh : ∀ o : Option Nat, (∀ c, o = some c → c ∈ (s.field.run x.helio).aims) → (s.statused st (s.field.run x.helio)).granted ≠ o := by
      intro o ho hc
      rw [← hgr, hb] at hc
      exact (htr.adopted hn).2 b (by rw [hflag.aims]; exact ho b hc.symm) hb
    have hfg := hfresh _ fun c hc => List.mem_append_left _ (Option.mem_toList.2 hc)
    have hfl := hfresh _ fun c hc => List.mem_append_right _ (Option.mem_toList.2 hc)
    have hd1 := HelioRun.owing_differs ho .shed
    have hd0 : (s.field.run x.helio).differs ((s.statused st (s.field.run x.helio)).owing .shed) = true :=
      HelioRun.differs_of_granted (by rw [(HelioRun.owing_fields _ _).2.1]; exact hfg)
    have hmade := hend.made
    rw [HelioRun.by_last hd0 hd1] at hmade
    refine ⟨Or.inr ⟨hst, ho, hfg, hfl, hmade.of_by⟩, h1, h2, fun c1 c2 c3 => hend.counted c1 c2 ?_⟩
    rw [HelioRun.by_state, (HelioRun.owing_fields _ _).1]
    exact c3

/-- Where the record is no new adoption that owes nothing, it is what the status makes of it. -/
theorem State.StatusTaken.made_of {st : Status} {c : Option Cause} (ht : s.StatusTaken t g h st)
    (hx : s.statused st (s.field.run h) = (s.field.run h).by c new)
    (hn : new.owed.isSome = true ∨ new.state ≠ .tracking ∨ new.granted = (s.field.run h).granted ∨ new.granted = (s.field.run h).leaving) :
    s.AnswerMade t g h c new := by
  obtain ⟨y, hy⟩ := HelioRun.by_cause c (s.field.run h) new
  have hm := ht.made
  rw [hx] at hm
  refine (hm.resolve_right ?_).of_by
  rintro ⟨h1, h2, h3, h4, -⟩
  rw [hy] at h1 h2 h3 h4
  rcases hn with hn | hn | hn | hn
  · rw [show new.owed = none from h2] at hn
    cases hn
  · exact hn h1
  · exact h3 hn
  · exact h4 hn

end Sys2Proof.Machine
end

section
/-! PROOFS for flux admission: the record that a status makes, case by case (R76 to R80), and the answer to a QUERY. -/

namespace Sys2Proof.Machine

variable {s t : State} {g h a : Nat} {r x : HelioRun} {st : Status} {p : Position} {c : Option Cause}

/-! ### A status without flags (R76) -/

/-- Neither the status nor the record has a flag, but for the fault cause. -/
def HelioRun.Plain (st : Status) (r : HelioRun) : Prop :=
  st.localControl = false ∧ st.fault = false ∧ st.limit = false ∧ r.localControl = false

theorem HelioRun.flagged_quiet (hl : r.localControl = st.localControl)
    (hq : r.fault.isSome = true ∨ (st.fault = false ∧ st.localControl = false)) : r.flagged st = r := by
  have h1 : r.by (some (if st.localControl then .localControl else .recovered)) { r with localControl := st.localControl } = r := by
    rw [← hl]
    exact HelioRun.by_self r _
  unfold HelioRun.flagged
  rw [h1]
  dsimp only
  split
  · rfl
  · next hf =>
    obtain ⟨h2, h3⟩ := hq.resolve_left hf
    simp [h2, h3]

theorem State.statused_plain (hp : r.Plain st) : s.statused st r = (s.placed st.position r).faultedAtRest r := by
  obtain ⟨h1, h2, h3, h4⟩ := hp
  have hf : ∀ r : HelioRun, r.failedAsSaid st = r := fun r => by simp [HelioRun.failedAsSaid, h1, h2, h3]
  unfold State.statused
  dsimp only
  rw [HelioRun.flagged_quiet (h4.trans h1.symm) (Or.inr ⟨h2, h1⟩), hf]

/-- What has not come to rest with a fault cause stays (R76). -/
theorem HelioRun.faultedAtRest_eq {before : HelioRun}
    (hx : (x.state ≠ .standby ∧ x.state ≠ .stowed) ∨ x.state = before.state ∨ x.fault = none) : x.faultedAtRest before = x := by
  refine if_neg fun ⟨h1, h2, h3⟩ => ?_
  rcases hx with hx | hx | hx
  · exact h1.elim hx.1 hx.2
  · exact h2 hx
  · rw [hx] at h3
    cases h3

/-- A position that the record does not come to rest at. -/
theorem State.statused_of_placed (hp : r.Plain st) (hx : s.placed st.position r = r.by c x)
    (hs : (x.state ≠ .standby ∧ x.state ≠ .stowed) ∨ x.state = r.state ∨ x.fault = none) : s.statused st r = r.by c x := by
  obtain ⟨y, hy⟩ := HelioRun.by_cause c r x
  rw [State.statused_plain hp, hx]
  refine HelioRun.faultedAtRest_eq ?_
  rw [hy]
  exact hs

/-- A position that changes nothing. -/
theorem State.statused_of_kept (hp : r.Plain st) (hx : s.placed st.position r = r) : s.statused st r = r := by
  rw [State.statused_plain hp, hx]
  exact HelioRun.faultedAtRest_eq (Or.inr (Or.inl rfl))

theorem HelioRun.differs_of_state {old new : HelioRun} (hs : old.state ≠ new.state) : old.differs new = true := by
  unfold HelioRun.differs
  simp [hs]

/-- The busy count of a heliostat that comes to rest FAULTED is that of its owed motion cleared (R69). -/
theorem HelioRun.busyCount_rested (place : Rest) (r : HelioRun) :
    (if (if r.owed.map Owed.motion = some .stow ∧ place = .standby then r.owed else none).isSome then 0
      else if r.owed.map Owed.motion = some .stow ∧ place = .standby then r.busyCount
      else if r.owed.isSome then 0 else r.busyCount) = if r.owed.isSome then 0 else r.busyCount := by
  by_cases hleft : r.owed.map Owed.motion = some .stow ∧ place = .standby
  · simp only [if_pos hleft]
  · rw [if_neg hleft, if_neg hleft]
    rfl

/-- A heliostat that comes to rest with a fault cause is FAULTED (R76). -/
theorem State.statused_of_rested {place : Rest} (hp : r.Plain st) (hx : s.placed st.position r = r.by c (r.restedAt place))
    (hs : r.state ≠ place.state) (hnf : r.state ≠ .faulted) (hf : r.fault.isSome = true) : s.statused st r = r.by c r.faultedOff := by
  have hd1 : r.differs (r.restedAt place) = true := HelioRun.differs_of_state hs
  have hd2 : r.differs r.faultedOff = true := HelioRun.differs_of_state hnf
  have hrest : (r.restedAt place).state = .standby ∨ (r.restedAt place).state = .stowed := by cases place <;> simp [HelioRun.restedAt, Rest.state]
  have hby : ∀ new : HelioRun, r.differs new = true → r.by c new = { new with lastCause := c.orElse fun _ => new.lastCause } :=
    fun new hd => if_pos hd
  rw [State.statused_plain hp, hx, hby _ hd1, hby _ hd2]
  unfold HelioRun.faultedAtRest
  rw [if_pos ⟨hrest, Ne.symm hs, hf⟩]
  unfold HelioRun.faultedOff HelioRun.restedAt
  dsimp only [HelioRun.stopped]
  rw [HelioRun.busyCount_rested place r]

/-! ### Where a heliostat without flags stands (R77 to R80) -/

theorem State.adoptedBy_form (s : State) (a : Nat) (r : HelioRun) : ∃ x, s.adoptedBy a r = r.by (some .adopted) x
    ∧ x.state = .tracking ∧ x.granted = some a := by
  unfold State.adoptedBy
  refine ⟨_, rfl, ?_⟩
  split
  · exact ⟨(HelioRun.owing_fields _ _).1, (HelioRun.owing_fields _ _).2.1⟩
  · exact ⟨rfl, rfl⟩

theorem State.statused_of_adopted (hp : r.Plain st) (hx : s.placed st.position r = s.adoptedBy a r) :
    s.statused st r = s.adoptedBy a r := by
  obtain ⟨x, h1, h2, -⟩ := State.adoptedBy_form s a r
  rw [h1] at hx ⊢
  exact State.statused_of_placed hp hx (Or.inl (by rw [h2]; exact ⟨nofun, nofun⟩))

/-- A heliostat that is not expected on the receiver (R80). -/
def HelioRun.Unexpected (r : HelioRun) : Prop :=
  r.state = .unsure ∨ r.state = .standby ∨ r.state = .stowed ∨ (r.state = .returning ∧ r.released = true)

theorem State.placed_unexpected (hu : r.Unexpected) : s.placed (.onAim a) r = s.foundOn a r := by
  rcases hu with hs | hs | hs | ⟨hs, hr⟩
  · simp only [State.placed, State.placedAtRest, hs]
  · simp only [State.placed, State.placedAtRest, hs]
  · simp only [State.placed, State.placedAtRest, hs]
  · simp only [State.placed, State.placedReturning, hs, hr, if_true]

/-- Found on a present aim point that it does not hold (R43, R79, R80). -/
theorem State.placed_found (hu : r.Unexpected ∨ r.state = .faulted ∨ (r.state = .lost ∧ r.unaccounted = true))
    (ha : (s.live.aimAt a).present = true) : s.placed (.onAim a) r = s.adoptedBy a r := by
  rcases hu with hu | hs | ⟨hs, hun⟩
  · rw [State.placed_unexpected hu, State.foundOn, if_pos ha]
  · simp only [State.placed, State.placedAtRest, hs, ha, if_true]
  · simp only [State.placed, State.placedLost, hs, hun, ha, and_self, if_true]

theorem HelioRun.grantState_found (hu : r.Unexpected ∨ r.state = .faulted ∨ (r.state = .lost ∧ r.unaccounted = true)) :
    r.grantState = false := by
  rcases hu with (hs | hs | hs | ⟨hs, hr⟩) | hs | ⟨hs, hr⟩ <;> simp [HelioRun.grantState, *]

theorem HelioRun.owing_lastCause (y : Option Cause) (k : Cause) (r : HelioRun) :
    ({ r with lastCause := y } : HelioRun).owing k = { r.owing k with lastCause := y } := by
  unfold HelioRun.owing
  dsimp only
  split <;> rfl

theorem State.AnswerMade.of_lastCause {k : Cause} {y : Option Cause} (hm : s.AnswerMade t g h (some k) { x with lastCause := y })
    (hd : (s.field.run h).differs x = true) : s.AnswerMade t g h (some k) x := by
  have h1 := hm.by
  rw [HelioRun.by_of_differs (new := { x with lastCause := y }) hd] at h1
  refine State.AnswerMade.of_by ?_
  rw [HelioRun.by_of_differs hd]
  exact h1

theorem HelioRun.owing_differs_adopted {k : Cause} (hg : r.granted = none) (a : Nat) : r.differs ((r.adoptedOn a).owing k) = true :=
  HelioRun.differs_of_granted (by rw [(HelioRun.owing_fields _ _).2.1, hg]; exact nofun)

/-- The adoption of a heliostat that held no aim (R43, R45, R155). -/
theorem State.StatusTaken.adopted (ht : s.StatusTaken t g h st) (hx : s.statused st (s.field.run h) = s.adoptedBy a (s.field.run h))
    (hg : (s.field.run h).granted = none) (hl : (s.field.run h).leaving = none) : s.Adopted t g h a (s.field.run h) := by
  obtain ⟨x, h1, h2, h3⟩ := State.adoptedBy_form s a (s.field.run h)
  refine ⟨ht.newest a ?_ (by rw [hg]; exact nofun) (by rw [hl]; exact nofun), ?_⟩
  · rw [hx, h1, HelioRun.by_granted, h3]
  · cases ho : s.adoptionOwes a (s.field.run h) with
    | some why =>
      have hform : s.adoptedBy a (s.field.run h) = (s.field.run h).by (some .adopted) (((s.field.run h).adoptedOn a).owing why) := by
        unfold State.adoptedBy
        rw [ho]
      exact ht.made_of (hx.trans hform) (Or.inl (HelioRun.owing_owed _ _))
    | none =>
      have hform : s.adoptedBy a (s.field.run h) = (s.field.run h).by (some .adopted) ((s.field.run h).adoptedOn a) := by
        unfold State.adoptedBy
        rw [ho]
      obtain ⟨y, hy⟩ := HelioRun.by_cause (some .adopted) (s.field.run h) ((s.field.run h).adoptedOn a)
      have hm := ht.made
      rw [hx, hform] at hm
      rcases hm with hm | ⟨-, howed, -, -, hm⟩
      · exact Or.inl hm.of_by
      · rw [hy] at howed hm
        have howed : (s.field.run h).owed = none := howed
        rw [HelioRun.owing_lastCause] at hm
        exact Or.inr ⟨howed, hm.of_lastCause (HelioRun.owing_differs_adopted hg a)⟩

theorem State.placed_absent (hu : r.Unexpected) (ha : (s.live.aimAt a).present ≠ true) :
    s.placed (.onAim a) r = r.by (some .survey) (r.lostOff.owing (r.faultOr .survey)) := by
  rw [State.placed_unexpected hu, State.foundOn, if_neg ha]

theorem State.placed_lost_onAim (hs : r.state = .lost) (hn : r.unaccounted = false ∨ (s.live.aimAt a).present ≠ true) :
    s.placed (.onAim a) r = r.by (some (r.faultOr .silence)) (r.owing (r.faultOr .silence)) := by
  have hc : ¬ (r.unaccounted = true ∧ (s.live.aimAt a).present = true) := fun ⟨h1, h2⟩ => by
    rcases hn with hn | hn
    · rw [hn] at h1; cases h1
    · exact hn h2
  simp only [State.placed, State.placedLost, hs, if_neg hc]

theorem State.placed_elsewhere (hs : r.state = .tracking ∨ (r.state = .slewing ∧ r.accepted = true ∧ r.leaving ≠ some a))
    (hg : r.granted ≠ some a) : s.placed (.onAim a) r = r.by (some .driveLeft) (r.owing .driveLeft) := by
  rcases hs with hs | ⟨hs, hacc, hl⟩
  · simp only [State.placed, HelioRun.placedTracking, hs, if_neg hg]
  · simp only [State.placed, HelioRun.placedSlewing, hs, hacc, if_true, if_neg hg, if_neg hl]

theorem State.placed_moving {u v : Bool} {b : Nat} (hs : r.state = .tracking ∨ (r.state = .slewing ∧ r.accepted = true))
    (hg : ∀ b', Position.moving u v b = .moving true false b' → r.granted ≠ some b') :
    s.placed (.moving u v b) r = r.by (some .driveLeft) (r.owing .driveLeft) := by
  have hc : ¬ (u = true ∧ v = false ∧ r.granted = some b) := fun ⟨h1, h2, h3⟩ => hg b (by rw [h1, h2]) h3
  rcases hs with hs | ⟨hs, hacc⟩
  · simp only [State.placed, HelioRun.placedTracking, hs, if_neg hc]
  · simp only [State.placed, HelioRun.placedSlewing, hs, hacc, if_true, if_neg hc]

theorem State.placed_rest {place : Rest} (hpl : p = (match place with | .standby => .atStandby | .stowed => .stowed)) :
    (r.state = .tracking ∨ (r.state = .slewing ∧ r.accepted = true) → s.placed p r = r.by (some .driveLeft) (r.restedAt place))
      ∧ (r.state = .returning → s.placed p r = r.by r.motionCause (r.restedAt place))
      ∧ (r.state = .lost → s.placed p r = r.by (some .recovered) (r.restedAt place))
      ∧ (r.state = .unsure ∨ r.state = .standby ∨ r.state = .stowed → s.placed p r = r.by (some .survey) (r.restedAt place)) := by
  subst hpl
  cases place
  all_goals
    refine ⟨fun hs => ?_, fun hs => ?_, fun hs => ?_, fun hs => ?_⟩
    · rcases hs with hs | ⟨hs, hacc⟩
      · simp only [State.placed, HelioRun.placedTracking, hs]
      · simp only [State.placed, HelioRun.placedSlewing, hs, hacc, if_true]
    · simp only [State.placed, State.placedReturning, hs]
    · simp only [State.placed, State.placedLost, hs]
    · rcases hs with hs | hs | hs <;> simp only [State.placed, State.placedAtRest, hs]

/-! ### Where its record says (R76 to R80) -/

theorem HelioRun.atRest_eq {place : Rest} (hs : r.state = place.state) (hg : r.granted = none) (hl : r.leaving = none) :
    r.atRest place = r := by
  cases r
  dsimp only at hs hg hl
  subst hs hg hl
  cases place <;> rfl

/-- A heliostat that rests where its record says (R11). -/
theorem HelioRun.Good.restedAt_eq (hg : r.Good) {place : Rest} (hs : r.state = place.state) : r.restedAt place = r := by
  obtain ⟨h1, h2⟩ := hg.sound.no_aims (by cases place <;> simp [HelioRun.grantState, hs, Rest.state])
  rw [← (hg.atRest place).1, HelioRun.atRest_eq hs h1 h2, hg.tidy_eq]

theorem State.placed_agrees (hg : r.Good) (hp : p.Agrees s.live r) : s.placed p r = r := by
  have hdrop : r.leaving = none → r.by r.motionCause { r with leaving := none } = r := fun hl => by
    rw [← hl]
    exact HelioRun.by_self r _
  have hstay : r.state = .unsure → r.by (some .survey) { r with state := .unsure } = r := fun hs => by
    rw [← hs]
    exact HelioRun.by_self r _
  unfold Position.Agrees at hp
  unfold State.placed
  cases hs : r.state <;> rw [hs] at hp <;> dsimp only at hp ⊢
  case slewing =>
    rcases hp with ⟨b, rfl, hl, hgr⟩ | ⟨rfl, hl⟩ | ⟨hacc, b, rfl, hgr⟩ | ⟨hacc, hre, ⟨rfl, hrest⟩ | ⟨rfl, hrest⟩⟩
    · split
      · simp only [HelioRun.placedSlewing, if_neg hgr, if_pos hl]
      · simp only [State.placedUnaccepted, if_neg hgr, if_pos hl]
    · split
      · exact hdrop hl
      · exact hdrop hl
    · simp only [HelioRun.placedSlewing, hacc, hgr, and_self, if_true]
    · simp [State.placedUnaccepted, hacc, hre, hrest]
    · simp [State.placedUnaccepted, hacc, hre, hrest]
  case tracking =>
    obtain ⟨b, rfl | rfl, hgr⟩ := hp
    · simp only [HelioRun.placedTracking, hgr, if_true]
    · simp only [HelioRun.placedTracking, hgr, and_self, if_true]
  case returning =>
    rcases hp with ⟨u, v, b, rfl⟩ | ⟨hr, b, rfl⟩ | ⟨hr, rfl⟩
    · rfl
    · simp [State.placedReturning, hr]
    · simp [State.placedReturning, hr]
  case lost =>
    obtain ⟨u, v, b, rfl⟩ := hp
    rfl
  case unsure =>
    rcases hp with rfl | ⟨u, v, b, rfl⟩
    · simp only [State.placedAtRest, hs]
      exact hstay hs
    · simp only [State.placedAtRest, hs]
      exact hstay hs
  case standby =>
    subst hp
    simp only [State.placedAtRest, hs]
    rw [hg.restedAt_eq (place := .standby) hs, HelioRun.by_self]
  case stowed =>
    subst hp
    simp only [State.placedAtRest, hs]
    rw [hg.restedAt_eq (place := .stowed) hs, HelioRun.by_self]
  case faulted =>
    cases p with
    | onAim a => simp [State.placedAtRest, hs, hp a rfl]
    | _ => simp only [State.placedAtRest, hs]

theorem Position.Agrees.congr {live : Tables} {r r' : HelioRun} (hp : p.Agrees live r) (h1 : r'.state = r.state)
    (h2 : r'.granted = r.granted) (h3 : r'.leaving = r.leaving) (h4 : r'.accepted = r.accepted) (h5 : r'.reAim = r.reAim)
    (h6 : r'.rest = r.rest) (h7 : r'.released = r.released) : p.Agrees live r' := by
  unfold Position.Agrees at *
  rw [h1, h2, h3, h4, h5, h6, h7]
  exact hp

/-- Where the heliostat stands as its record says, the flags and their consequences alone count (R76). -/
theorem State.statused_agrees (hg : (r.flagged st).Good) (hp : st.position.Agrees s.live (r.flagged st)) :
    s.statused st r = (r.flagged st).failedAsSaid st := by
  unfold State.statused
  dsimp only
  rw [State.placed_agrees hg hp, HelioRun.faultedAtRest_eq (Or.inr (Or.inl rfl))]

/-! ### The flags of a heliostat that stands where its record says (R8, R12, R76) -/

/-- A record with the last cause `k`. -/
def HelioRun.caused (k : Cause) (r : HelioRun) : HelioRun := { r with lastCause := some k }

/-- A change whose record has its cause already. -/
theorem HelioRun.by_caused (k : Cause) (old new : HelioRun) : old.by (some k) (new.caused k) = new.caused k := by
  unfold HelioRun.by
  split <;> rfl

theorem HelioRun.owing_caused (k c : Cause) (r : HelioRun) : (r.caused k).owing c = (r.owing c).caused k :=
  HelioRun.owing_lastCause (some k) c r

theorem HelioRun.grantUndone_caused (k : Cause) (r : HelioRun) : (r.caused k).grantUndone = r.grantUndone.caused k := by
  unfold HelioRun.grantUndone HelioRun.caused
  dsimp only
  split <;> rfl

theorem HelioRun.differs_of_fault {old new : HelioRun} (h1 : old.fault = none) (h2 : new.fault.isSome = true) : old.differs new = true := by
  obtain ⟨y, hy⟩ := Option.isSome_iff_exists.1 h2
  unfold HelioRun.differs
  simp [h1, hy]

/-- The fault cause that a status with FAULT or LOCAL gives (R2, R76). -/
def Status.faultCause (st : Status) : FaultCause := if st.fault then .driveFault (some st.code) else .localControl

/-- A record that the flags of a status have failed. -/
def HelioRun.failed (st : Status) (r : HelioRun) : HelioRun :=
  { r with fault := some st.faultCause, localControl := st.localControl }

/-- The fault cause that a status with FAULT or LOCAL sets where there is none (R8, R76). -/
theorem HelioRun.faultFlag_eq (hf : r.fault = none) (hs : st.fault = true ∨ st.localControl = true) :
    (if r.fault.isSome then r
    else if st.fault then r.by (some .driveFault) { r with fault := some (.driveFault (some st.code)) }
    else if st.localControl then r.by (some .localControl) { r with fault := some .localControl }
    else r) = { r with fault := some st.faultCause, lastCause := some st.faultCause.cause } := by
  have hd : ∀ z : FaultCause, r.differs { r with fault := some z } = true := fun z => HelioRun.differs_of_fault hf rfl
  unfold Status.faultCause
  rw [hf, if_neg (by exact nofun)]
  by_cases hx : st.fault = true
  · rw [if_pos hx, if_pos hx, HelioRun.by_of_differs (hd _)]
    rfl
  · rw [if_neg hx, if_neg hx, if_pos (hs.resolve_left hx), HelioRun.by_of_differs (hd _)]
    rfl

theorem HelioRun.flagged_failed (hf : r.fault = none) (hs : st.fault = true ∨ st.localControl = true) :
    r.flagged st = (r.failed st).caused st.faultCause.cause := by
  obtain ⟨y, hy⟩ := HelioRun.by_cause (some (if st.localControl then .localControl else .recovered)) r
    { r with localControl := st.localControl }
  unfold HelioRun.flagged
  rw [hy]
  exact HelioRun.faultFlag_eq (r := { r with localControl := st.localControl, lastCause := y }) hf hs

theorem HelioRun.failedAsSaid_failed (hs : st.fault = true ∨ st.localControl = true) (hl : st.limit = false) :
    r.failedAsSaid st = r.failedBy st.faultCause.cause := by
  unfold HelioRun.failedAsSaid Status.faultCause
  dsimp only
  rw [hl]
  cases hx : st.fault
  · have hl : st.localControl = true := hs.resolve_left (by rw [hx]; exact Bool.false_ne_true)
    simp [hl, FaultCause.cause]
  · simp [FaultCause.cause]

theorem HelioRun.Good.caused (hg : r.Good) (k : Cause) : (r.caused k).Good := by
  obtain ⟨h1, h2, h3, h4, h5, h6, h7, h8⟩ := hg.tidy
  exact ⟨hg.sound.other rfl rfl rfl rfl rfl rfl rfl rfl rfl rfl, ⟨h1, h2, h3, h4, h5, h6, h7, h8⟩⟩

theorem HelioRun.Good.failed (hg : r.Good) (st : Status) : (r.failed st).Good := by
  obtain ⟨h1, h2, h3, h4, h5, h6, h7, h8⟩ := hg.tidy
  exact ⟨hg.sound.other rfl rfl rfl rfl rfl rfl rfl rfl rfl rfl, ⟨h1, h2, h3, h4, h5, h6, h7, h8⟩⟩

/-- What FAULT or LOCAL makes of a heliostat without a fault cause that stands where its record says (R12, R76). -/
theorem State.statused_failed (hg : r.Good) (hp : st.position.Agrees s.live r) (hf : r.fault = none)
    (hs : st.fault = true ∨ st.localControl = true) (hl : st.limit = false) : s.statused st r =
      ((r.failed st).caused st.faultCause.cause).failedBy st.faultCause.cause := by
  have h1 := HelioRun.flagged_failed hf hs
  rw [State.statused_agrees (h1 ▸ (hg.failed st).caused _) (h1 ▸ hp.congr rfl rfl rfl rfl rfl rfl rfl), h1, HelioRun.failedAsSaid_failed hs hl]

section Failed
variable (r : HelioRun) (k : Cause)

/-- The record of a heliostat that is sent off, but for its cause (R11, R12). -/
def HelioRun.sentRecord : HelioRun :=
  if r.queued then (if r.leaving.isSome then r.grantUndone.owing k else r.grantUndone)
  else if r.state = .returning then { r with owed := none, busyCount := 0 }
  else r.owing k

theorem HelioRun.sentOff_eq : r.sentOff k = r.by (some k) (r.sentRecord k) := rfl

theorem HelioRun.sentRecord_caused : (r.caused k).sentRecord k = (r.sentRecord k).caused k := by
  have h1 : (r.caused k).sentRecord k = if r.queued then (if r.leaving.isSome then (r.caused k).grantUndone.owing k else (r.caused k).grantUndone)
      else if r.state = .returning then HelioRun.caused k { r with owed := none, busyCount := 0 } else (r.caused k).owing k := rfl
  rw [h1, HelioRun.grantUndone_caused, HelioRun.owing_caused, HelioRun.owing_caused]
  unfold HelioRun.sentRecord
  split
  · split <;> rfl
  · split <;> rfl

theorem HelioRun.sentOff_caused : (r.caused k).sentOff k = (r.sentRecord k).caused k := by
  rw [HelioRun.sentOff_eq, HelioRun.sentRecord_caused, HelioRun.by_caused]

/-- A failure, whose cause the record has already (R76, log entry 34). -/
theorem HelioRun.failedBy_caused : (r.caused k).failedBy k =
    (let r1 := if r.holdsLoad then r.sentRecord k else r
    if r1.holdsLoad = true ∨ r1.state = .faulted then r1 else r1.faultedOff).caused k := by
  have h1 : (if (r.caused k).holdsLoad then (r.caused k).sentOff k else r.caused k) =
      (if r.holdsLoad then r.sentRecord k else r).caused k := by
    rw [HelioRun.sentOff_caused]
    exact (apply_ite (HelioRun.caused k) _ _ _).symm
  unfold HelioRun.failedBy
  dsimp only
  rw [h1]
  generalize (if r.holdsLoad then r.sentRecord k else r) = r1
  by_cases hc : r1.holdsLoad = true ∨ r1.state = .faulted
  · rw [if_pos hc, if_pos (show (r1.caused k).holdsLoad = true ∨ (r1.caused k).state = .faulted from hc)]
  · rw [if_neg hc, if_neg (show ¬ ((r1.caused k).holdsLoad = true ∨ (r1.caused k).state = .faulted) from hc)]
    exact HelioRun.by_caused k _ r1.faultedOff

/-- The failure of a load holder without a Move Queue entry. -/
theorem HelioRun.failedBy_loaded (hl : r.holdsLoad = true) (hq : r.queued = false) : (r.caused k).failedBy k =
    (if r.state = .returning then { r with owed := none, busyCount := 0 } else r.owing k).caused k := by
  have hsent : r.sentRecord k = if r.state = .returning then { r with owed := none, busyCount := 0 } else r.owing k := by
    unfold HelioRun.sentRecord
    rw [hq, if_neg Bool.false_ne_true]
  have hload : (r.sentRecord k).holdsLoad = true := by
    rw [hsent]
    split
    · exact hl
    · unfold HelioRun.owing
      split <;> exact hl
  rw [HelioRun.failedBy_caused, if_pos hl]
  dsimp only
  rw [if_pos (Or.inl hload), hsent]

/-- The failure of a heliostat that holds no load. -/
theorem HelioRun.failedBy_unloaded (hl : r.holdsLoad = false) (hs : r.state ≠ .faulted) :
    (r.caused k).failedBy k = r.faultedOff.caused k := by
  have hsent : (if r.holdsLoad then r.sentRecord k else r) = r := if_neg (by rw [hl]; exact Bool.false_ne_true)
  rw [HelioRun.failedBy_caused, hsent]
  dsimp only
  rw [if_neg (by rintro (hc | hc); exacts [absurd (hl.symm.trans hc) Bool.false_ne_true, hs hc])]

/-- The failure of a heliostat whose re-aim waits in the Move Queue (R12). -/
theorem HelioRun.failedBy_reAim (hq : r.queued = true) (hl : r.leaving.isSome = true) :
    (r.caused k).failedBy k = (r.grantUndone.owing k).caused k := by
  have hsent : r.sentRecord k = r.grantUndone.owing k := by
    unfold HelioRun.sentRecord
    rw [if_pos hq, if_pos hl]
  have hload : r.holdsLoad = true := by
    unfold HelioRun.holdsLoad
    simp [hl]
  have hundone : (r.grantUndone.owing k).holdsLoad = true := by
    obtain ⟨b, hb⟩ := Option.isSome_iff_exists.1 hl
    have h1 : r.grantUndone.holdsLoad = true := by
      unfold HelioRun.grantUndone
      rw [hb]
      rfl
    unfold HelioRun.owing
    split <;> exact h1
  rw [HelioRun.failedBy_caused, if_pos hload, hsent]
  dsimp only
  rw [if_pos (Or.inl hundone)]

/-- The failure of a heliostat whose grant from rest waits in the Move Queue (log entry 34). -/
theorem HelioRun.failedBy_grant (hg : r.Good) (hq : r.queued = true) (hl : r.leaving = none) :
    (r.caused k).failedBy k = r.grantUndone.faultedOff.caused k := by
  have hsent : r.sentRecord k = r.grantUndone := by
    unfold HelioRun.sentRecord
    rw [if_pos hq, if_neg (by rw [hl]; exact nofun)]
  have hload : r.holdsLoad = true := by
    rw [hg.sound.holdsLoad_eq, hg.sound.1]
    simp [HelioRun.grantState, (hg.sound.2.2.2.2.2.2.2 hq).1]
  have hundone : r.grantUndone.holdsLoad = false ∧ r.grantUndone.state ≠ .faulted := by
    unfold HelioRun.grantUndone
    rw [hl]
    exact ⟨rfl, by cases r.rest <;> exact nofun⟩
  rw [HelioRun.failedBy_caused, if_pos hload, hsent]
  dsimp only
  rw [if_neg (by rintro (hc | hc); exacts [absurd (hundone.1.symm.trans hc) Bool.false_ne_true, hundone.2 hc])]

end Failed

/-- The record of a failure, with its cause (R17). -/
theorem HelioRun.caused_eq_by {k : Cause} (hf : r.fault = none) (hx : x.fault.isSome = true) : x.caused k = r.by (some k) x :=
  (HelioRun.by_of_differs (HelioRun.differs_of_fault hf hx)).symm

/-! ### Withdrawals (R12, R120) -/

theorem HelioRun.granted_grantUndone (r : HelioRun) : r.grantUndone.granted = r.leaving := by
  unfold HelioRun.grantUndone
  cases r.leaving <;> rfl

theorem HelioRun.sentOff_fields (k : Cause) (r : HelioRun) :
    (r.sentOff k).granted = (if r.queued then r.leaving else r.granted) ∧ (r.sentOff k).queued = false := by
  rw [HelioRun.sentOff_eq, HelioRun.by_granted, HelioRun.by_queued]
  unfold HelioRun.sentRecord
  by_cases hq : r.queued = true
  case neg =>
    rw [if_neg hq, if_neg hq]
    split
    · exact ⟨rfl, eq_false_of_ne_true hq⟩
    · obtain ⟨-, h2, h3⟩ := HelioRun.owing_fields k r
      exact ⟨h2, h3.trans (eq_false_of_ne_true hq)⟩
  case pos =>
    rw [if_pos hq, if_pos hq]
    have hu := HelioRun.granted_grantUndone r
    have hn := HelioRun.queued_grantUndone r
    split
    · obtain ⟨-, h2, h3⟩ := HelioRun.owing_fields k r.grantUndone
      exact ⟨h2.trans hu, h3.trans hn⟩
    · exact ⟨hu, hn⟩

/-- The failure of a queued heliostat leaves it its leaving aim alone. -/
theorem HelioRun.failedBy_queued (hl : r.holdsLoad = true) (hq : r.queued = true) (k : Cause) :
    (r.failedBy k).granted = r.leaving ∧ (r.failedBy k).queued = false := by
  obtain ⟨h1, h2⟩ := HelioRun.sentOff_fields k r
  rw [if_pos hq] at h1
  unfold HelioRun.failedBy
  dsimp only
  rw [if_pos hl]
  split
  · exact ⟨h1, h2⟩
  · next hc =>
    rw [HelioRun.by_granted, HelioRun.by_queued]
    have hn : (r.sentOff k).granted = none := by
      have h3 : (r.sentOff k).holdsLoad = false := by simpa using fun h => hc (Or.inl h)
      unfold HelioRun.holdsLoad at h3
      simpa using (Bool.or_eq_false_iff.1 h3).1
    exact ⟨hn.symm.trans h1, rfl⟩

/-- A status with a flag leaves a queued heliostat that stands where its record says its leaving aim alone (R12). -/
theorem HelioRun.failedAsSaid_queued (hg : r.Good) (hq : r.queued = true)
    (hs : st.fault = true ∨ st.localControl = true ∨ st.limit = true) : (r.failedAsSaid st).granted = r.leaving := by
  have hslew := (hg.sound.2.2.2.2.2.2.2 hq).1
  have hload : r.holdsLoad = true := by
    rw [hg.sound.holdsLoad_eq, hg.sound.1]
    simp [HelioRun.grantState, hslew]
  have hlimit : ∀ r1 : HelioRun, r1.granted = r.leaving ∧ r1.queued = false →
      (if st.limit = true ∧ (r1.state = .slewing ∨ r1.state = .tracking) then r1.sentOff .reject else r1).granted = r.leaving := by
    rintro r1 ⟨h1, h2⟩
    split
    · rw [(HelioRun.sentOff_fields _ _).1, h2, if_neg Bool.false_ne_true]
      exact h1
    · exact h1
  unfold HelioRun.failedAsSaid
  dsimp only
  by_cases hf : st.fault = true
  · rw [if_pos hf]
    exact hlimit _ (HelioRun.failedBy_queued hload hq _)
  · by_cases hl : st.localControl = true
    · rw [if_neg hf, if_pos hl]
      exact hlimit _ (HelioRun.failedBy_queued hload hq _)
    · have hlim := (hs.resolve_left hf).resolve_left hl
      rw [if_neg hf, if_neg hl, if_pos ⟨hlim, Or.inl hslew⟩, (HelioRun.sentOff_fields _ _).1, if_pos hq]

end Sys2Proof.Machine
end

section
/-! PROOFS for flux admission: what the answer to a QUERY does, clause by clause (R43, R76 to R80, R120, R148). -/

namespace Sys2Proof.Machine

variable {s t : State} {g h a : Nat} {r : HelioRun} {st : Status} {p : Position}

/-! ### Found on an aim point, or moving (R43, R77, R79, R80) -/

/-- A position that makes the heliostat neither TRACKING nor at rest. -/
theorem State.StatusTaken.made_off {c : Option Cause} {new : HelioRun} (ht : s.StatusTaken t g h st) (hp : (s.field.run h).Plain st)
    (hx : s.placed st.position (s.field.run h) = (s.field.run h).by c new)
    (hs : new.state ≠ .tracking ∧ new.state ≠ .standby ∧ new.state ≠ .stowed) : s.AnswerMade t g h c new :=
  ht.made_of (State.statused_of_placed hp hx (Or.inl hs.2)) (Or.inr (Or.inl hs.1))

/-- A heliostat on the receiver that is owed DEFOCUS (R11, R77, R79). -/
theorem State.StatusTaken.made_owing {k : Cause} (ht : s.StatusTaken t g h st) (hp : (s.field.run h).Plain st)
    (hx : s.placed st.position (s.field.run h) = (s.field.run h).by (some k) ((s.field.run h).owing k)) :
    s.AnswerMade t g h (some k) ((s.field.run h).owing k) :=
  ht.made_of (State.statused_of_placed hp hx (Or.inr (Or.inl (HelioRun.owing_fields _ _).1))) (Or.inl (HelioRun.owing_owed _ _))

theorem State.StatusTaken.found (ht : s.StatusTaken t g h st) (hg : (s.field.run h).Good) (hp : (s.field.run h).Plain st)
    (ha : st.position = .onAim a) (hpr : (s.live.aimAt a).present = true) (hu : (s.field.run h).Unexpected
      ∨ (s.field.run h).state = .faulted ∨ ((s.field.run h).state = .lost ∧ (s.field.run h).unaccounted = true)) :
    s.Adopted t g h a (s.field.run h) := by
  obtain ⟨h1, h2⟩ := hg.sound.no_aims (HelioRun.grantState_found hu)
  exact ht.adopted (State.statused_of_adopted hp (by rw [ha]; exact State.placed_found hu hpr)) h1 h2

theorem State.StatusTaken.foundAbsent (ht : s.StatusTaken t g h st) (hp : (s.field.run h).Plain st)
    (ha : st.position = .onAim a) (hpr : (s.live.aimAt a).present ≠ true) (hu : (s.field.run h).Unexpected) :
    s.AnswerMade t g h (some .survey) ((s.field.run h).lostOff.owing ((s.field.run h).faultOr .survey)) := by
  refine ht.made_off hp (by rw [ha]; exact State.placed_absent hu hpr) ?_
  rw [(HelioRun.owing_fields _ _).1]
  exact ⟨nofun, nofun, nofun⟩

/-! ### A survey counts what it finds (R148) -/

theorem Osc.countSurvey_fresh {o : Osc} (hn : h ∉ o.counted) :
    (o.countSurvey h (some .adopted)).adopted = o.adopted + 1 ∧ (o.countSurvey h (some .leftLost)).leftLost = o.leftLost + 1 := by
  unfold Osc.countSurvey
  rw [if_neg hn, if_neg hn]
  exact ⟨rfl, rfl⟩

theorem State.statused_onAim_state (hp : r.Plain st) (ha : st.position = .onAim a) (hs : r.state = .unsure) :
    (s.statused st r).state ≠ .unsure := by
  by_cases hpr : (s.live.aimAt a).present = true
  · obtain ⟨x, h1, h2, -⟩ := State.adoptedBy_form s a r
    rw [State.statused_of_adopted hp (by rw [ha]; exact State.placed_found (Or.inl (Or.inl hs)) hpr), h1, HelioRun.by_state, h2]
    exact nofun
  · have hstate : (r.lostOff.owing (r.faultOr .survey)).state = .lost := (HelioRun.owing_fields _ _).1
    rw [State.statused_of_placed hp (by rw [ha]; exact State.placed_absent (Or.inl hs) hpr)
      (Or.inl (by rw [hstate]; exact ⟨nofun, nofun⟩)), HelioRun.by_state, hstate]
    exact nofun

theorem State.StatusTaken.counts (ht : s.StatusTaken t g h st) (hp : (s.field.run h).Plain st) (ha : st.position = .onAim a)
    (h1 : s.osc.opState = .survey) (h2 : (s.field.run h).state = .unsure) (h3 : h ∉ s.osc.counted) :
    ((s.live.aimAt a).present = true → t.osc.adopted = s.osc.adopted + 1)
      ∧ ((s.live.aimAt a).present ≠ true → t.osc.leftLost = s.osc.leftLost + 1) := by
  obtain ⟨h4, h5⟩ := ht.counted h1 h2 (State.statused_onAim_state hp ha h2)
  obtain ⟨h6, h7⟩ := Osc.countSurvey_fresh (o := s.osc) h3
  have hfind : (Answer.status st).finding s.env = some (if (s.live.aimAt a).present then .adopted else .leftLost) := by
    unfold Answer.finding
    dsimp only
    rw [ha]
    rfl
  rw [hfind] at h4 h5
  refine ⟨fun hpr => ?_, fun hpr => ?_⟩
  · rw [h4, if_pos hpr, h6]
  · rw [h5, if_neg hpr, h7]

/-! ### Clear of the receiver, or at rest (R76, R77, R79, R80) -/

theorem State.StatusTaken.cleared (ht : s.StatusTaken t g h st) (hp : (s.field.run h).Plain st) (hc : st.position = .clear) :
    ((s.field.run h).state = .lost →
        s.AnswerMade t g h (some .recovered) { (s.field.run h).stopped with state := .unsure, granted := none, leaving := none })
      ∧ ((s.field.run h).state = .slewing → (s.field.run h).accepted = true →
        s.AnswerMade t g h (s.field.run h).motionCause { s.field.run h with leaving := none })
      ∧ ((s.field.run h).state = .tracking → (s.field.run h).fault = none →
        s.AnswerMade t g h (some .driveLeft) ((s.field.run h).restedAt .standby))
      ∧ ((s.field.run h).state = .tracking → (s.field.run h).fault.isSome →
        s.AnswerMade t g h (some .driveLeft) (s.field.run h).faultedOff)
      ∧ ((s.field.run h).state = .returning → (s.field.run h).released = false →
        s.AnswerMade t g h (s.field.run h).motionCause { s.field.run h with granted := none, leaving := none, released := true }) := by
  have htrack : (s.field.run h).state = .tracking →
      s.placed st.position (s.field.run h) = (s.field.run h).by (some .driveLeft) ((s.field.run h).restedAt .standby) := fun hs => by
    simp only [State.placed, HelioRun.placedTracking, hs, hc]
  refine ⟨fun hs => ht.made_off hp ?_ ⟨nofun, nofun, nofun⟩, fun hs hacc => ht.made_off hp ?_ ?_, fun hs hf => ?_, fun hs hf => ?_,
    fun hs hr => ht.made_off hp ?_ ?_⟩
  · simp only [State.placed, State.placedLost, hs, hc]
  · simp only [State.placed, HelioRun.placedSlewing, hs, hc, hacc, if_true]
  · exact ⟨by rw [hs]; exact nofun, by rw [hs]; exact nofun, by rw [hs]; exact nofun⟩
  · exact ht.made_of (State.statused_of_placed hp (htrack hs) (Or.inr (Or.inr hf))) (Or.inr (Or.inl nofun))
  · exact ht.made_of (State.statused_of_rested hp (htrack hs) (by rw [hs]; exact nofun) (by rw [hs]; exact nofun) hf)
      (Or.inr (Or.inl nofun))
  · simp only [State.placed, State.placedReturning, hs, hc, hr, Bool.false_eq_true, if_false]
  · exact ⟨by rw [hs]; exact nofun, by rw [hs]; exact nofun, by rw [hs]; exact nofun⟩

theorem State.StatusTaken.unsure (ht : s.StatusTaken t g h st) (hp : (s.field.run h).Plain st) :
    (st.position = .clear ∨ (∃ u v b, st.position = .moving u v b) → (s.field.run h).state = .standby ∨ (s.field.run h).state = .stowed →
        s.AnswerMade t g h (some .survey) { s.field.run h with state := .unsure })
      ∧ ((s.field.run h).state = .silent → s.AnswerMade t g h (some .recovered) { s.field.run h with state := .unsure }) := by
  refine ⟨fun hpos hs => ht.made_off hp ?_ ⟨nofun, nofun, nofun⟩, fun hs => ht.made_off hp ?_ ⟨nofun, nofun, nofun⟩⟩
  · rcases hpos with hpos | ⟨u, v, b, hpos⟩
    · rcases hs with hs | hs <;> simp only [State.placed, State.placedAtRest, hs, hpos]
    · rcases hs with hs | hs <;> simp only [State.placed, State.placedAtRest, hs, hpos]
  · simp only [State.placed, State.placedAtRest, hs]

/-- A heliostat that comes to rest with a fault cause (R76). -/
theorem State.StatusTaken.rested {place : Rest} (ht : s.StatusTaken t g h st) (hp : (s.field.run h).Plain st)
    (hpl : st.position = (match place with | .standby => .atStandby | .stowed => .stowed)) (hf : (s.field.run h).fault.isSome = true)
    (hne : (s.field.run h).state ≠ place.state) :
    ((s.field.run h).state = .tracking ∨ ((s.field.run h).state = .slewing ∧ (s.field.run h).accepted = true) →
        s.AnswerMade t g h (some .driveLeft) (s.field.run h).faultedOff)
      ∧ ((s.field.run h).state = .returning → s.AnswerMade t g h (s.field.run h).motionCause (s.field.run h).faultedOff)
      ∧ ((s.field.run h).state = .lost → s.AnswerMade t g h (some .recovered) (s.field.run h).faultedOff)
      ∧ ((s.field.run h).state = .unsure ∨ (s.field.run h).state = .standby ∨ (s.field.run h).state = .stowed →
        s.AnswerMade t g h (some .survey) (s.field.run h).faultedOff) := by
  obtain ⟨h1, h2, h3, h4⟩ := State.placed_rest (s := s) (r := s.field.run h) hpl
  have hmade : ∀ c, s.placed st.position (s.field.run h) = (s.field.run h).by c ((s.field.run h).restedAt place) →
      (s.field.run h).state ≠ .faulted → s.AnswerMade t g h c (s.field.run h).faultedOff := fun c hx hnf =>
    ht.made_of (State.statused_of_rested hp hx hne hnf hf) (Or.inr (Or.inl nofun))
  refine ⟨fun hs => hmade _ (h1 hs) ?_, fun hs => hmade _ (h2 hs) ?_, fun hs => hmade _ (h3 hs) ?_, fun hs => hmade _ (h4 hs) ?_⟩
  · rcases hs with hs | ⟨hs, -⟩ <;> rw [hs] <;> exact nofun
  · rw [hs]; exact nofun
  · rw [hs]; exact nofun
  · rcases hs with hs | hs | hs <;> rw [hs] <;> exact nofun

/-! ### Where its record says (R8, R12, R76, R120) -/

/-- What the flags of a status leave of a record. -/
theorem HelioRun.flagged_form (st : Status) (r : HelioRun) :
    ∃ z y, r.flagged st = { r with localControl := st.localControl, fault := z, lastCause := y } := by
  obtain ⟨y, hy⟩ := HelioRun.by_cause (some (if st.localControl then .localControl else .recovered)) r
    { r with localControl := st.localControl }
  have hset : ∀ (k : Cause) (z : FaultCause), ∃ z' y', ({ r with localControl := st.localControl, lastCause := y } : HelioRun).by (some k)
      { r with localControl := st.localControl, lastCause := y, fault := some z } =
      { r with localControl := st.localControl, fault := z', lastCause := y' } := fun k z => by
    obtain ⟨y', hy'⟩ := HelioRun.by_cause (some k) { r with localControl := st.localControl, lastCause := y }
      { r with localControl := st.localControl, lastCause := y, fault := some z }
    exact ⟨_, y', hy'⟩
  unfold HelioRun.flagged
  rw [hy]
  dsimp only
  split
  · exact ⟨r.fault, y, rfl⟩
  · split
    · exact hset .driveFault _
    · split
      · exact hset .localControl .localControl
      · exact ⟨r.fault, y, rfl⟩

theorem HelioRun.Good.flagged (hg : r.Good) (st : Status) : (r.flagged st).Good := by
  obtain ⟨z, y, hx⟩ := HelioRun.flagged_form st r
  obtain ⟨h1, h2, h3, h4, h5, h6, h7, h8⟩ := hg.tidy
  rw [hx]
  exact ⟨hg.sound.other rfl rfl rfl rfl rfl rfl rfl rfl rfl rfl, ⟨h1, h2, h3, h4, h5, h6, h7, h8⟩⟩

theorem Position.Agrees.flagged {live : Tables} (hp : p.Agrees live r) (st : Status) : p.Agrees live (r.flagged st) := by
  obtain ⟨z, y, hx⟩ := HelioRun.flagged_form st r
  rw [hx]
  exact hp.congr rfl rfl rfl rfl rfl rfl rfl

section Agrees
variable (ht : s.StatusTaken t g h st) (hg : (s.field.run h).Good) (hp : st.position.Agrees s.live (s.field.run h))
include ht hg hp

theorem State.StatusTaken.agreed (hplain : (s.field.run h).Plain st) : s.AnswerMade t g h none (s.field.run h) := by
  have hx := State.statused_of_kept hplain (State.placed_agrees hg hp)
  exact ht.made_of (hx.trans (HelioRun.by_none _ _).symm) (Or.inr (Or.inr (Or.inl rfl)))

/-- LOCAL is cleared (R8). -/
theorem State.StatusTaken.localCleared (h1 : st.localControl = false) (h2 : st.fault = false) (h3 : st.limit = false) :
    s.AnswerMade t g h (some .recovered) { s.field.run h with localControl := false } := by
  refine ht.made_of ((State.statused_agrees (hg.flagged st) (hp.flagged st)).trans ?_) (Or.inr (Or.inr (Or.inl rfl)))
  unfold HelioRun.failedAsSaid HelioRun.flagged
  simp [h1, h2, h3]

/-- LIMIT (R76). -/
theorem State.StatusTaken.limited (h1 : st.localControl = false) (h2 : st.fault = false) (h3 : st.limit = true)
    (h4 : (s.field.run h).localControl = false) :
    ((s.field.run h).state = .slewing ∨ (s.field.run h).state = .tracking → (s.field.run h).queued = false →
        s.AnswerMade t g h (some .reject) ((s.field.run h).owing .reject))
      ∧ ((s.field.run h).queued = true → (s.field.run h).leaving.isSome →
        s.AnswerMade t g h (some .reject) ((s.field.run h).grantUndone.owing .reject))
      ∧ ((s.field.run h).queued = true → (s.field.run h).leaving = none → s.AnswerMade t g h (some .reject) (s.field.run h).grantUndone)
      ∧ ((s.field.run h).state ≠ .slewing → (s.field.run h).state ≠ .tracking → s.AnswerMade t g h none (s.field.run h)) := by
  have hx : s.statused st (s.field.run h) = if (s.field.run h).state = .slewing ∨ (s.field.run h).state = .tracking
      then (s.field.run h).by (some .reject) ((s.field.run h).sentRecord .reject) else s.field.run h := by
    rw [State.statused_agrees (hg.flagged st) (hp.flagged st), HelioRun.flagged_quiet (h4.trans h1.symm) (Or.inr ⟨h2, h1⟩)]
    unfold HelioRun.failedAsSaid
    simp [h1, h2, h3, HelioRun.sentOff_eq]
  have hslew : (s.field.run h).queued = true → (s.field.run h).state = .slewing ∨ (s.field.run h).state = .tracking := fun hq =>
    Or.inl (hg.sound.2.2.2.2.2.2.2 hq).1
  have hsent : ∀ new, (s.field.run h).state = .slewing ∨ (s.field.run h).state = .tracking → (s.field.run h).sentRecord .reject = new →
      s.statused st (s.field.run h) = (s.field.run h).by (some .reject) new := fun new hs he => by rw [hx, if_pos hs, he]
  refine ⟨fun hs hq => ht.made_of (hsent _ hs ?_) (Or.inl (HelioRun.owing_owed _ _)),
    fun hq hl => ht.made_of (hsent _ (hslew hq) ?_) (Or.inl (HelioRun.owing_owed _ _)),
    fun hq hl => ht.made_of (hsent _ (hslew hq) ?_) (Or.inr (Or.inr (Or.inr (HelioRun.granted_grantUndone _)))),
    fun hs1 hs2 => ht.made_of ?_ (Or.inr (Or.inr (Or.inl rfl)))⟩
  · unfold HelioRun.sentRecord
    rw [if_neg (by rw [hq]; exact Bool.false_ne_true), if_neg (by rcases hs with hs | hs <;> rw [hs] <;> exact nofun)]
  · unfold HelioRun.sentRecord
    rw [if_pos hq, if_pos hl]
  · unfold HelioRun.sentRecord
    rw [if_pos hq, hl]
    rfl
  · rw [hx, if_neg (fun hc => hc.elim hs1 hs2), HelioRun.by_none]

/-- FAULT or LOCAL of a heliostat without a fault cause (R12, R76). -/
theorem State.StatusTaken.failed (hs : st.fault = true ∨ st.localControl = true) (hl : st.limit = false)
    (hf : (s.field.run h).fault = none) :
    let k := st.faultCause.cause
    let failed := (s.field.run h).failed st
    ((s.field.run h).holdsLoad = true → (s.field.run h).queued = false → s.AnswerMade t g h (some k)
        (if (s.field.run h).state = .returning then { failed with owed := none, busyCount := 0 } else failed.owing k))
      ∧ ((s.field.run h).holdsLoad = false → (s.field.run h).state ≠ .faulted → s.AnswerMade t g h (some k) failed.faultedOff)
      ∧ ((s.field.run h).queued = true → (s.field.run h).leaving.isSome → s.AnswerMade t g h (some k) (failed.grantUndone.owing k))
      ∧ ((s.field.run h).queued = true → (s.field.run h).leaving = none →
        s.AnswerMade t g h (some k) failed.grantUndone.faultedOff) := by
  intro k failed
  have hx : s.statused st (s.field.run h) = (failed.caused k).failedBy k := State.statused_failed hg hp hf hs hl
  have hmade : ∀ new : HelioRun, (failed.caused k).failedBy k = new.caused k → new.fault.isSome = true →
      (new.owed.isSome = true ∨ new.state ≠ .tracking ∨ new.granted = (s.field.run h).granted ∨ new.granted = (s.field.run h).leaving) →
      s.AnswerMade t g h (some k) new := fun new he hfa hn =>
    ht.made_of ((hx.trans he).trans (HelioRun.caused_eq_by hf hfa)) hn
  have howing : ∀ x : HelioRun, (x.owing k).fault = x.fault := fun x => by
    unfold HelioRun.owing
    split <;> rfl
  have hundone : failed.grantUndone.fault = failed.fault := by
    unfold HelioRun.grantUndone
    split <;> rfl
  refine ⟨fun hld hq => hmade _ (HelioRun.failedBy_loaded failed k hld hq) ?_ ?_,
    fun hld hn => hmade _ (HelioRun.failedBy_unloaded failed k hld hn) rfl (Or.inr (Or.inl nofun)),
    fun hq hle => hmade _ (HelioRun.failedBy_reAim failed k hq hle) ?_ (Or.inl (HelioRun.owing_owed _ _)),
    fun hq hle => hmade _ (HelioRun.failedBy_grant failed k (hg.failed st) hq hle) ?_ (Or.inr (Or.inl nofun))⟩
  · split
    · rfl
    · rw [howing]
      rfl
  · split
    · exact Or.inr (Or.inr (Or.inl rfl))
    · exact Or.inl (HelioRun.owing_owed _ _)
  · rw [howing, hundone]
    rfl
  · exact (congrArg Option.isSome hundone).trans rfl

/-- The slots hear of the withdrawal that a flag brings (R12, R120). -/
theorem State.StatusTaken.heard (hs : st.fault = true ∨ st.localControl = true ∨ st.limit = true) (hq : (s.field.run h).queued = true)
    (ha : (s.field.run h).granted = some a) : s.SettleSetsHear t h a false := by
  have hflag := HelioRun.flagged_flagged st (s.field.run h)
  refine ht.hear hq a ha fun hc => ?_
  rw [State.statused_agrees (hg.flagged st) (hp.flagged st), HelioRun.failedAsSaid_queued (hg.flagged st) (hflag.queued.trans hq) hs,
    hflag.leaving] at hc
  exact (hg.sound.2.1 (by rw [hc]; rfl)).2 (ha.trans hc.symm)

end Agrees

/-- Settles O57: the answer to a QUERY makes of the record what the three steps of R76 give, and each line of the tables R77 to R80 is a
case of them; a found heliostat's adoption, the survey's counts and the slots' notice of a withdrawal follow from the answer's edit. -/
theorem heliostatFoundOnAimIsAdopted : Obligations.HeliostatFoundOnAimIsAdopted := by
  unfold Obligations.HeliostatFoundOnAimIsAdopted
  intro s g x frame fr st hd hk ha hs hz _ hl hty h r p
  obtain ⟨t, he, ht⟩ := State.status_taken hd hk ha hs hz hl hty
  have hg : (s.field.run h).Good := ⟨hs.records h, hty.records h⟩
  refine ⟨t, he, fun hp => ⟨fun a hpa => ⟨?_, ?_, ?_, ?_, ?_, ?_⟩, ?_, ht.cleared hp, (ht.unsure hp).1, (ht.unsure hp).2,
    fun place hpl hf hne => ht.rested hp hpl hf hne, fun hpa => ht.agreed hg hpa hp⟩, fun hpa => ⟨?_, ?_, ?_, ?_⟩,
    ht.made, ht.newest, ht.hear⟩
  · exact fun hpr hu => ht.found hg hp hpa hpr hu
  · exact fun hpr hc => (ht.counts hp hpa hc.1 hc.2.1 hc.2.2).1 hpr
  · exact fun hpr hu => ht.foundAbsent hp hpa hpr hu
  · exact fun hpr hc => (ht.counts hp hpa hc.1 hc.2.1 hc.2.2).2 hpr
  · exact fun hlost hn => ht.made_owing hp (Eq.trans (congrArg (s.placed · _) hpa) (State.placed_lost_onAim hlost hn))
  · exact fun hst hgr => ht.made_owing hp (Eq.trans (congrArg (s.placed · _) hpa) (State.placed_elsewhere hst hgr))
  · rintro ⟨u, v, b, hm⟩ hst hgr
    exact ht.made_owing hp (Eq.trans (congrArg (s.placed · _) hm) (State.placed_moving hst fun b' hb => hgr b' (hm.trans hb)))
  · exact fun h1 h2 h3 _ => ht.localCleared hg hpa h1 h2 h3
  · exact fun hsf hlim hf => ht.failed hg hpa hsf hlim hf
  · exact fun h1 h2 h3 h4 => ht.limited hg hpa h1 h2 h3 h4
  · exact fun hsf hq a hga => ht.heard hg hpa hsf hq hga

end Sys2Proof.Machine
end

section
/-! PROOFS for segment exchanges: the choice of the next exchange (R60 to R67, R71, R83), and its beginning. -/

namespace Sys2Proof.Machine

variable {env : Env} {f : Field} {g h : Nat}

/-! ### The heliostats that a choice may concern (R60) -/

theorem Tables.mem_onSegment {t : Tables} (ht : t.Canonical) {seg h : Nat} :
    h ∈ t.onSegment seg ↔ (t.helioAt h).present = true ∧ (t.helioAt h).segment = seg := by
  have hread : ∀ p ∈ t.present, t.helioAt p.1 = p.2 := fun p hp => Table.get_of_mem ht.1 (List.mem_filter.1 hp).1
  unfold Tables.onSegment
  simp only [List.mem_map, List.mem_filter, beq_iff_eq]
  constructor
  · rintro ⟨p, ⟨hp, hseg⟩, rfl⟩
    exact ⟨(Tables.mem_present t ht p.1).1 ⟨p, hp, rfl⟩, by rw [hread p hp, hseg]⟩
  · rintro ⟨hp, hseg⟩
    obtain ⟨p, hm, rfl⟩ := (Tables.mem_present t ht h).2 hp
    exact ⟨p, ⟨hm, by rw [← hread p hm, hseg]⟩, rfl⟩

/-- A heliostat that a choice of segment `g` may concern (R60). -/
def Field.Free (env : Env) (g : Nat) (f : Field) (h : Nat) : Prop :=
  (env.live.helioAt h).present = true ∧ (env.live.helioAt h).segment = g ∧ (f.run h).inFlight = false

theorem Field.mem_choosable_iff (ht : env.live.Canonical) : h ∈ f.choosable env g ↔ f.Free env g h := by
  unfold Field.choosable Field.Free
  rw [List.mem_filter, Tables.mem_onSegment ht, Bool.not_eq_true', and_assoc]

theorem Field.choosable_sorted (ht : env.live.Canonical) : (f.choosable env g).Pairwise (· < ·) := by
  have hsub : (env.live.onSegment g).Sublist (env.live.present.map (·.1)) := List.filter_sublist.map _
  exact (Tables.present_sorted ht).sublist (List.filter_sublist.trans hsub)

theorem Field.Free.lt (ht : env.live.Canonical) (hf : f.Free env g h) : h < Config.heliostats := Tables.lt_of_present ht hf.1

/-! ### A search, and the choice by age (R61 to R64) -/

/-- The first heliostat from a pointer on, wrapping, of which `P` holds (R62, R63). -/
def FirstFrom (pointer : Nat) (P : Nat → Prop) (h : Nat) : Prop := P h ∧ ∀ j, P j → searchDistance pointer h ≤ searchDistance pointer j

/-- The heliostat of oldest last exchange of which `P` holds, the lower index among equals (R61, R64). -/
def Field.OldestOf (f : Field) (P : Nat → Prop) (h : Nat) : Prop :=
  P h ∧ ∀ j, P j → (f.run h).since < (f.run j).since ∨ ((f.run h).since = (f.run j).since ∧ h ≤ j)

theorem Field.find_searchFrom (ht : env.live.Canonical) {pointer : Nat} (hp : pointer < 4096) {offers : Nat → Bool} {P : Nat → Prop}
    (hP : ∀ h, P h ↔ f.Free env g h ∧ offers h = true) :
    (∀ h, FirstFrom pointer P h → (searchFrom pointer (f.choosable env g)).find? offers = some h)
      ∧ ((∀ h, ¬ P h) → (searchFrom pointer (f.choosable env g)).find? offers = none) := by
  refine ⟨fun h ⟨hh, hmin⟩ => ?_, fun hno => List.find?_eq_none.2 fun h hm ho => ?_⟩
  · obtain ⟨hfree, ho⟩ := (hP h).1 hh
    refine searchFrom_first hp (fun j hj => ((Field.mem_choosable_iff ht).1 hj).lt ht) (Field.choosable_sorted ht)
      ((Field.mem_choosable_iff ht).2 hfree) ho fun j hj hoj => hmin j ((hP j).2 ⟨(Field.mem_choosable_iff ht).1 hj, hoj⟩)
  · exact hno h ((hP h).2 ⟨(Field.mem_choosable_iff ht).1 (mem_searchFrom hm), ho⟩)

theorem Field.oldest_filter (ht : env.live.Canonical) {offers : Nat → Bool} {P : Nat → Prop}
    (hP : ∀ h, P h ↔ f.Free env g h ∧ offers h = true) :
    (∀ h, f.OldestOf P h → f.oldest ((f.choosable env g).filter offers) = some h)
      ∧ ((∀ h, ¬ P h) → f.oldest ((f.choosable env g).filter offers) = none) := by
  have hmem : ∀ h, h ∈ (f.choosable env g).filter offers ↔ P h := fun h => by
    rw [List.mem_filter, Field.mem_choosable_iff ht, hP]
  refine ⟨fun h ⟨hh, hmin⟩ => ?_, fun hno => ?_⟩
  · exact Field.oldest_first ((Field.choosable_sorted ht).filter _) ((hmem h).2 hh) fun j hj => hmin j ((hmem j).1 hj)
  · rw [List.eq_nil_iff_forall_not_mem.2 fun h hm => hno h ((hmem h).1 hm)]
    rfl

theorem Field.oldest_choosable (ht : env.live.Canonical) :
    (∀ h, f.OldestOf (f.Free env g) h → f.oldest (f.choosable env g) = some h)
      ∧ ((∀ h, ¬ f.Free env g h) → f.oldest (f.choosable env g) = none) := by
  have h1 := Field.oldest_filter (f := f) (g := g) ht (offers := fun _ => true) (P := f.Free env g) (by simp)
  rwa [List.filter_eq_self.2 (by simp)] at h1

/-! ### The beginning of an exchange (R56, R65 to R67, R83) -/

theorem Field.begun_launch (env : Env) (hg : g < Config.segments) (hh : h < Config.heliostats) (kind : ExKind) (request : List Byte)
    (x : Sxe) (f : Field) : Field.Begun env.live g h kind request x f (f.launch env g h kind request x) := by
  refine ⟨fun j => ?_, fun k => ?_, rfl⟩
  · rw [Field.run_launch env hh]
    cases kind <;> simp [ExKind.movesToAim]
  · exact Field.sxeAt_launch env hg kind request x f k

theorem Field.choose_of_some {b : Bool} {c : Choice} (hx : (f.sxeAt g).exchange = none)
    (hc : (if env.opState = .night then f.chooseNight env g b else f.chooseDay env g) = some c) : f.choose env b g = f.begin env g c := by
  unfold Field.choose
  rw [hx, hc]
  rfl

theorem Field.choose_of_none {b : Bool}
    (hc : (if env.opState = .night then f.chooseNight env g b else f.chooseDay env g) = none) : f.choose env b g = f := by
  unfold Field.choose
  rw [hc]
  dsimp only
  exact ite_self f

/-! ### The choice in NIGHT (R64) -/

/-- A night poll of heliostat `h` is due at `now` (R64). -/
def HelioRun.pollDue (r : HelioRun) (now : Nat) : Prop := ∀ l, r.lastExchange = some l → l + 120000 ≤ now

theorem HelioRun.pollDue_iff {r : HelioRun} {now : Nat} :
    (r.lastExchange.isNone || r.heardBefore now Config.nightPollMs) = true ↔ r.pollDue now := by
  unfold HelioRun.pollDue HelioRun.heardBefore
  cases r.lastExchange with
  | none => simp
  | some l =>
    simp only [Option.isNone_some, Bool.false_or, decide_eq_true_eq, Option.some.injEq, forall_eq']
    rfl

/-- In NIGHT, without work of levels 1 to 4, the SXE polls the heliostat of oldest exchange that is due, or none (R64). -/
theorem Field.chooseNight_idle (ht : env.live.Canonical) (hp : (f.sxeAt g).passSlot = none)
    (hw : ∀ h, f.Free env g h → (f.run h).servable = false ∧ (f.run h).unsettled = false) : f.chooseNight env g true =
      if (f.sxeAt g).spaced env.now then
        (f.oldest ((f.choosable env g).filter fun h =>
          (f.run h).lastExchange.isNone || (f.run h).heardBefore env.now Config.nightPollMs)).map Choice.poll
      else none := by
  have hidle : ∀ h ∈ f.choosable env g, (f.run h).servable = false ∧ (f.run h).unsettled = false := fun h hm =>
    hw h ((Field.mem_choosable_iff ht).1 hm)
  have hholder : f.owedHolder (f.sxeAt g).scan (f.choosable env g) = none := by
    unfold Field.owedHolder
    rw [List.find?_eq_none.2 fun h hm => by simp [(hidle h (mem_searchFrom hm)).1]]
    rfl
  have hother : f.owedOther (f.sxeAt g).scan (f.choosable env g) = none := by
    unfold Field.owedOther
    rw [List.find?_eq_none.2 fun h hm => by simp [(hidle h (mem_searchFrom hm)).1]]
    rfl
  have hsettle : f.settlePoll (f.sxeAt g).settle (f.choosable env g) = none := by
    unfold Field.settlePoll
    rw [List.find?_eq_none.2 fun h hm => by simp [(hidle h (mem_searchFrom hm)).2]]
    rfl
  unfold Field.chooseNight
  dsimp only
  rw [hholder, hother, hp, hsettle]
  rfl

/-- The heliostat of oldest exchange is the oldest of those due, where it is due itself. -/
theorem Field.oldest_due (ht : env.live.Canonical) {now : Nat} (ho : f.OldestOf (f.Free env g) h) (hd : (f.run h).pollDue now) :
    f.oldest ((f.choosable env g).filter fun h =>
      (f.run h).lastExchange.isNone || (f.run h).heardBefore now Config.nightPollMs) = some h :=
  (Field.oldest_filter ht (P := fun h => f.Free env g h ∧ (f.run h).pollDue now) fun _ => by rw [HelioRun.pollDue_iff]).1 h
    ⟨⟨ho.1, hd⟩, fun j hj => ho.2 j hj.1⟩

theorem Field.no_due (ht : env.live.Canonical) {now : Nat} (hn : ∀ h, f.Free env g h → ¬ (f.run h).pollDue now) :
    f.oldest ((f.choosable env g).filter fun h =>
      (f.run h).lastExchange.isNone || (f.run h).heardBefore now Config.nightPollMs) = none :=
  (Field.oldest_filter ht (P := fun h => f.Free env g h ∧ (f.run h).pollDue now) fun _ => by rw [HelioRun.pollDue_iff]).2
    fun h ⟨hf, hd⟩ => hn h hf hd

theorem Sxe.spaced_iff {x : Sxe} {now : Nat} : x.spaced now = true ↔ ∀ e, x.lastEnd = some e → e + 50 ≤ now := by
  unfold Sxe.spaced
  cases x.lastEnd with
  | none => simp
  | some e =>
    simp only [decide_eq_true_eq, Option.some.injEq, forall_eq']
    rfl

/-- A poll of heliostat `h` begins on segment `g` (R64, R67). -/
def State.PollBegun (s t : State) (g h : Nat) : Prop :=
  t = { s with field := { s.field with helio := t.field.helio, sxe := t.field.sxe } }
    ∧ (∀ j, t.field.run j = { s.field.run j with inFlight := (s.field.run j).inFlight || j == h })
    ∧ ∀ k, t.field.sxeAt k =
      if k = g then
        { s.field.sxeAt g with exchange := some ⟨h, (s.live.helioAt h).address, .query,
            segmentFrame (s.live.helioAt h).address 0x03#8 [], false, .sending⟩ }
      else s.field.sxeAt k

/-- Segment `g` has no exchange in NIGHT, and no work of levels 1 to 4 (R64). -/
structure State.NightIdle (s : State) (g : Nat) : Prop where
  night : s.osc.opState = .night
  tables : s.live.Canonical
  exchange : (s.field.sxeAt g).exchange = none
  pass : (s.field.sxeAt g).passSlot = none
  free : ∀ h, s.field.Free s.env g h → (s.field.run h).servable = false ∧ (s.field.run h).unsettled = false

theorem State.NightIdle.advance {s : State} (hi : s.NightIdle g) (n : Nat) : (s.advanceTo n).NightIdle g :=
  ⟨hi.night, hi.tables, hi.exchange, hi.pass, hi.free⟩

theorem State.NightIdle.polls {s : State} {n : Fin 4} (hi : s.NightIdle n)
    (hs : ∀ e, (s.field.sxeAt n).lastEnd = some e → e + 50 ≤ s.now)
    (ho : s.field.OldestOf (s.field.Free s.env n) h) (hd : (s.field.run h).pollDue s.now) :
    s.PollBegun { s with field := s.field.choose s.env true n } n h := by
  have hchoice := Field.chooseNight_idle (env := s.env) hi.tables hi.pass hi.free
  rw [if_pos ((Sxe.spaced_iff (now := s.env.now)).2 hs), Field.oldest_due (env := s.env) (now := s.env.now) hi.tables ho hd] at hchoice
  obtain ⟨hrun, hsxe, hrest⟩ := Field.begun_launch s.env n.isLt (ho.1.lt hi.tables) .query (s.env.queryRequest h) (s.field.sxeAt n) s.field
  rw [Field.choose_of_some hi.exchange ((if_pos hi.night).trans hchoice)]
  refine ⟨congrArg (fun f : Field => ({ s with field := f } : State)) hrest, fun j => (hrun j).trans ?_, hsxe⟩
  by_cases hj : j = h
  · simp [hj]
  · simp [hj, beq_eq_false_iff_ne.2 hj]

theorem State.NightIdle.rests {s : State} {n : Fin 4} (hi : s.NightIdle n)
    (hn : ∀ h, s.field.Free s.env n h → ¬ (s.field.run h).pollDue s.now) : s.field.choose s.env true n = s.field := by
  have hchoice := Field.chooseNight_idle hi.tables hi.pass hi.free
  rw [Field.no_due (env := s.env) (now := s.env.now) hi.tables hn, Option.map_none, ite_self] at hchoice
  exact Field.choose_of_none ((if_pos hi.night).trans hchoice)

theorem exec_nightSpacingExpiry {s : State} {n : Fin 4} (hr : s.phase = .running) (hi : s.NightIdle n) {e : Nat}
    (he : (s.field.sxeAt n).lastEnd = some e) : exec (.nightSpacingExpiry n) s =
      .next { s.advanceTo (e + 50) with field := s.field.choose (s.advanceTo (e + 50)).env true n } := by
  refine congrArg Host.Outcome.next ?_
  dsimp only
  rw [if_pos (by simp [State.isRunning, hr, hi.night, hi.exchange]), he]
  rfl

theorem exec_nightPollDue {s : State} {n : Fin 4} (hr : s.phase = .running) (hi : s.NightIdle n)
    (ho : s.field.OldestOf (s.field.Free s.env n) h) : exec (.nightPollDue n) s =
      let k := max (s.field.run h).nightDue (((s.field.sxeAt n).lastEnd.map (· + 50)).getD 0)
      .next { s.advanceTo k with field := s.field.choose (s.advanceTo k).env true n } := by
  refine congrArg Host.Outcome.next ?_
  dsimp only
  rw [if_pos (by simp [State.isRunning, hr, hi.night, hi.exchange]), (Field.oldest_choosable hi.tables).1 h ho]
  rfl

/-- Settles O51: in NIGHT without other work the SXE's choice is the oldest heliostat of those due, and both commands bring the clock to
where it may choose. -/
theorem nightPollsTheOldestDue : Obligations.NightPollsTheOldestDue := by
  unfold Obligations.NightPollsTheOldestDue
  intro s g hr hnight hs x free oldest polled hx hp hw
  have hi : s.NightIdle g := ⟨hnight, hs.canonical.2.1, hx, hp, hw⟩
  refine ⟨fun e he => ⟨fun h ho hd => ?_, fun hn => ?_⟩, fun h ho => ?_⟩
  · refine ⟨_, exec_nightSpacingExpiry hr hi he, (hi.advance (e + 50)).polls (fun e' he' => ?_) ho hd⟩
    rw [Option.some.inj (he'.symm.trans he)]
    exact Nat.le_max_right _ _
  · rw [exec_nightSpacingExpiry hr hi he]
    refine congrArg Host.Outcome.next (congrArg (fun f : Field => ({ s.advanceTo (e + 50) with field := f } : State)) ?_)
    refine (hi.advance (e + 50)).rests fun h hf hd => ?_
    obtain ⟨l, hl, hlt⟩ := hn h hf
    exact absurd (hd l hl) (Nat.not_le.2 hlt)
  · have hnow := exec_nightPollDue hr hi ho
    generalize hk : max (s.field.run h).nightDue (((s.field.sxeAt g).lastEnd.map (· + 50)).getD 0) = k at hnow
    have hdue : ∀ l, (s.field.run h).lastExchange = some l → l + 120000 ≤ k := fun l hl => by
      rw [← hk, HelioRun.nightDue, hl]
      exact Nat.le_max_left _ _
    have hspace : ∀ e, (s.field.sxeAt g).lastEnd = some e → e + 50 ≤ k := fun e he => by
      rw [← hk, he]
      exact Nat.le_max_right _ _
    have hle : ∀ {n}, n ≤ k → n ≤ max s.now k := fun hn => hn.trans (Nat.le_max_right _ _)
    refine ⟨_, max s.now k, hnow, (hi.advance k).polls (fun e he => hle (hspace e he)) ho fun l hl => hle (hdue l hl), Nat.le_max_left _ _,
      fun l hl => hle (hdue l hl), fun e he => hle (hspace e he), ?_⟩
    rcases Nat.le_total k s.now with hlt | hlt
    · exact Or.inl (Nat.max_eq_left hlt)
    · rw [Nat.max_eq_right hlt, ← hk, HelioRun.nightDue]
      cases hl : (s.field.run h).lastExchange with
      | none =>
        cases he : (s.field.sxeAt g).lastEnd with
        | none =>
          rw [← hk, HelioRun.nightDue, hl, he] at hlt
          exact Or.inl (Nat.le_zero.1 hlt).symm
        | some e => exact Or.inr (Or.inr ⟨e, rfl, Nat.zero_max _⟩)
      | some l =>
        cases he : (s.field.sxeAt g).lastEnd with
        | none => exact Or.inr (Or.inl ⟨l, rfl, Nat.max_zero _⟩)
        | some e =>
          rcases Nat.le_total (l + 120000) (e + 50) with h1 | h1
          · exact Or.inr (Or.inr ⟨e, rfl, Nat.max_eq_right h1⟩)
          · exact Or.inr (Or.inl ⟨l, rfl, Nat.max_eq_left h1⟩)

end Sys2Proof.Machine
end

section
/-! PROOFS for segment exchanges: the answer window, the one repeat of a request, and the choice outside NIGHT (R54, R56, R61). -/

namespace Sys2Proof.Machine

variable {s : State} {n : Fin 4} {x : Exchange} {env : Env} {f : Field} {g h : Nat}

/-! ### The window and the repeat (R54, R56) -/

/-- The answer `fr` is of a kind that R54 permits for a request of kind `k`. -/
def SegFrame.Permitted (fr : SegFrame) (k : ExKind) : Prop := match k with
  | .query => ∃ st, readAnswer fr.kind fr.params = some (.status st)
  | .moveAim _ | .owedMotion _ _ => ∃ a, readAnswer fr.kind fr.params = some a ∧ ∀ st, a ≠ .status st
  | .pass => True

theorem Answer.permitted_of {k : ExKind} {fr : SegFrame} {a : Answer} (ha : readAnswer fr.kind fr.params = some a)
    (hp : a.permitted k = true) : fr.Permitted k := by
  cases k with
  | query => cases a with
    | status st => exact ⟨st, ha⟩
    | accept => cases hp
    | busy st => cases hp
    | reject r => cases hp
  | pass => trivial
  | moveAim o => exact ⟨a, ha, fun st he => by rw [he] at hp; cases hp⟩
  | owedMotion d c => exact ⟨a, ha, fun st he => by rw [he] at hp; cases hp⟩

/-- A frame that is no good answer is judged corrupt (R56). -/
theorem Exchange.judge_corrupt {fr : SegFrame} (hc : fr.checkOk = false ∨ fr.address ≠ x.address ∨ ¬ fr.Permitted x.kind) :
    x.judge fr = none := by
  unfold Exchange.judge
  split
  · next hok =>
    rw [Bool.and_eq_true, beq_iff_eq] at hok
    have hno := (hc.resolve_left (by rw [hok.1]; exact nofun)).resolve_left fun hn => hn hok.2
    rw [Option.filter_eq_none_iff]
    exact fun a ha hp => hno (Answer.permitted_of ha hp)
  · rfl

theorem State.isRunning_of (hr : s.phase = .running) : s.isRunning = true := by
  rw [State.isRunning, hr]
  rfl

theorem exec_segmentRequestSent (hr : s.phase = .running) (hx : (s.field.sxeAt n).exchange = some x) (hp : x.phase = .sending) :
    exec (.segmentRequestSent n) s = .next { s with
      field := s.field.setSxe n { s.field.sxeAt n with exchange := some { x with phase := .awaiting s.now } } } := by
  refine congrArg Host.Outcome.next ?_
  rw [if_pos (State.isRunning_of hr), hx]
  dsimp only
  rw [if_pos hp]

theorem exec_driveAnswer_idle {frame : List Byte} (hr : s.phase = .running) (hx : (s.field.sxeAt n).exchange = some x)
    (hi : x.phase = .sending ∨ readSegFrame frame = none) : exec (.driveAnswer n frame) s = .next s := by
  refine congrArg Host.Outcome.next ?_
  rw [if_pos (State.isRunning_of hr), hx]
  cases hf : readSegFrame frame with
  | none => rfl
  | some fr =>
    have hs := hi.resolve_right (by rw [hf]; exact nofun)
    dsimp only
    rw [Exchange.awaiting, hs]
    rfl

theorem exec_driveAnswer_taken {frame : List Byte} {fr : SegFrame} {since : Nat} (hr : s.phase = .running)
    (hx : (s.field.sxeAt n).exchange = some x) (hp : x.phase = .awaiting since) (hf : readSegFrame frame = some fr) :
    exec (.driveAnswer n frame) s = .next (s.takeAnswer n x fr) := by
  refine congrArg Host.Outcome.next ?_
  rw [if_pos (State.isRunning_of hr), hx, hf]
  dsimp only
  rw [Exchange.awaiting, hp]
  rfl

theorem exec_driveResponseTimeout_silent {since : Nat} (hr : s.phase = .running) (hx : (s.field.sxeAt n).exchange = some x)
    (hp : x.phase = .awaiting since) (hk : x.kind ≠ .pass) :
    exec (.driveResponseTimeout n) s = .next ((s.advanceTo (since + 4)).noGoodAnswer n x) := by
  refine congrArg Host.Outcome.next ?_
  rw [if_pos (State.isRunning_of hr), hx]
  dsimp only
  rw [Exchange.awaiting, hp]
  exact if_neg hk

theorem State.noGoodAnswer_repeat (s : State) (g : Nat) (hx : x.repeated = false) : s.noGoodAnswer g x = { s with
    field := s.field.setSxe g { s.field.sxeAt g with exchange := some { x with repeated := true, phase := .sending } } } := by
  unfold State.noGoodAnswer
  rw [if_neg (by rw [hx]; exact Bool.false_ne_true)]

theorem State.takeAnswer_corrupt {fr : SegFrame} (s : State) (g : Nat) (hk : x.kind ≠ .pass)
    (hc : fr.checkOk = false ∨ fr.address ≠ x.address ∨ ¬ fr.Permitted x.kind) : s.takeAnswer g x fr = s.noGoodAnswer g x := by
  unfold State.takeAnswer
  rw [if_neg hk, Exchange.judge_corrupt hc]

theorem State.takeAnswer_pass_corrupt {fr : SegFrame} (s : State) (g : Nat) (hk : x.kind = .pass)
    (hc : fr.checkOk = false ∨ fr.address ≠ x.address ∨ ¬ fr.Permitted x.kind) : s.takeAnswer g x fr = s := by
  unfold State.takeAnswer
  rw [if_pos hk, if_neg]
  rw [Bool.and_eq_true, beq_iff_eq]
  rintro ⟨h1, h2⟩
  rcases hc with hc | hc | hc
  · rw [hc] at h1
    cases h1
  · exact hc h2
  · rw [hk] at hc
    exact hc trivial

/-! ### The choice outside NIGHT, level by level (R61) -/

section Levels
variable (ht : env.live.Canonical)
include ht

/-- An owed motion that the scan may choose (R62). -/
def Field.Served (env : Env) (g : Nat) (f : Field) (h : Nat) : Prop :=
  f.Free env g h ∧ (f.run h).owed.isSome = true ∧ ¬ ((f.run h).state = .lost ∧ (f.run h).silentCount = 3)

omit ht in
theorem HelioRun.servable_iff (r : HelioRun) :
    r.servable = true ↔ r.owed.isSome = true ∧ ¬ (r.state = .lost ∧ r.silentCount = 3) := by
  simp [HelioRun.servable, imp_iff_not_or]

theorem Field.owedHolder_eq (hp : (f.sxeAt g).scan < 4096) :
    (∀ h, FirstFrom (f.sxeAt g).scan (fun h => f.Served env g h ∧ (f.run h).holdsLoad = true) h →
        f.owedHolder (f.sxeAt g).scan (f.choosable env g) = some (.owed h))
      ∧ ((∀ h, ¬ (f.Served env g h ∧ (f.run h).holdsLoad = true)) → f.owedHolder (f.sxeAt g).scan (f.choosable env g) = none) := by
  obtain ⟨h1, h2⟩ := Field.find_searchFrom (f := f) (g := g) ht hp (offers := fun h => (f.run h).holdsLoad && (f.run h).servable)
    (P := fun h => f.Served env g h ∧ (f.run h).holdsLoad = true) fun h => by
      rw [Bool.and_eq_true, HelioRun.servable_iff, Field.Served, and_assoc, and_comm (a := (f.run h).holdsLoad = true)]
  exact ⟨fun h hh => congrArg (Option.map Choice.owed) (h1 h hh), fun hn => congrArg (Option.map Choice.owed) (h2 hn)⟩

theorem Field.watchPoll_eq :
    let P := fun h => f.Free env g h ∧ ∃ l, (f.run h).lastExchange = some l ∧ l + 10000 ≤ env.now
    let polls := (f.oldest ((f.choosable env g).filter fun h => (f.run h).heardBefore env.now Config.watchMs)).map Choice.poll
    (∀ h, f.OldestOf P h → polls = some (.poll h)) ∧ ((∀ h, ¬ P h) → polls = none) := by
  intro P polls
  obtain ⟨h1, h2⟩ := Field.oldest_filter (f := f) (g := g) ht (offers := fun h => (f.run h).heardBefore env.now Config.watchMs)
    (P := P) fun h => and_congr_right fun _ => by
      unfold HelioRun.heardBefore
      cases (f.run h).lastExchange with
      | none => simp
      | some l =>
        simp only [decide_eq_true_eq, Option.some.injEq, exists_eq_left']
        rfl
  exact ⟨fun h hh => congrArg (Option.map Choice.poll) (h1 h hh), fun hn => congrArg (Option.map Choice.poll) (h2 hn)⟩

/-- Where no load holder's motion is served, the scan's next level takes any other. -/
theorem Field.owedOther_eq (hp : (f.sxeAt g).scan < 4096) (hno : ∀ h, ¬ (f.Served env g h ∧ (f.run h).holdsLoad = true)) :
    (∀ h, FirstFrom (f.sxeAt g).scan (f.Served env g) h → f.owedOther (f.sxeAt g).scan (f.choosable env g) = some (.owed h))
      ∧ ((∀ h, ¬ f.Served env g h) → f.owedOther (f.sxeAt g).scan (f.choosable env g) = none) := by
  obtain ⟨h1, h2⟩ := Field.find_searchFrom (f := f) (g := g) ht hp (offers := fun h => !(f.run h).holdsLoad && (f.run h).servable)
    (P := f.Served env g) fun h => by
      rw [Bool.and_eq_true, Bool.not_eq_true', HelioRun.servable_iff]
      exact ⟨fun hs => ⟨hs.1, eq_false_of_ne_true (fun hl => hno h ⟨hs, hl⟩), hs.2⟩, fun ⟨hf, _, hs⟩ => ⟨hf, hs⟩⟩
  exact ⟨fun h hh => congrArg (Option.map Choice.owed) (h1 h hh), fun hn => congrArg (Option.map Choice.owed) (h2 hn)⟩

/-- A re-send (R71). -/
def Field.Resends (env : Env) (g : Nat) (f : Field) (h : Nat) : Prop :=
  f.Free env g h ∧ (f.run h).state = .slewing ∧ (f.run h).accepted = false ∧ (f.run h).queued = false ∧ (f.run h).owed = none

theorem Field.aimChoice_eq (hp : (f.sxeAt g).scan < 4096) :
    (∀ h, FirstFrom (f.sxeAt g).scan (f.Resends env g) h → f.aimChoice (f.sxeAt g) (f.choosable env g) = some (.resend h))
      ∧ ((∀ h, ¬ f.Resends env g h) →
        (∀ e rest, (f.sxeAt g).queue = e :: rest → (f.run e.helio).inFlight = false →
            f.aimChoice (f.sxeAt g) (f.choosable env g) = some (.head e))
          ∧ ((∀ e rest, (f.sxeAt g).queue = e :: rest → (f.run e.helio).inFlight = true) →
            f.aimChoice (f.sxeAt g) (f.choosable env g) = none)) := by
  obtain ⟨h1, h2⟩ := Field.find_searchFrom (f := f) (g := g) ht hp (offers := fun h => (f.run h).awaitsResend)
    (P := f.Resends env g) fun h => by
      simp only [Field.Resends, Field.Free, HelioRun.awaitsResend, Bool.and_eq_true, beq_iff_eq, Bool.not_eq_true', Option.isNone_iff_eq_none]
      tauto
  unfold Field.aimChoice
  refine ⟨fun h hh => by rw [h1 h hh]; rfl, fun hn => ?_⟩
  rw [h2 hn]
  refine ⟨fun e rest hq hi => ?_, fun hq => ?_⟩
  · simp [hq, hi]
  · cases hc : (f.sxeAt g).queue with
    | nil => rfl
    | cons e rest => simp [hq e rest hc]

/-- A settle poll (R63). -/
def Field.Unsettled (env : Env) (g : Nat) (f : Field) (h : Nat) : Prop :=
  f.Free env g h ∧ ((f.run h).state = .slewing ∧ (f.run h).accepted = true ∨ (f.run h).state = .returning ∨ (f.run h).state = .lost
    ∨ (f.run h).state = .unsure)

theorem Field.settlePoll_eq (hp : (f.sxeAt g).settle < 4096) :
    (∀ h, FirstFrom (f.sxeAt g).settle (f.Unsettled env g) h → f.settlePoll (f.sxeAt g).settle (f.choosable env g) = some (.settle h))
      ∧ ((∀ h, ¬ f.Unsettled env g h) → f.settlePoll (f.sxeAt g).settle (f.choosable env g) = none) := by
  obtain ⟨h1, h2⟩ := Field.find_searchFrom (f := f) (g := g) ht hp (offers := fun h => (f.run h).unsettled)
    (P := f.Unsettled env g) fun h => by
      simp only [Field.Unsettled, HelioRun.unsettled, Bool.or_eq_true, Bool.and_eq_true, beq_iff_eq, or_assoc]
  exact ⟨fun h hh => congrArg (Option.map Choice.settle) (h1 h hh), fun hn => congrArg (Option.map Choice.settle) (h2 hn)⟩

end Levels

/-! ### The exchange that a choice begins (R65 to R67, R71, R83) -/

theorem Field.begun_owed (hg : g < Config.segments) (hh : h < Config.heliostats) {m : Motion} {c : Cause} (ho : (f.run h).owed = some ⟨m, c⟩) :
    let k := env.live.helioAt h
    let p := env.live.standbyAt k.standby
    let toStandby := m = .defocus ∧ p.present = true
    Field.Begun env.live g h (.owedMotion (if toStandby then .standby else .stow) c)
      (if toStandby then segmentFrame k.address 0x01#8 (halfBytes p.x ++ halfBytes p.y ++ halfBytes p.z
        ++ halfBytes k.offsetEl ++ halfBytes k.offsetAz ++ [0#8, byte k.standby])
      else segmentFrame k.address 0x02#8 []) { f.sxeAt g with scan := (h + 1) % 4096 } f (f.begin env g (.owed h)) := by
  intro k p toStandby
  have hbegin : f.begin env g (.owed h) = f.launch env g h (.owedMotion (env.owedDest h m) c) (env.owedRequest h (env.owedDest h m))
      { f.sxeAt g with scan := nextPointer h } := by
    unfold Field.begin
    dsimp only
    rw [ho]
  have hdest : env.owedDest h m = if toStandby then .standby else .stow := rfl
  rw [hbegin, hdest]
  by_cases hs : toStandby
  · rw [if_pos hs, if_pos hs]
    exact Field.begun_launch env hg hh _ _ _ f
  · rw [if_neg hs, if_neg hs]
    exact Field.begun_launch env hg hh _ _ _ f

theorem Env.moveAimRequest_eq (env : Env) (h a : Nat) :
    let k := env.live.helioAt h
    let p := env.live.aimAt a
    env.moveAimRequest h a = segmentFrame k.address 0x01#8 (halfBytes p.x ++ halfBytes p.y ++ halfBytes p.z
      ++ halfBytes k.offsetEl ++ halfBytes k.offsetAz ++ [1#8, byte a]) := rfl

theorem Field.begun_resend (hg : g < Config.segments) (hh : h < Config.heliostats) {a : Nat} (ha : (f.run h).granted = some a) :
    Field.Begun env.live g h (.moveAim (f.run h).origin) (env.moveAimRequest h a) { f.sxeAt g with scan := (h + 1) % 4096 } f
      (f.begin env g (.resend h)) := by
  have hlaunch := Field.begun_launch env hg hh (.moveAim (f.run h).origin) (env.moveAimRequest h (orZero (f.run h).granted))
    { f.sxeAt g with scan := nextPointer h } f
  rw [ha] at hlaunch
  unfold Field.begin
  dsimp only
  rw [ha]
  exact hlaunch

theorem Field.begun_head (hg : g < Config.segments) {e : Entry} {rest : List Entry} (hh : e.helio < Config.heliostats)
    (hq : (f.sxeAt g).queue = e :: rest) {a : Nat} (ha : (f.run e.helio).granted = some a) :
    Field.Begun env.live g e.helio (.moveAim (some e.origin)) (env.moveAimRequest e.helio a)
      { f.sxeAt g with queue := rest, spaceFreed := true } f (f.begin env g (.head e)) := by
  have hlaunch := Field.begun_launch env hg hh (.moveAim (some e.origin)) (env.moveAimRequest e.helio a)
    { f.sxeAt g with queue := rest, spaceFreed := true } f
  unfold Field.begin
  dsimp only
  rw [ha, hq]
  exact hlaunch

theorem Field.LinesExact.entry_lt (hx : f.LinesExact env) (hc : f.Canonical) {e : Entry} (he : e ∈ (f.sxeAt g).queue) : e.helio < Config.heliostats := by
  by_contra hge
  have hq := (hx.entry g e he).2.1
  rw [Field.run_outside hc hge] at hq
  cases hq

/-- Settles O52: a request is sent, answered in its window or repeated once, and the choice outside NIGHT takes the levels in turn. -/
theorem requestSentThenRepeatedOnce : Obligations.RequestSentThenRepeatedOnce := by
  unfold Obligations.RequestSentThenRepeatedOnce
  refine ⟨fun s g x hr hx => ?_, fun s g poll hn hs hl htidy hx => ?_⟩
  · refine ⟨fun hp => ⟨exec_segmentRequestSent hr hx hp, fun frame => exec_driveAnswer_idle hr hx (.inl hp)⟩, fun since hp hk hrep => ?_,
      fun since frame hp => ⟨fun hf => exec_driveAnswer_idle hr hx (.inr hf), fun fr hf hc => ⟨fun hk hrep => ?_, fun hk => ?_⟩⟩⟩
    · rw [exec_driveResponseTimeout_silent hr hx hp hk, State.noGoodAnswer_repeat _ _ hrep]
      rfl
    · rw [exec_driveAnswer_taken hr hx hp hf, State.takeAnswer_corrupt s g hk hc, State.noGoodAnswer_repeat _ _ hrep]
    · rw [exec_driveAnswer_taken hr hx hp hf, State.takeAnswer_pass_corrupt s g hk hc]
  · have ht := hs.2.1
    have hg : (g : Nat) < Config.segments := g.isLt
    obtain ⟨hscan, hsettle⟩ := htidy.pointers g
    intro f t x address free served ofHolder watch resend unsettled first oldest noneOf moved aimed polled
    have hlt : ∀ h, free h → h < Config.heliostats := fun h hf => Tables.lt_of_present ht hf.1
    have hchoose : ∀ c, f.chooseDay s.env g = some c → t = f.begin s.env g c := fun c hc =>
      Field.choose_of_some hx ((if_neg hn).trans hc)
    have hday : f.chooseDay s.env g = ((f.owedHolder x.scan (f.choosable s.env g)).orElse fun _ =>
      ((f.oldest ((f.choosable s.env g).filter fun h => (f.run h).heardBefore s.env.now Config.watchMs)).map Choice.poll).orElse fun _ =>
      (f.owedOther x.scan (f.choosable s.env g)).orElse fun _ => (x.passSlot.map Choice.pass).orElse fun _ =>
      (f.aimChoice x (f.choosable s.env g)).orElse fun _ => (f.settlePoll x.settle (f.choosable s.env g)).orElse fun _ =>
      (f.oldest (f.choosable s.env g)).map Choice.poll) := rfl
    have hmoved : ∀ h, served h → t = f.begin s.env g (.owed h) → moved h := fun h hh hb m c ho =>
      hb ▸ Field.begun_owed hg (hlt h hh.1) ho
    have hpolled : ∀ h, free h → t = f.begin s.env g (.poll h) → polled h x := fun h hh hb => by
      rw [show polled h x ↔ Field.Begun s.live g h .query (s.env.queryRequest h) x f t from Iff.rfl, hb]
      exact Field.begun_launch s.env hg (hlt h hh) .query (s.env.queryRequest h) x f
    obtain ⟨hholder, hnoHolder⟩ := Field.owedHolder_eq (f := f) (g := g) (env := s.env) ht hscan
    obtain ⟨hwatch, hnoWatch⟩ := Field.watchPoll_eq (f := f) (g := g) (env := s.env) ht
    refine ⟨fun h hh => hmoved h hh.1.1 (hchoose _ ?_), fun hn1 => ?_⟩
    · rw [hday, hholder h hh]
      rfl
    rw [hnoHolder hn1, Option.orElse_none] at hday
    refine ⟨fun h hh => hpolled h hh.1.1 (hchoose _ ?_), fun hn2 => ?_⟩
    · rw [hday, hwatch h hh]
      rfl
    rw [hnoWatch hn2, Option.orElse_none] at hday
    obtain ⟨hother, hnoOther⟩ := Field.owedOther_eq (f := f) (g := g) (env := s.env) ht hscan hn1
    refine ⟨fun h hh => hmoved h hh.1 (hchoose _ ?_), fun hn3 => ?_⟩
    · rw [hday, hother h hh]
      rfl
    rw [hnoOther hn3, Option.orElse_none] at hday
    refine ⟨fun p hp => ?_, fun hpass => ?_⟩
    · have hb := hchoose (.pass p) (by rw [hday, hp]; rfl)
      exact hb ▸ Field.begun_launch s.env hg (Field.lt_of_inFlight hs.1 (hl.pass g p hp).2) .pass (s.env.passRequest p) x f
    rw [hpass, Option.map_none, Option.orElse_none] at hday
    obtain ⟨hresend, hnoResend⟩ := Field.aimChoice_eq (f := f) (g := g) (env := s.env) ht hscan
    refine ⟨fun h hh a ha => ?_, fun hn4 => ?_⟩
    · have hb := hchoose (.resend h) (by rw [hday, hresend h hh]; rfl)
      exact hb ▸ Field.begun_resend hg (hlt h hh.1.1) ha
    obtain ⟨hhead, hnoHead⟩ := hnoResend hn4
    refine ⟨fun e rest hq hi a ha => ?_, fun hn5 => ?_⟩
    · have hb := hchoose (.head e) (by rw [hday, hhead e rest hq hi]; rfl)
      exact hb ▸ Field.begun_head hg (hl.entry_lt hs.1 (g := g) (hq ▸ List.mem_cons_self)) hq ha
    rw [hnoHead hn5, Option.orElse_none] at hday
    obtain ⟨hpoll, hnoPoll⟩ := Field.settlePoll_eq (f := f) (g := g) (env := s.env) ht hsettle
    refine ⟨fun h hh => ?_, fun hn6 => ?_⟩
    · have hb := hchoose (.settle h) (by rw [hday, hpoll h hh]; rfl)
      rw [show polled h { x with settle := (h + 1) % 4096 }
        ↔ Field.Begun s.live g h .query (s.env.queryRequest h) { x with settle := nextPointer h } f t from Iff.rfl, hb]
      exact Field.begun_launch s.env hg (hlt h hh.1.1) .query (s.env.queryRequest h) { x with settle := nextPointer h } f
    rw [hnoPoll hn6, Option.orElse_none] at hday
    obtain ⟨hold, hnoOld⟩ := Field.oldest_choosable (f := f) (g := g) (env := s.env) ht
    refine ⟨fun h hh => hpolled h hh.1 (hchoose _ ?_), fun hn7 => ?_⟩
    · rw [hday, hold h hh]
      rfl
    · exact Field.choose_of_none ((if_neg hn).trans (by rw [hday, hnoOld hn7]; rfl))

end Sys2Proof.Machine
end

section
/-! PROOFS for segment exchanges: the end of an exchange, whatever its outcome (R56, R60, R148). -/

namespace Sys2Proof.Machine

variable {s t : State} {env : Env} {f g f3 : Field} {n : Fin 4} {x : Exchange} {h : Nat} {e : Edit} {new before : HelioRun}
  {found : Option Finding}

/-! ### The survey's note and the choices -/

/-- The field in which segment `n` has ended its exchange now, before the outcome is written (R56). -/
def State.endedField (s : State) (n : Nat) : Field := s.field.setSxe n ((s.field.sxeAt n).ended s.now)

/-- The state `t` is what an exchange with heliostat `h`, whose record was `before`, leaves once its outcome has made `f3` of the field: the
survey has taken note, and the SXEs have made their choices (R56, R60, R148). -/
def State.Closed (s t : State) (h : Nat) (before : HelioRun) (found : Option Finding) (f3 : Field) : Prop :=
  ∃ s2, s2 = ({ s with field := f3 } : State).surveyStep h before found ∧ t = { s2 with field := t.field } ∧ s2.field.ChoiceOnly t.field

/-- The outcome of an exchange with heliostat `x.helio` (R56). -/
def State.outcomeOf (s : State) (n : Nat) (x : Exchange) (edit : Env → Field → Edit → Edit) : Edit :=
  edit s.env (s.endedField n) (Edit.of { s.field.run x.helio with inFlight := false, lastExchange := some s.now })

theorem State.endExchange_closed (s : State) (n : Fin 4) (x : Exchange) (found : Option Finding) (edit : Env → Field → Edit → Edit) :
    s.Closed (s.endExchange n x found edit) x.helio (s.field.run x.helio) found
      ((Work.of (s.endedField n)).conclude s.env x.helio (s.outcomeOf n x edit) x.kind.origin).fld := by
  generalize hf3 : ((Work.of (s.endedField n)).conclude s.env x.helio (s.outcomeOf n x edit) x.kind.origin).fld = f3
  have hend : s.endExchange n x found edit = (let s2 := ({ s with field := f3 } : State).surveyStep x.helio (s.field.run x.helio) found
      State.kick { s2 with field := s2.field.choose s2.env true n }) := by
    rw [← hf3]
    rfl
  rw [hend]
  dsimp only
  generalize hs2 : ({ s with field := f3 } : State).surveyStep x.helio (s.field.run x.helio) found = s2
  exact ⟨s2, hs2.symm, State.kick_withField s2 _, (Field.choiceOnly_choose s2.env true s2.field n).trans
    (State.choiceOnly_kick { s2 with field := s2.field.choose s2.env true n })⟩

theorem State.Closed.frame (hc : s.Closed t h before found f3) : t = { s with osc := t.osc, field := t.field } := by
  obtain ⟨s2, hs2, ht, -⟩ := hc
  obtain ⟨o, ts, ta, tr, hs⟩ := State.surveyStep_others h before found { s with field := f3 }
  rw [ht, hs2, hs]

/-- But for the programs and the reports, which the end of a survey may change, the choices alone follow the outcome. -/
theorem State.Closed.choices (hc : s.Closed t h before found f3) :
    ∃ ts ta tr, Field.ChoiceOnly { f3 with slot := ts, arbiter := ta, reports := tr } t.field := by
  obtain ⟨s2, hs2, -, hch⟩ := hc
  obtain ⟨o, ts, ta, tr, hs⟩ := State.surveyStep_others h before found { s with field := f3 }
  rw [hs2, hs] at hch
  exact ⟨ts, ta, tr, hch⟩

theorem State.Closed.run_eq (hc : s.Closed t h before found f3) (j : Nat) :
    t.field.run j = { f3.run j with inFlight := (t.field.run j).inFlight, queued := (t.field.run j).queued } := by
  obtain ⟨ts, ta, tr, hch⟩ := hc.choices
  exact hch.run_eq j

theorem State.Closed.inFlight (hc : s.Closed t h before found f3) {j : Nat} (hi : (f3.run j).inFlight = true) :
    (t.field.run j).inFlight = true := by
  obtain ⟨ts, ta, tr, hch⟩ := hc.choices
  rcases hch.runs j with e | ⟨e, -⟩
  · rw [e]
    exact hi
  · rw [e]

theorem State.Closed.queued (hc : s.Closed t h before found f3) {j : Nat} (hq : (t.field.run j).queued = true) :
    (f3.run j).queued = true := by
  obtain ⟨ts, ta, tr, hch⟩ := hc.choices
  by_contra hn
  rw [hch.not_queued (j := j) (eq_false_of_ne_true hn)] at hq
  cases hq

theorem State.Closed.sxe (hc : s.Closed t h before found f3) (k : Nat) : (t.field.sxeAt k).lastEnd = (f3.sxeAt k).lastEnd
    ∧ ((t.field.sxeAt k).queue = (f3.sxeAt k).queue ∨ (t.field.sxeAt k).queue = (f3.sxeAt k).queue.tail) := by
  obtain ⟨ts, ta, tr, hch⟩ := hc.choices
  exact ⟨hch.lastEnd k, hch.queue k⟩

theorem State.Closed.grants (hc : s.Closed t h before found f3) : t.field.grants = f3.grants := by
  obtain ⟨ts, ta, tr, hch⟩ := hc.choices
  exact hch.grants

theorem State.Closed.trip (hc : s.Closed t h before found f3) : t.field.trip = f3.trip := by
  obtain ⟨ts, ta, tr, hch⟩ := hc.choices
  exact hch.trip

theorem State.Closed.zoneAt (hc : s.Closed t h before found f3) (z : Nat) : t.field.zoneAt z = f3.zoneAt z := by
  obtain ⟨ts, ta, tr, hch⟩ := hc.choices
  exact hch.zoneAt z

/-- An exchange that takes no UNSURE heliostat elsewhere is none of a survey's: the choices alone follow its outcome. -/
theorem State.Closed.skipped (hc : s.Closed t h before found f3)
    (hn : s.osc.opState ≠ .survey ∨ before.state ≠ .unsure ∨ (f3.run h).state = .unsure) : t.osc = s.osc ∧ f3.ChoiceOnly t.field := by
  obtain ⟨s2, hs2, ht, hch⟩ := hc
  have hskip : s2 = { s with field := f3 } := by
    rw [hs2]
    refine if_neg fun ⟨h1, h2, h3⟩ => ?_
    rcases hn with hn | hn | hn
    · exact hn h1
    · exact hn h2
    · exact h3 hn
  rw [hskip] at ht hch
  exact ⟨by rw [ht], hch⟩

/-- A survey counts the heliostat that an exchange has taken out of UNSURE (R148). -/
theorem State.Closed.counted (hc : s.Closed t h before found f3) (h1 : s.osc.opState = .survey) (h2 : before.state = .unsure)
    (h3 : (f3.run h).state ≠ .unsure) : t.osc.adopted = (s.osc.countSurvey h found).adopted
      ∧ t.osc.leftLost = (s.osc.countSurvey h found).leftLost := by
  obtain ⟨s2, hs2, ht, -⟩ := hc
  rw [ht, hs2]
  exact State.surveyStep_counts (s := { s with field := f3 }) h1 h2 h3 found

/-! ### What the end keeps -/

/-- The outcome has made `new` of heliostat `h`'s record, and the FAU's tests have kept every other secured heliostat (R44 to R47, R56). -/
structure Field.Concluded (h : Nat) (new : HelioRun) (f g : Field) : Prop where
  record : g.run h = { new with reportOwed := (g.run h).reportOwed }
  others : ∀ j, j ≠ h → (f.run j).secured → g.run j = { f.run j with reportOwed := (g.run j).reportOwed }
  zones : f.ZonesKept g
  programs : (new.state = .lost → (f.run h).state = .lost) → f.ProgramsKept g
  lastEnd : ∀ n, (g.sxeAt n).lastEnd = (f.sxeAt n).lastEnd

theorem Field.Written.concluded (hw : Field.Written h e new f g) : Field.Concluded h new f g :=
  ⟨hw.record, fun j hj _ => hw.others j hj, hw.zones, hw.programs, hw.lastEnd⟩

/-- An exchange of segment `n` with heliostat `h` has ended now, and has made `new` of the record. -/
structure State.Ended (s t : State) (n h : Nat) (new : HelioRun) : Prop where
  frame : t = { s with osc := t.osc, field := t.field }
  record : t.field.run h = { new with
    inFlight := (t.field.run h).inFlight, queued := (t.field.run h).queued, reportOwed := (t.field.run h).reportOwed }
  queued : (t.field.run h).queued = true → new.queued = true
  ended : (t.field.sxeAt n).lastEnd = some s.now
  others : s.field.RunsKept (fun j => j ≠ h) t.field
  zones : s.field.ZonesKept t.field
  osc : s.osc.opState ≠ .survey ∨ (s.field.run h).state ≠ .unsure → t.osc = s.osc
  programs : s.osc.opState ≠ .survey ∨ (s.field.run h).state ≠ .unsure → new.state ≠ .lost → s.field.ProgramsKept t.field

theorem State.Closed.ended (hc : s.Closed t h (s.field.run h) found f3) (hw : Field.Concluded h new (s.endedField n) f3) :
    s.Ended t n h new := by
  have hskip := fun hn : s.osc.opState ≠ .survey ∨ (s.field.run h).state ≠ .unsure => hc.skipped (hn.imp_right Or.inl)
  refine ⟨hc.frame, ?_, fun hq => ?_, ?_, fun j hj hsec => ⟨?_, fun hi => hc.inFlight ?_⟩, fun z => ?_, fun hn => (hskip hn).1, fun hn hl => ?_⟩
  · have h1 := hc.run_eq h
    rw [hw.record] at h1
    rw [h1]
  · have h1 := hc.queued hq
    rw [hw.record] at h1
    exact h1
  · rw [(hc.sxe n).1, hw.lastEnd, State.endedField, Field.sxeAt_setSxe, if_pos ⟨rfl, n.isLt⟩]
    rfl
  · have h1 := hc.run_eq j
    rw [hw.others j hj hsec, show (s.endedField n).run j = s.field.run j from rfl] at h1
    rw [h1]
  · rw [hw.others j hj hsec]
    exact hi
  · rw [hc.zoneAt]
    exact hw.zones z
  · have h1 := hw.programs fun c => absurd c hl
    have hch := (hskip hn).2
    exact Field.ProgramsKept.trans h1 ⟨hch.arbiter, fun k => by rw [hch.slotAt]⟩

theorem State.Ended.made (he : s.Ended t n h (new.stamped s.now)) : s.AnswerMade t n h none new := by
  obtain ⟨h1, h2, h3, h4, h5, h6, h7, h8⟩ := he
  refine ⟨h1, ?_, h3, h4, h5, h6, h7, h8⟩
  rw [HelioRun.by_none]
  exact h2

end Sys2Proof.Machine
end

section
/-! PROOFS for segment exchanges: what the outcome of an exchange makes of the field, by what it makes of the record: one that eases it, one
that leaves it secured, and one that moves no load (R26, R27, R43 to R47, R56, R100). -/

namespace Sys2Proof.Machine

variable {s t : State} {env : Env} {f g f3 : Field} {n : Fin 4} {x : Exchange} {h : Nat} {e : Edit} {w : Work}
  {edit : Env → Field → Edit → Edit}

/-! ### An entry that goes back to the Move Queue (R69) -/

theorem Work.enqueue_others (env : Env) (en : Entry) (w : Work) : ∃ t, (w.enqueue env en).fld = { w.fld with sxe := t } := by
  unfold Work.enqueue
  dsimp only
  split
  · exact ⟨_, rfl⟩
  · exact ⟨_, rfl⟩

theorem Work.lastEnd_enqueue (env : Env) (en : Entry) (w : Work) (m : Nat) :
    ((w.enqueue env en).fld.sxeAt m).lastEnd = (w.fld.sxeAt m).lastEnd := by
  unfold Work.enqueue
  dsimp only
  split
  · rw [Field.sxeAt_setSxe]
    split
    · next hc => rw [← hc.1]
    · rfl
  · rfl

theorem Field.Outcome.withSxes (ho : Field.Outcome env h e f g) {tx : Table Sxe}
    (hl : ∀ n, (({ g with sxe := tx } : Field).sxeAt n).lastEnd = (g.sxeAt n).lastEnd) : Field.Outcome env h e f { g with sxe := tx } :=
  ⟨ho.run, ho.zones, ho.loads, ho.programs, ho.hear, fun n => (hl n).trans (ho.lastEnd n), ho.newest⟩

/-- The slots follow the revocation last (R120). -/
theorem Field.Outcome.followed (ho : Field.Outcome env h { e with revoked := none } f w.fld) :
    Field.Outcome env h e f (w.followRevoked h e.revoked).fld := by
  obtain ⟨ts, hts⟩ := Work.followRevoked_others h e.revoked w
  have hkept := Work.followRevoked_kept h e.revoked w
  refine ⟨?_, ?_, ?_, fun hl => (ho.programs hl).trans hkept, fun n hn => ?_, ?_, ?_⟩
  · rw [hts]
    exact ho.run
  · rw [hts]
    exact ho.zones
  · rw [hts]
    exact ho.loads
  · obtain ⟨y, hy⟩ := ho.hear n hn
    exact ⟨y, by rw [Work.slotAt_followRevoked h e.revoked w hn, hy]; rfl⟩
  · rw [hts]
    exact ho.lastEnd
  · rw [hts]
    exact ho.newest

/-- An outcome in the field, before the FAU's tests, whether or not an entry goes back to the Move Queue (R56, R69). -/
theorem Work.outcome_applied (hc : w.fld.Canonical) (ha : w.fld.AccountsExact env) (hh : h < Config.heliostats) (o : Origin) :
    Field.Outcome env h e w.fld (w.applyEdit env h e o).fld := by
  have h1 := Work.outcome_applyEdit (e := { e with requeue := false, revoked := none }) hc ha hh rfl o
  have h2 : ∀ v : Work, Field.Outcome env h { e with revoked := none } w.fld v.fld →
      Field.Outcome env h { e with revoked := none } w.fld (if e.requeue then v.enqueue env ⟨h, orZero e.r.granted, o⟩ else v).fld := fun v hv => by
    split
    · obtain ⟨tx, htx⟩ := Work.enqueue_others env ⟨h, orZero e.r.granted, o⟩ v
      have hl := Work.lastEnd_enqueue env ⟨h, orZero e.r.granted, o⟩ v
      rw [htx] at hl ⊢
      exact hv.withSxes hl
    · exact hv
  rw [Work.fld_applyEdit rfl] at h1
  exact (h2 _ ⟨h1.run, h1.zones, h1.loads, h1.programs, h1.hear, h1.lastEnd, h1.newest⟩).followed

/-! ### The FAU's tests keep the exchanges' ends and an onset, and add nothing to a Move Queue (R58, R64, R100) -/

theorem Field.queue_dropEntry (g h : Nat) (f : Field) (n : Nat) (en : Entry) (he : en ∈ ((f.dropEntry g h).sxeAt n).queue) :
    en ∈ (f.sxeAt n).queue := by
  unfold Field.dropEntry at he
  dsimp only at he
  split at he
  · rw [Field.sxeAt_setSxe] at he
    split at he
    · next hc => exact hc.1 ▸ (List.mem_filter.1 he).1
    · exact he
  · exact he

/-- What the FAU's tests keep beside `Field.ShedOnly`. -/
structure Work.Tested (w v : Work) : Prop where
  lastEnd : ∀ n, (v.fld.sxeAt n).lastEnd = (w.fld.sxeAt n).lastEnd
  onset : w.onset = true → v.onset = true
  queue : ∀ n, ∀ en ∈ (v.fld.sxeAt n).queue, en ∈ (w.fld.sxeAt n).queue

theorem Work.Tested.refl (w : Work) : w.Tested w := ⟨fun _ => rfl, id, fun _ _ => id⟩

theorem Work.Tested.of_sxe {v : Work} (hs : v.fld.sxe = w.fld.sxe) (ho : w.onset = true → v.onset = true) : w.Tested v := by
  have h1 : ∀ n, v.fld.sxeAt n = w.fld.sxeAt n := fun n => by rw [Field.sxeAt, hs]; rfl
  exact ⟨fun n => by rw [h1], ho, fun n en he => by rwa [h1] at he⟩

theorem Work.Tested.trans {u v : Work} (h1 : w.Tested v) (h2 : v.Tested u) : w.Tested u :=
  ⟨fun n => (h2.lastEnd n).trans (h1.lastEnd n), fun h => h2.onset (h1.onset h), fun n en he => h1.queue n en (h2.queue n en he)⟩

theorem Work.Tested.of_ite {c : Prop} [Decidable c] {v u : Work} (h1 : w.Tested v) (h2 : w.Tested u) : w.Tested (if c then v else u) := by
  split
  · exact h1
  · exact h2

theorem Work.tested_put (env : Env) (h : Nat) (r : HelioRun) (w : Work) : w.Tested (w.put env h r) := by
  refine .of_sxe (Work.sxe_put env h r w) fun ho => ?_
  have hwrite : (w.write env h r).onset = true := by
    unfold Work.write
    split
    · dsimp only
      rw [ho, Bool.true_or]
    · exact ho
  unfold Work.put
  dsimp only
  split
  · exact hwrite
  · exact hwrite

theorem Work.tested_withdrawal (env : Env) (h : Nat) (r : HelioRun) (a : Option Nat) (w : Work) :
    w.Tested (((w.dropEntry env h).put env h r).follow h a false) := by
  have hdrop : w.Tested (w.dropEntry env h) := ⟨Field.lastEnd_dropEntry _ h w.fld, id, Field.queue_dropEntry _ h w.fld⟩
  refine (hdrop.trans (Work.tested_put env h r _)).trans (.of_sxe (Work.sxe_follow h a false _) fun ho => ?_)
  · unfold Work.follow
    split <;> exact ho

theorem Work.tested_owe (env : Env) (m : Motion) (c : Cause) (h : Nat) (w : Work) : w.Tested (w.owe env m c h) := by
  rw [Work.owe_eq]
  exact .of_ite (Work.tested_withdrawal env h _ _ w) (Work.tested_put env h _ w)

theorem Work.tested_withdraw (env : Env) (c : Cause) (h : Nat) (w : Work) : w.Tested (w.withdraw env c h) := by
  rw [Work.withdraw_eq]
  exact .of_ite (Work.tested_withdrawal env h _ _ w) (.refl w)

theorem Work.tested_turn (env : Env) (z h : Nat) (w : Work) : w.Tested (w.turn env z h) := by
  unfold Work.turn Work.shed
  have h1 := Work.tested_withdraw env .shed h w
  exact .of_ite (.of_ite (.of_ite (h1.trans (Work.tested_owe env .defocus .shed h _)) h1) (Work.tested_owe env .defocus .shed h w)) (.refl w)

theorem Work.tested_walk (env : Env) (z : Nat) (l : List Nat) (w : Work) : w.Tested (w.walk env z l) := by
  induction l generalizing w with
  | nil => exact .refl w
  | cons h l ih =>
    rw [Work.walk_cons]
    exact .of_ite ((Work.tested_turn env z h w).trans (ih _)) (.refl w)

theorem Work.tested_mark (z : Nat) (v : ZoneRun) (w : Work) : w.Tested (w.mark z v) :=
  .of_sxe (Work.report_sxe _ _) id

theorem Work.tested_evalOver (z : Nat) (w : Work) : w.Tested (w.evalOver z) :=
  .of_ite (.refl w) (Work.tested_mark z _ w)

theorem Work.tested_setUnsheddable (z : Nat) (b : Bool) (w : Work) : w.Tested (w.setUnsheddable z b) := by
  have h1 : ∀ v, w.Tested { w.mark z v with onset := (w.mark z v).onset || b } := fun v =>
    (Work.tested_mark z v w).trans (.of_sxe rfl fun ho => by
      dsimp only
      rw [ho, Bool.true_or])
  exact .of_ite (.refl w) (h1 _)

theorem Work.tested_settle (env : Env) (n : Nat) (w : Work) : w.Tested (w.settle env n) := by
  have hshed : ∀ z (w : Work), w.Tested (w.shedTest env z) := fun z w => by
    have h1 : w.Tested (w.shedExcess env z) := .of_ite ((Work.tested_walk env z _ w).trans (Work.tested_evalOver z _)) (.refl w)
    have h2 := h1.trans (Work.tested_setUnsheddable z ((w.shedExcess env z).fld.zoneAt z).inExcess _)
    rw [Work.shedTest_eq]
    exact ⟨h2.lastEnd, h2.onset, h2.queue⟩
  induction n generalizing w with
  | zero => exact .refl w
  | succ n ih =>
    cases ht : w.touched with
    | nil =>
      rw [Work.settle_nil env _ ht]
      exact .refl w
    | cons z rest =>
      rw [Work.settle_cons ht]
      have h1 : w.Tested ({ w with touched := rest } : Work) := .of_sxe rfl id
      exact ((h1.trans (Work.tested_evalOver z _)).trans (hshed z _)).trans (ih _)

/-! ### The outcome with the FAU's tests and the trip record -/

/-- After the FAU's tests the end of an exchange reports, and brings the trip record up to date. -/
theorem Work.marked_conclude_of_settled (env : Env) (h : Nat) (e : Edit) (o : Origin) (w : Work) :
    ((w.applyEdit env h e o).settleNow env).fld.Marked (w.conclude env h e o).fld := by
  unfold Work.conclude
  dsimp only
  refine Field.Marked.trans ?_ (Work.marked_evalTrip env _)
  split
  · exact Field.marked_queueReport _ _
  · exact .refl _

theorem Work.marked_conclude {o : Origin} (hs : (w.applyEdit env h e o).fld.Spent env) :
    (w.applyEdit env h e o).fld.Marked (w.conclude env h e o).fld :=
  (Work.marked_settle _ hs).trans (Work.marked_conclude_of_settled env h e o w)

/-- An outcome that leaves its heliostat secured. -/
theorem Work.concluded_of_secured (hc : w.fld.Canonical) (ha : w.fld.AccountsExact env) (hh : h < Config.heliostats)
    (hs : e.r.secured = true) (o : Origin) : Field.Concluded h e.r w.fld (w.conclude env h e o).fld := by
  have ho := Work.outcome_applied (e := e) hc ha hh o
  have hshed := Work.shedOnly_settleNow env (w.applyEdit env h e o)
  have hends := (Work.tested_settle env (w.applyEdit env h e o).fuel (w.applyEdit env h e o)).lastEnd
  have hm := Work.marked_conclude_of_settled env h e o w
  have hsame : ∀ j, ((w.applyEdit env h e o).fld.run j).secured → (w.conclude env h e o).fld.run j =
      { (w.applyEdit env h e o).fld.run j with reportOwed := ((w.conclude env h e o).fld.run j).reportOwed } := fun j hj => by
    have h1 := hm.runs j
    rw [hshed.runs j hj] at h1
    exact h1
  refine ⟨?_, fun j hj hsec => ?_, fun z => ((ho.zones z).trans (hshed.zones z)).trans (hm.inputs z), fun hl => ?_, fun k => ?_⟩
  · have h1 := hsame h
    rw [ho.run h, if_pos rfl] at h1
    exact h1 hs
  · have h1 := hsame j
    rw [ho.run j, if_neg hj] at h1
    exact h1 hsec
  · exact ((ho.programs hl).trans ⟨hshed.arbiter, hshed.slots⟩).trans ⟨hm.arbiter, fun k => by rw [hm.slotAt]⟩
  · rw [hm.sxeAt]
    exact (hends k).trans (ho.lastEnd k)

theorem Work.queue_conclude {o : Origin} {k : Nat} {en : Entry} (he : en ∈ ((w.conclude env h e o).fld.sxeAt k).queue) :
    en ∈ ((w.applyEdit env h e o).fld.sxeAt k).queue := by
  rw [(Work.marked_conclude_of_settled env h e o w).sxeAt] at he
  exact (Work.tested_settle env (w.applyEdit env h e o).fuel (w.applyEdit env h e o)).queue k en he

/-- An outcome that is an onset sets the latch of LATCH mode (R100, R101). -/
theorem Work.latch_conclude {o : Origin} (he : e.onset = true) (hm : env.live.watch.mode = .latch) :
    (w.conclude env h e o).fld.trip.latch = true := by
  have h1 : (w.applyEdit env h e o).onset = true := by
    unfold Work.applyEdit
    dsimp only
    rw [he, Bool.or_true]
  have h2 := (Work.tested_settle env (w.applyEdit env h e o).fuel (w.applyEdit env h e o)).onset h1
  unfold Work.conclude
  dsimp only
  rw [Work.trip_evalTrip]
  dsimp only
  rw [hm]
  split
  · rw [Work.report_onset]
    exact (congrArg (_ || ·) h2).trans (Bool.or_true _)
  · exact (congrArg (_ || ·) h2).trans (Bool.or_true _)

end Sys2Proof.Machine
end

section
/-! PROOFS for segment exchanges: the field that an exchange's outcome leaves (R56), and an ACCEPT to a MOVE-AIM, with the timer that it starts
(R68, R81). -/

namespace Sys2Proof.Machine

variable {s t : State} {env : Env} {f g f3 : Field} {n : Fin 4} {x : Exchange} {h : Nat} {e : Edit} {w : Work}
  {edit : Env → Field → Edit → Edit} {r r' : HelioRun} {found : Option Finding}

/-! ### The outcome of an exchange of a state -/

theorem Field.lt_of_state (hc : f.Canonical) (hs : (f.run h).state ≠ .absent) : h < Config.heliostats := by
  by_contra hn
  rw [Field.run_outside hc hn] at hs
  exact hs rfl

theorem State.Sound.endedField (hs : s.Sound) (n : Fin 4) : (s.endedField n).Good s.env :=
  (Field.reach_ended (live := s.live) n s.now s.field).good (env := s.env) hs.good

/-- The field with the outcome of the exchange, before the FAU's tests. -/
def State.appliedField (s : State) (n : Nat) (x : Exchange) (edit : Env → Field → Edit → Edit) : Field :=
  ((Work.of (s.endedField n)).applyEdit s.env x.helio (s.outcomeOf n x edit) x.kind.origin).fld

/-- The field that the outcome, the FAU's tests and the trip record have left. -/
def State.concludedField (s : State) (n : Nat) (x : Exchange) (edit : Env → Field → Edit → Edit) : Field :=
  ((Work.of (s.endedField n)).conclude s.env x.helio (s.outcomeOf n x edit) x.kind.origin).fld

theorem State.Sound.appliedField (hs : s.Sound) (n : Fin 4) (x : Exchange) (hk : EditKeeps edit) :
    (s.appliedField n x edit).Good s.env := by
  have hsteady : (s.field.run x.helio).Steady (s.outcomeOf n x edit).r :=
    hk.steady s.env (s.endedField n) (s.field.run x.helio) s.now
  exact (Work.reach_applyEdit (env := s.env) x.helio (s.outcomeOf n x edit) x.kind.origin (Work.of (s.endedField n)) hsteady.sound
    hsteady.reportOwed).good (hs.endedField n)

/-- An outcome that eases its record: the FAU's tests mark zones, and do nothing else. -/
theorem State.written_of_eases (hs : s.Sound) (hz : s.ZonesSettled) (hh : x.helio < Config.heliostats) (hk : EditKeeps edit)
    (he : (s.field.run x.helio).Eases (s.outcomeOf n x edit).r) :
    (s.appliedField n x edit).Marked (s.concludedField n x edit)
      ∧ Field.Written x.helio (s.outcomeOf n x edit) (s.outcomeOf n x edit).r (s.endedField n) (s.concludedField n x edit) := by
  have hf := hs.endedField n
  have ho : Field.Outcome s.env x.helio (s.outcomeOf n x edit) (s.endedField n) (s.appliedField n x edit) :=
    Work.outcome_applied (w := Work.of (s.endedField n)) hf.canonical hf.accounts hh x.kind.origin
  have hz0 : ∀ z, (s.endedField n).ZoneSettled s.env z := fun z =>
    ((State.zonesSettled_iff hs.good).1 hz z).sameLoads (s.field.sameLoads_setSxe _ _)
  have hm := Work.marked_conclude (ho.spent (hs.appliedField n x hk).canonical hz0 he)
  exact ⟨hm, ho.written.marked hm⟩

/-- An outcome that leaves its heliostat secured. -/
theorem State.concluded_of_secured (hs : s.Sound) (hh : x.helio < Config.heliostats) (hsec : (s.outcomeOf n x edit).r.secured = true) :
    Field.Concluded x.helio (s.outcomeOf n x edit).r (s.endedField n) (s.concludedField n x edit) :=
  Work.concluded_of_secured (w := Work.of (s.endedField n)) (hs.endedField n).canonical (hs.endedField n).accounts hh hsec x.kind.origin

/-- The end of an exchange whose outcome leaves its heliostat secured. -/
theorem State.ended_of_secured (hs : s.Sound) (hh : x.helio < Config.heliostats) (hsec : (s.outcomeOf n x edit).r.secured = true)
    (found : Option Finding) : s.Ended (s.endExchange n x found edit) n x.helio (s.outcomeOf n x edit).r :=
  (s.endExchange_closed n x found edit).ended (State.concluded_of_secured hs hh hsec)

/-- The end of an exchange whose outcome eases its record. -/
theorem State.ended_of_eases (hs : s.Sound) (hz : s.ZonesSettled) (hh : x.helio < Config.heliostats) (hk : EditKeeps edit)
    (he : (s.field.run x.helio).Eases (s.outcomeOf n x edit).r) (found : Option Finding) :
    s.Ended (s.endExchange n x found edit) n x.helio (s.outcomeOf n x edit).r :=
  (s.endExchange_closed n x found edit).ended (State.written_of_eases hs hz hh hk he).2.concluded

/-! ### A change that moves no load and is not reported -/

/-- The record `r'` differs from `r` by no reported change, and not in what makes its load pending. -/
structure HelioRun.Quiet (r r' : HelioRun) : Prop where
  same : r.differs r' = false
  released : r'.released = r.released

theorem HelioRun.Quiet.fields (hq : r.Quiet r') :
    r'.state = r.state ∧ r'.granted = r.granted ∧ r'.leaving = r.leaving ∧ r'.owed = r.owed ∧ r'.unaccounted = r.unaccounted := by
  have h1 := hq.same
  unfold HelioRun.differs at h1
  simp only [Bool.or_eq_false_iff, bne_eq_false_iff_eq] at h1
  obtain ⟨⟨⟨⟨⟨⟨h1, h2⟩, h3⟩, h4⟩, -⟩, h5⟩, -⟩ := h1
  exact ⟨h1.symm, h2.symm, h3.symm, h4.symm, h5.symm⟩

theorem HelioRun.Quiet.aims (hq : r.Quiet r') : r'.aims = r.aims := by
  obtain ⟨-, hg, hl, -⟩ := hq.fields
  rw [HelioRun.aims, hg, hl]
  rfl

theorem HelioRun.Quiet.isPending (hq : r.Quiet r') : r'.isPending = r.isPending := by
  obtain ⟨hs, hg, hl, ho, -⟩ := hq.fields
  unfold HelioRun.isPending HelioRun.holdsLoad
  rw [hs, hg, hl, ho, hq.released]

theorem HelioRun.Quiet.accountedLost (hq : r.Quiet r') : r'.accountedLost = r.accountedLost := by
  obtain ⟨hs, -, -, -, hu⟩ := hq.fields
  rw [HelioRun.accountedLost, hs, hu]
  rfl

theorem HelioRun.Quiet.zonesMoved (hq : r.Quiet r') (env : Env) : env.zonesMoved r r' = [] :=
  if_pos ⟨hq.aims.symm, hq.isPending.symm⟩

/-- Such a record takes the old one's place, and nothing else changes. -/
theorem Field.record_quiet (hg : f.GrantsExact) (hq : (f.run h).Quiet r) : f.record env h r = f.setRun h r := by
  obtain ⟨hs, hgr, -⟩ := hq.fields
  have hgrants : grantsAfter f.grants h r.granted = f.grants := by
    unfold grantsAfter
    rw [hgr]
    by_cases hm : h ∈ f.grants
    · rw [if_pos hm, if_neg]
      rw [← Option.not_isSome, Bool.not_eq_true', Bool.not_eq_false]
      exact (hg.2 h).1 hm
    · rw [if_pos]
      · refine List.filter_eq_self.2 fun j hj => ?_
        rw [bne_iff_ne]
        exact fun e => hm (e ▸ hj)
      · rw [← Option.not_isSome, Bool.not_eq_true']
        exact eq_false_of_ne_true fun hc => hm ((hg.2 h).2 hc)
  have hown : ∀ l : List Nat, l.filter (· ∉ l) = [] := fun l => List.filter_eq_nil_iff.2 fun a ha => by simp [ha]
  have hacc : f.accountRecord env h r = f.setRun h r := by
    unfold Field.accountRecord
    simp only [hq.zonesMoved, hq.aims, hown]
    rfl
  unfold Field.record
  dsimp only
  rw [hacc, if_neg fun c => c.2 (hs.symm.trans c.1)]
  exact congrArg (fun l => ({ f.setRun h r with grants := l } : Field)) hgrants

/-- An outcome that changes no more than that, with the entry that leaves the Move Queue. -/
theorem Work.conclude_quiet (hh : h < Config.heliostats) (hg : f.GrantsExact) (hc : f.Canonical) (ht : f.TripOf env.live)
    (hq : (f.run h).Quiet e.r) (hrest : e.requeue = false ∧ e.revoked = none ∧ e.onset = false ∧ e.newest = false) (o : Origin)
    (happ : ((Work.of f).applyEdit env h e o).fld.Canonical) :
    ((Work.of f).conclude env h e o).fld = (if e.drop then f.dropEntry (env.segmentOf h) h else f).setRun h e.r := by
  obtain ⟨h1, h2, h3, h4⟩ := hrest
  obtain ⟨tx, htx⟩ : ∃ tx, (if e.drop then f.dropEntry (env.segmentOf h) h else f) = { f with sxe := tx } := by
    split
    · exact Field.dropEntry_others _ h f
    · exact ⟨_, rfl⟩
  have hdrop : (if e.drop then (Work.of f).dropEntry env h else Work.of f) = Work.of { f with sxe := tx } := by
    rw [← htx]
    split <;> rfl
  have hwrite : (Work.of { f with sxe := tx }).write env h e.r = Work.of (({ f with sxe := tx } : Field).setRun h e.r) := by
    have hlost : (e.r.accountedLost && !(f.run h).accountedLost) = false := by
      rw [hq.accountedLost, Bool.and_not_self]
    unfold Work.write
    rw [if_pos hh, show (Work.of { f with sxe := tx }).fld.run h = f.run h from rfl, hq.zonesMoved env, hlost,
      Field.record_quiet (f := (Work.of { f with sxe := tx }).fld) hg hq]
    rfl
  have hone : (Work.of f).applyEdit env h e o = Work.of (({ f with sxe := tx } : Field).setRun h e.r) := by
    unfold Work.applyEdit
    rw [h1, h2, h3, h4, hdrop, hwrite]
    rfl
  rw [htx]
  rw [hone] at happ
  have htrip : (({ f with sxe := tx } : Field).setRun h e.r).TripOf env.live := by
    refine ht.congr hc happ rfl rfl fun j => ?_
    rw [Field.run_setRun]
    split
    · next hj => rw [← hj.1]; exact hq.accountedLost
    · rfl
  unfold Work.conclude
  dsimp only
  rw [hone, if_neg (by rw [show (Work.of f).fld.run h = f.run h from rfl, hq.same]; exact Bool.false_ne_true), Work.settleNow_nil _ rfl,
    Work.evalTrip_exact rfl htrip]
  rfl

/-- The field after such an outcome. -/
theorem State.concludedField_quiet (hs : s.Sound) (ht : s.TripExact) (hh : x.helio < Config.heliostats) (hk : EditKeeps edit)
    (hq : (s.field.run x.helio).Quiet (s.outcomeOf n x edit).r) (hrest : (s.outcomeOf n x edit).requeue = false
      ∧ (s.outcomeOf n x edit).revoked = none ∧ (s.outcomeOf n x edit).onset = false ∧ (s.outcomeOf n x edit).newest = false) :
    ∃ tx : Table Sxe, s.concludedField n x edit = ({ s.field with sxe := tx } : Field).setRun x.helio (s.outcomeOf n x edit).r
      ∧ ((s.concludedField n x edit).sxeAt n).lastEnd = some s.now := by
  have hf := hs.endedField n
  have htrip : (s.endedField n).TripOf s.env.live := Field.TripOf.congr (f := s.field) ht hs.canonical.1 hf.canonical rfl rfl fun _ => rfl
  have h1 := Work.conclude_quiet (env := s.env) hh hf.grants hf.canonical htrip hq hrest x.kind.origin (hs.appliedField n x hk).canonical
  have hend : ((s.endedField n).sxeAt n).lastEnd = some s.now := by
    rw [State.endedField, Field.sxeAt_setSxe, if_pos ⟨rfl, n.isLt⟩]
    rfl
  obtain ⟨tx, htx, hlast⟩ : ∃ tx : Table Sxe, (if (s.outcomeOf n x edit).drop then (s.endedField n).dropEntry (s.env.segmentOf x.helio) x.helio
      else s.endedField n) = { s.field with sxe := tx } ∧ (({ s.field with sxe := tx } : Field).sxeAt n).lastEnd = some s.now := by
    split
    · obtain ⟨tx, htx⟩ := Field.dropEntry_others (s.env.segmentOf x.helio) x.helio (s.endedField n)
      have hl := Field.lastEnd_dropEntry (s.env.segmentOf x.helio) x.helio (s.endedField n) n
      rw [htx] at hl
      exact ⟨tx, htx, hl.trans hend⟩
    · exact ⟨_, rfl, hend⟩
  rw [htx] at h1
  refine ⟨tx, h1, ?_⟩
  rw [State.concludedField, h1]
  exact hlast

/-! ### The end of an exchange that changes nothing reported -/

/-- An exchange of segment `n` with heliostat `h` has ended now; the record has become `r'`, and beside the heliostats and the SXEs nothing has
changed. -/
structure State.QuietlyEnded (s t : State) (n h : Nat) (r' : HelioRun) : Prop where
  frame : t = { s with field := { s.field with helio := t.field.helio, sxe := t.field.sxe } }
  record : t.field.run h = { r' with inFlight := (t.field.run h).inFlight, queued := (t.field.run h).queued }
  queued : (t.field.run h).queued = true → r'.queued = true
  ended : (t.field.sxeAt n).lastEnd = some s.now
  others : ∀ j, j ≠ h → t.field.run j = { s.field.run j with inFlight := (t.field.run j).inFlight, queued := (t.field.run j).queued }
    ∧ ((s.field.run j).inFlight = true → (t.field.run j).inFlight = true)

theorem State.quietlyEnded (hs : s.Sound) (ht : s.TripExact) (hh : x.helio < Config.heliostats) (hk : EditKeeps edit)
    (hq : (s.field.run x.helio).Quiet (s.outcomeOf n x edit).r) (hrest : (s.outcomeOf n x edit).requeue = false
      ∧ (s.outcomeOf n x edit).revoked = none ∧ (s.outcomeOf n x edit).onset = false ∧ (s.outcomeOf n x edit).newest = false)
    (found : Option Finding) : s.QuietlyEnded (s.endExchange n x found edit) n x.helio (s.outcomeOf n x edit).r := by
  have hclosed := s.endExchange_closed n x found edit
  obtain ⟨tx, hfield, hlast⟩ := State.concludedField_quiet (n := n) (x := x) hs ht hh hk hq hrest
  change s.Closed _ _ _ _ (s.concludedField n x edit) at hclosed
  have hrun : ∀ j, (s.concludedField n x edit).run j = if j = x.helio then (s.outcomeOf n x edit).r else s.field.run j := fun j => by
    rw [hfield, Field.run_setRun]
    by_cases hj : j = x.helio
    · rw [if_pos ⟨hj.symm, hh⟩, if_pos hj]
    · rw [if_neg fun c => hj c.1.symm, if_neg hj]
      rfl
  generalize s.endExchange n x found edit = t at hclosed
  have hskip : s.osc.opState ≠ .survey ∨ (s.field.run x.helio).state ≠ .unsure
      ∨ ((s.concludedField n x edit).run x.helio).state = .unsure := by
    rw [hrun, if_pos rfl, hq.fields.1]
    exact Or.inr (Classical.em _).symm
  obtain ⟨hosc, hch⟩ := hclosed.skipped hskip
  refine ⟨?_, ?_, fun hqt => ?_, (hch.lastEnd n).trans hlast, fun j hj => ⟨?_, fun hi => hclosed.inFlight ?_⟩⟩
  · have h1 := hclosed.frame
    have h2 := hch.others
    rw [hosc] at h1
    rw [hfield] at h2
    rw [h1, h2]
    rfl
  · have h1 := hch.run_eq x.helio
    rw [hrun, if_pos rfl] at h1
    exact h1
  · have h1 := hclosed.queued hqt
    rw [hrun, if_pos rfl] at h1
    exact h1
  · have h1 := hch.run_eq j
    rw [hrun, if_neg hj] at h1
    exact h1
  · rw [hrun, if_neg hj]
    exact hi

theorem State.QuietlyEnded.osc {r' : HelioRun} (hq : s.QuietlyEnded t n h r') : t.osc = s.osc := by
  have h1 := congrArg State.osc hq.frame
  exact h1

theorem State.QuietlyEnded.runs {r' : HelioRun} (hq : s.QuietlyEnded t n h r') : s.field.RunsKept (fun j => j ≠ h) t.field :=
  fun j hj _ => by
    obtain ⟨h1, h2⟩ := hq.others j hj
    refine ⟨?_, h2⟩
    rw [h1]

theorem State.QuietlyEnded.zones {r' : HelioRun} (hq : s.QuietlyEnded t n h r') : s.field.ZonesKept t.field := fun z => by
  have h1 := congrArg (fun u : State => u.field.zoneAt z) hq.frame
  have h2 : t.field.zoneAt z = s.field.zoneAt z := h1
  rw [h2]
  exact .refl _

/-! ### A good answer (R56) -/

theorem State.exec_answer {frame : List Byte} {fr : SegFrame} {a : Answer} (hd : s.AnswerDue n x frame fr)
    (ha : readAnswer fr.kind fr.params = some a) (hp : a.permitted x.kind = true) : exec (.driveAnswer n frame) s =
      .next (s.endExchange n x (a.finding s.env) fun env f e => e.answer env f n x.kind a) := by
  obtain ⟨hr, hx, ⟨since, hs⟩, hf, hok, haddr⟩ := hd
  have hjudge : x.judge fr = some a := by
    unfold Exchange.judge
    rw [hok, haddr, ha]
    simp [hp]
  have hk : x.kind ≠ .pass := fun hk => by
    rw [hk] at hp
    cases a <;> cases hp
  rw [exec_driveAnswer_taken hr hx hs hf]
  unfold State.takeAnswer
  rw [if_neg hk, hjudge]

/-! ### ACCEPT to a MOVE-AIM (R68) -/

/-- The record of a move that is accepted changes by nothing that is reported. -/
theorem HelioRun.quiet_accepted (r : HelioRun) (ends : Nat) (now : Nat) : r.Quiet { r with
    inFlight := false, lastExchange := some now, silentCount := 0, accepted := true, queued := false, busyCount := 0
    slewEnds := some ends } :=
  ⟨by simp [HelioRun.differs], rfl⟩

theorem State.aimAccepted {frame : List Byte} {fr : SegFrame} {origin : Option Origin} (hd : s.AnswerDue n x frame fr)
    (hk : x.kind = .moveAim origin) (ha : readAnswer fr.kind fr.params = some .accept) (hst : (s.field.run x.helio).state = .slewing)
    (hs : s.Sound) (ht : s.TripExact) : ∃ t, exec (.driveAnswer n frame) s = .next t
      ∧ s.QuietlyEnded t n x.helio { s.field.run x.helio with
        inFlight := false, lastExchange := some s.now, silentCount := 0, accepted := true, queued := false, busyCount := 0
        slewEnds := some (s.now + 1000 * s.live.slewLimit) } := by
  have hh : x.helio < Config.heliostats := Field.lt_of_state hs.canonical.1 (by rw [hst]; exact nofun)
  have hout : s.outcomeOf n x (fun env f e => e.answer env f n x.kind .accept) = Edit.takeUp s.env (Edit.of { s.field.run x.helio with
      inFlight := false, lastExchange := some s.now, silentCount := 0 }) := by
    unfold State.outcomeOf Edit.answer
    rw [hk]
    exact if_pos hst
  have hended := State.quietlyEnded (n := n) (x := x) hs ht hh (editKeeps_answer n x.kind .accept)
    (by rw [hout]; exact HelioRun.quiet_accepted _ _ _) (by rw [hout]; exact ⟨rfl, rfl, rfl, rfl⟩) (Answer.accept.finding s.env)
  rw [hout] at hended
  exact ⟨_, State.exec_answer hd ha (by rw [hk]; rfl), hended⟩

/-! ### The slew timer (R81) -/

/-- The record of a heliostat whose slew timer has run out (R11, R81). -/
def HelioRun.timedOut (r : HelioRun) : HelioRun :=
  { r with slewEnds := none, fault := some (r.fault.getD .slewTimeout) }.setOwed .defocus .slewTimeout

theorem HelioRun.timedOut_form (r : HelioRun) : ∃ o b, r.timedOut = { r with
    slewEnds := none, fault := some (r.fault.getD .slewTimeout), owed := some ⟨.defocus, o⟩, busyCount := b } := by
  obtain ⟨y, hy⟩ : ∃ y, r.owed = y := ⟨_, rfl⟩
  unfold HelioRun.timedOut HelioRun.setOwed
  dsimp only
  rw [hy]
  rcases y with - | ⟨m, c⟩
  · exact ⟨.slewTimeout, 0, rfl⟩
  · cases m with
    | defocus => exact ⟨c, r.busyCount, rfl⟩
    | stow => exact ⟨.slewTimeout, 0, rfl⟩

theorem exec_slewTimeout {ends : Nat} (hr : s.phase = .running) (he : (s.field.run h).slewEnds = some ends)
    (hst : (s.field.run h).state = .slewing) (hacc : (s.field.run h).accepted = true) : exec (.slewTimeout h) s =
      .next (((s.advanceTo ends).change fun w =>
        w.put s.env h ((s.field.run h).by (some .slewTimeout) (s.field.run h).timedOut)).kick) := by
  have hrest : (s.field.run h).timedOut.nothingRemains = (s.field.run h).timedOut := by
    obtain ⟨o, b, hform⟩ := (s.field.run h).timedOut_form
    rw [hform]
    simp [HelioRun.nothingRemains, hst]
  have hfault : (s.field.run h).fault.orElse (fun _ => some .slewTimeout) = some ((s.field.run h).fault.getD .slewTimeout) := by
    cases (s.field.run h).fault <;> rfl
  refine congrArg Host.Outcome.next ?_
  dsimp only
  rw [he]
  dsimp only
  rw [if_pos (by simp [State.isRunning_of hr, hst, hacc]), hfault]
  refine Eq.trans ?_ (congrArg (fun r' => (((s.advanceTo ends).change fun w => w.put s.env h
    ((s.field.run h).by (some .slewTimeout) r')).kick)) hrest)
  rfl

/-- Settles O54: an accepted move changes no load and nothing that is reported, so its record takes the old one's place and the SXEs' choices
alone follow; the slew timer's end is a change that leaves its heliostat secured. -/
theorem aimAcceptedThenTimed : Obligations.AimAcceptedThenTimed := by
  unfold Obligations.AimAcceptedThenTimed
  refine ⟨fun s g x frame fr origin hd hk hkind hparams hst hs ht => ?_, fun s h ends hr he hst hacc hs => ?_⟩
  · obtain ⟨t, hexec, hended⟩ := State.aimAccepted hd hk (by rw [hkind, hparams]; rfl) hst hs ht
    have hq : (t.field.run x.helio).queued = false := eq_false_of_ne_true fun hq => absurd (hended.queued hq) Bool.false_ne_true
    have hrecord := hended.record
    rw [hq] at hrecord
    exact ⟨t, hexec, hended.frame, hrecord, hended.ended, fun j hj => (hended.others j hj).1⟩
  · intro r
    have hh : h < Config.heliostats := Field.lt_of_state hs.canonical.1 (by rw [hst]; exact nofun)
    have hq : r.queued = false := eq_false_of_ne_true fun hq => by
      obtain ⟨-, hn, -⟩ := (hs.records h).2.2.2.2.2.2.2 hq
      rw [hacc] at hn
      cases hn
    obtain ⟨o, b, hform⟩ := r.timedOut_form
    obtain ⟨hruns, hzones, hprogs, hqueued⟩ := (s.advanceTo ends).changeKick_kept fun w => w.put s.env h (r.by (some .slewTimeout) r.timedOut)
    have hself := Work.run_put_same s.env hh (r.by (some .slewTimeout) r.timedOut) (Work.of (s.advanceTo ends).field)
    have hother : ∀ j, j ≠ h → ((Work.of (s.advanceTo ends).field).put s.env h (r.by (some .slewTimeout) r.timedOut)).fld.run j = s.field.run j :=
      fun j hj => Work.run_put_other s.env (fun c => hj c.symm) _ _
    obtain ⟨hz, hp⟩ := Work.kept_put s.env h (r.by (some .slewTimeout) r.timedOut) (Work.of (s.advanceTo ends).field) fun hl => by
      rw [HelioRun.by_state, hform] at hl
      exact hl
    have hexec := exec_slewTimeout hr he hst hacc
    have hkick := State.changeKick_eq (s.advanceTo ends) fun w => w.put s.env h (r.by (some .slewTimeout) r.timedOut)
    have hsec : (r.by (some .slewTimeout) r.timedOut).secured = true := by
      obtain ⟨y, hy⟩ := HelioRun.by_cause (some .slewTimeout) r r.timedOut
      rw [hy, hform]
      rfl
    have hnq : (r.by (some .slewTimeout) r.timedOut).queued = false := by
      rw [HelioRun.by_queued, hform]
      exact hq
    generalize (((s.advanceTo ends).change fun w => w.put s.env h (r.by (some .slewTimeout) r.timedOut)).kick) = t at *
    generalize ((Work.of (s.advanceTo ends).field).put s.env h (r.by (some .slewTimeout) r.timedOut)).fld = f at *
    refine ⟨t, hexec, hkick, ?_, fun j hj hsj => ?_, fun z => (hz z).trans (hzones z), Field.ProgramsKept.trans hp hprogs⟩
    · have h1 := (hruns h trivial (by rw [hself]; exact hsec)).1
      have hqt : (t.field.run h).queued = (r.by (some .slewTimeout) r.timedOut).queued :=
        (hqueued h (by rw [hself]; exact hsec) (by rw [hself]; exact hnq)).trans hnq.symm
      rw [hqt, hself] at h1
      exact h1
    · have h1 := hruns j trivial
      rw [hother j hj] at h1
      exact h1 hsj

end Sys2Proof.Machine
end

section
/-! PROOFS for segment exchanges: a silent exchange (R57, R148). -/

namespace Sys2Proof.Machine

variable {s t : State} {env : Env} {n : Fin 4} {x : Exchange} {h : Nat} {e : Edit} {r r' new : HelioRun}

/-! ### The records of a revocation and of coming to rest, whatever the record (R37, R38, R77) -/

theorem HelioRun.atRest_nothingRemains (p : Rest) (r : HelioRun) : (r.atRest p).tidy.nothingRemains = r.restedAt p := by
  obtain ⟨o, ho⟩ : ∃ o, r.owed = o := ⟨_, rfl⟩
  rcases o with - | ⟨m, c⟩
  · cases p <;> simp [HelioRun.atRest, HelioRun.tidy, HelioRun.nothingRemains, HelioRun.restedAt, HelioRun.stopped, Rest.state, ho]
  · cases p <;> cases m <;>
      simp [HelioRun.atRest, HelioRun.tidy, HelioRun.nothingRemains, HelioRun.restedAt, HelioRun.stopped, Rest.state, ho]

theorem HelioRun.nothingRemains_uncounted (r : HelioRun) :
    ({ r with busyCount := 0 } : HelioRun).nothingRemains = { r.nothingRemains with busyCount := 0 } := by
  unfold HelioRun.nothingRemains
  dsimp only
  split
  · rfl
  · split <;> rfl
  · split <;> rfl

theorem HelioRun.revoked_nothingRemains (r : HelioRun) :
    ({ r with queued := false } : HelioRun).revoked.nothingRemains = r.grantUndone := by
  obtain ⟨l, hl⟩ : ∃ l, r.leaving = l := ⟨_, rfl⟩
  cases l with
  | none =>
    have hrest : ({ r with queued := false } : HelioRun).revoked = { (r.atRest r.rest).tidy with busyCount := 0 } := by
      unfold HelioRun.revoked HelioRun.atRest
      rw [hl]
      cases r.rest <;> rfl
    have hundone : r.grantUndone = { (r.atRest r.rest).tidy.nothingRemains with busyCount := 0 } := by
      unfold HelioRun.grantUndone
      rw [hl, HelioRun.atRest_nothingRemains]
    rw [hrest, hundone, HelioRun.nothingRemains_uncounted]
  | some b =>
    obtain ⟨o, ho⟩ : ∃ o, r.owed = o := ⟨_, rfl⟩
    rcases o with - | ⟨m, c⟩
    · simp [HelioRun.revoked, HelioRun.grantUndone, HelioRun.stopped, HelioRun.tidy, HelioRun.nothingRemains, hl, ho]
    · cases m <;> simp [HelioRun.revoked, HelioRun.grantUndone, HelioRun.stopped, HelioRun.tidy, HelioRun.nothingRemains, hl, ho]

theorem Edit.revoke_r (c : Cause) (e : Edit) : (e.revoke c).r = e.r.by (some c) e.r.grantUndone := by
  unfold Edit.revoke
  dsimp only
  rw [HelioRun.revoked_nothingRemains]

/-! ### What the third silence makes of a record (R57) -/

/-- The third silence has made `r'` of a record `r` that is not LOST, SILENT, FAULTED or ABSENT already. -/
structure HelioRun.Silenced (survey : Prop) (r r' : HelioRun) : Prop where
  marks : r'.lastExchange = r.lastExchange ∧ r'.silentCount = r.silentCount
  owed : r'.owed = none
  cause : r'.lastCause = some .silence
  secured : r'.secured = true
  surveyed : r.state = .unsure → survey → r'.state = .lost ∧ r'.unaccounted = true
  unsurveyed : r.state = .unsure → ¬ survey → r'.state = .silent ∧ r'.unaccounted = false
  unqueued : r'.queued = false
  unloaded : r.state = .standby ∨ r.state = .stowed ∨ (r.state = .returning ∧ r.released = true) →
    r'.state = .silent ∧ r'.granted = none ∧ r'.leaving = none
  loaded : r.state = .tracking ∨ (r.state = .slewing ∧ r.queued = false) ∨ (r.state = .returning ∧ r.released = false) →
    r'.state = .lost ∧ r'.unaccounted = false ∧ r'.granted = r.granted ∧ r'.leaving = none
  queued : r.state = .slewing → r.queued = true → r'.granted = r.leaving ∧ r'.leaving = none
    ∧ r'.state = if r.leaving.isSome then .lost else .silent

/-- A change of state with cause SILENCE that leaves no motion owed. -/
theorem Edit.set_silence (ho : new.owed = none) (hs : e.r.state ≠ new.state) :
    (e.set (some .silence) new).r = { new.tidy with lastCause := some .silence } := by
  have hn : new.tidy.nothingRemains = new.tidy := by
    unfold HelioRun.nothingRemains
    rw [show new.tidy.owed = none from ho]
  rw [Edit.set_r, hn]
  exact HelioRun.by_of_differs (HelioRun.differs_of_state hs)

/-- A heliostat that holds load goes accounted LOST. -/
theorem Edit.silence_loaded (hs : e.r.state ≠ .lost) :
    let r' := (e.set (some .silence) e.r.goLost).r
    r'.lastExchange = e.r.lastExchange ∧ r'.silentCount = e.r.silentCount ∧ r'.owed = none ∧ r'.lastCause = some .silence
      ∧ r'.secured = true ∧ r'.state = .lost ∧ r'.unaccounted = false ∧ r'.granted = e.r.granted ∧ r'.leaving = none ∧ r'.queued = false := by
  rw [Edit.set_silence (new := e.r.goLost) rfl hs]
  exact ⟨rfl, rfl, rfl, rfl, rfl, rfl, rfl, rfl, rfl, rfl⟩

/-- A heliostat that holds no load goes SILENT. -/
theorem Edit.silence_unloaded (hs : e.r.state ≠ .silent) (hg : e.r.granted = none) (hl : e.r.leaving = none) :
    let r' := (e.set (some .silence) { e.r.clearOwed with state := .silent }).r
    r'.lastExchange = e.r.lastExchange ∧ r'.silentCount = e.r.silentCount ∧ r'.owed = none ∧ r'.lastCause = some .silence
      ∧ r'.secured = true ∧ r'.state = .silent ∧ r'.unaccounted = false ∧ r'.granted = none ∧ r'.leaving = none ∧ r'.queued = false := by
  rw [Edit.set_silence (new := { e.r.clearOwed with state := .silent }) rfl hs]
  refine ⟨rfl, rfl, rfl, rfl, ?_, rfl, rfl, hg, hl, rfl⟩
  simp [HelioRun.secured, HelioRun.holdsLoad, HelioRun.tidy, HelioRun.clearOwed, hg, hl]

theorem Edit.silenced_unqueued (hr : e.r.Sound) (hq : e.r.queued = false)
    (hst : e.r.state ≠ .lost ∧ e.r.state ≠ .silent ∧ e.r.state ≠ .faulted ∧ e.r.state ≠ .absent) :
    e.r.Silenced (env.opState = .survey) (e.silenceUnqueued env).r := by
  have hno : e.r.grantState = false → e.r.granted = none ∧ e.r.leaving = none := hr.no_aims
  have hlost := Edit.silence_loaded hst.1
  have hsilent := fun hg => Edit.silence_unloaded hst.2.1 (hno hg).1 (hno hg).2
  have hclear : (e.r.queued = true) ↔ False := by simp [hq]
  unfold Edit.silenceUnqueued
  cases hs : e.r.state with
  | unsure =>
    dsimp only
    by_cases hv : env.opState = .survey
    · rw [if_pos hv, Edit.set_silence (new := { e.r.clearOwed with state := .lost, unaccounted := true }) rfl hst.1]
      constructor <;> simp_all [HelioRun.tidy, HelioRun.clearOwed, HelioRun.secured]
    · rw [if_neg hv]
      obtain ⟨h1, h2, h3, h4, h5, h6, h7, h8, h9, h10⟩ := hsilent (by simp [HelioRun.grantState, hs])
      constructor <;> simp_all
  | standby =>
    obtain ⟨h1, h2, h3, h4, h5, h6, h7, h8, h9, h10⟩ := hsilent (by simp [HelioRun.grantState, hs])
    constructor <;> simp_all
  | stowed =>
    obtain ⟨h1, h2, h3, h4, h5, h6, h7, h8, h9, h10⟩ := hsilent (by simp [HelioRun.grantState, hs])
    constructor <;> simp_all
  | returning =>
    dsimp only
    by_cases hv : e.r.released = true
    · rw [if_pos hv]
      obtain ⟨h1, h2, h3, h4, h5, h6, h7, h8, h9, h10⟩ := hsilent (by simp [HelioRun.grantState, hs, hv])
      constructor <;> simp_all
    · rw [if_neg hv]
      obtain ⟨h1, h2, h3, h4, h5, h6, h7, h8, h9, h10⟩ := hlost
      constructor <;> simp_all
  | slewing =>
    obtain ⟨h1, h2, h3, h4, h5, h6, h7, h8, h9, h10⟩ := hlost
    constructor <;> simp_all
  | tracking =>
    obtain ⟨h1, h2, h3, h4, h5, h6, h7, h8, h9, h10⟩ := hlost
    constructor <;> simp_all
  | lost => exact absurd hs hst.1
  | silent => exact absurd hs hst.2.1
  | faulted => exact absurd hs hst.2.2.1
  | absent => exact absurd hs hst.2.2.2

/-- A Move Queue entry is withdrawn first (R38, R57). -/
theorem Edit.silenced (hr : e.r.Sound)
    (hst : e.r.state ≠ .lost ∧ e.r.state ≠ .silent ∧ e.r.state ≠ .faulted ∧ e.r.state ≠ .absent) :
    e.r.Silenced (env.opState = .survey) (e.silence env).r := by
  unfold Edit.silence
  split
  · next hq =>
    obtain ⟨y, hy⟩ := HelioRun.by_cause (some .silence) e.r e.r.grantUndone
    have hrec := (Edit.revoke_r .silence e).trans hy
    have hgr := HelioRun.granted_grantUndone e.r
    have hnq := HelioRun.queued_grantUndone e.r
    have hmarks : e.r.grantUndone.lastExchange = e.r.lastExchange ∧ e.r.grantUndone.silentCount = e.r.silentCount := by
      unfold HelioRun.grantUndone
      cases e.r.leaving <;> exact ⟨rfl, rfl⟩
    have hstate : e.r.grantUndone.state = if e.r.leaving.isSome then .tracking else e.r.rest.state := by
      unfold HelioRun.grantUndone
      cases e.r.leaving <;> rfl
    have hsound : (e.revoke .silence).r.Sound := Edit.sound_revoke .silence hr
    generalize e.revoke .silence = e1 at hrec hsound
    have h1 : e1.r.state = e.r.grantUndone.state ∧ e1.r.granted = e.r.leaving ∧ e1.r.queued = false
        ∧ e1.r.lastExchange = e.r.lastExchange ∧ e1.r.silentCount = e.r.silentCount := by
      rw [hrec]
      exact ⟨rfl, hgr, hnq, hmarks.1, hmarks.2⟩
    obtain ⟨h1, h2, h3, h4, h5⟩ := h1
    rw [hstate] at h1
    have hsil : e1.r.Silenced (env.opState = .survey) (e1.silenceUnqueued env).r := by
      refine Edit.silenced_unqueued hsound h3 ?_
      rw [h1]
      cases e.r.leaving <;> cases e.r.rest <;> exact ⟨nofun, nofun, nofun, nofun⟩
    refine ⟨⟨hsil.marks.1.trans h4, hsil.marks.2.trans h5⟩, hsil.owed, hsil.cause, hsil.secured, ?_, ?_, hsil.unqueued, ?_, ?_, fun _ _ => ?_⟩
    · exact fun hc => absurd (hq.1.symm.trans hc) HState.noConfusion
    · exact fun hc => absurd (hq.1.symm.trans hc) HState.noConfusion
    · rw [hq.1]
      exact fun hc => absurd hc (by simp)
    · rw [hq.1, hq.2]
      exact fun hc => absurd hc (by simp)
    · cases hl : e.r.leaving with
      | some b =>
        rw [hl] at h1 h2
        obtain ⟨h6, -, h7, h8⟩ := hsil.loaded (Or.inl h1)
        exact ⟨h7.trans h2, h8, h6⟩
      | none =>
        rw [hl] at h1
        obtain ⟨h6, h7, h8⟩ := hsil.unloaded (by rw [h1]; cases e.r.rest <;> simp [Rest.state])
        exact ⟨h7, h8, h6⟩
  · next hq => exact Edit.silenced_unqueued hr (by_contra fun hc => hq ⟨(hr.2.2.2.2.2.2.2 (by simpa using hc)).1, by simpa using hc⟩) hst

/-! ### The silent exchange (R57) -/

/-- The record that the end of an exchange without an answer leaves (R56, R57). -/
def HelioRun.unheard (now : Nat) (r : HelioRun) : HelioRun :=
  { r with inFlight := false, lastExchange := some now, silentCount := min 3 (r.silentCount + 1) }

theorem HelioRun.quiet_unheard (now : Nat) (r : HelioRun) : r.Quiet (r.unheard now) :=
  ⟨by simp [HelioRun.differs, HelioRun.unheard], rfl⟩

/-- A silent exchange that has no consequence. -/
theorem Edit.silent_spared (now : Nat) (hn : r.silentCount ≠ 2 ∨ r.state = .lost ∨ r.state = .silent ∨ r.state = .faulted
    ∨ r.state = .absent) : (Edit.of { r with inFlight := false, lastExchange := some now }).silent env = Edit.of (r.unheard now) := by
  have hstay : r.silentCount = 2 → (Edit.of (r.unheard now)).silence env = Edit.of (r.unheard now) := fun h2 => by
    have hst : (Edit.of (r.unheard now)).r.state = r.state := rfl
    have hs := hn.resolve_left fun hc => hc h2
    unfold Edit.silence
    rw [if_neg (by rw [hst]; rcases hs with hs | hs | hs | hs <;> simp [hs])]
    unfold Edit.silenceUnqueued
    rw [hst]
    rcases hs with hs | hs | hs | hs <;> rw [hs]
  unfold Edit.silent
  dsimp only
  split
  · next h2 => exact hstay h2
  · rfl

theorem Edit.silent_third (now : Nat) (h2 : r.silentCount = 2) :
    (Edit.of { r with inFlight := false, lastExchange := some now }).silent env = (Edit.of (r.unheard now)).silence env := if_pos h2

theorem exec_driveResponseTimeout_repeated {since : Nat} (hr : s.phase = .running) (hx : (s.field.sxeAt n).exchange = some x)
    (hp : x.phase = .awaiting since) (hk : x.kind ≠ .pass) (hrep : x.repeated = true) : exec (.driveResponseTimeout n) s =
      .next ((s.advanceTo (since + 4)).endExchange n x (some .leftLost) fun env _ e => e.silent env) := by
  rw [exec_driveResponseTimeout_silent hr hx hp hk]
  unfold State.noGoodAnswer
  rw [if_pos hrep]

theorem State.Sound.advanceTo (hs : s.Sound) (k : Nat) : (s.advanceTo k).Sound :=
  ⟨hs.canonical, hs.records, hs.grants, hs.reports, hs.queues, hs.accounts, hs.buffer⟩

/-- A silent exchange without a consequence counts, and no more. -/
theorem State.silence_spared (hs : s.Sound) (ht : s.TripExact) (hh : x.helio < Config.heliostats)
    (hn : (s.field.run x.helio).silentCount ≠ 2 ∨ (s.field.run x.helio).state = .lost ∨ (s.field.run x.helio).state = .silent
      ∨ (s.field.run x.helio).state = .faulted ∨ (s.field.run x.helio).state = .absent) (found : Option Finding) :
    s.QuietlyEnded (s.endExchange n x found fun env _ e => e.silent env) n x.helio ((s.field.run x.helio).unheard s.now) := by
  have hout : s.outcomeOf n x (fun env _ e => e.silent env) = Edit.of ((s.field.run x.helio).unheard s.now) := Edit.silent_spared s.now hn
  have hended := State.quietlyEnded (n := n) (x := x) hs ht hh editKeeps_silent (by rw [hout]; exact HelioRun.quiet_unheard _ _)
    (by rw [hout]; exact ⟨rfl, rfl, rfl, rfl⟩) found
  rw [hout] at hended
  exact hended

/-- The third silence of a heliostat that is not LOST, SILENT or FAULTED already. -/
theorem State.silence_acts (hs : s.Sound) (hh : x.helio < Config.heliostats) (h2 : (s.field.run x.helio).silentCount = 2)
    (hst : (s.field.run x.helio).state ≠ .lost ∧ (s.field.run x.helio).state ≠ .silent ∧ (s.field.run x.helio).state ≠ .faulted
      ∧ (s.field.run x.helio).state ≠ .absent) :
    ∃ r', ((s.field.run x.helio).unheard s.now).Silenced (s.osc.opState = .survey) r'
      ∧ s.Ended (s.endExchange n x (some .leftLost) fun env _ e => e.silent env) n x.helio r'
      ∧ (s.osc.opState = .survey → (s.field.run x.helio).state = .unsure → x.helio ∉ s.osc.counted →
        (s.endExchange n x (some .leftLost) fun env _ e => e.silent env).osc.leftLost = s.osc.leftLost + 1) := by
  have hout : s.outcomeOf n x (fun env _ e => e.silent env) = (Edit.of ((s.field.run x.helio).unheard s.now)).silence s.env :=
    Edit.silent_third s.now h2
  have hsound : ((s.field.run x.helio).unheard s.now).Sound := (hs.records x.helio).other rfl rfl rfl rfl rfl rfl rfl rfl rfl rfl
  have hsil : ((s.field.run x.helio).unheard s.now).Silenced (s.osc.opState = .survey) (s.outcomeOf n x fun env _ e => e.silent env).r := by
    rw [hout]
    exact Edit.silenced (e := Edit.of ((s.field.run x.helio).unheard s.now)) (env := s.env) hsound hst
  have hcon := State.concluded_of_secured (n := n) hs hh hsil.secured
  refine ⟨_, hsil, State.ended_of_secured hs hh hsil.secured _, fun h1 hu hc => ?_⟩
  have hnew : ((s.concludedField n x fun env _ e => e.silent env).run x.helio).state ≠ .unsure := by
    rw [hcon.record]
    change (s.outcomeOf n x fun env _ e => e.silent env).r.state ≠ .unsure
    rw [(hsil.surveyed hu h1).1]
    exact nofun
  rw [((s.endExchange_closed n x (some .leftLost) fun env _ e => e.silent env).counted h1 hu hnew).2]
  exact (Osc.countSurvey_fresh hc).2

/-- Settles O53: a silent exchange counts, and the third makes of a record what the table of R57 says, each time a record that holds no load
or that no shedding walk may take. -/
theorem silentExchangeCountsThenActs : Obligations.SilentExchangeCountsThenActs := by
  unfold Obligations.SilentExchangeCountsThenActs
  intro s g x since hr hx hp hk hrep hs _ ht hl h r now
  have hh : x.helio < Config.heliostats := Field.lt_of_inFlight hs.canonical.1 (hl.exchange g x hx).2
  refine ⟨_, exec_driveResponseTimeout_repeated hr hx hp hk hrep, ?_⟩
  by_cases hn : r.silentCount ≠ 2 ∨ r.state = .lost ∨ r.state = .silent ∨ r.state = .faulted ∨ r.state = .absent
  · have hended := State.silence_spared (s := s.advanceTo (since + 4)) (n := g) (hs.advanceTo _) ht hh hn (some .leftLost)
    generalize (s.advanceTo (since + 4)).endExchange g x (some .leftLost) (fun env _ e => e.silent env) = t at hended ⊢
    have hosc : t.osc = s.osc := hended.osc
    have hfield := congrArg State.field hended.frame
    have hrecord := hended.record
    refine ⟨?_, fun _ => hosc, hended.ended, ?_, ?_, fun _ => hended.record, fun h2 => ?_, hended.runs, hended.zones⟩
    · rw [hosc, hfield]
      exact hended.frame
    · rw [hrecord]
      rfl
    · rw [hrecord]
      rfl
    · have hst := hn.resolve_left fun hc => hc h2
      have hnot : ∀ {p : Prop}, (r.state = .unsure ∨ r.state = .standby ∨ r.state = .stowed ∨ r.state = .returning ∨ r.state = .tracking
          ∨ r.state = .slewing) → p := fun hc => by
        rcases hst with hst | hst | hst | hst <;> rw [hst] at hc <;> simp at hc
      have hq : (t.field.run x.helio).queued = r.queued := by
        have hnq : r.queued = false := eq_false_of_ne_true fun hq =>
          hnot (Or.inr (Or.inr (Or.inr (Or.inr (Or.inr ((hs.records h).2.2.2.2.2.2.2 hq).1)))))
        rw [hnq]
        exact eq_false_of_ne_true fun hqt => absurd (hnq.symm.trans (hended.queued hqt)) Bool.false_ne_true
      refine ⟨fun hc => hnot (Or.inl hc), fun hc => hnot (by tauto), fun hc => hnot (by tauto), fun hc => hnot (by tauto), fun _ => ?_,
        fun h1 h3 h4 h5 => ?_, fun _ hc => hnot (Or.inl hc)⟩
      · have hcount : min 3 (r.silentCount + 1) = 3 := by rw [h2]; rfl
        rw [hq] at hrecord
        refine hrecord.trans ?_
        rw [← hcount]
        rfl
      · rcases hst with hst | hst | hst | hst
        · exact absurd hst h1
        · exact absurd hst h3
        · exact absurd hst h4
        · exact absurd hst h5
  · simp only [not_or, not_not] at hn
    obtain ⟨h2, hst⟩ := hn
    obtain ⟨r', hsil, hended, hcount⟩ := State.silence_acts (s := s.advanceTo (since + 4)) (n := g) (hs.advanceTo _) hh h2 hst
    generalize (s.advanceTo (since + 4)).endExchange g x (some .leftLost) (fun env _ e => e.silent env) = t at hended hcount ⊢
    have hrecord := hended.record
    have hnq : (t.field.run h).queued = false := eq_false_of_ne_true fun hq =>
      absurd (hsil.unqueued.symm.trans (hended.queued hq)) Bool.false_ne_true
    have hlast : (t.field.run h).lastExchange = r'.lastExchange ∧ (t.field.run h).silentCount = r'.silentCount := by
      rw [hrecord]
      exact ⟨rfl, rfl⟩
    have hload : (t.field.run h).state = r'.state ∧ (t.field.run h).unaccounted = r'.unaccounted ∧ (t.field.run h).granted = r'.granted
        ∧ (t.field.run h).leaving = r'.leaving ∧ (t.field.run h).owed = r'.owed ∧ (t.field.run h).lastCause = r'.lastCause := by
      rw [hrecord]
      exact ⟨rfl, rfl, rfl, rfl, rfl, rfl⟩
    obtain ⟨e1, e2, e3, e4, e5, e6⟩ := hload
    refine ⟨hended.frame, fun hv => hended.osc (Or.inl hv), hended.ended, hlast.1.trans hsil.marks.1, hlast.2.trans hsil.marks.2,
      fun hc => absurd h2 hc, fun _ => ⟨fun hu => ?_, fun hu => ?_, fun hu => ?_, fun hu hq => ?_, fun hu => ?_, fun _ _ _ _ => ?_, ?_⟩,
      hended.others, hended.zones⟩
    · rw [e1, e2]
      by_cases hv : s.osc.opState = .survey
      · obtain ⟨h3, h4⟩ := hsil.surveyed hu hv
        rw [if_pos hv, h4]
        exact ⟨h3, by simp [hv]⟩
      · obtain ⟨h3, h4⟩ := hsil.unsurveyed hu hv
        rw [if_neg hv, h4]
        exact ⟨h3, by simp [hv]⟩
    · rw [e1]
      exact (hsil.unloaded hu).1
    · rw [e1, e2, e3, e4]
      exact hsil.loaded hu
    · obtain ⟨h3, h4, h5⟩ := hsil.queued hu hq
      rw [e1, e3, e4]
      exact ⟨hnq, h3, h4, h5⟩
    · rcases hu with hu | hu | hu
      · exact absurd hu hst.1
      · exact absurd hu hst.2.1
      · exact absurd hu hst.2.2.1
    · rw [e5, e6]
      exact ⟨hsil.owed, hsil.cause⟩
    · exact hcount

end Sys2Proof.Machine
end

section
/-! PROOFS for segment exchanges: a QUERY answered without flags (R76, R77, R79, R80, R148, R149). -/

namespace Sys2Proof.Machine

variable {s t : State} {env : Env} {f f3 : Field} {n : Fin 4} {x : Exchange} {h a : Nat} {e : Edit} {r before : HelioRun} {p : Position}
  {code : Byte} {found : Option Finding}

/-! ### The outcome of a status without flags (R76) -/

theorem Edit.status_plain (hl : e.r.localControl = false) :
    e.status env f ⟨p, false, false, false, code⟩ = (e.positionByState env f p).faultAtRest e.r := by
  have hflags : e.statusFlags ⟨p, false, false, false, code⟩ = e := by
    unfold Edit.statusFlags Edit.noteLocal Edit.noteFault
    simp [hl]
  have hcons : ∀ e1 : Edit, e1.statusConsequences ⟨p, false, false, false, code⟩ = e1 := fun e1 => by
    unfold Edit.statusConsequences Edit.failBy
    simp
  unfold Edit.status Edit.position
  rw [hflags, hcons]

theorem Edit.faultAtRest_none (hf : e.r.fault = none) (before : HelioRun) : e.faultAtRest before = e :=
  if_neg fun hc => by
    rw [hf] at hc
    exact absurd hc.2.2 Bool.false_ne_true

/-! ### The records of an arrival and of coming to rest -/

theorem HelioRun.arrived_tidied (r : HelioRun) :
    ({ r with state := .tracking, leaving := none } : HelioRun).tidy.nothingRemains = r.arrived := by
  obtain ⟨o, ho⟩ : ∃ o, r.owed = o := ⟨_, rfl⟩
  rcases o with - | ⟨m, c⟩
  · simp [HelioRun.tidy, HelioRun.nothingRemains, HelioRun.arrived, HelioRun.stopped, ho]
  · cases m <;> simp [HelioRun.tidy, HelioRun.nothingRemains, HelioRun.arrived, HelioRun.stopped, ho]

theorem Edit.position_arrived (hs : e.r.state = .slewing) (hacc : e.r.accepted = true) (hg : e.r.granted = some a)
    (hf : e.r.fault = none) : (e.positionByState env f (.onAim a)).faultAtRest e.r = e.arriveOnAim
      ∧ e.arriveOnAim.r = e.r.by e.r.motionCause e.r.arrived := by
  have hr : e.arriveOnAim.r = e.r.by e.r.motionCause e.r.arrived := by
    unfold Edit.arriveOnAim
    rw [Edit.set_r, HelioRun.arrived_tidied]
  have hpos : e.positionByState env f (.onAim a) = e.arriveOnAim := by
    unfold Edit.positionByState Edit.positionSlewing
    rw [hs]
    simp [hacc, hg]
  refine ⟨?_, hr⟩
  rw [hpos]
  refine Edit.faultAtRest_none ?_ _
  obtain ⟨y, hy⟩ := HelioRun.by_cause e.r.motionCause e.r e.r.arrived
  rw [hr, hy]
  exact hf

/-- The position class of a drive at rest. -/
def Rest.position : Rest → Position
  | .standby => .atStandby
  | .stowed => .stowed

/-- The cause with which a status brings a heliostat to rest (R77, R79, R80). -/
def HelioRun.restCause (r : HelioRun) : Option Cause :=
  if r.state = .returning then r.motionCause
  else if r.state = .lost then some .recovered
  else if r.state = .tracking ∨ r.state = .slewing then some .driveLeft
  else some .survey

/-- The states from which AT_STANDBY or STOWED brings a heliostat to rest. -/
def HelioRun.Rests (r : HelioRun) : Prop :=
  r.state = .tracking ∨ (r.state = .slewing ∧ r.accepted = true) ∨ r.state = .returning ∨ r.state = .lost ∨ r.state = .unsure
    ∨ r.state = .standby ∨ r.state = .stowed

theorem Edit.position_rest (hst : e.r.Rests) (place : Rest) :
    e.positionByState env f place.position = e.set e.r.restCause (e.r.atRest place) := by
  unfold Edit.positionByState HelioRun.restCause
  rcases hst with hs | ⟨hs, hacc⟩ | hs | hs | hs | hs | hs
  · rw [hs]
    cases place <;> rfl
  · rw [hs, hacc]
    cases place <;> rfl
  · rw [hs]
    cases place <;> rfl
  · rw [hs]
    cases place <;> rfl
  all_goals
    unfold Edit.positionAtRest
    rw [hs]
    cases place <;> rfl

theorem Edit.position_rested (hst : e.r.Rests) (hf : e.r.fault = none) (place : Rest) :
    ((e.positionByState env f place.position).faultAtRest e.r).r = e.r.by e.r.restCause (e.r.restedAt place) := by
  have hr : (e.positionByState env f place.position).r = e.r.by e.r.restCause (e.r.restedAt place) := by
    rw [Edit.position_rest hst, Edit.set_r, HelioRun.atRest_nothingRemains]
  rw [Edit.faultAtRest_none, hr]
  obtain ⟨y, hy⟩ := HelioRun.by_cause e.r.restCause e.r (e.r.restedAt place)
  rw [hr, hy]
  exact hf

/-- The last cause of a heliostat that has come to rest. -/
theorem HelioRun.rested_lastCause (hs : r.Sound) (hst : r.Rests) (place : Rest) : (r.by r.restCause (r.restedAt place)).lastCause =
    (if r.state = .returning then r.motionCause
    else if r.state = .lost then some .recovered
    else if r.state = .tracking ∨ r.state = .slewing then some .driveLeft
    else if r.state = place.state ∧ (r.restedAt place).owed = r.owed then r.lastCause
    else some .survey) := by
  have hmoved : r.state ≠ place.state → ∀ {k : Cause}, r.restCause = some k → (r.by r.restCause (r.restedAt place)).lastCause = some k :=
    fun hne k hk => by
      rw [hk, HelioRun.by_of_differs (HelioRun.differs_of_state (new := r.restedAt place) hne)]
  have hplace : ∀ st : HState, st ≠ .standby → st ≠ .stowed → st ≠ place.state := fun st h1 h2 => by cases place <;> assumption
  have hwas : r.state = .unsure ∨ r.state = .standby ∨ r.state = .stowed → (r.by r.restCause (r.restedAt place)).lastCause =
      if r.state = place.state ∧ (r.restedAt place).owed = r.owed then r.lastCause else some .survey := fun hw => by
    have hcause : r.restCause = some .survey := by
      unfold HelioRun.restCause
      rcases hw with hw | hw | hw <;> simp [hw]
    obtain ⟨hg, hl⟩ := hs.no_aims (by rcases hw with hw | hw | hw <;> simp [HelioRun.grantState, hw])
    have hun : r.unaccounted = false := eq_false_of_ne_true fun hu => by
      have h1 := hs.2.2.2.2.2.2.1 hu
      rcases hw with hw | hw | hw <;> rw [hw] at h1 <;> cases h1
    have hdiff : r.differs (r.restedAt place) = true ↔ ¬ (r.state = place.state ∧ (r.restedAt place).owed = r.owed) := by
      change (r.state != place.state || r.granted != none || r.leaving != none || r.owed != (r.restedAt place).owed
        || (r.fault.isSome && r.fault != r.fault) || r.unaccounted != false || r.localControl != r.localControl) = true ↔ _
      rw [hg, hl, hun, eq_comm (b := r.owed)]
      simp [imp_iff_not_or]
    rw [hcause]
    unfold HelioRun.by
    by_cases hc : r.state = place.state ∧ (r.restedAt place).owed = r.owed
    · rw [if_pos hc, if_neg fun hd => hdiff.1 hd hc]
      rfl
    · rw [if_neg hc, if_pos (hdiff.2 hc)]
      rfl
  rcases hst with hs' | ⟨hs', -⟩ | hs' | hs' | hw
  · rw [hmoved (by rw [hs']; exact hplace _ nofun nofun) (k := .driveLeft) (by simp [HelioRun.restCause, hs'])]
    simp [hs']
  · rw [hmoved (by rw [hs']; exact hplace _ nofun nofun) (k := .driveLeft) (by simp [HelioRun.restCause, hs'])]
    simp [hs']
  · obtain ⟨k, hk⟩ := Option.isSome_iff_exists.1 (hs.2.2.2.1.2 (Or.inr hs'))
    rw [hmoved (by rw [hs']; exact hplace _ nofun nofun) (k := k) (by simp [HelioRun.restCause, hs', hk]), if_pos hs', hk]
  · rw [hmoved (by rw [hs']; exact hplace _ nofun nofun) (k := .recovered) (by simp [HelioRun.restCause, hs'])]
    simp [hs']
  · rw [hwas hw]
    rcases hw with hw | hw | hw <;> simp [hw]

/-! ### The survey ends with its last heliostat (R148, R149) -/

theorem State.Closed.osc_rested (hc : s.Closed t h before (some .atRest) f3) (h1 : s.osc.opState = .survey) (h2 : before.state = .unsure)
    (h3 : (f3.run h).state ≠ .unsure) (h4 : h ∉ s.osc.counted) : t.osc =
      let o : Osc := { s.osc with atRest := s.osc.atRest + 1, counted := h :: s.osc.counted }
      if ∃ q ∈ s.live.present, (t.field.run q.1).state = .unsure then o
      else { o with opState := .hold, wake := none, surveyEnds := none, cause := .surveyDone } := by
  have hstate : ∀ j, (t.field.run j).state = (f3.run j).state := fun j => by rw [hc.run_eq j]
  obtain ⟨s2, hs2, ht, -⟩ := hc
  have hosc : t.osc = s2.osc := by rw [ht]
  have hcount : s.osc.countSurvey h (some .atRest) = { s.osc with atRest := s.osc.atRest + 1, counted := h :: s.osc.counted } := if_neg h4
  have hany : ({ s with osc := s.osc.countSurvey h (some .atRest), field := f3 } : State).anyUnsure = true
      ↔ ∃ q ∈ s.live.present, (t.field.run q.1).state = .unsure := by
    unfold State.anyUnsure
    rw [List.any_eq_true]
    simp only [hstate, beq_iff_eq]
  have hstep : s2 = if ({ s with osc := s.osc.countSurvey h (some .atRest), field := f3 } : State).anyUnsure
      then { s with osc := s.osc.countSurvey h (some .atRest), field := f3 }
      else ({ s with osc := s.osc.countSurvey h (some .atRest), field := f3 } : State).surveyDone := by
    rw [hs2]
    exact if_pos ⟨h1, h2, h3⟩
  rw [hosc, hstep]
  dsimp only
  by_cases hu : ∃ q ∈ s.live.present, (t.field.run q.1).state = .unsure
  · rw [if_pos hu, if_pos (hany.2 hu)]
    exact hcount
  · rw [if_neg hu, if_neg fun hc => hu (hany.1 hc)]
    obtain ⟨ts, ta, tr, he⟩ := State.enterHold_others .surveyDone { s with osc := s.osc.countSurvey h (some .atRest), field := f3 }
    unfold State.surveyDone
    rw [he]
    dsimp only
    rw [hcount]

/-! ### The QUERY answered -/

/-- The outcome of a status without flags, for a heliostat without a fault cause. -/
theorem State.outcomeOf_plain (hk : x.kind = .query) (hl : (s.field.run x.helio).localControl = false) :
    s.outcomeOf n x (fun env f e => e.answer env f n x.kind (.status ⟨p, false, false, false, code⟩)) =
      ((Edit.of ((s.field.run x.helio).stamped s.now)).positionByState s.env (s.endedField n) p).faultAtRest
        ((s.field.run x.helio).stamped s.now) := by
  unfold State.outcomeOf Edit.answer
  rw [hk]
  exact Edit.status_plain (e := Edit.of ((s.field.run x.helio).stamped s.now)) hl

theorem HelioRun.flagged_stamp (now : Nat) (r : HelioRun) : r.Flagged (r.stamped now) := ⟨rfl, rfl, rfl, rfl, rfl, rfl⟩

/-- The record of a heliostat that has arrived, field by field (R41, R77). -/
theorem HelioRun.arrived_form (hs : r.Sound) (hst : r.state = .slewing) (hacc : r.accepted = true) : r.by r.motionCause r.arrived = { r with
    state := .tracking, leaving := none, motionCause := none, accepted := false, slewEnds := none, origin := none
    reAim := false, lastCause := r.motionCause } := by
  obtain ⟨-, -, hdest, hcause, hrel, -, hun, hq⟩ := hs
  obtain ⟨k, hk⟩ := Option.isSome_iff_exists.1 (hcause.2 (Or.inl hst))
  have h1 : r.destination = none := by
    rw [← Option.not_isSome_iff_eq_none, hdest, hst]
    exact nofun
  have h2 : r.released = false := eq_false_of_ne_true fun hc => by rw [hst] at hrel; cases hrel hc
  have h3 : r.unaccounted = false := eq_false_of_ne_true fun hc => by rw [hst] at hun; cases hun hc
  have h4 : r.queued = false := eq_false_of_ne_true fun hc => absurd (hacc.symm.trans (hq hc).2.1) Bool.noConfusion
  rw [hk, HelioRun.by_of_differs (HelioRun.differs_of_state (by rw [hst]; exact nofun))]
  unfold HelioRun.arrived HelioRun.stopped
  rw [h1, h2, h3, h4]

/-- An accepted move that has arrived (R77). -/
theorem State.arrival {frame : List Byte} {fr : SegFrame} (hd : s.AnswerDue n x frame fr) (hk : x.kind = .query)
    (ha : readAnswer fr.kind fr.params = some (.status ⟨.onAim a, false, false, false, code⟩)) (hs : s.Sound) (hz : s.ZonesSettled)
    (hl : (s.field.run x.helio).localControl = false) (hf : (s.field.run x.helio).fault = none)
    (hst : (s.field.run x.helio).state = .slewing) (hacc : (s.field.run x.helio).accepted = true)
    (hg : (s.field.run x.helio).granted = some a) : ∃ t, exec (.driveAnswer n frame) s = .next t
      ∧ s.Ended t n x.helio (((s.field.run x.helio).by (s.field.run x.helio).motionCause (s.field.run x.helio).arrived).stamped s.now) := by
  have hh : x.helio < Config.heliostats := Field.lt_of_state hs.canonical.1 (by rw [hst]; exact nofun)
  obtain ⟨h1, h2⟩ := Edit.position_arrived (e := Edit.of ((s.field.run x.helio).stamped s.now)) (env := s.env) (f := s.endedField n) hst hacc hg hf
  have hout := (congrArg Edit.r ((State.outcomeOf_plain (n := n) (code := code) hk hl).trans h1)).trans h2
  have hby := HelioRun.by_of_stamped s.now (s.field.run x.helio) (s.field.run x.helio).motionCause
    (x := ((s.field.run x.helio).stamped s.now).arrived) (new := (s.field.run x.helio).arrived) rfl
  have hout := hout.trans hby
  have hease := (HelioRun.flagged_stamp s.now (s.field.run x.helio)).eases.trans
    ((HelioRun.eases_arrived (r := (s.field.run x.helio).stamped s.now) hst).by (s.field.run x.helio).motionCause
      ((s.field.run x.helio).stamped s.now))
  rw [show ((s.field.run x.helio).stamped s.now).by (s.field.run x.helio).motionCause ((s.field.run x.helio).stamped s.now).arrived = _ from hby,
    ← hout] at hease
  have hended := State.ended_of_eases hs hz hh (editKeeps_answer n x.kind _) hease ((Answer.status ⟨.onAim a, false, false, false, code⟩).finding s.env)
  rw [hout] at hended
  exact ⟨_, State.exec_answer hd ha (by rw [hk]; rfl), hended⟩

/-- A heliostat that is found at rest (R77, R79, R80). -/
theorem State.rested {frame : List Byte} {fr : SegFrame} {place : Rest} (hd : s.AnswerDue n x frame fr) (hk : x.kind = .query)
    (ha : readAnswer fr.kind fr.params = some (.status ⟨place.position, false, false, false, code⟩)) (hs : s.Sound) (hz : s.ZonesSettled)
    (hl : (s.field.run x.helio).localControl = false) (hf : (s.field.run x.helio).fault = none)
    (hst : (s.field.run x.helio).Rests) : ∃ t, exec (.driveAnswer n frame) s = .next t
      ∧ s.Ended t n x.helio (((s.field.run x.helio).by (s.field.run x.helio).restCause ((s.field.run x.helio).restedAt place)).stamped s.now)
      ∧ (s.osc.opState = .survey → (s.field.run x.helio).state = .unsure → x.helio ∉ s.osc.counted → t.osc =
        let o : Osc := { s.osc with atRest := s.osc.atRest + 1, counted := x.helio :: s.osc.counted }
        if ∃ q ∈ s.live.present, (t.field.run q.1).state = .unsure then o
        else { o with opState := .hold, wake := none, surveyEnds := none, cause := .surveyDone }) := by
  have hh : x.helio < Config.heliostats := Field.lt_of_state hs.canonical.1 fun hc => by
    unfold HelioRun.Rests at hst
    rw [hc] at hst
    simp at hst
  have hby := HelioRun.by_of_stamped s.now (s.field.run x.helio) (s.field.run x.helio).restCause
    (x := ((s.field.run x.helio).stamped s.now).restedAt place) (new := (s.field.run x.helio).restedAt place) rfl
  have hout := ((congrArg Edit.r (State.outcomeOf_plain (n := n) (p := place.position) (code := code) hk hl)).trans
    (Edit.position_rested (e := Edit.of ((s.field.run x.helio).stamped s.now)) (env := s.env) (f := s.endedField n) hst hf place)).trans hby
  have hease : (s.field.run x.helio).Eases
      (((s.field.run x.helio).by (s.field.run x.helio).restCause ((s.field.run x.helio).restedAt place)).stamped s.now) := by
    refine .of_unloaded ?_ ?_
    · exact HelioRun.by_granted _ _ _
    · obtain ⟨y, hy⟩ := HelioRun.by_cause (s.field.run x.helio).restCause (s.field.run x.helio) ((s.field.run x.helio).restedAt place)
      rw [hy]
      rfl
  rw [← hout] at hease
  have hwritten := (State.written_of_eases hs hz hh (editKeeps_answer n x.kind _) hease).2
  have hexec := State.exec_answer hd ha (by rw [hk]; rfl)
  have hfound : (Answer.status ⟨place.position, false, false, false, code⟩).finding s.env = some .atRest := by cases place <;> rfl
  rw [hfound] at hexec
  have hclosed := s.endExchange_closed n x (some .atRest) fun env f e => e.answer env f n x.kind (.status ⟨place.position, false, false, false, code⟩)
  have hended := hclosed.ended hwritten.concluded
  have hrecord := hwritten.record
  rw [hout] at hended hrecord
  refine ⟨_, hexec, hended, fun h1 h2 h4 => ?_⟩
  refine hclosed.osc_rested h1 h2 ?_ h4
  change ((s.concludedField n x _).run x.helio).state ≠ .unsure
  rw [hrecord]
  change ((s.field.run x.helio).by (s.field.run x.helio).restCause ((s.field.run x.helio).restedAt place)).state ≠ .unsure
  rw [HelioRun.by_state]
  cases place <;> exact nofun

/-- Settles O56: a status without flags brings a heliostat to its granted aim or to rest, and such a record brings no zone more load than
before, so the FAU's tests only mark zones. -/
theorem statusAnswersMoveTheRecord : Obligations.StatusAnswersMoveTheRecord := by
  unfold Obligations.StatusAnswersMoveTheRecord
  intro s g x frame fr p code hd hk ha hs hz _ _ hl hf h r
  refine ⟨fun a hp hst hacc hg => ?_, fun place hp hst => ?_⟩
  · rw [hp] at ha
    obtain ⟨t, hexec, hended⟩ := State.arrival hd hk ha hs hz hl hf hst hacc hg
    have hosc := hended.osc (Or.inr (by rw [hst]; exact nofun))
    have hframe := hended.frame
    rw [hosc] at hframe
    have hform := HelioRun.arrived_form (hs.records x.helio) hst hacc
    have hnq : (s.field.run x.helio).queued = false := eq_false_of_ne_true fun hq =>
      absurd (hacc.symm.trans ((hs.records x.helio).2.2.2.2.2.2.2 hq).2.1) Bool.noConfusion
    have hrecord := hended.record
    have hqueued := hended.queued
    have hprogs := hended.programs (Or.inr (by rw [hst]; exact nofun))
    rw [hform] at hrecord hqueued hprogs
    have hq : (t.field.run x.helio).queued = (s.field.run x.helio).queued := by
      rw [hnq]
      exact eq_false_of_ne_true fun hq => absurd (hnq.symm.trans (hqueued hq)) Bool.false_ne_true
    rw [hq] at hrecord
    exact ⟨t, hexec, hframe, hrecord, hended.others, hended.zones, hprogs nofun⟩
  · intro atRest
    have hpos : p = place.position := by cases place <;> exact hp
    rw [hpos] at ha
    obtain ⟨t, hexec, hended, hosc⟩ := State.rested hd hk ha hs hz hl hf hst
    obtain ⟨y, hy⟩ := HelioRun.by_cause (s.field.run x.helio).restCause (s.field.run x.helio) ((s.field.run x.helio).restedAt place)
    have hcause := HelioRun.rested_lastCause (hs.records x.helio) hst place
    have hrecord := hended.record
    have hprogs := fun hc => hended.programs hc (by rw [hy]; cases place <;> exact nofun)
    have hlast : (t.field.run x.helio).lastCause =
        ((s.field.run x.helio).by (s.field.run x.helio).restCause ((s.field.run x.helio).restedAt place)).lastCause := by
      rw [hrecord]
      rfl
    rw [hy] at hrecord
    have hfields : (t.field.run h).state = place.state ∧ (t.field.run h).rest = place ∧ (t.field.run h).granted = none
        ∧ (t.field.run h).leaving = none ∧ (t.field.run h).lastExchange = some s.now
        ∧ (t.field.run h).owed = ((s.field.run x.helio).restedAt place).owed := by
      rw [hrecord]
      exact ⟨rfl, rfl, rfl, rfl, rfl, rfl⟩
    obtain ⟨h1, h2, h3, h4, h5, h6⟩ := hfields
    refine ⟨t, hexec, hended.frame, h1, h2, h3, h4, h5, h6, ?_, fun hc => ⟨hended.osc hc, hprogs hc⟩, hosc, hended.others, hended.zones⟩
    rw [h6]
    exact hlast.trans hcause

end Sys2Proof.Machine
end

section
/-! PROOFS for segment exchanges: the answers to an owed motion (R72 to R74, R100, R101). -/

namespace Sys2Proof.Machine

variable {s t : State} {env : Env} {f : Field} {n : Fin 4} {x : Exchange} {h : Nat} {e : Edit} {r r0 new seen : HelioRun}
  {edit : Env → Field → Edit → Edit} {found : Option Finding}

/-! ### The answer to any request, its outcome traced back to its record (R43, R45, R56) -/

theorem State.answerEnded_of_traced (hs : s.Sound) (hz : s.ZonesSettled) (hh : x.helio < Config.heliostats) (hk : EditKeeps edit)
    (ht : (s.outcomeOf n x edit).Traced r0) (hr : (s.field.run x.helio).Flagged r0) (he : (s.outcomeOf n x edit).r = new.stamped s.now)
    (found : Option Finding) :
    let t := s.endExchange n x found edit
    let e := s.outcomeOf n x edit
    s.AnswerEnded t n x.helio e found new
      ∨ (e.newest = true ∧ new.owed = none ∧ s.AnswerEnded t n x.helio e found (new.by (some .shed) (new.owing .shed))) := by
  have hf := hs.endedField n
  have hz0 : ∀ z, (s.endedField n).ZoneSettled s.env z := fun z =>
    ((State.zonesSettled_iff hs.good).1 hz z).sameLoads (s.field.sameLoads_setSxe _ _)
  have hw := Work.written_conclude (env := s.env) (w := Work.of (s.endedField n)) hf.canonical hf.accounts hh hz0 ht hr.eases x.kind.origin
    (hs.appliedField n x hk)
  rw [he] at hw
  rcases hw with hw | ⟨hn, ho, hw⟩
  · exact Or.inl (State.ended_of_written rfl hw rfl)
  · rw [HelioRun.owing_stamped, HelioRun.by_stamped] at hw
    exact Or.inr ⟨hn, ho, State.ended_of_written rfl hw rfl⟩

/-- The answer has made `new` of the record, or the walk has taken a new adoption that owes nothing. -/
theorem State.madeOrShed_of_ended (he : e.r = new.stamped s.now) (ht : e.Traced r0) (hr : (s.field.run h).Flagged r0)
    (hend : s.AnswerEnded t n h e found new
      ∨ (e.newest = true ∧ new.owed = none ∧ s.AnswerEnded t n h e found (new.by (some .shed) (new.owing .shed)))) :
    s.AnswerMadeOrShed t n h new := by
  rcases hend with hend | ⟨hn, ho, hend⟩
  · exact Or.inl hend.made
  · have hst : new.state = .tracking := (congrArg HelioRun.state he).symm.trans (ht.adopted hn).1
    have hgr : e.r.granted = new.granted := by rw [he]; rfl
    obtain ⟨b, hb⟩ := Option.isSome_iff_exists.1 ((ht.onAim hn).granted ht.good.sound)
    have hfresh : ∀ o : Option Nat, (∀ c, o = some c → c ∈ (s.field.run h).aims) → new.granted ≠ o := fun o hm hc => by
      rw [← hgr, hb] at hc
      exact (ht.adopted hn).2 b (by rw [hr.aims]; exact hm b hc.symm) hb
    have hfg := hfresh _ fun c hc => List.mem_append_left _ (Option.mem_toList.2 hc)
    have hfl := hfresh _ fun c hc => List.mem_append_right _ (Option.mem_toList.2 hc)
    have hd0 : (s.field.run h).differs (new.owing .shed) = true :=
      HelioRun.differs_of_granted (by rw [(HelioRun.owing_fields _ _).2.1]; exact hfg)
    have hmade := hend.made
    rw [HelioRun.by_last hd0 (HelioRun.owing_differs ho .shed)] at hmade
    exact Or.inr ⟨hst, ho, hfg, hfl, hmade.of_by⟩

/-- An answer that leaves a motion owed has made `new` of the record. -/
theorem State.made_of_owed (ho : new.owed.isSome = true) (hend : s.AnswerEnded t n h e found new
    ∨ (e.newest = true ∧ new.owed = none ∧ s.AnswerEnded t n h e found (new.by (some .shed) (new.owing .shed)))) :
    s.AnswerMade t n h none new := by
  rcases hend with hend | ⟨-, hn, -⟩
  · exact hend.made
  · rw [hn] at ho
    cases ho

/-! ### The records of an ACCEPT and of a refusal -/

/-- The record of an owed motion that is under way (R41, R72). -/
def HelioRun.returned (dest : Dest) (cause : Cause) (r : HelioRun) : HelioRun := { r.stopped with
  state := .returning, destination := some dest, motionCause := some cause, busyCount := 0, released := !r.holdsLoad
  leaving := none, owed := if r.owed.map Owed.motion = some .stow ∧ dest = .standby then r.owed else none }

theorem Edit.acceptOwed_r (dest : Dest) (cause : Cause) (e : Edit) :
    (e.acceptOwed dest cause).r = e.r.by (some (e.r.motionCause.getD cause)) (e.r.returned dest cause) := by
  unfold Edit.acceptOwed
  rw [Edit.set_r]
  refine congrArg _ ?_
  obtain ⟨o, ho⟩ : ∃ o, e.r.owed = o := ⟨_, rfl⟩
  rcases o with - | ⟨m, c⟩
  · simp [HelioRun.tidy, HelioRun.nothingRemains, HelioRun.returned, HelioRun.stopped, ho]
  · cases m <;> cases dest <;> simp [HelioRun.tidy, HelioRun.nothingRemains, HelioRun.returned, HelioRun.stopped, ho]

/-- A heliostat under way to rest keeps its granted aim's load pending. -/
theorem HelioRun.eases_returned (dest : Dest) (cause : Cause) (r : HelioRun) : r.Eases (r.returned dest cause) := by
  refine ⟨?_, fun _ => ?_, fun _ hl => ?_⟩
  · unfold HelioRun.returned HelioRun.stopped HelioRun.aims
    simp
  · unfold HelioRun.secured
    rw [show (r.returned dest cause).state = .returning from rfl]
    simp
  · have hg : r.granted.isSome = true := by
      have h1 : (r.granted.isSome || false) = true := hl
      rwa [Bool.or_false] at h1
    have hr : (r.returned dest cause).released = false := by
      change (!r.holdsLoad) = false
      unfold HelioRun.holdsLoad
      rw [hg]
      rfl
    unfold HelioRun.isPending
    rw [hl, hr, show (r.returned dest cause).state = .returning from rfl]
    simp

/-- The record with the failure of a refused owed motion noted (R74). -/
def HelioRun.failedBusy (fault : FaultCause) (isLocal : Bool) (r : HelioRun) : HelioRun :=
  { r with fault := some (r.fault.getD fault), busyCount := 0, localControl := r.localControl || isLocal }

theorem HelioRun.refused_eq (fault : FaultCause) (isLocal : Bool) (r : HelioRun) : r.refused fault isLocal = r.failedBusy fault isLocal := by
  unfold HelioRun.refused HelioRun.failedBusy
  cases r.fault <;> rfl

theorem Edit.refuseOwed_r (fault : FaultCause) (isLocal : Bool) (report : Cause) (e : Edit) : (e.refuseOwed fault isLocal report).r =
    e.r.by (some report) (if e.r.holdsLoad then (e.r.failedBusy fault isLocal).lostOnAim else (e.r.failedBusy fault isLocal).faultedOff) := by
  unfold Edit.refuseOwed
  rw [HelioRun.refused_eq]
  by_cases hl : e.r.holdsLoad = true
  · rw [if_pos hl, if_pos hl]
    refine congrArg (e.r.by (some report)) ?_
    cases ho : e.r.owed <;> simp [ho, HelioRun.goLost, HelioRun.clearOwed, HelioRun.failedBusy, HelioRun.tidy, HelioRun.nothingRemains, HelioRun.lostOnAim, HelioRun.stopped]
  · rw [if_neg hl, if_neg hl]
    have hno : e.r.granted = none ∧ e.r.leaving = none := by
      unfold HelioRun.holdsLoad at hl
      simpa using hl
    refine congrArg (e.r.by (some report)) ?_
    simp [HelioRun.clearOwed, HelioRun.failedBusy, HelioRun.tidy, HelioRun.nothingRemains, HelioRun.faultedOff, HelioRun.stopped, hno]

/-! ### A refusal (R74, R100, R101) -/

/-- An owed motion that is refused, of the record `seen` that a status before it has left. -/
theorem State.refusal_made (hs : s.Sound) (hz : s.ZonesSettled) (hh : x.helio < Config.heliostats) (hk : EditKeeps edit)
    {fault : FaultCause} {isLocal : Bool} {report : Cause} (hout : s.outcomeOf n x edit = e.refuseOwed fault isLocal report)
    (he : e.r = seen.stamped s.now) (found : Option Finding) :
    let t := s.endExchange n x found edit
    s.AnswerMade t n x.helio none (seen.by (some report)
        (if seen.holdsLoad then (seen.failedBusy fault isLocal).lostOnAim else (seen.failedBusy fault isLocal).faultedOff))
      ∧ (seen.holdsLoad = true → s.live.watch.mode = .latch → t.field.trip.latch = true) := by
  have hr : (s.outcomeOf n x edit).r = (seen.by (some report)
      (if seen.holdsLoad then (seen.failedBusy fault isLocal).lostOnAim else (seen.failedBusy fault isLocal).faultedOff)).stamped s.now := by
    rw [hout, Edit.refuseOwed_r, he]
    refine HelioRun.by_of_stamped s.now seen (some report) ?_
    by_cases hl : seen.holdsLoad = true
    · rw [if_pos hl]
      exact if_pos hl
    · rw [if_neg hl]
      exact if_neg hl
  obtain ⟨y, hy⟩ := HelioRun.by_cause (some report) seen
    (if seen.holdsLoad then (seen.failedBusy fault isLocal).lostOnAim else (seen.failedBusy fault isLocal).faultedOff)
  refine ⟨?_, fun hl hm => ?_⟩
  · by_cases hl : seen.holdsLoad = true
    · have hended := State.ended_of_secured (n := n) (edit := edit) hs hh (by
        rw [hr, hy, if_pos hl]
        rfl) found
      rw [hr] at hended
      exact hended.made
    · have hended := State.ended_of_eases (n := n) hs hz hh hk (.of_unloaded (by rw [hr, hy, if_neg hl]; rfl) (by rw [hr, hy, if_neg hl]; rfl)) found
      rw [hr] at hended
      exact hended.made
  · have honset : (s.outcomeOf n x edit).onset = true := by
      rw [hout]
      unfold Edit.refuseOwed
      rw [if_pos (by rw [he]; exact hl)]
    rw [(s.endExchange_closed n x found edit).trip]
    exact Work.latch_conclude honset hm

/-! ### A BUSY (R73) -/

theorem Edit.Traced.countBusy (h : e.Traced r0) {k : Nat} (hk : k ≤ 3) :
    ({ e with r := { e.r with busyCount := k } } : Edit).Traced r0 := by
  obtain ⟨h1, h2, h3, h4, h5, h6, h7, h8⟩ := h.good.tidy
  exact h.changed ⟨rfl, rfl, rfl⟩ ⟨h.good.sound.other rfl rfl rfl rfl rfl rfl rfl rfl rfl rfl, ⟨h1, h2, h3, h4, h5, h6, h7, h8.1, hk⟩⟩
    (.of_same (.refl _) rfl (Or.inr rfl) Or.inl) (fun hn => ⟨(h.adopted hn).1, rfl⟩) (Or.inr rfl) id

/-- The outcome of a status that an answer carries, and the record that it leaves. -/
theorem State.statusEdit_traced (hg : (s.field.run h).Good) (n : Nat) (st : Status) :
    (s.statusEdit n h st).Traced (((s.field.run h).stamped s.now).flagged st)
      ∧ (s.statusEdit n h st).r = (s.statused st (s.field.run h)).stamped s.now := by
  have hcrit : ∀ z, ((s.field.setSxe n ((s.field.sxeAt n).ended s.now)).zoneAt z).critical = (s.field.zoneAt z).critical := fun _ => rfl
  exact ⟨Edit.traced_status hcrit (hg.stamped s.now) st,
    ((Edit.status_eq (e := Edit.of ((s.field.run h).stamped s.now)) hcrit (hg.stamped s.now) st).1).trans
      (State.statused_stamped s.now (s.field.run h) st)⟩

/-- A BUSY to an owed motion: its status is applied first, and the BUSY counts for what is then still owed. -/
theorem State.owedBusy (hs : s.Sound) (hz : s.ZonesSettled) (hh : x.helio < Config.heliostats) (hg : (s.field.run x.helio).Good)
    {dest : Dest} {cause : Cause} (hk : x.kind = .owedMotion dest cause) (st : Status) (found : Option Finding) :
    let t := s.endExchange n x found fun env f e => e.answer env f n x.kind (.busy st)
    let seen := s.statused st (s.field.run x.helio)
    (seen.owed = none → s.AnswerMadeOrShed t n x.helio seen)
      ∧ (seen.owed.isSome → seen.busyCount < 2 → s.AnswerMade t n x.helio none { seen with busyCount := seen.busyCount + 1 })
      ∧ (seen.owed.isSome → 2 ≤ seen.busyCount →
        s.AnswerMade t n x.helio none (seen.by (some .busy)
            (if seen.holdsLoad then (seen.failedBusy .busy false).lostOnAim else (seen.failedBusy .busy false).faultedOff))
          ∧ (seen.holdsLoad = true → s.live.watch.mode = .latch → t.field.trip.latch = true)) := by
  intro t seen
  obtain ⟨htr, her⟩ := State.statusEdit_traced hg n st
  have hflag := HelioRun.stamped_flagged s.now st (s.field.run x.helio)
  have hout : s.outcomeOf n x (fun env f e => e.answer env f n x.kind (.busy st)) =
      (if (s.statusEdit n x.helio st).r.owed.isSome then
        if (s.statusEdit n x.helio st).r.busyCount + 1 < 3 then { s.statusEdit n x.helio st with
          r := { (s.statusEdit n x.helio st).r with busyCount := (s.statusEdit n x.helio st).r.busyCount + 1 } }
        else (s.statusEdit n x.helio st).refuseOwed .busy false .busy
      else s.statusEdit n x.helio st) := by
    unfold State.outcomeOf Edit.answer
    rw [hk]
    rfl
  have hkeeps := editKeeps_answer n x.kind (.busy st)
  generalize s.statusEdit n x.helio st = e1 at htr her hout
  have howed : e1.r.owed = seen.owed := by rw [her]; rfl
  have hbusy : e1.r.busyCount = seen.busyCount := by rw [her]; rfl
  rw [howed, hbusy] at hout
  refine ⟨fun ho => ?_, fun ho hb => ?_, fun ho hb => ?_⟩
  · rw [if_neg (by rw [ho]; exact Bool.false_ne_true)] at hout
    rw [← hout] at htr her
    exact State.madeOrShed_of_ended her htr hflag (State.answerEnded_of_traced hs hz hh hkeeps htr hflag her found)
  · rw [if_pos ho, if_pos (by omega)] at hout
    have htr1 := htr.countBusy (k := seen.busyCount + 1) (by omega)
    have her1 : ({ e1 with r := { e1.r with busyCount := seen.busyCount + 1 } } : Edit).r =
        ({ seen with busyCount := seen.busyCount + 1 } : HelioRun).stamped s.now := by
      dsimp only
      rw [her]
      rfl
    rw [← hout] at htr1 her1
    exact State.made_of_owed ho (State.answerEnded_of_traced hs hz hh hkeeps htr1 hflag her1 found)
  · rw [if_pos ho, if_neg (by omega)] at hout
    exact State.refusal_made hs hz hh hkeeps hout her found

/-- Settles O55: an ACCEPT leaves the granted aim's load pending, a refused load holder goes LOST, which no walk may take, and any other
FAULTED, which holds no load; a BUSY's status is a status as a QUERY's is. -/
theorem owedMotionAcceptedReturns : Obligations.OwedMotionAcceptedReturns := by
  unfold Obligations.OwedMotionAcceptedReturns
  intro s g x frame fr dest cause answer hd hk ha hs hz _ hl hty hns h r
  have hh : x.helio < Config.heliostats := Field.lt_of_inFlight hs.canonical.1 (hl.exchange g x hd.2.1).2
  have hg : (s.field.run x.helio).Good := ⟨hs.records x.helio, hty.records x.helio⟩
  have hexec := State.exec_answer hd ha (by
    rw [hk]
    cases answer with
    | status st => exact absurd rfl (hns st)
    | _ => rfl)
  have hkeeps := editKeeps_answer g x.kind answer
  have hreject : ∀ {fault : FaultCause} {isLocal : Bool}, s.outcomeOf g x (fun env f e => e.answer env f g x.kind answer) =
      (Edit.of ((s.field.run x.helio).stamped s.now)).refuseOwed fault isLocal .reject →
      ∀ found, s.AnswerMade (s.endExchange g x found fun env f e => e.answer env f g x.kind answer) g h (some .reject)
          (if r.holdsLoad then (r.failedBusy fault isLocal).lostOnAim else (r.failedBusy fault isLocal).faultedOff)
        ∧ (r.holdsLoad = true → s.live.watch.mode = .latch →
          (s.endExchange g x found fun env f e => e.answer env f g x.kind answer).field.trip.latch = true) := fun hout found => by
    obtain ⟨h1, h2⟩ := State.refusal_made hs hz hh hkeeps hout (seen := s.field.run x.helio) rfl found
    exact ⟨h1.of_by, h2⟩
  refine ⟨_, hexec, ?_⟩
  intro refused
  refine ⟨fun he => ?_, fun he => hreject (by unfold State.outcomeOf Edit.answer; rw [hk, he]; rfl) _,
    fun he => hreject (by unfold State.outcomeOf Edit.answer; rw [hk, he]; rfl) _,
    fun he => hreject (by unfold State.outcomeOf Edit.answer; rw [hk, he]; rfl) _, fun p code he hlc hpa ho => ?_, fun st he => ?_⟩
  · have hout : (s.outcomeOf g x fun env f e => e.answer env f g x.kind answer).r =
        (r.by (some (r.motionCause.getD cause)) (r.returned dest cause)).stamped s.now := by
      have h1 : s.outcomeOf g x (fun env f e => e.answer env f g x.kind answer) =
          (Edit.of (r.stamped s.now)).acceptOwed dest cause := by
        unfold State.outcomeOf Edit.answer
        rw [hk, he]
        rfl
      rw [h1, Edit.acceptOwed_r]
      exact HelioRun.by_of_stamped s.now r _ rfl
    have hease : r.Eases ((r.by (some (r.motionCause.getD cause)) (r.returned dest cause)).stamped s.now) :=
      ((HelioRun.eases_returned dest cause r).by _ r).trans (HelioRun.flagged_stamp s.now _).eases
    rw [← hout] at hease
    have hended := State.ended_of_eases hs hz hh hkeeps hease (answer.finding s.env)
    rw [hout] at hended
    exact hended.made.of_by
  · subst he
    have hseen : s.statused ⟨p, false, false, false, code⟩ r = r :=
      State.statused_of_kept (st := ⟨p, false, false, false, code⟩) ⟨rfl, rfl, rfl, hlc⟩ (State.placed_agrees hg hpa)
    have hbusy := State.owedBusy (n := g) hs hz hh hg hk ⟨p, false, false, false, code⟩ ((Answer.busy ⟨p, false, false, false, code⟩).finding s.env)
    dsimp only at hbusy
    rw [hseen] at hbusy
    obtain ⟨-, h2, h3⟩ := hbusy
    refine ⟨h2 ho, fun hb => ?_⟩
    obtain ⟨h4, h5⟩ := h3 ho hb
    exact ⟨h4.of_by, h5⟩
  · subst he
    obtain ⟨h1, h2, h3⟩ := State.owedBusy hs hz hh hg hk st ((Answer.busy st).finding s.env)
    refine ⟨h1, h2, fun ho hb => ?_⟩
    have h4 := h3 ho hb
    have hfail : (s.statused st r).failedBusy .busy false =
        { s.statused st r with fault := some ((s.statused st r).fault.getD .busy), busyCount := 0 } := by
      unfold HelioRun.failedBusy
      rw [Bool.or_false]
    rw [hfail] at h4
    exact h4

end Sys2Proof.Machine
end

section
/-! PROOFS for segment exchanges: the revocation of a grant that is not yet accepted, and REJECT to a MOVE-AIM (R37, R38, R70, R120). -/

namespace Sys2Proof.Machine

variable {s t : State} {env : Env} {f g f3 : Field} {n : Fin 4} {x : Exchange} {h a : Nat} {e : Edit} {r r0 new seen before : HelioRun}
  {edit : Env → Field → Edit → Edit} {found : Option Finding} {k : Cause}

/-! ### The slots that hear of a revocation (R120) -/

theorem Slot.follow_hears_of {y : Slot} (b : Bool) (hm : (h, a) ∈ y.settleSet) :
    (y.follow h a b).flags.driveReject = (y.flags.driveReject || b)
      ∧ ∃ z, (h, z) ∈ (y.follow h a b).residual ∧ ((∀ p ∈ y.residual, p.1 ≠ h) → z = if b then .rejected else .revoked) := by
  unfold Slot.follow
  rw [if_pos hm]
  cases b with
  | false => exact ⟨(Bool.or_false _).symm, mem_addResidual h .revoked y.residual⟩
  | true => exact ⟨(Bool.or_true _).symm, mem_addResidual h .rejected y.residual⟩

theorem State.settleSetsHear_of_followed {b : Bool} (hs : ∀ n, n < Config.slots →
    ∃ y, t.field.slotAt n = ({ s.field.slotAt n with waitingOn := y } : Slot).followRevoked h (some (a, b))) :
    s.SettleSetsHear t h a b := by
  intro n hn hm
  obtain ⟨y, hy⟩ := hs n hn
  have h1 := Slot.follow_hears_of (y := { s.field.slotAt n with waitingOn := y }) b hm
  rw [hy]
  exact h1

/-- A revocation that eases the record of a heliostat that a survey has not to find. -/
theorem State.hears_of_eases {b : Bool} (hs : s.Sound) (hz : s.ZonesSettled) (hh : x.helio < Config.heliostats) (hk : EditKeeps edit)
    (he : (s.field.run x.helio).Eases (s.outcomeOf n x edit).r) (hst : (s.field.run x.helio).state ≠ .unsure)
    (hr : (s.outcomeOf n x edit).revoked = some (a, b)) (found : Option Finding) :
    s.SettleSetsHear (s.endExchange n x found edit) x.helio a b := by
  have hw := (State.written_of_eases (n := n) hs hz hh hk he).2
  obtain ⟨-, hch⟩ := (s.endExchange_closed n x found edit).skipped (Or.inr (Or.inl hst))
  refine State.settleSetsHear_of_followed fun m hm => ?_
  obtain ⟨y, hy⟩ := hw.hear m hm
  rw [hr] at hy
  exact ⟨y, (hch.slotAt m).trans hy⟩

/-! ### The record of a revoked grant (R37, R38) -/

theorem HelioRun.grantUndone_fields (r : HelioRun) : r.grantUndone.leaving = none ∧ r.grantUndone.accepted = false
    ∧ r.grantUndone.fault = r.fault ∧ r.grantUndone.localControl = r.localControl
    ∧ r.grantUndone.state = if r.leaving.isSome then .tracking else r.rest.state := by
  unfold HelioRun.grantUndone
  cases r.leaving <;> exact ⟨rfl, rfl, rfl, rfl, rfl⟩

theorem HelioRun.grantUndone_moves (hst : r.state = .slewing) : r.state ≠ r.grantUndone.state := by
  rw [r.grantUndone_fields.2.2.2.2, hst]
  cases r.leaving <;> cases r.rest <;> exact nofun

/-- A revoked grant brings no more load than it brought, whether or not it waited in the Move Queue. -/
theorem HelioRun.eases_undone (hst : r.state = .slewing) : r.Eases r.grantUndone := by
  obtain ⟨l, hl⟩ : ∃ l, r.leaving = l := ⟨_, rfl⟩
  cases l with
  | none => exact .of_unloaded ((HelioRun.granted_grantUndone r).trans hl) r.grantUndone_fields.1
  | some b =>
    have hform : r.grantUndone = { r.stopped with state := .tracking, granted := some b, leaving := none, busyCount := 0 } := by
      unfold HelioRun.grantUndone
      rw [hl]
    refine .of_same ?_ (by rw [hform]; rfl) (Or.inl hst) (by rw [hform]; exact nofun)
    rw [HelioRun.aims_grantUndone]
    exact List.sublist_append_right _ _

/-- The revoked record, with other marks of a fault and another last cause, is tidy. -/
theorem HelioRun.grantUndone_marked (b : Bool) (z : Option FaultCause) (y : Option Cause) (r : HelioRun) :
    ({ r.grantUndone with localControl := b, fault := z, lastCause := y } : HelioRun).tidy.nothingRemains =
      { r.grantUndone with localControl := b, fault := z, lastCause := y } := by
  obtain ⟨l, hl⟩ : ∃ l, r.leaving = l := ⟨_, rfl⟩
  obtain ⟨o, ho⟩ : ∃ o, r.owed = o := ⟨_, rfl⟩
  cases l with
  | some b =>
    unfold HelioRun.grantUndone
    rw [hl]
    rcases o with - | ⟨m, c⟩
    · simp [HelioRun.tidy, HelioRun.nothingRemains, HelioRun.stopped, ho]
    · cases m <;> simp [HelioRun.tidy, HelioRun.nothingRemains, HelioRun.stopped, ho]
  | none =>
    unfold HelioRun.grantUndone
    rw [hl]
    rcases o with - | ⟨m, c⟩
    · cases hr : r.rest <;> simp [HelioRun.tidy, HelioRun.nothingRemains, HelioRun.restedAt, HelioRun.stopped, Rest.state, ho, hr]
    · cases m <;> cases hr : r.rest <;>
        simp [HelioRun.tidy, HelioRun.nothingRemains, HelioRun.restedAt, HelioRun.stopped, Rest.state, ho, hr]

/-! ### REJECT (R70) -/

/-- A REJECT with reason LIMIT, or with a failure whose fault cause is given. -/
inductive RejectReason.Fails : RejectReason → FaultCause → Prop
  | fault : RejectReason.Fails .fault (.driveFault none)
  | localControl : RejectReason.Fails .localControl .localControl

/-- The record that a REJECT's failure has marked. -/
def HelioRun.rejected (fault : FaultCause) (r : HelioRun) : HelioRun :=
  { r.grantUndone with fault := some (r.fault.getD fault), localControl := r.localControl || (fault == .localControl) }

theorem HelioRun.rejected_differs (hst : r.state = .slewing) {new : HelioRun} (fault : FaultCause)
    (hn : new = (r.rejected fault).owing fault.cause ∨ new = (r.rejected fault).faultedOff) : r.differs new = true := by
  refine HelioRun.differs_of_state ?_
  rcases hn with hn | hn
  · rw [hn, (HelioRun.owing_fields _ _).1]
    exact HelioRun.grantUndone_moves hst
  · rw [hn, hst]
    exact nofun

/-- The first change of a REJECT (R37, R38). -/
theorem Edit.rejected_first (hst : e.r.state = .slewing) : (e.revoke .reject).r = e.r.grantUndone.caused .reject := by
  rw [Edit.revoke_r]
  exact HelioRun.by_of_differs (HelioRun.differs_of_state (HelioRun.grantUndone_moves hst))

theorem Edit.rejected_second (hst : e.r.state = .slewing) (fault : FaultCause) :
    ((e.revoke .reject).rejectFault fault (fault == .localControl)).r = (e.r.rejected fault).caused .reject := by
  have hform : { (e.revoke .reject).r with
      localControl := (e.revoke .reject).r.localControl || (fault == .localControl)
      fault := (e.revoke .reject).r.fault.orElse (fun _ => some fault) } = (e.r.rejected fault).caused .reject := by
    have hf : e.r.grantUndone.fault.orElse (fun _ => some fault) = some (e.r.fault.getD fault) := by
      rw [e.r.grantUndone_fields.2.2.1]
      cases e.r.fault <;> rfl
    rw [Edit.rejected_first hst]
    unfold HelioRun.rejected HelioRun.caused
    dsimp only
    rw [hf, e.r.grantUndone_fields.2.2.2.1]
  have htidy : ((e.r.rejected fault).caused .reject).tidy.nothingRemains = (e.r.rejected fault).caused .reject :=
    HelioRun.grantUndone_marked _ _ _ e.r
  unfold Edit.rejectFault
  rw [hform, Edit.set_r, htidy]
  exact HelioRun.by_caused .reject _ _

theorem HelioRun.setOwed_defocus (c : Cause) (r : HelioRun) : r.setOwed .defocus c = r.owing c := by
  unfold HelioRun.setOwed HelioRun.owing
  cases ho : r.owed with
  | none => rfl
  | some o =>
    obtain ⟨m, c'⟩ := o
    cases m <;> rfl

/-- The failure of a re-aim that the drive has refused: its old aim is to be left. -/
theorem HelioRun.rejected_owing (hl : r.leaving.isSome = true) (fault : FaultCause) (c : Cause) :
    (((r.rejected fault).caused .reject).setOwed .defocus c).tidy.nothingRemains = ((r.rejected fault).owing c).caused .reject := by
  obtain ⟨b, hb⟩ := Option.isSome_iff_exists.1 hl
  obtain ⟨o, ho⟩ : ∃ o, r.owed = o := ⟨_, rfl⟩
  rw [HelioRun.setOwed_defocus, HelioRun.owing_caused]
  unfold HelioRun.rejected HelioRun.grantUndone
  rw [hb]
  rcases o with - | ⟨m, c'⟩
  · simp [HelioRun.tidy, HelioRun.nothingRemains, HelioRun.stopped, HelioRun.owing, HelioRun.caused, ho]
  · cases m <;> simp [HelioRun.tidy, HelioRun.nothingRemains, HelioRun.stopped, HelioRun.owing, HelioRun.caused, ho]

theorem HelioRun.faulted_tidied (hg : r.granted = none) (hl : r.leaving = none) :
    ({ r.clearOwed with state := .faulted } : HelioRun).tidy.nothingRemains = r.faultedOff := by
  simp [HelioRun.tidy, HelioRun.nothingRemains, HelioRun.faultedOff, HelioRun.stopped, HelioRun.clearOwed, hg, hl]

/-- The failure that a REJECT reports, after the revocation (R70). -/
theorem Edit.failNow_rejected {e1 : Edit} (fault : FaultCause) (he : e1.r = (r.rejected fault).caused .reject) (c : Cause) :
    (e1.failNow c .reject).r =
        (if r.leaving.isSome then (r.rejected fault).owing c else (r.rejected fault).faultedOff).caused .reject
      ∧ (e1.failNow c .reject).revoked = e1.revoked := by
  have hgr : e1.r.granted = r.leaving := by
    rw [he]
    exact HelioRun.granted_grantUndone r
  have hle : e1.r.leaving = none := by
    rw [he]
    exact r.grantUndone_fields.1
  have hq : e1.r.queued = false := by
    rw [he]
    exact HelioRun.queued_grantUndone r
  have hst : e1.r.state = if r.leaving.isSome then .tracking else r.rest.state := by
    rw [he]
    exact r.grantUndone_fields.2.2.2.2
  have hload : e1.r.holdsLoad = r.leaving.isSome := by
    unfold HelioRun.holdsLoad
    rw [hgr, hle]
    exact Bool.or_false _
  unfold Edit.failNow
  dsimp only
  rw [hload]
  by_cases hl : r.leaving.isSome = true
  · have howe : e1.owe .defocus c .reject = e1.set (some .reject) (e1.r.setOwed .defocus c) := if_neg (by rw [hq]; exact Bool.false_ne_true)
    have hr : (e1.owe .defocus c .reject).r = ((r.rejected fault).owing c).caused .reject := by
      rw [howe, Edit.set_r, he, HelioRun.rejected_owing hl]
      exact HelioRun.by_caused .reject _ _
    have hload1 : (e1.owe .defocus c .reject).r.holdsLoad = true := by
      rw [hr, HelioRun.holdsLoad_iff_aims]
      change ((r.rejected fault).owing c).aims ≠ []
      rw [HelioRun.owing_aims]
      change r.grantUndone.aims ≠ []
      rw [HelioRun.aims_grantUndone]
      cases hb : r.leaving with
      | none =>
        rw [hb] at hl
        cases hl
      | some b => exact List.cons_ne_nil b []
    rw [if_pos hl, if_pos hl, if_pos (Or.inl hload1)]
    exact ⟨hr, by rw [howe]; rfl⟩
  · have hfree : ¬ (e1.r.holdsLoad = true ∨ e1.r.state = .faulted) := by
      rw [hload, hst, if_neg hl]
      exact fun hc => hc.elim hl (by cases r.rest <;> exact nofun)
    have hnone : e1.r.granted = none := by
      rw [hgr]
      simpa using hl
    rw [if_neg hl, if_neg hl, if_neg hfree, Edit.set_r, HelioRun.faulted_tidied hnone hle, he]
    exact ⟨HelioRun.by_caused .reject _ (r.rejected fault).faultedOff, rfl⟩

/-- What a REJECT makes of a grant not yet accepted (R37, R38, R70). -/
theorem Edit.rejectMoveAim_r (hst : e.r.state = .slewing) (reason : RejectReason) :
    (e.rejectMoveAim reason).revoked = e.r.granted.map (fun a => (a, true))
      ∧ (reason = .limit → (e.rejectMoveAim reason).r = e.r.by (some .reject) e.r.grantUndone)
      ∧ ∀ fault, reason.Fails fault → (e.rejectMoveAim reason).r = e.r.by (some .reject)
        (if e.r.leaving.isSome then (e.r.rejected fault).owing fault.cause else (e.r.rejected fault).faultedOff) := by
  have hrev : (e.revoke .reject).revoked = e.r.granted.map (fun a => (a, true)) := rfl
  have hfail : ∀ fault : FaultCause, let e1 := (e.revoke .reject).rejectFault fault (fault == .localControl)
      (e1.failNow fault.cause .reject).revoked = e.r.granted.map (fun a => (a, true)) ∧ (e1.failNow fault.cause .reject).r =
        e.r.by (some .reject) (if e.r.leaving.isSome then (e.r.rejected fault).owing fault.cause else (e.r.rejected fault).faultedOff) :=
    fun fault => by
      obtain ⟨h1, h2⟩ := Edit.failNow_rejected fault (Edit.rejected_second hst fault) fault.cause
      refine ⟨h2.trans hrev, h1.trans ?_⟩
      refine (HelioRun.by_of_differs (HelioRun.rejected_differs hst fault ?_)).symm
      split
      · exact Or.inl rfl
      · exact Or.inr rfl
  unfold Edit.rejectMoveAim
  dsimp only
  rw [if_pos hst]
  cases reason with
  | limit => exact ⟨hrev, fun _ => Edit.revoke_r .reject e, fun fault hf => nomatch hf⟩
  | fault =>
    obtain ⟨h1, h2⟩ := hfail (.driveFault none)
    exact ⟨h1, nofun, fun fault hf => by cases hf; exact h2⟩
  | localControl =>
    obtain ⟨h1, h2⟩ := hfail .localControl
    exact ⟨h1, nofun, fun fault hf => by cases hf; exact h2⟩

end Sys2Proof.Machine
end

section
/-! PROOFS for segment exchanges: REJECT and BUSY to a MOVE-AIM (R69, R70, R120). -/

namespace Sys2Proof.Machine

variable {s t : State} {env : Env} {f g f3 : Field} {n : Fin 4} {x : Exchange} {h a : Nat} {e : Edit} {r r' r0 new seen before : HelioRun}
  {edit : Env → Field → Edit → Edit} {found : Option Finding} {k : Cause} {origin : Option Origin} {st : Status} {p : Position}

/-! ### REJECT (R70) -/

theorem HelioRun.rejected_stamped (now : Nat) (fault : FaultCause) (r : HelioRun) :
    (r.stamped now).rejected fault = (r.rejected fault).stamped now := by
  unfold HelioRun.rejected
  rw [HelioRun.grantUndone_stamped]
  rfl

theorem HelioRun.eases_rejected (hst : r.state = .slewing) (fault : FaultCause) :
    r.Eases (if r.leaving.isSome then (r.rejected fault).owing fault.cause else (r.rejected fault).faultedOff) := by
  have h1 : r.grantUndone.Eases (r.rejected fault) := .of_same (.refl _) rfl (Or.inr rfl) Or.inl
  split
  · exact ((HelioRun.eases_undone hst).trans h1).trans (HelioRun.eases_owing _ _)
  · exact .of_unloaded rfl rfl

/-- A REJECT to a MOVE-AIM. -/
theorem State.aimRejected (hs : s.Sound) (hz : s.ZonesSettled) (hk : x.kind = .moveAim origin)
    (hst : (s.field.run x.helio).state = .slewing) (hg : (s.field.run x.helio).granted = some a) (reason : RejectReason)
    (found : Option Finding) :
    let r := s.field.run x.helio
    let t := s.endExchange n x found fun env f e => e.answer env f n x.kind (.reject reason)
    s.SettleSetsHear t x.helio a true
      ∧ (reason = .limit → s.AnswerMade t n x.helio (some .reject) r.grantUndone)
      ∧ ∀ fault, reason.Fails fault → s.AnswerMade t n x.helio (some .reject)
        (if r.leaving.isSome then (r.rejected fault).owing fault.cause else (r.rejected fault).faultedOff) := by
  intro r t
  have hh : x.helio < Config.heliostats := Field.lt_of_state hs.canonical.1 (by rw [hst]; exact nofun)
  have hkeeps := editKeeps_answer n x.kind (.reject reason)
  have hout : s.outcomeOf n x (fun env f e => e.answer env f n x.kind (.reject reason)) =
      (Edit.of (r.stamped s.now)).rejectMoveAim reason := by
    unfold State.outcomeOf Edit.answer
    rw [hk]
    rfl
  obtain ⟨h1, h2, h3⟩ := Edit.rejectMoveAim_r (e := Edit.of (r.stamped s.now)) hst reason
  rw [← hout] at h1 h2 h3
  have hrev : (s.outcomeOf n x fun env f e => e.answer env f n x.kind (.reject reason)).revoked = some (a, true) := by
    rw [h1]
    exact congrArg (Option.map fun a => (a, true)) hg
  have hmade : ∀ new : HelioRun, r.Eases new → (s.outcomeOf n x fun env f e => e.answer env f n x.kind (.reject reason)).r =
      (r.stamped s.now).by (some .reject) (new.stamped s.now) →
      s.AnswerMade t n x.helio (some .reject) new ∧ s.SettleSetsHear t x.helio a true := fun new he hr => by
    rw [HelioRun.by_stamped] at hr
    have hease : r.Eases ((r.by (some .reject) new).stamped s.now) := (he.by _ r).trans (HelioRun.flagged_stamp s.now _).eases
    rw [← hr] at hease
    have hended := State.ended_of_eases (n := n) hs hz hh hkeeps hease found
    rw [hr] at hended
    exact ⟨hended.made.of_by, State.hears_of_eases hs hz hh hkeeps hease (by rw [hst]; exact nofun) hrev found⟩
  have hlimit : reason = .limit → s.AnswerMade t n x.helio (some .reject) r.grantUndone ∧ s.SettleSetsHear t x.helio a true := fun hr =>
    hmade _ (HelioRun.eases_undone hst) ((h2 hr).trans (by
      rw [← HelioRun.grantUndone_stamped]
      rfl))
  have hfail : ∀ fault, reason.Fails fault → s.AnswerMade t n x.helio (some .reject)
      (if r.leaving.isSome then (r.rejected fault).owing fault.cause else (r.rejected fault).faultedOff) ∧ s.SettleSetsHear t x.helio a true :=
    fun fault hf => hmade _ (HelioRun.eases_rejected hst fault) ((h3 fault hf).trans (by
      refine congrArg ((r.stamped s.now).by (some .reject)) ?_
      change (if r.leaving.isSome then ((r.stamped s.now).rejected fault).owing fault.cause else ((r.stamped s.now).rejected fault).faultedOff) = _
      rw [HelioRun.rejected_stamped, HelioRun.owing_stamped, HelioRun.faultedOff_stamped]
      exact (apply_ite (HelioRun.stamped s.now) _ _ _).symm))
  refine ⟨?_, fun hr => (hlimit hr).1, fun fault hf => (hfail fault hf).1⟩
  cases reason with
  | limit => exact (hlimit rfl).2
  | fault => exact (hfail _ .fault).2
  | localControl => exact (hfail _ .localControl).2

/-! ### What a status leaves of a grant not in the Move Queue (R76 to R78) -/

/-- The record has no Move Queue entry and, while it is SLEWING or TRACKING, the granted aim `o`. -/
structure HelioRun.KeepsAim (o : Option Nat) (r : HelioRun) : Prop where
  queued : r.queued = false
  granted : r.state = .slewing ∨ r.state = .tracking → r.granted = o

theorem HelioRun.KeepsAim.of_rest {o : Option Nat} (hq : r.queued = false) (hs : r.state ≠ .slewing) (ht : r.state ≠ .tracking) :
    r.KeepsAim o := ⟨hq, fun hc => absurd hc (not_or.2 ⟨hs, ht⟩)⟩

theorem HelioRun.KeepsAim.by {o : Option Nat} (hn : new.KeepsAim o) (c : Option Cause) (old : HelioRun) : (old.by c new).KeepsAim o := by
  obtain ⟨y, hy⟩ := HelioRun.by_cause c old new
  rw [hy]
  exact ⟨hn.queued, hn.granted⟩

theorem HelioRun.KeepsAim.faultedOff {o : Option Nat} (r : HelioRun) : r.faultedOff.KeepsAim o := .of_rest rfl nofun nofun

theorem HelioRun.KeepsAim.arrived (r : HelioRun) : r.arrived.KeepsAim r.granted := ⟨rfl, fun _ => rfl⟩

theorem HelioRun.KeepsAim.released (hq : r.queued = false) : ({ r with leaving := none } : HelioRun).KeepsAim r.granted :=
  ⟨hq, fun _ => rfl⟩

theorem HelioRun.KeepsAim.owing {o : Option Nat} (hr : r.KeepsAim o) (c : Cause) : (r.owing c).KeepsAim o := by
  obtain ⟨h1, h2, h3⟩ := HelioRun.owing_fields c r
  refine ⟨h3.trans hr.queued, fun hs => h2.trans (hr.granted ?_)⟩
  rwa [h1] at hs

theorem HelioRun.KeepsAim.sentOff {o : Option Nat} (hr : r.KeepsAim o) (c : Cause) : (r.sentOff c).KeepsAim o := by
  unfold HelioRun.sentOff
  refine HelioRun.KeepsAim.by ?_ _ _
  rw [if_neg (by rw [hr.queued]; exact Bool.false_ne_true)]
  split
  · exact ⟨hr.queued, hr.granted⟩
  · exact hr.owing c

theorem HelioRun.KeepsAim.failedBy {o : Option Nat} (hr : r.KeepsAim o) (c : Cause) : (r.failedBy c).KeepsAim o := by
  have h1 : (if r.holdsLoad then r.sentOff c else r).KeepsAim o := by
    split
    · exact hr.sentOff c
    · exact hr
  unfold HelioRun.failedBy
  generalize (if r.holdsLoad then r.sentOff c else r) = r1 at h1
  dsimp only
  split
  · exact h1
  · exact (HelioRun.KeepsAim.faultedOff r1).by _ _

theorem HelioRun.KeepsAim.failedAsSaid {o : Option Nat} (hr : r.KeepsAim o) (st : Status) : (r.failedAsSaid st).KeepsAim o := by
  have h1 : (if st.fault then r.failedBy .driveFault else if st.localControl then r.failedBy .localControl else r).KeepsAim o := by
    split
    · exact hr.failedBy _
    · split
      · exact hr.failedBy _
      · exact hr
  unfold HelioRun.failedAsSaid
  generalize (if st.fault then r.failedBy .driveFault else if st.localControl then r.failedBy .localControl else r) = r1 at h1
  dsimp only
  split
  · exact h1.sentOff _
  · exact h1

theorem HelioRun.KeepsAim.faultedAtRest {o : Option Nat} (hr : r.KeepsAim o) (before : HelioRun) : (r.faultedAtRest before).KeepsAim o := by
  unfold HelioRun.faultedAtRest
  split
  · exact .of_rest rfl nofun nofun
  · exact hr

theorem HelioRun.KeepsAim.rested {o : Option Nat} (place : Rest) (r : HelioRun) : (r.restedAt place).KeepsAim o :=
  .of_rest rfl (by cases place <;> exact nofun) (by cases place <;> exact nofun)

theorem HelioRun.KeepsAim.placedSlewing (hq : r.queued = false) (p : Position) : (r.placedSlewing p).KeepsAim r.granted := by
  have hself : r.KeepsAim r.granted := ⟨hq, fun _ => rfl⟩
  unfold HelioRun.placedSlewing
  cases p with
  | onAim a =>
    dsimp only
    split
    · exact (HelioRun.KeepsAim.arrived r).by _ _
    · split
      · exact hself
      · exact (hself.owing _).by _ _
  | moving u v b =>
    dsimp only
    split
    · exact hself
    · exact (hself.owing _).by _ _
  | clear => exact (HelioRun.KeepsAim.released hq).by _ _
  | atStandby => exact (HelioRun.KeepsAim.rested .standby r).by _ _
  | stowed => exact (HelioRun.KeepsAim.rested .stowed r).by _ _

theorem HelioRun.KeepsAim.placedUnaccepted (hq : r.queued = false) (p : Position) : (s.placedUnaccepted p r).KeepsAim r.granted := by
  have hself : r.KeepsAim r.granted := ⟨hq, fun _ => rfl⟩
  have hoff : ∀ p, (s.placedOff p r).KeepsAim r.granted := fun p => by
    unfold State.placedOff
    rw [if_neg (by rw [hq]; exact Bool.false_ne_true)]
    exact (hself.owing _).by _ _
  unfold State.placedUnaccepted
  cases p with
  | onAim a =>
    dsimp only
    split
    · exact (HelioRun.KeepsAim.arrived (r.underWay s.now s.live.slewLimit)).by _ _
    · split
      · exact hself
      · exact hoff _
  | moving u v b =>
    dsimp only
    split
    · exact ⟨rfl, fun _ => rfl⟩
    · exact hoff _
  | clear => exact (HelioRun.KeepsAim.released hq).by _ _
  | atStandby =>
    dsimp only
    split
    · exact hself
    · exact hoff _
  | stowed =>
    dsimp only
    split
    · exact hself
    · exact hoff _

/-- A status never gives an aim to a SLEWING heliostat without a Move Queue entry. -/
theorem State.statused_keepsAim (hst : r.state = .slewing) (hq : r.queued = false) (st : Status) :
    (s.statused st r).KeepsAim r.granted := by
  have hf := HelioRun.flagged_flagged st r
  have hplaced : (s.placed st.position (r.flagged st)).KeepsAim r.granted := by
    rw [← hf.granted]
    unfold State.placed
    rw [hf.state, hst]
    dsimp only
    split
    · exact HelioRun.KeepsAim.placedSlewing (hf.queued.trans hq) _
    · exact HelioRun.KeepsAim.placedUnaccepted (hf.queued.trans hq) _
  exact (hplaced.faultedAtRest _).failedAsSaid st

end Sys2Proof.Machine
end

section
/-! PROOFS for segment exchanges: BUSY to a MOVE-AIM whose grant still waits (R69). -/

namespace Sys2Proof.Machine

variable {s t : State} {n : Fin 4} {x : Exchange} {h a : Nat} {e : Edit} {seen off : HelioRun} {origin : Option Origin} {st : Status}
  {env : Env} {w : Work} {o : Origin}

/-- The heliostat of exchange `x` of segment `n` is SLEWING on a grant of aim `a` that waits neither in the Move Queue nor for its move. -/
structure State.Aiming (s : State) (n : Fin 4) (x : Exchange) (a : Nat) : Prop where
  sound : s.Sound
  settled : s.ZonesSettled
  good : (s.field.run x.helio).Good
  slewing : (s.field.run x.helio).state = .slewing
  granted : (s.field.run x.helio).granted = some a
  unqueued : (s.field.run x.helio).queued = false
  segment : s.env.segmentOf x.helio = n

theorem State.Aiming.lt (hx : s.Aiming n x a) : x.helio < Config.heliostats :=
  Field.lt_of_state hx.sound.canonical.1 (by rw [hx.slewing]; exact nofun)

/-- No poll is on its way to the heliostat, for which a MOVE-AIM has been sent (R57). -/
theorem State.aiming_of (hs : s.Sound) (hz : s.ZonesSettled) (hl : s.field.LinesExact s.env) (ht : s.field.Tidy)
    (hx : (s.field.sxeAt n).exchange = some x) (hk : x.kind = .moveAim origin) (hst : (s.field.run x.helio).state = .slewing)
    (hg : (s.field.run x.helio).granted = some a) : s.Aiming n x a := by
  refine ⟨hs, hz, ⟨hs.records _, ht.records _⟩, hst, hg, ?_, (hl.exchange n x hx).1⟩
  by_contra hq
  have h1 := hl.polled n x hx (by simpa using hq)
  rw [hk] at h1
  cases h1

/-! ### The status of a BUSY -/

theorem State.statusEdit_faithful (hg : (s.field.run h).Good) (hst : (s.field.run h).state = .slewing) (n : Nat) (st : Status) :
    (s.statusEdit n h st).Faithful ((s.field.run h).stamped s.now) :=
  (Edit.Faithful.start (hg.stamped s.now).sound (by
    change (s.field.run h).state ≠ .absent
    rw [hst]
    exact nofun)).status st

/-- The status of a BUSY eases the record, and leaves a grant that still waits as it was. -/
structure State.StatusEased (s : State) (n : Fin 4) (x : Exchange) (a : Nat) (st : Status) : Prop where
  record : (s.statusEdit n x.helio st).r = (s.statused st (s.field.run x.helio)).stamped s.now
  eases : (s.field.run x.helio).Eases (s.statusEdit n x.helio st).r
  aim : (s.statused st (s.field.run x.helio)).KeepsAim (some a)
  kept : (s.statusEdit n x.helio st).drop = false

theorem State.Aiming.eased (hx : s.Aiming n x a) (st : Status) : s.StatusEased n x a st := by
  obtain ⟨htr, her⟩ := State.statusEdit_traced hx.good n st
  have hflag := HelioRun.stamped_flagged s.now st (s.field.run x.helio)
  have haim := State.statused_keepsAim (s := s) hx.slewing hx.unqueued st
  rw [hx.granted] at haim
  have hfaithful := State.statusEdit_faithful hx.good hx.slewing n st
  have hdrop : (s.statusEdit n x.helio st).drop = false := by
    by_contra hd
    have hq : (s.field.run x.helio).queued = true := hfaithful.dropped (by simpa using hd)
    rw [hx.unqueued] at hq
    cases hq
  have hnewest : (s.statusEdit n x.helio st).newest = false := by
    by_contra hn
    obtain ⟨h1, h2⟩ := htr.adopted (by simpa using hn)
    rw [her] at h1 h2
    refine h2 a ?_ (haim.granted (Or.inr h1))
    rw [hflag.aims, HelioRun.aims, hx.granted]
    exact List.mem_append_left _ (List.mem_singleton.2 rfl)
  exact ⟨her, hflag.eases.trans (htr.eases hnewest), haim, hdrop⟩

/-! ### The outcome of a BUSY (R69) -/

/-- The outcome with the grant back in the Move Queue. -/
def Edit.requeued (e : Edit) : Edit := { e with r := { e.r with busyCount := 1, queued := true }, requeue := true }

theorem State.queue_endedField (s : State) (n k : Fin 4) : ((s.endedField n).sxeAt k).queue = (s.field.sxeAt k).queue := by
  rw [State.endedField, Field.sxeAt_setSxe]
  split
  · next hk => rw [← hk.1]; rfl
  · rfl

theorem State.outcome_busyAim (hk : x.kind = .moveAim origin) (st : Status) :
    s.outcomeOf n x (fun env f e => e.answer env f n x.kind (.busy st)) =
      let e := s.statusEdit n x.helio st
      if e.r.state = .slewing ∧ e.r.accepted = false ∧ e.r.owed = none then
        if e.r.busyCount = 0 ∧ (s.field.sxeAt n).queue.length < 64 then e.requeued else e.revoke .busy
      else e := by
  rw [← s.queue_endedField n n]
  unfold State.outcomeOf Edit.answer
  rw [hk]
  rfl

/-- The Move Queues with an entry that an outcome puts back. -/
theorem Work.queue_requeued (hd : e.drop = false) (hr : e.requeue = true) (hg : e.r.granted = some a)
    (hseg : env.segmentOf h = n) (hroom : (w.fld.sxeAt n).queue.length < Config.moveQueue) :
    ((w.applyEdit env h e o).fld.sxeAt n).queue = (w.fld.sxeAt n).queue ++ [⟨h, a, o⟩] := by
  have hwritten : ∀ k, (if e.newest then (w.write env h e.r).toNewest h else w.write env h e.r).fld.sxeAt k = w.fld.sxeAt k := fun k => by
    split
    · rw [Work.sxeAt_toNewest, Work.sxeAt_write]
    · rw [Work.sxeAt_write]
  obtain ⟨ts, hts⟩ := Work.followRevoked_others h e.revoked
    ((if e.newest then (w.write env h e.r).toNewest h else w.write env h e.r).enqueue env ⟨h, a, o⟩)
  have hform : (w.applyEdit env h e o).fld =
      (((if e.newest then (w.write env h e.r).toNewest h else w.write env h e.r).enqueue env ⟨h, a, o⟩).followRevoked h e.revoked).fld := by
    unfold Work.applyEdit
    rw [hd, hr, hg]
    rfl
  rw [hform, hts, Work.fld_enqueue (by rw [hwritten, hseg]; exact hroom)]
  change ((Field.setSxe _ _ _).sxeAt n).queue = _
  rw [hseg, Field.sxeAt_setSxe, if_pos ⟨rfl, n.isLt⟩, hwritten]

/-! ### What the BUSY does -/

/-- The grant of aim `a` is back at the tail of its Move Queue, unless its request has been sent again (R60, R69). -/
def State.Requeued (s t : State) (n : Fin 4) (h a : Nat) (origin : Option Origin) : Prop :=
  ((t.field.run h).queued = true ∨ (t.field.run h).inFlight = true)
    ∧ ∀ o, origin = some o → let q := (s.field.sxeAt n).queue ++ [⟨h, a, o⟩]
      (t.field.sxeAt n).queue = q ∨ (t.field.sxeAt n).queue = q.tail

/-- What a BUSY to the MOVE-AIM of aim `a` makes of the record `seen` that its status has left (R69). -/
def State.BusyTaken (s t : State) (n : Fin 4) (h a : Nat) (origin : Option Origin) (cause : Option Cause) (seen : HelioRun) : Prop :=
  (seen.owed = none → seen.busyCount = 0 → (s.field.sxeAt n).queue.length < 64 →
      s.AnswerMade t n h cause { seen with busyCount := 1, queued := true } ∧ s.Requeued t n h a origin)
    ∧ (seen.owed = none → seen.busyCount ≠ 0 ∨ 64 ≤ (s.field.sxeAt n).queue.length →
      s.AnswerMade t n h (some .busy) seen.grantUndone ∧ s.SettleSetsHear t h a true)
    ∧ (seen.owed.isSome = true → s.AnswerMade t n h cause seen)

section Waits
variable {edit : Env → Field → Edit → Edit} (hx : s.Aiming n x a) (hkeeps : EditKeeps edit)
  (hst : (s.statused st (s.field.run x.helio)).state = .slewing) (found : Option Finding)
include hx hkeeps hst

/-- The first BUSY, with room in the Move Queue. -/
theorem State.requeued_of (hk : x.kind = .moveAim origin) (hroom : (s.field.sxeAt n).queue.length < 64)
    (hout : s.outcomeOf n x edit = (s.statusEdit n x.helio st).requeued) :
    s.AnswerMade (s.endExchange n x found edit) n x.helio none { s.statused st (s.field.run x.helio) with busyCount := 1, queued := true }
      ∧ s.Requeued (s.endExchange n x found edit) n x.helio a origin := by
  obtain ⟨her, hease, haim, hdrop⟩ := hx.eased st
  have hease1 : (s.field.run x.helio).Eases (s.outcomeOf n x edit).r := by
    rw [hout]
    exact hease.trans (.of_same (.refl _) rfl (Or.inr rfl) Or.inl)
  have hrec : (s.outcomeOf n x edit).r =
      ({ s.statused st (s.field.run x.helio) with busyCount := 1, queued := true } : HelioRun).stamped s.now := by
    rw [hout, Edit.requeued, her]
    rfl
  have hended := State.ended_of_eases (n := n) hx.sound hx.settled hx.lt hkeeps hease1 found
  obtain ⟨hmarked, hwritten⟩ := State.written_of_eases (n := n) hx.sound hx.settled hx.lt hkeeps hease1
  have hclosed := s.endExchange_closed n x found edit
  have hsame : ((s.endedField n).sxeAt n).queue = (s.field.sxeAt n).queue := s.queue_endedField n n
  have hqueue : ((s.concludedField n x edit).sxeAt n).queue = (s.field.sxeAt n).queue ++ [⟨x.helio, a, x.kind.origin⟩] := by
    rw [hmarked.sxeAt, ← hsame]
    refine Work.queue_requeued (w := Work.of (s.endedField n)) ?_ ?_ ?_ hx.segment (by rw [← hsame] at hroom; exact hroom)
    · rw [hout]
      exact hdrop
    · rw [hout]
      rfl
    · rw [hrec]
      exact haim.granted (Or.inl hst)
  refine ⟨?_, ?_, fun o ho => ?_⟩
  · rw [hrec] at hended
    exact hended.made
  · refine (hclosed.skipped (Or.inr (Or.inl (by rw [hx.slewing]; exact nofun)))).2.begun ?_
    have h1 := hwritten.record
    rw [hrec] at h1
    exact congrArg HelioRun.queued h1
  · have h1 : (((s.endExchange n x found edit).field.sxeAt n).queue = ((s.concludedField n x edit).sxeAt n).queue
      ∨ ((s.endExchange n x found edit).field.sxeAt n).queue = ((s.concludedField n x edit).sxeAt n).queue.tail) := (hclosed.sxe n).2
    rw [hqueue, hk, ho] at h1
    exact h1

/-- The second BUSY, or the first where the Move Queue is full. -/
theorem State.revoked_of (hout : s.outcomeOf n x edit = (s.statusEdit n x.helio st).revoke .busy) :
    let seen := s.statused st (s.field.run x.helio)
    s.AnswerMade (s.endExchange n x found edit) n x.helio none (seen.by (some .busy) seen.grantUndone)
      ∧ s.SettleSetsHear (s.endExchange n x found edit) x.helio a true := by
  intro seen
  obtain ⟨her, hease, haim, -⟩ := hx.eased st
  have hrec : (s.outcomeOf n x edit).r = (seen.by (some .busy) seen.grantUndone).stamped s.now := by
    rw [hout, Edit.revoke_r, her, HelioRun.grantUndone_stamped, HelioRun.by_stamped]
  have hease1 : (s.field.run x.helio).Eases (s.outcomeOf n x edit).r := by
    rw [hout, Edit.revoke_r]
    exact hease.trans ((HelioRun.eases_undone (by rw [her]; exact hst)).by _ _)
  have hrevoked : (s.outcomeOf n x edit).revoked = some (a, true) := by
    have hg : (s.statusEdit n x.helio st).r.granted = some a := by
      rw [her]
      exact haim.granted (Or.inl hst)
    rw [hout, Edit.revoke, hg]
    rfl
  have hended := State.ended_of_eases (n := n) hx.sound hx.settled hx.lt hkeeps hease1 found
  rw [hrec] at hended
  exact ⟨hended.made, State.hears_of_eases hx.sound hx.settled hx.lt hkeeps hease1 (by rw [hx.slewing]; exact nofun) hrevoked found⟩

end Waits

/-- What a BUSY with status `st` to the MOVE-AIM of aim `a` does, once its status has been applied (R69, R76). -/
theorem State.busyAim (hx : s.Aiming n x a) (hk : x.kind = .moveAim origin) (st : Status) (found : Option Finding) :
    let t := s.endExchange n x found fun env f e => e.answer env f n x.kind (.busy st)
    let seen := s.statused st (s.field.run x.helio)
    let waits : Prop := seen.state = .slewing ∧ seen.accepted = false ∧ seen.owed = none
    (waits → seen.busyCount = 0 → (s.field.sxeAt n).queue.length < 64 →
        s.AnswerMade t n x.helio none { seen with busyCount := 1, queued := true } ∧ s.Requeued t n x.helio a origin)
      ∧ (waits → seen.busyCount ≠ 0 ∨ 64 ≤ (s.field.sxeAt n).queue.length →
        s.AnswerMade t n x.helio none (seen.by (some .busy) seen.grantUndone) ∧ s.SettleSetsHear t x.helio a true)
      ∧ (¬ waits → s.AnswerMade t n x.helio none seen) := by
  intro t seen waits
  obtain ⟨her, hease, -, -⟩ := hx.eased st
  have hkeeps := editKeeps_answer n x.kind (.busy st)
  have hwaits : (s.statusEdit n x.helio st).r.state = .slewing ∧ (s.statusEdit n x.helio st).r.accepted = false
      ∧ (s.statusEdit n x.helio st).r.owed = none ↔ waits := by rw [her]; rfl
  have hbusy : (s.statusEdit n x.helio st).r.busyCount = seen.busyCount := by rw [her]; rfl
  refine ⟨fun hw hb hroom => State.requeued_of hx hkeeps hw.1 found hk hroom ((State.outcome_busyAim hk st).trans ?_),
    fun hw hb => State.revoked_of hx hkeeps hw.1 found ((State.outcome_busyAim hk st).trans ?_), fun hw => ?_⟩
  · exact (if_pos (hwaits.2 hw)).trans (if_pos ⟨hbusy.trans hb, hroom⟩)
  · exact (if_pos (hwaits.2 hw)).trans (if_neg (by rw [hbusy]; omega))
  · have hout := (State.outcome_busyAim (s := s) (n := n) hk st).trans (if_neg (mt hwaits.1 hw))
    rw [← hout] at her hease
    have hended := State.ended_of_eases (n := n) hx.sound hx.settled hx.lt hkeeps hease found
    rw [her] at hended
    exact hended.made

/-! ### A status that leaves the grant waiting (R69) -/

theorem HelioRun.by_requeued (c : Option Cause) (old new : HelioRun) (k : Nat) :
    old.by c { new with busyCount := k, queued := true } = { old.by c new with busyCount := k, queued := true } := by
  unfold HelioRun.by
  rw [show old.differs { new with busyCount := k, queued := true } = old.differs new from rfl]
  split <;> rfl

theorem HelioRun.grantUndone_lastCause (y : Option Cause) (r : HelioRun) :
    ({ r with lastCause := y } : HelioRun).grantUndone = { r.grantUndone with lastCause := y } := by
  unfold HelioRun.grantUndone
  cases r.leaving <;> rfl

/-- Of a status and the revocation after it, the revocation's cause is the last (log entry 12). -/
theorem HelioRun.by_undone {old new : HelioRun} (ho : old.state = .slewing) (hn : new.state = .slewing) (c : Option Cause) (k : Cause) :
    (old.by c new).by (some k) (old.by c new).grantUndone = old.by (some k) new.grantUndone := by
  obtain ⟨y, hy⟩ := HelioRun.by_cause c old new
  have hundone : (old.by c new).grantUndone = { new.grantUndone with lastCause := y } := by
    rw [hy, HelioRun.grantUndone_lastCause]
  have hmoved : HState.slewing ≠ new.grantUndone.state := hn ▸ HelioRun.grantUndone_moves hn
  rw [hundone, HelioRun.by_of_differs (HelioRun.differs_of_state (by rw [hy, hn]; exact hmoved)),
    HelioRun.by_of_differs (HelioRun.differs_of_state (by rw [ho]; exact hmoved))]

/-- A BUSY whose status leaves the record SLEWING, its move not yet accepted. -/
theorem State.busyTaken_of {c : Option Cause} (hx : s.Aiming n x a) (hk : x.kind = .moveAim origin)
    (hseen : s.statused st (s.field.run x.helio) = (s.field.run x.helio).by c off) (hst : off.state = .slewing) (hacc : off.accepted = false)
    (found : Option Finding) :
    s.BusyTaken (s.endExchange n x found fun env f e => e.answer env f n x.kind (.busy st)) n x.helio a origin c off := by
  obtain ⟨h1, h2, h3⟩ := State.busyAim hx hk st found
  rw [hseen] at h1 h2 h3
  obtain ⟨y, hy⟩ := HelioRun.by_cause c (s.field.run x.helio) off
  have hwaits : off.owed = none → ((s.field.run x.helio).by c off).state = .slewing ∧ ((s.field.run x.helio).by c off).accepted = false
      ∧ ((s.field.run x.helio).by c off).owed = none := fun ho => by
    rw [hy]
    exact ⟨hst, hacc, ho⟩
  have hbusy : ((s.field.run x.helio).by c off).busyCount = off.busyCount := by rw [hy]
  rw [hbusy] at h1 h2
  rw [HelioRun.by_undone hx.slewing hst] at h2
  rw [← HelioRun.by_requeued] at h1
  refine ⟨fun ho hb hl => ?_, fun ho hb => ?_, fun ho => (h3 fun hw => ?_).of_by⟩
  · obtain ⟨hm, hq⟩ := h1 (hwaits ho) hb hl
    exact ⟨hm.of_by, hq⟩
  · obtain ⟨hm, hh⟩ := h2 (hwaits ho) hb
    exact ⟨hm.of_by, hh⟩
  · have hnone := hw.2.2
    rw [hy] at hnone
    rw [show off.owed = none from hnone] at ho
    cases ho

end Sys2Proof.Machine
end

section
/-! PROOFS for segment exchanges: what a status without flags makes of a grant whose move is not yet accepted (R69, R77, R78, R80). -/

namespace Sys2Proof.Machine

variable {s t : State} {g h a b : Nat} {r mid new : HelioRun} {st : Status} {p : Position} {k c : Cause}

/-! ### Two changes in one (log entry 12) -/

theorem HelioRun.by_again (h1 : r.differs new = true) (h2 : mid.differs new = true) :
    (mid.caused k).by (some c) (new.caused k) = r.by (some c) new := by
  rw [HelioRun.by_of_differs h1, HelioRun.by_of_differs (old := mid.caused k) (new := new.caused k) h2]
  rfl

theorem HelioRun.by_same (h1 : r.differs new = true) : (mid.caused k).by (some k) (new.caused k) = r.by (some k) new := by
  rw [HelioRun.by_of_differs h1, HelioRun.by_caused]
  rfl

section Unaccepted
variable (hst : r.state = .slewing) (hacc : r.accepted = false) (hg : r.granted = some a)
include hst hacc

theorem State.placed_slewing (p : Position) : s.placed p r = s.placedUnaccepted p r := by
  unfold State.placed
  rw [hst]
  exact if_neg (by rw [hacc]; exact Bool.false_ne_true)

theorem State.statused_clear (hp : r.Plain st) (hc : st.position = .clear) :
    s.statused st r = r.by r.motionCause { r with leaving := none } := by
  refine State.statused_of_placed hp ?_ (Or.inl (by rw [hst]; exact ⟨nofun, nofun⟩))
  rw [State.placed_slewing hst hacc, hc]
  rfl

include hg

/-- The move is under way (R78). -/
theorem State.statused_underWay (hp : r.Plain st) (hm : st.position = .moving true false a) :
    s.statused st r = r.by none (r.underWay s.now s.live.slewLimit) := by
  refine State.statused_of_placed hp ?_ (Or.inl ?_)
  · rw [State.placed_slewing hst hacc, hm, HelioRun.by_none]
    exact if_pos ⟨rfl, rfl, hg⟩
  · rw [show (r.underWay s.now s.live.slewLimit).state = .slewing from hst]
    exact ⟨nofun, nofun⟩

/-- The move is done (R77, R78). -/
theorem State.statused_arrived (hp : r.Plain st) (ha : st.position = .onAim a) :
    s.statused st r = r.by r.motionCause (r.underWay s.now s.live.slewLimit).arrived := by
  refine State.statused_of_placed hp ?_ (Or.inl ⟨nofun, nofun⟩)
  rw [State.placed_slewing hst hacc, ha]
  exact if_pos hg

/-- The drive stands where neither the grant nor its record puts it (R78). -/
theorem State.placed_elsewhereUnaccepted (hm : p ≠ .moving true false a) (ha : p ≠ .onAim a) (hc : p ≠ .clear) (hn : ¬ p.Agrees s.live r) :
    s.placed p r = s.placedOff p r := by
  have hrest : ∀ place : Rest, p = place.position → ¬ (r.reAim = false ∧ r.rest = place) := fun place hpl ⟨h1, h2⟩ => by
    refine hn ?_
    unfold Position.Agrees
    rw [hst]
    refine Or.inr (Or.inr (Or.inr ⟨hacc, h1, ?_⟩))
    cases place
    · exact Or.inl ⟨hpl, h2⟩
    · exact Or.inr ⟨hpl, h2⟩
  rw [State.placed_slewing hst hacc]
  unfold State.placedUnaccepted
  cases p with
  | onAim b =>
    have hb : r.granted ≠ some b := fun h1 => ha (by rw [Option.some.inj (h1.symm.trans hg)])
    refine (if_neg hb).trans (if_neg fun h1 => hn ?_)
    unfold Position.Agrees
    rw [hst]
    exact Or.inl ⟨b, rfl, h1, hb⟩
  | moving u v b =>
    refine if_neg fun ⟨h1, h2, h3⟩ => hm ?_
    rw [h1, h2, Option.some.inj (h3.symm.trans hg)]
  | clear => exact absurd rfl hc
  | atStandby => exact if_neg (hrest .standby rfl)
  | stowed => exact if_neg (hrest .stowed rfl)

theorem State.statused_owing (hq : r.queued = false) (hp : r.Plain st) (hm : st.position ≠ .moving true false a)
    (ha : st.position ≠ .onAim a) (hc : st.position ≠ .clear) (hn : ¬ st.position.Agrees s.live r) :
    s.statused st r = r.by (some .driveLeft) (r.owing .driveLeft) := by
  refine State.statused_of_placed hp ?_ (Or.inr (Or.inl (HelioRun.owing_fields _ _).1))
  rw [State.placed_elsewhereUnaccepted hst hacc hg hm ha hc hn]
  exact if_neg (by rw [hq]; exact Bool.false_ne_true)

end Unaccepted

/-! ### A queued heliostat whose drive stands elsewhere (R12, R77, R80) -/

/-- The record of a heliostat adopted onto aim point `a`, with the DEFOCUS that it then owes (R43, R45, R155). -/
def State.adoptedRecord (s : State) (a : Nat) (r : HelioRun) : HelioRun :=
  ((s.adoptionOwes a r).map fun c => (r.adoptedOn a).owing c).getD (r.adoptedOn a)

theorem State.adoptedBy_eq (s : State) (a : Nat) (r : HelioRun) : s.adoptedBy a r = r.by (some .adopted) (s.adoptedRecord a r) := by
  unfold State.adoptedBy State.adoptedRecord
  cases s.adoptionOwes a r <;> rfl

theorem State.adoptedRecord_caused (s : State) (a : Nat) (k : Cause) (r : HelioRun) :
    s.adoptedRecord a (r.caused k) = (s.adoptedRecord a r).caused k := by
  have hsame : s.adoptionOwes a (r.caused k) = s.adoptionOwes a r := rfl
  unfold State.adoptedRecord
  rw [hsame]
  cases s.adoptionOwes a r with
  | none => rfl
  | some c => exact HelioRun.owing_caused k c (r.adoptedOn a)

theorem State.adoptedRecord_state (s : State) (a : Nat) (r : HelioRun) : (s.adoptedRecord a r).state = .tracking := by
  unfold State.adoptedRecord
  cases s.adoptionOwes a r with
  | none => rfl
  | some c => exact (HelioRun.owing_fields c (r.adoptedOn a)).1

theorem State.adoptedRecord_granted (s : State) (a : Nat) (r : HelioRun) : (s.adoptedRecord a r).granted = some a := by
  unfold State.adoptedRecord
  cases s.adoptionOwes a r with
  | none => rfl
  | some c => exact (HelioRun.owing_fields c (r.adoptedOn a)).2.1

theorem HelioRun.restedAt_resting (place : Rest) (r : HelioRun) : (r.restedAt place).state ≠ .slewing := by
  cases place <;> exact nofun

theorem Rest.eq_of_state : ∀ {q q' : Rest}, q.state = q'.state → q = q'
  | .standby, .standby, _ | .stowed, .stowed, _ => rfl

/-- Where a heliostat that rests is found (R80). -/
theorem State.placedAtRest_resting (s : State) {r : HelioRun} {place : Rest} (hr : r.state = place.state) :
    (∀ u v b, s.placedAtRest (.moving u v b) r = r.by (some .survey) { r with state := .unsure })
      ∧ (∀ b, s.placedAtRest (.onAim b) r = s.foundOn b r)
      ∧ ∀ q : Rest, s.placedAtRest q.position r = r.by (some .survey) (r.restedAt q) := by
  unfold State.placedAtRest
  rw [hr]
  cases place
  · exact ⟨fun _ _ _ => rfl, fun _ => rfl, fun q => by cases q <;> rfl⟩
  · exact ⟨fun _ _ _ => rfl, fun _ => rfl, fun q => by cases q <;> rfl⟩

section Queued
variable (hst : r.state = .slewing) (hacc : r.accepted = false) (hq : r.queued = true)
include hst

theorem HelioRun.differs_of_slewing (hs : new.state ≠ .slewing) : r.differs new = true :=
  HelioRun.differs_of_state (by rw [hst]; exact fun h => hs h.symm)

include hq

/-- The revocation comes first, and the position is then that of a heliostat back on its old aim, or at rest. -/
theorem State.placedOff_queued (p : Position) : s.placedOff p r = if r.leaving.isSome then (r.grantUndone.caused .driveLeft).placedTracking p
    else s.placedAtRest p (r.grantUndone.caused .driveLeft) := by
  have hundone : r.by (some .driveLeft) r.grantUndone = r.grantUndone.caused .driveLeft :=
    HelioRun.by_of_differs (HelioRun.differs_of_state (HelioRun.grantUndone_moves hst))
  have hstate : (r.grantUndone.caused .driveLeft).state = if r.leaving.isSome then .tracking else r.rest.state := r.grantUndone_fields.2.2.2.2
  unfold State.placedOff
  rw [if_pos hq]
  dsimp only
  rw [hundone, hstate]
  cases r.leaving with
  | none => exact (if_neg (by cases r.rest <;> exact nofun)).trans (if_neg (by exact nofun)).symm
  | some b => rfl

/-- A re-aim whose grant is revoked is TRACKING its old aim, and the position is judged so (R77). -/
theorem State.placedOff_reAim (hl : r.leaving = some b) (hb : p ≠ .onAim b) (hc : p ≠ .clear) :
    (∀ place : Rest, p = place.position → s.placedOff p r = r.by (some .driveLeft) (r.grantUndone.restedAt place))
      ∧ (p = .moving true false b → s.placedOff p r = r.by (some .driveLeft) r.grantUndone)
      ∧ ((∀ place : Rest, p ≠ place.position) → p ≠ .moving true false b →
        s.placedOff p r = r.by (some .driveLeft) (r.grantUndone.owing .driveLeft)) := by
  have hgr : (r.grantUndone.caused .driveLeft).granted = some b := (HelioRun.granted_grantUndone r).trans hl
  have hstate : r.grantUndone.state = .tracking := by
    rw [r.grantUndone_fields.2.2.2.2, hl]
    rfl
  have hplaced : s.placedOff p r = (r.grantUndone.caused .driveLeft).placedTracking p := by
    rw [State.placedOff_queued hst hq, hl]
    rfl
  have howing : (r.grantUndone.caused .driveLeft).by (some .driveLeft) ((r.grantUndone.caused .driveLeft).owing .driveLeft) =
      r.by (some .driveLeft) (r.grantUndone.owing .driveLeft) := by
    rw [HelioRun.owing_caused]
    refine HelioRun.by_same (HelioRun.differs_of_slewing hst ?_)
    rw [(HelioRun.owing_fields _ _).1, hstate]
    exact nofun
  refine ⟨fun place hpl => ?_, fun hm => ?_, fun hpl hm => ?_⟩
  · rw [hplaced, hpl]
    have hsame : (r.grantUndone.caused .driveLeft).by (some .driveLeft) ((r.grantUndone.restedAt place).caused .driveLeft) =
        r.by (some .driveLeft) (r.grantUndone.restedAt place) := HelioRun.by_same (HelioRun.differs_of_slewing hst (HelioRun.restedAt_resting place _))
    cases place <;> exact hsame
  · rw [hplaced, hm, HelioRun.by_of_differs (HelioRun.differs_of_state (HelioRun.grantUndone_moves hst))]
    exact if_pos ⟨rfl, rfl, hgr⟩
  · rw [hplaced]
    cases p with
    | onAim c =>
      refine (if_neg fun h1 => hb ?_).trans howing
      rw [Option.some.inj (h1.symm.trans hgr)]
    | moving u v c =>
      refine (if_neg fun ⟨h1, h2, h3⟩ => hm ?_).trans howing
      rw [h1, h2, Option.some.inj (h3.symm.trans hgr)]
    | clear => exact absurd rfl hc
    | atStandby => exact absurd rfl (hpl .standby)
    | stowed => exact absurd rfl (hpl .stowed)

/-- A grant from rest that is revoked is at rest, and the position is judged so (R80). -/
theorem State.placedOff_rest (hgood : r.Good) (hf : r.fault = none) (hl : r.leaving = none) :
    (∀ u v b, p = .moving u v b → s.placedOff p r = r.by (some .survey) { r.grantUndone with state := .unsure })
      ∧ (∀ b, p = .onAim b → (s.live.aimAt b).present = true →
        s.placedOff p r = r.by (some .adopted) (s.adoptedRecord b r.grantUndone))
      ∧ (∀ b, p = .onAim b → (s.live.aimAt b).present = false →
        s.placedOff p r = r.by (some .survey) (r.grantUndone.lostOff.owing .survey))
      ∧ ∀ place : Rest, p = place.position →
        s.placedOff p r = r.by (some (if place = r.rest then .driveLeft else .survey)) (r.grantUndone.restedAt place) := by
  have hstate : r.grantUndone.state = r.rest.state := by
    rw [r.grantUndone_fields.2.2.2.2, hl]
    rfl
  have hgr : r.grantUndone.granted = none := (HelioRun.granted_grantUndone r).trans hl
  have hplaced : s.placedOff p r = s.placedAtRest p (r.grantUndone.caused .driveLeft) := by
    rw [State.placedOff_queued hst hq, hl]
    rfl
  obtain ⟨hmoving, honAim, hrested⟩ := s.placedAtRest_resting (r := r.grantUndone.caused .driveLeft) hstate
  have hfound : ∀ new : HelioRun, new.state ≠ .slewing → new.state ≠ r.rest.state → ∀ c : Cause,
      (r.grantUndone.caused .driveLeft).by (some c) (new.caused .driveLeft) = r.by (some c) new := fun new h1 h2 c =>
    HelioRun.by_again (HelioRun.differs_of_slewing hst h1) (HelioRun.differs_of_state (by rw [hstate]; exact h2.symm))
  have hrest : ∀ st : HState, st = .unsure ∨ st = .tracking ∨ st = .lost → st ≠ .slewing ∧ st ≠ r.rest.state := fun st h1 => by
    rcases h1 with h1 | h1 | h1 <;> rw [h1] <;> cases r.rest <;> exact ⟨nofun, nofun⟩
  refine ⟨fun u v b hp => ?_, fun b hp hpr => ?_, fun b hp hpr => ?_, fun place hp => ?_⟩
  · rw [hplaced, hp, hmoving]
    exact hfound { r.grantUndone with state := .unsure } nofun (hrest _ (Or.inl rfl)).2 .survey
  · have hs := State.adoptedRecord_state s b r.grantUndone
    obtain ⟨h1, h2⟩ := hrest _ (Or.inr (Or.inl hs))
    rw [hplaced, hp, honAim, State.foundOn, if_pos hpr, State.adoptedBy_eq, State.adoptedRecord_caused]
    exact hfound _ h1 h2 .adopted
  · have hs : (r.grantUndone.lostOff.owing .survey).state = .lost := (HelioRun.owing_fields _ _).1
    obtain ⟨h1, h2⟩ := hrest _ (Or.inr (Or.inr hs))
    have hcause : (r.grantUndone.caused .driveLeft).faultOr .survey = .survey := by
      unfold HelioRun.faultOr
      rw [show (r.grantUndone.caused .driveLeft).fault = none from r.grantUndone_fields.2.2.1.trans hf]
      rfl
    rw [hplaced, hp, honAim, State.foundOn, if_neg (by rw [hpr]; exact Bool.false_ne_true), hcause]
    refine Eq.trans ?_ (hfound _ h1 h2 .survey)
    exact congrArg _ (HelioRun.owing_caused .driveLeft .survey r.grantUndone.lostOff)
  · rw [hplaced, hp, hrested]
    by_cases hpl : place = r.rest
    · have hown : r.grantUndone.restedAt place = r.grantUndone := hpl ▸ hgood.grantUndone.2.restedAt_eq hstate
      rw [if_pos hpl, show (r.grantUndone.caused .driveLeft).restedAt place = (r.grantUndone.restedAt place).caused .driveLeft from rfl, hown,
        HelioRun.by_self, HelioRun.by_of_differs (HelioRun.differs_of_state (HelioRun.grantUndone_moves hst))]
      rfl
    · rw [if_neg hpl]
      exact hfound (r.grantUndone.restedAt place) (HelioRun.restedAt_resting place _) (fun h1 => hpl (Rest.eq_of_state h1)) .survey

end Queued

end Sys2Proof.Machine
end

section
/-! PROOFS for segment exchanges: REJECT and BUSY to a MOVE-AIM, and a status before the move is accepted (R69, R70, R78, R120). -/

namespace Sys2Proof.Machine

variable {s t : State} {env : Env} {f : Field} {n : Fin 4} {x : Exchange} {g h a b : Nat} {e : Edit} {w : Work} {o : Origin}
  {edit : Env → Field → Edit → Edit} {found : Option Finding} {r new off : HelioRun} {c : Option Cause} {origin : Option Origin}
  {st : Status} {code : Byte} {p : Position}

/-! ### The entry of a grant that is no longer queued (R58) -/

/-- An outcome that leaves its heliostat unqueued has taken its entry from the Move Queue. -/
theorem Work.no_entry_applied (hno : r.queued = false → ∀ en ∈ (w.fld.sxeAt n).queue, en.helio ≠ h) (hseg : env.segmentOf h = n)
    (he : e.Faithful r) (hq : e.r.queued = false) {en : Entry} (hm : en ∈ ((w.applyEdit env h e o).fld.sxeAt n).queue) : en.helio ≠ h := by
  obtain ⟨ts, hts⟩ := Work.followRevoked_others h e.revoked (if e.newest then (w.outcome env h e).toNewest h else w.outcome env h e)
  obtain ⟨l, hl⟩ := Work.toNewest_others h e.newest (w.outcome env h e)
  rw [Work.fld_applyEdit he.stays, hts, hl] at hm
  have hm1 : en ∈ ((w.outcome env h e).fld.sxeAt n).queue := hm
  unfold Work.outcome at hm1
  rw [Work.sxeAt_write] at hm1
  cases hd : e.drop with
  | true =>
    obtain ⟨b, hb⟩ := Field.sxeAt_dropEntry n.isLt h w.fld n
    rw [hd, if_pos rfl, Work.dropEntry, hseg, hb, if_pos rfl] at hm1
    simpa using (List.mem_filter.1 hm1).2
  | false =>
    rw [hd, if_neg Bool.false_ne_true] at hm1
    refine hno ?_ en hm1
    by_contra hc
    rw [he.leaves (by simpa using hc) hq] at hd
    cases hd

theorem State.no_entry (hl : s.field.LinesExact s.env) (hseg : s.env.segmentOf x.helio = n)
    (he : (s.outcomeOf n x edit).Faithful ((s.field.run x.helio).stamped s.now)) (hq : (s.outcomeOf n x edit).r.queued = false)
    (found : Option Finding) : ∀ en ∈ ((s.endExchange n x found edit).field.sxeAt n).queue, en.helio ≠ x.helio := by
  intro en hm
  have hclosed : en ∈ ((s.concludedField n x edit).sxeAt n).queue := by
    rcases ((s.endExchange_closed n x found edit).sxe n).2 with h1 | h1
    · rw [h1] at hm
      exact hm
    · rw [h1] at hm
      exact List.mem_of_mem_tail hm
  refine Work.no_entry_applied (fun hr => ?_) hseg he hq (Work.queue_conclude hclosed)
  rw [show ((Work.of (s.endedField n)).fld.sxeAt n).queue = (s.field.sxeAt n).queue from s.queue_endedField n n]
  exact hl.no_entry hr

/-! ### The answer to a QUERY -/

theorem State.outcome_query (hk : x.kind = .query) (st : Status) :
    s.outcomeOf n x (fun env f e => e.answer env f n x.kind (.status st)) = s.statusEdit n x.helio st := by
  unfold State.outcomeOf Edit.answer
  rw [hk]
  rfl

/-- The adoption of a heliostat whose record `r` another change of the same answer has left (R43, R45, R155). -/
theorem State.StatusTaken.adoptedAs (ht : s.StatusTaken t g h st)
    (hx : s.statused st (s.field.run h) = (s.field.run h).by (some .adopted) (s.adoptedRecord a r)) (hg : (s.field.run h).granted ≠ some a)
    (hl : (s.field.run h).leaving ≠ some a) : s.Adopted t g h a r := by
  have hdiff : ∀ k, (s.field.run h).differs ((r.adoptedOn a).owing k) = true := fun k =>
    HelioRun.differs_of_granted (by rw [(HelioRun.owing_fields _ _).2.1]; exact hg.symm)
  refine ⟨ht.newest a (by rw [hx, HelioRun.by_granted, State.adoptedRecord_granted]) hg hl, ?_⟩
  unfold State.adoptedRecord at hx
  cases ho : s.adoptionOwes a r with
  | some k =>
    rw [ho] at hx
    exact ht.made_of hx (Or.inl (HelioRun.owing_owed k (r.adoptedOn a)))
  | none =>
    have hform : s.statused st (s.field.run h) = (s.field.run h).by (some .adopted) (r.adoptedOn a) := by rw [hx, ho]; rfl
    obtain ⟨y, hy⟩ := HelioRun.by_cause (some .adopted) (s.field.run h) (r.adoptedOn a)
    have hm := ht.made
    rw [hform] at hm
    rcases hm with hm | ⟨-, howed, -, -, hm⟩
    · exact Or.inl hm.of_by
    · rw [hy] at howed hm
      rw [HelioRun.owing_lastCause] at hm
      exact Or.inr ⟨howed, hm.of_lastCause (hdiff .shed)⟩

theorem State.statusTaken_of {frame : List Byte} {fr : SegFrame} (hd : s.AnswerDue n x frame fr) (hk : x.kind = .query)
    (ha : readAnswer fr.kind fr.params = some (.status st)) (hs : s.Sound) (hz : s.ZonesSettled) (hl : s.field.LinesExact s.env)
    (ht : s.field.Tidy) :
    s.StatusTaken (s.endExchange n x ((Answer.status st).finding s.env) fun env f e => e.answer env f n x.kind (.status st)) n x.helio st := by
  obtain ⟨t, h1, h2⟩ := State.status_taken hd hk ha hs hz hl ht
  have h3 := (State.exec_answer hd ha (by rw [hk]; rfl)).symm.trans h1
  rw [Host.Outcome.next.inj h3]
  exact h2

/-! ### The move shown under way, or done (R69, R78) -/

theorem State.no_entry_status (hl : s.field.LinesExact s.env) (hseg : s.env.segmentOf x.helio = n) (hg : (s.field.run x.helio).Good)
    (hst : (s.field.run x.helio).state = .slewing) (hout : s.outcomeOf n x edit = s.statusEdit n x.helio st)
    (hq : (s.statused st (s.field.run x.helio)).queued = false) (found : Option Finding) :
    ∀ en ∈ ((s.endExchange n x found edit).field.sxeAt n).queue, en.helio ≠ x.helio := by
  refine State.no_entry hl hseg ?_ ?_ found
  · rw [hout]
    exact State.statusEdit_faithful hg hst n st
  · rw [hout, (State.statusEdit_traced hg n st).2]
    exact hq

/-- A status that takes the granted aim away leaves the record unqueued. -/
theorem State.statused_unqueued (hg : (s.field.run h).Good) (hst : (s.field.run h).state = .slewing)
    (hn : (s.statused st (s.field.run h)).granted ≠ (s.field.run h).granted) : (s.statused st (s.field.run h)).queued = false := by
  by_contra hq
  obtain ⟨-, -, hkept⟩ := (State.statusEdit_faithful hg hst 0 st).queued (by
    rw [(State.statusEdit_traced hg 0 st).2]
    simpa using hq)
  rw [(State.statusEdit_traced hg 0 st).2] at hkept
  exact hn hkept

/-- A status, of a QUERY or of a BUSY, that takes the grant out of its wait. -/
theorem State.aim_shown {frame : List Byte} {fr : SegFrame} {answer : Answer} (hd : s.AnswerDue n x frame fr)
    (ha : readAnswer fr.kind fr.params = some answer)
    (hkind : (answer = .busy st ∧ x.kind = .moveAim origin) ∨ (answer = .status st ∧ x.kind = .query))
    (hs : s.Sound) (hz : s.ZonesSettled) (hl : s.field.LinesExact s.env) (ht : s.field.Tidy)
    (hst : (s.field.run x.helio).state = .slewing) (hg : (s.field.run x.helio).granted = some a)
    (hseen : s.statused st (s.field.run x.helio) = (s.field.run x.helio).by c new) (hw : new.state = .slewing → new.accepted = true)
    (hq : new.queued = false) (hgr : new.granted = (s.field.run x.helio).granted) :
    let t := s.endExchange n x (answer.finding s.env) fun env f e => e.answer env f n x.kind answer
    s.AnswerMade t n x.helio c new ∧ ∀ en ∈ (t.field.sxeAt n).queue, en.helio ≠ x.helio := by
  intro t
  have ⟨_, hx, _⟩ := hd
  have hgood : (s.field.run x.helio).Good := ⟨hs.records x.helio, ht.records x.helio⟩
  obtain ⟨-, her⟩ := State.statusEdit_traced hgood n st
  have hqueued : (s.statused st (s.field.run x.helio)).queued = false := by
    rw [hseen, HelioRun.by_queued]
    exact hq
  have hseg := (hl.exchange n x hx).1
  obtain ⟨y, hy⟩ := HelioRun.by_cause c (s.field.run x.helio) new
  rcases hkind with ⟨rfl, hk⟩ | ⟨rfl, hk⟩
  · have hwaits : ¬ ((s.statused st (s.field.run x.helio)).state = .slewing ∧ (s.statused st (s.field.run x.helio)).accepted = false
        ∧ (s.statused st (s.field.run x.helio)).owed = none) := by
      rw [hseen, hy]
      rintro ⟨h1, h2, -⟩
      rw [show new.accepted = true from hw h1] at h2
      cases h2
    have hwaits1 : ¬ ((s.statusEdit n x.helio st).r.state = .slewing ∧ (s.statusEdit n x.helio st).r.accepted = false
        ∧ (s.statusEdit n x.helio st).r.owed = none) := by
      rw [her]
      exact hwaits
    have hmade := (State.busyAim (State.aiming_of hs hz hl ht hx hk hst hg) hk st ((Answer.busy st).finding s.env)).2.2 hwaits
    rw [hseen] at hmade
    exact ⟨hmade.of_by, State.no_entry_status hl hseg hgood hst ((State.outcome_busyAim hk st).trans (if_neg hwaits1)) hqueued _⟩
  · exact ⟨(State.statusTaken_of hd hk ha hs hz hl ht).made_of hseen (Or.inr (Or.inr (Or.inl hgr))),
      State.no_entry_status hl hseg hgood hst (State.outcome_query hk st) hqueued _⟩

/-! ### A queued heliostat whose drive stands elsewhere (R78, R120) -/

theorem HelioRun.owing_fault (k : Cause) (r : HelioRun) : (r.owing k).fault = r.fault := by
  unfold HelioRun.owing
  split <;> rfl

/-- A heliostat found on the aim that it leaves is where its record says. -/
theorem Position.not_onAim_of_disagrees {live : Tables} (hgood : r.Good) (hst : r.state = .slewing) (hn : ¬ p.Agrees live r)
    (hl : r.leaving = some b) : p ≠ .onAim b := fun h1 => hn (by
  unfold Position.Agrees
  rw [hst]
  exact Or.inl ⟨b, h1, hl, fun h2 => (hgood.sound.2.1 (by rw [hl]; rfl)).2 (h2.trans hl.symm)⟩)

section Queued
variable (hst : r.state = .slewing) (hg : r.granted = some a) (hq : r.queued = true) (hgood : r.Good) (hf : r.fault = none)
  (ha : p ≠ .onAim a) (hc : p ≠ .clear)
include hst hg hq hgood hf ha hc

/-- The grant is gone, wherever the drive is found. -/
theorem State.placedOff_granted (hb : ∀ b, r.leaving = some b → p ≠ .onAim b) : (s.placedOff p r).granted ≠ some a := by
  have hundone := HelioRun.granted_grantUndone r
  cases hl : r.leaving with
  | none =>
    obtain ⟨hmoving, hpresent, habsent, hrested⟩ := State.placedOff_rest (s := s) (p := p) hst hq hgood hf hl
    cases p with
    | moving u v b =>
      rw [hmoving u v b rfl, HelioRun.by_granted, show ({ r.grantUndone with state := .unsure } : HelioRun).granted = r.leaving from hundone, hl]
      exact nofun
    | onAim b =>
      cases hpr : (s.live.aimAt b).present with
      | true =>
        rw [hpresent b rfl hpr, HelioRun.by_granted, State.adoptedRecord_granted]
        exact fun h1 => ha (congrArg Position.onAim (Option.some.inj h1))
      | false =>
        rw [habsent b rfl hpr, HelioRun.by_granted, (HelioRun.owing_fields _ _).2.1]
        exact nofun
    | clear => exact absurd rfl hc
    | atStandby =>
      rw [hrested .standby rfl, HelioRun.by_granted]
      exact nofun
    | stowed =>
      rw [hrested .stowed rfl, HelioRun.by_granted]
      exact nofun
  | some b =>
    obtain ⟨hrested, hmoving, hother⟩ := State.placedOff_reAim (s := s) hst hq hl (hb b hl) hc
    have hold : r.grantUndone.granted ≠ some a := by
      rw [hundone, ← hg]
      exact (hgood.sound.2.1 (by rw [hl]; rfl)).2.symm
    by_cases hpl : ∃ place : Rest, p = place.position
    · obtain ⟨place, hpl⟩ := hpl
      rw [hrested place hpl, HelioRun.by_granted]
      exact nofun
    · by_cases hm : p = .moving true false b
      · rw [hmoving hm, HelioRun.by_granted]
        exact hold
      · rw [hother (fun place hpl1 => hpl ⟨place, hpl1⟩) hm, HelioRun.by_granted, (HelioRun.owing_fields _ _).2.1]
        exact hold

end Queued

section Elsewhere
variable (ht : s.StatusTaken t g h st) (hp : (s.field.run h).Plain st) (hst : (s.field.run h).state = .slewing)
  (hacc : (s.field.run h).accepted = false) (hg : (s.field.run h).granted = some a)
  (hm : st.position ≠ .moving true false a) (ha : st.position ≠ .onAim a) (hc : st.position ≠ .clear)
  (hn : ¬ st.position.Agrees s.live (s.field.run h))
include ht hp hst hacc hg hm ha hc hn

/-- The record that such a position makes. -/
theorem State.StatusTaken.elsewhere (hx : s.placedOff st.position (s.field.run h) = (s.field.run h).by c new)
    (hfault : new.fault = none)
    (hnew : new.owed.isSome = true ∨ new.state ≠ .tracking ∨ new.granted = (s.field.run h).granted ∨ new.granted = (s.field.run h).leaving) :
    s.AnswerMade t g h c new :=
  ht.made_of (State.statused_of_placed hp ((State.placed_elsewhereUnaccepted hst hacc hg hm ha hc hn).trans hx) (Or.inr (Or.inr hfault))) hnew

variable (hgood : (s.field.run h).Good) (hf : (s.field.run h).fault = none) (hq : (s.field.run h).queued = true)

include hgood hf hq

omit ht in
theorem State.statused_elsewhere : (s.statused st (s.field.run h)).granted ≠ some a := by
  rw [State.statused_plain hp, State.placed_elsewhereUnaccepted hst hacc hg hm ha hc hn]
  have hgone := State.placedOff_granted (s := s) hst hg hq hgood hf ha hc fun b hl => Position.not_onAim_of_disagrees hgood hst hn hl
  unfold HelioRun.faultedAtRest
  split
  · exact nofun
  · exact hgone

/-- The settle sets hear of the withdrawal (R120). -/
theorem State.StatusTaken.hearsElsewhere : s.SettleSetsHear t h a false :=
  ht.hear hq a hg (State.statused_elsewhere hp hst hacc hg hm ha hc hn hgood hf hq)

/-- A re-aim whose grant is withdrawn is TRACKING its old aim, and judged by R77. -/
theorem State.StatusTaken.reAimElsewhere (hl : (s.field.run h).leaving = some b) :
    let undone := (s.field.run h).grantUndone
    (∀ place : Rest, st.position = place.position → s.AnswerMade t g h (some .driveLeft) (undone.restedAt place))
      ∧ (st.position = .moving true false b → s.AnswerMade t g h (some .driveLeft) undone)
      ∧ (st.position ≠ .atStandby → st.position ≠ .stowed → st.position ≠ .moving true false b →
        s.AnswerMade t g h (some .driveLeft) (undone.owing .driveLeft)) := by
  intro undone
  have hfault : undone.fault = none := (s.field.run h).grantUndone_fields.2.2.1.trans hf
  obtain ⟨hrested, hmoving, hother⟩ := State.placedOff_reAim (s := s) hst hq hl (Position.not_onAim_of_disagrees hgood hst hn hl) hc
  have hmade := fun (new : HelioRun) hx => ht.elsewhere (c := some .driveLeft) (new := new) hp hst hacc hg hm ha hc hn hx
  refine ⟨fun place hpl => ?_, fun hmv => ?_, fun h1 h2 hmv => ?_⟩
  · exact hmade _ (hrested place hpl) hfault (Or.inr (Or.inl (by cases place <;> exact nofun)))
  · exact hmade _ (hmoving hmv) hfault (Or.inr (Or.inr (Or.inr (HelioRun.granted_grantUndone _))))
  · refine hmade _ (hother (fun place hpl => ?_) hmv) ((HelioRun.owing_fault _ _).trans hfault) (Or.inl (HelioRun.owing_owed _ _))
    cases place
    · exact h1 hpl
    · exact h2 hpl

/-- A grant from rest that is withdrawn is at rest, and judged by R80. -/
theorem State.StatusTaken.restElsewhere (hl : (s.field.run h).leaving = none) :
    let undone := (s.field.run h).grantUndone
    ((∃ u v b, st.position = .moving u v b) → s.AnswerMade t g h (some .survey) { undone with state := .unsure })
      ∧ (∀ b, st.position = .onAim b → (s.live.aimAt b).present = true → s.Adopted t g h b undone)
      ∧ (∀ b, st.position = .onAim b → (s.live.aimAt b).present = false →
        s.AnswerMade t g h (some .survey) (undone.lostOff.owing .survey))
      ∧ ∀ place : Rest, st.position = place.position →
        s.AnswerMade t g h (some (if place = (s.field.run h).rest then .driveLeft else .survey)) (undone.restedAt place) := by
  intro undone
  have hfault : undone.fault = none := (s.field.run h).grantUndone_fields.2.2.1.trans hf
  obtain ⟨hmoving, hpresent, habsent, hrested⟩ := State.placedOff_rest (s := s) (p := st.position) hst hq hgood hf hl
  have hmade := fun (c : Cause) (new : HelioRun) hx => ht.elsewhere (c := some c) (new := new) hp hst hacc hg hm ha hc hn hx
  refine ⟨fun ⟨u, v, b, hmv⟩ => ?_, fun b hb hpr => ?_, fun b hb hpr => ?_, fun place hpl => ?_⟩
  · exact hmade _ _ (hmoving u v b hmv) hfault (Or.inr (Or.inl nofun))
  · refine ht.adoptedAs ?_ (fun h1 => ha ?_) (by rw [hl]; exact nofun)
    · exact State.statused_of_placed hp ((State.placed_elsewhereUnaccepted hst hacc hg hm ha hc hn).trans (hpresent b hb hpr))
        (Or.inl (by rw [State.adoptedRecord_state]; exact ⟨nofun, nofun⟩))
    · rw [hb, Option.some.inj (h1.symm.trans hg)]
  · refine hmade _ _ (habsent b hb hpr) ((HelioRun.owing_fault _ _).trans hfault) (Or.inl (HelioRun.owing_owed _ _))
  · exact hmade _ _ (hrested place hpl) hfault (Or.inr (Or.inl (by cases place <;> exact nofun)))

end Elsewhere

end Sys2Proof.Machine
end

section
/-! PROOFS for segment exchanges: the answers to a heliostat whose move is not yet accepted (R69, R70, R78, R120). -/

namespace Sys2Proof.Machine

variable {s : State} {n : Fin 4} {x : Exchange} {a : Nat} {origin : Option Origin} {st : Status} {p : Position} {code : Byte}

/-- A BUSY without flags from where the record does not put the drive (R69, R77). -/
theorem State.busyElsewhere (hx : s.Aiming n x a) (hk : x.kind = .moveAim origin) (hp : (s.field.run x.helio).Plain st)
    (hacc : (s.field.run x.helio).accepted = false) (hm : st.position ≠ .moving true false a) (ha : st.position ≠ .onAim a)
    (hc : st.position ≠ .clear) (hn : ¬ st.position.Agrees s.live (s.field.run x.helio)) (found : Option Finding) :
    s.AnswerMade (s.endExchange n x found fun env f e => e.answer env f n x.kind (.busy st)) n x.helio (some .driveLeft)
      ((s.field.run x.helio).owing .driveLeft) := by
  have hseen := State.statused_owing (s := s) hx.slewing hacc hx.granted hx.unqueued hp hm ha hc hn
  refine State.AnswerMade.of_by ?_
  rw [← hseen]
  refine (State.busyAim hx hk st found).2.2 fun hw => ?_
  obtain ⟨y, hy⟩ := HelioRun.by_cause (some .driveLeft) (s.field.run x.helio) ((s.field.run x.helio).owing .driveLeft)
  have ho := HelioRun.owing_owed .driveLeft (s.field.run x.helio)
  have hnone := hw.2.2
  rw [hseen, hy] at hnone
  rw [show ((s.field.run x.helio).owing .driveLeft).owed = none from hnone] at ho
  cases ho

/-- A status without flags, of a QUERY or of a BUSY, that shows the move under way or done (R69, R78). -/
theorem State.aim_underWay {frame : List Byte} {fr : SegFrame} {answer : Answer} (hd : s.AnswerDue n x frame fr)
    (ha : readAnswer fr.kind fr.params = some answer)
    (hans : (answer = .busy st ∧ x.kind = .moveAim origin) ∨ (answer = .status st ∧ x.kind = .query))
    (hs : s.Sound) (hz : s.ZonesSettled) (hl : s.field.LinesExact s.env) (ht : s.field.Tidy) (hp : (s.field.run x.helio).Plain st)
    (hst : (s.field.run x.helio).state = .slewing) (hacc : (s.field.run x.helio).accepted = false)
    (hg : (s.field.run x.helio).granted = some a) :
    let t := s.endExchange n x (answer.finding s.env) fun env f e => e.answer env f n x.kind answer
    let r := s.field.run x.helio
    let underWay := r.underWay s.now s.live.slewLimit
    (st.position = .moving true false a → s.AnswerMade t n x.helio none underWay)
      ∧ (st.position = .onAim a → s.AnswerMade t n x.helio r.motionCause underWay.arrived)
      ∧ (st.position = .moving true false a ∨ st.position = .onAim a → ∀ en ∈ (t.field.sxeAt n).queue, en.helio ≠ x.helio) := by
  intro t r underWay
  have hmoving := fun hm : st.position = .moving true false a => State.aim_shown hd ha hans hs hz hl ht hst hg
    (State.statused_underWay (s := s) hst hacc hg hp hm) (fun _ => rfl) rfl rfl
  have harrived := fun hon : st.position = .onAim a => State.aim_shown hd ha hans hs hz hl ht hst hg
    (State.statused_arrived (s := s) hst hacc hg hp hon) nofun rfl rfl
  exact ⟨fun hm => (hmoving hm).1, fun hon => (harrived hon).1, fun hc => hc.elim (fun hm => (hmoving hm).2) fun hon => (harrived hon).2⟩

/-- Settles O58: the outcome of a REJECT or a BUSY to a waiting grant eases the record, so that the FAU's tests do nothing; what a status
makes of that record is a case of R76 to R80, a queued grant's revocation coming first. -/
theorem rejectedAimIsRevoked : Obligations.RejectedAimIsRevoked := by
  unfold Obligations.RejectedAimIsRevoked
  intro s g x frame fr answer a hd ha hst hg hs hz _ h r undone underWay origin _ hperm
  have ⟨_, hx, _⟩ := hd
  refine ⟨_, State.exec_answer hd ha hperm, ?_⟩
  intro made
  refine ⟨fun hk => ⟨fun reason he => ?_, fun p code he hl hacc hlx hty hag => ?_, fun p code he hl hacc hlx hty hm hon => ?_,
    fun st he hlx hty => ?_⟩, fun p code hans hl hacc hf hlx hty => ?_⟩
  · subst he
    obtain ⟨h1, h2, h3⟩ := State.aimRejected (n := g) hs hz hk hst hg reason ((Answer.reject reason).finding s.env)
    refine ⟨h1, h2, fun fault hfault => h3 fault ?_⟩
    rcases hfault with ⟨rfl, rfl⟩ | ⟨rfl, rfl⟩
    · exact .fault
    · exact .localControl
  · subst he
    have haim := State.aiming_of hs hz hlx hty hx hk hst hg
    exact State.busyTaken_of haim hk ((State.statused_of_kept ⟨rfl, rfl, rfl, hl⟩ (State.placed_agrees haim.good hag)).trans
      (HelioRun.by_none _ _).symm) hst hacc _
  · subst he
    have haim := State.aiming_of hs hz hlx hty hx hk hst hg
    exact ⟨fun hc hn => State.busyElsewhere haim hk ⟨rfl, rfl, rfl, hl⟩ hacc hm hon hc hn _,
      fun hc _ => State.busyTaken_of haim hk (State.statused_clear hst hacc ⟨rfl, rfl, rfl, hl⟩ hc) hst hacc _⟩
  · subst he
    exact State.busyAim (State.aiming_of hs hz hlx hty hx hk hst hg) hk st _
  · have hp : r.Plain ⟨p, false, false, false, code⟩ := ⟨rfl, rfl, rfl, hl⟩
    obtain ⟨hmoving, harrived, hno⟩ := State.aim_underWay hd ha hans hs hz hlx hty hp hst hacc hg
    have hquery : x.kind = .query → answer = .status ⟨p, false, false, false, code⟩ := fun hk =>
      (hans.resolve_left fun hc => nomatch hk.symm.trans hc.2).1
    refine ⟨hmoving, harrived, hno, fun hk hc => ?_, fun hk hm hon hc hn => ?_⟩
    · obtain rfl := hquery hk
      exact (State.statusTaken_of hd hk ha hs hz hlx hty).made_of (State.statused_clear hst hacc hp hc) (Or.inr (Or.inr (Or.inl rfl)))
    · obtain rfl := hquery hk
      have ht := State.statusTaken_of hd hk ha hs hz hlx hty
      have hgood : r.Good := ⟨hs.records h, hty.records h⟩
      refine ⟨fun hq => ?_, fun hq => ⟨ht.hearsElsewhere hp hst hacc hg hm hon hc hn hgood hf hq, ?_, fun b hb => ?_, fun hb => ?_⟩⟩
      · exact ht.made_of (State.statused_owing hst hacc hg hq hp hm hon hc hn) (Or.inl (HelioRun.owing_owed _ _))
      · have hgone := State.statused_elsewhere hp hst hacc hg hm hon hc hn hgood hf hq
        exact State.no_entry_status hlx (hlx.exchange g x hx).1 hgood hst (State.outcome_query hk _)
          (State.statused_unqueued hgood hst fun hc => hgone (hc.trans hg)) _
      · obtain ⟨h1, h2, h3⟩ := ht.reAimElsewhere hp hst hacc hg hm hon hc hn hgood hf hq hb
        exact ⟨h1 .standby, h1 .stowed, h2, h3⟩
      · obtain ⟨h1, h2, h3, h4⟩ := ht.restElsewhere hp hst hacc hg hm hon hc hn hgood hf hq hb
        exact ⟨h1, h2, h3, fun place hpl => h4 place (hpl.trans (by cases place <;> rfl))⟩

end Sys2Proof.Machine
end
